-- ==== Sys2Proof/Word.lean ====
section
/-! DEFINITION. The word types of the package and their plainest arithmetic. -/
namespace Sys2Proof

/-- A 64-bit scalar value (R25). -/
abbrev Word := BitVec 64

/-- One byte. -/
abbrev Byte := BitVec 8

/-- The 64 lanes of 32 bits of a vector register (R158, R159). -/
abbrev Lanes := Vector (BitVec 32) 64

/-- A 64-bit mask over lanes. -/
abbrev LMask := BitVec 64

/-- The all-zero lanes. -/
def Lanes.zero : Lanes := Vector.replicate 64 0

end Sys2Proof
end

