-- ==== Sys2Proof/Config.lean ====
section
/-! DEFINITION. What an implementation fixes and the free values. Every free value is an opaque constant applied to the
counter `free` of the state or to the operands it depends on: nothing in Lean can evaluate it. -/
namespace Sys2Proof

/-- The free contents, 64 bytes, of a granule that an abandoned asynchronous write had marked empty (R42, R310), from the counter. DESIGN CHOICE: log 5. -/
opaque Config.freeGranule : Nat → Vector (BitVec 8) 64
/-- Which of several things that can happen next happens (R260, R281: orders and times the manual does not fix). DESIGN CHOICE: log 1. -/
opaque Config.freeChoice : Nat → Nat
/-- How many device cycles beyond its lower bound the memory scheduler promises (R308), from the counter. DESIGN CHOICE: log 5. -/
opaque Config.promiseSlack : Nat → Nat
/-- How many device cycles beyond its lower bound the governor answers an ASK (R323) or a check (R373), from the counter. DESIGN CHOICE: log 5. -/
opaque Config.askSlack : Nat → Nat
/-- How many device cycles beyond 1,024 the control die takes to a clock change (R382), from the counter. DESIGN CHOICE: log 5. -/
opaque Config.clockSlack : Nat → Nat
/-- Where the memory-side cache of a die holds an 8-byte word (R260, R350), of 65,536 rows. DESIGN CHOICE: log 7. -/
opaque Config.cacheRow : Nat → Nat
/-- The 32-byte device sealing secret (R371, R420). DESIGN CHOICE: log 12, as for the rest. -/
opaque Config.sealingSecret : Vector (BitVec 8) 32
/-- The device identity block (R1, R2, R419). -/
opaque Config.identityBlock : List (BitVec 8)
/-- The device's Ed448 signature (RFC 8032) of a message (R419). -/
opaque Config.sign448 : List (BitVec 8) → List (BitVec 8)
/-- A fresh X448 public key (RFC 7748), from the counter (R419). -/
opaque Config.x448Public : Nat → List (BitVec 8)
/-- AES-256-GCM sealing: key, nonce, associated data, plaintext; ciphertext and tag (R420). -/
opaque Config.gcmSeal : List (BitVec 8) → List (BitVec 8) → List (BitVec 8) → List (BitVec 8) → List (BitVec 8)
/-- AES-256-GCM opening: key, nonce, associated data, ciphertext with its tag; the plaintext where the tag is right (R420). -/
opaque Config.gcmOpen : List (BitVec 8) → List (BitVec 8) → List (BitVec 8) → List (BitVec 8) → Option (List (BitVec 8))
/-- The X448 secret shared with the peer of the given public key (R420). -/
opaque Config.x448Shared : List (BitVec 8) → List (BitVec 8)

end Sys2Proof
end

