-- ==== Sys2Proof/Syntax.lean ====
section
/-! DEFINITION. The instructions: one constructor per row of spec/opcode_table.json. A constructor of a word carries
the raw fields of its form (R88, R94, R98, R99, R100); a constructor of an event that has no encoding carries the
operands that say where and with what the event happens. -/
namespace Sys2Proof

/-- The fields of a SR-form word below the opcode, most significant first (chapter 04, R88 to R101). -/
structure SRWord where
  /-- bits [21:19] -/
  idle : BitVec 3
  /-- bits [18:13] -/
  d : BitVec 6
  /-- bits [12:7] -/
  a : BitVec 6
  /-- bits [6:1] -/
  b : BitVec 6
  /-- bits [0:0] -/
  z : BitVec 1
  deriving DecidableEq, Repr

/-- The fields of a SI-form word below the opcode, most significant first (chapter 04, R88 to R101). -/
structure SIWord where
  /-- bits [21:19] -/
  idle : BitVec 3
  /-- bits [18:13] -/
  d : BitVec 6
  /-- bits [12:7] -/
  a : BitVec 6
  /-- bits [6:0] -/
  imm : BitVec 7
  deriving DecidableEq, Repr

/-- The fields of a SL-form word below the opcode, most significant first (chapter 04, R88 to R101). -/
structure SLWord where
  /-- bits [21:19] -/
  idle : BitVec 3
  /-- bits [18:13] -/
  d : BitVec 6
  /-- bits [12:0] -/
  imm : BitVec 13
  deriving DecidableEq, Repr

/-- The fields of a SB-form word below the opcode, most significant first (chapter 04, R88 to R101). -/
structure SBWord where
  /-- bits [21:19] -/
  idle : BitVec 3
  /-- bits [18:16] -/
  cond : BitVec 3
  /-- bits [15:10] -/
  a : BitVec 6
  /-- bits [9:0] -/
  off : BitVec 10
  deriving DecidableEq, Repr

/-- The fields of a SJ-form word below the opcode, most significant first (chapter 04, R88 to R101). -/
structure SJWord where
  /-- bits [21:19] -/
  idle : BitVec 3
  /-- bits [18:0] -/
  off : BitVec 19
  deriving DecidableEq, Repr

/-- The fields of a SF-form word below the opcode, most significant first (chapter 04, R88 to R101). -/
structure SFWord where
  /-- bits [21:19] -/
  idle : BitVec 3
  /-- bits [18:3] -/
  cmask : BitVec 16
  /-- bits [2:0] -/
  scope : BitVec 3
  deriving DecidableEq, Repr

/-- The fields of a SC-form word below the opcode, most significant first (chapter 04, R88 to R101). -/
structure SCWord where
  /-- bits [21:19] -/
  idle : BitVec 3
  /-- bits [18:13] -/
  r : BitVec 6
  /-- bits [12:0] -/
  csr : BitVec 13
  deriving DecidableEq, Repr

/-- The fields of a SG-form word below the opcode, most significant first (chapter 04, R88 to R101). -/
structure SGWord where
  /-- bits [21:19] -/
  idle : BitVec 3
  /-- bits [18:13] -/
  d : BitVec 6
  /-- bits [12:7] -/
  a : BitVec 6
  /-- bits [6:3] -/
  cls : BitVec 4
  /-- bits [2:1] -/
  rsv : BitVec 2
  /-- bits [0:0] -/
  z : BitVec 1
  deriving DecidableEq, Repr

/-- The fields of a SX-form word below the opcode, most significant first (chapter 04, R88 to R101). -/
structure SXWord where
  /-- bits [21:19] -/
  idle : BitVec 3
  /-- bits [18:13] -/
  a : BitVec 6
  /-- bits [12:10] -/
  stg : BitVec 3
  /-- bits [9:4] -/
  len : BitVec 6
  /-- bits [3:0] -/
  rsv : BitVec 4
  deriving DecidableEq, Repr

/-- The fields of a SQ-form word below the opcode, most significant first (chapter 04, R88 to R101). -/
structure SQWord where
  /-- bits [21:19] -/
  idle : BitVec 3
  /-- bits [18:18] -/
  file : BitVec 1
  /-- bits [17:13] -/
  basea : BitVec 5
  /-- bits [12:9] -/
  lena : BitVec 4
  /-- bits [8:4] -/
  baseb : BitVec 5
  /-- bits [3:0] -/
  lenb : BitVec 4
  deriving DecidableEq, Repr

/-- The fields of a VA-form word below the opcode, most significant first (chapter 04, R88 to R101). -/
structure VAWord where
  /-- bits [85:83] -/
  idle : BitVec 3
  /-- bits [82:75] -/
  d : BitVec 8
  /-- bits [74:67] -/
  a : BitVec 8
  /-- bits [66:59] -/
  b : BitVec 8
  /-- bits [58:51] -/
  c : BitVec 8
  /-- bits [50:48] -/
  mask : BitVec 3
  /-- bits [47:47] -/
  mz : BitVec 1
  /-- bits [46:43] -/
  ty : BitVec 4
  /-- bits [42:40] -/
  rnd : BitVec 3
  /-- bits [39:36] -/
  rot : BitVec 4
  /-- bits [35:33] -/
  stage : BitVec 3
  /-- bits [32:0] -/
  imm : BitVec 33
  deriving DecidableEq, Repr

/-- The fields of a VM-form word below the opcode, most significant first (chapter 04, R88 to R101). -/
structure VMWord where
  /-- bits [85:83] -/
  idle : BitVec 3
  /-- bits [82:75] -/
  v : BitVec 8
  /-- bits [74:67] -/
  base : BitVec 8
  /-- bits [66:59] -/
  stride : BitVec 8
  /-- bits [58:51] -/
  c : BitVec 8
  /-- bits [50:48] -/
  mask : BitVec 3
  /-- bits [47:47] -/
  mz : BitVec 1
  /-- bits [46:43] -/
  ty : BitVec 4
  /-- bits [42:40] -/
  rnd : BitVec 3
  /-- bits [39:36] -/
  rot : BitVec 4
  /-- bits [35:33] -/
  stage : BitVec 3
  /-- bits [32:29] -/
  cls : BitVec 4
  /-- bits [28:23] -/
  rsv : BitVec 6
  /-- bits [22:0] -/
  off : BitVec 23
  deriving DecidableEq, Repr

/-- The fields of a C-form word below the opcode, most significant first (chapter 04, R88 to R101). -/
structure CWord where
  /-- bits [85:83] -/
  idle : BitVec 3
  /-- bits [82:75] -/
  dst : BitVec 8
  /-- bits [74:67] -/
  src : BitVec 8
  /-- bits [66:59] -/
  shape : BitVec 8
  /-- bits [58:51] -/
  aux : BitVec 8
  /-- bits [50:47] -/
  kind : BitVec 4
  /-- bits [46:43] -/
  cls : BitVec 4
  /-- bits [42:41] -/
  rsva : BitVec 2
  /-- bits [40:40] -/
  cw : BitVec 1
  /-- bits [39:36] -/
  rot : BitVec 4
  /-- bits [35:33] -/
  stage : BitVec 3
  /-- bits [32:4] -/
  rsvb : BitVec 29
  /-- bits [3:0] -/
  rtype : BitVec 4
  deriving DecidableEq, Repr

/-- The fields of a M-form word below the opcode, most significant first (chapter 04, R88 to R101). -/
structure MWord where
  /-- bits [181:179] -/
  idle : BitVec 3
  /-- bits [178:157] -/
  abase : BitVec 22
  /-- bits [156:151] -/
  areg : BitVec 6
  /-- bits [150:135] -/
  astride : BitVec 16
  /-- bits [134:131] -/
  afmt : BitVec 4
  /-- bits [130:109] -/
  hbase : BitVec 22
  /-- bits [108:99] -/
  m : BitVec 10
  /-- bits [98:93] -/
  k : BitVec 6
  /-- bits [92:87] -/
  n : BitVec 6
  /-- bits [86:77] -/
  crow : BitVec 10
  /-- bits [76:70] -/
  ccol : BitVec 7
  /-- bits [69:69] -/
  acc : BitVec 1
  /-- bits [68:68] -/
  ck : BitVec 1
  /-- bits [67:66] -/
  chain : BitVec 2
  /-- bits [65:62] -/
  mcast : BitVec 4
  /-- bits [61:59] -/
  rnd : BitVec 3
  /-- bits [58:58] -/
  arot : BitVec 1
  /-- bits [57:55] -/
  stage : BitVec 3
  /-- bits [54:49] -/
  hreg : BitVec 6
  /-- bits [48:48] -/
  hrot : BitVec 1
  /-- bits [47:0] -/
  rsv : BitVec 48
  deriving DecidableEq, Repr

/-- Named state of a core that parity covers (R325): for the freeze of R41, and for parity errors. -/
inductive Ref where
  | s (r : Nat)
  | v (r : Nat)
  /-- entries of the result queues, by distance from the last push -/
  | q (i : Nat)
  | vq (i : Nat)
  | k (r : Nat)
  | x (r : Nat)
  | csr (n : Nat)
  /-- the state of the loop buffer -/
  | loop
  deriving DecidableEq, Repr

/-- What a soft error strikes (R353, R325), and the bits of the 8-byte word or cell that it flips. One flipped bit of a
SECDED word is corrected when a read finds it; more are uncorrectable (R144, R263, R267). -/
inductive Upset where
  /-- a scratchpad word of a core -/
  | spad (core addr : Nat) (flip : BitVec 64)
  /-- an accumulator cell, bits flipped by `flip` -/
  | cell (core row col : Nat) (flip : BitVec 32)
  /-- a word of global memory -/
  | mem (pa : Nat) (flip : BitVec 64)
  /-- a word of a memory-side cache -/
  | cache (pa : Nat) (flip : BitVec 64)
  /-- an 8-byte word of a commit-buffer entry -/
  | held (core id word : Nat) (flip : BitVec 64)
  /-- an entry snapshot of the open region, or of a closing one -/
  | snapshot (core rgn : Nat)
  /-- named state under parity; `flip` are flipped bits of a scalar register, or of lane `lane` of a vector register -/
  | named (core : Nat) (r : Ref) (lane : Nat) (flip : BitVec 64)
  /-- a line of the L1 of a core -/
  | l1 (core pa : Nat) (flip : BitVec 64)
  /-- a word of the control die's own SRAM, which its code corrects -/
  | control (addr : Nat) (flip : BitVec 64)
  deriving DecidableEq, Repr

/-- Where a host register access goes (R407, R408). -/
inductive RegTarget where
  /-- BAR 0 of a virtual function, at a byte offset -/
  | bar0 (vf off : Nat)
  /-- BAR 2 of PF 0, the device-register window, at a byte offset -/
  | bar2 (off : Nat)
  deriving DecidableEq, Repr

/-- Parameters of one partition (command type 7, R415). -/
structure PartParams where
  td : Nat
  tk : Nat
  tokenRate : Nat
  tokenDepth : Nat
  leaveLimit : Nat
  coreLeaveLimit : Nat
  copyBandwidth : Nat
  poolBase : Nat
  poolSlot : Nat
  poolCount : Nat
  deriving DecidableEq, Repr

/-- Parameters of the package (command type 8, R415). -/
structure PackParams where
  cap : Nat
  threshold : Nat
  scrubHbm : Nat
  scrubCache : Nat
  ptpInterval : Nat
  deriving DecidableEq, Repr

/-- What an invalidation covers (R275). -/
inductive InvScope where
  | page (va : Nat)
  | range (va len : Nat)
  | whole
  deriving DecidableEq, Repr

/-- One constructor per row of the opcode table. -/
inductive Instr where
  /-- R116. Adds a and b modulo 2^64 and lands the sum in d after 1 cycle. -/
  | add (w : SRWord)
  /-- R116. Subtracts b from a modulo 2^64 and lands the result in d after 1 cycle. -/
  | sub (w : SRWord)
  /-- R116. Lands bits [63:0] of a × b in d after 3 cycles. -/
  | mul (w : SRWord)
  /-- R116. Lands bits [127:64] of the signed product a × b in d after 3 cycles. -/
  | mulh (w : SRWord)
  /-- R116. Lands bits [127:64] of the unsigned product a × b in d after 3 cycles. -/
  | mulhu (w : SRWord)
  /-- R116. Lands the signed quotient of a by b, truncated towards zero, after 24 cycles; division by zero gives all ones. -/
  | div (w : SRWord)
  /-- R116. Lands the unsigned quotient of a by b after 24 cycles; division by zero gives all ones. -/
  | divu (w : SRWord)
  /-- R116. Lands the signed remainder of a by b after 24 cycles. -/
  | rem (w : SRWord)
  /-- R116. Lands the unsigned remainder of a by b after 24 cycles. -/
  | remu (w : SRWord)
  /-- R116. Lands a AND b in d. -/
  | andR (w : SRWord)
  /-- R116. Lands a OR b in d. -/
  | orR (w : SRWord)
  /-- R116. Lands a XOR b in d. -/
  | xorR (w : SRWord)
  /-- R116. Lands a AND NOT b in d. -/
  | andn (w : SRWord)
  /-- R116. Lands a shifted left by b[5:0] in d. -/
  | shl (w : SRWord)
  /-- R116. Lands a shifted right logically by b[5:0] in d. -/
  | shr (w : SRWord)
  /-- R116. Lands a shifted right arithmetically by b[5:0] in d. -/
  | sra (w : SRWord)
  /-- R116. Lands the signed smaller of a and b in d. -/
  | min (w : SRWord)
  /-- R116. Lands the signed larger of a and b in d. -/
  | max (w : SRWord)
  /-- R116. Lands the unsigned smaller of a and b in d. -/
  | minu (w : SRWord)
  /-- R116. Lands the unsigned larger of a and b in d. -/
  | maxu (w : SRWord)
  /-- R116. Lands 1 if a < b signed, else 0. -/
  | slt (w : SRWord)
  /-- R116. Lands 1 if a < b unsigned, else 0. -/
  | sltu (w : SRWord)
  /-- R116. Lands 1 if a = b, else 0. -/
  | seq (w : SRWord)
  /-- R116. Lands 1 if a ≠ b, else 0. -/
  | sne (w : SRWord)
  /-- R116. Lands b if a is zero, otherwise the old value of d. -/
  | selz (w : SRWord)
  /-- R116. Lands the number of leading zero bits of a. -/
  | clz (w : SRWord)
  /-- R116. Lands the number of trailing zero bits of a. -/
  | ctz (w : SRWord)
  /-- R116. Lands the number of one bits of a. -/
  | popc (w : SRWord)
  /-- R117. Extracts a bit field of a described by b, optionally sign-extended, into d. -/
  | bfx (w : SRWord)
  /-- R117. Inserts a into a bit field of the old d described by b. -/
  | bfi (w : SRWord)
  /-- R116. Lands a + (b << 1) in d. -/
  | addx2 (w : SRWord)
  /-- R116. Lands a + (b << 2) in d. -/
  | addx4 (w : SRWord)
  /-- R116. Lands a + (b << 3) in d. -/
  | addx8 (w : SRWord)
  /-- R118. Lands a plus the sign-extended 7-bit immediate in d. -/
  | addi (w : SIWord)
  /-- R118. Lands a AND the sign-extended immediate in d. -/
  | andi (w : SIWord)
  /-- R118. Lands a OR the sign-extended immediate in d. -/
  | ori (w : SIWord)
  /-- R118. Lands a XOR the sign-extended immediate in d. -/
  | xori (w : SIWord)
  /-- R118. Lands a shifted left by an immediate amount in d. -/
  | shli (w : SIWord)
  /-- R118. Lands a shifted right logically by an immediate amount in d. -/
  | shri (w : SIWord)
  /-- R118. Lands a shifted right arithmetically by an immediate amount in d. -/
  | srai (w : SIWord)
  /-- R118. Lands 1 if a is below the signed immediate, else 0. -/
  | slti (w : SIWord)
  /-- R119. Lands the sign-extended 13-bit immediate in d. -/
  | movi (w : SLWord)
  /-- R119. Shifts the old d left by 13 and ORs in the 13-bit immediate. -/
  | movsh (w : SLWord)
  /-- R123. Branches to the word address + 4 × off10 when the condition on a holds. -/
  | br (w : SBWord)
  /-- R124. Jumps to the word address + 4 × off19. -/
  | jmp (w : SJWord)
  /-- R124. Jumps to the scratchpad address held in a. -/
  | jmpr (w : SRWord)
  /-- R125. Pushes the return address below sp, lowers sp by 8 and jumps to the PC-relative target. -/
  | call (w : SJWord)
  /-- R125. Pushes the return address below sp, lowers sp by 8 and jumps to the address in a. -/
  | callr (w : SRWord)
  /-- R126. Reads the return address at sp, raises sp by 8 and jumps there. -/
  | ret (w : SRWord)
  /-- R132. Checks and runs the following body words as a modulo-scheduled kernel for a trip count, with the pending rings. -/
  | loop (w : SXWord)
  /-- R131. Declares up to two rotating register rings for the next LOOP. -/
  | loopr (w : SQWord)
  /-- R128. Does nothing; the next word counts its idle count from the NOP's cycle plus the count. -/
  | nop (w : SJWord)
  /-- R129. Freezes the core until device time reaches a. -/
  | waitt (w : SRWord)
  /-- R130. Ends the open region and the step; no later word issues. -/
  | ends (w : SRWord)
  /-- R362. Raises the TRAP cause with TVAL set to the immediate. -/
  | trap (w : SLWord)
  /-- R363. Leaves trap mode, restores state from the save area and re-issues recorded operations so that the stream resumes at TPC. -/
  | rett (w : SRWord)
  /-- R140. Loads a sign-extended byte of own scratchpad into d after 4 cycles. -/
  | ldsB (w : SIWord)
  /-- R140. Loads a zero-extended byte of own scratchpad into d. -/
  | ldsBu (w : SIWord)
  /-- R140. Loads a sign-extended halfword of own scratchpad into d. -/
  | ldsH (w : SIWord)
  /-- R140. Loads a zero-extended halfword of own scratchpad into d. -/
  | ldsHu (w : SIWord)
  /-- R140. Loads a sign-extended word of own scratchpad into d. -/
  | ldsW (w : SIWord)
  /-- R140. Loads a zero-extended word of own scratchpad into d. -/
  | ldsWu (w : SIWord)
  /-- R140. Loads a doubleword of own scratchpad into d. -/
  | ldsD (w : SIWord)
  /-- R141. Stores the low byte of d to own scratchpad at issue + 2. -/
  | stsB (w : SIWord)
  /-- R141. Stores the low halfword of d to own scratchpad. -/
  | stsH (w : SIWord)
  /-- R141. Stores the low word of d to own scratchpad. -/
  | stsW (w : SIWord)
  /-- R141. Stores all 64 bits of d to own scratchpad. -/
  | stsD (w : SIWord)
  /-- R146. Adds two FP32 values, rounded in RMODE, landing after 4 cycles. -/
  | faddS (w : SRWord)
  /-- R146. Subtracts two FP32 values, rounded in RMODE. -/
  | fsubS (w : SRWord)
  /-- R146. Multiplies two FP32 values, rounded in RMODE. -/
  | fmulS (w : SRWord)
  /-- R146. Computes a × b + old d in FP32 with one rounding. -/
  | ffmaS (w : SRWord)
  /-- R146. Divides two FP32 values, landing after 12 cycles. -/
  | fdivS (w : SRWord)
  /-- R146. Computes the FP32 square root of a. -/
  | fsqrtS (w : SRWord)
  /-- R147. Lands the lesser of two FP32 values, ordering −0 below +0. -/
  | fminS (w : SRWord)
  /-- R147. Lands the greater of two FP32 values. -/
  | fmaxS (w : SRWord)
  /-- R147. Lands −1, 0, 1 or 2 comparing two FP32 values. -/
  | fcmpS (w : SRWord)
  /-- R148. Lands the class mask of an FP32 value. -/
  | fclassS (w : SRWord)
  /-- R146. Lands a with its FP32 sign bit cleared. -/
  | fabsS (w : SRWord)
  /-- R146. Lands a with its FP32 sign bit inverted. -/
  | fnegS (w : SRWord)
  /-- R149. Converts a between the scalar formats selected by b, landing after 3 cycles. -/
  | fcvt (w : SRWord)
  /-- R146. Adds two FP64 values, landing after 6 cycles. -/
  | faddD (w : SRWord)
  /-- R146. Subtracts two FP64 values. -/
  | fsubD (w : SRWord)
  /-- R146. Multiplies two FP64 values. -/
  | fmulD (w : SRWord)
  /-- R146. Computes a × b + old d in FP64 with one rounding. -/
  | ffmaD (w : SRWord)
  /-- R146. Divides two FP64 values, landing after 20 cycles. -/
  | fdivD (w : SRWord)
  /-- R146. Computes the FP64 square root of a. -/
  | fsqrtD (w : SRWord)
  /-- R147. Lands the lesser of two FP64 values. -/
  | fminD (w : SRWord)
  /-- R147. Lands the greater of two FP64 values. -/
  | fmaxD (w : SRWord)
  /-- R147. Lands −1, 0, 1 or 2 comparing two FP64 values. -/
  | fcmpD (w : SRWord)
  /-- R148. Lands the class mask of an FP64 value. -/
  | fclassD (w : SRWord)
  /-- R146. Lands a with its FP64 sign bit cleared. -/
  | fabsD (w : SRWord)
  /-- R146. Lands a with its FP64 sign bit inverted. -/
  | fnegD (w : SRWord)
  /-- R150. Lands the value of a CSR in d. -/
  | csrr (w : SCWord)
  /-- R150. Writes a into a CSR at issue + 1. -/
  | csrw (w : SCWord)
  /-- R150. ORs a into a CSR at issue + 1. -/
  | csrs (w : SCWord)
  /-- R150. Clears the bits of a in a CSR at issue + 1. -/
  | csrc (w : SCWord)
  /-- R284. Issues a global 4-byte read, sign-extended, delivered into d as a guarded arrival. -/
  | ldgW (w : SGWord)
  /-- R284. Issues a global 4-byte read, zero-extended, into d. -/
  | ldgWu (w : SGWord)
  /-- R284. Issues a global 8-byte read into d. -/
  | ldgD (w : SGWord)
  /-- R285. Issues a global 8-byte read at the home, refreshing the L1 line. -/
  | ldgS (w : SGWord)
  /-- R286. Holds a 4-byte global write of d until the region closes. -/
  | stgW (w : SGWord)
  /-- R286. Holds an 8-byte global write of d until the region closes. -/
  | stgD (w : SGWord)
  /-- R292. Waits for earlier regions to close and freezes until masked writes are visible at scope and masked reads have performed. -/
  | fence (w : SFWord)
  /-- R293. Freezes until earlier masked reads have performed and invalidates the L1. -/
  | fenceAcq (w : SFWord)
  /-- R155. Ends the open region and opens the next one, taking its entry snapshot. -/
  | commit (w : SRWord)
  /-- R294. Commits and orders later masked writes after the region's writes are visible at scope. -/
  | commitRel (w : SFWord)
  /-- R345. Raises POISON if a named vector, a or b is poisoned. -/
  | check (w : SRWord)
  /-- R296. Holds a 64-bit atomic add at a and ends the region; the old value returns into d. -/
  | commitAAddD (w : SRWord)
  /-- R296. Holds a 64-bit atomic signed minimum and ends the region. -/
  | commitAMinD (w : SRWord)
  /-- R296. Holds a 64-bit atomic signed maximum and ends the region. -/
  | commitAMaxD (w : SRWord)
  /-- R296. Holds a 64-bit atomic AND and ends the region. -/
  | commitAAndD (w : SRWord)
  /-- R296. Holds a 64-bit atomic OR and ends the region. -/
  | commitAOrD (w : SRWord)
  /-- R296. Holds a 64-bit atomic exchange and ends the region. -/
  | commitAXchgD (w : SRWord)
  /-- R296. Holds a 64-bit atomic compare-and-swap against old d and ends the region. -/
  | commitACasD (w : SRWord)
  /-- R296. Holds a 32-bit atomic add and ends the region. -/
  | commitAAddW (w : SRWord)
  /-- R296. Holds a 32-bit atomic signed minimum and ends the region. -/
  | commitAMinW (w : SRWord)
  /-- R296. Holds a 32-bit atomic signed maximum and ends the region. -/
  | commitAMaxW (w : SRWord)
  /-- R296. Holds a 32-bit atomic AND and ends the region. -/
  | commitAAndW (w : SRWord)
  /-- R296. Holds a 32-bit atomic OR and ends the region. -/
  | commitAOrW (w : SRWord)
  /-- R296. Holds a 32-bit atomic exchange and ends the region. -/
  | commitAXchgW (w : SRWord)
  /-- R296. Holds a 32-bit atomic compare-and-swap and ends the region. -/
  | commitACasW (w : SRWord)
  /-- R296. Holds an FP32 atomic add rounded RNE and ends the region. -/
  | commitAFaddW (w : SRWord)
  /-- R252. Holds the post of a child launch of record a with status word b. -/
  | launch (w : SRWord)
  /-- R413. LAUNCH with a = zero holds a host signal carrying b for the submitting queue's completion ring. -/
  | launchSignal (w : SRWord)
  /-- R247. Holds an invalidation of the partition's record cache. -/
  | fenceRc (w : SRWord)
  /-- R255. Sets the step's remaining-time estimate at issue. -/
  | hint (w : SRWord)
  /-- R256. Waits until device time a, resets SLIP and the clock references, and marks a phase boundary. -/
  | realign (w : SRWord)
  /-- R323. Asks the governor for a leave grant of a units for b cycles; the start time arrives in d. -/
  | ask (w : SRWord)
  /-- R318. Waits for a record at the head of a pipe and lands its length, type and payload address. -/
  | precv (w : SIWord)
  /-- R319. Moves the pipe's tentative head past the head record and holds its publication. -/
  | prelease (w : SIWord)
  /-- R367. Orders the suspension of the core's group into a continuation object at a. -/
  | suspend (w : SRWord)
  /-- R373. Checks a continuation object and holds the start of its group. -/
  | resume (w : SRWord)
  /-- R374. Checks an object and holds its copy to b under a new lineage. -/
  | fork (w : SRWord)
  /-- R375. Checks an object and holds the consumption of its generation. -/
  | discard (w : SRWord)
  /-- R166. Adds FP32 lanes under the mask, landing after 6 cycles. -/
  | vadd (w : VAWord)
  /-- R166. Subtracts FP32 lanes. -/
  | vsub (w : VAWord)
  /-- R166. Multiplies FP32 lanes. -/
  | vmul (w : VAWord)
  /-- R166. Computes a × b + c per FP32 lane with one rounding. -/
  | vfma (w : VAWord)
  /-- R166. Computes a × b − c per FP32 lane with one rounding. -/
  | vfms (w : VAWord)
  /-- R166. Computes −(a × b) + c per FP32 lane with one rounding. -/
  | vfnma (w : VAWord)
  /-- R166. Lands the lesser FP32 lane. -/
  | vmin (w : VAWord)
  /-- R166. Lands the greater FP32 lane. -/
  | vmax (w : VAWord)
  /-- R166. Clears the sign bit of each lane. -/
  | vabs (w : VAWord)
  /-- R166. Inverts the sign bit of each lane. -/
  | vneg (w : VAWord)
  /-- R167. Computes the correctly rounded reciprocal of each lane. -/
  | vrcp (w : VAWord)
  /-- R167. Computes the correctly rounded reciprocal square root of each lane. -/
  | vrsq (w : VAWord)
  /-- R167. Computes 2^a for each lane. -/
  | vexp2 (w : VAWord)
  /-- R167. Computes log2 a for each lane. -/
  | vlog2 (w : VAWord)
  /-- R168. Compares FP32 lanes and writes a mask. -/
  | vcmp (w : VAWord)
  /-- R166. Lands the class mask of each FP32 lane. -/
  | vclass (w : VAWord)
  /-- R169. Selects a or b per lane by a selector mask. -/
  | vsel (w : VAWord)
  /-- R170. Converts lanes between FP32 or INT32 and a narrow format. -/
  | vcvt (w : VAWord)
  /-- R171. Adds INT32 lanes, optionally saturating. -/
  | viadd (w : VAWord)
  /-- R171. Subtracts INT32 lanes, optionally saturating. -/
  | visub (w : VAWord)
  /-- R171. Multiplies INT32 lanes, keeping the low or high half. -/
  | vimul (w : VAWord)
  /-- R171. Computes the low 32 bits of a × b + c per lane. -/
  | vimad (w : VAWord)
  /-- R171. ANDs INT32 lanes. -/
  | vand (w : VAWord)
  /-- R171. ORs INT32 lanes. -/
  | vor (w : VAWord)
  /-- R171. XORs INT32 lanes. -/
  | vxor (w : VAWord)
  /-- R171. Computes a AND NOT b per lane. -/
  | vandn (w : VAWord)
  /-- R171. Shifts lanes left. -/
  | vshl (w : VAWord)
  /-- R171. Shifts lanes right logically. -/
  | vshr (w : VAWord)
  /-- R171. Shifts lanes right arithmetically. -/
  | vsra (w : VAWord)
  /-- R171. Lands the smaller INT32 lane, signed or unsigned. -/
  | vimin (w : VAWord)
  /-- R171. Lands the larger INT32 lane, signed or unsigned. -/
  | vimax (w : VAWord)
  /-- R172. Compares INT32 lanes and writes a mask. -/
  | vicmp (w : VAWord)
  /-- R187. Copies vector lanes bit for bit under the mask. -/
  | vmov (w : VAWord)
  /-- R187. Writes a pattern register from lanes 0–4 of a vector, checking its legality. -/
  | vmovToPattern (w : VAWord)
  /-- R187. Writes lanes 0–4 of a vector from a pattern register. -/
  | vmovFromPattern (w : VAWord)
  /-- R188. Extracts one lane into a scalar register. -/
  | vext (w : VAWord)
  /-- R188. Inserts a scalar into one lane of a vector. -/
  | vins (w : VAWord)
  /-- R189. Permutes lanes by an index vector. -/
  | vperm (w : VAWord)
  /-- R189. Rotates or shifts lanes by a scalar count. -/
  | vrot (w : VAWord)
  /-- R190. Compresses the selected lanes to the bottom. -/
  | vcomp (w : VAWord)
  /-- R190. Expands packed lanes to the selected positions. -/
  | vxpnd (w : VAWord)
  /-- R190. Writes each lane's count of selected lanes below it. -/
  | viota (w : VAWord)
  /-- R191. Reduces present lanes in a fixed tree into every lane. -/
  | vred (w : VAWord)
  /-- R192. Scans present lanes sequentially, optionally exclusive and segmented. -/
  | vscan (w : VAWord)
  /-- R194. Writes the selected lanes' operands into the deferral ring. -/
  | vdefer (w : VAWord)
  /-- R195. Returns up to 64 deferred entries into three vectors and a mask. -/
  | vdrain (w : VAWord)
  /-- R180. Loads lanes from scratchpad with unit or strided addresses, widening them. -/
  | vld (w : VMWord)
  /-- R181. Converts and stores lanes to own scratchpad. -/
  | vst (w : VMWord)
  /-- R185. Loads and decodes four BX blocks into 64 lanes. -/
  | vldb (w : VMWord)
  /-- R186. Quantises and stores four BX blocks. -/
  | vstb (w : VMWord)
  /-- R182. Gathers lanes through an index vector. -/
  | vldx (w : VMWord)
  /-- R182. Scatters lanes through an index vector. -/
  | vstx (w : VMWord)
  /-- R184. Extracts packed fields through a pattern register into lanes. -/
  | vxpl (w : VMWord)
  /-- R289. Issues one global read per selected lane, delivered as a guarded arrival into v. -/
  | vldg (w : VMWord)
  /-- R290. Holds one global write per selected lane. -/
  | vstg (w : VMWord)
  /-- R291. Holds an addition of each selected lane into global memory. -/
  | vredG (w : VMWord)
  /-- R173. ANDs two masks. -/
  | kand (w : VAWord)
  /-- R173. ORs two masks. -/
  | kor (w : VAWord)
  /-- R173. XORs two masks. -/
  | kxor (w : VAWord)
  /-- R173. Inverts a mask. -/
  | knot (w : VAWord)
  /-- R173. Copies one mask to another. -/
  | kmov (w : VAWord)
  /-- R173. Writes a mask from a scalar value. -/
  | kmovFromScalar (w : VAWord)
  /-- R173. Writes a mask into a scalar register. -/
  | kmovToScalar (w : VAWord)
  /-- R173. Lands the number of set bits of a mask in a scalar register. -/
  | kpop (w : VAWord)
  /-- R301. Copies a byte count between scratchpads, global memory or a window, by kind. -/
  | cpy (w : CWord)
  /-- R302. Copies a strided rectangle of rows, by kind. -/
  | cpyx (w : CWord)
  /-- R312. Re-issues the remainder of a suspended copy and pushes a new promise. -/
  | cresume (w : CWord)
  /-- R312. Cancels a suspended copy and frees its slot. -/
  | ccancel (w : CWord)
  /-- R316. Reads a payload and holds a pipe record for release at closing. -/
  | psend (w : CWord)
  /-- R222. Reads a weight tile, to latch 80 cycles later in each receiving core. -/
  | mwld (w : MWord)
  /-- R223. Streams A rows through the tile into claimed accumulator rows, with optional checksums. -/
  | mmul (w : MWord)
  /-- R224. Claims rows and checks them against their check cells 12 cycles later. -/
  | mchk (w : MWord)
  /-- R225. Writes +0 into a block of accumulator cells. -/
  | mzero (w : MWord)
  /-- R226. Loads a block of scratchpad rows into accumulator cells. -/
  | mald (w : MWord)
  /-- R227. Stores a block of accumulator cells to scratchpad, converted. -/
  | mast (w : MWord)
  /-- R33. A synchronous operation's result lands at issue + L and is pushed onto its result queue. -/
  | resultLanding (core : Nat)
  /-- R42. Data of a global load, atomic return, ASK answer or other asynchronous write arrives and sets its destination full. -/
  | guardedArrival (core id : Nat)
  /-- R306. All bytes of a kind 3 copy's granule have arrived, so it is written and set full. -/
  | copyGranuleArrival (core slot granule : Nat)
  /-- R307. A later 4 KiB block of a kind 3 or 4 copy returns its translation and is read or held. -/
  | copyBlockTranslated (core slot : Nat)
  /-- R222. An MWLD's tile and check weights latch in each receiving core. -/
  | tileLatch (core : Nat)
  /-- R212. The compare of an MMUL or MCHK passes, corrects one cell, or reports a region error. -/
  | checksumCompare (core : Nat)
  /-- R44. A region closes once its landings are done and the error window has passed, committing banks and releasing held effects. -/
  | regionClosing (core : Nat)
  /-- R330. A detector fires on an operation of a region, leading to replay or retirement. -/
  | regionError (core rgn engine addr : Nat)
  /-- R47. A region and later regions are discarded, the snapshot restored and stream time rewound. -/
  | replay (core : Nat)
  /-- R39. Device time passes DLINE and the core takes a DEADLINE trap at its next issue cycle. -/
  | deadline (core : Nat)
  /-- R258. A step not complete by DLINE + 65,536 is ended by the control die with class DEADLINE. -/
  | deadlineEnd (core : Nat)
  /-- R278. A released write is applied at the home of its line. -/
  | writePerform (id : Nat)
  /-- R403. A released atomic is applied indivisibly at its home and its old value returned. -/
  | atomicPerform (id : Nat)
  /-- R291. A released VRED.G word's additions are applied at the home in lane order. -/
  | globalAdditionPerform (id : Nat)
  /-- R273. A page walk completes and its translation or fault returns to the waiting core. -/
  | translationReturn (id : Nat)
  /-- R317. A released pipe record is written into the consumer's ring and its tail published. -/
  | pipeRecordArrival (id : Nat)
  /-- R319. A released head publication updates the producer's H_v. -/
  | pipeHeadArrival (id : Nat)
  /-- R398. A window block arrives in the target range and sets its granule full. -/
  | windowDelivery (id : Nat)
  /-- R248. The walker reads and checks a queued launch's record and admits it once its rectangle, reservations and leave fit. -/
  | launchAdmission (launch : Nat)
  /-- R243. The walker dispatches a step to a free core with its initial state. -/
  | stepDispatch (launch : Nat)
  /-- R336. A step of a retired core is dispatched again on a free core in suppress mode. -/
  | adoption (launch : Nat)
  /-- R253. A launch completes and its status word or completion record is written after its effects perform. -/
  | launchComplete (launch : Nat)
  /-- R257. The walker measures the ended phase and chooses the variant with the lowest prediction. -/
  | variantChoice (launch : Nat)
  /-- R365. A blocked higher-priority launch pre-empts groups by DRAIN, KILL or CHECKPOINT. -/
  | preemption (launch : Nat)
  /-- R364. A pre-emption token is added to the partition at the configured rate. -/
  | tokenRefill (part : Nat)
  /-- R368. At freeze time F each core of a suspending group freezes. -/
  | suspendFreeze (core : Nat)
  /-- R368. A core waiting for a region boundary freezes at F + 65,536 and the object becomes mid-region. -/
  | suspendBoundaryTimeout (core : Nat)
  /-- R368. Once detectors, returns and deliveries have settled, the control die writes the continuation object and frees the cores. -/
  | objectWrite (group : Nat)
  /-- R373. A resumed object's group is placed on a free rectangle and continued. -/
  | groupRestart (group : Nat)
  /-- R342. A compute die is lost and its steps fail over to the other die. -/
  | dieLoss (die : Option Nat)
  /-- R24. Loss of the control die ends operation of the package. -/
  | controlDieLoss
  /-- R19. A flit with a CRC error is retried at link level. -/
  | linkRetry (link : Nat)
  /-- R350. The scrubber visits the next row of a cache or HBM stack. -/
  | scrubVisit (unit : Nat)
  /-- R351. After each sixteenth of a pass, the scrubber revisits every amber row. -/
  | amberVisit (unit : Nat)
  /-- R385. The control die samples the host clock via PTM and may re-anchor device time to PTP time. -/
  | ptpSample (host rate : Nat)
  /-- R385. Four sample intervals without a sample clear the lock bit. -/
  | ptpLockLoss
  /-- R382. At D_s the whole package switches clock and re-anchors PTP at the nominal rate. -/
  | clockSwitch
  /-- R425. A junction reaches 110 °C and a switch to 1.6 GHz is scheduled. -/
  | thermalDerate
  /-- R425. After 2^24 cycles below 105 °C a switch back to 1.9 GHz is scheduled. -/
  | clockRestore
  /-- R425. A junction above 115 °C for 1 ms starts PFAIL and logs an event. -/
  | overtemperature
  /-- R421. A brown-out freezes all cores, captures groups and writes the power-fail manifest. -/
  | pfail
  /-- R421. A group not captured by 18 ms after detection ends KILLED. -/
  | pfailCaptureTimeout
  /-- R421. An increment in progress stops at 20 ms after detection. -/
  | pfailIncrementTimeout
  /-- R421. A host command releases the package from reset after PFAIL. -/
  | pfailRelease
  /-- R386. From d − 2^20 the walker places no other launch's steps on the timed launch's rectangle. -/
  | timedLaunchHold (launch : Nat)
  /-- R386. At target device time d step 0 is dispatched, or the launch is refused. -/
  | timedLaunchStart (launch : Nat)
  /-- R396. A bulkhead's gates close and its steps end or are adopted, on order or on regulator or PLL failure. -/
  | bulkheadReset (bulkhead : Nat) (ordered : Bool)
  /-- R396. After 38,000 device cycles a reset bulkhead's cores return to service. -/
  | bulkheadReturn (bulkhead : Nat)
  /-- R380. Package reset starts device time on all dies with one start pulse. -/
  | packageReset
  /-- R414. A free active slot takes the waiting queue of highest effective priority. -/
  | queueBind (queue : Nat)
  /-- R414. An unbound queue with pending records gains one priority level per 190,000,000 cycles. -/
  | queueAging (queue : Nat)
  /-- R414. A bound queue is unbound after 16 records or 3,800,000 cycles. -/
  | queueQuantumEnd (queue : Nat)
  /-- R409. A write of sqtail makes submission records visible or is refused and disables the queue. -/
  | sqtailWrite (vf j : Nat) (v : BitVec 64)
  /-- R412. A write of cqhead releases completion space or is refused with errc. -/
  | cqheadWrite (vf j : Nat) (v : BitVec 64)
  /-- R424. A write of the power cap sets the leave capacity or is ignored with bad set. -/
  | pcapWrite (v : BitVec 64)
  /-- R391. A write of SPRTOP, DTOP0 or DTOP1 takes effect only while quiesced, else sets wberr. -/
  | boundaryRegisterWrite (off : Nat) (v : BitVec 64)
  /-- R408. A host write to a register with no behaviour of its own, subject to the access rules of BAR 0 and BAR 2. -/
  | registerWrite (r : RegTarget) (v : BitVec 64)
  /-- R410. A LAUNCH submission record queues a launch of the named TOR. -/
  | launchRecord (queue : Nat)
  /-- R386. A TIMED_LAUNCH record queues a launch to start at a PTP instant. -/
  | timedLaunch (queue : Nat)
  /-- R410. A FENCE_RC record invalidates the partition's record cache when accepted. -/
  | fenceRcRecord (queue : Nat)
  /-- R376. A RESUME record checks and resumes a continuation object. -/
  | resumeRecord (queue : Nat)
  /-- R376. A FORK record copies an object under a new lineage. -/
  | forkRecord (queue : Nat)
  /-- R376. A DISCARD record consumes an object's generation. -/
  | discardRecord (queue : Nat)
  /-- R416. A CHECKPOINT record holds releases, marks dirty pages and copies them into an increment. -/
  | checkpointRecord (queue : Nat)
  /-- R394. Command type 1 creates a partition of whole bulkheads. -/
  | partitionCreate (part brow bcol bheight bwidth : Nat) (cfg : List (BitVec 8))
  /-- R394. Command type 1 resizes an idle partition. -/
  | partitionResize (part brow bcol bheight bwidth : Nat)
  /-- R394. Command type 1 removes an idle partition. -/
  | partitionRemove (part : Nat)
  /-- R407. Command type 2 binds a virtual function to a partition. -/
  | bindVf (vf part : Nat)
  /-- R407. Command type 2 assigns a queue to a virtual function. -/
  | assignQueue (queue vf : Nat)
  /-- R270. Command type 3 sets a partition's page-table root. -/
  | setPtroot (part root : Nat)
  /-- R275. Command type 3 invalidates translations of a page, range or partition. -/
  | invalidate (part : Nat) (what : InvScope)
  /-- R110. Command type 4 loads and checks a decode table image for a partition. -/
  | decodeTableLoad (part addr : Nat)
  /-- R390. Command type 5 quiesces memory, moves data and changes the memory mode. -/
  | setMmode (mode : Nat)
  /-- R397. Command type 6 opens a cross-bulkhead window on matching requests. -/
  | windowOpen (part bulkhead n core base len : Nat)
  /-- R397. Command type 6 closes a window after its released writes are delivered. -/
  | windowClose (part bulkhead n : Nat)
  /-- R415. Command type 7 sets Td, Tk, tokens, leave limits, copy bandwidth and the continuation pool. -/
  | setPartitionParameters (part : Nat) (v : PartParams)
  /-- R415. Command type 8 sets power cap, retirement threshold, scrub times or PTP interval. -/
  | setPackageParameters (v : PackParams)
  /-- R435. Command type 8 sets the present size of the host window. -/
  | setHostsz (size : Nat)
  /-- R335. Command type 9 clears a core's retirement in MRAM. -/
  | clearRetirement (core : Nat)
  /-- R418. Command type 10 locks a partition with a manifest and extends its measurement. -/
  | lockPartition (part : Nat) (manifest : List (BitVec 8))
  /-- R419. Command type 11 returns a signed attestation report for a nonce. -/
  | attest (part : Nat) (nonce : List (BitVec 8))
  /-- R423. Command type 12 sets a partition's capture mode. -/
  | setCaptureMode (part : Nat) (on : Bool) (ring : Nat)
  /-- R415. Command type 13 returns the management event log. -/
  | readEventLog
  /-- R422. Command type 13 returns the power-fail manifest. -/
  | readPfailManifest
  /-- R129. A core frozen by WAITT or REALIGN until dt = a is released when device time reaches a, and its next word issues. -/
  | deviceTimeReached (core : Nat)
  /-- R108. A word whose opcode the context's decode table leaves unassigned issues and raises ILLEGAL_OPCODE. -/
  | unassignedOpcode (core : Nat)
  /-- R353. An upset flips stored bits in a cell, register, scratchpad word or memory line, to be found later by a detector or a read. -/
  | softError (u : Upset)
  /-- R278. A global read sent to a home is served there, fixing its value in the coherence order of its bytes. -/
  | readPerform (id : Nat)
  /-- R278. The host link receives the completion of a write to host or CXL memory, making that write visible at system scope. -/
  | hostLinkWriteCompletion (id : Nat)
  /-- R277. A read or write from a host or CXL requester arrives and performs at the home of a device line. -/
  | hostRequesterAccess (pa : Nat) (n : Nat) (wr : Option (List (BitVec 8)))
  /-- R410. A submission record of type 8 to 15 is taken and completes with PROGRAM_FAULT and cause RECORD. -/
  | invalidSubmissionRecord (queue : Nat)
  deriving DecidableEq, Repr

end Sys2Proof
end

