-- ==== Sys2Proof/Machine/State.lean ====
section
/-! DEFINITION. The state of the package as plain data, the reasons a step can stop, and the state after reset. -/
namespace Sys2Proof.Machine

/-- Why a step of the model stops with a fault. Each is safe: it names an event that cannot come about in the state at
hand (log 6), so a true claim may become unprovable but no false one can be proved. -/
inductive Fault where
  /-- Raised by a word's meaning when no step runs on the core `cur`. Safe. -/
  | noRunningCore
  /-- Raised by an event's meaning when what the event needs is not there (no such read, no such launch). Safe. -/
  | noSuchEvent
  /-- Raised by the step when the package has ended (R24) or is held in reset (R421). Safe. -/
  | packageStopped
  /-- Raised by the step when no core runs, nothing is pending and no input waits. Safe. -/
  | nothingToDo
  deriving DecidableEq, Repr

/-- Why the model gives an instruction no meaning. -/
inductive Refusal where
  /-- Raised by the dispatch of an instruction that has no meaning yet. Safe. -/
  | notModelled (mnemonic : String)
  deriving DecidableEq, Repr

/-! ### Architectural state of a core -/

/-- A named scalar register: value, poison bit and full bit (R25). `pend = none` is full; `some id` is empty, awaiting the
guarded arrival `id` (R40). -/
structure SReg where
  val : Word := 0
  psn : Bool := false
  pend : Option Nat := none
  deriving DecidableEq, Repr

/-- An entry of the scalar result queue (R35, R36). -/
structure QEnt where
  val : Word := 0
  psn : Bool := true
  void : Bool := true
  deriving DecidableEq, Repr

/-- A named vector register: lanes, lane-poison mask and full bit (R158). -/
structure VReg where
  lanes : Lanes := Lanes.zero
  psn : LMask := 0
  pend : Option Nat := none
  deriving DecidableEq, Repr

/-- An entry of the vector result queue (R160). -/
structure VQEnt where
  lanes : Lanes := Lanes.zero
  psn : LMask := BitVec.allOnes 64
  void : Bool := true
  deriving DecidableEq, Repr

/-- A mask with its poison mask (R163). -/
structure KReg where
  bits : LMask := 0
  psn : LMask := 0
  deriving DecidableEq, Repr

/-- A pattern register with the poison of its five source lanes (R183, R357). -/
structure XReg where
  bits : BitVec 160 := 0
  psn : BitVec 5 := 0
  deriving DecidableEq, Repr

/-- The loop-buffer state of R137 and R357. Ring words are SQ-form words; zero means absent. -/
structure LoopSt where
  active : Bool := false
  body : Nat := 0
  trip : Nat := 0
  n : Nat := 0
  j : Nat := 0
  k : Nat := 0
  len : Nat := 0
  stages : Nat := 0
  cur0 : BitVec 32 := 0
  cur1 : BitVec 32 := 0
  pend0 : BitVec 32 := 0
  pend1 : BitVec 32 := 0
  deriving DecidableEq, Repr

/-- The program-writable CSRs of R46 and R151. -/
structure Csrs where
  status : Word := 0
  rmode : Word := 0
  tvec : Word := 0
  tsave : Word := 0
  tpc : Word := 0
  rlim : Word := 3
  mtol : Word := 0x10
  seed : Word := 0
  dqbase : Word := 0
  dqlim : Word := 0
  dqhead : Word := 0
  dqtail : Word := 0
  deriving DecidableEq, Repr

/-- A cell of the accumulator store, or a decoded element, with its poison (R197, R213). -/
structure ACell where
  bits : BitVec 32 := 0
  psn : Bool := false
  deriving DecidableEq, Repr

/-- The weight tile: K × N decoded cells, the latched format and K check weights (R197, R199). `k = 0`: none. -/
structure Tile where
  k : Nat := 0
  n : Nat := 0
  fmt : Nat := 0
  rows : List (List ACell) := []
  w : List ACell := []
  deriving DecidableEq, Repr

/-- The snapshot part of a pipe's state: T_p and the serial counter at the producer, H_c at the consumer (R315). -/
structure PipeCnt where
  tail : Nat := 0
  serial : BitVec 32 := 0
  head : Nat := 0
  deriving DecidableEq, Repr

/-- What an entry snapshot holds (R46, R199, R315), which is also a part of the live state of a core. -/
structure Arch where
  s : Vector SReg 32 := Vector.replicate 32 {}
  q : Vector QEnt 16 := Vector.replicate 16 {}
  csr : Csrs := {}
  loop : LoopSt := {}
  k : Vector KReg 8 := Vector.replicate 8 {}
  x : Vector XReg 4 := Vector.replicate 4 {}
  pipes : Vector PipeCnt 8 := Vector.replicate 8 {}
  tile : Tile := {}
  v : Vector VReg 32 := Vector.replicate 32 {}
  vq : Vector VQEnt 16 := Vector.replicate 16 {}
  /-- named state whose parity is wrong, not found yet (R325) -/
  struck : List Ref := []
  deriving DecidableEq, Repr

/-! ### Operations in flight, held effects, regions -/

/-- One effect of a synchronous operation, performed at its stream cycle (R33, R35, R71, R154, R204). -/
inductive Eff where
  /-- a scalar result for destination code `d` (0–31, or 48 for zero), pushed onto the scalar queue -/
  | sland (d : Nat) (v : Word) (psn : Bool)
  /-- a void pushed onto the scalar queue (R136) -/
  | svoid
  /-- a scalar pushed with no destination register: the promise of a copy (R301) -/
  | spush (v : Word)
  /-- a vector result for destination code `d` under mask `kb` with poison `kp` (R162); `all` writes every lane -/
  | vland (d : Nat) (x : Lanes) (psn : LMask) (kb kp : LMask) (mz : Bool)
  /-- the lanes that a VLDG without a selected lane writes: nothing is pushed (R289) -/
  | vset (d : Nat) (x : Lanes) (psn : LMask) (kb kp : LMask) (mz : Bool)
  /-- a void pushed onto the vector queue -/
  | vvoid
  /-- a mask result (R163) -/
  | kland (d : Nat) (x psn kb kp : LMask) (mz : Bool)
  /-- a pattern register (R187) -/
  | xland (d : Nat) (v : BitVec 160) (psn : BitVec 5)
  /-- STATUS flags to OR in (R71) -/
  | flags (f : BitVec 6)
  /-- a CSR write (R154) -/
  | csrw (n : Nat) (v : Word)
  /-- bytes written to the own scratchpad: address, byte and bit mask (a nibble store masks half a byte, R181) -/
  | spw (bs : List (Nat × Byte × Byte))
  /-- bytes written to the scratchpad of quad member `m` (copies of kind 1) -/
  | rspw (m : Nat) (bs : List (Nat × Byte × Byte))
  /-- own words that become uncorrectable because their source was (R305) -/
  | spue (m : Nat) (ws : List Nat)
  /-- an accumulator row of an MMUL: row, columns, A row, tile, options (R82 to R86, R210) -/
  | mrow (mm : Nat) (row : Nat) (acc ck : Bool) (grp : Nat) (isInt : Bool) (a : List ACell) (t : Tile)
  /-- the check row of an MMUL: row, column sums -/
  | mchkrow (mm : Nat) (row : Nat) (acc : Bool) (sums : List ACell) (t : Tile)
  /-- accumulator cells written as they are (MZERO, MALD): (row, column, cell) -/
  | acells (cs : List (Nat × Nat × ACell))
  /-- a compare of an MMUL or MCHK over its rows and columns (R211, R212) -/
  | compare (mm : Nat) (ck : Bool) (crow m n : Nat) (isInt : Bool) (mtol : Word) (addr : Nat)
      (cells : Option (List (List ACell)))
  /-- the corrected cell of a compare, as a landing of its MMUL or MCHK (R212, R353) -/
  | correct (mm row col : Nat) (v : BitVec 32)
  /-- a tile latched (R222) -/
  | latch (t : Tile)
  /-- the shade units of an engine find that a result of the word at an address is off (R328, R329) -/
  | mismatch (engine addr : Nat)
  deriving DecidableEq, Repr

/-- A synchronous operation in flight: its word, when and where it issued, its captured operands and mask, and the effects
still to come with their cycles (R33, R356, R358). -/
structure Flight where
  id : Nat
  rgn : Nat
  issue : Nat
  addr : Nat
  lcnt : Nat
  units : List (BitVec 32)
  /-- 0 scalar, 1 vector, 2 scalar void push, 3 vector void push, 4 matrix word, 5 copy word -/
  kind : Nat
  /-- issued by a handler: its cycles are device cycles (R359) -/
  hand : Bool
  mask : KReg
  opa : Lanes × LMask
  opb : Lanes × LMask
  opc : Lanes × LMask
  evs : List (Nat × Eff)
  /-- a kind 0 copy whose destination overlaps its source: its record in an object carries the bytes still to land (R368) -/
  carries : Bool := false
  deriving DecidableEq, Repr

/-- The operation of a held or released atomic (R295). -/
inductive AtomOp where
  | add | min | max | and | or | xchg | cas | fadd
  deriving DecidableEq, Repr

/-- An effect held until its region closes (R22, R44, R339). -/
inductive HeldEff where
  /-- a global write of `bytes` at `va`, held at physical address `pa` (kind 1) -/
  | write (va pa : Nat) (bytes : List Byte)
  /-- one 64-byte block of a kind 4 copy: byte mask and bytes -/
  | block (slot va pa : Nat) (mask : BitVec 64) (bytes : List Byte)
  /-- a COMMIT.A atomic; `log` tells whether its return is delivered (d ≠ 48) -/
  | atomic (op : AtomOp) (wide : Bool) (opcode va pa : Nat) (b dold : Word) (d : Option Nat) (tok : Nat)
  /-- the additions of one VRED.G word: (va, pa, value, rnd16) by lane; the mode for FP32, none for INT32 -/
  | adds (ls : List (Nat × Nat × BitVec 32 × Nat)) (mode : Option Nat)
  /-- a 64-byte block for window `n` at byte offset `off` -/
  | window (n off : Nat) (bytes : List Byte)
  | launch (a b : Word)
  | fenceRc
  | signal (b : Word)
  /-- a pipe record, or the SKIP before one: pipe, ring offset, bytes; the tail published after it -/
  | pipeRec (p off : Nat) (bytes : List Byte) (tail : Nat)
  /-- a head publication -/
  | pipeHead (p head : Nat)
  /-- the start of a suspended group, its status word, and the tag of the object that was checked (R373) -/
  | resume (a b : Word) (tag : Nat)
  | fork (a b : Word) (tag : Nat)
  | discard (a : Word) (tag : Nat)
  deriving DecidableEq, Repr

/-- A translation that a held effect was made with, as it stood (R272, R275): virtual page, size, address of the leaf, and whether it held
D = 1. -/
structure PageUse where
  va : Nat
  size : Nat
  entryPa : Nat
  dirty : Bool
  deriving DecidableEq, Repr

/-- A held effect with its place in issue order, its region and its ordering class: 0 to 15, 16 for one that is in no class, 17 for an
atomic, which goes with every class (R281, R402; log 46). -/
structure Held where
  id : Nat
  /-- the word that holds it: effects of one word are not ordered among themselves, unless they share bytes (R290, R307) -/
  op : Nat
  rgn : Nat
  cls : Nat
  /-- 8-byte words of its entry's 64-byte block that hold a single-bit or an uncorrectable error not yet found (R263) -/
  ce : List Nat := []
  ue : List Nat := []
  /-- the translations that it was made with (R272, R275) -/
  pages : List PageUse := []
  eff : HeldEff
  deriving DecidableEq, Repr

/-- How a region was ended (R155, R294, R296, R48). -/
inductive EndKind where
  | commit | rel (mask : BitVec 16) | atomic | ends
  deriving DecidableEq, Repr

/-- One region of a step (R43 to R50, R155, R156, R331). -/
structure Region where
  id : Nat := 0
  openAt : Nat := 0
  /-- address of the first word, and the cycle from which it counts its idle count -/
  pc : Nat := 0
  base : Nat := 0
  snap : Arch := {}
  /-- a parity error waits in the snapshot (R333) -/
  snapBad : Bool := false
  rset : List Nat := []
  wset : List Nat := []
  rcnt : Nat := 0
  tL : Option Nat := none
  tC : Option Nat := none
  how : EndKind := .commit
  deriving DecidableEq, Repr

/-- What a guarded arrival is for (R40, R42). -/
inductive AwaitKind where
  /-- a scalar global load of `n` bytes -/
  | ldg (d n : Nat) (signed : Bool)
  /-- a VLDG: destination, type code, mask with poison, merging or zeroing -/
  | vldg (d ty : Nat) (kb kp : LMask) (mz : Bool)
  /-- the return of an atomic -/
  | atom (d : Nat)
  /-- the answer of the governor to a request made at device time `u` -/
  | ask (d a b u : Nat)
  deriving DecidableEq, Repr

/-- A guarded arrival that is outstanding. `bytes` collects (index, byte, uncorrectable) as the reads perform;
`need` is how many bytes must be there before it can arrive. -/
structure Await where
  id : Nat
  rgn : Nat
  kind : AwaitKind
  need : Nat
  bytes : List (Nat × Byte × Bool)
  /-- the virtual addresses of its bytes by index (R370) -/
  vas : List (Nat × Nat) := []
  /-- the earliest device time at which it can arrive (R381) -/
  since : Nat := 0
  /-- issued while a trap handler ran -/
  hand : Bool := false
  /-- the step number of the core's step in which it was issued -/
  stepid : Word := 0
  /-- the ordering class of its reads, and whether the L1 takes their lines: see `RdReq.fill` (R370) -/
  cls : Nat := 0
  fill : Nat := 1
  ready : Option (Word × Bool) := none
  deriving DecidableEq, Repr

/-- A copy slot of a kind 3 or 4 copy (R309 to R311): its token, its place in issue order, its region, kind, class and cw
bit, its rows (local offset, virtual address, length) in copy order, the source bytes of a kind 4 copy, the 4 KiB blocks not
yet translated, the bytes arrived (position, byte, uncorrectable), and the handle of a suspension. -/
structure CopySlot where
  id : Nat
  op : Nat
  rgn : Nat
  kind : Nat
  cls : Nat
  cw : Bool
  rows : List (Nat × Nat × Nat)
  src : List Byte := []
  todo : List Nat
  got : List (Nat × Byte × Bool) := []
  /-- the promise: every byte has arrived, or is held, by this device time (R308) -/
  due : Nat := 0
  /-- the earliest device time at which what has been read can arrive (R381) -/
  since : Nat := 0
  susp : Option (BitVec 64) := none
  /-- the block for which a walker has returned -/
  walked : Option Nat := none
  /-- the blocks, with the frame bytes they lay at, whose lines the L1 lost at issue (R306) -/
  seen : List (Nat × Nat) := []
  deriving DecidableEq, Repr

/-- A line of the L1 with the number of its last use (R264). -/
structure L1Line where
  pa : Nat
  bytes : List Byte
  used : Nat
  deriving DecidableEq, Repr

/-- A translation held by a TLB (R273): partition, virtual page, size in bytes, frame, the leaf's low bits and where the
entry lies. -/
structure TlbEnt where
  part : Nat
  va : Nat
  size : Nat
  frame : Nat
  leaf : BitVec 12
  entryPa : Nat
  used : Nat
  deriving DecidableEq, Repr

/-- Trap mode (R356, R359, R360): the device and stream cycle of the trap, the cause, the address of the save area, the
operations that were recorded as the capture latches hold them, in record order, and the first identifier of the handler. -/
structure TrapCtx where
  u : Nat
  f : Nat
  cause : Nat
  area : Nat
  latches : List Flight
  id0 : Nat
  deriving DecidableEq, Repr

/-- A pipe of a gang as its TOR declares it (R234). -/
structure PipeDecl where
  valid : Bool := false
  prod : Nat := 0
  cons : Nat := 0
  size : Nat := 0
  rbase : Nat := 0
  worst : Nat := 0
  /-- the core at the other end, of this instance of the gang -/
  peer : Nat := 0
  deriving DecidableEq, Repr

/-- A decode table: `rows = []` is decode map 1 as built in; otherwise 1,024 entries, 0 for v = 0, else iop + 1 (R109). -/
structure DecTable where
  mapid : Nat := 1
  rows : List Nat := []
  deriving DecidableEq, Repr

/-- The error a step or launch reports (R346 to R348, R352). -/
structure Report where
  cls : Nat := 0
  cause : Nat := 0
  engine : Nat := 15
  level : Nat := 0
  core : Nat := 0
  addrk : Nat := 0
  addr : Nat := 0
  step : Nat := 0xFFFFFFFF
  time : Nat := 0
  deriving DecidableEq, Repr

/-- A step resident on a core: what the walker gave it (R237, R243) and what the control die keeps for it (R336). -/
structure StepInfo where
  launch : Nat := 0
  part : Nat := 0
  stp : Nat := 0
  role : Nat := 0
  inst : Nat := 0
  idx : List Nat := [0, 0, 0, 0, 0, 0]
  trp : Nat := 0
  stepid : Word := 0
  sbase : Nat := 0
  slim : Nat := 0
  codebase : Nat := 0
  codelen : Nat := 0
  dline : Nat := 0
  dtab : DecTable := {}
  static : Bool := false
  coupled : Bool := false
  /-- its launch is a gang (R249) -/
  gang : Bool := false
  /-- the queue that submitted the root of its launch tree (R413) -/
  root : Option Nat := none
  started : Nat := 0
  /-- when its group was last resumed (R365) -/
  resumed : Nat := 0
  est : Nat := 0
  estAt : Nat := 0
  deadlined : Bool := false
  pipes : List PipeDecl := []
  units : Nat := 0
  lclass : Nat := 0
  /-- committed count C of this run -/
  closed : Nat := 0
  /-- suppress mode: the count C to reach and the digest to match (R337, R339) -/
  suppress : Option (Nat × Word) := none
  digest : Word := 0
  /-- the logged returns of atomics, each with its token and its poison (R338) -/
  log : List (Nat × Word × Bool) := []
  logAt : Nat := 0
  unadoptable : Bool := false
  adopted : Bool := false
  failedOver : Bool := false
  replays : Nat := 0
  /-- the error that began an adoption (R354) -/
  lost : Report := {}
  forked : Bool := false
  lineage : Option Nat := none
  /-- the resumed group that the step belongs to (R373) -/
  group : Option Nat := none
  report : Report := {}
  deriving DecidableEq, Repr

/-- The fork that a step belongs to: its resumed group; none for a step that its launch runs (R374). -/
def StepInfo.fork (i : StepInfo) : Option Nat := if i.forked then i.group else none

/-- A heavy operation that has issued (R321, R322): its device cycle, duration and units, its region, and its identifier where it is a copy. -/
structure Heavy where
  at_ : Nat
  dur : Nat
  units : Nat
  rgn : Nat
  id : Nat := 0
  deriving DecidableEq, Repr

/-- A suspended copy as a CRESUME or CCANCEL found it (R310): the region of that word, slot, copy, the granules that it had empty, and what it
counts for as a heavy operation (R322). -/
structure Undo where
  rgn : Nat
  slot : Nat
  copy : CopySlot
  empties : List Nat
  heavy : List Heavy := []
  deriving DecidableEq, Repr

/-- A device time that a frozen core waits for (R129, R256, R373): the time, and whether the wait is that of a REALIGN or for the control
die's answer to a check. -/
structure Until where
  time : Nat
  realign : Bool
  /-- the control die has been asked to check an object, and its answer comes at `time` (R373) -/
  check : Bool := false
  /-- the wait is over: the answer is there, or a suspension came between, so that a REALIGN raises no REALIGN_LATE (R256, R368) -/
  past : Bool := false
  deriving DecidableEq, Repr

/-- A replay or retirement that waits for its cycle g (R47, R330, R334): the region, whether the core is retired, the cycle in
which the error was found, what it reports, and the reason of a retirement (R355: 0 count, 1 snapshot, 2 threshold), or 3 for a step that pre-emption kills (R366). -/
structure Doom where
  rgn : Nat
  retire : Bool
  found : Nat
  rep : Report
  why : Nat := 0
  deriving DecidableEq, Repr

/-- One compute core. -/
structure Core where
  step : Option StepInfo := none
  pc : Nat := 0
  base : Nat := 0
  /-- the next word issues at `base` itself, whatever its idle count (R363) -/
  exact_ : Bool := false
  stream : Nat := 0
  dt : Nat := 0
  streamRef : Nat := 0
  dtRef : Nat := 0
  slip : Word := 0
  floor : Nat := 0
  until? : Option Until := none
  /-- the issue group in progress: its cycle, the engines used, and whether a COMMIT has ended it -/
  grpAt : Nat := 0
  grpEng : List Nat := []
  grpEnd : Bool := false
  /-- the trap that the core raises at its next word: CHAIN (R216, R218, R219) or COPY_FAULT (R311), with its TVAL -/
  owe : Option (Nat × Word) := none
  /-- the words of the present cycle that the members of a quad issue together: cycle and bits (R218, R219, R256) -/
  joint : List (Nat × Nat) := []
  arch : Arch := {}
  flights : List Flight := []
  awaits : List Await := []
  held : List Held := []
  opn : Region := {}
  closing : List Region := []
  /-- the stream cycle in which the last region of the step closed (R156) -/
  shut : Nat := 0
  ended : Bool := false
  trap : Option TrapCtx := none
  tcause : Word := 0
  tval : Word := 0
  cerr : Nat := 0
  doom : Option Doom := none
  empties : List (Nat × Nat) := []
  spad : List Host.Cell := []
  ue : List Nat := []
  /-- 8-byte words of the scratchpad that hold a single-bit error not yet found (R144) -/
  ce : List Nat := []
  /-- committed accumulator cells that are not +0: key row × 65 + column -/
  accC : List (Nat × ACell) := []
  /-- pending rows: (row, region), and their 65 cells by key -/
  accOwn : List (Nat × Nat) := []
  accP : List (Nat × ACell) := []
  /-- rows that a word has written since dispatch (R370) -/
  accUsed : List Nat := []
  /-- rows read or written by words since the landing of a checked MMUL: (its id, row, column) (R212) -/
  touched : List (Nat × Nat × Nat) := []
  /-- cells that saturated in an integer MMUL in flight: (its id, row, column) (R211) -/
  sats : List (Nat × Nat × Nat) := []
  /-- the last MMULs (region, issue cycle, M) and MWLDs (region, latch cycle), latest first (R206) -/
  mmuls : List (Nat × Nat × Nat) := []
  mwlds : List (Nat × Nat) := []
  slots : List (Nat × CopySlot) := []
  /-- suspended copies as a CRESUME or CCANCEL found them (R310) -/
  undo : List Undo := []
  /-- the local port: region and first free cycle of the last kind 0 to 2 copies, latest first (R305) -/
  port : List (Nat × Nat) := []
  hv : Vector Nat 8 := Vector.replicate 8 0
  tv : Vector Nat 8 := Vector.replicate 8 0
  /-- the asked grants, latest first: units, start, end; each earlier one ends at the start of the next or before (R322, R323) -/
  asked : List (Nat × Nat × Nat) := []
  heavy : List Heavy := []
  tlb : List TlbEnt := []
  l1 : List L1Line := []
  walkFaults : List (Nat × Nat × Nat × Word) := []
  /-- frozen for the capture of its group (R368) or by PFAIL (R421) -/
  frozen : Bool := false
  deriving DecidableEq, Repr

/-! ### The package -/

/-- A released effect that has not performed yet (R278, R282). -/
structure Rel where
  id : Nat
  op : Nat
  core : Nat
  rgn : Nat
  cls : Nat
  launch : Nat
  /-- the partition of the step (R247, R395) -/
  part : Nat := 0
  stp : Nat
  role : Nat
  at_ : Nat
  /-- the 8-byte words of its block that the commit buffer found uncorrectable at its release (R263) -/
  bad : List Nat := []
  /-- what an atomic to the host window has read and not written yet (R299) -/
  old : Option (Word × Bool) := none
  /-- the other end of its pipe: core, gang instance and ring base ÷ 4 KiB; or the target core of its window (R317, R398) -/
  peer : Nat := 0
  inst : Nat := 0
  ring : Nat := 0
  /-- the role at the other end of its pipe, and the fork that the step belongs to (R374, R379) -/
  prole : Nat := 0
  fork : Option Nat := none
  eff : HeldEff
  deriving DecidableEq, Repr

/-- A byte that a request serves: the arrival or copy that it belongs to, its index there, its offset in the line, and the place in issue
order and the class of the word that reads it (R281, R404). -/
structure Want where
  tag : Nat
  idx : Nat
  off : Nat
  op : Nat
  cls : Nat
  deriving DecidableEq, Repr

/-- A request for one line that a core has sent to a home and that has not come back yet (R278, R404). `fill`: 0 the L1 does not take the
line (kind 3 copies), 1 it does and later misses join it (R264), 2 it refreshes the line if it holds it (LDG.S, R280). Once it has performed,
`done` holds the device time from which it can arrive and the line as the home gave it, and `patches` what the core has written to the line or
read of it since, in coherence order: place in issue order, offset, byte, and whether it is uncorrectable (R280). -/
structure RdReq where
  id : Nat
  op : Nat
  core : Nat
  line : Nat
  cls : Nat
  fill : Nat
  wants : List Want
  /-- the device time of its issue (R381) -/
  at_ : Nat := 0
  done : Option (Nat × List (Byte × Bool)) := none
  patches : List (Nat × Nat × Byte × Bool) := []
  deriving DecidableEq, Repr

/-- An ordering point in issue order of one core (R281): a FENCE or FENCE.ACQ with its mask, or the end of a region. -/
structure Order where
  id : Nat
  core : Nat
  rgn : Nat
  kind : EndKind
  acq : Bool
  fence : Bool
  mask : BitVec 16
  scope : Nat
  deriving DecidableEq, Repr

/-- A queued translation miss (R273, R274): whose it is, the device time of the miss, whether a walker has taken it, and whether the
step that it was for has left its core. -/
structure Walk where
  id : Nat
  part : Nat
  core : Nat
  va : Nat
  acc : Nat
  at_ : Nat := 0
  taken : Bool := false
  gone : Bool := false
  /-- the copy whose block it is for -/
  slot : Option Nat := none
  deriving DecidableEq, Repr

/-- A pointer entry that the walkers' caches hold (R274): partition, address, the virtual range below it, value. -/
structure PtrEnt where
  part : Nat
  entry : Nat
  va : Nat
  size : Nat
  value : Nat
  deriving DecidableEq, Repr

/-- A cached record of the record cache (R246, R257). -/
structure RecEnt where
  va : Nat
  words : List Word
  used : Nat
  tau : (Nat × Nat) × (Nat × Nat)
  variant : Nat
  deriving DecidableEq, Repr

/-- A partition (R268, R394, R415, R418). -/
structure Partition where
  id : Nat
  brow : Nat
  bcol : Nat
  bheight : Nat
  bwidth : Nat
  cfg : List Byte
  root : Option Nat
  dtab : DecTable
  dimage : List Byte
  serial : Nat
  queue : List Nat
  recs : List RecEnt
  tokens : Nat
  tokenAt : Nat
  params : PartParams
  measure : List Byte
  locked : Option (List Byte)
  capture : Option Nat
  ckptLineage : Nat
  deriving DecidableEq, Repr

/-- Who submitted a launch and where it reports (R252, R253, R410). -/
inductive Origin where
  /-- a step of the launch `parent`, status word or zero -/
  | device (parent : Nat) (step : Nat) (status : Nat)
  /-- a host queue, with the record's serial, tag and flags -/
  | host (queue : Nat) (serial : Nat) (tag : Word) (quiet : Bool)
  deriving DecidableEq, Repr

/-- A step of a launch that must run again, with what adoption needs (R336 to R338, R366). -/
structure Redo where
  info : StepInfo
  kill : Bool
  /-- the core that it has left -/
  core : Nat
  /-- the bulkhead that has failed under it, outside which it is adopted (R396) -/
  avoid : Option Nat := none
  deriving DecidableEq, Repr

/-- A phase boundary whose choice of a variant is still to come (R257, R383): its device time, the means of the dies as they stood then,
and the groups of steps that were still to be dispatched. -/
structure Bound where
  at_ : Nat
  tau : (Nat × Nat) × (Nat × Nat)
  rest : Nat
  deriving DecidableEq, Repr

/-- A launch (R228 to R257, R346 to R348). -/
structure Launch where
  id : Nat
  part : Nat
  tor : Nat
  origin : Origin
  prio : Nat
  words : List Word
  dtab : DecTable
  serial : Nat
  target : Option (Nat × Nat)
  /-- queued, running, or finished -/
  phase : Nat
  rect : Option (Nat × Nat × Nat × Nat)
  code : List Byte
  preload : List Byte
  total : Nat
  nextStep : Nat
  running : List (Nat × Nat)
  redo : List Redo
  done : Nat
  children : Nat
  report : Report
  ncorr : Nat
  nreplay : Nat
  nadopt : Nat
  nretire : Nat
  variant : Nat
  /-- for each die, device time and number of the steps of the present phase that completed there (R257) -/
  sums : (Nat × Nat) × (Nat × Nat)
  /-- for each die, the last measured mean as a fraction; denominator 0: none yet -/
  tau : (Nat × Nat) × (Nat × Nat)
  /-- the phase boundaries marked, and those whose variant choice is still to come, in order (R257) -/
  marks : List Nat
  bounds : List Bound
  startAt : Option Nat
  /-- cores that have passed to a newcomer, with its launch (R366) -/
  lent : List (Nat × Nat)
  accepted : Nat
  rootQueue : Option Nat
  /-- the core that posted it, and the identifier before which every effect that core released must have performed before the
  record is read (R247, R252) -/
  after : Option (Nat × Nat) := none
  suspended : Nat
  /-- steps from `nextStep` on that have been dispatched already, or are never to be (R241, R251) -/
  ahead : List Nat := []
  /-- the indices from the last phase boundary on that dispatched groups have taken; and the die and the device time of every group dispatched
  under a variant (R239, R241) -/
  taken : List Nat := []
  dies : List (Nat × Nat × Nat) := []
  /-- the device time from which what the control die writes of the last end of a step can be seen (R381) -/
  endAt : Nat := 0
  /-- the device time of its post, of which the control die hears 30 cycles later (R381) -/
  since : Nat := 0
  /-- gang instances whose remaining steps are not run (R251) -/
  deadInst : List Nat := []
  /-- a timed launch whose rectangle takes no other launch's new steps (R386) -/
  hold : Bool := false
  deriving DecidableEq, Repr

/-- A window of R397. -/
structure Win where
  bulkhead : Nat
  n : Nat
  tpart : Nat
  tcore : Nat
  tbase : Nat
  tlen : Nat
  delivered : Word
  isOpen : Bool
  reqs : List Nat
  /-- the commands to close it that wait for its last blocks (R397) -/
  closing : Nat
  wpart : Nat
  /-- granules read by words of the target's step in a region that has closed (R399) -/
  read : List Nat
  /-- the lineage of the suspended group that the window leads into: it accepts nothing until that group is resumed (R368) -/
  paused : Option Nat
  deriving DecidableEq, Repr

/-- A user queue and its BAR 0 registers (R407, R409, R412, R414). -/
structure Queue where
  id : Nat
  vf : Nat
  j : Nat
  sqtail : Nat := 0
  cqhead : Nat := 0
  sqbase : Word := 0
  cqbase : Word := 0
  en : Bool := false
  prio : Nat := 0
  cqsz : Nat := 0
  sqsz : Nat := 0
  msix : Bool := false
  errn : Bool := false
  errc : Bool := false
  sqhead : Nat := 0
  cqtail : Nat := 0
  reserved : Nat := 0
  signals : Nat := 0
  lost : Bool := false
  bound : Option (Nat × Nat) := none
  waitAt : Nat := 0
  raised : Nat := 0
  lastSerial : Nat := 0
  pending : Nat := 0
  msixCount : Nat := 0
  deriving DecidableEq, Repr

/-- A lineage of continuation objects in MRAM (R372, R420). -/
structure Lineage where
  id : Nat
  gen : Nat
  consumed : Option Nat
  reserved : Bool
  sealCtr : Nat
  forked : Bool
  deriving DecidableEq, Repr

/-- A group that is being captured, is to be restarted, or runs after a restart (R368, R373, R378): its cores, the object's
address and options, the freeze time, the object's tag, and what a resumed group reports. -/
structure Group where
  id : Nat
  part : Nat
  launch : Nat
  cores : List Nat
  addr : Nat
  opts : Word
  f : Nat
  /-- 0 suspending, 1 to be restarted, 2 running after a restart -/
  phase : Nat
  tag : Nat := 0
  /-- captured by pre-emption into the pool, to be resumed by the control die -/
  pool : Bool := false
  pfail : Bool := false
  /-- the posting launch and step, and the status word of a RESUME -/
  status : Option (Nat × Nat × Nat) := none
  /-- queue, serial, tag and quiet flag of a RESUME record -/
  byHost : Option (Nat × Nat × Word × Bool) := none
  /-- every core froze at a region boundary so far -/
  boundary : Bool := true
  done : Nat := 0
  report : Report := {}
  /-- as `Launch.endAt` -/
  endAt : Nat := 0
  deriving DecidableEq, Repr

/-- A core section of a continuation object, kept as data: the core as it was frozen, with its step (R370). -/
structure Section where
  core : Core
  cid : Nat
  orders : List Order
  deriving DecidableEq, Repr

/-- What the control die wrote as a continuation object (R369, R370), kept beside its bytes in memory and found by its tag. -/
structure Obj where
  lineage : Nat
  gen : Nat
  midRegion : Bool
  coupled : Bool
  part : Nat
  mapid : Nat
  time : Nat
  budget : Nat
  estimate : Nat
  launch : Nat
  tor : Nat
  forked : Bool
  sections : List Section
  image : List Byte
  measure : List Byte
  deriving DecidableEq, Repr

/-- The PTP anchor and servo of R384 and R385. -/
structure Ptp where
  d0 : Nat := 0
  /-- P0 in units of 2^-16 ns -/
  p0 : Nat := 0
  rate : Nat := 578690330408
  lock : Bool := false
  seq : BitVec 16 := 0
  err : BitVec 32 := 0
  good : Nat := 0
  nextAt : Nat := 2097152
  deriving DecidableEq, Repr

/-- The line counters of one core (R392). -/
structure Counters where
  lrd : Word := 0
  rrd : Word := 0
  lwr : Word := 0
  rwr : Word := 0
  deriving DecidableEq, Repr

/-- An entry of the management event log (R349, R355, R425). -/
structure LogEntry where
  what : Nat
  core : Nat
  engine : Nat
  addr : Nat
  time : Nat
  stepid : Word
  reason : Nat
  deriving DecidableEq, Repr

/-- A row on an amber list (R351). -/
structure Amber where
  addr : Nat
  clean : Nat
  deriving DecidableEq, Repr

/-- A scrubbed unit: 0 to 7 the HBM stacks, 8 and 9 the memory-side caches (R350, R351). -/
structure Scrub where
  /-- the row that is visited next, when the last visit was due, and whether the amber rows are to be visited first -/
  pos : Nat := 0
  last : Nat := 0
  amberDue : Bool := false
  amber : List Amber := []
  deriving DecidableEq, Repr

/-- The life of the package (R24, R421). -/
inductive Life where
  | running | pfail (since : Nat) | held | ended
  deriving DecidableEq, Repr

/-- An incremental checkpoint in progress (R416). -/
structure Ckpt where
  part : Nat
  queue : Nat
  serial : Nat
  tag : Word
  quiet : Bool
  area : Nat
  size : Nat
  k : Nat
  b : Nat
  /-- the pages still marked: virtual address, frame, size, address of the leaf -/
  pages : List (Nat × Nat × Nat × Nat)
  /-- bytes of entries written, their CRC so far, and how many -/
  len : Nat
  crc : Word
  count : Nat
  /-- the first uncorrectable word that a page held (R267) -/
  err : Report := {}
  deriving DecidableEq, Repr

/-- The answer to a privileged command (R415). -/
structure CmdResult where
  cls : Nat
  data : List Byte
  deriving DecidableEq, Repr

/-- A manifest bank of MRAM (R422). -/
structure Manifest where
  seq : Nat
  time : Nat
  queues : List (Nat × Nat)
  entries : List (Nat × Nat × Nat × Nat)
  valid : Bool
  deriving DecidableEq, Repr

/-- The whole package. -/
structure State where
  now : Nat := 0
  cur : Nat := 0
  free : Nat := 0
  nextId : Nat := 1
  inputs : List Instr := []
  life : Life := .running
  cores : List (Nat × Core) := []
  mem : List Host.Cell := []
  memUe : List Nat := []
  /-- 8-byte words of memory that hold a single-bit error not yet found (R267) -/
  memCe : List Nat := []
  /-- of those of `memUe` and `memCe`, the words whose error lies in the memory-side cache of their home (R260, R267) -/
  cacheErr : List Nat := []
  rels : List Rel := []
  reads : List RdReq := []
  orders : List Order := []
  walks : List Walk := []
  /-- the bulkhead whose miss a walker took last, and the walkers' caches (R274) -/
  walkRr : Nat := 31
  ptrs : List PtrEnt := []
  quadTlb : List (Nat × TlbEnt) := []
  parts : List Partition := []
  launches : List Launch := []
  groups : List Group := []
  objs : List (Nat × Obj) := []
  lineages : List Lineage := []
  windows : List Win := []
  queues : List Queue := []
  vfs : List (Nat × Nat) := []
  mmode : Nat := 0
  quiesced : Bool := false
  /-- the memory mode that an accepted command will put in force (R390) -/
  mmodeTo : Option Nat := none
  wberr : Bool := false
  sprtop : Nat := 0x4800000000
  dtop0 : Nat := 0
  dtop1 : Nat := 0
  hostsz : Nat := 0x200000000000
  counters : List (Nat × Counters) := []
  ptp : Ptp := {}
  derated : Bool := false
  clockAt : Option (Nat × Bool) := none
  /-- the last time a junction reached 110 °C while the clock is derated (R425) -/
  hotAt : Option Nat := none
  cap : Nat := 700
  capBad : Bool := false
  threshold : Nat := 4096
  errTimes : List (Nat × Nat) := []
  scrubHbm : Nat := 164160000000000
  scrubCache : Nat := 6840000000000
  ptpInterval : Nat := 2097152
  scrubs : List (Nat × Scrub) := []
  retired : List Nat := []
  deadDies : List Nat := []
  offline : List (Nat × Nat) := []
  /-- the device cycle from which the port of a bulkhead admits its next message to the control die (R395) -/
  ports : List (Nat × Nat) := []
  evlog : List LogEntry := []
  banks : Manifest × Manifest := (⟨0, 0, [], [], false⟩, ⟨0, 0, [], [], false⟩)
  ckpts : List Ckpt := []
  /-- writes to the host window whose completion the host link awaits: (id, core, class, its word) (R278) -/
  hostWrites : List (Nat × Nat × Nat × Nat) := []
  results : List CmdResult := []
  /-- invalidations that have begun and not completed: partition, what, and the identifier from which effects were held later (R275) -/
  invs : List (Nat × InvScope × Nat) := []
  /-- what partitions in capture mode have logged: partition, device time, kind, data; and their sealed increments (R423) -/
  capLog : List (Nat × Nat × Nat × Nat) := []
  images : List (Nat × List Byte) := []
  deriving DecidableEq, Repr

/-- What an unlisted byte of memory or scratchpad reads as. DESIGN CHOICE for global memory (log 3); R245 for
scratchpad. -/
def unlisted : Byte := 0

/-- The canonical form of a byte memory: addresses strictly rising, and no entry that an unlisted address reads as. -/
abbrev Memory.wf (m : List Host.Cell) : Prop :=
  m.Pairwise (fun a b => a.1 < b.1) ∧ ∀ c ∈ m, c.2 ≠ unlisted

/-- The package right after package reset: every counter and register at its stated reset value, no partition, no step, no
record anywhere (R380, R391, R384, R407, R424, R435); the values the spec does not state are named in log 2 and log 3. -/
def State.reset : State := {}

end Sys2Proof.Machine
end

