-- ==== Sys2Proof/Machine/Ops.lean ====
section
/-! DEFINITION. The named operations over memory, maps, registers, queues, regions and time that every meaning uses, and
the taking of a trap (R356). -/
namespace Sys2Proof.Machine

/-! ### Bytes and memories -/

/-- Little-endian bytes of the low `8n` bits of `v` (R54). -/
def leBytes : Nat → Nat → List Byte
  | 0, _ => []
  | n + 1, v => BitVec.ofNat 8 v :: leBytes n (v / 256)

/-- The value of bytes, least significant first (R54). -/
def leVal : List Byte → Nat
  | [] => 0
  | b :: bs => b.toNat + 256 * leVal bs

/-- Bits [lo + n − 1 : lo] of `w`. -/
def bits (w lo n : Nat) : Nat := w / 2 ^ lo % 2 ^ n

/-- The byte at `a`. -/
def Memory.get : List Host.Cell → Nat → Byte
  | [], _ => unlisted
  | c :: r, a => if c.1 = a then c.2 else Memory.get r a

/-- Puts a cell before the first one of a higher address. -/
def Memory.put : List Host.Cell → Nat → Byte → List Host.Cell
  | [], a, b => [(a, b)]
  | c :: r, a, b => if a < c.1 then (a, b) :: c :: r else c :: Memory.put r a b

/-- Writes one byte, keeping the canonical form: what stood at its address goes, and an unlisted byte is not listed. -/
def Memory.set (m : List Host.Cell) (a : Nat) (b : Byte) : List Host.Cell :=
  let r := m.filter (fun c => c.1 != a)
  if b = unlisted then r else Memory.put r a b

/-- The `n` bytes from `a` upwards. -/
def Memory.read (m : List Host.Cell) (a : Nat) : Nat → List Byte
  | 0 => []
  | n + 1 => Memory.get m a :: Memory.read m (a + 1) n

/-- Writes bytes from `a` upwards. -/
def Memory.write (m : List Host.Cell) (a : Nat) : List Byte → List Host.Cell
  | [] => m
  | b :: bs => Memory.write (Memory.set m a b) (a + 1) bs

/-- Writes bytes at addresses, each under a bit mask: bits where the mask is 0 keep what they hold (R181). -/
def Memory.writeMasked (m : List Host.Cell) : List (Nat × Byte × Byte) → List Host.Cell
  | [] => m
  | (a, b, k) :: r => Memory.writeMasked (Memory.set m a ((b &&& k) ||| (Memory.get m a &&& ~~~k))) r

/-- Drops every entry of a range, so that its bytes read as an unlisted byte does. -/
def Memory.clear (m : List Host.Cell) (a n : Nat) : List Host.Cell :=
  m.filter (fun c => c.1 < a || a + n ≤ c.1)

/-- The value of the `n` little-endian bytes at `a`. -/
def Memory.val (m : List Host.Cell) (a n : Nat) : Nat := leVal (Memory.read m a n)

/-! ### Maps and sets as sorted lists -/

/-- The entry of a map. -/
def mget {α : Type} : List (Nat × α) → Nat → Option α
  | [], _ => none
  | c :: r, a => if c.1 = a then some c.2 else mget r a

/-- Sets an entry of a map, keeping the keys rising. -/
def mput {α : Type} : List (Nat × α) → Nat → α → List (Nat × α)
  | [], a, b => [(a, b)]
  | c :: r, a, b => if a < c.1 then (a, b) :: c :: r else if a = c.1 then (a, b) :: r else c :: mput r a b

/-- Removes an entry of a map. -/
def mdel {α : Type} (m : List (Nat × α)) (a : Nat) : List (Nat × α) := m.filter (fun c => c.1 != a)

/-- Adds a number to a sorted set. -/
def sadd : List Nat → Nat → List Nat
  | [], a => [a]
  | c :: r, a => if a < c then a :: c :: r else if a = c then c :: r else c :: sadd r a

/-- Adds numbers to a sorted set. -/
def saddAll (l : List Nat) (as : List Nat) : List Nat := as.foldl sadd l

/-- The first element that satisfies `p`, replaced by `f`. -/
def updFirst {α : Type} (p : α → Bool) (f : α → α) : List α → List α
  | [] => []
  | x :: r => if p x then f x :: r else x :: updFirst p f r

/-- Puts an element into a list kept in an order. -/
def insertBy {α : Type} (before : α → α → Bool) (x : α) : List α → List α
  | [] => [x]
  | y :: r => if before x y then x :: y :: r else y :: insertBy before x r

/-- A list in an order. -/
def sortBy {α : Type} (before : α → α → Bool) (l : List α) : List α := l.foldl (fun r x => insertBy before x r) []

/-! ### Cores of the package -/

/-- The core with identifier `n`; a core that nothing has touched is idle. -/
def State.core (s : State) (n : Nat) : Core := (mget s.cores n).getD {}

/-- Replaces a core. -/
def State.setCore (s : State) (n : Nat) (c : Core) : State := { s with cores := mput s.cores n c }

/-- Changes a core. -/
def State.updCore (s : State) (n : Nat) (f : Core → Core) : State := s.setCore n (f (s.core n))

/-- The compute die, row, column in the die, package column, bulkhead and quad of a core (R14 to R16). -/
def dieOf (n : Nat) : Nat := n / 128 % 2
def rowOf (n : Nat) : Nat := n / 16 % 8
def colOf (n : Nat) : Nat := n % 16
def pcolOf (n : Nat) : Nat := dieOf n * 16 + colOf n
def bulkheadOf (n : Nat) : Nat := rowOf n / 2 * 8 + pcolOf n / 4
def quadOf (n : Nat) : Nat := rowOf n * 8 + pcolOf n / 4
def memberOf (n : Nat) : Nat := n % 4
/-- The core at a package row and column. -/
def coreAt (row pcol : Nat) : Nat := pcol / 16 * 128 + row * 16 + pcol % 16
/-- Member `m` of the quad of core `n`. -/
def quadMember (n m : Nat) : Nat := n / 4 * 4 + m

/-- The core runs in a coupled quad (R214). -/
def Core.coupled (c : Core) : Bool := match c.step with | some i => i.coupled | none => false

/-- The four members of a core's quad. -/
def quadCores (n : Nat) : List Nat := [quadMember n 0, quadMember n 1, quadMember n 2, quadMember n 3]

/-- The cores that run as one machine with core `n`: its coupled quad, or itself (R215). -/
def State.gangOf (s : State) (n : Nat) : List Nat :=
  if (s.core n).coupled then (quadCores n).filter (fun m => (s.core m).step.isSome) else [n]

/-- A fresh identifier, in issue order. -/
def State.fresh (s : State) : Nat × State := (s.nextId, { s with nextId := s.nextId + 1 })

/-! ### Time -/

/-- The core is in trap mode (R359). -/
def Core.hand (c : Core) : Bool := c.trap.isSome

/-- The clock that words issue by: stream time, or device time in trap mode (R359). -/
def Core.clock (c : Core) : Nat := if c.hand then c.dt else c.stream

/-- Moves a core to cycle `t` of its clock (R38: no freeze, so device time moves with stream time). -/
def Core.goTo (c : Core) (t : Nat) : Core :=
  if c.hand then { c with dt := max c.dt t }
  else { c with stream := max c.stream t, dt := c.dt + (t - c.stream) }

/-- A freeze of `n` device cycles (R38, R41). In trap mode the cycles are added to SLIP by RETT (R359). -/
def Core.freeze (c : Core) (n : Nat) : Core :=
  if c.hand then { c with dt := c.dt + n } else { c with dt := c.dt + n, slip := c.slip + BitVec.ofNat 64 n }

/-- The wait that the core is in, if it is in one (R129, R256). -/
def Core.waiting (c : Core) : Option Until := c.until?.filter (fun u => !u.past)

/-- Freezes a core, and with it the members of its coupled quad (R215). A member in trap mode freezes alone: the others are
frozen until it resumes. -/
def State.freezeAll (s : State) (n k : Nat) : State :=
  if (s.core n).hand then s.updCore n (fun c => c.freeze k)
  else ((s.gangOf n).filter (fun m => !(s.core m).hand)).foldl (fun s m => s.updCore m (fun c => c.freeze k)) s

/-- The package's device time never runs behind a core that acts. -/
def State.sync (s : State) (n : Nat) : State := { s with now := max s.now (s.core n).dt }

/-- The device cycle from which the port of core `n`'s bulkhead admits a message to the control die (R395). -/
def State.portAt (s : State) (n : Nat) : Nat := (mget s.ports (bulkheadOf n)).getD 0

/-- The port of core `n`'s bulkhead admits a message at `t`, and the next one 8 device cycles later (R395). -/
def State.usePort (s : State) (n t : Nat) : State := { s with ports := mput s.ports (bulkheadOf n) (t + 8) }

/-- Core `n` sends the control die a message. Until the port of its bulkhead admits it the core is frozen, with the members of its coupled quad
(R41, R395). -/
def State.sendMsg (s : State) (n : Nat) : State :=
  let t := max (s.core n).dt (s.portAt n)
  (s.usePort n t).freezeAll n (t - (s.core n).dt)

/-! ### Registers and queues -/

/-- A push onto the scalar result queue (R35). -/
def Arch.pushS (a : Arch) (e : QEnt) : Arch :=
  { a with q := Vector.ofFn (fun i : Fin 16 => if i.val = 0 then e else a.q[i.val - 1])
           struck := a.struck.filterMap (fun r => match r with | .q i => if i < 15 then some (.q (i + 1)) else none | _ => some r) }

/-- A push onto the vector result queue (R160). -/
def Arch.pushV (a : Arch) (e : VQEnt) : Arch :=
  { a with vq := Vector.ofFn (fun i : Fin 16 => if i.val = 0 then e else a.vq[i.val - 1])
           struck := a.struck.filterMap (fun r => match r with | .vq i => if i < 15 then some (.vq (i + 1)) else none | _ => some r) }

/-- Writes value and poison of a named scalar register; its full bit stays (R33). Code 48 discards the write (R35). -/
def Arch.setS (a : Arch) (d : Nat) (v : Word) (psn : Bool) : Arch :=
  if h : d < 32 then { a with s := a.s.set d ⟨v, psn, a.s[d].pend⟩, struck := a.struck.filter (· != .s d) } else a

/-- A scalar result: the named write and the push (R33, R35). -/
def Arch.landS (a : Arch) (d : Nat) (v : Word) (psn : Bool) : Arch :=
  (a.setS d v psn).pushS ⟨v, psn, false⟩

/-- The lanes and lane poison that a vector result leaves in `d` under a mask (R162). -/
def Arch.mergeV (a : Arch) (d : Nat) (x : Lanes) (psn kb kp : LMask) (mz : Bool) : Lanes × LMask :=
  let old : VReg := if h : d < 32 then a.v[d] else {}
  (Vector.ofFn (fun i : Fin 64 => if kb.getLsbD i.val then x[i.val] else if mz then 0 else old.lanes[i.val]),
   ((kb &&& psn) ||| (~~~kb &&& (if mz then 0 else old.psn))) ||| kp)

/-- Writes lanes and lane poison of a named vector register; its full bit stays. -/
def Arch.setV (a : Arch) (d : Nat) (v : Lanes × LMask) : Arch :=
  if h : d < 32 then { a with v := a.v.set d ⟨v.1, v.2, a.v[d].pend⟩ } else a

/-- A vector result under a mask: the named write and the push (R160, R162). -/
def Arch.landV (a : Arch) (d : Nat) (x : Lanes) (psn kb kp : LMask) (mz : Bool) : Arch :=
  let v := a.mergeV d x psn kb kp mz
  (a.setV d v).pushV ⟨v.1, v.2, false⟩

/-- A mask result (R163); k0 discards the write. -/
def Arch.landK (a : Arch) (d : Nat) (x psn kb kp : LMask) (mz : Bool) : Arch :=
  if h : 0 < d ∧ d < 8 then
    let o := a.k[d]'h.2
    let nk : KReg := ⟨(kb &&& x) ||| (~~~kb &&& (if mz then 0 else o.bits)),
      ((kb &&& psn) ||| (~~~kb &&& (if mz then 0 else o.psn))) ||| kp⟩
    { a with k := a.k.set d nk h.2 }
  else a

/-- Bits of a CSR that a write changes (R150, R152): reserved bits read 0. -/
def csrMask (n : Nat) : Word :=
  if n = 0x000 then 0x13F else if n = 0x001 then 7 else if n = 0x031 then 7
  else if n = 0x040 then 0xFFFFFFFF0000003F else BitVec.allOnes 64

/-- Writes a program-writable CSR; any other number is an RO CSR and is ignored (R8, R150). -/
def Csrs.write (r : Csrs) (n : Nat) (v : Word) : Csrs :=
  let v := v &&& csrMask n
  if n = 0x000 then { r with status := v } else if n = 0x001 then { r with rmode := v }
  else if n = 0x002 then { r with tvec := v } else if n = 0x003 then { r with tsave := v }
  else if n = 0x006 then { r with tpc := v } else if n = 0x031 then { r with rlim := v }
  else if n = 0x040 then { r with mtol := v } else if n = 0x041 then { r with seed := v }
  else if n = 0x050 then { r with dqbase := v } else if n = 0x051 then { r with dqlim := v }
  else if n = 0x052 then { r with dqhead := v } else if n = 0x053 then { r with dqtail := v } else r

/-- Flags OR into STATUS (R70, R71). -/
def Csrs.orFlags (r : Csrs) (f : BitVec 6) : Csrs := { r with status := r.status ||| f.setWidth 64 }

/-- Applies a change to the live state and to the entry snapshot of every region that opened after region `rgn`
(R46: later landings of earlier operations update the snapshot as well). -/
def Core.updArch (c : Core) (rgn : Nat) (f : Arch → Arch) : Core :=
  let g (r : Region) : Region := if rgn < r.id then { r with snap := f r.snap } else r
  { c with arch := f c.arch, opn := g c.opn, closing := c.closing.map g }

/-! ### Scratchpad (R40, R49, R144) -/

/-- The granules that bytes touch. -/
def granules (as : List Nat) : List Nat := saddAll [] (as.map (· / 64))

/-- The granules of a byte range. -/
def granRange (a n : Nat) : List Nat :=
  if n = 0 then [] else (List.range ((a + n - 1) / 64 - a / 64 + 1)).map (· + a / 64)

/-- Marks granules read in the open region (R49). -/
def Core.markR (c : Core) (gs : List Nat) : Core := { c with opn := { c.opn with rset := saddAll c.opn.rset gs } }

/-- Marks granules written in the open region (R49). -/
def Core.markW (c : Core) (gs : List Nat) : Core := { c with opn := { c.opn with wset := saddAll c.opn.wset gs } }

/-- A granule is empty (R40). -/
def Core.isEmpty (c : Core) (g : Nat) : Bool := c.empties.any (fun e => e.1 = g)

/-- The first of the granules that the open region has read and not written (R49). -/
def Core.idemBad (c : Core) (gs : List Nat) : Option Nat :=
  gs.find? (fun g => c.opn.rset.contains g && !c.opn.wset.contains g)

/-- Some granule was read before it was written by a region that is still closing (R50). -/
def Core.heldBack (c : Core) (gs : List Nat) : Bool :=
  gs.any (fun g => c.closing.any (fun r => r.rset.contains g && !r.wset.contains g))

/-- The protected ranges of a core's scratchpad (R142): code region, reserved rings, open windows. -/
def State.protRanges (s : State) (n : Nat) : List (Nat × Nat) :=
  let c := s.core n
  (match c.step with
   | some i =>
     (i.codebase, i.codelen) ::
       (i.pipes.filter (fun p => p.valid && p.cons = i.role)).map (fun p => (4096 * p.rbase, 2 ^ (12 + p.size)))
   | none => []) ++
  (s.windows.filter (fun w => w.isOpen && w.tcore = n)).map (fun w => (4096 * w.tbase, 4096 * (w.tlen + 1)))

/-- A byte lies in one of the ranges. -/
def inRanges (rs : List (Nat × Nat)) (a : Nat) : Bool := rs.any (fun r => r.1 ≤ a && a < r.1 + r.2)

/-- An 8-byte word at or around `a` holds an uncorrectable error (R144). -/
def Core.ueAt (c : Core) (a : Nat) : Bool := c.ue.contains (a / 8)

/-! ### Regions and closing (R44, R45, R156) -/

/-- The closing cycle of an ended region, given that of the region before it (R156). -/
def Region.closeAt (r : Region) (before : Nat) : Nat :=
  max (max (r.tC.getD 0) (match r.tL with | some t => t + 48 | none => 0)) before

/-- The closing cycle of the oldest region that is closing. -/
def Core.closeCycle (c : Core) : Nat :=
  match c.closing with
  | [] => c.shut
  | r :: _ => r.closeAt c.shut

/-- The closing cycle of the last region that is closing. -/
def Core.lastCloseCycle (c : Core) : Nat := c.closing.foldl (fun t r => r.closeAt t) c.shut

/-- The closing cycle of a core's oldest closing region; in a coupled quad the latest of the four (R216). -/
def State.quadClose (s : State) (n : Nat) : Nat :=
  (s.gangOf n).foldl (fun t m => max t (s.core m).closeCycle) 0

/-- The same for the last closing region. -/
def State.quadLastClose (s : State) (n : Nat) : Nat :=
  (s.gangOf n).foldl (fun t m => max t (s.core m).lastCloseCycle) 0

/-- The last landing of a list of events. -/
def lastEv (evs : List (Nat × Eff)) : Option Nat :=
  evs.foldl (fun m e => match m with | none => some e.1 | some t => some (max t e.1)) none

/-- Puts an operation among others in issue order. -/
def insFlight (f : Flight) : List Flight → List Flight
  | [] => [f]
  | x :: r => if f.id < x.id then f :: x :: r else x :: insFlight f r

/-- Puts an operation in flight (R33); its last event counts for the closing of its region (R44). -/
def Core.launchOp (c : Core) (f : Flight) : Core :=
  let tl := match lastEv f.evs, c.opn.tL with
    | none, o => o
    | some t, none => some t
    | some t, some o => some (max t o)
  { c with flights := c.flights ++ [f], opn := if c.hand then c.opn else { c.opn with tL := tl } }

/-! ### Capture mode (R423) -/

/-- The launch with identifier `l`. -/
def State.launch? (s : State) (l : Nat) : Option Launch := s.launches.find? (fun x => x.id = l)

/-- The partition with identifier `p`. -/
def State.part? (s : State) (p : Nat) : Option Partition := s.parts.find? (fun x => x.id = p)

/-- The physical address of a host bus address (R406). -/
def hostPa (a : Nat) : Nat := 4 * 2 ^ 45 + a

/-- Writes bytes at a physical address: whole 8-byte words lose their errors (R267). -/
def State.memWrite (s : State) (pa : Nat) (bs : List Byte) : State :=
  let whole (w : Nat) : Bool := pa ≤ 8 * w && 8 * w + 8 ≤ pa + bs.length
  { s with mem := Memory.write s.mem pa bs
           memUe := if s.memUe.isEmpty then [] else s.memUe.filter (fun w => !whole w)
           memCe := if s.memCe.isEmpty then [] else s.memCe.filter (fun w => !whole w)
           cacheErr := if s.cacheErr.isEmpty then [] else s.cacheErr.filter (fun w => !whole w) }

/-- The unit of an error block: engine, level, die, bulkhead and core, as its bits from 0x00 on (R347, R352). -/
def Report.unit (r : Report) : Nat :=
  let c := r.core
  r.engine * 2 ^ 60 + r.level * 2 ^ 58 + (if 1 ≤ r.level then dieOf c * 2 ^ 57 else 0) +
    (if 2 ≤ r.level then bulkheadOf c * 2 ^ 52 else 0) + (if r.level = 3 then c % 256 * 2 ^ 44 else 0)

/-- Logs an event of a partition in capture mode, kind and two words of data, into its host ring: 32 bytes behind those before (R423). The
numbers of the kinds and the place in the ring: DESIGN CHOICE, log 10. -/
def State.capture (s : State) (p kind a b : Nat) : State :=
  match (s.part? p).bind (·.capture) with
  | none => s
  | some ring =>
    let k := (s.capLog.filter (fun x => x.1 = p)).length
    { s with capLog := s.capLog ++ [(p, s.now, kind, a + b * 2 ^ 64)] }.memWrite (hostPa (ring + 32 * k))
      (leBytes 8 s.now ++ leBytes 8 kind ++ leBytes 8 a ++ leBytes 8 b)

/-- Logs a machine error for a partition in capture mode (R423). -/
def State.captureErr (s : State) (p : Nat) (r : Report) : State := s.capture p 3 r.unit r.addr

/-- Logs a machine error for the partition of the step of core `n` (R423). -/
def State.captureOn (s : State) (n : Nat) (r : Report) : State :=
  match (s.core n).step with
  | some i => s.captureErr i.part { r with core := n }
  | none => s

/-! ### Ends of steps (R258, R346, R348) -/

/-- Of two errors, the one that a report names (R348). -/
def Report.worse (a b : Report) : Report :=
  if a.cls < b.cls then b
  else if b.cls < a.cls then a
  else if b.time < a.time || (b.time = a.time && b.step < a.step) then (if b.cls = 0 then a else b)
  else a

/-- Adds to the step's report (R346, R348). -/
def StepInfo.note (i : StepInfo) (r : Report) : StepInfo := { i with report := i.report.worse r }

/-- A region error of an operation of region `rgn` on core `n`, found in its present cycle: the replay or retirement that
follows waits for its cycle (R330, R331, R334). The report is that of R352. Of two errors the earlier region counts, and of one region the
first that calls for its retirement, else the first (R355). -/
def State.regionErr (s : State) (n rgn : Nat) (r : Report) : State :=
  let c := s.core n
  let r : Report := { r with cls := 2, step := (match c.step with | some i => i.stp | none => 0), time := c.dt, core := n }
  let cnt := if c.opn.id = rgn then c.opn.rcnt
    else match c.closing.find? (fun q => q.id = rgn) with | some q => q.rcnt | none => 0
  let times := (n, c.dt) :: s.errTimes.filter (fun x => x.1 != n || c.dt < x.2 + 2 ^ 30)
  let many := s.threshold < (times.filter (fun x => x.1 = n)).length
  let full := c.arch.csr.rlim.toNat % 8 ≤ cnt
  let d : Doom := ⟨rgn, full || many, c.clock, r, if full then 0 else 2⟩
  let d := match c.doom with
    | none => d
    | some o =>
      if o.why = 3 then (if d.rgn < o.rgn then { d with retire := true, why := 3 } else o)
      else if o.rgn < d.rgn || (o.rgn = d.rgn && (o.retire || !d.retire)) then o else d
  ({ s with errTimes := times }.setCore n { c with doom := some d, step := c.step.map (fun (i : StepInfo) => i.note r) }).captureOn n r

/-- A core after its step has left it: nothing in flight, nothing held, idle; stores keep their contents (R258, R334). -/
def Core.vacate (c : Core) : Core :=
  { c with step := none, flights := [], awaits := [], held := [], opn := {}, closing := [], shut := 0, ended := false, trap := none,
           doom := none, until? := none, accOwn := [], accP := [], slots := [], asked := [], heavy := [],
           walkFaults := [], frozen := false, grpEng := [], grpEnd := false, floor := 0,
           exact_ := false, owe := none, joint := [], mmuls := [], mwlds := [], port := [], undo := [], touched := [], sats := [],
           empties := c.empties.filter (fun e => e.2 = 0) }

/-- Granules of windows that the step read in a closed region become empty when it ends (R399). -/
def State.emptyWindows (s : State) (n : Nat) : State :=
  let gs := (s.windows.filter (fun w => w.isOpen && w.tcore = n)).flatMap (·.read)
  let s := s.updCore n (fun c => { c with empties := gs.foldl (fun l g => mput l g 0) c.empties })
  { s with windows := s.windows.map (fun w => if w.tcore = n then { w with read := [] } else w) }

/-- Changes a launch. -/
def State.updLaunch (s : State) (l : Nat) (f : Launch → Launch) : State :=
  { s with launches := s.launches.map (fun x => if x.id = l then f x else x) }

/-- Changes a partition. -/
def State.updPart (s : State) (p : Nat) (f : Partition → Partition) : State :=
  { s with parts := s.parts.map (fun x => if x.id = p then f x else x) }

/-- Core `n` has lost its step: it is no longer in a group that is to be captured, and a group without cores is captured no more. -/
def State.leaveGroups (s : State) (n : Nat) : State :=
  let gs : List Group := s.groups.map (fun (g : Group) => if g.phase = 0 then { g with cores := g.cores.filter (fun (m : Nat) => m != n) } else g)
  { s with groups := gs.filter (fun g => g.phase != 0 || !g.cores.isEmpty) }

/-- A step that reports `r` counts as completed (R253, R373). -/
def Report.ok (r : Report) : Nat := if r.cls < 0x10 then 1 else 0

/-- Accounts for a step that has ended for good on core `n`, at the resumed group it belongs to; what the control die then writes can be seen from
`t` on (R373, R374, R381). -/
def State.accountGroup (s : State) (n : Nat) (i : StepInfo) (t : Nat) : State :=
  { s with groups := s.groups.map (fun (g : Group) =>
    if i.group = some g.id && g.cores.contains n then
      { g with cores := g.cores.filter (fun (m : Nat) => m != n), done := g.done + i.report.ok, report := g.report.worse i.report
               endAt := max g.endAt t }
    else g) }

/-- Accounts for a step that has ended for good, at its launch and at the resumed group it belongs to (R228, R253, R346, R347,
R373, R374). The control die hears of the end 30 cycles later, and what it writes is seen 30 after that (R381). -/
def State.account (s : State) (n : Nat) (i : StepInfo) (cerr : Nat) : State :=
  let ok := i.report.ok
  let t := (s.core n).dt + 60
  let s := (s.accountGroup n i t).leaveGroups n
  if i.forked then s else
  s.updLaunch i.launch (fun l =>
    { l with running := l.running.filter (fun x => x.1 != n), report := l.report.worse i.report, done := l.done + ok,
             ncorr := l.ncorr + cerr, nreplay := l.nreplay + i.replays, endAt := max l.endAt t })

/-- The class a step that completes reports, from what happened to it (R346). -/
def StepInfo.okClass (i : StepInfo) (cerr : Nat) : Nat :=
  if i.failedOver then 4 else if i.adopted then 3 else if i.replays ≠ 0 then 2 else if cerr ≠ 0 then 1 else 0

/-- Changes a lineage. -/
def State.updLineage (s : State) (l : Nat) (f : Lineage → Lineage) : State :=
  { s with lineages := s.lineages.map (fun x => if x.id = l then f x else x) }

/-- The discarding of a held RESUME or DISCARD clears its reservation (R372). -/
def State.unreserve (s : State) (e : HeldEff) : State :=
  let clear (tag : Nat) : State := match mget s.objs tag with
    | some o => s.updLineage o.lineage (fun l => { l with reserved := false })
    | none => s
  match e with
  | .resume _ _ tag => clear tag
  | .discard _ tag => clear tag
  | _ => s

/-- How far device time runs ahead of the stream of core `n`. -/
def Core.offset (c : Core) : Int := (c.dt : Int) - c.stream

/-- A coupled quad that core `n` leaves is coupled no more (R214): the members that were frozen with it go on from its device time. -/
def State.uncouple (s : State) (n : Nat) : State :=
  let o := (s.core n).offset
  ((s.gangOf n).filter (· != n)).foldl (fun s m => s.updCore m (fun c =>
    let d := if c.hand then 0 else (o - c.offset).toNat
    { c with dt := c.dt + d, slip := c.slip + BitVec.ofNat 64 d, step := c.step.map (fun i => { i with coupled := false }) })) s

/-- The step of core `n` leaves it: what it holds is discarded as in a replay, its reads are dropped, its walks go on
for no one, granules of windows that it read become empty, and its quad is coupled no more (R130, R214, R258, R273, R372, R399). -/
def State.depart (s : State) (n : Nat) : State :=
  let s := (s.core n).held.foldl (fun s h => s.unreserve h.eff) s
  let s := (s.uncouple n).emptyWindows n
  ({ s with walks := s.walks.map (fun (w : Walk) => if w.core = n then { w with gone := true } else w)
            reads := s.reads.filter (fun r => r.core != n) }).updCore n Core.vacate

/-- An error that took the step from a core before takes the class with which the step ends (R354). -/
def StepInfo.noteLost (i : StepInfo) (cls cause : Nat) : StepInfo :=
  if i.adopted || i.failedOver then i.note { i.lost with cls := cls, cause := cause } else i

/-- A core reports by itself that its step ends: after a trap without a handler, a DEADLINE among them (R356, R395). -/
def Report.byCore (r : Report) : Bool := r.addrk = 3 && (r.cls = 0x10 || r.cls = 0x11)

/-- Ends the step of core `n` with a class: its open and closing regions are discarded and its core released
(R258, R346, R356). Arrivals still outstanding are dropped (R130). -/
def State.endStep1 (s : State) (n : Nat) (r : Report) : State :=
  let c := s.core n
  match c.step with
  | none => s
  | some i =>
    let i := (i.noteLost r.cls r.cause).note { r with step := i.stp, time := c.dt, core := n }
    let s := s.depart n
    (if r.byCore then s.sendMsg n else s).account n i c.cerr

/-- NOT_ADOPTABLE, as the control die reports it (R341, R352). -/
def notAdoptableReport : Report := { cls := 0x22, engine := 9, level := 0, addrk := 0 }

/-- The classes that end the other members of a gang instance with KILLED (R251). -/
def killsGang (cls : Nat) : Bool := cls = 0x10 || cls = 0x11 || cls = 0x22

/-- Steps of launch `l` that were to run again end with a report: the error that took each from its core takes the class, and in a gang
the rest of the instance is not run (R251, R336, R342, R354). -/
def State.endRedos (s : State) (l : Nat) (rs : List Redo) (r : Report) : State :=
  let s := rs.foldl (fun s x =>
    let i := (x.info.noteLost r.cls r.cause).note { r with step := x.info.stp, time := s.now, core := x.core }
    let s := s.accountGroup x.core i (s.now + 30)
    if i.forked then s else s.updLaunch l (fun y => { y with
      report := y.report.worse i.report
      endAt := max y.endAt (s.now + 30)
      deadInst := if i.gang && killsGang r.cls then sadd y.deadInst i.inst else y.deadInst })) s
  s.updLaunch l (fun y => { y with redo := y.redo.filter (fun x => !rs.contains x) })

/-- The other cores that run the same instance of a gang, quad partners of one role included (R242, R249, R251). -/
def State.instanceOf (s : State) (n : Nat) : List Nat :=
  match (s.core n).step with
  | none => []
  | some i =>
    (s.cores.filter (fun x => x.1 != n && (match x.2.step with
      | some j => i.gang && j.launch = i.launch && j.inst = i.inst && j.fork = i.fork
      | none => false))).map (·.1)

/-- The gang instance of core `n` runs no further steps (R251). An instance of a fork has none (R374). -/
def State.deadInstance (s : State) (n : Nat) : State :=
  match (s.core n).step with
  | some i => if i.forked then s else s.updLaunch i.launch (fun l =>
      if bits (l.words.headD 0).toNat 32 3 < 2 then l else { l with deadInst := sadd l.deadInst i.inst })
  | none => s

/-- Ends the steps of cores that fall together with one report, and in a gang the other members of their instance with KILLED (R251, R258,
R368). -/
def State.endGroup (s : State) (cs : List Nat) (r : Report) : State :=
  let others := if killsGang r.cls then (cs.flatMap s.instanceOf).filter (fun m => !cs.contains m) else []
  let s := if killsGang r.cls then cs.foldl State.deadInstance s else s
  let s := cs.foldl (fun s m => s.endStep1 m r) s
  others.foldl (fun s m => s.endStep1 m { cls := 0x12, level := 3 }) s

/-- Ends the step of core `n`, and in a gang the other members of its instance with KILLED (R251, R258). -/
def State.endStep (s : State) (n : Nat) (r : Report) : State := s.endGroup [n] r

end Sys2Proof.Machine

namespace Sys2Proof.Machine

/-! ### Taking a trap (R356 to R358) -/

/-- The non-zero bytes of an `n`-byte little-endian field at `a`. -/
def fieldCells (a n v : Nat) : List Host.Cell :=
  (List.range n).filterMap (fun i =>
    let b := BitVec.ofNat 8 (v / 2 ^ (8 * i))
    if b = unlisted then none else some (a + i, b))

/-- Lanes as one field of 256 bytes. -/
def lanesCells (a : Nat) (l : Lanes) : List Host.Cell :=
  (List.range 64).flatMap (fun i => fieldCells (a + 4 * i) 4 (l[i]!).toNat)

/-- A bit set for each element that satisfies `p`. -/
def packBits {α : Type} (p : α → Bool) (l : List α) : Nat :=
  l.foldr (fun x n => (if p x then 1 else 0) + 2 * n) 0

/-- The cycle after which an operation has nothing left to do. -/
def Flight.lastAt (f : Flight) : Nat := f.evs.foldl (fun m e => max m e.1) f.issue

/-- A record of R358 at `a`, for a trap at stream cycle `t`; `closing` tells its region. -/
def recordCells (a t : Nat) (closing : Bool) (f : Flight) : List Host.Cell :=
  fieldCells a 8 (1 + 2 * f.kind + 2 ^ 8 * (t - f.issue) + 2 ^ 16 * (f.lastAt - t) +
    (if closing then 2 ^ 32 else 0)) ++
  fieldCells (a + 8) 8 f.addr ++ fieldCells (a + 16) 8 f.lcnt ++
  ((f.units.take 6).zipIdx.flatMap (fun u => fieldCells (a + 24 + 4 * u.2) 4 u.1.toNat)) ++
  fieldCells (a + 0x30) 8 f.mask.bits.toNat ++ fieldCells (a + 0x38) 8 f.mask.psn.toNat ++
  lanesCells (a + 0x40) f.opa.1 ++ lanesCells (a + 0x140) f.opb.1 ++ lanesCells (a + 0x240) f.opc.1 ++
  fieldCells (a + 0x340) 8 f.opa.2.toNat ++ fieldCells (a + 0x348) 8 f.opb.2.toNat ++
  fieldCells (a + 0x350) 8 f.opc.2.toNat

/-- The scalar registers and the scalar result queue in the save area, offsets 0x40 to 0x1FF (R357). -/
def scalarCells (a : Nat) (r : Arch) : List Host.Cell :=
  (r.s.toList.zipIdx.flatMap (fun x => fieldCells (a + 0x40 + 8 * x.2) 8 x.1.val.toNat)) ++
  (r.q.toList.zipIdx.flatMap (fun x => fieldCells (a + 0x140 + 8 * x.2) 8 x.1.val.toNat)) ++
  fieldCells (a + 0x1C0) 8 (packBits (·.psn) r.s.toList + 2 ^ 32 * packBits (·.psn) r.q.toList + 2 ^ 48 * packBits (·.void) r.q.toList) ++
  fieldCells (a + 0x1C8) 8 (packBits (fun x => x.pend.isNone) r.s.toList)

/-- The vector registers and the vector result queue, offsets 0x200 to 0x33FF (R357). -/
def vectorCells (a : Nat) (r : Arch) : List Host.Cell :=
  (r.v.toList.zipIdx.flatMap (fun x => lanesCells (a + 0x200 + 256 * x.2) x.1.lanes)) ++
  (r.vq.toList.zipIdx.flatMap (fun x => lanesCells (a + 0x2200 + 256 * x.2) x.1.lanes)) ++
  (r.v.toList.zipIdx.flatMap (fun x => fieldCells (a + 0x3200 + 8 * x.2) 8 x.1.psn.toNat)) ++
  (r.vq.toList.zipIdx.flatMap (fun x => fieldCells (a + 0x3300 + 8 * x.2) 8 x.1.psn.toNat)) ++
  fieldCells (a + 0x3380) 8 (packBits (fun x => x.pend.isNone) r.v.toList + 2 ^ 32 * packBits (·.void) r.vq.toList)

/-- The mask registers and the accumulators of x, offsets 0x3400 to 0x34FF (R357). -/
def maskCells (a : Nat) (r : Arch) : List Host.Cell :=
  ((r.k.toList.drop 1).zipIdx.flatMap (fun x => fieldCells (a + 0x3400 + 8 * x.2) 8 x.1.bits.toNat)) ++
  ((r.k.toList.drop 1).zipIdx.flatMap (fun x => fieldCells (a + 0x3440 + 8 * x.2) 8 x.1.psn.toNat)) ++
  (r.x.toList.zipIdx.flatMap (fun x => fieldCells (a + 0x3480 + 20 * x.2) 20 x.1.bits.toNat)) ++
  fieldCells (a + 0x34D0) 8 (r.x.toList.zipIdx.foldl (fun n x => n + x.1.psn.toNat * 2 ^ (8 * x.2)) 0)

/-- The control and status registers that the save area holds, in its order (R357). -/
def Csrs.saved (c : Csrs) : List Word := [c.status, c.rmode, c.tvec, c.tsave, c.rlim, c.mtol, c.seed, c.dqbase, c.dqlim, c.dqhead, c.dqtail]

/-- The control and status registers and the loop state, offsets 0x3500 to 0x35FF (R357). -/
def loopCells (a : Nat) (r : Arch) : List Host.Cell :=
  let l := r.loop
  (r.csr.saved.zipIdx.flatMap (fun x => fieldCells (a + 0x3500 + 8 * x.2) 8 x.1.toNat)) ++
  fieldCells (a + 0x3580) 8 l.body ++ fieldCells (a + 0x3588) 8 l.trip ++ fieldCells (a + 0x3590) 8 l.n ++
  fieldCells (a + 0x3598) 8 l.j ++
  fieldCells (a + 0x35A0) 8 (l.k + 2 ^ 6 * l.len + 2 ^ 12 * (l.stages - 1) + (if l.active then 2 ^ 15 else 0)) ++
  fieldCells (a + 0x35A8) 8 l.cur0.toNat ++ fieldCells (a + 0x35B0) 8 l.cur1.toNat ++
  fieldCells (a + 0x35B8) 8 l.pend0.toNat ++ fieldCells (a + 0x35C0) 8 l.pend1.toNat

/-- The part of the save area that holds architectural state, offsets 0x40 to 0x35FF (R357). -/
def archCells (a : Nat) (r : Arch) : List Host.Cell :=
  scalarCells a r ++ vectorCells a r ++ maskCells a r ++ loopCells a r

/-- The size of the save area (R357). -/
def saveSize : Nat := 0x13600

/-- The bytes of the save area for a core that traps (R357): the header, the state and the records. -/
def saveCells (c : Core) (a u f cause : Nat) (tval : Word) (tpc : Nat) (recs : List Flight) : List Host.Cell :=
  fieldCells a 8 (1 + 2 ^ 16 * recs.length + 2 ^ 24 * cause) ++ fieldCells (a + 8) 8 tval.toNat ++
  fieldCells (a + 0x10) 8 tpc ++ fieldCells (a + 0x18) 8 u ++ fieldCells (a + 0x20) 8 f ++
  archCells a c.arch ++
  recs.zipIdx.flatMap (fun x => recordCells (a + 0x3600 + 1024 * x.2) f (x.1.rgn != c.opn.id) x.1)

/-- Replaces a range of a memory by the given cells, which lie in it in rising order. -/
def Memory.blit (m : List Host.Cell) (a n : Nat) (cs : List Host.Cell) : List Host.Cell :=
  m.filter (fun c => c.1 < a) ++ cs ++ m.filter (fun c => a + n ≤ c.1)

/-- An operation is recorded at a trap at stream cycle `f`: it is of the scalar or vector engine and has an event after `f`
(R356, step 3). -/
def Flight.recorded (x : Flight) (f : Nat) : Bool := x.kind < 4 && x.evs.any (fun e => f < e.1)

/-- The save area of core `n` may be written: aligned, inside the scratchpad, clear of the code region and of granules whose
overwriting would raise IDEMPOTENCE (R356). DEDUCED: log 40. It must be clear of the other protected ranges too, since no engine of the
core writes inside them (R142). -/
def State.areaOk (s : State) (n : Nat) : Bool :=
  let c := s.core n
  let a := c.arch.csr.tsave.toNat
  a % 64 = 0 && a + saveSize ≤ 0x200000 &&
  (s.protRanges n).all (fun r => r.1 + r.2 ≤ a || a + saveSize ≤ r.1 || r.2 = 0) &&
  (c.idemBad (granRange a saveSize)).isNone

/-- Taking a trap at the word at `c.pc`, on a core whose clock stands at the word's issue cycle (R356). `eng` is the engine
the report names (R352). In trap mode, or with TVEC = 0, or with a bad save area, the step ends (R356, R359). -/
def State.trap (s : State) (n eng cause : Nat) (tval : Word) : State :=
  let c := s.core n
  match c.step with
  | none => s
  | some i =>
    let rep : Report := { cls := if cause = 0x0B then 0x11 else 0x10, cause := if cause = 0x0B then 0 else cause,
                          engine := if cause = 0x0B then 15 else eng, level := 3, addrk := 3, addr := c.pc }
    if c.hand then s.endStep n { rep with cls := 0x10, cause := cause }
    else
      let c1 := { c with walkFaults := [], until? := none, tcause := BitVec.ofNat 64 cause, tval := tval,
                         arch := { c.arch with csr := { c.arch.csr with tpc := BitVec.ofNat 64 c.pc } } }
      if c.arch.csr.tvec = 0 then (s.setCore n c1).endStep n rep
      else if !s.areaOk n then (s.setCore n c1).endStep n { rep with cls := 0x10, cause := cause }
      else
        let f := c.stream
        let u := c.dt
        let a := c.arch.csr.tsave.toNat
        let recs := (c.flights.filter (fun x => x.recorded f)).take 64
        let area := saveCells c1 a u f cause tval c.pc recs
        let c2 := { c1 with
          spad := Memory.blit c.spad a saveSize area
          ue := c.ue.filter (fun w => w < a / 8 || (a + saveSize) / 8 ≤ w)
          ce := c.ce.filter (fun w => w < a / 8 || (a + saveSize) / 8 ≤ w)
          flights := c.flights.filter (fun x => !recs.any (fun r => r.id = x.id))
          arch := { c1.arch with loop := {} }
          trap := some { u := u, f := f, cause := cause, area := a, latches := recs, id0 := s.nextId }
          step := some { i with deadlined := i.deadlined || cause == 0x0B }
          pc := c.arch.csr.tvec.toNat
          base := u + 64 + 8 * recs.length
          exact_ := false, floor := 0, grpEng := [], grpEnd := false }
        s.setCore n (c2.markW (granRange a saveSize))

end Sys2Proof.Machine
end

