-- ==== Sys2Proof/Machine/Operands.lean ====
section
/-! DEFINITION. Every operand form: scalar and vector operand codes, rotation, immediates, empty operands. -/
namespace Sys2Proof.Machine

/-- What a word sees of its issue: its issue cycle `t`, device time, address, kernel iteration, CODEBASE, the core and the
rings of the running kernel (R30, R37, R66, R135). -/
structure Ctx where
  t : Nat
  dt : Nat
  addr : Nat
  lcnt : Nat
  codebase : Nat
  cid : Nat
  loop : LoopSt
  deriving DecidableEq, Repr

/-- The rings that a SQ-form ring word declares, as (file, base, length) (R89, R131). -/
def ringsOf (w : BitVec 32) : List (Nat × Nat × Nat) :=
  let n := w.toNat
  let f := bits n 18 1
  (if bits n 9 4 = 0 then [] else [(f, bits n 13 5, bits n 9 4 + 1)]) ++
  (if bits n 0 4 = 0 then [] else [(f, bits n 4 5, bits n 0 4 + 1)])

/-- Register `r` of file `f` (0 scalar, 1 vector) under rotation in iteration `j` (R135). -/
def rotReg (l : LoopSt) (f j r : Nat) : Nat :=
  match (ringsOf l.cur0 ++ ringsOf l.cur1).find? (fun x => x.1 = f && x.2.1 ≤ r && r < x.2.1 + x.2.2) with
  | some (_, base, len) => base + (r - base + j) % len
  | none => r

/-- A scalar operand code under a rotation flag (R92, R93). -/
def rotS (cx : Ctx) (flag : Bool) (code : Nat) : Nat :=
  if flag && code < 32 then rotReg cx.loop 0 cx.lcnt code else code

/-- A vector operand code under a rotation flag: a vector register, or the scalar register a splat names (R93). -/
def rotV (cx : Ctx) (flag : Bool) (code : Nat) : Nat :=
  if flag && code < 32 then rotReg cx.loop 1 cx.lcnt code
  else if flag && 64 ≤ code && code < 96 then 64 + rotReg cx.loop 0 cx.lcnt (code - 64) else code

/-- The value and poison of a scalar operand code; a void entry reads as a poisoned zero (R36, R37, R91). -/
def readS (c : Core) (cx : Ctx) (code : Nat) : Word × Bool :=
  if h : code < 32 then (c.arch.s[code].val, c.arch.s[code].psn)
  else if h : code - 32 < 16 then (let e := c.arch.q[code - 32]; if e.void then (0, true) else (e.val, e.psn))
  else match c.step with
    | none => (0, false)
    | some i =>
      if code = 48 then (0, false)
      else if code < 55 then (BitVec.ofNat 64 (i.idx.getD (code - 49) 0), false)
      else if code = 55 then (BitVec.ofNat 64 (cx.cid % 256), false)
      else if code = 56 then (BitVec.ofNat 64 cx.dt, false)
      else if code = 57 then (c.slip, false)
      else if code = 58 then (BitVec.ofNat 64 i.stp, false)
      else if code = 59 then (BitVec.ofNat 64 cx.lcnt, false)
      else if code = 60 then (BitVec.ofNat 64 i.trp, false)
      else (0, false)

/-- The same 32-bit value in every lane, with the poison in every lane. -/
def splat (v : BitVec 32) (p : Bool) : Lanes × LMask := (Vector.replicate 64 v, if p then BitVec.allOnes 64 else 0)

/-- The lanes and lane poison of a vector operand code; a void entry reads as poisoned zeros (R36, R95, R160); `imm` is the word's imm[31:0]. -/
def readV (c : Core) (cx : Ctx) (code : Nat) (imm : BitVec 32) : Lanes × LMask :=
  if h : code < 32 then (c.arch.v[code].lanes, c.arch.v[code].psn)
  else if h : code - 32 < 16 then (let e := c.arch.vq[code - 32]; if e.void then (Lanes.zero, BitVec.allOnes 64) else (e.lanes, e.psn))
  else if 64 ≤ code && code < 112 then
    let r := readS c cx (code - 64)
    splat (r.1.truncate 32) r.2
  else if code = 112 then (Vector.ofFn (fun i : Fin 64 => BitVec.ofNat 32 i.val), 0)
  else if code = 114 then splat 0x3F800000 false
  else if code = 115 then splat 1 false
  else if code = 116 then splat 0xBF800000 false
  else if code = 117 then splat 0x3F000000 false
  else if code = 118 then splat 0xFFFFFFFF false
  else if code = 119 then splat imm false
  else splat 0 false

/-- A mask and its poison; k0 reads as all ones and is never poisoned (R163). -/
def readK (c : Core) (n : Nat) : KReg :=
  if n = 0 then ⟨BitVec.allOnes 64, 0⟩ else if h : n < 8 then c.arch.k[n] else ⟨0, 0⟩

/-- The register or queue entry that a scalar operand code names. -/
def refS (code : Nat) : List Ref := if code < 32 then [.s code] else if code < 48 then [.q (code - 32)] else []

/-- The register or queue entry that a vector operand code names; a splat names its scalar register (R95). -/
def refV (code : Nat) : List Ref :=
  if code < 32 then [.v code] else if code < 48 then [.vq (code - 32)] else if 64 ≤ code && code < 112 then refS (code - 64) else []

/-- The arrival that an empty register awaits. -/
def Core.pendOf (c : Core) : Ref → Option Nat
  | .s r => if h : r < 32 then c.arch.s[r].pend else none
  | .v r => if h : r < 32 then c.arch.v[r].pend else none
  | _ => none

/-- The first arrival that the registers of a word still await. -/
def Core.awaitOf (c : Core) (rs : List Ref) : Option Nat := rs.findSome? c.pendOf

/-- A scalar value as lane 0 and 1 of an operand capture (R358). -/
def capS (v : Word × Bool) : Lanes × LMask :=
  (Vector.ofFn (fun i : Fin 64 => if i.val = 0 then v.1.truncate 32 else if i.val = 1 then (v.1 >>> 32).truncate 32 else 0),
   if v.2 then 1 else 0)

/-- The scalar value in an operand capture. -/
def uncapS (l : Lanes × LMask) : Word × Bool :=
  ((l.1[1].setWidth 64 <<< 32) ||| l.1[0].setWidth 64, l.2.getLsbD 0)

/-- No operand. -/
def capNone : Lanes × LMask := (Lanes.zero, 0)

/-- A byte string as an operand capture, four bytes to a lane. -/
def capBytes (bs : List Byte) (psn : Bool) : Lanes × LMask :=
  (Vector.ofFn (fun i : Fin 64 => BitVec.ofNat 32 (leVal ((bs.drop (4 * i.val)).take 4))), if psn then 1 else 0)

end Sys2Proof.Machine
end

