-- ==== Sys2Proof/Decode.lean ====
section
/-! DEFINITION. The decoder: words to instructions by the opcode of decode map 1 (R107), total on any bits; the checks that
R103 makes on a word's fields; and after it the encoder, from the same encoding tables. -/
namespace Sys2Proof

/-- Field [lo + n − 1 : lo] of a word. -/
def fld (n w lo : Nat) : BitVec n := BitVec.ofNat n (w / 2 ^ lo)

/-- Reads the fields of a SR-form word (chapter 04). -/
def SRWord.ofNat (w : Nat) : SRWord :=
  ⟨fld 3 w 19, fld 6 w 13, fld 6 w 7, fld 6 w 1, fld 1 w 0⟩

/-- The word of a SR-form instruction under opcode `op`. -/
def SRWord.toNat (op : Nat) (x : SRWord) : Nat :=
  op * 2 ^ 22 + x.idle.toNat * 2 ^ 19 + x.d.toNat * 2 ^ 13 + x.a.toNat * 2 ^ 7 + x.b.toNat * 2 ^ 1 + x.z.toNat * 2 ^ 0

/-- Reads the fields of a SI-form word (chapter 04). -/
def SIWord.ofNat (w : Nat) : SIWord :=
  ⟨fld 3 w 19, fld 6 w 13, fld 6 w 7, fld 7 w 0⟩

/-- The word of a SI-form instruction under opcode `op`. -/
def SIWord.toNat (op : Nat) (x : SIWord) : Nat :=
  op * 2 ^ 22 + x.idle.toNat * 2 ^ 19 + x.d.toNat * 2 ^ 13 + x.a.toNat * 2 ^ 7 + x.imm.toNat * 2 ^ 0

/-- Reads the fields of a SL-form word (chapter 04). -/
def SLWord.ofNat (w : Nat) : SLWord :=
  ⟨fld 3 w 19, fld 6 w 13, fld 13 w 0⟩

/-- The word of a SL-form instruction under opcode `op`. -/
def SLWord.toNat (op : Nat) (x : SLWord) : Nat :=
  op * 2 ^ 22 + x.idle.toNat * 2 ^ 19 + x.d.toNat * 2 ^ 13 + x.imm.toNat * 2 ^ 0

/-- Reads the fields of a SB-form word (chapter 04). -/
def SBWord.ofNat (w : Nat) : SBWord :=
  ⟨fld 3 w 19, fld 3 w 16, fld 6 w 10, fld 10 w 0⟩

/-- The word of a SB-form instruction under opcode `op`. -/
def SBWord.toNat (op : Nat) (x : SBWord) : Nat :=
  op * 2 ^ 22 + x.idle.toNat * 2 ^ 19 + x.cond.toNat * 2 ^ 16 + x.a.toNat * 2 ^ 10 + x.off.toNat * 2 ^ 0

/-- Reads the fields of a SJ-form word (chapter 04). -/
def SJWord.ofNat (w : Nat) : SJWord :=
  ⟨fld 3 w 19, fld 19 w 0⟩

/-- The word of a SJ-form instruction under opcode `op`. -/
def SJWord.toNat (op : Nat) (x : SJWord) : Nat :=
  op * 2 ^ 22 + x.idle.toNat * 2 ^ 19 + x.off.toNat * 2 ^ 0

/-- Reads the fields of a SF-form word (chapter 04). -/
def SFWord.ofNat (w : Nat) : SFWord :=
  ⟨fld 3 w 19, fld 16 w 3, fld 3 w 0⟩

/-- The word of a SF-form instruction under opcode `op`. -/
def SFWord.toNat (op : Nat) (x : SFWord) : Nat :=
  op * 2 ^ 22 + x.idle.toNat * 2 ^ 19 + x.cmask.toNat * 2 ^ 3 + x.scope.toNat * 2 ^ 0

/-- Reads the fields of a SC-form word (chapter 04). -/
def SCWord.ofNat (w : Nat) : SCWord :=
  ⟨fld 3 w 19, fld 6 w 13, fld 13 w 0⟩

/-- The word of a SC-form instruction under opcode `op`. -/
def SCWord.toNat (op : Nat) (x : SCWord) : Nat :=
  op * 2 ^ 22 + x.idle.toNat * 2 ^ 19 + x.r.toNat * 2 ^ 13 + x.csr.toNat * 2 ^ 0

/-- Reads the fields of a SG-form word (chapter 04). -/
def SGWord.ofNat (w : Nat) : SGWord :=
  ⟨fld 3 w 19, fld 6 w 13, fld 6 w 7, fld 4 w 3, fld 2 w 1, fld 1 w 0⟩

/-- The word of a SG-form instruction under opcode `op`. -/
def SGWord.toNat (op : Nat) (x : SGWord) : Nat :=
  op * 2 ^ 22 + x.idle.toNat * 2 ^ 19 + x.d.toNat * 2 ^ 13 + x.a.toNat * 2 ^ 7 + x.cls.toNat * 2 ^ 3 + x.rsv.toNat * 2 ^ 1 + x.z.toNat * 2 ^ 0

/-- Reads the fields of a SX-form word (chapter 04). -/
def SXWord.ofNat (w : Nat) : SXWord :=
  ⟨fld 3 w 19, fld 6 w 13, fld 3 w 10, fld 6 w 4, fld 4 w 0⟩

/-- The word of a SX-form instruction under opcode `op`. -/
def SXWord.toNat (op : Nat) (x : SXWord) : Nat :=
  op * 2 ^ 22 + x.idle.toNat * 2 ^ 19 + x.a.toNat * 2 ^ 13 + x.stg.toNat * 2 ^ 10 + x.len.toNat * 2 ^ 4 + x.rsv.toNat * 2 ^ 0

/-- Reads the fields of a SQ-form word (chapter 04). -/
def SQWord.ofNat (w : Nat) : SQWord :=
  ⟨fld 3 w 19, fld 1 w 18, fld 5 w 13, fld 4 w 9, fld 5 w 4, fld 4 w 0⟩

/-- The word of a SQ-form instruction under opcode `op`. -/
def SQWord.toNat (op : Nat) (x : SQWord) : Nat :=
  op * 2 ^ 22 + x.idle.toNat * 2 ^ 19 + x.file.toNat * 2 ^ 18 + x.basea.toNat * 2 ^ 13 + x.lena.toNat * 2 ^ 9 + x.baseb.toNat * 2 ^ 4 + x.lenb.toNat * 2 ^ 0

/-- Reads the fields of a VA-form word (chapter 04). -/
def VAWord.ofNat (w : Nat) : VAWord :=
  ⟨fld 3 w 83, fld 8 w 75, fld 8 w 67, fld 8 w 59, fld 8 w 51, fld 3 w 48, fld 1 w 47, fld 4 w 43, fld 3 w 40, fld 4 w 36, fld 3 w 33, fld 33 w 0⟩

/-- The word of a VA-form instruction under opcode `op`. -/
def VAWord.toNat (op : Nat) (x : VAWord) : Nat :=
  op * 2 ^ 86 + x.idle.toNat * 2 ^ 83 + x.d.toNat * 2 ^ 75 + x.a.toNat * 2 ^ 67 + x.b.toNat * 2 ^ 59 + x.c.toNat * 2 ^ 51 + x.mask.toNat * 2 ^ 48 + x.mz.toNat * 2 ^ 47 + x.ty.toNat * 2 ^ 43 + x.rnd.toNat * 2 ^ 40 + x.rot.toNat * 2 ^ 36 + x.stage.toNat * 2 ^ 33 + x.imm.toNat * 2 ^ 0

/-- Reads the fields of a VM-form word (chapter 04). -/
def VMWord.ofNat (w : Nat) : VMWord :=
  ⟨fld 3 w 83, fld 8 w 75, fld 8 w 67, fld 8 w 59, fld 8 w 51, fld 3 w 48, fld 1 w 47, fld 4 w 43, fld 3 w 40, fld 4 w 36, fld 3 w 33, fld 4 w 29, fld 6 w 23, fld 23 w 0⟩

/-- The word of a VM-form instruction under opcode `op`. -/
def VMWord.toNat (op : Nat) (x : VMWord) : Nat :=
  op * 2 ^ 86 + x.idle.toNat * 2 ^ 83 + x.v.toNat * 2 ^ 75 + x.base.toNat * 2 ^ 67 + x.stride.toNat * 2 ^ 59 + x.c.toNat * 2 ^ 51 + x.mask.toNat * 2 ^ 48 + x.mz.toNat * 2 ^ 47 + x.ty.toNat * 2 ^ 43 + x.rnd.toNat * 2 ^ 40 + x.rot.toNat * 2 ^ 36 + x.stage.toNat * 2 ^ 33 + x.cls.toNat * 2 ^ 29 + x.rsv.toNat * 2 ^ 23 + x.off.toNat * 2 ^ 0

/-- Reads the fields of a C-form word (chapter 04). -/
def CWord.ofNat (w : Nat) : CWord :=
  ⟨fld 3 w 83, fld 8 w 75, fld 8 w 67, fld 8 w 59, fld 8 w 51, fld 4 w 47, fld 4 w 43, fld 2 w 41, fld 1 w 40, fld 4 w 36, fld 3 w 33, fld 29 w 4, fld 4 w 0⟩

/-- The word of a C-form instruction under opcode `op`. -/
def CWord.toNat (op : Nat) (x : CWord) : Nat :=
  op * 2 ^ 86 + x.idle.toNat * 2 ^ 83 + x.dst.toNat * 2 ^ 75 + x.src.toNat * 2 ^ 67 + x.shape.toNat * 2 ^ 59 + x.aux.toNat * 2 ^ 51 + x.kind.toNat * 2 ^ 47 + x.cls.toNat * 2 ^ 43 + x.rsva.toNat * 2 ^ 41 + x.cw.toNat * 2 ^ 40 + x.rot.toNat * 2 ^ 36 + x.stage.toNat * 2 ^ 33 + x.rsvb.toNat * 2 ^ 4 + x.rtype.toNat * 2 ^ 0

/-- Reads the fields of a M-form word (chapter 04). -/
def MWord.ofNat (w : Nat) : MWord :=
  ⟨fld 3 w 179, fld 22 w 157, fld 6 w 151, fld 16 w 135, fld 4 w 131, fld 22 w 109, fld 10 w 99, fld 6 w 93, fld 6 w 87, fld 10 w 77, fld 7 w 70, fld 1 w 69, fld 1 w 68, fld 2 w 66, fld 4 w 62, fld 3 w 59, fld 1 w 58, fld 3 w 55, fld 6 w 49, fld 1 w 48, fld 48 w 0⟩

/-- The word of a M-form instruction under opcode `op`. -/
def MWord.toNat (op : Nat) (x : MWord) : Nat :=
  op * 2 ^ 182 + x.idle.toNat * 2 ^ 179 + x.abase.toNat * 2 ^ 157 + x.areg.toNat * 2 ^ 151 + x.astride.toNat * 2 ^ 135 + x.afmt.toNat * 2 ^ 131 + x.hbase.toNat * 2 ^ 109 + x.m.toNat * 2 ^ 99 + x.k.toNat * 2 ^ 93 + x.n.toNat * 2 ^ 87 + x.crow.toNat * 2 ^ 77 + x.ccol.toNat * 2 ^ 70 + x.acc.toNat * 2 ^ 69 + x.ck.toNat * 2 ^ 68 + x.chain.toNat * 2 ^ 66 + x.mcast.toNat * 2 ^ 62 + x.rnd.toNat * 2 ^ 59 + x.arot.toNat * 2 ^ 58 + x.stage.toNat * 2 ^ 55 + x.hreg.toNat * 2 ^ 49 + x.hrot.toNat * 2 ^ 48 + x.rsv.toNat * 2 ^ 0

/-- The instruction of an operation, numbered by its opcode in decode map 1, with the fields of `w`; none where R107 assigns
no operation (R108). The forms of one opcode that the table lists apart are chosen by their selecting field. -/
def decodeOp (op w : Nat) : Option Instr :=
  match op with
  | 0x000 => some (.add (.ofNat w))
  | 0x001 => some (.sub (.ofNat w))
  | 0x002 => some (.mul (.ofNat w))
  | 0x003 => some (.mulh (.ofNat w))
  | 0x004 => some (.mulhu (.ofNat w))
  | 0x005 => some (.div (.ofNat w))
  | 0x006 => some (.divu (.ofNat w))
  | 0x007 => some (.rem (.ofNat w))
  | 0x008 => some (.remu (.ofNat w))
  | 0x009 => some (.andR (.ofNat w))
  | 0x00a => some (.orR (.ofNat w))
  | 0x00b => some (.xorR (.ofNat w))
  | 0x00c => some (.andn (.ofNat w))
  | 0x00d => some (.shl (.ofNat w))
  | 0x00e => some (.shr (.ofNat w))
  | 0x00f => some (.sra (.ofNat w))
  | 0x010 => some (.min (.ofNat w))
  | 0x011 => some (.max (.ofNat w))
  | 0x012 => some (.minu (.ofNat w))
  | 0x013 => some (.maxu (.ofNat w))
  | 0x014 => some (.slt (.ofNat w))
  | 0x015 => some (.sltu (.ofNat w))
  | 0x016 => some (.seq (.ofNat w))
  | 0x017 => some (.sne (.ofNat w))
  | 0x018 => some (.selz (.ofNat w))
  | 0x019 => some (.clz (.ofNat w))
  | 0x01a => some (.ctz (.ofNat w))
  | 0x01b => some (.popc (.ofNat w))
  | 0x01c => some (.bfx (.ofNat w))
  | 0x01d => some (.bfi (.ofNat w))
  | 0x01e => some (.addx2 (.ofNat w))
  | 0x01f => some (.addx4 (.ofNat w))
  | 0x020 => some (.addx8 (.ofNat w))
  | 0x040 => some (.addi (.ofNat w))
  | 0x041 => some (.andi (.ofNat w))
  | 0x042 => some (.ori (.ofNat w))
  | 0x043 => some (.xori (.ofNat w))
  | 0x044 => some (.shli (.ofNat w))
  | 0x045 => some (.shri (.ofNat w))
  | 0x046 => some (.srai (.ofNat w))
  | 0x047 => some (.slti (.ofNat w))
  | 0x048 => some (.movi (.ofNat w))
  | 0x049 => some (.movsh (.ofNat w))
  | 0x080 => some (.br (.ofNat w))
  | 0x081 => some (.jmp (.ofNat w))
  | 0x082 => some (.jmpr (.ofNat w))
  | 0x083 => some (.call (.ofNat w))
  | 0x084 => some (.callr (.ofNat w))
  | 0x085 => some (.ret (.ofNat w))
  | 0x086 => some (.loop (.ofNat w))
  | 0x087 => some (.loopr (.ofNat w))
  | 0x088 => some (.nop (.ofNat w))
  | 0x089 => some (.waitt (.ofNat w))
  | 0x08a => some (.ends (.ofNat w))
  | 0x08b => some (.trap (.ofNat w))
  | 0x08c => some (.rett (.ofNat w))
  | 0x0a0 => some (.ldsB (.ofNat w))
  | 0x0a1 => some (.ldsBu (.ofNat w))
  | 0x0a2 => some (.ldsH (.ofNat w))
  | 0x0a3 => some (.ldsHu (.ofNat w))
  | 0x0a4 => some (.ldsW (.ofNat w))
  | 0x0a5 => some (.ldsWu (.ofNat w))
  | 0x0a6 => some (.ldsD (.ofNat w))
  | 0x0a8 => some (.stsB (.ofNat w))
  | 0x0a9 => some (.stsH (.ofNat w))
  | 0x0aa => some (.stsW (.ofNat w))
  | 0x0ab => some (.stsD (.ofNat w))
  | 0x0c0 => some (.faddS (.ofNat w))
  | 0x0c1 => some (.fsubS (.ofNat w))
  | 0x0c2 => some (.fmulS (.ofNat w))
  | 0x0c3 => some (.ffmaS (.ofNat w))
  | 0x0c4 => some (.fdivS (.ofNat w))
  | 0x0c5 => some (.fsqrtS (.ofNat w))
  | 0x0c6 => some (.fminS (.ofNat w))
  | 0x0c7 => some (.fmaxS (.ofNat w))
  | 0x0c8 => some (.fcmpS (.ofNat w))
  | 0x0c9 => some (.fclassS (.ofNat w))
  | 0x0ca => some (.fabsS (.ofNat w))
  | 0x0cb => some (.fnegS (.ofNat w))
  | 0x0d0 => some (.faddD (.ofNat w))
  | 0x0d1 => some (.fsubD (.ofNat w))
  | 0x0d2 => some (.fmulD (.ofNat w))
  | 0x0d3 => some (.ffmaD (.ofNat w))
  | 0x0d4 => some (.fdivD (.ofNat w))
  | 0x0d5 => some (.fsqrtD (.ofNat w))
  | 0x0d6 => some (.fminD (.ofNat w))
  | 0x0d7 => some (.fmaxD (.ofNat w))
  | 0x0d8 => some (.fcmpD (.ofNat w))
  | 0x0d9 => some (.fclassD (.ofNat w))
  | 0x0da => some (.fabsD (.ofNat w))
  | 0x0db => some (.fnegD (.ofNat w))
  | 0x0cf => some (.fcvt (.ofNat w))
  | 0x0e0 => some (.csrr (.ofNat w))
  | 0x0e1 => some (.csrw (.ofNat w))
  | 0x0e2 => some (.csrs (.ofNat w))
  | 0x0e3 => some (.csrc (.ofNat w))
  | 0x100 => some (.ldgW (.ofNat w))
  | 0x101 => some (.ldgWu (.ofNat w))
  | 0x102 => some (.ldgD (.ofNat w))
  | 0x103 => some (.ldgS (.ofNat w))
  | 0x104 => some (.stgW (.ofNat w))
  | 0x105 => some (.stgD (.ofNat w))
  | 0x108 => some (.fence (.ofNat w))
  | 0x109 => some (.fenceAcq (.ofNat w))
  | 0x10a => some (.commit (.ofNat w))
  | 0x10b => some (.commitRel (.ofNat w))
  | 0x10c => some (.check (.ofNat w))
  | 0x110 => some (.commitAAddD (.ofNat w))
  | 0x111 => some (.commitAMinD (.ofNat w))
  | 0x112 => some (.commitAMaxD (.ofNat w))
  | 0x113 => some (.commitAAndD (.ofNat w))
  | 0x114 => some (.commitAOrD (.ofNat w))
  | 0x115 => some (.commitAXchgD (.ofNat w))
  | 0x116 => some (.commitACasD (.ofNat w))
  | 0x118 => some (.commitAAddW (.ofNat w))
  | 0x119 => some (.commitAMinW (.ofNat w))
  | 0x11a => some (.commitAMaxW (.ofNat w))
  | 0x11b => some (.commitAAndW (.ofNat w))
  | 0x11c => some (.commitAOrW (.ofNat w))
  | 0x11d => some (.commitAXchgW (.ofNat w))
  | 0x11e => some (.commitACasW (.ofNat w))
  | 0x11f => some (.commitAFaddW (.ofNat w))
  | 0x120 => some (if fld 6 w 7 = 48 then .launchSignal (.ofNat w) else .launch (.ofNat w))
  | 0x121 => some (.fenceRc (.ofNat w))
  | 0x122 => some (.hint (.ofNat w))
  | 0x123 => some (.realign (.ofNat w))
  | 0x124 => some (.ask (.ofNat w))
  | 0x128 => some (.precv (.ofNat w))
  | 0x129 => some (.prelease (.ofNat w))
  | 0x130 => some (.suspend (.ofNat w))
  | 0x131 => some (.resume (.ofNat w))
  | 0x132 => some (.fork (.ofNat w))
  | 0x133 => some (.discard (.ofNat w))
  | 0x200 => some (.vadd (.ofNat w))
  | 0x201 => some (.vsub (.ofNat w))
  | 0x202 => some (.vmul (.ofNat w))
  | 0x203 => some (.vfma (.ofNat w))
  | 0x204 => some (.vfms (.ofNat w))
  | 0x205 => some (.vfnma (.ofNat w))
  | 0x206 => some (.vmin (.ofNat w))
  | 0x207 => some (.vmax (.ofNat w))
  | 0x208 => some (.vabs (.ofNat w))
  | 0x209 => some (.vneg (.ofNat w))
  | 0x20a => some (.vrcp (.ofNat w))
  | 0x20b => some (.vrsq (.ofNat w))
  | 0x20c => some (.vexp2 (.ofNat w))
  | 0x20d => some (.vlog2 (.ofNat w))
  | 0x20e => some (.vcmp (.ofNat w))
  | 0x20f => some (.vclass (.ofNat w))
  | 0x210 => some (.vsel (.ofNat w))
  | 0x211 => some (.vcvt (.ofNat w))
  | 0x240 => some (.viadd (.ofNat w))
  | 0x241 => some (.visub (.ofNat w))
  | 0x242 => some (.vimul (.ofNat w))
  | 0x243 => some (.vimad (.ofNat w))
  | 0x244 => some (.vand (.ofNat w))
  | 0x245 => some (.vor (.ofNat w))
  | 0x246 => some (.vxor (.ofNat w))
  | 0x247 => some (.vandn (.ofNat w))
  | 0x248 => some (.vshl (.ofNat w))
  | 0x249 => some (.vshr (.ofNat w))
  | 0x24a => some (.vsra (.ofNat w))
  | 0x24b => some (.vimin (.ofNat w))
  | 0x24c => some (.vimax (.ofNat w))
  | 0x24d => some (.vicmp (.ofNat w))
  | 0x270 => some (if fld 2 w 0 = 1 then .vmovToPattern (.ofNat w) else if fld 2 w 0 = 2 then .vmovFromPattern (.ofNat w)
      else .vmov (.ofNat w))
  | 0x271 => some (.vext (.ofNat w))
  | 0x272 => some (.vins (.ofNat w))
  | 0x273 => some (.vperm (.ofNat w))
  | 0x274 => some (.vrot (.ofNat w))
  | 0x275 => some (.vcomp (.ofNat w))
  | 0x276 => some (.vxpnd (.ofNat w))
  | 0x277 => some (.viota (.ofNat w))
  | 0x278 => some (.vred (.ofNat w))
  | 0x279 => some (.vscan (.ofNat w))
  | 0x27a => some (.vdefer (.ofNat w))
  | 0x27b => some (.vdrain (.ofNat w))
  | 0x290 => some (.vld (.ofNat w))
  | 0x291 => some (.vst (.ofNat w))
  | 0x292 => some (.vldb (.ofNat w))
  | 0x293 => some (.vstb (.ofNat w))
  | 0x294 => some (.vldx (.ofNat w))
  | 0x295 => some (.vstx (.ofNat w))
  | 0x296 => some (.vxpl (.ofNat w))
  | 0x298 => some (.vldg (.ofNat w))
  | 0x299 => some (.vstg (.ofNat w))
  | 0x29a => some (.vredG (.ofNat w))
  | 0x2b0 => some (.kand (.ofNat w))
  | 0x2b1 => some (.kor (.ofNat w))
  | 0x2b2 => some (.kxor (.ofNat w))
  | 0x2b3 => some (.knot (.ofNat w))
  | 0x2b4 => some (if fld 2 w 0 = 1 then .kmovFromScalar (.ofNat w) else if fld 2 w 0 = 2 then .kmovToScalar (.ofNat w)
      else .kmov (.ofNat w))
  | 0x2b5 => some (.kpop (.ofNat w))
  | 0x2c0 => some (.cpy (.ofNat w))
  | 0x2c1 => some (.cpyx (.ofNat w))
  | 0x2c2 => some (.cresume (.ofNat w))
  | 0x2c3 => some (.ccancel (.ofNat w))
  | 0x2c4 => some (.psend (.ofNat w))
  | 0x300 => some (.mwld (.ofNat w))
  | 0x301 => some (.mmul (.ofNat w))
  | 0x302 => some (.mchk (.ofNat w))
  | 0x303 => some (.mzero (.ofNat w))
  | 0x304 => some (.mald (.ofNat w))
  | 0x305 => some (.mast (.ofNat w))
  | _ => none

/-- The opcode of an instruction in decode map 1 (R107); none for an event. -/
def Instr.opcode : Instr → Option Nat
  | .add _ => some 0x000
  | .sub _ => some 0x001
  | .mul _ => some 0x002
  | .mulh _ => some 0x003
  | .mulhu _ => some 0x004
  | .div _ => some 0x005
  | .divu _ => some 0x006
  | .rem _ => some 0x007
  | .remu _ => some 0x008
  | .andR _ => some 0x009
  | .orR _ => some 0x00a
  | .xorR _ => some 0x00b
  | .andn _ => some 0x00c
  | .shl _ => some 0x00d
  | .shr _ => some 0x00e
  | .sra _ => some 0x00f
  | .min _ => some 0x010
  | .max _ => some 0x011
  | .minu _ => some 0x012
  | .maxu _ => some 0x013
  | .slt _ => some 0x014
  | .sltu _ => some 0x015
  | .seq _ => some 0x016
  | .sne _ => some 0x017
  | .selz _ => some 0x018
  | .clz _ => some 0x019
  | .ctz _ => some 0x01a
  | .popc _ => some 0x01b
  | .bfx _ => some 0x01c
  | .bfi _ => some 0x01d
  | .addx2 _ => some 0x01e
  | .addx4 _ => some 0x01f
  | .addx8 _ => some 0x020
  | .addi _ => some 0x040
  | .andi _ => some 0x041
  | .ori _ => some 0x042
  | .xori _ => some 0x043
  | .shli _ => some 0x044
  | .shri _ => some 0x045
  | .srai _ => some 0x046
  | .slti _ => some 0x047
  | .movi _ => some 0x048
  | .movsh _ => some 0x049
  | .br _ => some 0x080
  | .jmp _ => some 0x081
  | .jmpr _ => some 0x082
  | .call _ => some 0x083
  | .callr _ => some 0x084
  | .ret _ => some 0x085
  | .loop _ => some 0x086
  | .loopr _ => some 0x087
  | .nop _ => some 0x088
  | .waitt _ => some 0x089
  | .ends _ => some 0x08a
  | .trap _ => some 0x08b
  | .rett _ => some 0x08c
  | .ldsB _ => some 0x0a0
  | .ldsBu _ => some 0x0a1
  | .ldsH _ => some 0x0a2
  | .ldsHu _ => some 0x0a3
  | .ldsW _ => some 0x0a4
  | .ldsWu _ => some 0x0a5
  | .ldsD _ => some 0x0a6
  | .stsB _ => some 0x0a8
  | .stsH _ => some 0x0a9
  | .stsW _ => some 0x0aa
  | .stsD _ => some 0x0ab
  | .faddS _ => some 0x0c0
  | .fsubS _ => some 0x0c1
  | .fmulS _ => some 0x0c2
  | .ffmaS _ => some 0x0c3
  | .fdivS _ => some 0x0c4
  | .fsqrtS _ => some 0x0c5
  | .fminS _ => some 0x0c6
  | .fmaxS _ => some 0x0c7
  | .fcmpS _ => some 0x0c8
  | .fclassS _ => some 0x0c9
  | .fabsS _ => some 0x0ca
  | .fnegS _ => some 0x0cb
  | .fcvt _ => some 0x0cf
  | .faddD _ => some 0x0d0
  | .fsubD _ => some 0x0d1
  | .fmulD _ => some 0x0d2
  | .ffmaD _ => some 0x0d3
  | .fdivD _ => some 0x0d4
  | .fsqrtD _ => some 0x0d5
  | .fminD _ => some 0x0d6
  | .fmaxD _ => some 0x0d7
  | .fcmpD _ => some 0x0d8
  | .fclassD _ => some 0x0d9
  | .fabsD _ => some 0x0da
  | .fnegD _ => some 0x0db
  | .csrr _ => some 0x0e0
  | .csrw _ => some 0x0e1
  | .csrs _ => some 0x0e2
  | .csrc _ => some 0x0e3
  | .ldgW _ => some 0x100
  | .ldgWu _ => some 0x101
  | .ldgD _ => some 0x102
  | .ldgS _ => some 0x103
  | .stgW _ => some 0x104
  | .stgD _ => some 0x105
  | .fence _ => some 0x108
  | .fenceAcq _ => some 0x109
  | .commit _ => some 0x10a
  | .commitRel _ => some 0x10b
  | .check _ => some 0x10c
  | .commitAAddD _ => some 0x110
  | .commitAMinD _ => some 0x111
  | .commitAMaxD _ => some 0x112
  | .commitAAndD _ => some 0x113
  | .commitAOrD _ => some 0x114
  | .commitAXchgD _ => some 0x115
  | .commitACasD _ => some 0x116
  | .commitAAddW _ => some 0x118
  | .commitAMinW _ => some 0x119
  | .commitAMaxW _ => some 0x11a
  | .commitAAndW _ => some 0x11b
  | .commitAOrW _ => some 0x11c
  | .commitAXchgW _ => some 0x11d
  | .commitACasW _ => some 0x11e
  | .commitAFaddW _ => some 0x11f
  | .launch _ => some 0x120
  | .launchSignal _ => some 0x120
  | .fenceRc _ => some 0x121
  | .hint _ => some 0x122
  | .realign _ => some 0x123
  | .ask _ => some 0x124
  | .precv _ => some 0x128
  | .prelease _ => some 0x129
  | .suspend _ => some 0x130
  | .resume _ => some 0x131
  | .fork _ => some 0x132
  | .discard _ => some 0x133
  | .vadd _ => some 0x200
  | .vsub _ => some 0x201
  | .vmul _ => some 0x202
  | .vfma _ => some 0x203
  | .vfms _ => some 0x204
  | .vfnma _ => some 0x205
  | .vmin _ => some 0x206
  | .vmax _ => some 0x207
  | .vabs _ => some 0x208
  | .vneg _ => some 0x209
  | .vrcp _ => some 0x20a
  | .vrsq _ => some 0x20b
  | .vexp2 _ => some 0x20c
  | .vlog2 _ => some 0x20d
  | .vcmp _ => some 0x20e
  | .vclass _ => some 0x20f
  | .vsel _ => some 0x210
  | .vcvt _ => some 0x211
  | .viadd _ => some 0x240
  | .visub _ => some 0x241
  | .vimul _ => some 0x242
  | .vimad _ => some 0x243
  | .vand _ => some 0x244
  | .vor _ => some 0x245
  | .vxor _ => some 0x246
  | .vandn _ => some 0x247
  | .vshl _ => some 0x248
  | .vshr _ => some 0x249
  | .vsra _ => some 0x24a
  | .vimin _ => some 0x24b
  | .vimax _ => some 0x24c
  | .vicmp _ => some 0x24d
  | .vmov _ => some 0x270
  | .vmovToPattern _ => some 0x270
  | .vmovFromPattern _ => some 0x270
  | .vext _ => some 0x271
  | .vins _ => some 0x272
  | .vperm _ => some 0x273
  | .vrot _ => some 0x274
  | .vcomp _ => some 0x275
  | .vxpnd _ => some 0x276
  | .viota _ => some 0x277
  | .vred _ => some 0x278
  | .vscan _ => some 0x279
  | .vdefer _ => some 0x27a
  | .vdrain _ => some 0x27b
  | .vld _ => some 0x290
  | .vst _ => some 0x291
  | .vldb _ => some 0x292
  | .vstb _ => some 0x293
  | .vldx _ => some 0x294
  | .vstx _ => some 0x295
  | .vxpl _ => some 0x296
  | .vldg _ => some 0x298
  | .vstg _ => some 0x299
  | .vredG _ => some 0x29a
  | .kand _ => some 0x2b0
  | .kor _ => some 0x2b1
  | .kxor _ => some 0x2b2
  | .knot _ => some 0x2b3
  | .kmov _ => some 0x2b4
  | .kmovFromScalar _ => some 0x2b4
  | .kmovToScalar _ => some 0x2b4
  | .kpop _ => some 0x2b5
  | .cpy _ => some 0x2c0
  | .cpyx _ => some 0x2c1
  | .cresume _ => some 0x2c2
  | .ccancel _ => some 0x2c3
  | .psend _ => some 0x2c4
  | .mwld _ => some 0x300
  | .mmul _ => some 0x301
  | .mchk _ => some 0x302
  | .mzero _ => some 0x303
  | .mald _ => some 0x304
  | .mast _ => some 0x305
  | .resultLanding .. => none
  | .guardedArrival .. => none
  | .copyGranuleArrival .. => none
  | .copyBlockTranslated .. => none
  | .tileLatch .. => none
  | .checksumCompare .. => none
  | .regionClosing .. => none
  | .regionError .. => none
  | .replay .. => none
  | .deadline .. => none
  | .deadlineEnd .. => none
  | .writePerform .. => none
  | .atomicPerform .. => none
  | .globalAdditionPerform .. => none
  | .translationReturn .. => none
  | .pipeRecordArrival .. => none
  | .pipeHeadArrival .. => none
  | .windowDelivery .. => none
  | .launchAdmission .. => none
  | .stepDispatch .. => none
  | .adoption .. => none
  | .launchComplete .. => none
  | .variantChoice .. => none
  | .preemption .. => none
  | .tokenRefill .. => none
  | .suspendFreeze .. => none
  | .suspendBoundaryTimeout .. => none
  | .objectWrite .. => none
  | .groupRestart .. => none
  | .dieLoss .. => none
  | .controlDieLoss .. => none
  | .linkRetry .. => none
  | .scrubVisit .. => none
  | .amberVisit .. => none
  | .ptpSample .. => none
  | .ptpLockLoss .. => none
  | .clockSwitch .. => none
  | .thermalDerate .. => none
  | .clockRestore .. => none
  | .overtemperature .. => none
  | .pfail .. => none
  | .pfailCaptureTimeout .. => none
  | .pfailIncrementTimeout .. => none
  | .pfailRelease .. => none
  | .timedLaunchHold .. => none
  | .timedLaunchStart .. => none
  | .bulkheadReset .. => none
  | .bulkheadReturn .. => none
  | .packageReset .. => none
  | .queueBind .. => none
  | .queueAging .. => none
  | .queueQuantumEnd .. => none
  | .sqtailWrite .. => none
  | .cqheadWrite .. => none
  | .pcapWrite .. => none
  | .boundaryRegisterWrite .. => none
  | .registerWrite .. => none
  | .launchRecord .. => none
  | .timedLaunch .. => none
  | .fenceRcRecord .. => none
  | .resumeRecord .. => none
  | .forkRecord .. => none
  | .discardRecord .. => none
  | .checkpointRecord .. => none
  | .partitionCreate .. => none
  | .partitionResize .. => none
  | .partitionRemove .. => none
  | .bindVf .. => none
  | .assignQueue .. => none
  | .setPtroot .. => none
  | .invalidate .. => none
  | .decodeTableLoad .. => none
  | .setMmode .. => none
  | .windowOpen .. => none
  | .windowClose .. => none
  | .setPartitionParameters .. => none
  | .setPackageParameters .. => none
  | .setHostsz .. => none
  | .clearRetirement .. => none
  | .lockPartition .. => none
  | .attest .. => none
  | .setCaptureMode .. => none
  | .readEventLog .. => none
  | .readPfailManifest .. => none
  | .deviceTimeReached .. => none
  | .unassignedOpcode .. => none
  | .softError .. => none
  | .readPerform .. => none
  | .hostLinkWriteCompletion .. => none
  | .hostRequesterAccess .. => none
  | .invalidSubmissionRecord .. => none

/-- The word of an instruction, most significant bit first; 0 for an event, which has none. -/
def encode : Instr → Nat
  | .add w => w.toNat 0x000
  | .sub w => w.toNat 0x001
  | .mul w => w.toNat 0x002
  | .mulh w => w.toNat 0x003
  | .mulhu w => w.toNat 0x004
  | .div w => w.toNat 0x005
  | .divu w => w.toNat 0x006
  | .rem w => w.toNat 0x007
  | .remu w => w.toNat 0x008
  | .andR w => w.toNat 0x009
  | .orR w => w.toNat 0x00a
  | .xorR w => w.toNat 0x00b
  | .andn w => w.toNat 0x00c
  | .shl w => w.toNat 0x00d
  | .shr w => w.toNat 0x00e
  | .sra w => w.toNat 0x00f
  | .min w => w.toNat 0x010
  | .max w => w.toNat 0x011
  | .minu w => w.toNat 0x012
  | .maxu w => w.toNat 0x013
  | .slt w => w.toNat 0x014
  | .sltu w => w.toNat 0x015
  | .seq w => w.toNat 0x016
  | .sne w => w.toNat 0x017
  | .selz w => w.toNat 0x018
  | .clz w => w.toNat 0x019
  | .ctz w => w.toNat 0x01a
  | .popc w => w.toNat 0x01b
  | .bfx w => w.toNat 0x01c
  | .bfi w => w.toNat 0x01d
  | .addx2 w => w.toNat 0x01e
  | .addx4 w => w.toNat 0x01f
  | .addx8 w => w.toNat 0x020
  | .addi w => w.toNat 0x040
  | .andi w => w.toNat 0x041
  | .ori w => w.toNat 0x042
  | .xori w => w.toNat 0x043
  | .shli w => w.toNat 0x044
  | .shri w => w.toNat 0x045
  | .srai w => w.toNat 0x046
  | .slti w => w.toNat 0x047
  | .movi w => w.toNat 0x048
  | .movsh w => w.toNat 0x049
  | .br w => w.toNat 0x080
  | .jmp w => w.toNat 0x081
  | .jmpr w => w.toNat 0x082
  | .call w => w.toNat 0x083
  | .callr w => w.toNat 0x084
  | .ret w => w.toNat 0x085
  | .loop w => w.toNat 0x086
  | .loopr w => w.toNat 0x087
  | .nop w => w.toNat 0x088
  | .waitt w => w.toNat 0x089
  | .ends w => w.toNat 0x08a
  | .trap w => w.toNat 0x08b
  | .rett w => w.toNat 0x08c
  | .ldsB w => w.toNat 0x0a0
  | .ldsBu w => w.toNat 0x0a1
  | .ldsH w => w.toNat 0x0a2
  | .ldsHu w => w.toNat 0x0a3
  | .ldsW w => w.toNat 0x0a4
  | .ldsWu w => w.toNat 0x0a5
  | .ldsD w => w.toNat 0x0a6
  | .stsB w => w.toNat 0x0a8
  | .stsH w => w.toNat 0x0a9
  | .stsW w => w.toNat 0x0aa
  | .stsD w => w.toNat 0x0ab
  | .faddS w => w.toNat 0x0c0
  | .fsubS w => w.toNat 0x0c1
  | .fmulS w => w.toNat 0x0c2
  | .ffmaS w => w.toNat 0x0c3
  | .fdivS w => w.toNat 0x0c4
  | .fsqrtS w => w.toNat 0x0c5
  | .fminS w => w.toNat 0x0c6
  | .fmaxS w => w.toNat 0x0c7
  | .fcmpS w => w.toNat 0x0c8
  | .fclassS w => w.toNat 0x0c9
  | .fabsS w => w.toNat 0x0ca
  | .fnegS w => w.toNat 0x0cb
  | .fcvt w => w.toNat 0x0cf
  | .faddD w => w.toNat 0x0d0
  | .fsubD w => w.toNat 0x0d1
  | .fmulD w => w.toNat 0x0d2
  | .ffmaD w => w.toNat 0x0d3
  | .fdivD w => w.toNat 0x0d4
  | .fsqrtD w => w.toNat 0x0d5
  | .fminD w => w.toNat 0x0d6
  | .fmaxD w => w.toNat 0x0d7
  | .fcmpD w => w.toNat 0x0d8
  | .fclassD w => w.toNat 0x0d9
  | .fabsD w => w.toNat 0x0da
  | .fnegD w => w.toNat 0x0db
  | .csrr w => w.toNat 0x0e0
  | .csrw w => w.toNat 0x0e1
  | .csrs w => w.toNat 0x0e2
  | .csrc w => w.toNat 0x0e3
  | .ldgW w => w.toNat 0x100
  | .ldgWu w => w.toNat 0x101
  | .ldgD w => w.toNat 0x102
  | .ldgS w => w.toNat 0x103
  | .stgW w => w.toNat 0x104
  | .stgD w => w.toNat 0x105
  | .fence w => w.toNat 0x108
  | .fenceAcq w => w.toNat 0x109
  | .commit w => w.toNat 0x10a
  | .commitRel w => w.toNat 0x10b
  | .check w => w.toNat 0x10c
  | .commitAAddD w => w.toNat 0x110
  | .commitAMinD w => w.toNat 0x111
  | .commitAMaxD w => w.toNat 0x112
  | .commitAAndD w => w.toNat 0x113
  | .commitAOrD w => w.toNat 0x114
  | .commitAXchgD w => w.toNat 0x115
  | .commitACasD w => w.toNat 0x116
  | .commitAAddW w => w.toNat 0x118
  | .commitAMinW w => w.toNat 0x119
  | .commitAMaxW w => w.toNat 0x11a
  | .commitAAndW w => w.toNat 0x11b
  | .commitAOrW w => w.toNat 0x11c
  | .commitAXchgW w => w.toNat 0x11d
  | .commitACasW w => w.toNat 0x11e
  | .commitAFaddW w => w.toNat 0x11f
  | .launch w => w.toNat 0x120
  | .launchSignal w => w.toNat 0x120
  | .fenceRc w => w.toNat 0x121
  | .hint w => w.toNat 0x122
  | .realign w => w.toNat 0x123
  | .ask w => w.toNat 0x124
  | .precv w => w.toNat 0x128
  | .prelease w => w.toNat 0x129
  | .suspend w => w.toNat 0x130
  | .resume w => w.toNat 0x131
  | .fork w => w.toNat 0x132
  | .discard w => w.toNat 0x133
  | .vadd w => w.toNat 0x200
  | .vsub w => w.toNat 0x201
  | .vmul w => w.toNat 0x202
  | .vfma w => w.toNat 0x203
  | .vfms w => w.toNat 0x204
  | .vfnma w => w.toNat 0x205
  | .vmin w => w.toNat 0x206
  | .vmax w => w.toNat 0x207
  | .vabs w => w.toNat 0x208
  | .vneg w => w.toNat 0x209
  | .vrcp w => w.toNat 0x20a
  | .vrsq w => w.toNat 0x20b
  | .vexp2 w => w.toNat 0x20c
  | .vlog2 w => w.toNat 0x20d
  | .vcmp w => w.toNat 0x20e
  | .vclass w => w.toNat 0x20f
  | .vsel w => w.toNat 0x210
  | .vcvt w => w.toNat 0x211
  | .viadd w => w.toNat 0x240
  | .visub w => w.toNat 0x241
  | .vimul w => w.toNat 0x242
  | .vimad w => w.toNat 0x243
  | .vand w => w.toNat 0x244
  | .vor w => w.toNat 0x245
  | .vxor w => w.toNat 0x246
  | .vandn w => w.toNat 0x247
  | .vshl w => w.toNat 0x248
  | .vshr w => w.toNat 0x249
  | .vsra w => w.toNat 0x24a
  | .vimin w => w.toNat 0x24b
  | .vimax w => w.toNat 0x24c
  | .vicmp w => w.toNat 0x24d
  | .vmov w => w.toNat 0x270
  | .vmovToPattern w => w.toNat 0x270
  | .vmovFromPattern w => w.toNat 0x270
  | .vext w => w.toNat 0x271
  | .vins w => w.toNat 0x272
  | .vperm w => w.toNat 0x273
  | .vrot w => w.toNat 0x274
  | .vcomp w => w.toNat 0x275
  | .vxpnd w => w.toNat 0x276
  | .viota w => w.toNat 0x277
  | .vred w => w.toNat 0x278
  | .vscan w => w.toNat 0x279
  | .vdefer w => w.toNat 0x27a
  | .vdrain w => w.toNat 0x27b
  | .vld w => w.toNat 0x290
  | .vst w => w.toNat 0x291
  | .vldb w => w.toNat 0x292
  | .vstb w => w.toNat 0x293
  | .vldx w => w.toNat 0x294
  | .vstx w => w.toNat 0x295
  | .vxpl w => w.toNat 0x296
  | .vldg w => w.toNat 0x298
  | .vstg w => w.toNat 0x299
  | .vredG w => w.toNat 0x29a
  | .kand w => w.toNat 0x2b0
  | .kor w => w.toNat 0x2b1
  | .kxor w => w.toNat 0x2b2
  | .knot w => w.toNat 0x2b3
  | .kmov w => w.toNat 0x2b4
  | .kmovFromScalar w => w.toNat 0x2b4
  | .kmovToScalar w => w.toNat 0x2b4
  | .kpop w => w.toNat 0x2b5
  | .cpy w => w.toNat 0x2c0
  | .cpyx w => w.toNat 0x2c1
  | .cresume w => w.toNat 0x2c2
  | .ccancel w => w.toNat 0x2c3
  | .psend w => w.toNat 0x2c4
  | .mwld w => w.toNat 0x300
  | .mmul w => w.toNat 0x301
  | .mchk w => w.toNat 0x302
  | .mzero w => w.toNat 0x303
  | .mald w => w.toNat 0x304
  | .mast w => w.toNat 0x305
  | .resultLanding .. => 0
  | .guardedArrival .. => 0
  | .copyGranuleArrival .. => 0
  | .copyBlockTranslated .. => 0
  | .tileLatch .. => 0
  | .checksumCompare .. => 0
  | .regionClosing .. => 0
  | .regionError .. => 0
  | .replay .. => 0
  | .deadline .. => 0
  | .deadlineEnd .. => 0
  | .writePerform .. => 0
  | .atomicPerform .. => 0
  | .globalAdditionPerform .. => 0
  | .translationReturn .. => 0
  | .pipeRecordArrival .. => 0
  | .pipeHeadArrival .. => 0
  | .windowDelivery .. => 0
  | .launchAdmission .. => 0
  | .stepDispatch .. => 0
  | .adoption .. => 0
  | .launchComplete .. => 0
  | .variantChoice .. => 0
  | .preemption .. => 0
  | .tokenRefill .. => 0
  | .suspendFreeze .. => 0
  | .suspendBoundaryTimeout .. => 0
  | .objectWrite .. => 0
  | .groupRestart .. => 0
  | .dieLoss .. => 0
  | .controlDieLoss .. => 0
  | .linkRetry .. => 0
  | .scrubVisit .. => 0
  | .amberVisit .. => 0
  | .ptpSample .. => 0
  | .ptpLockLoss .. => 0
  | .clockSwitch .. => 0
  | .thermalDerate .. => 0
  | .clockRestore .. => 0
  | .overtemperature .. => 0
  | .pfail .. => 0
  | .pfailCaptureTimeout .. => 0
  | .pfailIncrementTimeout .. => 0
  | .pfailRelease .. => 0
  | .timedLaunchHold .. => 0
  | .timedLaunchStart .. => 0
  | .bulkheadReset .. => 0
  | .bulkheadReturn .. => 0
  | .packageReset .. => 0
  | .queueBind .. => 0
  | .queueAging .. => 0
  | .queueQuantumEnd .. => 0
  | .sqtailWrite .. => 0
  | .cqheadWrite .. => 0
  | .pcapWrite .. => 0
  | .boundaryRegisterWrite .. => 0
  | .registerWrite .. => 0
  | .launchRecord .. => 0
  | .timedLaunch .. => 0
  | .fenceRcRecord .. => 0
  | .resumeRecord .. => 0
  | .forkRecord .. => 0
  | .discardRecord .. => 0
  | .checkpointRecord .. => 0
  | .partitionCreate .. => 0
  | .partitionResize .. => 0
  | .partitionRemove .. => 0
  | .bindVf .. => 0
  | .assignQueue .. => 0
  | .setPtroot .. => 0
  | .invalidate .. => 0
  | .decodeTableLoad .. => 0
  | .setMmode .. => 0
  | .windowOpen .. => 0
  | .windowClose .. => 0
  | .setPartitionParameters .. => 0
  | .setPackageParameters .. => 0
  | .setHostsz .. => 0
  | .clearRetirement .. => 0
  | .lockPartition .. => 0
  | .attest .. => 0
  | .setCaptureMode .. => 0
  | .readEventLog .. => 0
  | .readPfailManifest .. => 0
  | .deviceTimeReached .. => 0
  | .unassignedOpcode .. => 0
  | .softError .. => 0
  | .readPerform .. => 0
  | .hostLinkWriteCompletion .. => 0
  | .hostRequesterAccess .. => 0
  | .invalidSubmissionRecord .. => 0

/-- The form a table row of an opcode with several rows stands for is the one its selecting field names. -/
def Instr.formOk : Instr → Bool
  | .launch w => w.a != 48
  | .launchSignal w => w.a == 48
  | .vmov w => w.imm.extractLsb' 0 2 != 1 && w.imm.extractLsb' 0 2 != 2
  | .vmovToPattern w => w.imm.extractLsb' 0 2 == 1
  | .vmovFromPattern w => w.imm.extractLsb' 0 2 == 2
  | .kmov w => w.imm.extractLsb' 0 2 != 1 && w.imm.extractLsb' 0 2 != 2
  | .kmovFromScalar w => w.imm.extractLsb' 0 2 == 1
  | .kmovToScalar w => w.imm.extractLsb' 0 2 == 2
  | _ => true

/-- The length of a word in bits, from opcode bits [9:8] (R27). -/
def lenBits (op : Nat) : Nat := if op / 256 % 4 < 2 then 32 else if op / 256 % 4 = 2 then 96 else 192

/-- The outcome of decode: an instruction, or the name of the refusal. -/
inductive Decoded where
  | instr (i : Instr)
  /-- R103 step 1: the opcode is unassigned -/
  | unassigned (op : Nat)
  deriving DecidableEq, Repr

/-- Decodes a word of which `op` is the opcode and `w` all its bits, under a decode table: `iop` is the internal operation
the table gives the opcode, if any (R103 step 1, R111). -/
def decodeWord (iop : Option Nat) (op w : Nat) : Decoded :=
  match iop with
  | none => .unassigned op
  | some k => match decodeOp k w with
    | some i => .instr i
    | none => .unassigned op

/-- The 32-bit units of a word in memory order, most significant unit first (R27). -/
def wordUnits : Nat → Nat → List (BitVec 32)
  | 0, _ => []
  | n + 1, w => BitVec.ofNat 32 (w / 2 ^ (32 * n)) :: wordUnits n w

/-- The word of units in memory order. -/
def unitsWord : List (BitVec 32) → Nat
  | [] => 0
  | u :: us => u.toNat * 2 ^ (32 * us.length) + unitsWord us

/-- The units of an instruction whose bits the opcode table numbers from the first unit upwards. -/
def tableUnits : Nat → Nat → List (BitVec 32)
  | 0, _ => []
  | n + 1, w => BitVec.ofNat 32 w :: tableUnits n (w / 2 ^ 32)

/-- The bytes of units, each little-endian (R27). -/
def unitBytes (us : List (BitVec 32)) : List Byte :=
  us.flatMap (fun u => [u.extractLsb' 0 8, u.extractLsb' 8 8, u.extractLsb' 16 8, u.extractLsb' 24 8])

/-- The bits of the first unit of a word that lie in a stream of bytes. -/
def byteUnits : List Byte → List (BitVec 32)
  | a :: b :: c :: d :: r => (d ++ c ++ b ++ a) :: byteUnits r
  | _ => []

/-- Decodes the word at the start of a byte stream under decode map 1; the rest of the stream comes with it. -/
def decodeBytes (bs : List Byte) : Option (Decoded × List Byte) :=
  match byteUnits (bs.take 4) with
  | [u] =>
    let op := u.toNat / 2 ^ 22
    let n := lenBits op / 8
    if bs.length < n then none
    else some (decodeWord (if (decodeOp op 0).isSome then some op else none) op
      (unitsWord (byteUnits (bs.take n))), bs.drop n)
  | _ => none

/-- The instruction the decoder reads from the bits `w` as the opcode table numbers them: bit 0 is the least significant
bit of the first unit, and a later unit's bits count on from it. -/
def decodeTableWord (nbits w : Nat) : Option Instr :=
  match decodeBytes (unitBytes (tableUnits 6 (w % 2 ^ nbits))) with
  | some (.instr i, _) => some i
  | _ => none

/-! ### The checks of R103, steps 2 and 3 -/

/-- A check on one field: the lowest bit of the field and whether it fails. Lists run from the field that stands highest
(R104). -/
abbrev Chk := Nat × Bool

/-- A scalar destination code (R91). -/
def dstBad (d : BitVec 6) : Bool := !(d.toNat < 32 || d == 48)
/-- A scalar destination that may not be s31 (R115, R145, R283, R295). -/
def dst30Bad (d : BitVec 6) : Bool := !(d.toNat < 31 || d == 48)
/-- A scalar destination that must be a register (R283, R318). -/
def dstRegBad (d : BitVec 6) : Bool := !(d.toNat < 31)
/-- A scalar operand code (R91). -/
def srcBad (d : BitVec 6) : Bool := !(d.toNat < 61)
/-- A scalar operand code in an 8-bit field (R91). -/
def src8Bad (d : BitVec 8) : Bool := !(d.toNat < 61)
/-- A scalar destination in an 8-bit field, not s31 (R173, R188). -/
def dst8Bad (d : BitVec 8) : Bool := !(d.toNat < 31 || d == 48)
/-- A vector destination (R95). -/
def vdstBad (d : BitVec 8) : Bool := !(d.toNat < 32 || d == 113)
/-- A vector operand (R95); `vimm` tells whether code 119 is allowed (R165, R98). -/
def vsrcBad (vimm : Bool) (d : BitVec 8) : Bool :=
  !(d.toNat < 48 || (64 ≤ d.toNat && d.toNat < 119) || (vimm && d == 119))
/-- A field that names a mask, 0 to 7 (R95). -/
def kBad (d : BitVec 8) : Bool := !(d.toNat < 8)
/-- A field that names a pattern register, 0 to 3 (R98, R187). -/
def xBad (d : BitVec 8) : Bool := !(d.toNat < 4)
/-- A type code outside the accepted ones (R96). -/
def tyBad (ok : List Nat) (t : BitVec 4) : Bool := !ok.contains t.toNat
/-- A CSR number that the map of R151 does not list. -/
def csrBad (n : BitVec 13) : Bool :=
  !List.contains [0x000, 0x001, 0x002, 0x003, 0x004, 0x005, 0x006, 0x010, 0x011, 0x020, 0x021, 0x030, 0x031, 0x032, 0x040, 0x041, 0x050,
    0x051, 0x052, 0x053, 0x060, 0x070, 0x080, 0x081, 0x082] n.toNat

/-- Reserved fields of an SR-form word that does not use all of d, a, b (R103, R113). -/
def SRWord.res (w : SRWord) (d a b z : Bool) : List Chk :=
  [(13, !d && w.d != 0), (7, !a && w.a != 0), (1, !b && w.b != 0), (0, !z && w.z != 0)]

/-- The rotation flags of fields that a V-form operation does not use (R93). -/
def rotBad (rot : BitVec 4) (used : BitVec 4) : Bool := (rot &&& ~~~used) != 0

/-- Reserved fields of a VA-form word: which of d, a, b, c, mask, mz, type and rnd it uses, and which bits of imm. -/
def VAWord.res (w : VAWord) (d a b c mask mz ty rnd : Bool) (imm : BitVec 33) : List Chk :=
  [(75, !d && w.d != 0), (67, !a && w.a != 0), (59, !b && w.b != 0), (51, !c && w.c != 0), (48, !mask && w.mask != 0),
   (47, !mz && w.mz != 0), (43, !ty && w.ty != 0), (40, !rnd && w.rnd != 0),
   (36, rotBad w.rot (BitVec.ofBool d ++ BitVec.ofBool a ++ BitVec.ofBool b ++ BitVec.ofBool c)),
   (0, (w.imm &&& ~~~imm) != 0)]

/-- Reserved fields of a VM-form word: which of stride, c, mz, rnd and class it uses (R98, R175, R287). -/
def VMWord.res (w : VMWord) (stride c mz rnd cls : Bool) : List Chk :=
  [(59, !stride && w.stride != 0), (51, !c && w.c != 0), (47, !mz && w.mz != 0), (40, !rnd && w.rnd != 0),
   (36, rotBad w.rot (BitVec.ofBool true ++ BitVec.ofBool true ++ BitVec.ofBool stride ++ BitVec.ofBool c)),
   (29, !cls && w.cls != 0), (23, w.rsv != 0)]

/-- Reserved fields of a C-form word: which of to, from, shape, aux, kind, class, cw and rtype it uses (R99). -/
def CWord.res (w : CWord) (dst src shape aux kind cls cw rtype : Bool) : List Chk :=
  [(75, !dst && w.dst != 0), (67, !src && w.src != 0), (59, !shape && w.shape != 0), (51, !aux && w.aux != 0),
   (47, !kind && w.kind != 0), (43, !cls && w.cls != 0), (41, w.rsva != 0), (40, !cw && w.cw != 0),
   (36, rotBad w.rot (BitVec.ofBool dst ++ BitVec.ofBool src ++ BitVec.ofBool shape ++ BitVec.ofBool aux)),
   (4, w.rsvb != 0), (0, !rtype && w.rtype != 0)]

/-- Type codes 9 to 11 are the BX formats (R96). -/
def isBx (t : BitVec 4) : Bool := 9 ≤ t.toNat && t.toNat ≤ 11

/-- Reserved fields of an M-word: `src` covers abase, areg, astride, afmt and arot (R102); `hdr` hbase, hreg and hrot. -/
def MWord.res (w : MWord) (src hdr m k n crow ccol acc ck chain mcast rnd : Bool) : List Chk :=
  [(157, !src && w.abase != 0), (151, !src && w.areg != 0), (135, !src && w.astride != 0), (131, !src && w.afmt != 0),
   (109, !hdr && w.hbase != 0), (99, !m && w.m != 0), (93, !k && w.k != 0), (87, !n && w.n != 0),
   (77, !crow && w.crow != 0), (70, !ccol && w.ccol != 0), (69, !acc && w.acc != 0), (68, !ck && w.ck != 0),
   (66, !chain && w.chain != 0), (62, !mcast && w.mcast != 0), (59, !rnd && w.rnd != 0), (58, !src && w.arot != 0),
   (49, !hdr && w.hreg != 0), (48, !hdr && w.hrot != 0), (0, w.rsv != 0)]

/-- Whether a narrow floating-point memory format makes the word round (R175, R287, R227). -/
def narrowFp (t : BitVec 4) : Bool := 5 ≤ t.toNat && t.toNat ≤ 8

/-- VRED and VSCAN round only for an f32 add (R191, R192). -/
def redRounds (w : VAWord) : Bool := w.ty == 4 && w.imm.extractLsb' 0 2 == 0
/-- The unsigned flag is in use for i32 min and max only (R191, R192). -/
def redUns (w : VAWord) : Bool := w.ty == 3 && (w.imm.extractLsb' 0 2 == 1 || w.imm.extractLsb' 0 2 == 2)

/-- The reserved fields of a word, highest first (R103 step 2). DESIGN CHOICE: log 54. The type field of 0x270 to 0x277, which must be 0, is one of
them (R96, R187). -/
def Instr.reserved : Instr → List Chk
  | .add w => w.res true true true true
  | .sub w => w.res true true true true
  | .mul w => w.res true true true true
  | .mulh w => w.res true true true true
  | .mulhu w => w.res true true true true
  | .div w => w.res true true true true
  | .divu w => w.res true true true true
  | .rem w => w.res true true true true
  | .remu w => w.res true true true true
  | .andR w => w.res true true true true
  | .orR w => w.res true true true true
  | .xorR w => w.res true true true true
  | .andn w => w.res true true true true
  | .shl w => w.res true true true true
  | .shr w => w.res true true true true
  | .sra w => w.res true true true true
  | .min w => w.res true true true true
  | .max w => w.res true true true true
  | .minu w => w.res true true true true
  | .maxu w => w.res true true true true
  | .slt w => w.res true true true true
  | .sltu w => w.res true true true true
  | .seq w => w.res true true true true
  | .sne w => w.res true true true true
  | .selz w => w.res true true true true
  | .clz w => w.res true true false true
  | .ctz w => w.res true true false true
  | .popc w => w.res true true false true
  | .bfx w => w.res true true true true
  | .bfi w => w.res true true true true
  | .addx2 w => w.res true true true true
  | .addx4 w => w.res true true true true
  | .addx8 w => w.res true true true true
  | .addi _ => []
  | .andi _ => []
  | .ori _ => []
  | .xori _ => []
  | .shli w => [(0, w.imm.getLsbD 6)]
  | .shri w => [(0, w.imm.getLsbD 6)]
  | .srai w => [(0, w.imm.getLsbD 6)]
  | .slti _ => []
  | .movi _ => []
  | .movsh _ => []
  | .br _ => []
  | .jmp _ => []
  | .jmpr w => w.res false true false true
  | .call _ => []
  | .callr w => w.res false true false true
  | .ret w => w.res false false false false
  | .loop w => [(0, w.rsv != 0)]
  | .loopr w => [(13, w.lena == 0 && w.basea != 0), (4, w.lenb == 0 && w.baseb != 0)]
  | .nop w => [(0, w.off.toNat ≥ 65536)]
  | .waitt w => w.res false true false true
  | .ends w => w.res false false false false
  | .trap w => [(13, w.d != 0)]
  | .rett w => w.res false false false false
  | .ldsB _ => []
  | .ldsBu _ => []
  | .ldsH _ => []
  | .ldsHu _ => []
  | .ldsW _ => []
  | .ldsWu _ => []
  | .ldsD _ => []
  | .stsB _ => []
  | .stsH _ => []
  | .stsW _ => []
  | .stsD _ => []
  | .faddS w => w.res true true true true
  | .fsubS w => w.res true true true true
  | .fmulS w => w.res true true true true
  | .ffmaS w => w.res true true true true
  | .fdivS w => w.res true true true true
  | .fsqrtS w => w.res true true false true
  | .fminS w => w.res true true true true
  | .fmaxS w => w.res true true true true
  | .fcmpS w => w.res true true true true
  | .fclassS w => w.res true true false true
  | .fabsS w => w.res true true false true
  | .fnegS w => w.res true true false true
  | .fcvt w => [(1, w.b.getLsbD 5)]
  | .faddD w => w.res true true true true
  | .fsubD w => w.res true true true true
  | .fmulD w => w.res true true true true
  | .ffmaD w => w.res true true true true
  | .fdivD w => w.res true true true true
  | .fsqrtD w => w.res true true false true
  | .fminD w => w.res true true true true
  | .fmaxD w => w.res true true true true
  | .fcmpD w => w.res true true true true
  | .fclassD w => w.res true true false true
  | .fabsD w => w.res true true false true
  | .fnegD w => w.res true true false true
  | .csrr _ => []
  | .csrw _ => []
  | .csrs _ => []
  | .csrc _ => []
  | .ldgW w => [(1, w.rsv != 0)]
  | .ldgWu w => [(1, w.rsv != 0)]
  | .ldgD w => [(1, w.rsv != 0)]
  | .ldgS w => [(1, w.rsv != 0)]
  | .stgW w => [(1, w.rsv != 0)]
  | .stgD w => [(1, w.rsv != 0)]
  | .fence _ => []
  | .fenceAcq _ => []
  | .commit w => w.res false false false false
  | .commitRel _ => []
  | .check w => w.res true true true true
  | .commitAAddD w => w.res true true true true
  | .commitAMinD w => w.res true true true true
  | .commitAMaxD w => w.res true true true true
  | .commitAAndD w => w.res true true true true
  | .commitAOrD w => w.res true true true true
  | .commitAXchgD w => w.res true true true true
  | .commitACasD w => w.res true true true true
  | .commitAAddW w => w.res true true true true
  | .commitAMinW w => w.res true true true true
  | .commitAMaxW w => w.res true true true true
  | .commitAAndW w => w.res true true true true
  | .commitAOrW w => w.res true true true true
  | .commitAXchgW w => w.res true true true true
  | .commitACasW w => w.res true true true true
  | .commitAFaddW w => w.res true true true true
  | .launch w => w.res false true true true
  | .launchSignal w => w.res false true true true
  | .fenceRc w => w.res false false false false
  | .hint w => w.res false true false true
  | .realign w => w.res false true false true
  | .ask w => w.res true true true true
  | .precv w => [(7, w.a != 0), (0, w.imm.toNat ≥ 8)]
  | .prelease w => [(13, w.d != 0), (7, w.a != 0), (0, w.imm.toNat ≥ 8)]
  | .suspend w => w.res false true true true
  | .resume w => w.res false true true true
  | .fork w => w.res false true true true
  | .discard w => w.res false true false true
  | .vadd w => w.res true true true false true true true true 0x0FFFFFFFF
  | .vsub w => w.res true true true false true true true true 0x0FFFFFFFF
  | .vmul w => w.res true true true false true true true true 0x0FFFFFFFF
  | .vfma w => w.res true true true true true true true true 0x0FFFFFFFF
  | .vfms w => w.res true true true true true true true true 0x0FFFFFFFF
  | .vfnma w => w.res true true true true true true true true 0x0FFFFFFFF
  | .vmin w => w.res true true true false true true true false 0x0FFFFFFFF
  | .vmax w => w.res true true true false true true true false 0x0FFFFFFFF
  | .vabs w => w.res true true false false true true true false 0x0FFFFFFFF
  | .vneg w => w.res true true false false true true true false 0x0FFFFFFFF
  | .vrcp w => w.res true true false false true true true true 0x0FFFFFFFF
  | .vrsq w => w.res true true false false true true true true 0x0FFFFFFFF
  | .vexp2 w => w.res true true false false true true true true 0x0FFFFFFFF
  | .vlog2 w => w.res true true false false true true true true 0x0FFFFFFFF
  | .vcmp w => w.res true true true false true true true false 7
  | .vclass w => w.res true true false false true true true false 0x0FFFFFFFF
  | .vsel w => w.res true true true true true true true false 0
  | .vcvt w => w.res true true false false true true true true 3
  | .viadd w => w.res true true true false true true true false 1
  | .visub w => w.res true true true false true true true false 1
  | .vimul w => w.res true true true false true true true false 3
  | .vimad w => w.res true true true true true true true false 0x0FFFFFFFF
  | .vand w => w.res true true true false true true true false 0x0FFFFFFFF
  | .vor w => w.res true true true false true true true false 0x0FFFFFFFF
  | .vxor w => w.res true true true false true true true false 0x0FFFFFFFF
  | .vandn w => w.res true true true false true true true false 0x0FFFFFFFF
  | .vshl w => w.res true true true false true true true false 0x0FFFFFFFF
  | .vshr w => w.res true true true false true true true false 0x0FFFFFFFF
  | .vsra w => w.res true true true false true true true false 0x0FFFFFFFF
  | .vimin w => w.res true true true false true true true false 1
  | .vimax w => w.res true true true false true true true false 1
  | .vicmp w => w.res true true true false true true true false 7
  | .vmov w => w.res true true false false true true false false 3
  | .vmovToPattern w => w.res true true false false false false false false 3
  | .vmovFromPattern w => w.res true true false false false false false false 3
  | .vext w => w.res true true true false false false false false 0x7F
  | .vins w => w.res true true true false false false false false 0x3F
  | .vperm w => w.res true true true (w.imm.getLsbD 0) true true false false 1
  | .vrot w => w.res true true true false true true false false 0xFF
  | .vcomp w => w.res true true false false true false false false 0
  | .vxpnd w => w.res true true false false true true false false 0
  | .viota w => w.res true false false false true true false false 0
  | .vred w => w.res true true false false true false true (redRounds w) (if redUns w then 7 else 3)
  | .vscan w => w.res true true (w.imm.getLsbD 4) false true true true (redRounds w) (if redUns w then 0x1F else 0x1B)
  | .vdefer w => w.res false true true false true false false false 0xFFFF
  | .vdrain w => w.res true true true true false false false false 0
  | .vld w => w.res true false true false false
  | .vst w => w.res true false false (narrowFp w.ty) false
  | .vldb w => w.res false true true false false
  | .vstb w => w.res false true false true false
  | .vldx w => w.res true true true false false
  | .vstx w => w.res true true false (narrowFp w.ty) false
  | .vxpl w => w.res false true true false false
  | .vldg w => w.res true false true false true
  | .vstg w => w.res true false false (narrowFp w.ty) true
  | .vredG w => w.res true false false (w.ty == 4) true
  | .kand w => w.res true true true false false false false false 0
  | .kor w => w.res true true true false false false false false 0
  | .kxor w => w.res true true true false false false false false 0
  | .knot w => w.res true true false false false false false false 0
  | .kmov w => w.res true true false false false false false false 3
  | .kmovFromScalar w => w.res true true false false false false false false 3
  | .kmovToScalar w => w.res true true false false false false false false 3
  | .kpop w => w.res true true false false false false false false 0
  | .cpy w => w.res true true true (w.kind == 5) true (w.kind == 3 || w.kind == 4) (w.kind == 3) false
  | .cpyx w => w.res true true true (w.kind == 5) true (w.kind == 3 || w.kind == 4) (w.kind == 3) false
  | .cresume w => w.res false false false true false false false false
  | .ccancel w => w.res false false false true false false false false
  | .psend w => w.res false true true true false false false true
  | .mwld w => w.res true (isBx w.afmt) false true true false false false false false true false
  | .mmul w => w.res true (isBx w.afmt) true true true true false true true true false false
  | .mchk w => w.res false false true false true true false false false false false false
  | .mzero w => w.res false false true false true true true false false false false false
  | .mald w => w.res true false true false true true true false false false false false
  | .mast w => w.res true false true false true true true false false false false (narrowFp w.afmt)
  | .resultLanding .. => []
  | .guardedArrival .. => []
  | .copyGranuleArrival .. => []
  | .copyBlockTranslated .. => []
  | .tileLatch .. => []
  | .checksumCompare .. => []
  | .regionClosing .. => []
  | .regionError .. => []
  | .replay .. => []
  | .deadline .. => []
  | .deadlineEnd .. => []
  | .writePerform .. => []
  | .atomicPerform .. => []
  | .globalAdditionPerform .. => []
  | .translationReturn .. => []
  | .pipeRecordArrival .. => []
  | .pipeHeadArrival .. => []
  | .windowDelivery .. => []
  | .launchAdmission .. => []
  | .stepDispatch .. => []
  | .adoption .. => []
  | .launchComplete .. => []
  | .variantChoice .. => []
  | .preemption .. => []
  | .tokenRefill .. => []
  | .suspendFreeze .. => []
  | .suspendBoundaryTimeout .. => []
  | .objectWrite .. => []
  | .groupRestart .. => []
  | .dieLoss .. => []
  | .controlDieLoss .. => []
  | .linkRetry .. => []
  | .scrubVisit .. => []
  | .amberVisit .. => []
  | .ptpSample .. => []
  | .ptpLockLoss .. => []
  | .clockSwitch .. => []
  | .thermalDerate .. => []
  | .clockRestore .. => []
  | .overtemperature .. => []
  | .pfail .. => []
  | .pfailCaptureTimeout .. => []
  | .pfailIncrementTimeout .. => []
  | .pfailRelease .. => []
  | .timedLaunchHold .. => []
  | .timedLaunchStart .. => []
  | .bulkheadReset .. => []
  | .bulkheadReturn .. => []
  | .packageReset .. => []
  | .queueBind .. => []
  | .queueAging .. => []
  | .queueQuantumEnd .. => []
  | .sqtailWrite .. => []
  | .cqheadWrite .. => []
  | .pcapWrite .. => []
  | .boundaryRegisterWrite .. => []
  | .registerWrite .. => []
  | .launchRecord .. => []
  | .timedLaunch .. => []
  | .fenceRcRecord .. => []
  | .resumeRecord .. => []
  | .forkRecord .. => []
  | .discardRecord .. => []
  | .checkpointRecord .. => []
  | .partitionCreate .. => []
  | .partitionResize .. => []
  | .partitionRemove .. => []
  | .bindVf .. => []
  | .assignQueue .. => []
  | .setPtroot .. => []
  | .invalidate .. => []
  | .decodeTableLoad .. => []
  | .setMmode .. => []
  | .windowOpen .. => []
  | .windowClose .. => []
  | .setPartitionParameters .. => []
  | .setPackageParameters .. => []
  | .setHostsz .. => []
  | .clearRetirement .. => []
  | .lockPartition .. => []
  | .attest .. => []
  | .setCaptureMode .. => []
  | .readEventLog .. => []
  | .readPfailManifest .. => []
  | .deviceTimeReached .. => []
  | .unassignedOpcode .. => []
  | .softError .. => []
  | .readPerform .. => []
  | .hostLinkWriteCompletion .. => []
  | .hostRequesterAccess .. => []
  | .invalidSubmissionRecord .. => []

/-- The fields of a word that hold a code or value marked illegal, highest first (R103 step 3). -/
def Instr.illegal : Instr → List Chk
  | .add w =>
    [(13, dstBad w.d), (7, srcBad w.a), (1, srcBad w.b)]
  | .sub w =>
    [(13, dstBad w.d), (7, srcBad w.a), (1, srcBad w.b)]
  | .mul w =>
    [(13, dst30Bad w.d), (7, srcBad w.a), (1, srcBad w.b)]
  | .mulh w =>
    [(13, dst30Bad w.d), (7, srcBad w.a), (1, srcBad w.b)]
  | .mulhu w =>
    [(13, dst30Bad w.d), (7, srcBad w.a), (1, srcBad w.b)]
  | .div w =>
    [(13, dst30Bad w.d), (7, srcBad w.a), (1, srcBad w.b)]
  | .divu w =>
    [(13, dst30Bad w.d), (7, srcBad w.a), (1, srcBad w.b)]
  | .rem w =>
    [(13, dst30Bad w.d), (7, srcBad w.a), (1, srcBad w.b)]
  | .remu w =>
    [(13, dst30Bad w.d), (7, srcBad w.a), (1, srcBad w.b)]
  | .andR w =>
    [(13, dstBad w.d), (7, srcBad w.a), (1, srcBad w.b)]
  | .orR w =>
    [(13, dstBad w.d), (7, srcBad w.a), (1, srcBad w.b)]
  | .xorR w =>
    [(13, dstBad w.d), (7, srcBad w.a), (1, srcBad w.b)]
  | .andn w =>
    [(13, dstBad w.d), (7, srcBad w.a), (1, srcBad w.b)]
  | .shl w =>
    [(13, dstBad w.d), (7, srcBad w.a), (1, srcBad w.b)]
  | .shr w =>
    [(13, dstBad w.d), (7, srcBad w.a), (1, srcBad w.b)]
  | .sra w =>
    [(13, dstBad w.d), (7, srcBad w.a), (1, srcBad w.b)]
  | .min w =>
    [(13, dstBad w.d), (7, srcBad w.a), (1, srcBad w.b)]
  | .max w =>
    [(13, dstBad w.d), (7, srcBad w.a), (1, srcBad w.b)]
  | .minu w =>
    [(13, dstBad w.d), (7, srcBad w.a), (1, srcBad w.b)]
  | .maxu w =>
    [(13, dstBad w.d), (7, srcBad w.a), (1, srcBad w.b)]
  | .slt w =>
    [(13, dstBad w.d), (7, srcBad w.a), (1, srcBad w.b)]
  | .sltu w =>
    [(13, dstBad w.d), (7, srcBad w.a), (1, srcBad w.b)]
  | .seq w =>
    [(13, dstBad w.d), (7, srcBad w.a), (1, srcBad w.b)]
  | .sne w =>
    [(13, dstBad w.d), (7, srcBad w.a), (1, srcBad w.b)]
  | .selz w =>
    [(13, dstBad w.d), (7, srcBad w.a), (1, srcBad w.b)]
  | .clz w =>
    [(13, dstBad w.d), (7, srcBad w.a)]
  | .ctz w =>
    [(13, dstBad w.d), (7, srcBad w.a)]
  | .popc w =>
    [(13, dstBad w.d), (7, srcBad w.a)]
  | .bfx w =>
    [(13, dstBad w.d), (7, srcBad w.a), (1, srcBad w.b)]
  | .bfi w =>
    [(13, dstBad w.d), (7, srcBad w.a), (1, srcBad w.b)]
  | .addx2 w =>
    [(13, dstBad w.d), (7, srcBad w.a), (1, srcBad w.b)]
  | .addx4 w =>
    [(13, dstBad w.d), (7, srcBad w.a), (1, srcBad w.b)]
  | .addx8 w =>
    [(13, dstBad w.d), (7, srcBad w.a), (1, srcBad w.b)]
  | .addi w =>
    [(13, dstBad w.d), (7, srcBad w.a)]
  | .andi w =>
    [(13, dstBad w.d), (7, srcBad w.a)]
  | .ori w =>
    [(13, dstBad w.d), (7, srcBad w.a)]
  | .xori w =>
    [(13, dstBad w.d), (7, srcBad w.a)]
  | .shli w =>
    [(13, dstBad w.d), (7, srcBad w.a)]
  | .shri w =>
    [(13, dstBad w.d), (7, srcBad w.a)]
  | .srai w =>
    [(13, dstBad w.d), (7, srcBad w.a)]
  | .slti w =>
    [(13, dstBad w.d), (7, srcBad w.a)]
  | .movi w =>
    [(13, dstBad w.d)]
  | .movsh w =>
    [(13, dstBad w.d)]
  | .br w =>
    [(16, w.cond == 6), (10, srcBad w.a)]
  | .jmp _ =>
    []
  | .jmpr w =>
    [(7, srcBad w.a)]
  | .call _ =>
    []
  | .callr w =>
    [(7, srcBad w.a)]
  | .ret _ =>
    []
  | .loop w =>
    [(13, srcBad w.a), (4, w.len == 0)]
  | .loopr _ =>
    []
  | .nop _ =>
    []
  | .waitt w =>
    [(7, srcBad w.a)]
  | .ends _ =>
    []
  | .trap _ =>
    []
  | .rett _ =>
    []
  | .ldsB w =>
    [(13, dst30Bad w.d), (7, srcBad w.a)]
  | .ldsBu w =>
    [(13, dst30Bad w.d), (7, srcBad w.a)]
  | .ldsH w =>
    [(13, dst30Bad w.d), (7, srcBad w.a)]
  | .ldsHu w =>
    [(13, dst30Bad w.d), (7, srcBad w.a)]
  | .ldsW w =>
    [(13, dst30Bad w.d), (7, srcBad w.a)]
  | .ldsWu w =>
    [(13, dst30Bad w.d), (7, srcBad w.a)]
  | .ldsD w =>
    [(13, dst30Bad w.d), (7, srcBad w.a)]
  | .stsB w =>
    [(13, srcBad w.d), (7, srcBad w.a)]
  | .stsH w =>
    [(13, srcBad w.d), (7, srcBad w.a)]
  | .stsW w =>
    [(13, srcBad w.d), (7, srcBad w.a)]
  | .stsD w =>
    [(13, srcBad w.d), (7, srcBad w.a)]
  | .faddS w =>
    [(13, dst30Bad w.d), (7, srcBad w.a), (1, srcBad w.b)]
  | .fsubS w =>
    [(13, dst30Bad w.d), (7, srcBad w.a), (1, srcBad w.b)]
  | .fmulS w =>
    [(13, dst30Bad w.d), (7, srcBad w.a), (1, srcBad w.b)]
  | .ffmaS w =>
    [(13, dst30Bad w.d), (7, srcBad w.a), (1, srcBad w.b)]
  | .fdivS w =>
    [(13, dst30Bad w.d), (7, srcBad w.a), (1, srcBad w.b)]
  | .fsqrtS w =>
    [(13, dst30Bad w.d), (7, srcBad w.a)]
  | .fminS w =>
    [(13, dst30Bad w.d), (7, srcBad w.a), (1, srcBad w.b)]
  | .fmaxS w =>
    [(13, dst30Bad w.d), (7, srcBad w.a), (1, srcBad w.b)]
  | .fcmpS w =>
    [(13, dst30Bad w.d), (7, srcBad w.a), (1, srcBad w.b)]
  | .fclassS w =>
    [(13, dst30Bad w.d), (7, srcBad w.a)]
  | .fabsS w =>
    [(13, dst30Bad w.d), (7, srcBad w.a)]
  | .fnegS w =>
    [(13, dst30Bad w.d), (7, srcBad w.a)]
  | .fcvt w =>
    [(13, dst30Bad w.d), (7, srcBad w.a)]
  | .faddD w =>
    [(13, dst30Bad w.d), (7, srcBad w.a), (1, srcBad w.b)]
  | .fsubD w =>
    [(13, dst30Bad w.d), (7, srcBad w.a), (1, srcBad w.b)]
  | .fmulD w =>
    [(13, dst30Bad w.d), (7, srcBad w.a), (1, srcBad w.b)]
  | .ffmaD w =>
    [(13, dst30Bad w.d), (7, srcBad w.a), (1, srcBad w.b)]
  | .fdivD w =>
    [(13, dst30Bad w.d), (7, srcBad w.a), (1, srcBad w.b)]
  | .fsqrtD w =>
    [(13, dst30Bad w.d), (7, srcBad w.a)]
  | .fminD w =>
    [(13, dst30Bad w.d), (7, srcBad w.a), (1, srcBad w.b)]
  | .fmaxD w =>
    [(13, dst30Bad w.d), (7, srcBad w.a), (1, srcBad w.b)]
  | .fcmpD w =>
    [(13, dst30Bad w.d), (7, srcBad w.a), (1, srcBad w.b)]
  | .fclassD w =>
    [(13, dst30Bad w.d), (7, srcBad w.a)]
  | .fabsD w =>
    [(13, dst30Bad w.d), (7, srcBad w.a)]
  | .fnegD w =>
    [(13, dst30Bad w.d), (7, srcBad w.a)]
  | .csrr w =>
    [(13, dstBad w.r), (0, csrBad w.csr)]
  | .csrw w =>
    [(13, srcBad w.r), (0, csrBad w.csr)]
  | .csrs w =>
    [(13, srcBad w.r), (0, csrBad w.csr)]
  | .csrc w =>
    [(13, srcBad w.r), (0, csrBad w.csr)]
  | .ldgW w =>
    [(13, dstRegBad w.d), (7, srcBad w.a)]
  | .ldgWu w =>
    [(13, dstRegBad w.d), (7, srcBad w.a)]
  | .ldgD w =>
    [(13, dstRegBad w.d), (7, srcBad w.a)]
  | .ldgS w =>
    [(13, dstRegBad w.d), (7, srcBad w.a)]
  | .stgW w =>
    [(13, srcBad w.d), (7, srcBad w.a)]
  | .stgD w =>
    [(13, srcBad w.d), (7, srcBad w.a)]
  | .fence w =>
    [(3, w.cmask == 0), (0, w.scope.toNat ≥ 6)]
  | .fenceAcq w =>
    [(3, w.cmask == 0), (0, w.scope.toNat ≥ 6)]
  | .commit _ =>
    []
  | .commitRel w =>
    [(3, w.cmask == 0), (0, w.scope.toNat ≥ 6)]
  | .check w =>
    [(13, !(w.d.toNat < 49)), (7, srcBad w.a), (1, srcBad w.b)]
  | .commitAAddD w =>
    [(13, dst30Bad w.d), (7, srcBad w.a), (1, srcBad w.b)]
  | .commitAMinD w =>
    [(13, dst30Bad w.d), (7, srcBad w.a), (1, srcBad w.b)]
  | .commitAMaxD w =>
    [(13, dst30Bad w.d), (7, srcBad w.a), (1, srcBad w.b)]
  | .commitAAndD w =>
    [(13, dst30Bad w.d), (7, srcBad w.a), (1, srcBad w.b)]
  | .commitAOrD w =>
    [(13, dst30Bad w.d), (7, srcBad w.a), (1, srcBad w.b)]
  | .commitAXchgD w =>
    [(13, dst30Bad w.d), (7, srcBad w.a), (1, srcBad w.b)]
  | .commitACasD w =>
    [(13, dst30Bad w.d), (7, srcBad w.a), (1, srcBad w.b)]
  | .commitAAddW w =>
    [(13, dst30Bad w.d), (7, srcBad w.a), (1, srcBad w.b)]
  | .commitAMinW w =>
    [(13, dst30Bad w.d), (7, srcBad w.a), (1, srcBad w.b)]
  | .commitAMaxW w =>
    [(13, dst30Bad w.d), (7, srcBad w.a), (1, srcBad w.b)]
  | .commitAAndW w =>
    [(13, dst30Bad w.d), (7, srcBad w.a), (1, srcBad w.b)]
  | .commitAOrW w =>
    [(13, dst30Bad w.d), (7, srcBad w.a), (1, srcBad w.b)]
  | .commitAXchgW w =>
    [(13, dst30Bad w.d), (7, srcBad w.a), (1, srcBad w.b)]
  | .commitACasW w =>
    [(13, dst30Bad w.d), (7, srcBad w.a), (1, srcBad w.b)]
  | .commitAFaddW w =>
    [(13, dst30Bad w.d), (7, srcBad w.a), (1, srcBad w.b)]
  | .launch w =>
    [(7, srcBad w.a), (1, srcBad w.b)]
  | .launchSignal w =>
    [(7, srcBad w.a), (1, srcBad w.b)]
  | .fenceRc _ =>
    []
  | .hint w =>
    [(7, srcBad w.a)]
  | .realign w =>
    [(7, srcBad w.a)]
  | .ask w =>
    [(13, dst30Bad w.d), (7, srcBad w.a), (1, srcBad w.b)]
  | .precv w =>
    [(13, dstRegBad w.d)]
  | .prelease _ =>
    []
  | .suspend w =>
    [(7, srcBad w.a), (1, srcBad w.b)]
  | .resume w =>
    [(7, srcBad w.a), (1, srcBad w.b)]
  | .fork w =>
    [(7, srcBad w.a), (1, srcBad w.b)]
  | .discard w =>
    [(7, srcBad w.a)]
  | .vadd w =>
    [(75, vdstBad w.d), (67, vsrcBad true w.a), (59, vsrcBad true w.b), (43, tyBad [4] w.ty), (40, w.rnd == 7)]
  | .vsub w =>
    [(75, vdstBad w.d), (67, vsrcBad true w.a), (59, vsrcBad true w.b), (43, tyBad [4] w.ty), (40, w.rnd == 7)]
  | .vmul w =>
    [(75, vdstBad w.d), (67, vsrcBad true w.a), (59, vsrcBad true w.b), (43, tyBad [4] w.ty), (40, w.rnd == 7)]
  | .vfma w =>
    [(75, vdstBad w.d), (67, vsrcBad true w.a), (59, vsrcBad true w.b), (51, vsrcBad true w.c), (43, tyBad [4] w.ty), (40, w.rnd == 7)]
  | .vfms w =>
    [(75, vdstBad w.d), (67, vsrcBad true w.a), (59, vsrcBad true w.b), (51, vsrcBad true w.c), (43, tyBad [4] w.ty), (40, w.rnd == 7)]
  | .vfnma w =>
    [(75, vdstBad w.d), (67, vsrcBad true w.a), (59, vsrcBad true w.b), (51, vsrcBad true w.c), (43, tyBad [4] w.ty), (40, w.rnd == 7)]
  | .vmin w =>
    [(75, vdstBad w.d), (67, vsrcBad true w.a), (59, vsrcBad true w.b), (43, tyBad [4] w.ty)]
  | .vmax w =>
    [(75, vdstBad w.d), (67, vsrcBad true w.a), (59, vsrcBad true w.b), (43, tyBad [4] w.ty)]
  | .vabs w =>
    [(75, vdstBad w.d), (67, vsrcBad true w.a), (43, tyBad [4] w.ty)]
  | .vneg w =>
    [(75, vdstBad w.d), (67, vsrcBad true w.a), (43, tyBad [4] w.ty)]
  | .vrcp w =>
    [(75, vdstBad w.d), (67, vsrcBad true w.a), (43, tyBad [4] w.ty), (40, w.rnd == 7)]
  | .vrsq w =>
    [(75, vdstBad w.d), (67, vsrcBad true w.a), (43, tyBad [4] w.ty), (40, w.rnd == 7)]
  | .vexp2 w =>
    [(75, vdstBad w.d), (67, vsrcBad true w.a), (43, tyBad [4] w.ty), (40, w.rnd == 7)]
  | .vlog2 w =>
    [(75, vdstBad w.d), (67, vsrcBad true w.a), (43, tyBad [4] w.ty), (40, w.rnd == 7)]
  | .vcmp w =>
    [(75, kBad w.d), (67, vsrcBad false w.a), (59, vsrcBad false w.b), (43, tyBad [4] w.ty)]
  | .vclass w =>
    [(75, vdstBad w.d), (67, vsrcBad true w.a), (43, tyBad [4] w.ty)]
  | .vsel w =>
    [(75, vdstBad w.d), (67, vsrcBad true w.a), (59, vsrcBad true w.b), (51, kBad w.c), (43, tyBad [3, 4] w.ty)]
  | .vcvt w =>
    [(75, vdstBad w.d), (67, vsrcBad false w.a), (43, tyBad (if w.imm.toNat < 2 then [0, 1, 2, 3, 5, 6, 7, 8, 12] else [0, 1, 2, 5, 6, 7, 8, 12]) w.ty), (40, w.rnd == 7)]
  | .viadd w =>
    [(75, vdstBad w.d), (67, vsrcBad false w.a), (59, vsrcBad false w.b), (43, tyBad [3] w.ty)]
  | .visub w =>
    [(75, vdstBad w.d), (67, vsrcBad false w.a), (59, vsrcBad false w.b), (43, tyBad [3] w.ty)]
  | .vimul w =>
    [(75, vdstBad w.d), (67, vsrcBad false w.a), (59, vsrcBad false w.b), (43, tyBad [3] w.ty), (0, w.imm == 3)]
  | .vimad w =>
    [(75, vdstBad w.d), (67, vsrcBad true w.a), (59, vsrcBad true w.b), (51, vsrcBad true w.c), (43, tyBad [3] w.ty)]
  | .vand w =>
    [(75, vdstBad w.d), (67, vsrcBad true w.a), (59, vsrcBad true w.b), (43, tyBad [3] w.ty)]
  | .vor w =>
    [(75, vdstBad w.d), (67, vsrcBad true w.a), (59, vsrcBad true w.b), (43, tyBad [3] w.ty)]
  | .vxor w =>
    [(75, vdstBad w.d), (67, vsrcBad true w.a), (59, vsrcBad true w.b), (43, tyBad [3] w.ty)]
  | .vandn w =>
    [(75, vdstBad w.d), (67, vsrcBad true w.a), (59, vsrcBad true w.b), (43, tyBad [3] w.ty)]
  | .vshl w =>
    [(75, vdstBad w.d), (67, vsrcBad true w.a), (59, vsrcBad true w.b), (43, tyBad [3] w.ty)]
  | .vshr w =>
    [(75, vdstBad w.d), (67, vsrcBad true w.a), (59, vsrcBad true w.b), (43, tyBad [3] w.ty)]
  | .vsra w =>
    [(75, vdstBad w.d), (67, vsrcBad true w.a), (59, vsrcBad true w.b), (43, tyBad [3] w.ty)]
  | .vimin w =>
    [(75, vdstBad w.d), (67, vsrcBad false w.a), (59, vsrcBad false w.b), (43, tyBad [3] w.ty)]
  | .vimax w =>
    [(75, vdstBad w.d), (67, vsrcBad false w.a), (59, vsrcBad false w.b), (43, tyBad [3] w.ty)]
  | .vicmp w =>
    [(75, kBad w.d), (67, vsrcBad false w.a), (59, vsrcBad false w.b), (43, tyBad [3] w.ty)]
  | .vmov w =>
    [(75, vdstBad w.d), (67, vsrcBad false w.a), (0, w.imm.extractLsb' 0 2 == 3)]
  | .vmovToPattern w =>
    [(75, xBad w.d), (67, vsrcBad false w.a)]
  | .vmovFromPattern w =>
    [(75, vdstBad w.d), (67, xBad w.a)]
  | .vext w =>
    [(75, dst8Bad w.d), (67, vsrcBad false w.a), (59, src8Bad w.b)]
  | .vins w =>
    [(75, vdstBad w.d), (67, src8Bad w.a), (59, src8Bad w.b)]
  | .vperm w =>
    [(75, vdstBad w.d), (67, vsrcBad false w.a), (59, vsrcBad false w.b), (51, vsrcBad false w.c)]
  | .vrot w =>
    [(75, vdstBad w.d), (67, vsrcBad false w.a), (59, src8Bad w.b)]
  | .vcomp w =>
    [(75, vdstBad w.d), (67, vsrcBad true w.a)]
  | .vxpnd w =>
    [(75, vdstBad w.d), (67, vsrcBad true w.a)]
  | .viota w =>
    [(75, vdstBad w.d)]
  | .vred w =>
    [(75, vdstBad w.d), (67, vsrcBad false w.a), (43, tyBad [3, 4] w.ty), (40, w.rnd == 7), (0, w.imm.extractLsb' 0 2 == 3)]
  | .vscan w =>
    [(75, vdstBad w.d), (67, vsrcBad false w.a), (59, w.imm.getLsbD 4 && kBad w.b), (43, tyBad [3, 4] w.ty), (40, w.rnd == 7), (0, w.imm.extractLsb' 0 2 == 3 || (w.imm.getLsbD 3 && w.imm.extractLsb' 0 2 != 0))]
  | .vdefer w =>
    [(67, vsrcBad false w.a), (59, vsrcBad false w.b)]
  | .vdrain w =>
    [(75, vdstBad w.d || (w.d != 113 && (w.d == w.a || w.d == w.b))), (67, vdstBad w.a || (w.a != 113 && w.a == w.b)), (59, vdstBad w.b), (51, kBad w.c || w.c == 0)]
  | .vld w =>
    [(75, vdstBad w.v), (67, src8Bad w.base), (59, src8Bad w.stride), (43, tyBad [0, 1, 2, 3, 4, 5, 6, 7, 8, 12] w.ty)]
  | .vst w =>
    [(75, vsrcBad false w.v), (67, src8Bad w.base), (59, src8Bad w.stride), (43, tyBad [0, 1, 2, 3, 4, 5, 6, 7, 8, 12] w.ty), (40, w.rnd == 7)]
  | .vldb w =>
    [(75, vdstBad w.v), (67, src8Bad w.base), (51, src8Bad w.c), (43, tyBad [9, 10, 11] w.ty)]
  | .vstb w =>
    [(75, vsrcBad false w.v), (67, src8Bad w.base), (51, src8Bad w.c), (43, tyBad [9, 10, 11] w.ty), (40, w.rnd == 7)]
  | .vldx w =>
    [(75, vdstBad w.v), (67, src8Bad w.base), (59, src8Bad w.stride), (51, !(w.c.toNat < 32)), (43, tyBad [0, 1, 2, 3, 4, 5, 6, 7, 8] w.ty)]
  | .vstx w =>
    [(75, vsrcBad false w.v), (67, src8Bad w.base), (59, src8Bad w.stride), (51, !(w.c.toNat < 32)), (43, tyBad [0, 1, 2, 3, 4, 5, 6, 7, 8] w.ty), (40, w.rnd == 7)]
  | .vxpl w =>
    [(75, vdstBad w.v), (67, src8Bad w.base), (51, xBad w.c), (43, tyBad [3] w.ty)]
  | .vldg w =>
    [(75, vdstBad w.v), (67, src8Bad w.base), (59, src8Bad w.stride), (43, tyBad [0, 1, 2, 3, 4, 5, 6, 7, 8] w.ty)]
  | .vstg w =>
    [(75, vsrcBad false w.v), (67, src8Bad w.base), (59, src8Bad w.stride), (43, tyBad [0, 1, 2, 3, 4, 5, 6, 7, 8] w.ty), (40, w.rnd == 7)]
  | .vredG w =>
    [(75, vsrcBad false w.v), (67, src8Bad w.base), (59, src8Bad w.stride), (43, tyBad [3, 4] w.ty), (40, w.rnd == 7)]
  | .kand w =>
    [(75, kBad w.d), (67, kBad w.a), (59, kBad w.b)]
  | .kor w =>
    [(75, kBad w.d), (67, kBad w.a), (59, kBad w.b)]
  | .kxor w =>
    [(75, kBad w.d), (67, kBad w.a), (59, kBad w.b)]
  | .knot w =>
    [(75, kBad w.d), (67, kBad w.a)]
  | .kmov w =>
    [(75, kBad w.d), (67, kBad w.a), (0, w.imm.extractLsb' 0 2 == 3)]
  | .kmovFromScalar w =>
    [(75, kBad w.d), (67, src8Bad w.a)]
  | .kmovToScalar w =>
    [(75, dst8Bad w.d), (67, kBad w.a)]
  | .kpop w =>
    [(75, dst8Bad w.d), (67, kBad w.a)]
  | .cpy w =>
    [(75, src8Bad w.dst), (67, src8Bad w.src), (59, src8Bad w.shape), (51, w.kind == 5 && !(w.aux.toNat < 8)), (47, w.kind.toNat ≥ 6)]
  | .cpyx w =>
    [(75, src8Bad w.dst), (67, src8Bad w.src), (59, src8Bad w.shape), (51, w.kind == 5 && !(w.aux.toNat < 8)), (47, w.kind.toNat ≥ 6)]
  | .cresume w =>
    [(51, src8Bad w.aux)]
  | .ccancel w =>
    [(51, src8Bad w.aux)]
  | .psend w =>
    [(67, src8Bad w.src), (59, src8Bad w.shape), (51, !(w.aux.toNat < 8)), (0, w.rtype == 0)]
  | .mwld w =>
    [(151, srcBad w.areg), (131, tyBad [0, 5, 6, 7, 8, 9, 10, 11, 12] w.afmt), (87, isBx w.afmt && (w.n.toNat + 1) % 16 != 0), (49, isBx w.afmt && srcBad w.hreg)]
  | .mmul w =>
    [(157, w.chain.toNat ≥ 2 && w.abase != 0), (151, srcBad w.areg || (w.chain.toNat ≥ 2 && w.areg != 0)), (135, w.chain.toNat ≥ 2 && w.astride != 0), (131, tyBad [0, 5, 6, 7, 8, 9, 10, 11, 12] w.afmt), (109, w.chain.toNat ≥ 2 && w.hbase != 0), (93, isBx w.afmt && (w.k.toNat + 1) % 16 != 0), (77, w.crow.toNat + w.m.toNat + 1 > (if w.ck == 1 then 1023 else 1024)), (58, w.chain.toNat ≥ 2 && w.arot != 0), (49, isBx w.afmt && (srcBad w.hreg || (w.chain.toNat ≥ 2 && w.hreg != 0))), (48, w.chain.toNat ≥ 2 && w.hrot != 0)]
  | .mchk w =>
    [(77, w.crow.toNat + w.m.toNat + 1 > 1023)]
  | .mzero w =>
    [(77, w.crow.toNat + w.m.toNat + 1 > 1024), (70, w.ccol.toNat + w.n.toNat + 1 > 65)]
  | .mald w =>
    [(151, srcBad w.areg), (131, tyBad [0, 3, 4, 5, 6] w.afmt), (77, w.crow.toNat + w.m.toNat + 1 > 1024), (70, w.ccol.toNat + w.n.toNat + 1 > 65)]
  | .mast w =>
    [(151, srcBad w.areg), (131, tyBad [0, 1, 2, 3, 4, 5, 6, 7, 8, 12] w.afmt), (77, w.crow.toNat + w.m.toNat + 1 > 1024), (70, w.ccol.toNat + w.n.toNat + 1 > 65), (59, w.rnd == 7)]
  | .resultLanding .. => []
  | .guardedArrival .. => []
  | .copyGranuleArrival .. => []
  | .copyBlockTranslated .. => []
  | .tileLatch .. => []
  | .checksumCompare .. => []
  | .regionClosing .. => []
  | .regionError .. => []
  | .replay .. => []
  | .deadline .. => []
  | .deadlineEnd .. => []
  | .writePerform .. => []
  | .atomicPerform .. => []
  | .globalAdditionPerform .. => []
  | .translationReturn .. => []
  | .pipeRecordArrival .. => []
  | .pipeHeadArrival .. => []
  | .windowDelivery .. => []
  | .launchAdmission .. => []
  | .stepDispatch .. => []
  | .adoption .. => []
  | .launchComplete .. => []
  | .variantChoice .. => []
  | .preemption .. => []
  | .tokenRefill .. => []
  | .suspendFreeze .. => []
  | .suspendBoundaryTimeout .. => []
  | .objectWrite .. => []
  | .groupRestart .. => []
  | .dieLoss .. => []
  | .controlDieLoss .. => []
  | .linkRetry .. => []
  | .scrubVisit .. => []
  | .amberVisit .. => []
  | .ptpSample .. => []
  | .ptpLockLoss .. => []
  | .clockSwitch .. => []
  | .thermalDerate .. => []
  | .clockRestore .. => []
  | .overtemperature .. => []
  | .pfail .. => []
  | .pfailCaptureTimeout .. => []
  | .pfailIncrementTimeout .. => []
  | .pfailRelease .. => []
  | .timedLaunchHold .. => []
  | .timedLaunchStart .. => []
  | .bulkheadReset .. => []
  | .bulkheadReturn .. => []
  | .packageReset .. => []
  | .queueBind .. => []
  | .queueAging .. => []
  | .queueQuantumEnd .. => []
  | .sqtailWrite .. => []
  | .cqheadWrite .. => []
  | .pcapWrite .. => []
  | .boundaryRegisterWrite .. => []
  | .registerWrite .. => []
  | .launchRecord .. => []
  | .timedLaunch .. => []
  | .fenceRcRecord .. => []
  | .resumeRecord .. => []
  | .forkRecord .. => []
  | .discardRecord .. => []
  | .checkpointRecord .. => []
  | .partitionCreate .. => []
  | .partitionResize .. => []
  | .partitionRemove .. => []
  | .bindVf .. => []
  | .assignQueue .. => []
  | .setPtroot .. => []
  | .invalidate .. => []
  | .decodeTableLoad .. => []
  | .setMmode .. => []
  | .windowOpen .. => []
  | .windowClose .. => []
  | .setPartitionParameters .. => []
  | .setPackageParameters .. => []
  | .setHostsz .. => []
  | .clearRetirement .. => []
  | .lockPartition .. => []
  | .attest .. => []
  | .setCaptureMode .. => []
  | .readEventLog .. => []
  | .readPfailManifest .. => []
  | .deviceTimeReached .. => []
  | .unassignedOpcode .. => []
  | .softError .. => []
  | .readPerform .. => []
  | .hostLinkWriteCompletion .. => []
  | .hostRequesterAccess .. => []
  | .invalidSubmissionRecord .. => []

/-- The first failing check: whether it is a reserved field (ILLEGAL_OPCODE) or an illegal one (ILLEGAL_OPERAND), and its
lowest bit (R103, R104). -/
def Instr.fieldFail (i : Instr) : Option (Bool × Nat) :=
  match i.reserved.find? (·.2) with
  | some c => some (true, c.1)
  | none => match i.illegal.find? (·.2) with
    | some c => some (false, c.1)
    | none => none

end Sys2Proof
end

