-- ==== Sys2Proof/WellFormed.lean ====
section
/-! DEFINITION. Which instructions are well formed: a word none of whose fields fails a check of R103, in the form that
its table row names; an event always is. -/
namespace Sys2Proof

/-- A well-formed instruction (R103 steps 2 and 3). -/
def Instr.WellFormed (i : Instr) : Prop := i.fieldFail = none ∧ i.formOk = true

/-- The same as a Bool. -/
def Instr.wellFormed (i : Instr) : Bool := i.fieldFail.isNone && i.formOk

end Sys2Proof
end

