-- ==== Sys2Proof/Machine/Issue.lean ====
section
/-! DEFINITION. The issue of one word: the order of checks of R103, issue groups, freezes, waits, inactive loop words, and
the advance of the stream (R30 to R32, R41, R45, R92, R93, R131 to R136). -/
namespace Sys2Proof.Machine

/-- The result of a step or a meaning. -/
abbrev Out := Host.Outcome State Fault Refusal

/-- Where the stream goes on after a word: in sequence, the next word counting `extra` cycles later (R128), or at a target
that counts from a given cycle (R32). -/
inductive Next where
  | seq (extra : Nat)
  | to (pc base : Nat)

/-- What a word's own meaning decides. -/
inductive WRes where
  /-- it has issued; the state holds its effects -/
  | ok (s : State) (nx : Next)
  /-- fault(CAUSE) with TVAL (R52) -/
  | trap (cause : Nat) (tval : Word)
  /-- the core freezes for this device cycle (R41) -/
  | freeze (s : State)
  /-- the word waits, stream time running, until stream cycle `t` (R45, R50, R157, R208) -/
  | hold (t : Nat)
  /-- the meaning has left the stream where it belongs -/
  | fin (s : State)

/-- The head of a word that issue needs: the instruction, its engine, length in bytes, idle count, whether a rotation flag is
set, its stage, and what it pushes when inactive (queue: true for vector; latency) (R29, R92, R136). -/
structure Head where
  i : Instr
  eng : Nat
  len : Nat
  idle : Nat
  rot : Bool
  stage : Nat
  push : Option (Bool × Nat)
  /-- the lowest bits of the rotation flags that are set and of the stage field (R92, R104) -/
  rotLow : Nat := 0
  stageLow : Nat := 0
  /-- the count of a NOP, which an inactive one keeps (R128, R133) -/
  gap : Nat := 0
  /-- how many voids an inactive word pushes (R136) -/
  pushes : Nat := 1
  /-- the checks of step 3 of R103 that depend on the state: lowest bit of the field, whether it fails (R131, R218, R223) -/
  extra : Nat → Core → List (Nat × Bool) := fun _ _ => []
  /-- the word is a copy of kind 0 to 2, which a trap handler may not issue (R359) -/
  banned : Bool := false

/-- The engine that an opcode routes to: 0 scalar, 1 vector, 2 matrix, 3 copy (R29, numbered as R349). -/
def engineOf (op : Nat) : Nat := if op < 0x200 then 0 else if op < 0x2C0 then 1 else if op < 0x300 then 3 else 2

/-- The head of an instruction with the given fields. -/
def mkHead (i : Instr) (idle : BitVec 3) (rot : Bool) (stage : BitVec 3) (push : Option (Bool × Nat)) : Head :=
  let op := i.opcode.getD 0
  { i := i, eng := engineOf op, len := lenBits op / 8, idle := idle.toNat, rot := rot, stage := stage.toNat, push := push,
    rotLow := if lenBits op = 96 then 36 else 0, stageLow := if lenBits op = 96 then 33 else 55 }

/-- The opcode bits of the unit at a scratchpad address. -/
def Core.opcAt (c : Core) (a : Nat) : Nat := Memory.val c.spad a 4 / 2 ^ 22

/-- The internal operation that a decode table gives an opcode (R103 step 1, R107, R109, R111). -/
def DecTable.iop (t : DecTable) (op : Nat) : Option Nat :=
  if t.rows.isEmpty then (if (decodeOp op 0).isSome then some op else none)
  else match t.rows.getD op 0 with
    | 0 => none
    | k + 1 => some k

/-- The decode table that a core decodes with. -/
def Core.dtab (c : Core) : DecTable := match c.step with | some i => i.dtab | none => {}

/-- The internal operation of the next word of a core, if its opcode is assigned. -/
def Core.nextOp (c : Core) : Option Nat := c.dtab.iop (c.opcAt c.pc)

/-- The engine of the core's next word. -/
def Core.nextEngine (c : Core) : Nat := engineOf (c.nextOp.getD (c.opcAt c.pc))

/-- TVAL after a decode trap (R104). -/
def decodeTval (addr kind opc low : Nat) : Word := BitVec.ofNat 64 (addr * 2 ^ 32 + kind * 2 ^ 31 + opc * 2 ^ 8 + low)

/-- TVAL of a condition that a field decides, for the word at `c.pc` (R104, R153). -/
def Core.fieldTval (c : Core) (low : Nat) : Word := decodeTval c.pc 1 (c.opcAt c.pc) low

/-- The word's own issue cycle, by its idle count (R30, R363). -/
def Core.ownAt (c : Core) (idle : Nat) : Nat := if c.exact_ then c.base else c.base + idle

/-- The issue cycle of the next word: its own, or the end of what holds it back (R30, R157, R363). -/
def Core.issueAt (c : Core) (idle : Nat) : Nat := max (c.ownAt idle) c.floor

/-- The word's surroundings at its issue. -/
def Core.ctx (c : Core) (n : Nat) : Ctx :=
  { t := c.clock, dt := c.dt, addr := c.pc, lcnt := if c.arch.loop.active then c.arch.loop.j else 0,
    codebase := (match c.step with | some i => i.codebase | none => 0), cid := n, loop := c.arch.loop }

/-- The open region of an adopted step has an index below the count at which its suppress mode ends (R337). -/
def Core.muted (c : Core) : Bool :=
  match c.step.bind (·.suppress), c.step with
  | some (k, _), some i => i.closed + c.closing.length < k
  | _, _ => false

/-- The word is active in this kernel iteration (R134, R136). -/
def LoopSt.activeFor (l : LoopSt) (stage : Nat) : Bool := !l.active || (stage ≤ l.j && l.j < stage + l.trip)

/-- Words that a trap handler may not issue (R359). -/
def handlerBanned (op : Nat) : Bool :=
  op = 0x10A || op = 0x10B || (0x110 ≤ op && op ≤ 0x11F) || op = 0x123 || op = 0x130 || 0x300 ≤ op

/-- Moves the stream past a word that issued at the core's clock (R30, R131 to R134). -/
def Core.advance (c : Core) (len : Nat) (ringWord : Bool) (nx : Next) : Core :=
  let l := c.arch.loop
  let l := if ringWord then l else { l with pend0 := 0, pend1 := 0 }
  let c := { c with exact_ := false, floor := 0, until? := none, walkFaults := [] }
  match nx with
  | .to pc base => { c with pc := pc, base := base, arch := { c.arch with loop := l } }
  | .seq extra =>
    let base := c.clock + extra
    if l.active then
      if l.k + 1 < l.len then
        { c with pc := c.pc + len, base := base, arch := { c.arch with loop := { l with k := l.k + 1 } } }
      else if l.j + 1 < l.n then
        { c with pc := l.body, base := base, arch := { c.arch with loop := { l with k := 0, j := l.j + 1 } } }
      else { c with pc := c.pc + len, base := base, arch := { c.arch with loop := {} } }
    else { c with pc := c.pc + len, base := base, arch := { c.arch with loop := l } }

/-- The word has joined its issue group (R30, R31). -/
def Core.joinGroup (c : Core) (t eng : Nat) (endsGroup : Bool) : Core :=
  { c with grpAt := t, grpEng := (if c.grpAt = t then c.grpEng else []) ++ [eng],
           grpEnd := endsGroup || (c.grpAt = t && c.grpEnd) }

/-- A word whose own issue cycle is `t` would join a group that already holds a word for its engine, or that a COMMIT has ended, whether or
not R45 holds it back beyond that cycle (R31). -/
def Core.conflicts (c : Core) (t eng : Nat) : Bool :=
  c.grpAt = t && (c.grpEng.contains eng || c.grpEnd)

/-- Words that end their issue group (R31, R155). -/
def endsGroup (op : Nat) : Bool := op = 0x10A || op = 0x10B || (0x110 ≤ op && op ≤ 0x11F) || op = 0x08A

/-- Puts the effects of a synchronous word in flight: `evs` are (latency, effect) pairs (R33). -/
def State.addOp (s : State) (n : Nat) (cx : Ctx) (kind : Nat) (mask : KReg) (a b c : Lanes × LMask) (len : Nat)
    (evs : List (Nat × Eff)) : State :=
  if evs.isEmpty then s else
  let (id, s) := s.fresh
  s.updCore n (fun k => k.launchOp
    { id := id, rgn := k.opn.id, issue := cx.t, addr := cx.addr, lcnt := cx.lcnt,
      units := byteUnits (Memory.read k.spad cx.addr len), kind := kind, hand := k.hand, mask := mask,
      opa := a, opb := b, opc := c, evs := evs.map (fun e => (cx.t + e.1, e.2)) })

/-- The closing region of an atomic whose return a register awaits has not closed: the wait of R297. -/
def Core.atomicWait (c : Core) (id : Nat) : Option Nat :=
  match c.awaits.find? (fun a => a.id = id) with
  | some a => match a.kind with
    | .atom _ => if c.closing.any (fun r => r.id = a.rgn) then some c.lastCloseCycle else none
    | _ => none
  | none => none

/-- The wait of R297 that the empty registers of a word impose: any of them may await an atomic of a region that has not closed. -/
def Core.atomicHold (c : Core) (rs : List Ref) : Option Nat := (rs.filterMap c.pendOf).findSome? c.atomicWait

/-- The lowest bit of a field that is illegal in the present state of the core: one of the word's own, or a rotation flag or a stage
outside a loop body (R93, R131, R218, R223). The highest of them counts (R104). -/
def Head.stateFail (h : Head) (n : Nat) (c : Core) : Option Nat :=
  ((h.extra n c).filter (·.2) ++
    (if c.arch.loop.active then [] else [(h.rotLow, h.rot), (h.stageLow, h.stage != 0)]).filter (·.2)).foldl
    (fun (b : Option Nat) x => match b with | none => some x.1 | some y => some (max y x.1)) none

/-- The first failing field of a word on core `n`: a reserved one, else the highest illegal one (R103, R104). -/
def Head.fieldFail (h : Head) (n : Nat) (c : Core) : Option (Bool × Nat) :=
  match h.i.fieldFail, h.stateFail n c with
  | some (true, low), _ => some (true, low)
  | some (false, low), some e => some (false, max low e)
  | some (false, low), none => some (false, low)
  | none, some e => some (false, e)
  | none, none => none

/-- The masks and pattern registers that the operands of an instruction name (R163, R187). -/
def maskRefs : Instr → List Ref
  | .vcmp w => [.k w.d.toNat]
  | .vicmp w => [.k w.d.toNat]
  | .vsel w => [.k w.c.toNat]
  | .vscan w => if w.imm.getLsbD 4 then [.k w.b.toNat] else []
  | .vdrain w => [.k w.c.toNat]
  | .vxpl w => [.x w.c.toNat]
  | .vmovToPattern w => [.x w.d.toNat]
  | .vmovFromPattern w => [.x w.a.toNat]
  | .kand w => [.k w.d.toNat, .k w.a.toNat, .k w.b.toNat]
  | .kor w => [.k w.d.toNat, .k w.a.toNat, .k w.b.toNat]
  | .kxor w => [.k w.d.toNat, .k w.a.toNat, .k w.b.toNat]
  | .knot w => [.k w.d.toNat, .k w.a.toNat]
  | .kmov w => [.k w.d.toNat, .k w.a.toNat]
  | .kmovFromScalar w => [.k w.d.toNat]
  | .kmovToScalar w => [.k w.a.toNat]
  | .kpop w => [.k w.a.toNat]
  | _ => []

/-- The CSRs that an instruction of opcode `op` and word `w` reads or writes: by their number, or as the mode, seed and flags of its
arithmetic (R65, R70), the ring of R194, or the tolerance of R211. -/
def csrRefs (op w : Nat) : List Ref :=
  (if 0x0E0 ≤ op && op ≤ 0x0E3 then [.csr (w % 2 ^ 13)] else []) ++
  (if (0x0C0 ≤ op && op < 0x0E0) || (0x200 ≤ op && op < 0x240) || op = 0x278 || op = 0x279 || (0x290 ≤ op && op < 0x2B0) || 0x300 ≤ op
    then [.csr 0x000, .csr 0x001, .csr 0x041] else []) ++
  (if op = 0x27A || op = 0x27B then [.csr 0x050, .csr 0x051, .csr 0x052, .csr 0x053] else []) ++
  (if 0x300 ≤ op then [.csr 0x040] else [])

/-- A word with operands `rs` reads or writes named state `r`. A word that ends a region copies all of it into an entry snapshot (R46, R333),
and every word of a loop body reads the loop buffer. -/
def Head.names (h : Head) (c : Core) (rs : List Ref) (r : Ref) : Bool :=
  let op := h.i.opcode.getD 0
  endsGroup op || rs.contains r || (maskRefs h.i).contains r || (csrRefs op (encode h.i)).contains r ||
  (lenBits op = 96 && r = .k (bits (encode h.i) 48 3)) || (r = .loop && (c.arch.loop.active || op = 0x086 || op = 0x087))

/-- What the error block says of a parity error that word `addr` finds in named state (R352). -/
def refReport (addr : Nat) : Ref → Report
  | Ref.v _ | Ref.vq _ | Ref.k _ | Ref.x _ => { engine := 1, level := 3, addrk := 3, addr := addr }
  | _ => { engine := 0, level := 3, addrk := 3, addr := addr }

/-- A word that reads or writes named state whose parity is wrong finds it: an error of the open region (R325, R352). -/
def State.parity (s : State) (n : Nat) (h : Head) (rs : List Ref) : State :=
  let c := s.core n
  (c.arch.struck.filter (h.names c rs)).foldl (fun s r => (s.regionErr n c.opn.id (refReport c.pc r)).updCore n
    (fun c => { c with arch := { c.arch with struck := c.arch.struck.filter (· != r) } })) s

/-- A word that finds no named state with wrong parity changes nothing by looking. -/
theorem State.parity_none (s : State) (n : Nat) (h : Head) (rs : List Ref)
    (hs : ∀ r ∈ (s.core n).arch.struck, h.names (s.core n) rs r = false) : s.parity n h rs = s := by
  have e : (s.core n).arch.struck.filter (h.names (s.core n) rs) = [] := List.filter_eq_nil_iff.2 (fun r hr => by simp [hs r hr])
  simp only [State.parity, e, List.foldl_nil]

/-- What keeps an active word from its own meaning: a trap of R103, the wait of R297, or the freeze of R41 on an empty register. `pre` gives
the traps that precede a freeze (step 4 beyond R31), `regs` the registers the word reads or writes; `own` is its own issue cycle. -/
def Head.gate (h : Head) (pre : Ctx → State → Option (Nat × Word)) (regs : Ctx → List Ref) (n own : Nat) (s : State) : Option WRes :=
  let c := s.core n
  let cx := c.ctx n
  match h.fieldFail n c with
  | some (true, low) => some (.trap 0x01 (c.fieldTval low))
  | some (false, low) => some (.trap 0x02 (c.fieldTval low))
  | none =>
  if c.hand && (handlerBanned (h.i.opcode.getD 0) || h.banned) then some (.trap 0x02 (c.fieldTval 0))
  else if c.conflicts own h.eng then some (.trap 0x03 (BitVec.ofNat 64 (own + 1)))
  else match pre cx s with
  | some (cause, tval) => some (.trap cause tval)
  | none =>
  match c.awaitOf (regs cx) with
  | none => none
  | some _ => some (match c.atomicHold (regs cx) with | some w => .hold w | none => .freeze s)

/-- What a word's result makes of the state `s` in which core `n` issues it, in cycle `t` of its clock. -/
def Head.finish (h : Head) (n t : Nat) (s : State) : WRes → Out
  | .ok s' nx =>
    let op := h.i.opcode.getD 0
    .next (s'.updCore n (fun c => ((c.joinGroup t h.eng (endsGroup op)).advance h.len (op == 0x087 || op == 0x086) nx)))
  | .trap cause tval => .next (s.trap n h.eng cause tval)
  | .freeze s' => .next ((s'.freezeAll n 1).updCore n (fun c => if c.hand then { c with floor := c.dt } else c))
  | .hold w =>
    if (s.core n).hand then .next (s.trap n h.eng 0x02 ((s.core n).fieldTval 0))
    else .next (s.updCore n (fun c => { c with floor := max (t + 1) w }))
  | .fin s' => .next s'

/-- The issue of a word on core `cur` (R103): `pre` and `regs` are those of `Head.gate`, `body` gives the word's own faults and effects. -/
def issueWord (h : Head) (pre : Ctx → State → Option (Nat × Word)) (regs : Ctx → List Ref) (body : Ctx → State → WRes)
    (s : State) : Out :=
  let n := s.cur
  let c := s.core n
  if c.step.isNone || c.ended then .fault .noRunningCore else
  let t := c.issueAt h.idle
  let own := c.ownAt h.idle
  let s := (s.setCore n (c.goTo t)).sync n
  let c := s.core n
  let cx := c.ctx n
  match c.owe with
  | some (cause, tval) => .next ((s.updCore n (fun c => { c with owe := none })).trap n h.eng cause tval)
  | none =>
  if !c.arch.loop.activeFor h.stage then
    match h.push with
    | none => .next (s.updCore n (fun c => c.advance h.len false (.seq h.gap)))
    | some (v, lat) =>
      .next ((s.addOp n cx (if v then 3 else 2) ⟨0, 0⟩ capNone capNone capNone h.len
        (List.replicate h.pushes (lat, if v then .vvoid else .svoid))).updCore n (fun c => c.advance h.len false (.seq h.gap)))
  else
  match h.gate pre regs n own s with
  | some r => h.finish n t s r
  | none =>
    let s := s.parity n h (regs cx)
    h.finish n t s (body cx s)

/-- No trap before the freeze. -/
def noPre : Ctx → State → Option (Nat × Word) := fun _ _ => none

/-- The heads of the scalar forms; an S-word is a word of stage 0 (R92). -/
def hdSR (i : Instr) (w : SRWord) (push : Option Nat) : Head :=
  mkHead i w.idle (w.z == 1) 0 (push.map (fun l => (false, l)))
/-- See `hdSR`. -/
def hdS (i : Instr) (idle : BitVec 3) (push : Option Nat) : Head := mkHead i idle false 0 (push.map (fun l => (false, l)))

/-- A value outside [SLIM, SBASE] may not be written to s31 (R43). -/
def stackBad (c : Core) (v : Word) : Bool :=
  match c.step with
  | some i => v.toNat < i.slim || i.sbase < v.toNat
  | none => false

/-- Lands a scalar result computed from captured operands, after the STACK check for s31 (R43, R113, R115). -/
def landScalar (h : Head) (cx : Ctx) (s : State) (d : Nat) (a b c : Lanes × LMask)
    (evs : List (Nat × Eff)) : WRes :=
  let v := evs.findSome? (fun e => match e.2 with | .sland 31 v _ => some v | _ => none)
  match v with
  | some x => if d = 31 && stackBad (s.core s.cur) x then .trap 0x04 x
    else .ok (s.addOp s.cur cx 0 ⟨0, 0⟩ a b c h.len evs) (.seq 0)
  | none => .ok (s.addOp s.cur cx 0 ⟨0, 0⟩ a b c h.len evs) (.seq 0)

end Sys2Proof.Machine
end

