-- ==== Sys2Proof/Machine/Spad.lean ====
section
/-! DEFINITION. Access to a core's own scratchpad: the checks of sp_read and sp_write (R49, R50, R52), errors found by reads
(R144, R326), and bytes. Ranges are lists of (address, length). -/
namespace Sys2Proof.Machine

/-- The granules of a list of ranges. -/
def granSegs (l : List (Nat × Nat)) : List Nat := l.foldl (fun g r => saddAll g (granRange r.1 r.2)) []

/-- TVAL of COPY_FAULT for a suspended slot (R311). -/
def Core.suspTval (c : Core) (g : Nat) : Option Word :=
  match mget c.empties g with
  | none => none
  | some tok => (c.slots.find? (fun x => x.2.id = tok && x.2.susp.isSome)).bind (fun x => x.2.susp)

/-- What an empty granule among `gs` does to a word: COPY_FAULT if it belongs to a suspended copy, else a freeze
(R41, R304 step 10, R311). The lowest slot is reported. -/
def emptyCheck (s : State) (n : Nat) (gs : List Nat) : Option WRes :=
  let c := s.core n
  let es := gs.filter c.isEmpty
  if es.isEmpty then none
  else match (es.filterMap c.suspTval) with
    | [] => some (.freeze s)
    | t :: ts => some (.trap 0x18 (ts.foldl (fun m x => if x.toNat / 2 ^ 60 < m.toNat / 2 ^ 60 then x else m) t))

/-- The first byte of the ranges, in order, that lies in a granule satisfying `p`. -/
def firstIn (p : Nat → Bool) (l : List (Nat × Nat)) : Option Nat :=
  l.findSome? (fun r => ((granRange r.1 r.2).find? p).map (fun g => max r.1 (64 * g)))

/-- The idempotence check and the wait of R50 for a write to ranges (R49, R50). -/
def writeCheck (s : State) (n : Nat) (l : List (Nat × Nat)) : Option WRes :=
  let c := s.core n
  match firstIn (fun g => c.opn.rset.contains g && !c.opn.wset.contains g) l with
  | some a => some (.trap 0x07 (BitVec.ofNat 64 a))
  | none => if c.heldBack (granSegs l) then some (.hold (s.quadClose n)) else none

/-- The first byte of ranges, in order, in a protected range (R142, R178 step 4). -/
def protTrap (s : State) (n : Nat) (l : List (Nat × Nat)) : Option WRes :=
  let rs := s.protRanges n
  (l.findSome? (fun r => ((List.range r.2).find? (fun k => inRanges rs (r.1 + k))).map (fun k => r.1 + k))).map
    (fun a => .trap 0x0A (BitVec.ofNat 64 a))

/-- The aligned 8-byte words of ranges. -/
def wordsOf (l : List (Nat × Nat)) : List Nat :=
  l.foldl (fun g r => if r.2 = 0 then g else
    saddAll g ((List.range ((r.1 + r.2 - 1) / 8 - r.1 / 8 + 1)).map (· + r.1 / 8))) []

/-- Counts corrected errors of core `n` (R144, R77, R212) and notes the first for the report (R346, R352). -/
def State.corrected (s : State) (n k : Nat) (r : Report) : State :=
  (s.updCore n (fun c => { c with
    cerr := c.cerr + k
    step := c.step.map (fun i => i.note { r with cls := 1, step := i.stp, time := c.dt, core := n }) })).captureOn n r

/-- A data error met by core `n`: its step will report DATA_LOSS (R344, R352). -/
def State.dataError (s : State) (n : Nat) (r : Report) : State :=
  (s.updCore n (fun c => { c with
    step := c.step.map (fun i => i.note { r with cls := 0x20, step := i.stp, time := c.dt, core := n }) })).captureOn n r

/-- Reading ranges of core `m`'s scratchpad by a word of core `n`: single-bit errors are corrected and counted in the
reader's CERR; an uncorrectable word in a granule written in an open or closing region is a region error, any other a data
error (R144, R326, R344). -/
def State.readErrs (s : State) (n m : Nat) (l : List (Nat × Nat)) : State :=
  let c := s.core m
  if c.ce.isEmpty && c.ue.isEmpty then s else
  let ws := wordsOf l
  let fixed := ws.filter c.ce.contains
  let bad := ws.filter c.ue.contains
  let s := s.updCore m (fun c => { c with ce := c.ce.filter (fun w => !fixed.contains w) })
  let s := if fixed.isEmpty then s else
    s.corrected n fixed.length { engine := 4, level := 3, addrk := 3, addr := 8 * fixed.headD 0 }
  bad.foldl (fun s w =>
    let rep : Report := { engine := 4, level := 3, addrk := 3, addr := 8 * w }
    let c := s.core m
    let g := w / 8
    if c.opn.wset.contains g then s.regionErr m c.opn.id rep
    else match c.closing.find? (fun r => r.wset.contains g) with
      | some r => s.regionErr m r.id rep
      | none => s.dataError n rep) s

/-- sp_read of one range of the core's own scratchpad after its checks: the bytes, whether they are poisoned, and the state
with R set (R49, R52). -/
def State.spRead (s : State) (n a len : Nat) : List Byte × Bool × State :=
  let c := s.core n
  let bad := !c.ue.isEmpty && (wordsOf [(a, len)]).any c.ue.contains
  (Memory.read c.spad a len, bad, (s.updCore n (fun c => c.markR (granRange a len))).readErrs n n [(a, len)])

/-- Bytes as an unmasked write at consecutive addresses. -/
def fullBytes (a : Nat) (bs : List Byte) : List (Nat × Byte × Byte) :=
  bs.zipIdx.map (fun x => (a + x.2, x.1, 0xFF))

/-- A scratchpad write lands: the bytes; a write of a whole 8-byte word ends its errors (R144). -/
def Core.spWrite (c : Core) (bs : List (Nat × Byte × Byte)) : Core :=
  let whole (w : Nat) : Bool := (List.range 8).all (fun i => bs.any (fun b => b.1 = 8 * w + i && b.2.2 = 0xFF))
  { c with spad := Memory.writeMasked c.spad bs,
           ue := if c.ue.isEmpty then [] else c.ue.filter (fun w => !whole w),
           ce := if c.ce.isEmpty then [] else c.ce.filter (fun w => !whole w) }

end Sys2Proof.Machine
end

