-- ==== Sys2Proof/Machine/Control.lean ====
section
/-! DEFINITION. Branches, jumps, calls, returns, the loop buffer, gaps and waits (R120 to R137). ENDS stands with COMMIT,
TRAP and RETT with the traps. -/
namespace Sys2Proof.Machine

/-- TVAL after POISON for an operand code (R121). -/
def psnTval (code : Nat) : Word := BitVec.ofNat 64 code

/-- The first poisoned operand among scalar operand codes, as the POISON trap (R121). -/
def psnTrap (c : Core) (cx : Ctx) (codes : List Nat) : Option WRes :=
  (codes.find? (fun k => (readS c cx k).2)).map (fun k => .trap 0x08 (psnTval k))

/-- A byte address lies in the loaded code region (R28). -/
def inCode (c : Core) (a : Nat) : Bool :=
  match c.step with
  | some i => i.codebase ≤ a && a < i.codebase + i.codelen
  | none => false

/-- The target check of R122. -/
def targetTrap (c : Core) (t : Word) : Option WRes :=
  if t.toNat % 4 ≠ 0 then some (.trap 0x05 t)
  else if !inCode c t.toNat then some (.trap 0x06 t) else none

/-- A transfer to a target: the target word counts from the transfer's cycle + 3 (R32, R122). -/
def transfer (cx : Ctx) (t : Word) : Next := .to t.toNat (cx.t + 3)

/-- The word address plus four times a signed offset (R89). -/
def relTarget {n : Nat} (cx : Ctx) (off : BitVec n) : Word :=
  BitVec.ofInt 64 ((cx.addr : Int) + 4 * off.toInt)

/-- The condition of a branch on a signed 64-bit value (R123); the code PSN tests the poison bit. -/
def branchTaken (cond : Nat) (a : Word × Bool) : Bool :=
  if cond = 0 then a.1 == 0 else if cond = 1 then a.1 != 0 else if cond = 2 then a.1.slt 0
  else if cond = 3 then !a.1.slt 0 else if cond = 4 then (0 : Word).slt a.1 else if cond = 5 then !(0 : Word).slt a.1
  else a.2

/-- B (R123). A branch not taken costs nothing beyond its slot; one taken transfers as R122 states. -/
def execBr (w : SBWord) (s : State) : Out :=
  issueWord (hdS (.br w) w.idle none) noPre (fun _ => refS w.a.toNat)
    (fun cx s =>
      let c := s.core s.cur
      let a := readS c cx w.a.toNat
      if w.cond.toNat ≠ 7 && a.2 then .trap 0x08 (psnTval w.a.toNat)
      else if branchTaken w.cond.toNat a then
        let t := relTarget cx w.off
        (targetTrap c t).getD (.ok s (transfer cx t))
      else .ok s (.seq 0)) s

/-- JMP (R124). -/
def execJmp (w : SJWord) (s : State) : Out :=
  issueWord (hdS (.jmp w) w.idle none) noPre (fun _ => [])
    (fun cx s =>
      let t := relTarget cx w.off
      (targetTrap (s.core s.cur) t).getD (.ok s (transfer cx t))) s

/-- JMPR (R124). -/
def execJmpr (w : SRWord) (s : State) : Out :=
  issueWord (hdSR (.jmpr w) w none) noPre (fun cx => refS (rotS cx (w.z == 1) w.a.toNat))
    (fun cx s =>
      let c := s.core s.cur
      let k := rotS cx (w.z == 1) w.a.toNat
      let a := readS c cx k
      if a.2 then .trap 0x08 (psnTval k) else (targetTrap c a.1).getD (.ok s (transfer cx a.1))) s

/-- What a CALL writes: the return address at the new sp after 2 cycles, and the new sp after 1 (R125). -/
def fxCall (ret new : Nat) : List (Nat × Eff) :=
  [(1, .sland 31 (BitVec.ofNat 64 new) false), (2, .spw (fullBytes new (leBytes 8 ret)))]

/-- The common part of CALL and CALLR: `target` gives the target or its trap (R125). The slot is written by sp_write, whose range and
protected ranges are checked after the target (R28, R52, R142). -/
def callBody (h : Head) (target : Ctx → Core → WRes ⊕ Word) (cx : Ctx) (s : State) : WRes :=
  let c := s.core s.cur
  let sp := readS c cx 31
  let new := sp.1 - 8
  if sp.2 then .trap 0x08 (psnTval 31)
  else if stackBad c new then .trap 0x04 new
  else if new.toNat % 8 ≠ 0 then .trap 0x05 new
  else match target cx c with
  | .inl r => r
  | .inr t =>
    match targetTrap c t with
    | some r => r
    | none =>
      let seg := [(new.toNat, 8)]
      if 0x200000 ≤ new.toNat then .trap 0x06 new
      else match protTrap s s.cur seg with
      | some r => r
      | none => match emptyCheck s s.cur (granSegs seg) with
      | some r => r
      | none => match writeCheck s s.cur seg with
        | some r => r
        | none =>
          let s := s.updCore s.cur (fun c => c.markW (granSegs seg))
          .ok (s.addOp s.cur cx 0 ⟨0, 0⟩ (capS (BitVec.ofNat 64 (cx.addr + 4), false)) (capS (new, false)) capNone h.len
            (fxCall (cx.addr + 4) new.toNat)) (transfer cx t)

/-- CALL (R125). -/
def execCall (w : SJWord) (s : State) : Out :=
  let h := hdS (.call w) w.idle none
  issueWord h noPre (fun _ => [.s 31]) (callBody h (fun cx _ => .inr (relTarget cx w.off))) s

/-- CALLR (R125). -/
def execCallr (w : SRWord) (s : State) : Out :=
  let h := hdSR (.callr w) w none
  issueWord h noPre (fun cx => .s 31 :: refS (rotS cx (w.z == 1) w.a.toNat))
    (callBody h (fun cx c =>
      let k := rotS cx (w.z == 1) w.a.toNat
      let a := readS c cx k
      if a.2 then .inl (.trap 0x08 (psnTval k)) else .inr a.1)) s

/-- What RET lands: the new stack pointer (R126). -/
def fxRet (new : Nat) : List (Nat × Eff) := [(1, .sland 31 (BitVec.ofNat 64 new) false)]

/-- RET (R126). sp_read checks the range of the slot (R52). -/
def execRet (w : SRWord) (s : State) : Out :=
  let h := hdSR (.ret w) w none
  issueWord h noPre (fun _ => [.s 31])
    (fun cx s =>
      let c := s.core s.cur
      let sp := readS c cx 31
      let new := sp.1 + 8
      if sp.2 then .trap 0x08 (psnTval 31)
      else if stackBad c new then .trap 0x04 new
      else if sp.1.toNat % 8 ≠ 0 then .trap 0x05 sp.1
      else if 0x200000 ≤ sp.1.toNat then .trap 0x06 sp.1
      else
        let seg := [(sp.1.toNat, 8)]
        match emptyCheck s s.cur (granSegs seg) with
        | some r => r
        | none =>
          let r := s.spRead s.cur sp.1.toNat 8
          let t : Word := BitVec.ofNat 64 (leVal r.1)
          if r.2.1 then .trap 0x08 (psnTval 31)
          else match targetTrap c t with
            | some r => r
            | none =>
              let s := r.2.2
              .ok (s.addOp s.cur cx 0 ⟨0, 0⟩ (capS (t, false)) (capS (new, false)) capNone h.len (fxRet new.toNat))
                (transfer cx t)) s

/-- NOP (R128): the word after it counts its idle count from here + count. -/
def execNop (w : SJWord) (s : State) : Out :=
  issueWord { hdS (.nop w) w.idle none with gap := w.off.toNat % 65536 } noPre (fun _ => [])
    (fun _ s => .ok s (.seq (w.off.toNat % 65536))) s

/-- WAITT (R129): no effect once dt ≥ a; before that the core freezes until dt = a. -/
def execWaitt (w : SRWord) (s : State) : Out :=
  issueWord (hdSR (.waitt w) w none) noPre (fun cx => refS (rotS cx (w.z == 1) w.a.toNat))
    (fun cx s =>
      let k := rotS cx (w.z == 1) w.a.toNat
      let a := readS (s.core s.cur) cx k
      if a.2 then .trap 0x08 (psnTval k)
      else if a.1.toNat ≤ cx.dt then .ok s (.seq 0)
      else .fin (s.updCore s.cur (fun c => { c with until? := some { time := a.1.toNat, realign := false } }))) s

/-! ### The loop buffer (R105, R131 to R137) -/

/-- The word at a scratchpad address: opcode, length in bytes and bits (R27). -/
def Core.wordAt (c : Core) (a : Nat) : Nat × Nat × Nat :=
  let op := c.opcAt a
  let n := lenBits op / 8
  (op, n, unitsWord (byteUnits (Memory.read c.spad a n)))

/-- Decodes the word at a scratchpad address under the step's table. -/
def Core.decodeAt (c : Core) (a : Nat) : Decoded :=
  let x := c.wordAt a
  decodeWord (c.dtab.iop x.1) x.1 x.2.2

/-- The idle count of the word at an address: bits [21:19] of its first unit (R87, R30). -/
def Core.idleAt (c : Core) (a : Nat) : Nat := bits (Memory.val c.spad a 4) 19 3

/-- The stage field of an instruction, and its lowest bit (R92, R94, R100). -/
def stageOf : Instr → Nat × Nat := fun i =>
  let op := i.opcode.getD 0
  let w := encode i
  if op < 0x200 then (0, 0) else if op < 0x300 then (bits w 33 3, 33) else (bits w 55 3, 55)

/-- Opcodes that may not stand in a loop body (R105). -/
def bodyBanned (op : Nat) : Bool :=
  (0x080 ≤ op && op ≤ 0x087) || (0x08A ≤ op && op ≤ 0x08C) || (0x10A ≤ op && op ≤ 0x11F)

/-- The addresses of the `n` words from `a` on, then the address after them. -/
def bodyAddrs (c : Core) : Nat → Nat → List Nat × Nat
  | 0, a => ([], a)
  | n + 1, a =>
    let r := bodyAddrs c n (a + lenBits (c.opcAt a) / 8)
    (a :: r.1, r.2)

/-- The first byte of a body that lies outside the code region (R132). -/
def bodyOutside (c : Core) : Nat → Nat → Option Nat
  | 0, _ => none
  | n + 1, a =>
    if !inCode c a then some a else
    let len := lenBits (c.opcAt a) / 8
    match (List.range len).find? (fun k => !inCode c (a + k)) with
    | some k => some (a + k)
    | none => bodyOutside c n (a + len)

/-- The fields that a receiving word of a chain or multicast must hold at 0, as checks of step 3 (R218, R219). -/
def zeroFields (w : MWord) : List (Nat × Bool) :=
  [(157, w.abase != 0), (151, w.areg != 0), (135, w.astride != 0), (109, w.hbase != 0), (58, w.arot != 0), (49, w.hreg != 0),
   (48, w.hrot != 0)]

/-- The member that reads B: the lowest one named. -/
def mcastReader (n : Nat) (w : MWord) : Nat :=
  if w.mcast = 0 then n
  else match (List.range 4).find? (fun m => w.mcast.getLsbD m) with
    | some m => quadMember n m
    | none => n

/-- The checks of step 3 of R103 on an MWLD that depend on the member's number (R219). -/
def mwldFields (w : MWord) (n : Nat) : List (Nat × Bool) :=
  (if w.mcast.getLsbD (memberOf n) && w.mcast.toNat ≠ 2 ^ memberOf n && mcastReader n w ≠ n then zeroFields w else []) ++
  [(62, w.mcast != 0 && !w.mcast.getLsbD (memberOf n))]

/-- The same for an MMUL: its chain role at this member (R218). -/
def mmulFields (w : MWord) (n : Nat) : List (Nat × Bool) :=
  let m := memberOf n
  let ch := w.chain.toNat
  [(66, (ch = 1 && m = 3) || (2 ≤ ch && m = 0) || (ch = 2 && m = 3))]

/-- The checks of step 3 of R103 that depend on the core's number alone (R218, R219). -/
def quadFields (n : Nat) : Instr → List (Nat × Bool) := fun i =>
  match i with
  | .mwld w => mwldFields w n
  | .mmul w => mmulFields w n
  | _ => []

/-- The trap that a body word makes LOOP raise on core `n`: of the fields that fail, a stage beyond the loop's among them, the highest
counts (R104, R105). -/
def bodyTrap (c : Core) (n stages a : Nat) : Option (Nat × Word) :=
  let op := c.opcAt a
  match c.decodeAt a with
  | .unassigned _ => some (0x01, decodeTval a 0 op 0)
  | .instr i =>
    let st := stageOf i
    let more := (((st.2, decide (stages ≤ st.1)) :: quadFields n i).filter (·.2)).map (·.1)
    match i.fieldFail with
    | some (true, low) => some (0x01, decodeTval a 1 op low)
    | some (false, low) => some (0x02, decodeTval a 1 op (more.foldl max low))
    | none => match more with
      | low :: r => some (0x02, decodeTval a 1 op (r.foldl max low))
      | [] => if bodyBanned (i.opcode.getD 0) then some (0x02, decodeTval a 1 op 0) else none

/-- The cycles that one word of a body takes: its idle count and the count of a NOP (R132). -/
def bodyGap (c : Core) (a : Nat) : Nat :=
  c.idleAt a + (match c.decodeAt a with | .instr (.nop w) => w.off.toNat % 65536 | _ => 0)

/-- LOOP (R132 to R134): the checks in their order, then the kernel with the pending rings. -/
def execLoop (w : SXWord) (s : State) : Out :=
  issueWord (hdS (.loop w) w.idle none) noPre (fun _ => refS w.a.toNat)
    (fun cx s =>
      let c := s.core s.cur
      let len := w.len.toNat
      let stages := w.stg.toNat + 1
      match bodyOutside c len (cx.addr + 4) with
      | some a => .trap 0x06 (BitVec.ofNat 64 a)
      | none =>
        let as := bodyAddrs c len (cx.addr + 4)
        match as.1.findSome? (bodyTrap c s.cur stages) with
        | some (cause, tval) => .trap cause tval
        | none =>
          if (as.1.map (bodyGap c)).sum = 0 then .trap 0x02 (c.fieldTval 4)
          else
            let a := readS c cx w.a.toNat
            if a.2 then .trap 0x08 (psnTval w.a.toNat)
            else if a.1 = 0 then
              .ok (s.updCore s.cur (fun c => { c with arch := { c.arch with loop := {} } })) (.to as.2 cx.t)
            else
              let l := c.arch.loop
              .ok (s.updCore s.cur (fun c => { c with arch := { c.arch with loop :=
                { active := true, body := cx.addr + 4, trip := a.1.toNat, n := a.1.toNat + stages - 1, j := 0, k := 0,
                  len := len, stages := stages, cur0 := l.pend0, cur1 := l.pend1 } } })) (.to (cx.addr + 4) cx.t)) s

/-- Two register ranges overlap. -/
def overlaps (a n b m : Nat) : Bool := a < b + m && b < a + n

/-- The ILLEGAL_OPERAND of LOOPR (R131): the lowest bit that TVAL names. -/
def looprFail (l : LoopSt) (w : SQWord) : Option Nat :=
  let f := w.file.toNat
  let pend := ringsOf l.pend0 ++ ringsOf l.pend1
  let bad (base len : Nat) (others : List (Nat × Nat × Nat)) : Bool :=
    32 < base + len || (f = 0 && base + len = 32) || others.any (fun r => r.1 = f && overlaps base len r.2.1 r.2.2)
  let ra := if w.lena = 0 then [] else [(f, w.basea.toNat, w.lena.toNat + 1)]
  if w.lena ≠ 0 && bad w.basea.toNat (w.lena.toNat + 1) pend then some 13
  else if w.lenb ≠ 0 && bad w.baseb.toNat (w.lenb.toNat + 1) (pend ++ ra) then some 4
  else if l.pend0 ≠ 0 && l.pend1 ≠ 0 then some 0 else none

/-- LOOPR (R131): the rings it declares are pending for the next LOOP. -/
def execLoopr (w : SQWord) (s : State) : Out :=
  let h := { hdS (.loopr w) w.idle none with extra := fun _ c => match looprFail c.arch.loop w with
    | some low => [(low, true)]
    | none => [] }
  issueWord h noPre (fun _ => [])
    (fun _ s =>
      let u := BitVec.ofNat 32 (encode (.loopr w))
      .ok (s.updCore s.cur (fun c =>
        let l := c.arch.loop
        { c with arch := { c.arch with loop := if l.pend0 = 0 then { l with pend0 := u } else { l with pend1 := u } } }))
        (.seq 0)) s

end Sys2Proof.Machine
end

