-- ==== Sys2Proof/Machine/Fp.lean ====
section
/-! DEFINITION. Floating-point formats, exact arithmetic and its one rounding (R56 to R71, R146 to R149, R167). -/
namespace Sys2Proof.Machine

/-- A binary floating-point format (R56): fraction width, bias, largest finite pattern, width. -/
structure Fmt where
  fb : Nat
  bias : Nat
  maxFin : Nat
  width : Nat
  /-- E4M3 has no infinities (R57) -/
  noInf : Bool
  /-- E5M2 and E4M3 have no signalling NaNs (R57) -/
  noSig : Bool
  canon : Nat
  deriving DecidableEq, Repr

def fp64 : Fmt := ⟨52, 1023, 0x7FEFFFFFFFFFFFFF, 64, false, false, 0x7FF8000000000000⟩
def fp32 : Fmt := ⟨23, 127, 0x7F7FFFFF, 32, false, false, 0x7FC00000⟩
def fp16 : Fmt := ⟨10, 15, 0x7BFF, 16, false, false, 0x7E00⟩
def bf16 : Fmt := ⟨7, 127, 0x7F7F, 16, false, false, 0x7FC0⟩
def e4m3 : Fmt := ⟨3, 7, 0x7E, 8, true, true, 0x7F⟩
def e5m2 : Fmt := ⟨2, 15, 0x7B, 8, false, true, 0x7E⟩

/-- The decoded value of a pattern: NaN (signalling or not), an infinity, or ± m × 2^e (R56, R57). -/
inductive FV where
  | nan (sig : Bool)
  | inf (neg : Bool)
  | fin (neg : Bool) (m : Nat) (e : Int)
  deriving DecidableEq, Repr

/-- Decodes a pattern (R56, R57). -/
def FV.ofBits (f : Fmt) (w : Nat) : FV :=
  let neg := bits w (f.width - 1) 1 = 1
  let mag := w % 2 ^ (f.width - 1)
  let ex := mag / 2 ^ f.fb
  let fr := mag % 2 ^ f.fb
  if f.maxFin < mag then
    if !f.noInf && fr = 0 then .inf neg
    else .nan (!f.noSig && fr < 2 ^ (f.fb - 1))
  else if ex = 0 then .fin neg fr (1 - (f.bias : Int) - f.fb)
  else .fin neg (fr + 2 ^ f.fb) ((ex : Int) - f.bias - f.fb)

/-- The flags nv, dz, of, uf, nx, sat, in the bits of STATUS (R70, R152). -/
abbrev Flags := BitVec 6
def fNv : Flags := 1
def fDz : Flags := 2
def fOf : Flags := 4
def fUf : Flags := 8
def fNx : Flags := 16
def fSat : Flags := 32

/-- A rounding mode, codes 0 to 5 (R63), with the 16-bit value that SR uses (R66). -/
structure Mode where
  code : Nat
  rnd : Nat
  deriving DecidableEq, Repr

/-- Round to nearest even. -/
def rne : Mode := ⟨0, 0⟩

/-- Whether a magnitude that lies `r / d` of a unit beyond its lower neighbour `n` rounds away from zero (R63, R65). -/
def roundsUp (md : Mode) (neg : Bool) (n r d : Nat) : Bool :=
  if r = 0 then false
  else if md.code = 0 then d < 2 * r || (2 * r = d && n % 2 = 1)
  else if md.code = 1 then false
  else if md.code = 2 then !neg
  else if md.code = 3 then neg
  else if md.code = 4 then d ≤ 2 * r
  else 0x10000 ≤ 0x10000 * r / d + md.rnd

/-- num / den scaled by 2^(−q), as a numerator and a denominator. -/
def scaleQ (num den : Nat) (q : Int) : Nat × Nat :=
  if 0 ≤ q then (num, den * 2 ^ q.toNat) else (num * 2 ^ (-q).toNat, den)

/-- ⌊log2 (num / den)⌋ for positive num and den. -/
def ilog2Q (num den : Nat) : Int :=
  let d : Int := (Nat.log2 num : Int) - Nat.log2 den
  let x := scaleQ num den d
  if x.1 < x.2 then d - 1 else d

/-- The result of an overflow (R64). -/
def overflowBits (f : Fmt) (md : Mode) (neg : Bool) : Nat :=
  if f.noInf then f.maxFin
  else if md.code = 1 || (md.code = 2 && neg) || (md.code = 3 && !neg) then f.maxFin
  else f.maxFin + 1

/-- Sets the sign bit of a magnitude. -/
def signed (f : Fmt) (neg : Bool) (mag : Nat) : Nat := mag + (if neg then 2 ^ (f.width - 1) else 0)

/-- Rounds ± num / den, num > 0, once to a format: the pattern and the flags of, uf, nx (R59, R60, R63 to R65). -/
def roundQ (f : Fmt) (md : Mode) (neg : Bool) (num den : Nat) : Nat × Flags :=
  let e := ilog2Q num den
  let qu := e - f.fb
  let q := max qu (1 - (f.bias : Int) - f.fb)
  let x := scaleQ num den q
  let n := x.1 / x.2
  let r := x.1 % x.2
  let n' := if roundsUp md neg n r x.2 then n + 1 else n
  let mag := if n' < 2 ^ f.fb then n' else ((q + f.fb + f.bias).toNat - 0) * 2 ^ f.fb + (n' - 2 ^ f.fb)
  let xu := scaleQ num den qu
  let nu := xu.1 / xu.2
  let up := roundsUp md neg nu (xu.1 % xu.2) xu.2
  let tiny := if md.code = 5 then n' < 2 ^ f.fb
    else qu < q && !(up && nu + 1 = 2 ^ (f.fb + 1) && qu + 1 = q)
  if f.maxFin < mag then (signed f neg (overflowBits f md neg), fOf ||| fNx)
  else (signed f neg mag, if r = 0 then 0 else if tiny then fUf ||| fNx else fNx)

/-- Rounds ± m × 2^e to a format; a zero keeps the sign given. -/
def roundD (f : Fmt) (md : Mode) (neg : Bool) (m : Nat) (e : Int) : Nat × Flags :=
  if m = 0 then (signed f neg 0, 0)
  else if 0 ≤ e then roundQ f md neg (m * 2 ^ e.toNat) 1 else roundQ f md neg m (2 ^ (-e).toNat)

/-- The canonical NaN of a format (R58). -/
def fNan (f : Fmt) : Nat := f.canon
/-- An infinity; in E4M3, which has none, the NaN (R67). -/
def fInf (f : Fmt) (neg : Bool) : Nat := if f.noInf then f.canon else signed f neg (f.maxFin + 1)

/-- The value is a NaN. -/
def FV.isNan : FV → Bool
  | .nan _ => true
  | _ => false
/-- The value is a signalling NaN. -/
def FV.isSig : FV → Bool
  | .nan s => s
  | _ => false
/-- nv if any operand is a signalling NaN (R58). -/
def sigFlag (l : List FV) : Flags := if l.any FV.isSig then fNv else 0

/-- Negates a value. -/
def FV.neg : FV → FV
  | .nan s => .nan s
  | .inf n => .inf (!n)
  | .fin n m e => .fin (!n) m e

/-- A signed integer at a scale. -/
def sgn (neg : Bool) (m : Nat) : Int := if neg then -(m : Int) else m

/-- Rounds the exact sum of two finite values (R60: an exact zero sum of unlike signs is −0 only under RDN). -/
def addFin (f : Fmt) (md : Mode) (n1 : Bool) (m1 : Nat) (e1 : Int) (n2 : Bool) (m2 : Nat) (e2 : Int) : Nat × Flags :=
  let e := min e1 e2
  let s := sgn n1 (m1 * 2 ^ (e1 - e).toNat) + sgn n2 (m2 * 2 ^ (e2 - e).toNat)
  if s = 0 then
    let neg := if m1 = 0 && m2 = 0 && n1 = n2 then n1 else md.code = 3
    (signed f neg 0, 0)
  else roundD f md (decide (s < 0)) s.natAbs e

/-- round(a + b) (R146). -/
def fAdd (f : Fmt) (md : Mode) (a b : FV) : Nat × Flags :=
  match a, b with
  | .nan _, _ => (fNan f, sigFlag [a, b])
  | _, .nan _ => (fNan f, sigFlag [a, b])
  | .inf x, .inf y => if x = y then (fInf f x, 0) else (fNan f, fNv)
  | .inf x, _ => (fInf f x, 0)
  | _, .inf y => (fInf f y, 0)
  | .fin n1 m1 e1, .fin n2 m2 e2 => addFin f md n1 m1 e1 n2 m2 e2

/-- round(a × b) (R146). -/
def fMul (f : Fmt) (md : Mode) (a b : FV) : Nat × Flags :=
  match a, b with
  | .nan _, _ => (fNan f, sigFlag [a, b])
  | _, .nan _ => (fNan f, sigFlag [a, b])
  | .inf x, .inf y => (fInf f (x != y), 0)
  | .inf x, .fin n m _ => if m = 0 then (fNan f, fNv) else (fInf f (x != n), 0)
  | .fin n m _, .inf y => if m = 0 then (fNan f, fNv) else (fInf f (n != y), 0)
  | .fin n1 m1 e1, .fin n2 m2 e2 => roundD f md (n1 != n2) (m1 * m2) (e1 + e2)

/-- round(a × b + c), rounded once (R146). -/
def fFma (f : Fmt) (md : Mode) (a b c : FV) : Nat × Flags :=
  let inval : Bool := match a, b with
    | .inf _, .fin _ m _ => m = 0
    | .fin _ m _, .inf _ => m = 0
    | _, _ => false
  if inval then (fNan f, fNv)
  else match a, b, c with
    | .nan _, _, _ => (fNan f, sigFlag [a, b, c])
    | _, .nan _, _ => (fNan f, sigFlag [a, b, c])
    | _, _, .nan _ => (fNan f, sigFlag [a, b, c])
    | .fin n1 m1 e1, .fin n2 m2 e2, .fin n3 m3 e3 => addFin f md (n1 != n2) (m1 * m2) (e1 + e2) n3 m3 e3
    | .fin _ _ _, .fin _ _ _, .inf z => (fInf f z, 0)
    | x, y, z =>
      let sg (v : FV) : Bool := match v with | .inf n => n | .fin n _ _ => n | .nan _ => false
      let p := sg x != sg y
      match z with
      | .inf w => if p = w then (fInf f p, 0) else (fNan f, fNv)
      | _ => (fInf f p, 0)

/-- round(a ÷ b) (R146). -/
def fDiv (f : Fmt) (md : Mode) (a b : FV) : Nat × Flags :=
  match a, b with
  | .nan _, _ => (fNan f, sigFlag [a, b])
  | _, .nan _ => (fNan f, sigFlag [a, b])
  | .inf _, .inf _ => (fNan f, fNv)
  | .inf x, .fin n _ _ => (fInf f (x != n), 0)
  | .fin n _ _, .inf y => (signed f (n != y) 0, 0)
  | .fin n1 m1 e1, .fin n2 m2 e2 =>
    if m2 = 0 then (if m1 = 0 then (fNan f, fNv) else (fInf f (n1 != n2), fDz))
    else if m1 = 0 then (signed f (n1 != n2) 0, 0)
    else
      let x := scaleQ m1 m2 (e2 - e1)
      roundQ f md (n1 != n2) x.1 x.2

/-- ⌊√x⌋ by bits, `k` being at least half the bits of `x`. -/
def isqrtAux (x : Nat) : Nat → Nat → Nat
  | 0, r => r
  | k + 1, r => isqrtAux x k (if (r + 2 ^ k) * (r + 2 ^ k) ≤ x then r + 2 ^ k else r)

/-- ⌊√x⌋. -/
def isqrt (x : Nat) : Nat := isqrtAux x (Nat.log2 x / 2 + 1) 0

/-- Rounds √(num / den) × 2^e, num > 0: the root is taken to many more bits than any format has, with a sticky bit. -/
def roundSqrt (f : Fmt) (md : Mode) (num den : Nat) (e : Int) : Nat × Flags :=
  let t : Nat := 120 + Nat.log2 den
  let y := num * 2 ^ (2 * t) / den
  let r := isqrt y
  let exact := r * r = y && num * 2 ^ (2 * t) % den = 0
  let x := scaleQ (2 * r + (if exact then 0 else 1)) 1 ((t : Int) + 1 - e)
  roundQ f md false x.1 x.2

/-- round(√a) (R146). -/
def fSqrt (f : Fmt) (md : Mode) (a : FV) : Nat × Flags :=
  match a with
  | .nan s => (fNan f, if s then fNv else 0)
  | .inf n => if n then (fNan f, fNv) else (fInf f false, 0)
  | .fin n m e =>
    if m = 0 then (signed f n 0, 0) else if n then (fNan f, fNv)
    else if e % 2 = 0 then roundSqrt f md m 1 (e / 2) else roundSqrt f md (2 * m) 1 ((e - 1) / 2)

/-- Compares two values that are not NaN: less, equal or greater (R147). -/
def fCompare (a b : FV) : Ordering :=
  let key (v : FV) (e : Int) : Int := match v with
    | .fin n m x => sgn n (m * 2 ^ (x - e).toNat)
    | _ => 0
  match a, b with
  | .inf x, .inf y => if x = y then .eq else if x then .lt else .gt
  | .inf x, _ => if x then .lt else .gt
  | _, .inf y => if y then .gt else .lt
  | .fin _ _ e1, .fin _ _ e2 => compare (key a (min e1 e2)) (key b (min e1 e2))
  | _, _ => .eq

/-- The sign of a value. -/
def FV.sign : FV → Bool
  | .nan _ => false
  | .inf n => n
  | .fin n _ _ => n

/-- FMIN or FMAX on patterns: the returned operand is copied unchanged (R147). -/
def fMinMax (f : Fmt) (isMax : Bool) (x y : Nat) : Nat × Flags :=
  let a := FV.ofBits f x
  let b := FV.ofBits f y
  let fl := sigFlag [a, b]
  if a.isNan && b.isNan then (fNan f, fl) else if a.isNan then (y, fl) else if b.isNan then (x, fl)
  else match fCompare a b with
    | .lt => (if isMax then y else x, fl)
    | .gt => (if isMax then x else y, fl)
    | .eq => (if a.sign = isMax then y else x, fl)

/-- FCMP: −1, 0, 1, or 2 when unordered (R147). -/
def fCmp (f : Fmt) (x y : Nat) : Int × Flags :=
  let a := FV.ofBits f x
  let b := FV.ofBits f y
  if a.isNan || b.isNan then (2, sigFlag [a, b])
  else match fCompare a b with
    | .lt => (-1, 0)
    | .eq => (0, 0)
    | .gt => (1, 0)

/-- The class mask of R148. -/
def fClass (f : Fmt) (x : Nat) : Nat :=
  match FV.ofBits f x with
  | .nan s => if s then 2 ^ 9 else 2 ^ 8
  | .inf n => if n then 2 ^ 7 else 2 ^ 6
  | .fin n m _ =>
    let k := if m = 0 then 0 else if m < 2 ^ f.fb then 2 else 4
    2 ^ (k + (if n then 1 else 0))

/-- Conversion between floating-point formats (R67). -/
def fConvert (src dst : Fmt) (md : Mode) (x : Nat) : Nat × Flags :=
  match FV.ofBits src x with
  | .nan s => (fNan dst, if s then fNv else 0)
  | .inf n => (fInf dst n, if dst.noInf then fNv else 0)
  | .fin n m e => roundD dst md n m e

/-- Rounds ± m × 2^e to an integer: the rounded magnitude and whether it was inexact. -/
def roundInt (md : Mode) (neg : Bool) (m : Nat) (e : Int) : Nat × Bool :=
  let x := scaleQ m 1 (-e)
  let n := x.1 / x.2
  let r := x.1 % x.2
  (if roundsUp md neg n r x.2 then n + 1 else n, r != 0)

/-- Conversion to an integer in [lo, hi] (R68). -/
def fToInt (src : Fmt) (md : Mode) (lo hi : Int) (x : Nat) : Int × Flags :=
  match FV.ofBits src x with
  | .nan _ => (0, fNv)
  | .inf n => (if n then lo else hi, fNv)
  | .fin n m e =>
    let r := roundInt md n m e
    let v := sgn n r.1
    if v < lo then (lo, fNv) else if hi < v then (hi, fNv) else (v, if r.2 then fNx else 0)

/-- Conversion from an integer (R69). -/
def fOfInt (dst : Fmt) (md : Mode) (v : Int) : Nat × Flags := roundD dst md (decide (v < 0)) v.natAbs 0

/-- Saturation to [lo, hi], with sat when it changes the value (R69). -/
def satInt (lo hi v : Int) : Int × Flags := if v < lo then (lo, fSat) else if hi < v then (hi, fSat) else (v, 0)

/-- The low `n` bits of an integer. -/
def intBits (n : Nat) (v : Int) : Nat := (v % (2 ^ n : Nat)).toNat

/-! ### The reciprocal, root, exponential and logarithm words (R167) -/

/-- round(1 ÷ a). -/
def fRcp (f : Fmt) (md : Mode) (a : FV) : Nat × Flags :=
  match a with
  | .nan s => (fNan f, if s then fNv else 0)
  | .inf n => (signed f n 0, 0)
  | .fin n m e => if m = 0 then (fInf f n, fDz) else
    let x := scaleQ 1 m e
    roundQ f md n x.1 x.2

/-- round(1 ÷ √a). -/
def fRsq (f : Fmt) (md : Mode) (a : FV) : Nat × Flags :=
  match a with
  | .nan s => (fNan f, if s then fNv else 0)
  | .inf n => if n then (fNan f, fNv) else (signed f false 0, 0)
  | .fin n m e =>
    if m = 0 then (fInf f n, fDz) else if n then (fNan f, fNv)
    else if e % 2 = 0 then roundSqrt f md 1 m (-(e / 2)) else roundSqrt f md 1 (2 * m) (-((e - 1) / 2))

/-- The bits of precision of the exponential and the logarithm below: far more than the 24 + 16 that decide a rounding. -/
def prec : Nat := 320

/-- 2^(fr / 2^k) × 2^prec for fr < 2^k, rounded down at each factor: `c` is 2^(2^−i) at the current bit i. -/
def exp2Aux : Nat → Nat → Nat → Nat → Nat
  | 0, _, _, acc => acc
  | k + 1, fr, c, acc =>
    exp2Aux k fr (isqrt (c * 2 ^ prec)) (if fr / 2 ^ k % 2 = 1 then acc * c / 2 ^ prec else acc)

/-- round(2^a). -/
def fExp2 (f : Fmt) (md : Mode) (a : FV) : Nat × Flags :=
  match a with
  | .nan s => (fNan f, if s then fNv else 0)
  | .inf n => if n then (signed f false 0, 0) else (fInf f false, 0)
  | .fin n m e =>
    if m = 0 then roundQ f md false 1 1
    else
      let v := sgn n m
      -- beyond the range of every format the exponent alone decides
      if !n && 12 ≤ (Nat.log2 m : Int) + e then roundQ f md false (2 ^ 4096) 1
      else if n && 12 ≤ (Nat.log2 m : Int) + e then roundQ f md false 1 (2 ^ 4096)
      else if 0 ≤ e then
        let k := v * 2 ^ e.toNat
        let x := scaleQ 1 1 (-k)
        roundQ f md false x.1 x.2
      else
        let k := (-e).toNat
        let ip := v.fdiv (2 ^ k : Nat)
        let fr := (v.fmod (2 ^ k : Nat)).toNat
        if fr = 0 then
          let x := scaleQ 1 1 (-ip)
          roundQ f md false x.1 x.2
        else
          let r := exp2Aux k fr (isqrt (2 * 2 ^ (2 * prec))) (2 ^ prec)
          let x := scaleQ (2 * r + 1) 1 ((prec : Int) + 1 - ip)
          roundQ f md false x.1 x.2

/-- The first `k` fraction bits of log2 (y / 2^p), 1 ≤ y / 2^p < 2, by squaring. -/
def log2Aux (p : Nat) : Nat → Nat → Nat → Nat
  | 0, _, acc => acc
  | k + 1, y, acc =>
    let z := y * y / 2 ^ p
    if 2 ^ (p + 1) ≤ z then log2Aux p k (z / 2) (2 * acc + 1) else log2Aux p k z (2 * acc)

/-- round(log2 a). -/
def fLog2 (f : Fmt) (md : Mode) (a : FV) : Nat × Flags :=
  match a with
  | .nan s => (fNan f, if s then fNv else 0)
  | .inf n => if n then (fNan f, fNv) else (fInf f false, 0)
  | .fin n m e =>
    if m = 0 then (fInf f true, fDz) else if n then (fNan f, fNv)
    else
      let l := Nat.log2 m
      let ex : Int := l + e
      if m = 2 ^ l then fOfInt f md ex
      else
        let fr := log2Aux 520 130 (m * 2 ^ (520 - l)) 0
        let v : Int := (ex * (2 ^ 130 : Nat) + fr) * 2 + 1
        roundD f md (decide (v < 0)) v.natAbs (-131)

/-! ### Rounding of a word -/

/-- The value rnd of R66: SEED, the word's offset in the code region, the iteration, the element and the lane. -/
def srRnd (seed : Word) (wa j e lane : Nat) : Nat :=
  let w : Word := (BitVec.ofNat 64 (bits wa 2 16) <<< 32) ||| (BitVec.ofNat 64 (j % 2 ^ 16) <<< 16) |||
    (BitVec.ofNat 64 (e % 1024) <<< 6) ||| BitVec.ofNat 64 (lane % 64)
  let z := (seed ^^^ w) + 0x9E3779B97F4A7C15
  let z := (z ^^^ (z >>> 30)) * 0xBF58476D1CE4E5B9
  let z := (z ^^^ (z >>> 27)) * 0x94D049BB133111EB
  let z := z ^^^ (z >>> 31)
  z.toNat / 2 ^ 48

/-- What rounding depends on beside the operands: RMODE, SEED, the word's place and iteration (R63, R66, R154). -/
structure RCtx where
  rmode : Nat
  seed : Word
  wa : Nat
  j : Nat
  deriving DecidableEq, Repr

/-- The mode a rounding code selects for an element and lane; code 6 takes it from RMODE (R63). -/
def RCtx.mode (r : RCtx) (code e lane : Nat) : Mode :=
  let c := if code = 6 then r.rmode else code
  ⟨c, if c = 5 then srRnd r.seed r.wa r.j e lane else 0⟩

/-- The rounding context of a word at its issue. -/
def Core.rctx (c : Core) (cx : Ctx) : RCtx :=
  ⟨c.arch.csr.rmode.toNat % 8, c.arch.csr.seed, cx.addr - cx.codebase, cx.lcnt⟩

end Sys2Proof.Machine
end

