-- ==== Sys2Proof/Machine/Flags.lean ====
section
/-! DEFINITION. The flags of STATUS by name, and the shade rule that checks floating-point results (R152, R328, R329). The flags that an
operation raises are computed with its result (R64, R70). -/
namespace Sys2Proof.Machine

/-- The sticky flags of STATUS (R152). -/
def Csrs.flags (r : Csrs) : Flags := BitVec.setWidth 6 r.status
/-- Flag nv. -/
def Csrs.nv (r : Csrs) : Bool := r.status.getLsbD 0
/-- Flag dz. -/
def Csrs.dz (r : Csrs) : Bool := r.status.getLsbD 1
/-- Flag of. -/
def Csrs.of_ (r : Csrs) : Bool := r.status.getLsbD 2
/-- Flag uf. -/
def Csrs.uf (r : Csrs) : Bool := r.status.getLsbD 3
/-- Flag nx. -/
def Csrs.nx (r : Csrs) : Bool := r.status.getLsbD 4
/-- Flag sat. -/
def Csrs.sat (r : Csrs) : Bool := r.status.getLsbD 5
/-- Field ftz, which has no effect on any result (R59). -/
def Csrs.ftz (r : Csrs) : Bool := r.status.getLsbD 8

/-! ### The shade rule (R329) -/

/-- A value truncated towards zero to 8 significant bits. -/
def FV.trunc8 : FV → FV
  | .fin n m e => if m < 256 then .fin n m e else let k := Nat.log2 m - 7; .fin n (m / 2 ^ k) (e + k)
  | v => v

/-- The exact sum, with an unbounded exponent. -/
def exactAdd : FV → FV → FV
  | .fin n1 m1 e1, .fin n2 m2 e2 =>
    let e := min e1 e2
    let s := sgn n1 (m1 * 2 ^ (e1 - e).toNat) + sgn n2 (m2 * 2 ^ (e2 - e).toNat)
    .fin (decide (s < 0)) s.natAbs e
  | .inf x, .inf y => if x = y then .inf x else .nan false
  | .nan s, _ => .nan s
  | _, .nan s => .nan s
  | .inf x, _ => .inf x
  | _, .inf y => .inf y

/-- The exact product, with an unbounded exponent. -/
def exactMul : FV → FV → FV
  | .fin n1 m1 e1, .fin n2 m2 e2 => .fin (n1 != n2) (m1 * m2) (e1 + e2)
  | .nan s, _ => .nan s
  | _, .nan s => .nan s
  | .inf x, .inf y => .inf (x != y)
  | .inf x, .fin n m _ => if m = 0 then .nan false else .inf (x != n)
  | .fin n m _, .inf y => if m = 0 then .nan false else .inf (n != y)

/-- ⌊log2 |v|⌋ of a finite value that is not zero. -/
def FV.ilog : FV → Int
  | .fin _ m e => (Nat.log2 m : Int) + e
  | _ => 0

/-- A finite value is zero. -/
def FV.isZero : FV → Bool
  | .fin _ m _ => m = 0
  | _ => false

/-- A value is finite. -/
def FV.isFin : FV → Bool
  | .fin .. => true
  | _ => false

/-- |x − h| ≤ 2^k for finite values. -/
def within (x h : FV) (k : Int) : Bool :=
  match exactAdd x h.neg with
  | .fin _ m e => m = 0 || (let d := min e k; m * 2 ^ (e - d).toNat ≤ 2 ^ (k - d).toNat)
  | _ => false

/-- The largest exponent of a format. -/
def Fmt.emax (f : Fmt) : Int := (FV.ofBits f f.maxFin).ilog

/-- The largest ⌊log2 |t|⌋ of terms that are not zero. -/
def topLog (ts : List FV) : Int :=
  ((ts.filter (fun t => !t.isZero)).foldl (fun (m : Option Int) t => match m with
    | none => some t.ilog
    | some k => some (max k t.ilog)) none).getD 0

/-- The exception of R329 for an overflow: h has the sign of x and is at least 2^(Emax − 1). -/
def overflowPass (f : Fmt) (x h : FV) : Bool :=
  match h with
  | .fin n m _ => m ≠ 0 && n = x.sign && f.emax - 1 ≤ h.ilog
  | _ => false

/-- x is ± the largest finite value of a format. -/
def FV.isMax (f : Fmt) (x : FV) : Bool :=
  match x, FV.ofBits f f.maxFin with
  | .fin _ m e, .fin _ m' e' => m = m' && e = e'
  | _, _ => false

/-- The check of R329 on result `x` with shade result `h` and terms `ts`. -/
def shadePass (f : Fmt) (x h : FV) (ts : List FV) : Bool :=
  if ts.all FV.isFin && !x.isFin && !x.isNan then overflowPass f x h
  else if !x.isFin || !h.isFin || !ts.all FV.isFin then (match x, h with
    | .nan _, .nan _ => true
    | .inf a, .inf b => a = b
    | _, _ => false)
  else if ts.all FV.isZero then x.isZero
  else within x h (topLog ts - 3) || (x.isMax f && overflowPass f x h)

/-- The shade check of a sum (R328, R329). -/
def shadeAdd (f : Fmt) (x a b : FV) : Bool := shadePass f x (exactAdd a.trunc8 b.trunc8).trunc8 [a, b]
/-- The shade check of a product. -/
def shadeMul (f : Fmt) (x a b : FV) : Bool := shadePass f x (exactMul a.trunc8 b.trunc8).trunc8 [exactMul a b]
/-- The shade check of a fused form a × b + c. -/
def shadeFma (f : Fmt) (x a b c : FV) : Bool :=
  shadePass f x (exactAdd (exactMul a.trunc8 b.trunc8) c.trunc8).trunc8 [exactMul a b, c]

/-- What the shade units make of a word's result in its landing cycle: nothing, or a region error of their engine (R164, R327, R329).
DESIGN CHOICE: log 54, the cycle. -/
def shadeEff (lat engine : Nat) (cx : Ctx) (ok : Bool) : List (Nat × Eff) := if ok then [] else [(lat, .mismatch engine cx.addr)]

/-- A word whose results pass has no effect of its shade units. -/
@[simp] theorem shadeEff_true (lat engine : Nat) (cx : Ctx) : shadeEff lat engine cx true = [] := rfl

end Sys2Proof.Machine
end

