-- ==== Sys2Proof/Machine/ScalarInt.lean ====
section
/-! DEFINITION. Scalar integer words: register forms, immediate forms and constants (R113 to R119). -/
namespace Sys2Proof.Machine

/-- The result of a word with scalar operands a and b: `f a b` for destination d after `lat` cycles, poisoned when a or b is
(R114, R116). Computed from operand captures, so that RETT can compute it again (R363). -/
def fxAB (lat : Nat) (f : Word → Word → Word) (d : Nat) (a b : Lanes × LMask) : List (Nat × Eff) :=
  [(lat, .sland d (f (uncapS a).1 (uncapS b).1) ((uncapS a).2 || (uncapS b).2))]

/-- The same for a word that reads d as well (R114). -/
def fxABD (lat : Nat) (f : Word → Word → Word → Word) (d : Nat) (a b o : Lanes × LMask) : List (Nat × Eff) :=
  [(lat, .sland d (f (uncapS a).1 (uncapS b).1 (uncapS o).1) ((uncapS a).2 || (uncapS b).2 || (uncapS o).2))]

/-- The same for a word with operand a only. -/
def fxA (lat : Nat) (f : Word → Word) (d : Nat) (a : Lanes × LMask) : List (Nat × Eff) :=
  [(lat, .sland d (f (uncapS a).1) (uncapS a).2)]

/-- A register-form word with operands a and b, read as R113 says. -/
def opAB (i : Instr) (w : SRWord) (lat : Nat) (f : Word → Word → Word) (s : State) : Out :=
  let h := hdSR i w (some lat)
  let z := w.z == 1
  issueWord h noPre
    (fun cx => refS (rotS cx z w.d.toNat) ++ refS (rotS cx z w.a.toNat) ++ refS (rotS cx z w.b.toNat))
    (fun cx s =>
      let c := s.core s.cur
      let a := capS (readS c cx (rotS cx z w.a.toNat))
      let b := capS (readS c cx (rotS cx z w.b.toNat))
      let d := rotS cx z w.d.toNat
      landScalar h cx s d a b capNone (fxAB lat f d a b))
    s

/-- A register-form word that reads d as well (SELZ, BFI). -/
def opABD (i : Instr) (w : SRWord) (lat : Nat) (f : Word → Word → Word → Word) (s : State) : Out :=
  let h := hdSR i w (some lat)
  let z := w.z == 1
  issueWord h noPre
    (fun cx => refS (rotS cx z w.d.toNat) ++ refS (rotS cx z w.a.toNat) ++ refS (rotS cx z w.b.toNat))
    (fun cx s =>
      let c := s.core s.cur
      let a := capS (readS c cx (rotS cx z w.a.toNat))
      let b := capS (readS c cx (rotS cx z w.b.toNat))
      let d := rotS cx z w.d.toNat
      let o := capS (readS c cx d)
      landScalar h cx s d a b o (fxABD lat f d a b o))
    s

/-- A register-form word with operand a only (CLZ, CTZ, POPC). -/
def opA (i : Instr) (w : SRWord) (lat : Nat) (f : Word → Word) (s : State) : Out :=
  let h := hdSR i w (some lat)
  let z := w.z == 1
  issueWord h noPre (fun cx => refS (rotS cx z w.d.toNat) ++ refS (rotS cx z w.a.toNat))
    (fun cx s =>
      let c := s.core s.cur
      let a := capS (readS c cx (rotS cx z w.a.toNat))
      let d := rotS cx z w.d.toNat
      landScalar h cx s d a capNone capNone (fxA lat f d a))
    s

/-- An immediate-form word: the result `f a` lands after one cycle (R118). -/
def opImm (i : Instr) (w : SIWord) (f : Word → Word) (s : State) : Out :=
  let h := hdS i w.idle (some 1)
  issueWord h noPre (fun _ => refS w.d.toNat ++ refS w.a.toNat)
    (fun cx s =>
      let a := capS (readS (s.core s.cur) cx w.a.toNat)
      landScalar h cx s w.d.toNat a capNone capNone (fxA 1 f w.d.toNat a))
    s

/-- The shift amount b[5:0] (R116). -/
def sh6 (b : Word) : Nat := b.toNat % 64

/-- A truth value as a word. -/
def b2w (p : Bool) : Word := if p then 1 else 0

/-- Signed division truncated towards zero, with the corners of DIV (R116). -/
def divS (a b : Word) : Word :=
  if b = 0 then BitVec.allOnes 64 else BitVec.ofInt 64 (a.toInt.tdiv b.toInt)

/-- Unsigned division (R116). -/
def divU (a b : Word) : Word := if b = 0 then BitVec.allOnes 64 else a / b

/-- Signed remainder: a − b × DIV(a, b) (R116). -/
def remS (a b : Word) : Word := if b = 0 then BitVec.allOnes 64 else a - b * divS a b

/-- Unsigned remainder (R116). -/
def remU (a b : Word) : Word := if b = 0 then BitVec.allOnes 64 else a % b

/-- The number of leading zero bits (R116). -/
def clz64 (a : Word) : Nat := if a = 0 then 64 else 63 - Nat.log2 a.toNat

/-- The number of trailing zero bits among the lowest `n` bits of `x`. -/
def ctzAux : Nat → Nat → Nat
  | 0, _ => 0
  | n + 1, x => if x % 2 = 1 then 0 else 1 + ctzAux n (x / 2)

/-- The number of one bits among the lowest `n` bits of `x`. -/
def popAux : Nat → Nat → Nat
  | 0, _ => 0
  | n + 1, x => x % 2 + popAux n (x / 2)

/-- A mask of width `w`. -/
def ones (w : Nat) : Word := BitVec.ofNat 64 (2 ^ w - 1)

/-- BFX: the field of a that b describes (R117). -/
def bfx (a b : Word) : Word :=
  let p := bits b.toNat 0 6
  let w := bits b.toNat 6 6 + 1
  let f := (a >>> p) &&& ones w
  if b.getLsbD 12 && f.getLsbD (w - 1) then f ||| ~~~ones w else f

/-- BFI: d_old with the field of b replaced by the low bits of a (R117). -/
def bfi (a b o : Word) : Word :=
  let p := bits b.toNat 0 6
  let w := bits b.toNat 6 6 + 1
  let m := ones w <<< p
  (o &&& ~~~m) ||| ((a <<< p) &&& m)

/-- imm7 sign-extended to 64 bits (R89). -/
def sext7 (x : BitVec 7) : Word := x.signExtend 64

/-- What ADD computes (R116). -/
def aluAdd : Word → Word → Word := (fun a b => a + b)

/-- What SUB computes (R116). -/
def aluSub : Word → Word → Word := (fun a b => a - b)

/-- What MUL computes (R116). -/
def aluMul : Word → Word → Word := (fun a b => a * b)

/-- What MULH computes (R116). -/
def aluMulh : Word → Word → Word := (fun a b => BitVec.ofInt 64 (a.toInt * b.toInt / 2 ^ 64))

/-- What MULHU computes (R116). -/
def aluMulhu : Word → Word → Word := (fun a b => BitVec.ofNat 64 (a.toNat * b.toNat / 2 ^ 64))

/-- What DIV computes (R116). -/
def aluDiv : Word → Word → Word := divS

/-- What DIVU computes (R116). -/
def aluDivu : Word → Word → Word := divU

/-- What REM computes (R116). -/
def aluRem : Word → Word → Word := remS

/-- What REMU computes (R116). -/
def aluRemu : Word → Word → Word := remU

/-- What AND computes (R116). -/
def aluAndR : Word → Word → Word := (fun a b => a &&& b)

/-- What OR computes (R116). -/
def aluOrR : Word → Word → Word := (fun a b => a ||| b)

/-- What XOR computes (R116). -/
def aluXorR : Word → Word → Word := (fun a b => a ^^^ b)

/-- What ANDN computes (R116). -/
def aluAndn : Word → Word → Word := (fun a b => a &&& ~~~b)

/-- What SHL computes (R116). -/
def aluShl : Word → Word → Word := (fun a b => a <<< sh6 b)

/-- What SHR computes (R116). -/
def aluShr : Word → Word → Word := (fun a b => a >>> sh6 b)

/-- What SRA computes (R116). -/
def aluSra : Word → Word → Word := (fun a b => a.sshiftRight (sh6 b))

/-- What MIN computes (R116). -/
def aluMin : Word → Word → Word := (fun a b => if a.slt b then a else b)

/-- What MAX computes (R116). -/
def aluMax : Word → Word → Word := (fun a b => if a.slt b then b else a)

/-- What MINU computes (R116). -/
def aluMinu : Word → Word → Word := (fun a b => if a.ult b then a else b)

/-- What MAXU computes (R116). -/
def aluMaxu : Word → Word → Word := (fun a b => if a.ult b then b else a)

/-- What SLT computes (R116). -/
def aluSlt : Word → Word → Word := (fun a b => b2w (a.slt b))

/-- What SLTU computes (R116). -/
def aluSltu : Word → Word → Word := (fun a b => b2w (a.ult b))

/-- What SEQ computes (R116). -/
def aluSeq : Word → Word → Word := (fun a b => b2w (a == b))

/-- What SNE computes (R116). -/
def aluSne : Word → Word → Word := (fun a b => b2w (a != b))

/-- What BFX computes (R117). -/
def aluBfx : Word → Word → Word := bfx

/-- What ADDX2 computes (R116). -/
def aluAddx2 : Word → Word → Word := (fun a b => a + (b <<< 1))

/-- What ADDX4 computes (R116). -/
def aluAddx4 : Word → Word → Word := (fun a b => a + (b <<< 2))

/-- What ADDX8 computes (R116). -/
def aluAddx8 : Word → Word → Word := (fun a b => a + (b <<< 3))

/-- What SELZ computes (R116). -/
def aluSelz : Word → Word → Word → Word := (fun a b o => if a = 0 then b else o)

/-- What BFI computes (R117). -/
def aluBfi : Word → Word → Word → Word := bfi

/-- What CLZ computes (R116). -/
def aluClz : Word → Word := (fun a => BitVec.ofNat 64 (clz64 a))

/-- What CTZ computes (R116). -/
def aluCtz : Word → Word := (fun a => BitVec.ofNat 64 (ctzAux 64 a.toNat))

/-- What POPC computes (R116). -/
def aluPopc : Word → Word := (fun a => BitVec.ofNat 64 (popAux 64 a.toNat))

/-- What ADDI computes (R118). -/
def aluAddi (w : SIWord) : Word → Word := (fun a => a + sext7 w.imm)

/-- What ANDI computes (R118). -/
def aluAndi (w : SIWord) : Word → Word := (fun a => a &&& sext7 w.imm)

/-- What ORI computes (R118). -/
def aluOri (w : SIWord) : Word → Word := (fun a => a ||| sext7 w.imm)

/-- What XORI computes (R118). -/
def aluXori (w : SIWord) : Word → Word := (fun a => a ^^^ sext7 w.imm)

/-- What SHLI computes (R118). -/
def aluShli (w : SIWord) : Word → Word := (fun a => a <<< (w.imm.toNat % 64))

/-- What SHRI computes (R118). -/
def aluShri (w : SIWord) : Word → Word := (fun a => a >>> (w.imm.toNat % 64))

/-- What SRAI computes (R118). -/
def aluSrai (w : SIWord) : Word → Word := (fun a => a.sshiftRight (w.imm.toNat % 64))

/-- What SLTI computes (R118). -/
def aluSlti (w : SIWord) : Word → Word := (fun a => b2w (a.slt (sext7 w.imm)))

/-- What MOVI lands (R119). -/
def fxMovi (w : SLWord) : List (Nat × Eff) := [(1, .sland w.d.toNat (w.imm.signExtend 64) false)]

/-- What MOVSH lands from d_old (R119). -/
def fxMovsh (w : SLWord) (o : Lanes × LMask) : List (Nat × Eff) :=
  fxA 1 (fun v => (v <<< 13) ||| w.imm.setWidth 64) w.d.toNat o

/-- ADD (R116). Adds a and b modulo 2^64 and lands the sum in d after 1 cycle. -/
def execAdd (w : SRWord) (s : State) : Out :=
  opAB (.add w) w 1 aluAdd s

/-- SUB (R116). Subtracts b from a modulo 2^64 and lands the result in d after 1 cycle. -/
def execSub (w : SRWord) (s : State) : Out :=
  opAB (.sub w) w 1 aluSub s

/-- MUL (R116). Lands bits [63:0] of a × b in d after 3 cycles. -/
def execMul (w : SRWord) (s : State) : Out :=
  opAB (.mul w) w 3 aluMul s

/-- MULH (R116). Lands bits [127:64] of the signed product a × b in d after 3 cycles. -/
def execMulh (w : SRWord) (s : State) : Out :=
  opAB (.mulh w) w 3 aluMulh s

/-- MULHU (R116). Lands bits [127:64] of the unsigned product a × b in d after 3 cycles. -/
def execMulhu (w : SRWord) (s : State) : Out :=
  opAB (.mulhu w) w 3 aluMulhu s

/-- DIV (R116). Lands the signed quotient of a by b, truncated towards zero, after 24 cycles; division by zero gives all ones. -/
def execDiv (w : SRWord) (s : State) : Out :=
  opAB (.div w) w 24 aluDiv s

/-- DIVU (R116). Lands the unsigned quotient of a by b after 24 cycles; division by zero gives all ones. -/
def execDivu (w : SRWord) (s : State) : Out :=
  opAB (.divu w) w 24 aluDivu s

/-- REM (R116). Lands the signed remainder of a by b after 24 cycles. -/
def execRem (w : SRWord) (s : State) : Out :=
  opAB (.rem w) w 24 aluRem s

/-- REMU (R116). Lands the unsigned remainder of a by b after 24 cycles. -/
def execRemu (w : SRWord) (s : State) : Out :=
  opAB (.remu w) w 24 aluRemu s

/-- AND (R116). Lands a AND b in d. -/
def execAndR (w : SRWord) (s : State) : Out :=
  opAB (.andR w) w 1 aluAndR s

/-- OR (R116). Lands a OR b in d. -/
def execOrR (w : SRWord) (s : State) : Out :=
  opAB (.orR w) w 1 aluOrR s

/-- XOR (R116). Lands a XOR b in d. -/
def execXorR (w : SRWord) (s : State) : Out :=
  opAB (.xorR w) w 1 aluXorR s

/-- ANDN (R116). Lands a AND NOT b in d. -/
def execAndn (w : SRWord) (s : State) : Out :=
  opAB (.andn w) w 1 aluAndn s

/-- SHL (R116). Lands a shifted left by b[5:0] in d. -/
def execShl (w : SRWord) (s : State) : Out :=
  opAB (.shl w) w 1 aluShl s

/-- SHR (R116). Lands a shifted right logically by b[5:0] in d. -/
def execShr (w : SRWord) (s : State) : Out :=
  opAB (.shr w) w 1 aluShr s

/-- SRA (R116). Lands a shifted right arithmetically by b[5:0] in d. -/
def execSra (w : SRWord) (s : State) : Out :=
  opAB (.sra w) w 1 aluSra s

/-- MIN (R116). Lands the signed smaller of a and b in d. -/
def execMin (w : SRWord) (s : State) : Out :=
  opAB (.min w) w 1 aluMin s

/-- MAX (R116). Lands the signed larger of a and b in d. -/
def execMax (w : SRWord) (s : State) : Out :=
  opAB (.max w) w 1 aluMax s

/-- MINU (R116). Lands the unsigned smaller of a and b in d. -/
def execMinu (w : SRWord) (s : State) : Out :=
  opAB (.minu w) w 1 aluMinu s

/-- MAXU (R116). Lands the unsigned larger of a and b in d. -/
def execMaxu (w : SRWord) (s : State) : Out :=
  opAB (.maxu w) w 1 aluMaxu s

/-- SLT (R116). Lands 1 if a < b signed, else 0. -/
def execSlt (w : SRWord) (s : State) : Out :=
  opAB (.slt w) w 1 aluSlt s

/-- SLTU (R116). Lands 1 if a < b unsigned, else 0. -/
def execSltu (w : SRWord) (s : State) : Out :=
  opAB (.sltu w) w 1 aluSltu s

/-- SEQ (R116). Lands 1 if a = b, else 0. -/
def execSeq (w : SRWord) (s : State) : Out :=
  opAB (.seq w) w 1 aluSeq s

/-- SNE (R116). Lands 1 if a ≠ b, else 0. -/
def execSne (w : SRWord) (s : State) : Out :=
  opAB (.sne w) w 1 aluSne s

/-- SELZ (R116). Lands b if a is zero, otherwise the old value of d. -/
def execSelz (w : SRWord) (s : State) : Out :=
  opABD (.selz w) w 1 aluSelz s

/-- CLZ (R116). Lands the number of leading zero bits of a. -/
def execClz (w : SRWord) (s : State) : Out :=
  opA (.clz w) w 1 aluClz s

/-- CTZ (R116). Lands the number of trailing zero bits of a. -/
def execCtz (w : SRWord) (s : State) : Out :=
  opA (.ctz w) w 1 aluCtz s

/-- POPC (R116). Lands the number of one bits of a. -/
def execPopc (w : SRWord) (s : State) : Out :=
  opA (.popc w) w 1 aluPopc s

/-- BFX (R117). Extracts a bit field of a described by b, optionally sign-extended, into d. -/
def execBfx (w : SRWord) (s : State) : Out :=
  opAB (.bfx w) w 1 aluBfx s

/-- BFI (R117). Inserts a into a bit field of the old d described by b. -/
def execBfi (w : SRWord) (s : State) : Out :=
  opABD (.bfi w) w 1 aluBfi s

/-- ADDX2 (R116). Lands a + (b << 1) in d. -/
def execAddx2 (w : SRWord) (s : State) : Out :=
  opAB (.addx2 w) w 1 aluAddx2 s

/-- ADDX4 (R116). Lands a + (b << 2) in d. -/
def execAddx4 (w : SRWord) (s : State) : Out :=
  opAB (.addx4 w) w 1 aluAddx4 s

/-- ADDX8 (R116). Lands a + (b << 3) in d. -/
def execAddx8 (w : SRWord) (s : State) : Out :=
  opAB (.addx8 w) w 1 aluAddx8 s

/-- ADDI (R118). Lands a plus the sign-extended 7-bit immediate in d. -/
def execAddi (w : SIWord) (s : State) : Out :=
  opImm (.addi w) w (aluAddi w) s

/-- ANDI (R118). Lands a AND the sign-extended immediate in d. -/
def execAndi (w : SIWord) (s : State) : Out :=
  opImm (.andi w) w (aluAndi w) s

/-- ORI (R118). Lands a OR the sign-extended immediate in d. -/
def execOri (w : SIWord) (s : State) : Out :=
  opImm (.ori w) w (aluOri w) s

/-- XORI (R118). Lands a XOR the sign-extended immediate in d. -/
def execXori (w : SIWord) (s : State) : Out :=
  opImm (.xori w) w (aluXori w) s

/-- SHLI (R118). Lands a shifted left by an immediate amount in d. -/
def execShli (w : SIWord) (s : State) : Out :=
  opImm (.shli w) w (aluShli w) s

/-- SHRI (R118). Lands a shifted right logically by an immediate amount in d. -/
def execShri (w : SIWord) (s : State) : Out :=
  opImm (.shri w) w (aluShri w) s

/-- SRAI (R118). Lands a shifted right arithmetically by an immediate amount in d. -/
def execSrai (w : SIWord) (s : State) : Out :=
  opImm (.srai w) w (aluSrai w) s

/-- SLTI (R118). Lands 1 if a is below the signed immediate, else 0. -/
def execSlti (w : SIWord) (s : State) : Out :=
  opImm (.slti w) w (aluSlti w) s

/-- MOVI (R119). Lands the sign-extended 13-bit immediate in d. -/
def execMovi (w : SLWord) (s : State) : Out :=
  let h := hdS (.movi w) w.idle (some 1)
  issueWord h noPre (fun _ => refS w.d.toNat)
    (fun cx s => landScalar h cx s w.d.toNat capNone capNone capNone (fxMovi w)) s

/-- MOVSH (R119). Shifts the old d left by 13 and ORs in the 13-bit immediate. -/
def execMovsh (w : SLWord) (s : State) : Out :=
  let h := hdS (.movsh w) w.idle (some 1)
  issueWord h noPre (fun _ => refS w.d.toNat)
    (fun cx s =>
      let o := capS (readS (s.core s.cur) cx w.d.toNat)
      landScalar h cx s w.d.toNat capNone capNone o (fxMovsh w o)) s

end Sys2Proof.Machine
end

