-- ==== Sys2Proof/Machine/ScalarMem.lean ====
section
/-! DEFINITION. Scratchpad loads and stores, scalar floating point and the CSR words (R139 to R154). -/
namespace Sys2Proof.Machine

/-- Sign- or zero-extends the low `n` bytes to 64 bits (R139). -/
def extendTo (n : Nat) (sg : Bool) (v : Nat) : Word :=
  if sg && bits v (8 * n - 1) 1 = 1 then BitVec.ofInt 64 ((v : Int) - 2 ^ (8 * n)) else BitVec.ofNat 64 v

/-- What a load lands from the bytes it read, which stand in operand a (R140, R358). -/
def fxLds (n : Nat) (sg : Bool) (d : Nat) (a : Lanes × LMask) : List (Nat × Eff) :=
  [(4, .sland d (extendTo n sg ((uncapS a).1.toNat % 2 ^ (8 * n))) (uncapS a).2)]

/-- The effective address of LDS and STS (R139). -/
def spadEa (a : Word) (imm : BitVec 7) (n : Nat) : Word := a + imm.signExtend 64 * BitVec.ofNat 64 n

/-- LDS of `n` bytes (R140). -/
def opLds (i : Instr) (w : SIWord) (n : Nat) (sg : Bool) (s : State) : Out :=
  let h := hdS i w.idle (some 4)
  issueWord h noPre (fun _ => refS w.d.toNat ++ refS w.a.toNat)
    (fun cx s =>
      let c := s.core s.cur
      let a := readS c cx w.a.toNat
      let ea := spadEa a.1 w.imm n
      if a.2 then .trap 0x08 (psnTval w.a.toNat)
      else if 0x200000 ≤ ea.toNat then .trap 0x06 ea
      else if ea.toNat % n ≠ 0 then .trap 0x05 ea
      else match emptyCheck s s.cur (granRange ea.toNat n) with
      | some r => r
      | none =>
        let r := s.spRead s.cur ea.toNat n
        let x := capS (BitVec.ofNat 64 (leVal r.1), r.2.1)
        .ok (r.2.2.addOp s.cur cx 0 ⟨0, 0⟩ x capNone capNone h.len (fxLds n sg w.d.toNat x)) (.seq 0)) s

/-- What a store writes: the low `n` bytes of operand a at the address in operand b (R141, R358). -/
def fxSts (n : Nat) (a b : Lanes × LMask) : List (Nat × Eff) :=
  [(2, .spw (fullBytes (uncapS b).1.toNat (leBytes n (uncapS a).1.toNat)))]

/-- STS of `n` bytes (R141). -/
def opSts (i : Instr) (w : SIWord) (n : Nat) (s : State) : Out :=
  let h := hdS i w.idle none
  issueWord h noPre (fun _ => refS w.d.toNat ++ refS w.a.toNat)
    (fun cx s =>
      let c := s.core s.cur
      let a := readS c cx w.a.toNat
      let d := readS c cx w.d.toNat
      let ea := spadEa a.1 w.imm n
      if a.2 then .trap 0x08 (psnTval w.a.toNat)
      else if 0x200000 ≤ ea.toNat then .trap 0x06 ea
      else if ea.toNat % n ≠ 0 then .trap 0x05 ea
      else if inRanges (s.protRanges s.cur) ea.toNat then .trap 0x0A ea
      else if d.2 then .trap 0x08 (psnTval w.d.toNat)
      else match emptyCheck s s.cur (granRange ea.toNat n) with
      | some r => r
      | none => match writeCheck s s.cur [(ea.toNat, n)] with
        | some r => r
        | none =>
          let x := capS (d.1, false)
          let y := capS (ea, false)
          .ok ((s.updCore s.cur (fun c => c.markW (granRange ea.toNat n))).addOp s.cur cx 0 ⟨0, 0⟩ x y capNone h.len
            (fxSts n x y)) (.seq 0)) s

/-- LDS_B (R140). Loads a sign-extended byte of own scratchpad into d after 4 cycles. -/
def execLdsB (w : SIWord) (s : State) : Out :=
  opLds (.ldsB w) w 1 true s

/-- LDS_BU (R140). Loads a zero-extended byte of own scratchpad into d. -/
def execLdsBu (w : SIWord) (s : State) : Out :=
  opLds (.ldsBu w) w 1 false s

/-- LDS_H (R140). Loads a sign-extended halfword of own scratchpad into d. -/
def execLdsH (w : SIWord) (s : State) : Out :=
  opLds (.ldsH w) w 2 true s

/-- LDS_HU (R140). Loads a zero-extended halfword of own scratchpad into d. -/
def execLdsHu (w : SIWord) (s : State) : Out :=
  opLds (.ldsHu w) w 2 false s

/-- LDS_W (R140). Loads a sign-extended word of own scratchpad into d. -/
def execLdsW (w : SIWord) (s : State) : Out :=
  opLds (.ldsW w) w 4 true s

/-- LDS_WU (R140). Loads a zero-extended word of own scratchpad into d. -/
def execLdsWu (w : SIWord) (s : State) : Out :=
  opLds (.ldsWu w) w 4 false s

/-- LDS_D (R140). Loads a doubleword of own scratchpad into d. -/
def execLdsD (w : SIWord) (s : State) : Out :=
  opLds (.ldsD w) w 8 false s

/-- STS_B (R141). Stores the low byte of d to own scratchpad at issue + 2. -/
def execStsB (w : SIWord) (s : State) : Out :=
  opSts (.stsB w) w 1 s

/-- STS_H (R141). Stores the low halfword of d to own scratchpad. -/
def execStsH (w : SIWord) (s : State) : Out :=
  opSts (.stsH w) w 2 s

/-- STS_W (R141). Stores the low word of d to own scratchpad. -/
def execStsW (w : SIWord) (s : State) : Out :=
  opSts (.stsW w) w 4 s

/-- STS_D (R141). Stores all 64 bits of d to own scratchpad. -/
def execStsD (w : SIWord) (s : State) : Out :=
  opSts (.stsD w) w 8 s

/-! ### Scalar floating point (R145 to R149) -/

/-- The pattern of a scalar operand in a format of `n` bits: higher bits are ignored (R145). -/
def pat (n : Nat) (a : Lanes × LMask) : Nat := (uncapS a).1.toNat % 2 ^ n

/-- A scalar FP result, zero-extended, with its flags in the landing cycle (R71, R145, R146). -/
def fxFp (lat d : Nat) (psn : Bool) (r : Nat × Flags) : List (Nat × Eff) :=
  (lat, .sland d (BitVec.ofNat 64 r.1) psn) :: (if r.2 = 0 then [] else [(lat, .flags r.2)])

/-- The poison of a result read from captures (R26). -/
def psnOf (l : List (Lanes × LMask)) : Bool := l.any (fun x => (uncapS x).2)

/-- A floating-point word with operands a, b and d_old: `fx` computes its effects from the captures (R146). -/
def opFp (i : Instr) (w : SRWord) (lat : Nat) (useB useD : Bool)
    (fx : Ctx → RCtx → Lanes × LMask → Lanes × LMask → Lanes × LMask → List (Nat × Eff)) (s : State) : Out :=
  let h := hdSR i w (some lat)
  let z := w.z == 1
  issueWord h noPre
    (fun cx => refS (rotS cx z w.d.toNat) ++ refS (rotS cx z w.a.toNat) ++ (if useB then refS (rotS cx z w.b.toNat) else []))
    (fun cx s =>
      let c := s.core s.cur
      let a := capS (readS c cx (rotS cx z w.a.toNat))
      let b := if useB then capS (readS c cx (rotS cx z w.b.toNat)) else capNone
      let o := if useD then capS (readS c cx (rotS cx z w.d.toNat)) else capNone
      .ok (s.addOp s.cur cx 0 ⟨0, 0⟩ a b o h.len (fx cx (c.rctx cx) a b o)) (.seq 0)) s

/-- FADD, FSUB, FMUL, FDIV: a rounded operation of two operands; `sh` is the check of their shade unit on the result (R328). The second
evaluation of FDIV is the first one over again. -/
def fxFp2 (f : Fmt) (lat : Nat) (op : Fmt → Mode → FV → FV → Nat × Flags) (sh : FV → FV → FV → Bool) (w : SRWord) (cx : Ctx) (rc : RCtx)
    (a b : Lanes × LMask) : List (Nat × Eff) :=
  let x := FV.ofBits f (pat f.width a)
  let y := FV.ofBits f (pat f.width b)
  let r := op f (rc.mode 6 0 0) x y
  fxFp lat (rotS cx (w.z == 1) w.d.toNat) (psnOf [a, b]) r ++ shadeEff lat 0 cx (sh (FV.ofBits f r.1) x y)

/-- No shade unit checks the result against its operands. -/
def noShade : FV → FV → FV → Bool := fun _ _ _ => true

/-- The shade check of a difference (R328, R329). -/
def shadeSub (f : Fmt) (x a b : FV) : Bool := shadeAdd f x a b.neg

/-- round(a − b) (R146). -/
def fSub (f : Fmt) (md : Mode) (a b : FV) : Nat × Flags := fAdd f md a b.neg

/-- FFMA (R146); d_old is 0 when d is zero. -/
def fxFfma (f : Fmt) (lat : Nat) (w : SRWord) (cx : Ctx) (rc : RCtx) (a b o : Lanes × LMask) : List (Nat × Eff) :=
  let x := FV.ofBits f (pat f.width a)
  let y := FV.ofBits f (pat f.width b)
  let z := FV.ofBits f (pat f.width o)
  let r := fFma f (rc.mode 6 0 0) x y z
  fxFp lat (rotS cx (w.z == 1) w.d.toNat) (psnOf [a, b, o]) r ++ shadeEff lat 0 cx (shadeFma f (FV.ofBits f r.1) x y z)

/-- FSQRT (R146). -/
def fxFsqrt (f : Fmt) (lat : Nat) (w : SRWord) (cx : Ctx) (rc : RCtx) (a : Lanes × LMask) : List (Nat × Eff) :=
  fxFp lat (rotS cx (w.z == 1) w.d.toNat) (psnOf [a]) (fSqrt f (rc.mode 6 0 0) (FV.ofBits f (pat f.width a)))

/-- FMIN and FMAX (R147). -/
def fxFminmax (f : Fmt) (isMax : Bool) (w : SRWord) (cx : Ctx) (a b : Lanes × LMask) : List (Nat × Eff) :=
  fxFp 1 (rotS cx (w.z == 1) w.d.toNat) (psnOf [a, b]) (fMinMax f isMax (pat f.width a) (pat f.width b))

/-- FCMP (R147). -/
def fxFcmp (f : Fmt) (w : SRWord) (cx : Ctx) (a b : Lanes × LMask) : List (Nat × Eff) :=
  let r := fCmp f (pat f.width a) (pat f.width b)
  fxFp 1 (rotS cx (w.z == 1) w.d.toNat) (psnOf [a, b]) (intBits 64 r.1, r.2)

/-- FCLASS (R148). -/
def fxFclass (f : Fmt) (w : SRWord) (cx : Ctx) (a : Lanes × LMask) : List (Nat × Eff) :=
  fxFp 1 (rotS cx (w.z == 1) w.d.toNat) (psnOf [a]) (fClass f (pat f.width a), 0)

/-- FABS: the sign bit cleared (R146). -/
def fxFabs (f : Fmt) (w : SRWord) (cx : Ctx) (a : Lanes × LMask) : List (Nat × Eff) :=
  fxFp 1 (rotS cx (w.z == 1) w.d.toNat) (psnOf [a]) (pat f.width a % 2 ^ (f.width - 1), 0)

/-- FNEG: the sign bit inverted (R146). -/
def fxFneg (f : Fmt) (w : SRWord) (cx : Ctx) (a : Lanes × LMask) : List (Nat × Eff) :=
  fxFp 1 (rotS cx (w.z == 1) w.d.toNat) (psnOf [a]) ((pat f.width a + 2 ^ (f.width - 1)) % 2 ^ f.width, 0)

/-- The conversions of FCVT by b[3:0] (R149). -/
def fcvt (k : Nat) (md : Mode) (v : Nat) : Nat × Flags :=
  let s := v % 2 ^ 32
  let toI (src : Fmt) (x : Nat) (lo hi : Int) : Nat × Flags := let r := fToInt src md lo hi x; (intBits 64 r.1, r.2)
  let i64 : Int := (BitVec.ofNat 64 v).toInt
  let i32 : Int := (BitVec.ofNat 32 v).toInt
  match k with
  | 0 => fConvert fp32 fp64 md s
  | 1 => fConvert fp64 fp32 md v
  | 2 => toI fp32 s (-2 ^ 63) (2 ^ 63 - 1)
  | 3 => toI fp64 v (-2 ^ 63) (2 ^ 63 - 1)
  | 4 => fOfInt fp32 md i64
  | 5 => fOfInt fp64 md i64
  | 6 => toI fp32 s (-2 ^ 31) (2 ^ 31 - 1)
  | 7 => toI fp64 v (-2 ^ 31) (2 ^ 31 - 1)
  | 8 => fOfInt fp32 md i32
  | 9 => fOfInt fp64 md i32
  | 10 => toI fp64 v 0 (2 ^ 64 - 1)
  | 11 => fOfInt fp64 md v
  | 12 => fConvert fp32 bf16 md s
  | 13 => fConvert bf16 fp32 md (v % 2 ^ 16)
  | 14 => fConvert fp32 fp16 md s
  | _ => fConvert fp16 fp32 md (v % 2 ^ 16)

/-- FCVT (R149): b[4] selects RTZ in place of RMODE. -/
def fxFcvt (w : SRWord) (cx : Ctx) (rc : RCtx) (a : Lanes × LMask) : List (Nat × Eff) :=
  fxFp 3 (rotS cx (w.z == 1) w.d.toNat) (psnOf [a])
    (fcvt (w.b.toNat % 16) (if w.b.getLsbD 4 then ⟨1, 0⟩ else rc.mode 6 0 0) (uncapS a).1.toNat)

/-- FADD_S (R146). Adds two FP32 values, rounded in RMODE, landing after 4 cycles. -/
def execFaddS (w : SRWord) (s : State) : Out :=
  opFp (.faddS w) w 4 true false (fun cx rc a b _ => fxFp2 fp32 4 fAdd (shadeAdd fp32) w cx rc a b) s

/-- FSUB_S (R146). Subtracts two FP32 values, rounded in RMODE. -/
def execFsubS (w : SRWord) (s : State) : Out :=
  opFp (.fsubS w) w 4 true false (fun cx rc a b _ => fxFp2 fp32 4 fSub (shadeSub fp32) w cx rc a b) s

/-- FMUL_S (R146). Multiplies two FP32 values, rounded in RMODE. -/
def execFmulS (w : SRWord) (s : State) : Out :=
  opFp (.fmulS w) w 4 true false (fun cx rc a b _ => fxFp2 fp32 4 fMul (shadeMul fp32) w cx rc a b) s

/-- FFMA_S (R146). Computes a × b + old d in FP32 with one rounding. -/
def execFfmaS (w : SRWord) (s : State) : Out :=
  opFp (.ffmaS w) w 4 true true (fxFfma fp32 4 w) s

/-- FDIV_S (R146). Divides two FP32 values, landing after 12 cycles. -/
def execFdivS (w : SRWord) (s : State) : Out :=
  opFp (.fdivS w) w 12 true false (fun cx rc a b _ => fxFp2 fp32 12 fDiv noShade w cx rc a b) s

/-- FSQRT_S (R146). Computes the FP32 square root of a. -/
def execFsqrtS (w : SRWord) (s : State) : Out :=
  opFp (.fsqrtS w) w 12 false false (fun cx rc a _ _ => fxFsqrt fp32 12 w cx rc a) s

/-- FMIN_S (R147). Lands the lesser of two FP32 values, ordering −0 below +0. -/
def execFminS (w : SRWord) (s : State) : Out :=
  opFp (.fminS w) w 1 true false (fun cx _ a b _ => fxFminmax fp32 false w cx a b) s

/-- FMAX_S (R147). Lands the greater of two FP32 values. -/
def execFmaxS (w : SRWord) (s : State) : Out :=
  opFp (.fmaxS w) w 1 true false (fun cx _ a b _ => fxFminmax fp32 true w cx a b) s

/-- FCMP_S (R147). Lands −1, 0, 1 or 2 comparing two FP32 values. -/
def execFcmpS (w : SRWord) (s : State) : Out :=
  opFp (.fcmpS w) w 1 true false (fun cx _ a b _ => fxFcmp fp32 w cx a b) s

/-- FCLASS_S (R148). Lands the class mask of an FP32 value. -/
def execFclassS (w : SRWord) (s : State) : Out :=
  opFp (.fclassS w) w 1 false false (fun cx _ a _ _ => fxFclass fp32 w cx a) s

/-- FABS_S (R146). Lands a with its FP32 sign bit cleared. -/
def execFabsS (w : SRWord) (s : State) : Out :=
  opFp (.fabsS w) w 1 false false (fun cx _ a _ _ => fxFabs fp32 w cx a) s

/-- FNEG_S (R146). Lands a with its FP32 sign bit inverted. -/
def execFnegS (w : SRWord) (s : State) : Out :=
  opFp (.fnegS w) w 1 false false (fun cx _ a _ _ => fxFneg fp32 w cx a) s

/-- FADD_D (R146). Adds two FP64 values, landing after 6 cycles. -/
def execFaddD (w : SRWord) (s : State) : Out :=
  opFp (.faddD w) w 6 true false (fun cx rc a b _ => fxFp2 fp64 6 fAdd (shadeAdd fp64) w cx rc a b) s

/-- FSUB_D (R146). Subtracts two FP64 values. -/
def execFsubD (w : SRWord) (s : State) : Out :=
  opFp (.fsubD w) w 6 true false (fun cx rc a b _ => fxFp2 fp64 6 fSub (shadeSub fp64) w cx rc a b) s

/-- FMUL_D (R146). Multiplies two FP64 values. -/
def execFmulD (w : SRWord) (s : State) : Out :=
  opFp (.fmulD w) w 6 true false (fun cx rc a b _ => fxFp2 fp64 6 fMul (shadeMul fp64) w cx rc a b) s

/-- FFMA_D (R146). Computes a × b + old d in FP64 with one rounding. -/
def execFfmaD (w : SRWord) (s : State) : Out :=
  opFp (.ffmaD w) w 6 true true (fxFfma fp64 6 w) s

/-- FDIV_D (R146). Divides two FP64 values, landing after 20 cycles. -/
def execFdivD (w : SRWord) (s : State) : Out :=
  opFp (.fdivD w) w 20 true false (fun cx rc a b _ => fxFp2 fp64 20 fDiv noShade w cx rc a b) s

/-- FSQRT_D (R146). Computes the FP64 square root of a. -/
def execFsqrtD (w : SRWord) (s : State) : Out :=
  opFp (.fsqrtD w) w 20 false false (fun cx rc a _ _ => fxFsqrt fp64 20 w cx rc a) s

/-- FMIN_D (R147). Lands the lesser of two FP64 values. -/
def execFminD (w : SRWord) (s : State) : Out :=
  opFp (.fminD w) w 1 true false (fun cx _ a b _ => fxFminmax fp64 false w cx a b) s

/-- FMAX_D (R147). Lands the greater of two FP64 values. -/
def execFmaxD (w : SRWord) (s : State) : Out :=
  opFp (.fmaxD w) w 1 true false (fun cx _ a b _ => fxFminmax fp64 true w cx a b) s

/-- FCMP_D (R147). Lands −1, 0, 1 or 2 comparing two FP64 values. -/
def execFcmpD (w : SRWord) (s : State) : Out :=
  opFp (.fcmpD w) w 1 true false (fun cx _ a b _ => fxFcmp fp64 w cx a b) s

/-- FCLASS_D (R148). Lands the class mask of an FP64 value. -/
def execFclassD (w : SRWord) (s : State) : Out :=
  opFp (.fclassD w) w 1 false false (fun cx _ a _ _ => fxFclass fp64 w cx a) s

/-- FABS_D (R146). Lands a with its FP64 sign bit cleared. -/
def execFabsD (w : SRWord) (s : State) : Out :=
  opFp (.fabsD w) w 1 false false (fun cx _ a _ _ => fxFabs fp64 w cx a) s

/-- FNEG_D (R146). Lands a with its FP64 sign bit inverted. -/
def execFnegD (w : SRWord) (s : State) : Out :=
  opFp (.fnegD w) w 1 false false (fun cx _ a _ _ => fxFneg fp64 w cx a) s

/-- FCVT (R149). Converts a between the scalar formats selected by b, landing after 3 cycles. -/
def execFcvt (w : SRWord) (s : State) : Out :=
  opFp (.fcvt w) w 3 false false (fun cx rc a _ _ => fxFcvt w cx rc a) s

/-! ### The CSRs (R150 to R154) -/

/-- The value a CSR reads (R150, R151). DESIGN CHOICE: log 54. LEAVE keeps the end of the grant that was asked for last, from the answer on and
until the next ASK. -/
def csrRead (c : Core) (n : Nat) : Word :=
  let r := c.arch.csr
  match n with
  | 0x000 => r.status
  | 0x001 => r.rmode
  | 0x002 => r.tvec
  | 0x003 => r.tsave
  | 0x004 => c.tcause
  | 0x005 => c.tval
  | 0x006 => r.tpc
  | 0x020 => c.slip
  | 0x030 => BitVec.ofNat 64 c.opn.rcnt
  | 0x031 => r.rlim
  | 0x032 => BitVec.ofNat 64 c.cerr
  | 0x040 => r.mtol
  | 0x041 => r.seed
  | 0x050 => r.dqbase
  | 0x051 => r.dqlim
  | 0x052 => r.dqhead
  | 0x053 => r.dqtail
  | 0x070 => match c.asked with | (_, _, e) :: _ => BitVec.ofNat 64 e | [] => 0
  | _ => match c.step with
    | none => 0
    | some i =>
      if n = 0x010 then BitVec.ofNat 64 i.sbase else if n = 0x011 then BitVec.ofNat 64 i.slim
      else if n = 0x021 then BitVec.ofNat 64 i.dline else if n = 0x060 then BitVec.ofNat 64 i.codebase
      else if n = 0x080 then i.stepid else if n = 0x081 then BitVec.ofNat 64 i.part
      else if n = 0x082 then BitVec.ofNat 64 i.dtab.mapid else 0

/-- A write would place a value that R152 marks illegal (R150, step 3). -/
def csrIllegal (n : Nat) (v : Word) : Bool :=
  if n = 0x001 then 6 ≤ v.toNat % 8
  else if n = 0x031 then v.toNat % 8 = 0
  else if n = 0x040 then
    let a := v.toNat / 2 ^ 32
    match FV.ofBits fp32 a with
    | .fin neg m _ => neg && m ≠ 0
    | _ => true
  else false

/-- What CSRR lands: the value read, in operand a (R150). -/
def fxCsrr (w : SCWord) (a : Lanes × LMask) : List (Nat × Eff) := fxA 1 (fun v => v) w.r.toNat a

/-- CSRR (R150). Its STACK check for s31 is made (R115). -/
def execCsrr (w : SCWord) (s : State) : Out :=
  let h := hdS (.csrr w) w.idle (some 1)
  issueWord h noPre (fun _ => refS w.r.toNat)
    (fun cx s =>
      let a := capS (csrRead (s.core s.cur) w.csr.toNat, false)
      landScalar h cx s w.r.toNat a capNone capNone (fxCsrr w a)) s

/-- What a CSR write does, from operand a and the CSR's value at issue in operand b (R150, R154). -/
def fxCsrWrite (f : Word → Word → Word) (w : SCWord) (a b : Lanes × LMask) : List (Nat × Eff) :=
  [(1, .csrw w.csr.toNat (f (uncapS b).1 (uncapS a).1))]

/-- CSRW, CSRS and CSRC (R150): `f old a` is the value written. -/
def opCsrWrite (i : Instr) (w : SCWord) (f : Word → Word → Word) (s : State) : Out :=
  let h := hdS i w.idle none
  issueWord h noPre (fun _ => refS w.r.toNat)
    (fun cx s =>
      let c := s.core s.cur
      let a := readS c cx w.r.toNat
      let old := csrRead c w.csr.toNat
      if a.2 then .trap 0x08 (psnTval w.r.toNat)
      else if csrIllegal w.csr.toNat (f old a.1) then .trap 0x02 (c.fieldTval 13)
      else .ok (s.addOp s.cur cx 0 ⟨0, 0⟩ (capS a) (capS (old, false)) capNone h.len
        (fxCsrWrite f w (capS a) (capS (old, false)))) (.seq 0)) s

/-- CSRW (R150). Writes a into a CSR at issue + 1. -/
def execCsrw (w : SCWord) (s : State) : Out :=
  opCsrWrite (.csrw w) w (fun _ a => a) s

/-- CSRS (R150). ORs a into a CSR at issue + 1. -/
def execCsrs (w : SCWord) (s : State) : Out :=
  opCsrWrite (.csrs w) w (fun o a => o ||| a) s

/-- CSRC (R150). Clears the bits of a in a CSR at issue + 1. -/
def execCsrc (w : SCWord) (s : State) : Out :=
  opCsrWrite (.csrc w) w (fun o a => o &&& ~~~a) s

end Sys2Proof.Machine
end

