-- ==== Sys2Proof/Machine/Walker.lean ====
section
/-! DEFINITION. Physical windows, homes, page walks, TLBs and translation (R266 to R276, R387 to R389, R434, R435). -/
namespace Sys2Proof.Machine

/-- The window of a physical address (R276). -/
def windowOf (pa : Nat) : Nat := bits pa 45 3

/-- The present size of a window (R276, R391, R435). -/
def State.present (s : State) (w : Nat) : Nat :=
  if w = 0 then s.sprtop else if w = 1 then s.dtop0 else if w = 2 then s.dtop1 else if w = 4 then s.hostsz else 0

/-- The spread memory of one die under a mode (R387). -/
def spreadOf (mode : Nat) : Nat := if mode = 0 then 0x2400000000 else if mode = 1 then 0x1200000000 else 0

/-- The die that is home to a line of HBM (R388, R389); none for the host window. -/
def homeDie (pa : Nat) : Option Nat :=
  let x := pa % 2 ^ 45
  let w := windowOf pa
  if w = 0 then some ((bits x 12 1 + bits x 15 1 + bits x 18 1 + bits x 21 1 + bits x 24 1 + bits x 27 1) % 2)
  else if w = 1 then some 0 else if w = 2 then some 1 else none

/-- The die offset of a line of HBM (R388, R389). -/
def dieOffset (mode pa : Nat) : Nat :=
  let x := pa % 2 ^ 45
  if windowOf pa = 0 then x / 2 ^ 13 * 2 ^ 12 + x % 2 ^ 12 else spreadOf mode + x

/-- The home of a byte is lost with its die (R343). -/
def State.homeLost (s : State) (pa : Nat) : Bool :=
  match homeDie pa with
  | some d => s.deadDies.contains d
  | none => false

/-! ### Errors in memory (R265, R267, R343, R347, R349 to R352) -/

/-- A row enters an amber list of at most `cap` rows (R351). -/
def amberEnter (cap row : Nat) (l : List Amber) : List Amber :=
  if l.any (fun a => a.addr = row) then l.map (fun a => if a.addr = row then { a with clean := 0 } else a)
  else if l.length < cap then l ++ [⟨row, 0⟩]
  else
    let top := l.foldl (fun m a => max m a.clean) 0
    let low := (l.filter (fun a => a.clean = top)).foldl (fun (m : Option Nat) a => match m with
      | none => some a.addr
      | some x => some (min x a.addr)) none
    l.filter (fun a => some a.addr != low) ++ [⟨row, 0⟩]

/-- The rows that the amber list of a unit holds: units 0 to 7 are HBM stacks, 8 and 9 the memory-side caches (R351). -/
def amberCap (u : Nat) : Nat := if u < 8 then 4096 else 1024

/-- The error of an 8-byte word lies in the memory-side cache of its home, and not in HBM. -/
def State.inCache (s : State) (w : Nat) : Bool := s.cacheErr.contains w

/-- The unit that holds the error of an 8-byte word, and the row there: in a cache one of 65,536 rows, a free value of the word; in HBM
each stack of a die holds a quarter of the die's offsets. DESIGN CHOICE: log 7. -/
def State.unitRow (s : State) (w : Nat) : Option (Nat × Nat) :=
  (homeDie (8 * w)).map (fun d =>
    let m := dieOffset s.mmode (8 * w)
    if s.inCache w then (8 + d, 512 * (Config.cacheRow w % 65536)) else (4 * d + m / 0x900000000 % 4, m / 1024 * 1024))

/-- The row that holds an 8-byte word in error enters the amber list of its unit (R351). -/
def State.amber (s : State) (w : Nat) : State :=
  match s.unitRow w with
  | none => s
  | some (u, row) =>
    let x := (mget s.scrubs u).getD {}
    { s with scrubs := mput s.scrubs u { x with amber := amberEnter (amberCap u) row x.amber } }

/-- The words of a range of memory that hold an error of a list. -/
def wordsIn (l : List Nat) (pa n : Nat) : List Nat := l.filter (fun w => pa < 8 * w + 8 && 8 * w < pa + n)

/-- What the error block says of an error in a word of memory (R352). -/
def State.memReport (s : State) (w : Nat) : Report :=
  { engine := if s.inCache w then 6 else 7, level := 1, addrk := 2, addr := 8 * w }

/-- Adds an entry to the management event log. -/
def State.logEvent (s : State) (e : LogEntry) : State := { s with evlog := s.evlog ++ [e] }

/-- For whom an access to memory is made: core, launch and step; none where it belongs to no launch. -/
abbrev Payer := Option (Nat × Nat × Nat)

/-- A step of a core pays for what it accesses. -/
def State.payer (s : State) (n : Nat) : Payer := ((s.core n).step).map (fun i => (n, i.launch, i.stp))

/-- The control die's own accesses for a launch, which concern no step (R244). -/
def launchPayer (l : Nat) : Payer := some (256, l, 0xFFFFFFFF)

/-- An error found for a step that may have left its core already is noted on its step, else on its launch (R343, R344, R352). -/
def State.noteFor (s : State) (p : Payer) (r : Report) : State :=
  match p with
  | none => s
  | some (n, launch, stp) =>
    let here : Bool := match (s.core n).step with | some i => i.launch = launch && i.stp = stp | none => false
    let s := match s.launch? launch with | some l => s.captureErr l.part { r with core := n } | none => s
    if here then s.updCore n (fun c => { c with step := c.step.map (fun i => i.note { r with step := i.stp, time := c.dt, core := n }) })
    else s.updLaunch launch (fun l => { l with report := l.report.worse { r with step := stp, time := s.now, core := n } })

/-- The control die counts a corrected error: for the launch that it concerns, else in the event log (R347, R349, R354). -/
def State.countFix (s : State) (p : Payer) (r : Report) : State :=
  match p with
  | none => s.logEvent ⟨1, 128 * ((homeDie r.addr).getD 0), r.engine, r.addr, s.now, 0, 0⟩
  | some (_, launch, _) =>
    (s.updLaunch launch (fun l => { l with ncorr := l.ncorr + 1 })).noteFor p { r with cls := 1 }

/-- A read of a range corrects its single-bit errors and writes them back; their rows are watched (R267, R347, R351). -/
def State.memFix (s : State) (p : Payer) (pa n : Nat) : State :=
  let ws := wordsIn s.memCe pa n
  if ws.isEmpty then s else
  let s := ws.foldl (fun s w => (s.countFix p (s.memReport w)).amber w) s
  { s with memCe := s.memCe.filter (fun w => !ws.contains w), cacheErr := s.cacheErr.filter (fun w => !ws.contains w) }

/-- An uncorrectable word that an access finds: reported as DATA_LOSS by whom it concerns, else in the event log; its row is watched (R267, R344,
R349, R351). -/
def State.memBad (s : State) (p : Payer) (w : Nat) : State :=
  let r := s.memReport w
  (match p with
   | none => s.logEvent ⟨1, 128 * ((homeDie r.addr).getD 0), r.engine, r.addr, s.now, 0, 0⟩
   | some _ => s.noteFor p { r with cls := 0x20 }).amber w

/-- An access to a home that is lost with its die reports DATA_LOSS (R343). -/
def State.homeGone (s : State) (p : Payer) (pa : Nat) : State :=
  s.noteFor p { cls := 0x20, engine := 7, level := 1, addrk := 2, addr := pa }

/-! ### Walks (R268 to R270, R434) -/

/-- How a walk ends (R270, R434). -/
inductive WalkRes where
  /-- a leaf: frame, size in bytes, low bits of the leaf, address of the entry, level -/
  | leaf (frame size : Nat) (low : BitVec 12) (entry level : Nat)
  /-- PAGE_FAULT with reason and level -/
  | fault (reason level : Nat)
  /-- an uncorrectable error in the entry at this address -/
  | bad (pa : Nat)
  deriving DecidableEq, Repr

/-- The page size of a leaf at a level (R268). -/
def pageSize (level : Nat) : Nat := if level = 0 then 0x10000 else if level = 1 then 0x200000 else 0x40000000

/-- A range lies wholly in the present part of a window that may hold it (R270). -/
def State.presentOk (s : State) (tables : Bool) (pa n : Nat) : Bool :=
  let w := windowOf pa
  (if tables then w ≤ 2 else w ≤ 2 || w = 4) && pa % 2 ^ 45 + n ≤ s.present w

/-- An entry is malformed at a level (R270). -/
def entryBad (e level : Nat) : Bool :=
  let ptr := bits e 1 3 = 0
  let frame := bits e 12 40 * 2 ^ 12
  bits e 52 12 ≠ 0 || bits e 48 4 ≠ 0 || bits e 11 1 ≠ 0 || bits e 7 2 ≠ 0 ||
  (bits e 2 1 = 1 && bits e 1 1 = 0) ||
  (if ptr then level = 0 || bits e 4 3 ≠ 0 || bits e 9 2 ≠ 0
   else level = 3 || bits e 9 2 ≠ level || frame % pageSize level ≠ 0)

/-- The index of a virtual address at a level (R268). -/
def walkIndex (va level : Nat) : Nat :=
  if level = 3 then bits va 39 9 else if level = 2 then bits va 30 9 else if level = 1 then bits va 21 9 else bits va 16 5

/-- What a walk makes of its entry of level `k` in the table at `tab`: a fault, a leaf, or, by `next`, a walk from the next table (R268 to
R270). `old` gives the pointers that a walker takes from its cache and not from memory (R274). -/
def State.walkEntry (s : State) (old : Nat → Option Nat) (va tab k : Nat) (next : Nat → WalkRes) : WalkRes :=
  let ea := tab + 8 * walkIndex va k
  let e := (old ea).getD (Memory.val s.mem ea 8)
  let frame := bits e 12 36 * 2 ^ 12
  if (old ea).isNone && (s.memUe.contains (ea / 8) || s.homeLost ea) then .bad ea
  else if e % 2 = 0 then .fault 0 k
  else if entryBad e k then .fault 1 k
  else if bits e 1 3 ≠ 0 then
    if windowOf frame = 6 || s.presentOk false frame (pageSize k) then .leaf frame (pageSize k) (BitVec.ofNat 12 e) ea k
    else .fault 2 k
  else if !s.presentOk true frame 4096 then .fault 2 k
  else next frame

/-- A walk from the table at `tab`, going down from level `k` (R268 to R270). An entry of level 0 that points to a table is malformed. -/
def State.walkFrom (s : State) (old : Nat → Option Nat) (va tab : Nat) (k : Nat) : WalkRes :=
  match k with
  | 0 => s.walkEntry old va tab 0 (fun _ => .fault 1 0)
  | k + 1 => s.walkEntry old va tab (k + 1) (fun frame => s.walkFrom old va frame k)

/-- The root table of a partition. -/
def State.rootOf (s : State) (p : Nat) : Option Nat := (s.part? p).bind (·.root)

/-- The walk of a virtual address in a partition (R268), with pointers from a walker's cache. A partition with no root has nothing mapped. -/
def State.walkWith (s : State) (old : Nat → Option Nat) (p va : Nat) : WalkRes :=
  match s.rootOf p with
  | some r => s.walkFrom old va r 3
  | none => .fault 0 3

/-- The walk of a virtual address in a partition, all of it in memory. -/
def State.walk (s : State) (p va : Nat) : WalkRes := s.walkWith (fun _ => none) p va

/-- The entries that a walk from the table at `tab` reads: level, address, and value. One that is uncorrectable ends it, and is none of them. -/
def State.pathFrom (s : State) (old : Nat → Option Nat) (va tab : Nat) (k : Nat) : List (Nat × Nat × Nat) :=
  let ea := tab + 8 * walkIndex va k
  let e := (old ea).getD (Memory.val s.mem ea 8)
  if (old ea).isNone && (s.memUe.contains (ea / 8) || s.homeLost ea) then [] else
  (k, ea, e) :: (match k with
    | 0 => []
    | k + 1 =>
      let frame := bits e 12 36 * 2 ^ 12
      if e % 2 = 1 && !entryBad e (k + 1) && bits e 1 3 = 0 && s.presentOk true frame 4096 then s.pathFrom old va frame k else [])

/-- The entries that a walk reads. -/
def State.walkPath (s : State) (old : Nat → Option Nat) (p va : Nat) : List (Nat × Nat × Nat) :=
  match s.rootOf p with
  | some r => s.pathFrom old va r 3
  | none => []

/-- The reads of a walk's entries: single-bit errors are corrected, written back and counted (R267, R434). -/
def State.fixPath (s : State) (who : Payer) (l : List (Nat × Nat × Nat)) : State := l.foldl (fun s e => s.memFix who e.2.1 8) s

/-- TVAL after a translation fault (R271). -/
def walkTval (reason level acc va : Nat) : Word :=
  BitVec.ofNat 64 (reason * 2 ^ 53 + level * 2 ^ 51 + acc * 2 ^ 48 + va % 2 ^ 48)

/-- The reason an access is not permitted by a leaf (R270): acc 0 read, 1 write, 2 atomic, 3 code image. -/
def permBad (frame : Nat) (low : BitVec 12) (acc : Nat) : Option Nat :=
  if windowOf frame = 6 then some 7
  else if acc ≠ 1 && !low.getLsbD 1 then some 4
  else if (acc = 1 || acc = 2) && !low.getLsbD 2 then some 5
  else if acc = 3 && !low.getLsbD 3 then some 6 else none

/-- What the translation of one address gives a word (R273). -/
inductive Trans where
  | pa (p : Nat)
  | trap (cause : Nat) (tval : Word)
  /-- a miss: the word freezes until the walk returns -/
  | miss
  deriving DecidableEq, Repr

/-- The level of a page size. -/
def levelOf (size : Nat) : Nat := if size = 0x10000 then 0 else if size = 0x200000 then 1 else 2

/-- A TLB entry translates an address of a partition. -/
def TlbEnt.covers (e : TlbEnt) (p va : Nat) : Bool := e.part = p && e.va ≤ va && va < e.va + e.size

/-- The entry by which the core's TLB or its quad's translates an address (R273). -/
def State.tlbFind (s : State) (n p va : Nat) : Option TlbEnt :=
  match (s.core n).tlb.find? (fun e => e.covers p va) with
  | some e => some e
  | none => (((s.quadTlb.filter (fun x => x.1 = quadOf n)).map (fun x => x.2)) : List TlbEnt).find? (fun e => e.covers p va)

/-- Where core `n` finds an address of a partition: by its TLB or its quad's, else by the tables as they stand. -/
def State.mapped (s : State) (n p va : Nat) : Option Nat :=
  match s.tlbFind n p va with
  | some e => some (e.frame + (va - e.va))
  | none => match s.walk p va with
    | .leaf frame size .. => some (frame + va % size)
    | _ => none

/-- Translates an address for core `n` (R268, R270, R273). -/
def State.translate (s : State) (n va acc : Nat) : Trans :=
  let c := s.core n
  match c.step with
  | none => .miss
  | some i =>
    if 2 ^ 48 ≤ va then .trap 0x09 (walkTval 3 0 acc va)
    else match c.walkFaults.find? (fun f => f.1 = va && f.2.1 = acc) with
    | some (_, _, cause, tval) => .trap cause tval
    | none =>
      match s.tlbFind n i.part va with
      | none => .miss
      | some e =>
        match permBad e.frame e.leaf acc with
        | some r => .trap 0x0A (walkTval r (if r = 7 then 0 else levelOf e.size) acc va)
        | none => .pa (e.frame + (va - e.va))

/-! ### The walkers (R274) -/

/-- Two misses that one walk serves: of one partition, for the same 64 KiB. -/
def Walk.same (a b : Walk) : Bool := a.part = b.part && a.va / 0x10000 = b.va / 0x10000

/-- The walks under way, one for each set of merged misses. -/
def walking (ws : List Walk) : List Walk :=
  (ws.filter (·.taken)).foldl (fun o w => if o.any w.same then o else o ++ [w]) []

/-- The miss that a free walker takes at device time `t`, of those that the ports have admitted: round robin over the bulkheads, on from bulkhead
`rr`, the oldest first (R274, R395). -/
def nextMiss (ws : List Walk) (rr t : Nat) : Option Walk :=
  ((List.range 32).map (fun k => (rr + 1 + k) % 32)).findSome? (fun b => ws.find? (fun w => !w.taken && w.at_ ≤ t && bulkheadOf w.core = b))

/-- Free walkers take queued misses; `fuel` bounds how many. -/
def State.assign : Nat → State → State
  | 0, s => s
  | fuel + 1, s =>
    if 32 ≤ (walking s.walks).length then s
    else match nextMiss s.walks s.walkRr s.now with
      | none => s
      | some w => State.assign fuel { s with
          walkRr := bulkheadOf w.core, walks := s.walks.map (fun x => if x.same w && x.at_ ≤ s.now then { x with taken := true } else x) }

/-- The device time from which a miss that waits at its bulkhead's port can be taken. -/
def State.portOpens (s : State) : Option Nat :=
  (s.walks.filter (fun w => !w.taken && s.now < w.at_)).foldl (fun (o : Option Nat) w => match o with | some t => some (min t w.at_) | none => some w.at_) none

/-- A port admits the miss that waited for it, and walkers that are free take what is there (R274, R395). -/
def State.openPort (s : State) : Out :=
  match s.portOpens with
  | none => .fault .noSuchEvent
  | some t => .next (({ s with now := t } : State).assign 32)

/-- A miss of core `n` joins the queue of its bulkhead, or the walk that serves it already; a full queue of 64 does not take it. The request
waits for the bulkhead's port (R395). -/
def State.queueWalk (s : State) (n part va acc : Nat) (slot : Option Nat) : State :=
  if s.walks.any (fun w => w.core = n && w.va = va && w.acc = acc && w.slot = slot && !w.gone) then s
  else if 64 ≤ (s.walks.filter (fun w => !w.taken && bulkheadOf w.core = bulkheadOf n)).length then s
  else
    let at_ := max (s.core n).dt (s.portAt n)
    let (id, s) := (s.usePort n at_).fresh
    let w : Walk := { id := id, part := part, core := n, va := va, acc := acc, at_ := at_, slot := slot }
    ({ s with walks := s.walks ++ [{ w with taken := at_ ≤ s.now && s.walks.any (fun x => x.taken && x.same w) }] }).assign 32

/-- Queues the walks of a word's misses (R273, R274); a full queue leaves the core frozen. -/
def State.queueWalks (s : State) (n : Nat) (vas : List (Nat × Nat)) : State :=
  match (s.core n).step with
  | none => s
  | some i => vas.foldl (fun s x => s.queueWalk n i.part x.1 x.2 none) s

/-- Translates every address a word needs: a freeze while any is missing, then the first fault in order, then the physical
addresses (R273). -/
def State.translateAll (s : State) (n : Nat) (vas : List (Nat × Nat)) : WRes ⊕ List Nat :=
  let rs := vas.map (fun x => (x, s.translate n x.1 x.2))
  let missing := (rs.filter (fun r => r.2 = .miss)).map (·.1)
  if !missing.isEmpty then .inl (.freeze (s.queueWalks n missing))
  else match rs.findSome? (fun r => match r.2 with | .trap c t => some (c, t) | _ => none) with
    | some (c, t) => .inl (.trap c t)
    | none => .inr (rs.filterMap (fun r => match r.2 with | .pa p => some p | _ => none))

/-- Sets bits of a page-table entry at its home (R272). -/
def State.orEntry (s : State) (ea bit : Nat) : State :=
  let b := Memory.get s.mem (ea + bit / 8)
  { s with mem := Memory.set s.mem (ea + bit / 8) (b ||| BitVec.ofNat 8 (2 ^ (bit % 8))) }

/-- Installs a translation in the core's TLB and its quad's (R273). -/
def State.install (s : State) (n : Nat) (e : TlbEnt) : State :=
  let s := s.updCore n (fun c => { c with tlb := (e :: c.tlb.filter (fun x => !(x.part = e.part && x.va = e.va))).take 64 })
  let q := quadOf n
  let mine := (s.quadTlb.filter (fun x => x.1 = q && !(x.2.part = e.part && x.2.va = e.va))).take 2047
  { s with quadTlb := (q, e) :: mine ++ s.quadTlb.filter (fun x => x.1 != q) }

/-- Ends a step with DATA_LOSS for an error in a page-table entry (R434). -/
def State.tableLoss (s : State) (n pa : Nat) : State :=
  s.endStep n { s.memReport (pa / 8) with cls := 0x20, addr := pa }

/-- What a walk's end gives a requester: an installed leaf, a fault that its word will take, or the end of its step; a block of a copy goes
on by itself (R272, R273, R307, R434). -/
def State.walkGives (s : State) (w : Walk) (r : WalkRes) : State :=
  match w.slot with
  | some k => if w.gone then s else s.updCore w.core (fun c => { c with slots := c.slots.map (fun x =>
      if x.2.id = k then (x.1, { x.2 with walked := some (w.va / 4096) }) else x) })
  | none =>
    let fault (cause : Nat) (tval : Word) : State := if w.gone then s else s.updCore w.core (fun c =>
      { c with walkFaults := c.walkFaults ++ [(w.va, w.acc, cause, tval)] })
    match r with
    | .bad pa => if w.gone then s else s.tableLoss w.core pa
    | .fault r l => fault 0x09 (walkTval r l w.acc w.va)
    | .leaf frame size low entry level =>
      match permBad frame low w.acc with
      | some r => fault 0x0A (walkTval r (if r = 7 then 0 else level) w.acc w.va)
      | none =>
        let s := if low.getLsbD 4 then s else s.orEntry entry 4
        s.install w.core ⟨w.part, w.va / size * size, size, frame, low ||| 0x10, entry, 0⟩

/-- The pointer that a walker's cache holds for an entry of partition `p` (R274). -/
def State.cachedPtr (s : State) (p ea : Nat) : Option Nat := (s.ptrs.find? (fun x => x.part = p && x.entry = ea)).map (·.value)

/-- The pointers of a walk stay in the walkers' caches. -/
def State.cachePath (s : State) (p va : Nat) (l : List (Nat × Nat × Nat)) : State :=
  { s with ptrs := l.foldl (fun (o : List PtrEnt) e =>
      let size := if e.1 = 3 then 2 ^ 39 else if e.1 = 2 then 2 ^ 30 else 2 ^ 21
      if e.2.2 % 2 = 0 || bits e.2.2 1 3 ≠ 0 || e.1 = 0 then o
      else ⟨p, e.2.1, va / size * size, size, e.2.2⟩ :: o.filter (fun x => !(x.part = p && x.entry = e.2.1))) s.ptrs }

/-- TRANSLATION_RETURN (R273, R274): a walk ends, and its result goes to every requester whose miss has reached the walker. Whether it took
pointers from the walkers' caches is free (R274). DESIGN CHOICE: log 5. -/
def execTranslationReturn (id : Nat) (s : State) : Out :=
  match s.walks.find? (fun w => w.id = id) with
  | none => .fault .noSuchEvent
  | some w =>
    if !w.taken then .fault .noSuchEvent else
    let s := { s with now := max s.now (w.at_ + 60), free := s.free + 1 }
    let mine := s.walks.filter (fun x => x.same w && x.at_ + 60 ≤ s.now)
    let old : Nat → Option Nat := if Config.freeChoice s.free % 2 = 0 then fun _ => none else s.cachedPtr w.part
    let r := s.walkWith old w.part w.va
    let path := s.walkPath old w.part w.va
    let s := { s with walks := (s.walks.filter (fun x => !mine.contains x)).map (fun (x : Walk) => if x.same w then { x with taken := false } else x) }
    let s := (s.fixPath (if w.gone then none else s.payer w.core) (path.filter (fun e => (old e.2.1).isNone))).cachePath w.part w.va path
    .next ((mine.foldl (fun (s : State) x => s.walkGives x r) s).assign 32)

end Sys2Proof.Machine
end

