-- ==== Sys2Proof/Machine/Global.lean ====
section
/-! DEFINITION. Global memory as one core sees it: the commit buffer and its forwarding, the L1, requests to the homes,
scalar global loads and stores, fences (R260 to R267, R277 to R293). -/
namespace Sys2Proof.Machine

/-- The byte a held effect would forward to a read of `pa` (R262, R300). -/
def HeldEff.byteAt (e : HeldEff) (pa : Nat) : Option Byte :=
  match e with
  | .write _ a bs => if a ≤ pa && pa < a + bs.length then bs[pa - a]? else none
  | .block _ _ a k bs => if a ≤ pa && pa < a + 64 && k.getLsbD (pa - a) then bs[pa - a]? else none
  | _ => none

/-- The value that the latest held write in issue order gives a byte, for a read at place `op` of that order (R262). -/
def Core.forward (c : Core) (op pa : Nat) : Option Byte :=
  c.held.foldl (fun o h => if h.op < op then (match h.eff.byteAt pa with | some b => some b | none => o) else o) none

/-- The virtual addresses that an effect goes to. -/
def HeldEff.vas (e : HeldEff) : List Nat :=
  match e with
  | .write va _ _ => [va]
  | .block _ va _ _ _ => [va]
  | .atomic _ _ _ va .. => [va]
  | .adds ls _ => ls.map (fun x => x.1)
  | _ => []

/-- The commit-buffer slots of one held effect, as keys that an earlier slot of its region may share (R261, R291, R316). -/
def Held.slotKeys (h : Held) : List (Nat × Nat × Nat) :=
  match h.eff with
  | .write _ pa bs => (granRange pa bs.length).map (fun b => (h.rgn, 0, b))
  | .block _ _ pa _ _ => [(h.rgn, 0, pa / 64)]
  | .atomic .. => [(h.rgn, 1, h.id)]
  | .adds ls _ => (granules (ls.map (fun x => x.2.1))).map (fun b => (h.rgn, 0, b))
  | .window k off _ => [(h.rgn, 2 + k, off / 64)]
  | .pipeRec _ _ bs _ => (List.range (bs.length / 64)).map (fun k => (h.rgn, 1, h.id * 2 ^ 20 + k))
  | _ => []

/-- Distinct elements. -/
def distinct {α : Type} [BEq α] (l : List α) : List α := l.foldl (fun o x => if o.contains x then o else o ++ [x]) []

/-- The bytes of a copy in copy order: position, local offset, virtual address. -/
def rowBytes : Nat → List (Nat × Nat × Nat) → List (Nat × Nat × Nat)
  | _, [] => []
  | p, (loc, va, n) :: r => (List.range n).map (fun x => (p + x, loc + x, va + x)) ++ rowBytes (p + n) r

/-- See `rowBytes`. -/
def CopySlot.bytes (x : CopySlot) : List (Nat × Nat × Nat) := rowBytes 0 x.rows

/-- The blocks of a kind 4 copy that have a slot but are not held yet (R307). -/
def CopySlot.reserved (x : CopySlot) : Nat :=
  if x.kind = 4 then
    (saddAll [] ((x.bytes.filter (fun b => x.todo.contains (b.2.2 / 4096))).map (fun b => b.2.2 / 64))).length
  else 0

/-- The commit-buffer slots in use (R261). -/
def Core.slotsUsed (c : Core) : Nat :=
  (distinct (c.held.flatMap Held.slotKeys)).length + (c.slots.map (fun x => x.2.reserved)).sum

/-- There is room for the slots of a write of the open region to these physical ranges (R261). -/
def Core.slotsFor (c : Core) (l : List (Nat × Nat)) : Bool :=
  let have_ := distinct (c.held.flatMap Held.slotKeys)
  let more := (granSegs l).filter (fun b => !have_.contains (c.opn.id, 0, b))
  c.slotsUsed + more.length ≤ 1024

/-- The translations by which core `n` has translated an effect (R272, R275). -/
def State.pagesOf (s : State) (n : Nat) (e : HeldEff) : List PageUse :=
  match (s.core n).step with
  | none => []
  | some i => distinct (e.vas.filterMap (fun va => (s.tlbFind n i.part va).map (fun x => ⟨x.va, x.size, x.entryPa, x.leaf.getLsbD 5⟩)))

/-- A commit-buffer entry that is written again is checked: single-bit errors are corrected and counted, and an uncorrectable one is an error
of the region (R263). -/
def State.checkEntry (s : State) (n : Nat) (h : Held) : State :=
  let c := s.core n
  let hit := c.held.filter (fun x => !(x.ce.isEmpty && x.ue.isEmpty) && x.slotKeys.any h.slotKeys.contains)
  if hit.isEmpty then s else
  let ids := hit.map (·.id)
  let rep (x : Held) : Report := { engine := 3, level := 3, addrk := 1, addr := x.eff.vas.headD 0 }
  let s := hit.foldl (fun s x => x.ce.foldl (fun s _ => s.countFix (s.payer n) (rep x)) s) s
  let s := s.updCore n (fun c => { c with held := c.held.map (fun x => if ids.contains x.id then { x with ce := [] } else x) })
  match hit.find? (fun x => !x.ue.isEmpty) with
  | some x => s.regionErr n x.rgn (rep x)
  | none => s

/-- An effect as region and class hold it. -/
def State.heldAs (s : State) (n op cls id : Nat) (e : HeldEff) : Held :=
  { id := id, op := op, rgn := (s.core n).opn.id, cls := cls, pages := s.pagesOf n e, eff := e }

/-- hold(effect): the effect joins the held effects of the current region (R52). -/
def State.hold (s : State) (n op cls : Nat) (e : HeldEff) : State :=
  let h := s.heldAs n op cls s.nextId e
  (({ s with nextId := s.nextId + 1 }).checkEntry n h).updCore n (fun c => { c with held := c.held ++ [h] })

/-- The line of the L1 that holds an address. -/
def Core.l1Line (c : Core) (pa : Nat) : Option L1Line := c.l1.find? (fun l => l.pa = pa / 64 * 64)

/-- A fill into the L1: a full set of 4 ways replaces its least recently used line (R264). -/
def Core.l1Fill (c : Core) (pa : Nat) (bytes : List Byte) (stamp : Nat) : Core :=
  let rest := c.l1.filter (fun l => l.pa != pa)
  let set := rest.filter (fun l => bits l.pa 6 8 = bits pa 6 8)
  let rest := if set.length < 4 then rest else
    let old := set.foldl (fun m l => min m l.used) stamp
    rest.eraseP (fun l => bits l.pa 6 8 = bits pa 6 8 && l.used = old)
  { c with l1 := rest ++ [⟨pa, bytes, stamp⟩] }

/-- A released write updates the bytes of a line that the core's L1 holds (R264). -/
def Core.l1Write (c : Core) (pa : Nat) (b : Byte) : Core :=
  { c with l1 := c.l1.map (fun l => if l.pa = pa / 64 * 64 then { l with bytes := l.bytes.set (pa % 64) b } else l) }

/-- Counts a read or a released block at a core's line counters (R392, R405). -/
def State.count (s : State) (n : Nat) (wr : Bool) (pa : Nat) : State :=
  match homeDie pa with
  | none => s
  | some d =>
    let k := (mget s.counters n).getD {}
    let own := d = dieOf n
    let k := if wr then (if own then { k with lwr := k.lwr + 1 } else { k with rwr := k.rwr + 1 })
      else (if own then { k with lrd := k.lrd + 1 } else { k with rrd := k.rrd + 1 })
    { s with counters := mput s.counters n k }

/-- An outstanding fill of a line for core `n`, which a later miss joins (R404). -/
def RdReq.fills (r : RdReq) (n line : Nat) : Bool := r.core = n && r.line = line && r.fill = 1

/-- Sends the bytes that must be read at a home: each line is one request; a miss whose line is already on its way to this
core's L1 joins that fill and counts nothing (R392, R404). -/
def State.sendReads (s : State) (n op cls tag fill : Nat) (ws : List (Nat × Nat)) : State :=
  let c := s.core n
  (distinct (ws.map (fun x => x.2 / 64 * 64))).foldl (fun s line =>
    let mine := (ws.filter (fun x => x.2 / 64 * 64 = line)).map (fun x => (⟨tag, x.1, x.2 % 64, op, cls⟩ : Want))
    if fill = 1 && s.reads.any (fun r => r.fills n line) then
      { s with reads := updFirst (fun r => r.fills n line) (fun r => { r with wants := r.wants ++ mine }) s.reads }
    else
      let (id, s) := s.fresh
      let r : RdReq := { id := id, op := op, core := n, line := line, cls := cls, fill := fill, wants := mine, at_ := c.dt }
      let s := { s with reads := s.reads ++ [r] }
      s.count n false line) s

/-- The L1 of core `n` loses lines, and it takes no fill of them that is under way: a later miss reads at the home (R264, R280, R293, R300,
R306). -/
def State.l1Drop (s : State) (n : Nat) (p : Nat → Bool) : State :=
  { s with reads := s.reads.map (fun (r : RdReq) => if r.core = n && p r.line then { r with fill := 0 } else r) }.updCore n
    (fun c => { c with l1 := c.l1.filter (fun l => !p l.pa) })

/-- A global read of bytes (index, pa): those found in the core's held writes or its L1 are fixed at issue, the others go to
their homes (R262, R264, R278, R284, R285). -/
def State.gRead (s : State) (n op cls tag fill : Nat) (useL1 : Bool) (ws : List (Nat × Nat)) :
    List (Nat × Byte × Bool) × State :=
  let c := s.core n
  let look (pa : Nat) : Option Byte :=
    match c.forward op pa with
    | some b => some b
    | none => if useL1 then (c.l1Line pa).bind (fun l => l.bytes[pa % 64]?) else none
  let got := ws.filterMap (fun x => (look x.2).map (fun b => (x.1, b, false)))
  let miss := ws.filter (fun x => (look x.2).isNone)
  let s := s.updCore n (fun c => if useL1 then { c with l1 := c.l1.map (fun l =>
    if ws.any (fun x => x.2 / 64 * 64 = l.pa) then { l with used := s.nextId } else l) } else c)
  (got, s.sendReads n op cls tag fill miss)

/-- Marks a scalar register empty, awaiting arrival `tok` (R40). -/
def Arch.emptyS (a : Arch) (d tok : Nat) : Arch :=
  if h : d < 32 then { a with s := a.s.set d ⟨a.s[d].val, a.s[d].psn, some tok⟩ } else a

/-- Marks a vector register empty (R40). -/
def Arch.emptyV (a : Arch) (d tok : Nat) : Arch :=
  if h : d < 32 then { a with v := a.v.set d ⟨a.v[d].lanes, a.v[d].psn, some tok⟩ } else a

/-- Adds an outstanding arrival of the open region (R40). -/
def State.await (s : State) (n id : Nat) (k : AwaitKind) (need : Nat) (got : List (Nat × Byte × Bool))
    (vas : List (Nat × Nat)) (cls : Nat := 0) (fill : Nat := 1) : State :=
  s.updCore n (fun c => { c with awaits := c.awaits ++
    [{ id := id, rgn := c.opn.id, kind := k, need := need, bytes := got, vas := vas, hand := c.hand, cls := cls, fill := fill
       stepid := (match c.step with | some i => i.stepid | none => 0) }] })

/-- A scalar global load of `n` bytes (R284, R285); `home` is LDG.S. -/
def opLdg (i : Instr) (w : SGWord) (n : Nat) (sg home : Bool) (s : State) : Out :=
  let z := w.z == 1
  issueWord (mkHead i w.idle z 0 none) noPre
    (fun cx => refS (rotS cx z w.d.toNat) ++ refS (rotS cx z w.a.toNat))
    (fun cx s =>
      let k := rotS cx z w.a.toNat
      let d := rotS cx z w.d.toNat
      let a := readS (s.core s.cur) cx k
      if a.2 then .trap 0x08 (psnTval k)
      else if a.1.toNat % n ≠ 0 then .trap 0x05 a.1
      else match s.translateAll s.cur [(a.1.toNat, 0)] with
      | .inl r => r
      | .inr pas =>
        let pa := pas.headD 0
        let (id, s) := s.fresh
        let fill := if home then 2 else 1
        let r := s.gRead s.cur id w.cls.toNat id fill (!home) ((List.range n).map (fun k => (k, pa + k)))
        let s := r.2.await s.cur id (.ldg d n sg) n r.1 ((List.range n).map (fun k => (k, a.1.toNat + k))) w.cls.toNat fill
        .ok (s.updCore s.cur (fun c => { c with arch := c.arch.emptyS d id })) (.seq 0)) s

/-- LDG.w (R283, R284). -/
def execLdgW (w : SGWord) (s : State) : Out := opLdg (.ldgW w) w 4 true false s
/-- LDG.wu (R283, R284). -/
def execLdgWu (w : SGWord) (s : State) : Out := opLdg (.ldgWu w) w 4 false false s
/-- LDG.d (R283, R284). -/
def execLdgD (w : SGWord) (s : State) : Out := opLdg (.ldgD w) w 8 false false s
/-- LDG.S (R285): bytes not held by the core are read at the home, never from the L1. -/
def execLdgS (w : SGWord) (s : State) : Out := opLdg (.ldgS w) w 8 false true s

/-- A scalar global store of `n` bytes, held until closing (R286). -/
def opStg (i : Instr) (w : SGWord) (n : Nat) (s : State) : Out :=
  let z := w.z == 1
  issueWord (mkHead i w.idle z 0 none) noPre
    (fun cx => refS (rotS cx z w.d.toNat) ++ refS (rotS cx z w.a.toNat))
    (fun cx s =>
      let k := rotS cx z w.a.toNat
      let d := rotS cx z w.d.toNat
      let c := s.core s.cur
      let a := readS c cx k
      let v := readS c cx d
      if a.2 then .trap 0x08 (psnTval k)
      else if a.1.toNat % n ≠ 0 then .trap 0x05 a.1
      else match s.translateAll s.cur [(a.1.toNat, 1)] with
      | .inl r => r
      | .inr pas =>
        let pa := pas.headD 0
        if !c.slotsFor [(pa, n)] then .trap 0x0D a.1
        else if v.2 then .trap 0x08 (psnTval d)
        else .ok (s.hold s.cur s.nextId w.cls.toNat (.write a.1.toNat pa (leBytes n v.1.toNat))) (.seq 0)) s

/-- STG.w (R283, R286). -/
def execStgW (w : SGWord) (s : State) : Out := opStg (.stgW w) w 4 s
/-- STG.d (R283, R286). -/
def execStgD (w : SGWord) (s : State) : Out := opStg (.stgD w) w 8 s

/-! ### Fences (R292, R293) -/

/-- A class mask covers an access; an atomic goes with every class (R281, R402). DEDUCED: log 46. -/
def inMask (mask : BitVec 16) (cls : Nat) : Bool := cls = 17 || mask.getLsbD cls

/-- Two accesses have the same class (R281, R402). -/
def sameClass (a b : Nat) : Bool := (a < 16 && b = a) || (a = 17 && (b < 16 || b = 17)) || (b = 17 && a < 16)

/-- Some read that a request serves has not performed, is earlier than `op`, and satisfies `p` by its class. A read that joins a fill
performs with it (R404). -/
def RdReq.before (r : RdReq) (n op : Nat) (p : Nat → Bool) : Bool :=
  r.core = n && r.done.isNone && r.wants.any (fun w => w.op < op && p w.cls)

/-- Earlier reads of the masked classes of core `n` have not all performed. -/
def State.readsPending (s : State) (n : Nat) (mask : BitVec 16) : Bool :=
  s.reads.any (fun r => r.before n s.nextId (inMask mask)) ||
  (s.core n).slots.any (fun x => x.2.kind = 3 && x.2.susp.isNone && !x.2.todo.isEmpty && mask.getLsbD x.2.cls)

/-- Released writes of the masked classes of core `n` are not all visible at a scope (R278); at system scope a write to the
host window must also have been completed. -/
def State.writesPending (s : State) (n : Nat) (mask : BitVec 16) (scope : Nat) : Bool :=
  s.rels.any (fun r => r.core = n && inMask mask r.cls) ||
  (scope = 5 && s.hostWrites.any (fun r => r.2.1 = n && inMask mask r.2.2.1))

/-- FENCE (R292). -/
def execFence (w : SFWord) (s : State) : Out :=
  issueWord (hdS (.fence w) w.idle none) noPre (fun _ => [])
    (fun _ s =>
      let c := s.core s.cur
      if w.scope = 0 then .ok s (.seq 0)
      else if c.hand then .trap 0x02 (c.fieldTval 0)
      else if !c.closing.isEmpty then .hold (s.quadLastClose s.cur)
      else if s.writesPending s.cur w.cmask w.scope.toNat || s.readsPending s.cur w.cmask then .freeze s
      else
        let (id, s) := s.fresh
        .ok { s with orders := s.orders ++ [⟨id, s.cur, c.opn.id, .commit, false, true, w.cmask, w.scope.toNat⟩] } (.seq 0)) s

/-- FENCE.ACQ (R293). -/
def execFenceAcq (w : SFWord) (s : State) : Out :=
  issueWord (hdS (.fenceAcq w) w.idle none) noPre (fun _ => [])
    (fun _ s =>
      if s.readsPending s.cur w.cmask then .freeze s
      else
        let c := s.core s.cur
        let (id, s) := s.fresh
        let s := { s with orders := s.orders ++ [⟨id, s.cur, c.opn.id, .commit, true, false, w.cmask, w.scope.toNat⟩] }
        .ok (if w.scope = 0 then s else s.l1Drop s.cur (fun _ => true)) (.seq 0)) s

end Sys2Proof.Machine
end

