-- ==== Sys2Proof/Machine/Commit.lean ====
section
/-! DEFINITION. The words that end a region: COMMIT, COMMIT.REL, COMMIT.A and ENDS, with their waits for copies and the
quad condition; CHECK (R48, R130, R155 to R157, R216, R294 to R297, R309, R345). -/
namespace Sys2Proof.Machine

/-- The copies that the end of the open region waits for: every kind 4 copy of it, and its kind 3 copies marked cw (R309). -/
def Core.copyWaits (c : Core) : List (Nat × CopySlot) :=
  c.slots.filter (fun x => x.2.rgn = c.opn.id && (x.2.kind = 4 || x.2.cw))

/-- The wait of R309: COPY_FAULT for the lowest suspended slot among those waited for (R311), else a freeze. -/
def copyGate (s : State) (n : Nat) : Option WRes :=
  let c := s.core n
  let ws := c.copyWaits
  match ws.findSome? (fun x => x.2.susp) with
  | some h => some (.trap 0x18 h)
  | none => if ws.isEmpty then none else some (.freeze s)

/-- The words that end a region (R155). -/
def endsRegion (op : Nat) : Bool := op = 0x08A || op = 0x10A || op = 0x10B || (0x110 ≤ op && op ≤ 0x11F)

/-- A core's next word ends its region in cycle `t` (R216). -/
def Core.endsAt (c : Core) (t : Nat) : Bool :=
  !c.ended && c.issueAt (c.idleAt c.pc) = t && (match c.nextOp with | some op => endsRegion op | none => false)

/-- The word at the program counter has a byte outside the loaded code region (R28); none when all of it is inside. -/
def Core.outside (c : Core) : Bool :=
  !inCode c c.pc || (List.range (lenBits (c.opcAt c.pc) / 8)).any (fun k => !inCode c (c.pc + k))

/-- Words after which the stream does not go on in the same cycle: transfers, gaps and waits, traps (R32, R122, R128, R129, R256). -/
def breaksCycle (op : Nat) : Bool := (0x080 ≤ op && op ≤ 0x085) || op = 0x088 || op = 0x089 || op = 0x08B || op = 0x08C || op = 0x123

/-- A word that ends its region is among those that the core, as it stands, still issues in cycle `t`: `fuel` bounds the words of a group. -/
def Core.endsIn : Nat → Core → Nat → Bool
  | 0, _, _ => false
  | k + 1, c, t =>
    !(c.ended || c.hand || c.step.isNone || c.outside) && c.issueAt (c.idleAt c.pc) = t && (match c.nextOp with
    | none => false
    | some op => !c.conflicts t (engineOf op) &&
        (endsRegion op || (!breaksCycle op &&
          (((c.goTo t).joinGroup t (engineOf op) false).advance (lenBits op / 8) false (.seq 0)).endsIn k t)))

/-- The core has issued a word that ends its region in cycle `t`. -/
def Core.endedAt (c : Core) (t : Nat) : Bool := c.grpAt = t && c.grpEnd && (c.closing.any (fun r => r.tC = some t))

/-- The condition of R216 for a word that ends a region in cycle `t`: in a coupled quad every member issues one. -/
def State.quadEnds (s : State) (n t : Nat) : Bool :=
  (s.gangOf n).all (fun m => m = n || (s.core m).endsAt t || (s.core m).endedAt t)

/-- The core still ends its region in cycle `t`, or has done so. -/
def Core.endsCycle (c : Core) (t : Nat) : Bool := c.endsIn 4 t || c.endedAt t

/-- Core `n` is about to issue a word of a cycle in which some members of its coupled quad end their regions, and itself not: its word raises
CHAIN (R216). DEDUCED: log 51. -/
def State.tornCycle (s : State) (n : Nat) : Bool :=
  let c := s.core n
  let t := c.issueAt (c.idleAt c.pc)
  c.coupled && !c.hand && !c.endsCycle t && (s.gangOf n).any (fun m => m != n && (s.core m).endsCycle t)

/-- The closing cycle of the regions of core `n`'s quad that were ended before cycle `t` (R45, R216). -/
def State.earlierClose (s : State) (n t : Nat) : Nat :=
  (s.gangOf n).foldl (fun x m => let c := s.core m
    max x ((c.closing.filter (fun r => r.tC != some t)).foldl (fun y r => r.closeAt y) c.shut)) 0

/-- CHAIN for a quad whose members do not all end their regions: a member that has not trapped at its word of the cycle takes the trap at its
next word (R216). -/
def State.quadChain (s : State) (n : Nat) : State :=
  (s.gangOf n).foldl (fun s m => if m = n || (s.core m).hand then s else s.updCore m (fun c => { c with owe := some (0x12, 0) })) s

/-- Ends the open region of core `n` at cycle `t` and, unless the step ends, opens the next one at `t + 1`, whose first word is
at `pc` (R155, R46, R48). While an earlier region is still closing no word issues (R45). -/
def Core.endRegion (c : Core) (t pc : Nat) (how : EndKind) (wait : Nat) : Core :=
  let q : Region := { c.opn with tC := some t, how := how }
  let l := c.arch.loop
  let a : Arch := { c.arch with loop := { l with pend0 := 0, pend1 := 0 } }
  let o : Region := { id := c.opn.id + 1, openAt := t + 1, pc := pc, base := t, snap := a }
  { c with closing := c.closing ++ [q], opn := o, ended := how == .ends,
           floor := if c.closing.isEmpty then c.floor else wait }

/-- The ordering point that the end of region `rgn` of core `n` is: only COMMIT.REL and COMMIT.A are one (R281). -/
def EndKind.point (how : EndKind) (id n rgn scope : Nat) : List Order :=
  match how with
  | .rel m => [⟨id, n, rgn, how, false, false, m, scope⟩]
  | .atomic => [⟨id, n, rgn, how, false, false, 0, scope⟩]
  | .commit => []
  | .ends => []

/-- The end of the open region takes its place in the order of core `n`'s releases (R281). -/
def State.orderEnd (s : State) (n : Nat) (how : EndKind) (scope : Nat) : State :=
  { s with nextId := s.nextId + 1, orders := s.orders ++ how.point s.nextId n (s.core n).opn.id scope }

/-- The word that ends the open region has issued: the stream moves on, and the region closes no earlier than `wait`. -/
def Core.endsHere (c : Core) (cx : Ctx) (how : EndKind) (wait : Nat) : Core :=
  ((c.joinGroup cx.t 0 true).advance 4 false (.seq 0)).endRegion cx.t (cx.addr + 4) how wait

/-- The common part of the words that end a region. -/
def endBody (how : EndKind) (scope : Nat) (before : Ctx → State → WRes ⊕ State) (cx : Ctx) (s : State) : WRes :=
  match copyGate s s.cur with
  | some r => r
  | none => match before cx s with
    | .inl r => r
    | .inr s1 =>
      if !s.quadEnds s.cur cx.t then .trap 0x12 0
      else
        let s2 := s1.orderEnd s.cur how scope
        .fin (s2.setCore s.cur ((s2.core s.cur).endsHere cx how (s1.earlierClose s.cur cx.t)))

/-- A word that ends a region; a CHAIN trap marks the other members of the quad. -/
def opEnd (h : Head) (regs : Ctx → List Ref) (how : EndKind) (scope : Nat) (before : Ctx → State → WRes ⊕ State) (s : State) : Out :=
  issueWord h noPre regs (fun cx s =>
    match endBody how scope before cx s with
    | .trap 0x12 v => .fin ((s.quadChain s.cur).trap s.cur 0 0x12 v)
    | r => r) s

/-- COMMIT (R155). -/
def execCommit (w : SRWord) (s : State) : Out :=
  opEnd (hdS (.commit w) w.idle none) (fun _ => []) .commit 0 (fun _ s => .inr s) s

/-- COMMIT.REL (R294): a COMMIT that orders later writes of its classes after every earlier one. -/
def execCommitRel (w : SFWord) (s : State) : Out :=
  opEnd (hdS (.commitRel w) w.idle none) (fun _ => []) (.rel w.cmask) w.scope.toNat (fun _ s => .inr s) s

/-- ENDS (R130); in trap mode it abandons the step with the cause of the trap that is being handled (R359). -/
def execEnds (w : SRWord) (s : State) : Out :=
  issueWord (hdS (.ends w) w.idle none) noPre (fun _ => [])
    (fun cx s =>
      match (s.core s.cur).trap with
      | some k => .fin (s.endStep s.cur { cls := 0x10, cause := k.cause, engine := 0, level := 3, addrk := 3, addr := cx.addr })
      | none =>
        match endBody .ends 0 (fun _ s => .inr s) cx s with
        | .trap 0x12 v => .fin ((s.quadChain s.cur).trap s.cur 0 0x12 v)
        | r => r) s

/-- CHECK (R345): traps when an operand is poisoned, and has no other effect. -/
def execCheck (w : SRWord) (s : State) : Out :=
  issueWord (hdSR (.check w) w none) noPre
    (fun _ => (if w.d = 48 then [] else refV w.d.toNat) ++ refS w.a.toNat ++ refS w.b.toNat)
    (fun cx s =>
      let c := s.core s.cur
      let p : LMask := if w.d = 48 then 0 else (readV c cx w.d.toNat 0).2
      match (List.range 64).find? (fun i => p.getLsbD i) with
      | some l => .trap 0x08 (BitVec.ofNat 64 (l * 2 ^ 16 + 2 ^ 8 + w.d.toNat))
      | none => (psnTrap c cx [w.a.toNat, w.b.toNat]).getD (.ok s (.seq 0))) s

/-! ### Atomics done once (R295 to R298) -/

/-- A COMMIT.A word: `op` on `n` bytes (R296). -/
def opAtomic (i : Instr) (w : SRWord) (op : AtomOp) (wide : Bool) (s : State) : Out :=
  let n := if wide then 8 else 4
  let isCas := op == .cas
  opEnd (hdSR i w none)
    (fun _ => (if isCas then refS w.d.toNat else []) ++ refS w.a.toNat ++ refS w.b.toNat) .atomic 4
    (fun cx s =>
      let c := s.core s.cur
      let a := readS c cx w.a.toNat
      let b := readS c cx w.b.toNat
      let o : Word × Bool := if isCas then readS c cx w.d.toNat else (0, false)
      let cut (v : Word) : Word := if wide then v else BitVec.ofNat 64 (v.toNat % 2 ^ 32)
      match psnTrap c cx ((if isCas then [w.d.toNat] else []) ++ [w.a.toNat, w.b.toNat]) with
      | some r => .inl r
      | none =>
        if a.1.toNat % n ≠ 0 then .inl (.trap 0x05 a.1)
        else match s.translateAll s.cur [(a.1.toNat, 2)] with
        | .inl r => .inl r
        | .inr pas =>
          if 1024 < c.slotsUsed + 1 then .inl (.trap 0x0D a.1)
          else
            let pa := pas.headD 0
            let (id, s) := s.fresh
            let d : Option Nat := if w.d = 48 then none else some w.d.toNat
            let s := s.hold s.cur id 17
              (.atomic op wide (i.opcode.getD 0) a.1.toNat pa (cut b.1) (cut o.1) d id)
            match d with
            | none => .inr s
            | some d =>
              let s := s.await s.cur id (.atom d) 0 [] []
              .inr (s.updCore s.cur (fun c => { c with arch := c.arch.emptyS d id }))) s

/-- COMMIT_A_ADD_D (R295, R296). -/
def execCommitAAddD (w : SRWord) (s : State) : Out := opAtomic (.commitAAddD w) w .add true s
/-- COMMIT_A_MIN_D (R295, R296). -/
def execCommitAMinD (w : SRWord) (s : State) : Out := opAtomic (.commitAMinD w) w .min true s
/-- COMMIT_A_MAX_D (R295, R296). -/
def execCommitAMaxD (w : SRWord) (s : State) : Out := opAtomic (.commitAMaxD w) w .max true s
/-- COMMIT_A_AND_D (R295, R296). -/
def execCommitAAndD (w : SRWord) (s : State) : Out := opAtomic (.commitAAndD w) w .and true s
/-- COMMIT_A_OR_D (R295, R296). -/
def execCommitAOrD (w : SRWord) (s : State) : Out := opAtomic (.commitAOrD w) w .or true s
/-- COMMIT_A_XCHG_D (R295, R296). -/
def execCommitAXchgD (w : SRWord) (s : State) : Out := opAtomic (.commitAXchgD w) w .xchg true s
/-- COMMIT_A_CAS_D (R295, R296). -/
def execCommitACasD (w : SRWord) (s : State) : Out := opAtomic (.commitACasD w) w .cas true s
/-- COMMIT_A_ADD_W (R295, R296). -/
def execCommitAAddW (w : SRWord) (s : State) : Out := opAtomic (.commitAAddW w) w .add false s
/-- COMMIT_A_MIN_W (R295, R296). -/
def execCommitAMinW (w : SRWord) (s : State) : Out := opAtomic (.commitAMinW w) w .min false s
/-- COMMIT_A_MAX_W (R295, R296). -/
def execCommitAMaxW (w : SRWord) (s : State) : Out := opAtomic (.commitAMaxW w) w .max false s
/-- COMMIT_A_AND_W (R295, R296). -/
def execCommitAAndW (w : SRWord) (s : State) : Out := opAtomic (.commitAAndW w) w .and false s
/-- COMMIT_A_OR_W (R295, R296). -/
def execCommitAOrW (w : SRWord) (s : State) : Out := opAtomic (.commitAOrW w) w .or false s
/-- COMMIT_A_XCHG_W (R295, R296). -/
def execCommitAXchgW (w : SRWord) (s : State) : Out := opAtomic (.commitAXchgW w) w .xchg false s
/-- COMMIT_A_CAS_W (R295, R296). -/
def execCommitACasW (w : SRWord) (s : State) : Out := opAtomic (.commitACasW w) w .cas false s
/-- COMMIT_A_FADD_W (R295, R296). -/
def execCommitAFaddW (w : SRWord) (s : State) : Out := opAtomic (.commitAFaddW w) w .fadd false s

end Sys2Proof.Machine
end

