-- ==== Sys2Proof/Machine/Records.lean ====
section
/-! DEFINITION. What the package reads of a launch and its record: the fields of a record, the dispatch lists and instances, and the
cores that a launch holds (R229 to R242, R248, R249, R259). -/
namespace Sys2Proof.Machine

/-! ### Fields of a record (R229 to R235, R245) -/

/-- Word `k` of a record. -/
def tw (t : List Word) (k : Nat) : Nat := (t.getD k 0).toNat

/-- Field of word `k`. -/
def tf (t : List Word) (k lo n : Nat) : Nat := bits (tw t k) lo n

/-- The 32-bit half `j` of the words from `k` on. -/
def th (t : List Word) (k j : Nat) : Nat := tf t (k + j / 2) (32 * (j % 2)) 32

def torRoles (t : List Word) : Nat := tf t 0 32 3
def torDepth (t : List Word) : Nat := tf t 0 35 3
def torVariants (t : List Word) : Nat := tf t 0 38 3
def torStatic (t : List Word) : Bool := tf t 0 16 1 = 1
def torCoupled (t : List Word) : Bool := tf t 0 17 1 = 1
def torCode (t : List Word) : Nat := tf t 1 0 48
def torCodeLen (t : List Word) : Nat := 64 * tf t 1 48 13
def torBudget (t : List Word) : Nat := tf t 2 0 32
def torEstimate (t : List Word) : Nat := tf t 2 32 32
def torBase (t : List Word) : Nat := 4096 * tf t 3 32 9
def torWidth (t : List Word) : Nat := tf t 3 0 5 + 1
def torHeight (t : List Word) : Nat := tf t 3 5 3 + 1
def torAnchor (t : List Word) : Bool := tf t 3 8 1 = 1
def torCol (t : List Word) : Nat := tf t 3 9 5
def torRow (t : List Word) : Nat := tf t 3 14 3
def torByCols (t : List Word) : Bool := tf t 3 17 2 = 1
/-- Extent, tile and position of dimension `d`. -/
def torDim (t : List Word) (d : Nat) : Nat × Nat × Nat := (tf t (4 + d) 0 32, tf t (4 + d) 32 16, tf t (4 + d) 48 4)
def torEntry (t : List Word) (r : Nat) : Nat := tf t (18 + r) 0 16
def torPipe (t : List Word) (p : Nat) : Nat := th t 22 p
def torShare (t : List Word) (v : Nat) : Nat := bits (th t 26 v) 0 9
def torUnits (t : List Word) : Nat := tf t 28 0 16
def torClass (t : List Word) : Nat := tf t 28 16 4
def torSbase (t : List Word) : Nat := tf t 29 0 21
def torSlim (t : List Word) : Nat := tf t 29 32 21
def torPre (t : List Word) : Nat := tf t 30 0 48
def torPreLen (t : List Word) : Nat := 64 * tf t 30 48 13
def torPreBase (t : List Word) : Nat := tf t 31 0 21

/-- The tiles of dimension `d` (R237). -/
def torTiles (t : List Word) (d : Nat) : Nat := let x := torDim t d; if x.2.1 = 0 then 0 else (x.1 + x.2.1 - 1) / x.2.1

/-- The number of steps (R237). -/
def torSteps (t : List Word) : Nat := ((List.range (torDepth t)).map (torTiles t)).foldl (· * ·) 1

/-! ### Service (R23, R334, R342, R396) -/

/-- A core is in service: neither retired nor out with its bulkhead or die (R23, R334, R342, R396). -/
def State.inService (s : State) (n : Nat) : Bool :=
  !s.retired.contains n && !s.deadDies.contains (dieOf n) && !s.offline.any (fun o => o.1 = bulkheadOf n)

/-- A core lies in the rectangle (row, column, height, width). -/
def inRect (r : Nat × Nat × Nat × Nat) (n : Nat) : Bool :=
  r.1 ≤ rowOf n && rowOf n < r.1 + r.2.2.1 && r.2.1 ≤ pcolOf n && pcolOf n < r.2.1 + r.2.2.2

/-- Steps to a group: four with coupled quads (R242). -/
def Launch.per (l : Launch) : Nat := if torCoupled l.words then 4 else 1

/-! ### Dispatch lists (R238, R239, R242, R249) -/

/-- The (row, column) pairs of a rectangle in list order. -/
def rectOrder (byCols : Bool) (r : Nat × Nat × Nat × Nat) : List (Nat × Nat) :=
  let rows := (List.range r.2.2.1).map (· + r.1)
  let cols := (List.range r.2.2.2).map (· + r.2.1)
  if byCols then cols.flatMap (fun c => rows.map (fun w => (w, c))) else rows.flatMap (fun w => cols.map (fun c => (w, c)))

/-- The entries of a band: single cores, or the quads that lie in it whole; every core in service and not lent (R238, R242, R366). -/
def State.entries (s : State) (l : Launch) (r : Nat × Nat × Nat × Nat) : List (List Nat) :=
  let ok (n : Nat) : Bool := s.inService n && !l.lent.any (fun x => x.1 = n)
  let es := (rectOrder (torByCols l.words) r).map (fun p => coreAt p.1 p.2)
  let es := if torCoupled l.words then
      (es.filter (fun n => memberOf n = 0 && pcolOf n + 4 ≤ r.2.1 + r.2.2.2)).map (fun n => (List.range 4).map (quadMember n))
    else es.map (fun n => [n])
  es.filter (fun e => e.all ok)

/-- The band of each role (R249). -/
def Launch.bandRects (l : Launch) : List (Nat × Nat × Nat × Nat) :=
  match l.rect with
  | none => []
  | some r =>
    let k := max (torRoles l.words) 1
    (List.range k).map (fun j => (r.1, r.2.1 + j * (r.2.2.2 / k), r.2.2.1, r.2.2.2 / k))

/-- The instances of a launch: for each index, the entry of every role. -/
def State.instances (s : State) (l : Launch) : List (List (List Nat)) :=
  let bs := l.bandRects.map (s.entries l)
  let n := bs.foldl (fun m b => min m b.length) (match bs with | [] => 0 | b :: _ => b.length)
  (List.range n).map (fun j => bs.map (fun b => b.getD j []))

/-- The share of the variant in force, when variants apply: the launch is no gang and its list has cores of both dies (R239, R249). -/
def Launch.share (l : Launch) (es : List (List (List Nat))) : Option Nat :=
  let die (d : Nat) : Bool := es.any (fun e => dieOf ((e.headD []).headD 0) = d)
  if torVariants l.words = 0 || 2 ≤ torRoles l.words || !die 0 || !die 1 then none else some (torShare l.words l.variant)

/-- ⌈a × q ÷ 256⌉ (R239, R257). -/
def ceil256 (a q : Nat) : Nat := (a * q + 255) / 256

/-- The groups of the launch that were killed and wait to run again, in ascending order (R240, R366). -/
def Launch.killed (l : Launch) : List Nat := saddAll [] ((l.redo.filter (fun r => r.kill && !r.info.forked)).map (fun r => r.info.stp / l.per))

/-- The place of group `g` among those that are to be dispatched: the killed ones come first (R240, R366). -/
def Launch.turn (l : Launch) (g : Nat) : Nat :=
  let ks := l.killed
  if ks.contains g then (ks.filter (· < g)).length
  else ks.length + (g - l.nextStep / l.per - (l.ahead.filter (· < g)).length)

/-- The index of group `g` from the last phase boundary on: the groups that have been dispatched since keep theirs, and the others take what
is left in their order (R239). DEDUCED: log 43. -/
def Launch.rank (l : Launch) (g : Nat) : Nat := l.taken.foldl (fun k x => if x ≤ k then k + 1 else k) (l.turn g)

/-- The die to which share `q` assigns group `g` (R239). -/
def Launch.dieFor (l : Launch) (q g : Nat) : Nat := let u := l.rank g; if ceil256 u q < ceil256 (u + 1) q then 0 else 1

/-- The die of a gang instance. -/
def instDie (e : List (List Nat)) : Nat := dieOf ((e.headD []).headD 0)

/-- The list of step group `g`: the entries among which it goes, and how many groups before it belong to that list: those dispatched
already, each by the die it went to, and those still to be dispatched (R239, R241). -/
def Launch.listFor (l : Launch) (es : List (List (List Nat))) (g : Nat) : List (List (List Nat)) × Nat :=
  match l.share es with
  | none => (es, g)
  | some q =>
    let d := l.dieFor q g
    let first := l.nextStep / l.per
    let ks := l.killed
    let gone := (l.dies.filter (fun x => x.1 < g && x.2.1 = d && !ks.contains x.1)).length
    let kept := (ks.filter (fun k => k < g && l.dieFor q k = d)).length
    let left := ((List.range (g - first)).filter (fun k => !l.ahead.contains (first + k) && l.dieFor q (first + k) = d)).length
    (es.filter (fun e => instDie e = d), gone + kept + left)

/-- The cores of an instance. -/
def instCores (e : List (List Nat)) : List Nat := e.flatten

/-- The remaining steps of the instance that group `g` would run on are not run (R251). -/
def Launch.isDead (l : Launch) (n g : Nat) : Bool := 2 ≤ torRoles l.words && n ≠ 0 && l.deadInst.contains (g % n)

/-- Some group of steps from `g` on is still to be dispatched (R251). -/
def Launch.left (l : Launch) (n : Nat) : Nat → Nat → Bool
  | 0, _ => false
  | fuel + 1, g => if l.ahead.contains g || l.isDead n g then l.left n fuel (g + 1) else true

/-- The number of groups. -/
def Launch.groupCount (l : Launch) : Nat := l.total / l.per

/-- Some step of the launch is still to be dispatched (R251). -/
def State.stepsLeft (s : State) (l : Launch) : Bool :=
  l.left (s.instances l).length (l.groupCount - l.nextStep / l.per) (l.nextStep / l.per)

/-- No core will be on the list of the launch again: those that were are retired or lost with their die, or the whole entries of which they
were a part are (R23, R334, R342). -/
def State.barren (s : State) (l : Launch) : Bool := (({ s with offline := [] } : State).instances { l with lent := [] }).isEmpty

/-- Adds the measurement of an ended phase to the last means (R257). -/
def measured (old : (Nat × Nat) × (Nat × Nat)) (sums : (Nat × Nat) × (Nat × Nat)) : (Nat × Nat) × (Nat × Nat) :=
  (if sums.1.2 = 0 then old.1 else sums.1, if sums.2.2 = 0 then old.2 else sums.2)

/-! ### Held cores -/

/-- The most units that the asked grants of a core keep available from device time `t` on (R323). -/
def Core.askedUnits (c : Core) (t : Nat) : Nat := (c.asked.filter (fun g => t < g.2.2)).foldl (fun m g => max m g.1) 0

/-- A launch has steps to run: one runs, is to run again, or is still to be dispatched and not given up (R248, R251, R259). -/
def State.hasWork (s : State) (x : Launch) : Bool :=
  x.phase = 1 && (!x.running.isEmpty || !x.redo.isEmpty || (s.stepsLeft x && !s.barren x))

/-- A launch holds its rectangle while it has steps to run; a timed launch from d − 2^20 on (R248, R259, R386). -/
def State.holds (s : State) (x : Launch) (n : Nat) : Bool :=
  (match x.rect with | some r => inRect r n | none => false) && (x.hold || s.hasWork x)

/-- A core is not for launch `l`: another launch holds it, or it has passed from a launch to a newcomer, and it has not passed to `l`
(R248, R366, R386). -/
def State.claimed (s : State) (l n : Nat) : Bool :=
  s.launches.any (fun x => !x.lent.contains (n, l) && ((x.id != l && s.holds x n) || x.lent.any (fun y => y.1 = n)))

/-- A core may take a step of launch `l`: it is in service, holds no step, and no other launch holds it (R240). -/
def State.freeCore (s : State) (l n : Nat) : Bool := s.inService n && (s.core n).step.isNone && !s.claimed l n

/-! ### Leave (R322, R323, R424) -/

/-- U, the package's leave capacity (R424). -/
def State.capacity (s : State) : Nat := (s.cap - 200) * 8 / 3

/-- The allowance that a launch takes: its base allowance in every bulkhead that its rectangle touches (R235, R322). -/
def Launch.allowance (l : Launch) : Nat :=
  match l.rect with
  | none => 0
  | some r => torUnits l.words * (saddAll [] ((rectOrder false r).map (fun p => bulkheadOf (coreAt p.1 p.2)))).length

/-- Core `n` runs a step outside the rectangle of a launch with work: its standing grant is in no launch's allowance (R322, R373, R374). -/
def State.strayUnits (s : State) (n : Nat) : Nat :=
  match (s.core n).step with
  | some i => if !i.forked && (s.launch? i.launch).any (fun l => s.hasWork l && l.rect.any (fun r => inRect r n)) then 0 else i.units
  | none => 0

/-- The grants in force: standing allowances, and asked units from `t` on (R322, R323, R424). -/
def State.granted (s : State) (t : Nat) : Nat :=
  ((s.launches.filter s.hasWork).map Launch.allowance).sum + (s.cores.map (fun c => s.strayUnits c.1 + c.2.askedUnits t)).sum

/-- The allowances of a partition's launches that have work. -/
def State.partLeave (s : State) (p : Nat) : Nat := ((s.launches.filter (fun x => x.part = p && s.hasWork x)).map Launch.allowance).sum

end Sys2Proof.Machine
end

