-- ==== Sys2Proof/Machine/Sched.lean ====
section
/-! DEFINITION. The scalar words that talk to the walker and the governor: LAUNCH and host signals, FENCE.RC, HINT, REALIGN,
ASK (R247, R252 to R257, R323, R413). -/
namespace Sys2Proof.Machine

/-- The common checks of LAUNCH (R252). -/
def launchChecks (c : Core) (cx : Ctx) (w : SRWord) : Option WRes :=
  let z := w.z == 1
  let ka := rotS cx z w.a.toNat
  let kb := rotS cx z w.b.toNat
  match psnTrap c cx [ka, kb] with
  | some r => some r
  | none =>
    let a := readS c cx ka
    let b := readS c cx kb
    if a.1.toNat % 256 ≠ 0 then some (.trap 0x05 a.1)
    else if b.1.toNat % 8 ≠ 0 then some (.trap 0x05 b.1) else none

/-- LAUNCH (R252): holds the post of record a with status word b. -/
def execLaunch (w : SRWord) (s : State) : Out :=
  let z := w.z == 1
  issueWord (hdSR (.launch w) w none) noPre (fun cx => refS (rotS cx z w.a.toNat) ++ refS (rotS cx z w.b.toNat))
    (fun cx s =>
      let c := s.core s.cur
      match launchChecks c cx w with
      | some r => r
      | none => .ok (s.hold s.cur s.nextId 16 (.launch (readS c cx (rotS cx z w.a.toNat)).1
          (readS c cx (rotS cx z w.b.toNat)).1)) (.seq 0)) s

/-- LAUNCH with operand a `zero` (R413): holds a host signal carrying b. -/
def execLaunchSignal (w : SRWord) (s : State) : Out :=
  let z := w.z == 1
  issueWord (hdSR (.launchSignal w) w none) noPre (fun cx => refS (rotS cx z w.b.toNat))
    (fun cx s =>
      let c := s.core s.cur
      match launchChecks c cx w with
      | some r => r
      | none => .ok (s.hold s.cur s.nextId 16 (.signal (readS c cx (rotS cx z w.b.toNat)).1)) (.seq 0)) s

/-- FENCE.RC (R247): holds the invalidation of the partition's record cache. -/
def execFenceRc (w : SRWord) (s : State) : Out :=
  issueWord (hdSR (.fenceRc w) w none) noPre (fun _ => [])
    (fun _ s => .ok (s.hold s.cur s.nextId 16 .fenceRc) (.seq 0)) s

/-- HINT (R255): sets the step's remaining-time estimate from this device cycle; it acts at issue and is not undone. -/
def execHint (w : SRWord) (s : State) : Out :=
  let z := w.z == 1
  issueWord (hdSR (.hint w) w none) noPre (fun cx => refS (rotS cx z w.a.toNat))
    (fun cx s =>
      let c := s.core s.cur
      let k := rotS cx z w.a.toNat
      let a := readS c cx k
      if a.2 then .trap 0x08 (psnTval k)
      else .ok (s.updCore s.cur (fun c => { c with step := c.step.map (fun i =>
        { i with est := min a.1.toNat 0xFFFFFFFF, estAt := cx.dt }) })) (.seq 0)) s

/-! ### REALIGN (R256, R257) -/

/-- The remaining-time estimate of a step at a device time: it falls by one each cycle, down to 0 (R255). -/
def StepInfo.estimate (i : StepInfo) (now : Nat) : Nat := i.est - (now - i.estAt)

/-- A key for REALIGN in the record of joint words. -/
def realignKey (a : Word) : Nat := 2 ^ 200 + a.toNat

/-- The member `m` issues REALIGN with value `a` in cycle `t`, or has issued it (R256). -/
def State.realignsAt (s : State) (m t : Nat) (a : Word) : Bool :=
  let c := s.core m
  c.joint.contains (t, realignKey a) ||
  (c.issueAt (c.idleAt c.pc) = t && c.nextOp = some 0x123 &&
    (match c.decodeAt c.pc with
     | .instr (.realign w) => (readS c (c.ctx m) (rotS (c.ctx m) (w.z == 1) w.a.toNat)).1 == a
     | _ => false))

/-- The region being executed is replayed, or its effects are suppressed, which REALIGN treats alike (R256, R337). -/
def Core.replayed (c : Core) : Bool := c.opn.rcnt ≠ 0 || c.muted

/-- Marks a phase boundary of a launch at a device time: the first REALIGN with that time counts. The phase that ends is measured, and the
groups of steps are counted anew from here on, those among them that have been given a place at that time or later (R239, R257). DEDUCED: log 43. -/
def State.markPhase (s : State) (n a : Nat) : State :=
  match (s.core n).step with
  | none => s
  | some i => s.updLaunch i.launch (fun l =>
      if l.marks.contains a then l else
      let tau := measured l.tau l.sums
      { l with marks := a :: l.marks, tau := tau, sums := ((0, 0), (0, 0)), taken := List.range (l.dies.filter (fun x => a ≤ x.2.2)).length
               bounds := l.bounds ++ [⟨a, tau, l.total - l.nextStep - l.ahead.length * l.per + l.killed.length * l.per⟩] })

/-- REALIGN (R256). The wait lasts until device time a and does not count as slip. -/
def execRealign (w : SRWord) (s : State) : Out :=
  let z := w.z == 1
  issueWord (hdSR (.realign w) w none) noPre (fun cx => refS (rotS cx z w.a.toNat))
    (fun cx s =>
      let n := s.cur
      let c := s.core n
      let k := rotS cx z w.a.toNat
      let a := readS c cx k
      let st := match c.step with | some i => i.static | none => false
      if a.2 then .trap 0x08 (psnTval k)
      else if !st then .trap 0x02 (c.fieldTval 0)
      else if c.coupled && !(s.gangOf n).all (fun m => m = n || s.realignsAt m cx.t a.1) then .trap 0x12 0
      else if a.1.toNat < cx.dt && !c.replayed && !c.until?.isSome then .trap 0x13 a.1
      else if cx.dt < a.1.toNat then .fin (s.updCore n (fun c => { c with until? := some { time := a.1.toNat, realign := true } }))
      else
        let s := s.updCore n (fun c =>
          { c with slip := BitVec.ofNat 64 (cx.dt - a.1.toNat), dtRef := a.1.toNat, streamRef := cx.t,
                   joint := if c.coupled then (cx.t, realignKey a.1) :: c.joint.filter (fun j => j.1 = cx.t) else c.joint })
        .ok (s.markPhase n a.1.toNat) (.seq 0)) s

/-! ### ASK (R323) -/

/-- ASK (R323): sends the request to the governor, once the port of its bulkhead admits it (R395); the answer is a guarded arrival into d. -/
def execAsk (w : SRWord) (s : State) : Out :=
  let z := w.z == 1
  issueWord (hdSR (.ask w) w none) noPre
    (fun cx => (if w.d = 48 then [] else refS (rotS cx z w.d.toNat)) ++ refS (rotS cx z w.a.toNat) ++ refS (rotS cx z w.b.toNat))
    (fun cx s =>
      let c := s.core s.cur
      let ka := rotS cx z w.a.toNat
      let kb := rotS cx z w.b.toNat
      match psnTrap c cx [ka, kb] with
      | some r => r
      | none =>
        if cx.dt < s.portAt s.cur then .freeze s else
        let d := rotS cx z w.d.toNat
        let (id, s) := (s.usePort s.cur cx.dt).fresh
        let s := s.await s.cur id (.ask d (readS c cx ka).1.toNat (readS c cx kb).1.toNat cx.dt) 0 [] []
        .ok (s.updCore s.cur (fun c => { c with arch := c.arch.emptyS d id })) (.seq 0)) s

end Sys2Proof.Machine
end

