-- ==== Sys2Proof/Machine/Pipe.lean ====
section
/-! DEFINITION. Leave (R321, R322) and the pipe words PSEND, PRECV and PRELEASE over byte rings (R313 to R320). -/
namespace Sys2Proof.Machine

/-- `n` rounded up to a multiple of `m`. -/
def roundUp (n m : Nat) : Nat := (n + m - 1) / m * m

/-! ### Leave -/

/-- A heavy operation of `units` and duration `d` issued at device time `u` is covered (R322). -/
def Core.covered (c : Core) (u units d : Nat) : Bool :=
  let standing := match c.step with | some i => i.units | none => 0
  let asked := c.asked.foldl (fun m g => max m (if g.2.1 ≤ u && u + d ≤ g.2.2 then g.1 else 0)) 0
  let busy := (c.heavy.filter (fun h => h.at_ ≤ u && u < h.at_ + h.dur)).map (·.units)
  units + busy.sum ≤ standing + asked

/-- Counts a heavy operation of the open region, a copy under its identifier; those that have run out are dropped (R322). -/
def Core.addHeavy (c : Core) (u units d : Nat) (id : Nat := 0) : Core :=
  { c with heavy := ⟨u, d, units, c.opn.id, id⟩ :: c.heavy.filter (fun h => u < h.at_ + h.dur) }

/-! ### Local addresses -/

/-- The offset in the core's own scratchpad that an address names, if it names the core's own member (R176, R303). -/
def ownOffset (n : Nat) (a : Nat) : Option Nat :=
  if bits a 21 2 = memberOf n then some (a % 2 ^ 21) else none

/-- The offset of a range in the core's own scratchpad, or the first offending address (R303). -/
def ownRange (n a len : Nat) : Nat ⊕ Nat :=
  match ownOffset n a with
  | none => .inl (a % 2 ^ 23)
  | some o => if 2 ^ 21 < o + len then .inl ((a + 2 ^ 21 - o) % 2 ^ 23) else .inr o

/-! ### Pipes -/

/-- The declaration of a pipe for this core as producer or consumer (R234, R315). -/
def Core.pipeFor (c : Core) (p : Nat) (prod : Bool) : Option PipeDecl :=
  match c.step with
  | none => none
  | some i => match i.pipes[p]? with
    | some d => if d.valid && (if prod then d.prod = i.role else d.cons = i.role) then some d else none
    | none => none

/-- TVAL of PIPE (R320). -/
def pipeTval (reason p : Nat) : Word := BitVec.ofNat 64 (16 * reason + p)

/-- The ring size of a pipe (R234). -/
def PipeDecl.ring (d : PipeDecl) : Nat := 2 ^ (12 + d.size)

/-- The snapshot part of pipe `p`. -/
def Arch.pipe (a : Arch) (p : Nat) : PipeCnt := (a.pipes.toList)[p]?.getD {}

/-- Replaces the snapshot part of a pipe. -/
def Arch.setPipe (a : Arch) (p : Nat) (x : PipeCnt) : Arch :=
  if h : p < 8 then { a with pipes := a.pipes.set p x } else a

/-- The head, moved past a SKIP that stands there (R314, R318). -/
def Core.pastSkip (c : Core) (d : PipeDecl) (h t : Nat) : Nat :=
  if h = t then h else
  let v := Memory.val c.spad (4096 * d.rbase + h % d.ring) 8
  if bits v 24 4 = 0 then (h + bits v 0 24) % (2 * d.ring) else h

/-- What PRECV lands: payload length, type and payload address (R318), from the header in a and its address in b. -/
def fxPrecv (w : SIWord) (a b : Lanes × LMask) : List (Nat × Eff) :=
  let v := (uncapS a).1.toNat
  let len := (bits v 0 24 + 2 ^ 24 - 8) % 2 ^ 24
  [(2, .sland w.d.toNat (BitVec.ofNat 64 (len * 2 ^ 32 + bits v 24 4 * 2 ^ 24 + (uncapS b).1.toNat + 8)) (uncapS a).2)]

/-- PRECV (R318). -/
def execPrecv (w : SIWord) (s : State) : Out :=
  let h := hdS (.precv w) w.idle (some 2)
  issueWord h noPre (fun _ => refS w.d.toNat)
    (fun cx s =>
      let n := s.cur
      let c := s.core n
      let p := w.imm.toNat % 8
      match c.pipeFor p false with
      | none => .trap 0x14 (pipeTval 0 p)
      | some d =>
        let t := (c.tv.toList)[p]?.getD 0
        let hd := c.pastSkip d (c.arch.pipe p).head t
        if hd = t then .freeze s
        else
          let a := 4096 * d.rbase + hd % d.ring
          let r := s.spRead n a 8
          let ca := capS (BitVec.ofNat 64 (leVal r.1), r.2.1)
          let cb := capS (BitVec.ofNat 64 a, false)
          .ok (r.2.2.addOp n cx 0 ⟨0, 0⟩ ca cb capNone h.len (fxPrecv w ca cb)) (.seq 0)) s

/-- PRELEASE (R319): moves H_c past the head record and holds its publication. -/
def execPrelease (w : SIWord) (s : State) : Out :=
  issueWord (hdS (.prelease w) w.idle none) noPre (fun _ => [])
    (fun _ s =>
      let n := s.cur
      let c := s.core n
      let p := w.imm.toNat % 8
      match c.pipeFor p false with
      | none => .trap 0x14 (pipeTval 0 p)
      | some d =>
        let t := (c.tv.toList)[p]?.getD 0
        let x := c.arch.pipe p
        if x.head = t then .trap 0x14 (pipeTval 2 p)
        else
          let hd := c.pastSkip d x.head t
          let len := bits (Memory.val c.spad (4096 * d.rbase + hd % d.ring) 8) 0 24
          let new := (hd + roundUp len 64) % (2 * d.ring)
          let s := s.updCore n (fun c => { c with arch := c.arch.setPipe p { x with head := new } })
          .ok (s.hold n s.nextId 16 (.pipeHead p new)) (.seq 0)) s

/-- PSEND (R316). -/
def execPsend (w : CWord) (s : State) : Out :=
  let h := mkHead (.psend w) w.idle (w.rot != 0) w.stage none
  let kf (cx : Ctx) := rotS cx (w.rot.getLsbD 2) w.src.toNat
  let ks (cx : Ctx) := rotS cx (w.rot.getLsbD 1) w.shape.toNat
  issueWord h noPre (fun cx => refS (kf cx) ++ refS (ks cx))
    (fun cx s =>
      let n := s.cur
      let c := s.core n
      let p := w.aux.toNat
      match c.pipeFor p true with
      | none => .trap 0x14 (pipeTval 0 p)
      | some d =>
        match psnTrap c cx [kf cx, ks cx] with
        | some r => r
        | none =>
          let a := (readS c cx (kf cx)).1.toNat
          let len := (readS c cx (ks cx)).1.toNat
          let units := roundUp len 65536 / 65536
          let dur := roundUp len 64 / 64
          if a % 8 ≠ 0 then .trap 0x05 (BitVec.ofNat 64 a)
          else if len % 8 ≠ 0 then .trap 0x05 (BitVec.ofNat 64 len)
          else if 65536 ≤ len && !c.covered cx.dt units dur then .trap 0x0C (BitVec.ofNat 64 units)
          else match ownRange n a (if 2 ^ 24 - 9 < len then 0 else len) with
          | .inl bad => .trap 0x06 (BitVec.ofNat 64 bad)
          | .inr off =>
            if 2 ^ 24 - 9 < len then .trap 0x06 (BitVec.ofNat 64 len)
            else
              let z := d.ring
              let x := c.arch.pipe p
              let m := roundUp (8 + len) 64
              let at_ := x.tail % z
              let skip := if z < at_ + m then z - at_ else 0
              let k := m + skip
              let occ := (x.tail + 2 * z - (c.hv.toList)[p]?.getD 0 % (2 * z)) % (2 * z)
              if 64 * d.worst < occ + k then .trap 0x14 (pipeTval 1 p)
              else if 1024 < c.slotsUsed + k / 64 then .trap 0x0D (BitVec.ofNat 64 a)
              else match emptyCheck s n (granRange off len) with
              | some r => r
              | none =>
                let r := s.spRead n off len
                let hd := leBytes 8 (x.serial.toNat * 2 ^ 32 + w.rtype.toNat * 2 ^ 24 + (8 + len))
                let body := hd ++ r.1 ++ List.replicate (m - 8 - len) (0 : Byte)
                let sk := leBytes 8 (x.serial.toNat * 2 ^ 32 + skip) ++ List.replicate (skip - 8) (0 : Byte)
                let s1 := r.2.2
                let op := s1.nextId
                let s2 := if skip = 0 then s1 else s1.hold n op 16 (.pipeRec p at_ sk x.tail)
                let tail := (x.tail + k) % (2 * z)
                let s3 := s2.hold n op 16 (.pipeRec p (if skip = 0 then at_ else 0) body tail)
                .ok (s3.updCore n (fun c =>
                  let c := { c with arch := c.arch.setPipe p { x with tail := tail, serial := x.serial + 1 } }
                  if 65536 ≤ len then c.addHeavy cx.dt units dur else c)) (.seq 0)) s

end Sys2Proof.Machine
end

