-- ==== Sys2Proof/Machine/VectorArith.lean ====
section
/-! DEFINITION. Vector arithmetic, compare, select, convert and integer words, and the mask words (R158 to R173). -/
namespace Sys2Proof.Machine

/-! ### Lanes, masks and operands of VA-form words -/

/-- A mask with the bits that satisfy `p`. -/
def maskOf (p : Fin 64 → Bool) : LMask :=
  (List.finRange 64).foldl (fun m i => if p i then m ||| (1 <<< i.val) else m) 0

/-- A mask in an operand capture: its bits in lanes 0 and 1 (R358). -/
def capK (k : KReg) : Lanes × LMask := ((capS (k.bits, false)).1, k.psn)

/-- The mask in an operand capture. -/
def uncapK (c : Lanes × LMask) : KReg := ⟨(uncapS c).1, c.2⟩

end Sys2Proof.Machine

namespace Sys2Proof

/-- The vector operand codes of a VA-form word after rotation (R92 to R94). -/
def VAWord.kd (w : VAWord) (cx : Machine.Ctx) : Nat := Machine.rotV cx (w.rot.getLsbD 3) w.d.toNat
/-- See `VAWord.kd`. -/
def VAWord.ka (w : VAWord) (cx : Machine.Ctx) : Nat := Machine.rotV cx (w.rot.getLsbD 2) w.a.toNat
/-- See `VAWord.kd`. -/
def VAWord.kb (w : VAWord) (cx : Machine.Ctx) : Nat := Machine.rotV cx (w.rot.getLsbD 1) w.b.toNat
/-- See `VAWord.kd`. -/
def VAWord.kc (w : VAWord) (cx : Machine.Ctx) : Nat := Machine.rotV cx (w.rot.getLsbD 0) w.c.toNat
/-- The scalar operand codes of a VA-form word after rotation. -/
def VAWord.sd (w : VAWord) (cx : Machine.Ctx) : Nat := Machine.rotS cx (w.rot.getLsbD 3) w.d.toNat
/-- See `VAWord.sd`. -/
def VAWord.sa (w : VAWord) (cx : Machine.Ctx) : Nat := Machine.rotS cx (w.rot.getLsbD 2) w.a.toNat
/-- See `VAWord.sd`. -/
def VAWord.sb (w : VAWord) (cx : Machine.Ctx) : Nat := Machine.rotS cx (w.rot.getLsbD 1) w.b.toNat
/-- Zeroing rather than merging (R162). -/
def VAWord.zeroing (w : VAWord) : Bool := w.mz == 1

end Sys2Proof

namespace Sys2Proof.Machine

/-- The head of a VA-form word (R94). -/
def hdVA (i : Instr) (w : VAWord) (push : Option (Bool × Nat)) : Head := mkHead i w.idle (w.rot != 0) w.stage push

/-- The flags of the lanes that a mask selects, as an effect of the landing cycle (R71, R162). -/
def flagEff (lat : Nat) (fl : Flags) : List (Nat × Eff) := if fl = 0 then [] else [(lat, .flags fl)]

/-- A vector result computed lane by lane in the selected lanes, with its flags (R162). -/
def fxLanes (lat d : Nat) (mz : Bool) (m : KReg) (psn : LMask) (f : Fin 64 → BitVec 32 × Flags) : List (Nat × Eff) :=
  let r : Vector (BitVec 32 × Flags) 64 := Vector.ofFn (fun i => if m.bits.getLsbD i.val then f i else (0, 0))
  (lat, .vland d (r.map (·.1)) psn m.bits m.psn mz) :: flagEff lat (r.foldl (fun o x => o ||| x.2) 0)

/-- A VA-form word with vector operands: which of a, b, c it reads, its latency and its effects from the captures. -/
def opVA (i : Instr) (w : VAWord) (lat : Nat) (ua ub uc : Bool)
    (fx : Ctx → RCtx → KReg → Lanes × LMask → Lanes × LMask → Lanes × LMask → List (Nat × Eff)) (s : State) : Out :=
  let h := hdVA i w (some (true, lat))
  issueWord h noPre
    (fun cx => refV (w.kd cx) ++ (if ua then refV (w.ka cx) else []) ++ (if ub then refV (w.kb cx) else []) ++
      (if uc then refV (w.kc cx) else []))
    (fun cx s =>
      let c := s.core s.cur
      let im : BitVec 32 := w.imm.truncate 32
      let a := if ua then readV c cx (w.ka cx) im else capNone
      let b := if ub then readV c cx (w.kb cx) im else capNone
      let o := if uc then readV c cx (w.kc cx) im else capNone
      let m := readK c w.mask.toNat
      .ok (s.addOp s.cur cx 1 m a b o h.len (fx cx (c.rctx cx) m a b o)) (.seq 0)) s

/-! ### Floating point (R166, R167) -/

/-- A lane as an FP32 value. -/
def l32 (x : BitVec 32) : FV := FV.ofBits fp32 x.toNat

/-- A floating-point lane result as a lane. -/
def toLane (r : Nat × Flags) : BitVec 32 × Flags := (BitVec.ofNat 32 r.1, r.2)

/-- An FP32 word of R166: `g` computes a lane from its mode and operand lanes. -/
def fxVf (lat : Nat) (g : Mode → BitVec 32 → BitVec 32 → BitVec 32 → Nat × Flags) (w : VAWord) (cx : Ctx) (rc : RCtx)
    (m : KReg) (a b o : Lanes × LMask) : List (Nat × Eff) :=
  fxLanes lat (w.kd cx) w.zeroing m (a.2 ||| b.2 ||| o.2)
    (fun i => toLane (g (rc.mode w.rnd.toNat 0 i.val) (a.1.get i) (b.1.get i) (o.1.get i)))

/-- An FP32 word whose results the shade units of the lanes check by `sh`: result, a, b, c (R328). Masked-off lanes are not checked. -/
def fxVfs (g : Mode → BitVec 32 → BitVec 32 → BitVec 32 → Nat × Flags) (sh : FV → FV → FV → FV → Bool) (w : VAWord) (cx : Ctx) (rc : RCtx)
    (m : KReg) (a b o : Lanes × LMask) : List (Nat × Eff) :=
  fxVf 6 g w cx rc m a b o ++ shadeEff 6 1 cx ((List.finRange 64).all (fun i => !m.bits.getLsbD i.val ||
    sh (FV.ofBits fp32 (g (rc.mode w.rnd.toNat 0 i.val) (a.1.get i) (b.1.get i) (o.1.get i)).1) (l32 (a.1.get i)) (l32 (b.1.get i)) (l32 (o.1.get i))))

/-- The checks of the shade units of the lanes on a result x of operands a, b and c (R166, R328, R329). -/
def shadeVadd : FV → FV → FV → FV → Bool := fun x a b _ => shadeAdd fp32 x a b
/-- See `shadeVadd`. -/
def shadeVsub : FV → FV → FV → FV → Bool := fun x a b _ => shadeAdd fp32 x a b.neg
/-- See `shadeVadd`. -/
def shadeVmul : FV → FV → FV → FV → Bool := fun x a b _ => shadeMul fp32 x a b
/-- See `shadeVadd`. -/
def shadeVfma : FV → FV → FV → FV → Bool := fun x a b c => shadeFma fp32 x a b c
/-- See `shadeVadd`. -/
def shadeVfms : FV → FV → FV → FV → Bool := fun x a b c => shadeFma fp32 x a b c.neg
/-- See `shadeVadd`. -/
def shadeVfnma : FV → FV → FV → FV → Bool := fun x a b c => shadeFma fp32 x a.neg b c

/-- A lane of VADD. -/
def laneVadd : Mode → BitVec 32 → BitVec 32 → BitVec 32 → Nat × Flags := fun md x y _ => fAdd fp32 md (l32 x) (l32 y)

/-- VADD (R166). Adds FP32 lanes under the mask, landing after 6 cycles. -/
def execVadd (w : VAWord) (s : State) : Out :=
  opVA (.vadd w) w 6 true true false (fun cx rc m a b o => fxVfs laneVadd shadeVadd w cx rc m a b o) s

/-- A lane of VSUB. -/
def laneVsub : Mode → BitVec 32 → BitVec 32 → BitVec 32 → Nat × Flags := fun md x y _ => fAdd fp32 md (l32 x) (l32 y).neg

/-- VSUB (R166). Subtracts FP32 lanes. -/
def execVsub (w : VAWord) (s : State) : Out :=
  opVA (.vsub w) w 6 true true false (fun cx rc m a b o => fxVfs laneVsub shadeVsub w cx rc m a b o) s

/-- A lane of VMUL. -/
def laneVmul : Mode → BitVec 32 → BitVec 32 → BitVec 32 → Nat × Flags := fun md x y _ => fMul fp32 md (l32 x) (l32 y)

/-- VMUL (R166). Multiplies FP32 lanes. -/
def execVmul (w : VAWord) (s : State) : Out :=
  opVA (.vmul w) w 6 true true false (fun cx rc m a b o => fxVfs laneVmul shadeVmul w cx rc m a b o) s

/-- A lane of VFMA. -/
def laneVfma : Mode → BitVec 32 → BitVec 32 → BitVec 32 → Nat × Flags := fun md x y z => fFma fp32 md (l32 x) (l32 y) (l32 z)

/-- VFMA (R166). Computes a × b + c per FP32 lane with one rounding. -/
def execVfma (w : VAWord) (s : State) : Out :=
  opVA (.vfma w) w 6 true true true (fun cx rc m a b o => fxVfs laneVfma shadeVfma w cx rc m a b o) s

/-- A lane of VFMS. -/
def laneVfms : Mode → BitVec 32 → BitVec 32 → BitVec 32 → Nat × Flags := fun md x y z => fFma fp32 md (l32 x) (l32 y) (l32 z).neg

/-- VFMS (R166). Computes a × b − c per FP32 lane with one rounding. -/
def execVfms (w : VAWord) (s : State) : Out :=
  opVA (.vfms w) w 6 true true true (fun cx rc m a b o => fxVfs laneVfms shadeVfms w cx rc m a b o) s

/-- A lane of VFNMA. -/
def laneVfnma : Mode → BitVec 32 → BitVec 32 → BitVec 32 → Nat × Flags := fun md x y z => fFma fp32 md (l32 x).neg (l32 y) (l32 z)

/-- VFNMA (R166). Computes −(a × b) + c per FP32 lane with one rounding. -/
def execVfnma (w : VAWord) (s : State) : Out :=
  opVA (.vfnma w) w 6 true true true (fun cx rc m a b o => fxVfs laneVfnma shadeVfnma w cx rc m a b o) s

/-- A lane of VMIN. -/
def laneVmin : Mode → BitVec 32 → BitVec 32 → BitVec 32 → Nat × Flags := fun _ x y _ => fMinMax fp32 false x.toNat y.toNat

/-- VMIN (R166). Lands the lesser FP32 lane. -/
def execVmin (w : VAWord) (s : State) : Out :=
  opVA (.vmin w) w 2 true true false (fun cx rc m a b o => fxVf 2 laneVmin w cx rc m a b o) s

/-- A lane of VMAX. -/
def laneVmax : Mode → BitVec 32 → BitVec 32 → BitVec 32 → Nat × Flags := fun _ x y _ => fMinMax fp32 true x.toNat y.toNat

/-- VMAX (R166). Lands the greater FP32 lane. -/
def execVmax (w : VAWord) (s : State) : Out :=
  opVA (.vmax w) w 2 true true false (fun cx rc m a b o => fxVf 2 laneVmax w cx rc m a b o) s

/-- A lane of VABS. -/
def laneVabs : Mode → BitVec 32 → BitVec 32 → BitVec 32 → Nat × Flags := fun _ x _ _ => ((x &&& 0x7FFFFFFF).toNat, 0)

/-- VABS (R166). Clears the sign bit of each lane. -/
def execVabs (w : VAWord) (s : State) : Out :=
  opVA (.vabs w) w 2 true false false (fun cx rc m a b o => fxVf 2 laneVabs w cx rc m a b o) s

/-- A lane of VNEG. -/
def laneVneg : Mode → BitVec 32 → BitVec 32 → BitVec 32 → Nat × Flags := fun _ x _ _ => ((x ^^^ 0x80000000).toNat, 0)

/-- VNEG (R166). Inverts the sign bit of each lane. -/
def execVneg (w : VAWord) (s : State) : Out :=
  opVA (.vneg w) w 2 true false false (fun cx rc m a b o => fxVf 2 laneVneg w cx rc m a b o) s

/-- A lane of VRCP. -/
def laneVrcp : Mode → BitVec 32 → BitVec 32 → BitVec 32 → Nat × Flags := fun md x _ _ => fRcp fp32 md (l32 x)

/-- VRCP (R166, R167). Computes the correctly rounded reciprocal of each lane. -/
def execVrcp (w : VAWord) (s : State) : Out :=
  opVA (.vrcp w) w 10 true false false (fun cx rc m a b o => fxVf 10 laneVrcp w cx rc m a b o) s

/-- A lane of VRSQ. -/
def laneVrsq : Mode → BitVec 32 → BitVec 32 → BitVec 32 → Nat × Flags := fun md x _ _ => fRsq fp32 md (l32 x)

/-- VRSQ (R166, R167). Computes the correctly rounded reciprocal square root of each lane. -/
def execVrsq (w : VAWord) (s : State) : Out :=
  opVA (.vrsq w) w 10 true false false (fun cx rc m a b o => fxVf 10 laneVrsq w cx rc m a b o) s

/-- A lane of VEXP2. -/
def laneVexp2 : Mode → BitVec 32 → BitVec 32 → BitVec 32 → Nat × Flags := fun md x _ _ => fExp2 fp32 md (l32 x)

/-- VEXP2 (R166, R167). Computes 2^a for each lane. -/
def execVexp2 (w : VAWord) (s : State) : Out :=
  opVA (.vexp2 w) w 10 true false false (fun cx rc m a b o => fxVf 10 laneVexp2 w cx rc m a b o) s

/-- A lane of VLOG2. -/
def laneVlog2 : Mode → BitVec 32 → BitVec 32 → BitVec 32 → Nat × Flags := fun md x _ _ => fLog2 fp32 md (l32 x)

/-- VLOG2 (R166, R167). Computes log2 a for each lane. -/
def execVlog2 (w : VAWord) (s : State) : Out :=
  opVA (.vlog2 w) w 10 true false false (fun cx rc m a b o => fxVf 10 laneVlog2 w cx rc m a b o) s

/-- A lane of VCLASS. -/
def laneVclass : Mode → BitVec 32 → BitVec 32 → BitVec 32 → Nat × Flags := fun _ x _ _ => (fClass fp32 x.toNat, 0)

/-- VCLASS (R166). Lands the class mask of each FP32 lane. -/
def execVclass (w : VAWord) (s : State) : Out :=
  opVA (.vclass w) w 2 true false false (fun cx rc m a b o => fxVf 2 laneVclass w cx rc m a b o) s

/-! ### Compare, select, class (R168, R169) -/

/-- The condition of VCMP on two patterns (R168). -/
def vcmpBit (cc : Nat) (x y : BitVec 32) : Bool :=
  let a := l32 x
  let b := l32 y
  if a.isNan || b.isNan then cc = 1 || cc = 6
  else
    let o := fCompare a b
    if cc = 0 then o == .eq else if cc = 1 then o != .eq else if cc = 2 then o == .lt else if cc = 3 then o != .gt
    else if cc = 4 then o == .gt else if cc = 5 then o != .lt else cc = 7

/-- A mask result computed bit by bit in the selected lanes, with its flags (R163). -/
def fxBits (lat d : Nat) (mz : Bool) (m : KReg) (psn : LMask) (f : Fin 64 → Bool × Flags) : List (Nat × Eff) :=
  (lat, .kland d (maskOf (fun i => m.bits.getLsbD i.val && (f i).1)) psn m.bits m.psn mz) ::
    flagEff lat ((List.finRange 64).foldl (fun o i => if m.bits.getLsbD i.val then o ||| (f i).2 else o) 0)

/-- The effects of VCMP (R168). -/
def fxVcmp (w : VAWord) (m : KReg) (a b : Lanes × LMask) : List (Nat × Eff) :=
  fxBits 2 w.d.toNat w.zeroing m (a.2 ||| b.2)
    (fun i => (vcmpBit (w.imm.toNat % 8) (a.1.get i) (b.1.get i), sigFlag [l32 (a.1.get i), l32 (b.1.get i)]))

/-- The condition of VICMP (R172). -/
def vicmpBit (cc : Nat) (x y : BitVec 32) : Bool :=
  if cc = 0 then x == y else if cc = 1 then x != y else if cc = 2 then x.slt y else if cc = 3 then !y.slt x
  else if cc = 4 then y.slt x else if cc = 5 then !x.slt y else if cc = 6 then x.ult y else !x.ult y

/-- The effects of VICMP (R172). -/
def fxVicmp (w : VAWord) (m : KReg) (a b : Lanes × LMask) : List (Nat × Eff) :=
  fxBits 2 w.d.toNat w.zeroing m (a.2 ||| b.2) (fun i => (vicmpBit (w.imm.toNat % 8) (a.1.get i) (b.1.get i), 0))

/-- A word with two vector operands whose result is a mask. -/
def opCmp (i : Instr) (w : VAWord) (fx : KReg → Lanes × LMask → Lanes × LMask → List (Nat × Eff)) (s : State) : Out :=
  let h := hdVA i w none
  issueWord h noPre (fun cx => refV (w.ka cx) ++ refV (w.kb cx))
    (fun cx s =>
      let c := s.core s.cur
      let im : BitVec 32 := w.imm.truncate 32
      let a := readV c cx (w.ka cx) im
      let b := readV c cx (w.kb cx) im
      let m := readK c w.mask.toNat
      .ok (s.addOp s.cur cx 1 m a b capNone h.len (fx m a b)) (.seq 0)) s

/-- VCMP (R168). -/
def execVcmp (w : VAWord) (s : State) : Out := opCmp (.vcmp w) w (fxVcmp w) s

/-- VICMP (R172). -/
def execVicmp (w : VAWord) (s : State) : Out := opCmp (.vicmp w) w (fxVicmp w) s

/-- The effects of VSEL (R169): the selector mask stands in capture c. -/
def fxVsel (w : VAWord) (cx : Ctx) (m : KReg) (a b o : Lanes × LMask) : List (Nat × Eff) :=
  let k := uncapK o
  fxLanes 2 (w.kd cx) w.zeroing m ((k.bits &&& a.2) ||| (~~~k.bits &&& b.2) ||| k.psn)
    (fun i => (if k.bits.getLsbD i.val then a.1.get i else b.1.get i, 0))

/-- VSEL (R169). -/
def execVsel (w : VAWord) (s : State) : Out :=
  let h := hdVA (.vsel w) w (some (true, 2))
  issueWord h noPre (fun cx => refV (w.kd cx) ++ refV (w.ka cx) ++ refV (w.kb cx))
    (fun cx s =>
      let c := s.core s.cur
      let a := readV c cx (w.ka cx) 0
      let b := readV c cx (w.kb cx) 0
      let o := capK (readK c w.c.toNat)
      let m := readK c w.mask.toNat
      .ok (s.addOp s.cur cx 1 m a b o h.len (fxVsel w cx m a b o)) (.seq 0)) s

/-! ### Conversion (R170) -/

/-- The floating-point format of a type code (R96). -/
def tyFmt (t : Nat) : Option Fmt :=
  if t = 4 then some fp32 else if t = 5 then some bf16 else if t = 6 then some fp16 else if t = 7 then some e4m3
  else if t = 8 then some e5m2 else none

/-- The width in bits of an element of a type (R55). -/
def tyBits (t : Nat) : Nat :=
  if t = 0 || t = 1 || t = 7 || t = 8 then 8 else if t = 2 || t = 5 || t = 6 then 16 else if t = 12 then 4 else 32

/-- The range of an integer type (R61). -/
def tyLo (t : Nat) : Int := if t = 1 then 0 else -(2 ^ (tyBits t - 1) : Nat)
/-- See `tyLo`. -/
def tyHi (t : Nat) : Int := if t = 1 then 255 else (2 ^ (tyBits t - 1) : Nat) - 1

/-- The value of an integer pattern of a type (R61, R62). -/
def tyInt (t v : Nat) : Int :=
  let n := tyBits t
  let x := v % 2 ^ n
  if t ≠ 1 && 2 ^ (n - 1) ≤ x then (x : Int) - (2 ^ n : Nat) else x

/-- An FP32 pattern converted to a type; INT32 included (R67, R68). -/
def fromF32 (t : Nat) (md : Mode) (x : Nat) : Nat × Flags :=
  match tyFmt t with
  | some f => fConvert fp32 f md x
  | none => let r := fToInt fp32 md (tyLo t) (tyHi t) x; (intBits (tyBits t) r.1, r.2)

/-- A pattern of a type converted to FP32 (R67, R69). -/
def toF32 (t : Nat) (md : Mode) (x : Nat) : Nat × Flags :=
  match tyFmt t with
  | some f => fConvert f fp32 md (x % 2 ^ tyBits t)
  | none => fOfInt fp32 md (tyInt t x)

/-- An INT32 pattern converted to a type (R69). -/
def fromI32 (t : Nat) (md : Mode) (x : Nat) : Nat × Flags :=
  match tyFmt t with
  | some f => fOfInt f md (tyInt 3 x)
  | none => let r := satInt (tyLo t) (tyHi t) (tyInt 3 x); (intBits (tyBits t) r.1, r.2)

/-- A pattern of a type converted to INT32 (R68, R69). -/
def toI32 (t : Nat) (md : Mode) (x : Nat) : Nat × Flags :=
  match tyFmt t with
  | some f => let r := fToInt f md (tyLo 3) (tyHi 3) (x % 2 ^ tyBits t); (intBits 32 r.1, r.2)
  | none => (intBits 32 (tyInt t x), 0)

/-- A lane of VCVT, by direction (R170). -/
def vcvt (dir t : Nat) (md : Mode) (x : BitVec 32) : Nat × Flags :=
  if dir = 0 then fromF32 t md x.toNat else if dir = 1 then toF32 t md x.toNat
  else if dir = 2 then fromI32 t md x.toNat else toI32 t md x.toNat

/-- VCVT (R170). Converts lanes between FP32 or INT32 and a narrow format. -/
def execVcvt (w : VAWord) (s : State) : Out :=
  opVA (.vcvt w) w 4 true false false (fun cx rc m a b o => fxVf 4 (fun md x _ _ => vcvt (w.imm.toNat % 4) w.ty.toNat md x) w cx rc m a b o) s

/-! ### Integer words (R171) -/

/-- An INT32 word of R171. -/
def fxVi (lat : Nat) (g : BitVec 32 → BitVec 32 → BitVec 32 → BitVec 32 × Flags) (w : VAWord) (cx : Ctx) (m : KReg)
    (a b o : Lanes × LMask) : List (Nat × Eff) :=
  fxLanes lat (w.kd cx) w.zeroing m (a.2 ||| b.2 ||| o.2) (fun i => g (a.1.get i) (b.1.get i) (o.1.get i))

/-- An exact integer clamped to INT32, with sat when it changes (R171). -/
def clamp32 (v : Int) : BitVec 32 × Flags := let r := satInt (tyLo 3) (tyHi 3) v; (BitVec.ofInt 32 r.1, r.2)

/-- A lane of VIADD. -/
def laneViadd (w : VAWord) : BitVec 32 → BitVec 32 → BitVec 32 → BitVec 32 × Flags := fun x y _ =>
  if w.imm.getLsbD 0 then clamp32 (x.toInt + y.toInt) else (x + y, 0)

/-- VIADD (R171). Adds INT32 lanes, optionally saturating. -/
def execViadd (w : VAWord) (s : State) : Out :=
  opVA (.viadd w) w 2 true true false (fun cx _ m a b o => fxVi 2 (laneViadd w) w cx m a b o) s

/-- A lane of VISUB. -/
def laneVisub (w : VAWord) : BitVec 32 → BitVec 32 → BitVec 32 → BitVec 32 × Flags := fun x y _ =>
  if w.imm.getLsbD 0 then clamp32 (x.toInt - y.toInt) else (x - y, 0)

/-- VISUB (R171). Subtracts INT32 lanes, optionally saturating. -/
def execVisub (w : VAWord) (s : State) : Out :=
  opVA (.visub w) w 2 true true false (fun cx _ m a b o => fxVi 2 (laneVisub w) w cx m a b o) s

/-- A lane of VIMUL. -/
def laneVimul (w : VAWord) : BitVec 32 → BitVec 32 → BitVec 32 → BitVec 32 × Flags := fun x y _ =>
  (if w.imm.toNat % 4 = 0 then x * y else if w.imm.toNat % 4 = 1 then BitVec.ofInt 32 (x.toInt * y.toInt / 2 ^ 32) else BitVec.ofNat 32 (x.toNat * y.toNat / 2 ^ 32), 0)

/-- VIMUL (R171). Multiplies INT32 lanes, keeping the low or high half. -/
def execVimul (w : VAWord) (s : State) : Out :=
  opVA (.vimul w) w 4 true true false (fun cx _ m a b o => fxVi 4 (laneVimul w) w cx m a b o) s

/-- A lane of VIMAD. -/
def laneVimad : BitVec 32 → BitVec 32 → BitVec 32 → BitVec 32 × Flags := fun x y z =>
  (x * y + z, 0)

/-- VIMAD (R171). Computes the low 32 bits of a × b + c per lane. -/
def execVimad (w : VAWord) (s : State) : Out :=
  opVA (.vimad w) w 4 true true true (fun cx _ m a b o => fxVi 4 laneVimad w cx m a b o) s

/-- A lane of VAND. -/
def laneVand : BitVec 32 → BitVec 32 → BitVec 32 → BitVec 32 × Flags := fun x y _ =>
  (x &&& y, 0)

/-- VAND (R171). ANDs INT32 lanes. -/
def execVand (w : VAWord) (s : State) : Out :=
  opVA (.vand w) w 2 true true false (fun cx _ m a b o => fxVi 2 laneVand w cx m a b o) s

/-- A lane of VOR. -/
def laneVor : BitVec 32 → BitVec 32 → BitVec 32 → BitVec 32 × Flags := fun x y _ =>
  (x ||| y, 0)

/-- VOR (R171). ORs INT32 lanes. -/
def execVor (w : VAWord) (s : State) : Out :=
  opVA (.vor w) w 2 true true false (fun cx _ m a b o => fxVi 2 laneVor w cx m a b o) s

/-- A lane of VXOR. -/
def laneVxor : BitVec 32 → BitVec 32 → BitVec 32 → BitVec 32 × Flags := fun x y _ =>
  (x ^^^ y, 0)

/-- VXOR (R171). XORs INT32 lanes. -/
def execVxor (w : VAWord) (s : State) : Out :=
  opVA (.vxor w) w 2 true true false (fun cx _ m a b o => fxVi 2 laneVxor w cx m a b o) s

/-- A lane of VANDN. -/
def laneVandn : BitVec 32 → BitVec 32 → BitVec 32 → BitVec 32 × Flags := fun x y _ =>
  (x &&& ~~~y, 0)

/-- VANDN (R171). Computes a AND NOT b per lane. -/
def execVandn (w : VAWord) (s : State) : Out :=
  opVA (.vandn w) w 2 true true false (fun cx _ m a b o => fxVi 2 laneVandn w cx m a b o) s

/-- A lane of VSHL. -/
def laneVshl : BitVec 32 → BitVec 32 → BitVec 32 → BitVec 32 × Flags := fun x y _ =>
  (x <<< (y.toNat % 32), 0)

/-- VSHL (R171). Shifts lanes left. -/
def execVshl (w : VAWord) (s : State) : Out :=
  opVA (.vshl w) w 2 true true false (fun cx _ m a b o => fxVi 2 laneVshl w cx m a b o) s

/-- A lane of VSHR. -/
def laneVshr : BitVec 32 → BitVec 32 → BitVec 32 → BitVec 32 × Flags := fun x y _ =>
  (x >>> (y.toNat % 32), 0)

/-- VSHR (R171). Shifts lanes right logically. -/
def execVshr (w : VAWord) (s : State) : Out :=
  opVA (.vshr w) w 2 true true false (fun cx _ m a b o => fxVi 2 laneVshr w cx m a b o) s

/-- A lane of VSRA. -/
def laneVsra : BitVec 32 → BitVec 32 → BitVec 32 → BitVec 32 × Flags := fun x y _ =>
  (x.sshiftRight (y.toNat % 32), 0)

/-- VSRA (R171). Shifts lanes right arithmetically. -/
def execVsra (w : VAWord) (s : State) : Out :=
  opVA (.vsra w) w 2 true true false (fun cx _ m a b o => fxVi 2 laneVsra w cx m a b o) s

/-- A lane of VIMIN. -/
def laneVimin (w : VAWord) : BitVec 32 → BitVec 32 → BitVec 32 → BitVec 32 × Flags := fun x y _ =>
  (if (if w.imm.getLsbD 0 then x.ult y else x.slt y) then x else y, 0)

/-- VIMIN (R171). Lands the smaller INT32 lane, signed or unsigned. -/
def execVimin (w : VAWord) (s : State) : Out :=
  opVA (.vimin w) w 2 true true false (fun cx _ m a b o => fxVi 2 (laneVimin w) w cx m a b o) s

/-- A lane of VIMAX. -/
def laneVimax (w : VAWord) : BitVec 32 → BitVec 32 → BitVec 32 → BitVec 32 × Flags := fun x y _ =>
  (if (if w.imm.getLsbD 0 then x.ult y else x.slt y) then y else x, 0)

/-- VIMAX (R171). Lands the larger INT32 lane, signed or unsigned. -/
def execVimax (w : VAWord) (s : State) : Out :=
  opVA (.vimax w) w 2 true true false (fun cx _ m a b o => fxVi 2 (laneVimax w) w cx m a b o) s

/-! ### Mask words (R173) -/

/-- A mask result that writes every bit. -/
def fxK (d : Nat) (k : KReg) : List (Nat × Eff) := [(1, .kland d k.bits k.psn (BitVec.allOnes 64) 0 false)]

/-- A word whose sources are masks `ka` and, where `two`, `kb`. -/
def opK (i : Instr) (w : VAWord) (push : Option (Bool × Nat)) (two : Bool) (regs : Ctx → List Ref)
    (fx : Ctx → Lanes × LMask → Lanes × LMask → List (Nat × Eff)) (s : State) : Out :=
  let h := hdVA i w push
  issueWord h noPre regs
    (fun cx s =>
      let c := s.core s.cur
      let a := capK (readK c w.a.toNat)
      let b := if two then capK (readK c w.b.toNat) else capNone
      .ok (s.addOp s.cur cx 1 ⟨0, 0⟩ a b capNone h.len (fx cx a b)) (.seq 0)) s

/-- The effects of a bitwise operation on two masks. -/
def fxK2 (f : LMask → LMask → LMask) (w : VAWord) (a b : Lanes × LMask) : List (Nat × Eff) :=
  fxK w.d.toNat ⟨f (uncapK a).bits (uncapK b).bits, a.2 ||| b.2⟩

/-- KAND (R173). ANDs two masks. -/
def execKand (w : VAWord) (s : State) : Out :=
  opK (.kand w) w none true (fun _ => []) (fun _ a b => fxK2 (fun x y => x &&& y) w a b) s

/-- KOR (R173). ORs two masks. -/
def execKor (w : VAWord) (s : State) : Out :=
  opK (.kor w) w none true (fun _ => []) (fun _ a b => fxK2 (fun x y => x ||| y) w a b) s

/-- KXOR (R173). XORs two masks. -/
def execKxor (w : VAWord) (s : State) : Out :=
  opK (.kxor w) w none true (fun _ => []) (fun _ a b => fxK2 (fun x y => x ^^^ y) w a b) s

/-- KNOT (R173). Inverts a mask. -/
def execKnot (w : VAWord) (s : State) : Out :=
  opK (.knot w) w none false (fun _ => []) (fun _ a b => fxK2 (fun x _ => ~~~x) w a b) s

/-- KMOV (R173). Copies one mask to another. -/
def execKmov (w : VAWord) (s : State) : Out :=
  opK (.kmov w) w none false (fun _ => []) (fun _ a b => fxK2 (fun x _ => x) w a b) s

/-- The effects of KMOV from a scalar: every bit is poisoned if the scalar is. -/
def fxKfromS (w : VAWord) (a : Lanes × LMask) : List (Nat × Eff) :=
  let v := uncapS a
  fxK w.d.toNat ⟨v.1, if v.2 then BitVec.allOnes 64 else 0⟩

/-- KMOV_FROM_SCALAR (R173). -/
def execKmovFromScalar (w : VAWord) (s : State) : Out :=
  let h := hdVA (.kmovFromScalar w) w none
  issueWord h noPre (fun cx => refS (w.sa cx))
    (fun cx s =>
      let a := capS (readS (s.core s.cur) cx (w.sa cx))
      .ok (s.addOp s.cur cx 1 ⟨0, 0⟩ a capNone capNone h.len (fxKfromS w a)) (.seq 0)) s

/-- The effects of KMOV to a scalar: poisoned if any bit is. -/
def fxKtoS (w : VAWord) (cx : Ctx) (a : Lanes × LMask) : List (Nat × Eff) :=
  [(1, .sland (w.sd cx) (uncapK a).bits (a.2 != 0))]

/-- KMOV_TO_SCALAR (R173). -/
def execKmovToScalar (w : VAWord) (s : State) : Out :=
  opK (.kmovToScalar w) w (some (false, 1)) false (fun cx => refS (w.sd cx)) (fun cx a _ => fxKtoS w cx a) s

/-- The number of set bits of a mask. -/
def popMask (m : LMask) : Nat := (List.range 64).foldl (fun n i => if m.getLsbD i then n + 1 else n) 0

/-- The effects of KPOP. -/
def fxKpop (w : VAWord) (cx : Ctx) (a : Lanes × LMask) : List (Nat × Eff) :=
  [(2, .sland (w.sd cx) (BitVec.ofNat 64 (popMask (uncapK a).bits)) (a.2 != 0))]

/-- KPOP (R173). -/
def execKpop (w : VAWord) (s : State) : Out :=
  opK (.kpop w) w (some (false, 2)) false (fun cx => refS (w.sd cx)) (fun cx a _ => fxKpop w cx a) s

end Sys2Proof.Machine
end

