-- ==== Sys2Proof/Machine/VectorPerm.lean ====
section
/-! DEFINITION. Moving lanes, reductions, scans and the deferral queue (R183, R187 to R195). -/
namespace Sys2Proof.Machine

/-- The lowest set bit of a mask. -/
def lowBit (m : LMask) : Option Nat := (List.range 64).find? (fun i => m.getLsbD i)

/-- The bits of a mask from its lowest set bit upwards. -/
def tailMask (m : LMask) : LMask := match lowBit m with | some i => BitVec.allOnes 64 <<< i | none => 0

/-- The positions of the set bits of a mask, rising. -/
def setBits (m : LMask) : List Nat := (List.range 64).filter (fun i => m.getLsbD i)

/-- The number of set bits of a mask below bit `i` (R190). -/
def rankOf (m : LMask) (i : Nat) : Nat := ((List.range i).filter (fun j => m.getLsbD j)).length

/-- A lane of an operand capture, 0 beyond the last. -/
def laneAt (a : Lanes × LMask) (i : Nat) : BitVec 32 := if h : i < 64 then a.1[i] else 0

/-- TVAL of POISON for an operand with lanes (R178). -/
def lanePsnTval (lane code : Nat) : Word := BitVec.ofNat 64 (lane * 2 ^ 16 + code)

/-- The lane index that scalar operand b and imm[5:0] name (chapter 08, moving lanes). -/
def VAIdx (w : VAWord) (b : Word) : Nat := (b.toNat + w.imm.toNat % 64) % 64

/-- The mask of every lane when `p`. -/
def allIf (p : Bool) : LMask := if p then BitVec.allOnes 64 else 0

/-! ### Pattern registers (R183, R187) -/

/-- The positions at which an element starts in each period. -/
def patStarts (x : BitVec 160) : List Nat := (List.range 128).filter (fun s => x.getLsbD s)

/-- The period and width of a pattern. -/
def patPeriod (x : BitVec 160) : Nat := bits x.toNat 128 7 + 1
/-- See `patPeriod`. -/
def patWidth (x : BitVec 160) : Nat := bits x.toNat 136 4 + 1

/-- A pattern is legal, reserved bits included (R183). -/
def patLegal (x : BitVec 160) : Bool :=
  let p := patPeriod x
  let w := patWidth x
  let ss := patStarts x
  bits x.toNat 141 19 = 0 && bits x.toNat 135 1 = 0 && !ss.isEmpty && ss.all (fun s => s < p) &&
  (ss.zip ss.tail).all (fun q => q.1 + w ≤ q.2) && ss.getLastD 0 + w ≤ p + ss.headD 0

/-- VMOV of lanes (R187): bit for bit under the mask. -/
def execVmov (w : VAWord) (s : State) : Out :=
  opVA (.vmov w) w 2 true false false (fun cx _ m a b o => fxVi 2 (fun x _ _ => (x, 0)) w cx m a b o) s

/-- The pattern that lanes 0 to 4 hold. -/
def lanesPat (a : Lanes × LMask) : BitVec 160 :=
  BitVec.ofNat 160 ((List.range 5).foldl (fun n i => n + (laneAt a i).toNat * 2 ^ (32 * i)) 0)

/-- The effects of VMOV to a pattern register. -/
def fxVmovToX (w : VAWord) (a : Lanes × LMask) : List (Nat × Eff) :=
  [(1, .xland w.d.toNat (lanesPat a) (a.2.truncate 5))]

/-- VMOV to a pattern register (R187). -/
def execVmovToPattern (w : VAWord) (s : State) : Out :=
  let h := hdVA (.vmovToPattern w) w none
  issueWord h noPre (fun cx => refV (w.ka cx))
    (fun cx s =>
      let c := s.core s.cur
      let a := readV c cx (w.ka cx) 0
      if !patLegal (lanesPat a) then .trap 0x02 (c.fieldTval 67)
      else .ok (s.addOp s.cur cx 1 ⟨0, 0⟩ a capNone capNone h.len (fxVmovToX w a)) (.seq 0)) s

/-- A vector result in every lane. -/
def fxAll (lat d : Nat) (x : Lanes) (psn : LMask) : List (Nat × Eff) :=
  [(lat, .vland d x psn (BitVec.allOnes 64) 0 false)]

/-- A pattern register as an operand capture: lanes 0 to 4. -/
def capX (x : XReg) : Lanes × LMask :=
  (Vector.ofFn (fun i : Fin 64 => BitVec.ofNat 32 (x.bits.toNat / 2 ^ (32 * i.val))), x.psn.setWidth 64)

/-- The pattern register `n`. -/
def Core.xreg (c : Core) (n : Nat) : XReg := if h : n < 4 then c.arch.x[n] else {}

/-- VMOV from a pattern register (R187). -/
def execVmovFromPattern (w : VAWord) (s : State) : Out :=
  let h := hdVA (.vmovFromPattern w) w (some (true, 1))
  issueWord h noPre (fun cx => refV (w.kd cx))
    (fun cx s =>
      let a := capX ((s.core s.cur).xreg w.a.toNat)
      .ok (s.addOp s.cur cx 1 ⟨0, 0⟩ a capNone capNone h.len (fxAll 1 (w.kd cx) a.1 a.2)) (.seq 0)) s

/-! ### Lanes moved (R188, R189, R190) -/

/-- The effects of VEXT (R188), from the vector in a and the scalar in b. -/
def fxVext (w : VAWord) (cx : Ctx) (a b : Lanes × LMask) : List (Nat × Eff) :=
  let i := VAIdx w (uncapS b).1
  let v := laneAt a i
  [(2, .sland (w.sd cx) (if w.imm.getLsbD 6 then v.signExtend 64 else v.setWidth 64) (a.2.getLsbD i || (uncapS b).2))]

/-- VEXT (R188). -/
def execVext (w : VAWord) (s : State) : Out :=
  let h := hdVA (.vext w) w (some (false, 2))
  issueWord h noPre (fun cx => refS (w.sd cx) ++ refV (w.ka cx) ++ refS (w.sb cx))
    (fun cx s =>
      let c := s.core s.cur
      let a := readV c cx (w.ka cx) 0
      let b := capS (readS c cx (w.sb cx))
      .ok (s.addOp s.cur cx 1 ⟨0, 0⟩ a b capNone h.len (fxVext w cx a b)) (.seq 0)) s

/-- The effects of VINS (R188), from the scalars in a and b and d_old in c. -/
def fxVins (w : VAWord) (cx : Ctx) (a b o : Lanes × LMask) : List (Nat × Eff) :=
  let i := VAIdx w (uncapS b).1
  let x : Lanes := Vector.ofFn (fun j : Fin 64 => if j.val = i then (uncapS a).1.truncate 32 else o.1[j.val])
  let one : LMask := 1 <<< i
  fxAll 2 (w.kd cx) x ((o.2 &&& ~~~one) ||| (if (uncapS a).2 then one else 0) ||| allIf (uncapS b).2)

/-- VINS (R188). -/
def execVins (w : VAWord) (s : State) : Out :=
  let h := hdVA (.vins w) w (some (true, 2))
  issueWord h noPre (fun cx => refV (w.kd cx) ++ refS (w.sa cx) ++ refS (w.sb cx))
    (fun cx s =>
      let c := s.core s.cur
      let a := capS (readS c cx (w.sa cx))
      let b := capS (readS c cx (w.sb cx))
      let o := readV c cx (w.kd cx) 0
      .ok (s.addOp s.cur cx 1 ⟨0, 0⟩ a b o h.len (fxVins w cx a b o)) (.seq 0)) s

/-- A vector result whose lane `i` copies what `g i` gives, with its poison, under the mask (R162, R189). -/
def fxMove (lat : Nat) (w : VAWord) (cx : Ctx) (m : KReg) (kp : LMask) (g : Nat → BitVec 32 × Bool) : List (Nat × Eff) :=
  [(lat, .vland (w.kd cx) (Vector.ofFn (fun i : Fin 64 => (g i.val).1)) (maskOf (fun i => (g i.val).2)) m.bits
    (m.psn ||| kp) w.zeroing)]

/-- The effects of VPERM (R189). -/
def fxVperm (w : VAWord) (cx : Ctx) (m : KReg) (a b o : Lanes × LMask) : List (Nat × Eff) :=
  fxMove 4 w cx m 0 (fun i =>
    let x := (laneAt b i).toNat
    let src := if w.imm.getLsbD 0 && bits x 6 1 = 1 then o else a
    (laneAt src (x % 64), src.2.getLsbD (x % 64) || b.2.getLsbD i))

/-- VPERM (R189). -/
def execVperm (w : VAWord) (s : State) : Out :=
  opVA (.vperm w) w 4 true true (w.imm.getLsbD 0) (fun cx _ m a b o => fxVperm w cx m a b o) s

/-- The effects of VROT (R189), from the vector in a and the scalar in b. -/
def fxVrot (w : VAWord) (cx : Ctx) (m : KReg) (a b : Lanes × LMask) : List (Nat × Eff) :=
  let n := VAIdx w (uncapS b).1
  let p := (uncapS b).2
  let k := bits w.imm.toNat 6 2
  fxMove 4 w cx m 0 (fun i =>
    let j : Option Nat :=
      if k = 0 then some ((i + n) % 64) else if k = 2 then some ((i + 64 - n) % 64)
      else if k = 1 then (if i + n ≤ 63 then some (i + n) else none) else (if n ≤ i then some (i - n) else none)
    match j with
    | some j => (laneAt a j, a.2.getLsbD j || p)
    | none => (0, p))

/-- VROT (R189). -/
def execVrot (w : VAWord) (s : State) : Out :=
  let h := hdVA (.vrot w) w (some (true, 4))
  issueWord h noPre (fun cx => refV (w.kd cx) ++ refV (w.ka cx) ++ refS (w.sb cx))
    (fun cx s =>
      let c := s.core s.cur
      let a := readV c cx (w.ka cx) 0
      let b := capS (readS c cx (w.sb cx))
      let m := readK c w.mask.toNat
      .ok (s.addOp s.cur cx 1 m a b capNone h.len (fxVrot w cx m a b)) (.seq 0)) s

/-- The effects of VCOMP (R190). -/
def fxVcomp (w : VAWord) (cx : Ctx) (m : KReg) (a : Lanes × LMask) : List (Nat × Eff) :=
  let sel := setBits m.bits
  let x : Lanes := Vector.ofFn (fun j : Fin 64 => match sel[j.val]? with | some i => laneAt a i | none => 0)
  let p := maskOf (fun j => match sel[j.val]? with | some i => a.2.getLsbD i | none => false)
  fxAll 4 (w.kd cx) x (p ||| allIf (m.psn != 0))

/-- VCOMP (R190). -/
def execVcomp (w : VAWord) (s : State) : Out :=
  opVA (.vcomp w) w 4 true false false (fun cx _ m a _ _ => fxVcomp w cx m a) s

/-- The effects of VXPND (R190). -/
def fxVxpnd (w : VAWord) (cx : Ctx) (m : KReg) (a : Lanes × LMask) : List (Nat × Eff) :=
  fxMove 4 w cx m (tailMask m.psn) (fun i => let r := rankOf m.bits i; (laneAt a r, a.2.getLsbD r))

/-- VXPND (R190). -/
def execVxpnd (w : VAWord) (s : State) : Out :=
  opVA (.vxpnd w) w 4 true false false (fun cx _ m a _ _ => fxVxpnd w cx m a) s

/-- The effects of VIOTA (R190). -/
def fxViota (w : VAWord) (cx : Ctx) (m : KReg) : List (Nat × Eff) :=
  fxMove 4 w cx m (tailMask m.psn) (fun i => (BitVec.ofNat 32 (rankOf m.bits i), false))

/-- VIOTA (R190). -/
def execViota (w : VAWord) (s : State) : Out :=
  opVA (.viota w) w 4 false false false (fun cx _ m _ _ _ => fxViota w cx m) s

/-! ### Reductions and scans (R80, R81, R191, R192) -/

/-- The combination of two lanes by op, type and signedness (R191): `md` is the mode of an FP32 addition. -/
def combine (w : VAWord) (md : Mode) (x y : BitVec 32) : BitVec 32 × Flags :=
  let op := w.imm.toNat % 4
  let uns := w.imm.getLsbD 2
  if w.ty = 4 then
    if op = 0 then toLane (fAdd fp32 md (l32 x) (l32 y)) else toLane (fMinMax fp32 (op == 2) x.toNat y.toNat)
  else if op = 0 then (x + y, 0)
  else
    let less := if uns then x.ult y else x.slt y
    (if op = 1 then (if less then x else y) else (if less then y else x), 0)

/-- The mode of a node of a reduction or scan at a lane; only an FP32 addition rounds. -/
def nodeMode (w : VAWord) (rc : RCtx) (lane : Nat) : Mode :=
  if w.ty = 4 && w.imm.toNat % 4 = 0 then rc.mode w.rnd.toNat 0 lane else rne

/-- One level of the tree of R80: present nodes carry their value and their lowest present lane. -/
def redLevel (w : VAWord) (rc : RCtx) : List (Option (Nat × BitVec 32)) → List (Option (Nat × BitVec 32)) × Flags
  | x :: y :: r =>
    let q := redLevel w rc r
    match x, y with
    | some (l, u), some (_, v) =>
      let z := combine w (nodeMode w rc l) u v
      (some (l, z.1) :: q.1, z.2 ||| q.2)
    | some u, none => (some u :: q.1, q.2)
    | none, v => (v :: q.1, q.2)
  | l => (l, 0)

/-- `k` levels of the tree. -/
def redTree (w : VAWord) (rc : RCtx) : Nat → List (Option (Nat × BitVec 32)) → List (Option (Nat × BitVec 32)) × Flags
  | 0, l => (l, 0)
  | k + 1, l =>
    let r := redLevel w rc l
    let q := redTree w rc k r.1
    (q.1, r.2 ||| q.2)

/-- The shade units check a node of a reduction or a step of a scan that adds FP32 values (R328). -/
def nodeOk (w : VAWord) (rc : RCtx) (lane : Nat) (x y : BitVec 32) : Bool :=
  !(w.ty = 4 && w.imm.toNat % 4 = 0) || shadeAdd fp32 (l32 (combine w (nodeMode w rc lane) x y).1) (l32 x) (l32 y)

/-- Every node of one level of the tree passes its check. -/
def redLevelOk (w : VAWord) (rc : RCtx) : List (Option (Nat × BitVec 32)) → Bool
  | x :: y :: r => (match x, y with | some (l, u), some (_, v) => nodeOk w rc l u v | _, _ => true) && redLevelOk w rc r
  | _ => true

/-- Every node of `k` levels of the tree passes its check. -/
def redTreeOk (w : VAWord) (rc : RCtx) : Nat → List (Option (Nat × BitVec 32)) → Bool
  | 0, _ => true
  | k + 1, l => redLevelOk w rc l && redTreeOk w rc k (redLevel w rc l).1

/-- The effects of VRED (R191). -/
def fxVred (w : VAWord) (cx : Ctx) (rc : RCtx) (m : KReg) (a : Lanes × LMask) : List (Nat × Eff) :=
  let ls := (List.range 64).map (fun i => if m.bits.getLsbD i then some (i, laneAt a i) else none)
  let r := redTree w rc 6 ls
  let v : BitVec 32 := match r.1.headD none with | some x => x.2 | none => 0
  fxAll 12 (w.kd cx) (Vector.replicate 64 v) (allIf (a.2 &&& m.bits != 0 || m.psn != 0)) ++ flagEff 12 r.2 ++
    shadeEff 12 1 cx (redTreeOk w rc 6 ls)

/-- VRED (R191). -/
def execVred (w : VAWord) (s : State) : Out :=
  opVA (.vred w) w 12 true false false (fun cx rc m a _ _ => fxVred w cx rc m a) s

/-- The state of a scan: the running value of the present segment, its poison, results, poison and flags so far. -/
structure ScanSt where
  y : Option (BitVec 32)
  p : Bool
  out : List (BitVec 32)
  psn : LMask
  fl : Flags

/-- One lane of a scan (R192). -/
def scanStep (w : VAWord) (rc : RCtx) (m head : LMask) (a : Lanes × LMask) (st : ScanSt) (i : Nat) : ScanSt :=
  let st := if head.getLsbD i then { st with y := none, p := false } else st
  if !m.getLsbD i then { st with out := st.out ++ [0] }
  else
    let x := laneAt a i
    let p := st.p || a.2.getLsbD i
    let r : BitVec 32 × BitVec 32 × Flags := match st.y with
      | none => (0, x, 0)
      | some y => let z := combine w (nodeMode w rc i) y x; (y, z.1, z.2)
    { y := some r.2.1, p := p, out := st.out ++ [if w.imm.getLsbD 3 then r.1 else r.2.1],
      psn := if p then st.psn ||| (1 <<< i) else st.psn, fl := st.fl ||| r.2.2 }

/-- The step of a scan at a lane passes its check. -/
def scanOk (w : VAWord) (rc : RCtx) (m head : LMask) (a : Lanes × LMask) (st : ScanSt) (i : Nat) : Bool :=
  match st.y with
  | some y => !m.getLsbD i || head.getLsbD i || nodeOk w rc i y (laneAt a i)
  | none => true

/-- The effects of VSCAN (R192), from the vector in a and the head mask in b. -/
def fxVscan (w : VAWord) (cx : Ctx) (rc : RCtx) (m : KReg) (a b : Lanes × LMask) : List (Nat × Eff) :=
  let hd : KReg := if w.imm.getLsbD 4 then uncapK b else ⟨0, 0⟩
  let q := (List.range 64).foldl (fun (o : ScanSt × Bool) i => (scanStep w rc m.bits hd.bits a o.1 i, o.2 && scanOk w rc m.bits hd.bits a o.1 i))
    (⟨none, false, [], 0, 0⟩, true)
  let r := q.1
  (14, .vland (w.kd cx) (Vector.ofFn (fun i : Fin 64 => r.out.getD i.val 0)) r.psn m.bits (tailMask (m.psn ||| hd.psn))
    w.zeroing) :: flagEff 14 r.fl ++ shadeEff 14 1 cx q.2

/-- VSCAN (R192). -/
def execVscan (w : VAWord) (s : State) : Out :=
  let h := hdVA (.vscan w) w (some (true, 14))
  issueWord h noPre (fun cx => refV (w.kd cx) ++ refV (w.ka cx))
    (fun cx s =>
      let c := s.core s.cur
      let a := readV c cx (w.ka cx) 0
      let b := if w.imm.getLsbD 4 then capK (readK c w.b.toNat) else capNone
      let m := readK c w.mask.toNat
      .ok (s.addOp s.cur cx 1 m a b capNone h.len (fxVscan w cx (c.rctx cx) m a b)) (.seq 0)) s

/-! ### The deferral queue (R193 to R195) -/

/-- The first CSR value that breaks R193. -/
def dqBad (r : Csrs) : Option Word :=
  let at_ (v : Word) : Bool := v.toNat % 16 = 0 && r.dqbase.toNat ≤ v.toNat && v.toNat < r.dqlim.toNat
  if r.dqbase.toNat % 64 ≠ 0 then some r.dqbase
  else if !(r.dqlim.toNat % 64 = 0 && r.dqlim.toNat ≤ 0x200000 && r.dqbase.toNat < r.dqlim.toNat) then some r.dqlim
  else if !at_ r.dqhead then some r.dqhead else if !at_ r.dqtail then some r.dqtail else none

/-- The ring's size, and a ring address `k` entries beyond an address. -/
def dqSize (r : Csrs) : Nat := r.dqlim.toNat - r.dqbase.toNat
/-- See `dqSize`. -/
def dqAdd (r : Csrs) (a : Word) (k : Nat) : Nat := r.dqbase.toNat + (a.toNat - r.dqbase.toNat + 16 * k) % dqSize r

/-- The number of entries the ring holds. -/
def dqCount (r : Csrs) : Nat := (r.dqtail.toNat + dqSize r - r.dqhead.toNat) % dqSize r / 16

/-- The address at which each selected lane's entry is written; every other lane holds the tail after its predecessors. -/
def dqAddrs (r : Csrs) (m : LMask) : Lanes := Vector.ofFn (fun i : Fin 64 => BitVec.ofNat 32 (dqAdd r r.dqtail (rankOf m i.val)))

/-- The 16 bytes of an entry (R193). -/
def dqEntry (tag lane : Nat) (x y : BitVec 32) : List Byte :=
  leBytes 16 (x.toNat + 2 ^ 32 * y.toNat + 2 ^ 64 * lane + 2 ^ 80 * tag)

/-- The effects of VDEFER (R194), from the data in a and c and the entry addresses in b; the new tail comes from the CSRs. -/
def fxVdefer (w : VAWord) (r : Csrs) (m : KReg) (a b o : Lanes × LMask) : List (Nat × Eff) :=
  let sel := setBits m.bits
  [(1, .csrw 0x053 (BitVec.ofNat 64 (dqAdd r r.dqtail sel.length))),
   (4, .spw (sel.flatMap (fun i => fullBytes (laneAt b i).toNat (dqEntry (w.imm.toNat % 65536) i (laneAt a i) (laneAt o i)))))]

/-- POISON for a poisoned bit of the mask of a store or VDEFER (R178, step 1). DESIGN CHOICE: log 54. The bit of a lane that is not selected
counts too, and names its lane if no selected lane has one. -/
def maskTrap (code : Nat) (m : KReg) : Option WRes :=
  if m.psn = 0 then none
  else some (.trap 0x08 (lanePsnTval ((lowBit (m.psn &&& m.bits)).getD ((lowBit m.psn).getD 0)) code))

/-- POISON for a poisoned selected lane of data (R178, step 5). -/
def dataTrap (code : Nat) (m p : LMask) : Option WRes := (lowBit (m &&& p)).map (fun l => .trap 0x08 (lanePsnTval l code))

/-- VDEFER (R194). -/
def execVdefer (w : VAWord) (s : State) : Out :=
  let h := hdVA (.vdefer w) w none
  issueWord h noPre (fun cx => refV (w.ka cx) ++ refV (w.kb cx))
    (fun cx s =>
      let n := s.cur
      let c := s.core n
      let a := readV c cx (w.ka cx) 0
      let o := readV c cx (w.kb cx) 0
      let m := readK c w.mask.toNat
      let r := c.arch.csr
      match maskTrap w.mask.toNat m with
      | some t => t
      | none => match dqBad r with
        | some v => .trap 0x06 v
        | none =>
          let sel := setBits m.bits
          let addrs := dqAddrs r m.bits
          let segs := sel.map (fun i => ((laneAt (addrs, 0) i).toNat, 16))
          match protTrap s n segs with
          | some t => t
          | none => match dataTrap (w.ka cx) m.bits a.2 with
            | some t => t
            | none => match dataTrap (w.kb cx) m.bits o.2 with
              | some t => t
              | none => match emptyCheck s n (granSegs segs) with
                | some t => t
                | none => match writeCheck s n segs with
                  | some t => t
                  | none =>
                    if dqSize r / 16 - 1 < dqCount r + sel.length then .trap 0x15 (BitVec.ofNat 64 sel.length)
                    else
                      let b := (addrs, 0)
                      .ok ((s.updCore n (fun c => c.markW (granSegs segs))).addOp n cx 1 m a b o h.len
                        (fxVdefer w r m a b o)) (.seq 0)) s

/-- The effects of VDRAIN (R195): the mask capture holds 2^n − 1, the captures the three results. -/
def fxVdrain (w : VAWord) (cx : Ctx) (r : Csrs) (m : KReg) (a b o : Lanes × LMask) : List (Nat × Eff) :=
  let all : LMask := BitVec.allOnes 64
  [(1, .csrw 0x052 (BitVec.ofNat 64 (dqAdd r r.dqhead (popMask m.bits)))),
   (8, .vland (w.kd cx) a.1 a.2 all 0 false), (8, .vland (w.ka cx) b.1 b.2 all 0 false),
   (8, .vland (w.kb cx) o.1 o.2 all 0 false), (8, .kland w.c.toNat m.bits 0 all 0 false)]

/-- VDRAIN (R195). -/
def execVdrain (w : VAWord) (s : State) : Out :=
  let h := { hdVA (.vdrain w) w (some (true, 8)) with pushes := 3 }
  issueWord h noPre (fun cx => refV (w.kd cx) ++ refV (w.ka cx) ++ refV (w.kb cx))
    (fun cx s =>
      let n := s.cur
      let c := s.core n
      let r := c.arch.csr
      match dqBad r with
      | some v => .trap 0x06 v
      | none =>
        let k := min 64 (dqCount r)
        let as := (List.range k).map (dqAdd r r.dqhead)
        let segs := as.map (fun a => (a, 16))
        match emptyCheck s n (granSegs segs) with
        | some t => t
        | none =>
          let word (off i : Nat) : BitVec 32 := match as[i]? with
            | some a => BitVec.ofNat 32 (Memory.val c.spad (a + off) 4)
            | none => 0
          let bad (off : Nat) : LMask := if c.ue.isEmpty then 0 else
            maskOf (fun i => match as[i.val]? with | some a => c.ueAt (a + off) | none => false)
          let f (g : Nat → BitVec 32) : Lanes := Vector.ofFn (fun i : Fin 64 => g i.val)
          let m : KReg := ⟨BitVec.ofNat 64 (2 ^ k - 1), 0⟩
          let a := (f (word 0), bad 0)
          let b := (f (word 4), bad 4)
          let o := (f (fun i => (word 8 i &&& 0x3F) ||| (word 8 i &&& 0xFFFF0000)), bad 8)
          let s := (s.updCore n (fun c => c.markR (granSegs segs))).readErrs n n segs
          .ok (s.addOp n cx 1 m a b o h.len (fxVdrain w cx r m a b o)) (.seq 0)) s

end Sys2Proof.Machine
end

