-- ==== Sys2Proof/Machine/VectorMem.lean ====
section
/-! DEFINITION. The VM-form words: scratchpad loads and stores of lanes, block formats, extraction and the global forms
(R72 to R79, R175 to R186, R287 to R291). -/
namespace Sys2Proof

/-- The operand codes of a VM-form word after rotation (R92 to R94, R98). -/
def VMWord.kv (w : VMWord) (cx : Machine.Ctx) : Nat := Machine.rotV cx (w.rot.getLsbD 3) w.v.toNat
/-- See `VMWord.kv`. -/
def VMWord.kbase (w : VMWord) (cx : Machine.Ctx) : Nat := Machine.rotS cx (w.rot.getLsbD 2) w.base.toNat
/-- See `VMWord.kv`. -/
def VMWord.kstride (w : VMWord) (cx : Machine.Ctx) : Nat := Machine.rotS cx (w.rot.getLsbD 1) w.stride.toNat
/-- See `VMWord.kv`. -/
def VMWord.kidx (w : VMWord) (cx : Machine.Ctx) : Nat := Machine.rotV cx (w.rot.getLsbD 0) w.c.toNat
/-- See `VMWord.kv`. -/
def VMWord.khdr (w : VMWord) (cx : Machine.Ctx) : Nat := Machine.rotS cx (w.rot.getLsbD 0) w.c.toNat
/-- Zeroing rather than merging (R162). -/
def VMWord.zeroing (w : VMWord) : Bool := w.mz == 1

end Sys2Proof

namespace Sys2Proof.Machine

/-- The head of a VM-form word (R98). -/
def hdVM (i : Instr) (w : VMWord) (push : Option (Bool × Nat)) : Head := mkHead i w.idle (w.rot != 0) w.stage push

/-! ### Quad addresses (R15, R176, R177) -/

/-- The pieces of a range of quad addresses: member, offset in its scratchpad, length. -/
def quadPieces (a n : Nat) : List (Nat × Nat × Nat) :=
  let a := a % 2 ^ 23
  let o := a % 2 ^ 21
  if o + n ≤ 2 ^ 21 then [(a / 2 ^ 21, o, n)]
  else [(a / 2 ^ 21, o, 2 ^ 21 - o), ((a / 2 ^ 21 + 1) % 4, 0, o + n - 2 ^ 21)]

/-- The first address of the ranges that names a member other than the core's own. -/
def remoteAt (n : Nat) (l : List (Nat × Nat)) : Option Nat :=
  l.findSome? (fun r => (quadPieces r.1 r.2).findSome? (fun p =>
    if p.1 = memberOf n then none else some (p.1 * 2 ^ 21 + p.2.1)))

/-- The local ranges that a word touches in member `m`. -/
def memberSegs (m : Nat) (l : List (Nat × Nat)) : List (Nat × Nat) :=
  (l.flatMap (fun r => quadPieces r.1 r.2)).filterMap (fun p => if p.1 = m then some p.2 else none)

/-- The byte at a quad address, as core `n` sees it. -/
def State.quadByte (s : State) (n a : Nat) : Byte :=
  Memory.get (s.core (quadMember n (a / 2 ^ 21 % 4))).spad (a % 2 ^ 21)

/-- The little-endian value of `len` bytes at a quad address. -/
def State.quadVal (s : State) (n a len : Nat) : Nat :=
  leVal ((List.range len).map (fun i => s.quadByte n (a + i)))

/-- A byte of the range lies in an 8-byte word with an uncorrectable error. -/
def State.quadBad (s : State) (n a len : Nat) : Bool :=
  (List.range len).any (fun i => (s.core (quadMember n ((a + i) / 2 ^ 21 % 4))).ueAt ((a + i) % 2 ^ 21))

/-- The first range that is not aligned: the MISALIGNED of R178, step 2. -/
def alignTrap (al : Nat) (l : List (Nat × Nat)) : Option WRes :=
  (l.find? (fun r => r.1 % al ≠ 0)).map (fun r => .trap 0x05 (BitVec.ofNat 64 r.1))

/-- What empty granules `gs` of core `m` do to a word of core `n`: a freeze, or for a suspended copy COPY_FAULT, which the
core that owns the copy raises (R41, R311). -/
def emptyAt (s : State) (n m : Nat) (gs : List Nat) : Option WRes :=
  match emptyCheck s m gs with
  | some (.trap cause tval) =>
    if m = n then some (.trap cause tval)
    else if (s.core m).hand then some (.freeze s)
    else some (.freeze ((s.updCore m (fun c => c.goTo (s.core n).stream)).trap m (s.core m).nextEngine cause tval))
  | r => r

/-- What the empty granules of several cores do to a word of core `n`: a COPY_FAULT of its own comes before a freeze (R304 step 10, R311). -/
def emptyIn (s : State) (n : Nat) (l : List (Nat × List Nat)) : Option WRes :=
  l.foldl (fun o x => if x.2.isEmpty then o else match o with
    | some (.freeze t) => (match emptyAt t n x.1 x.2 with | some r => some r | none => o)
    | none => emptyAt s n x.1 x.2
    | some _ => o) none

/-- The empty granules that a read of ranges meets in any member (R41, R177). -/
def quadEmpty (s : State) (n : Nat) (l : List (Nat × Nat)) : Option WRes :=
  emptyIn s n ((List.range 4).map (fun m => (quadMember n m, granSegs (memberSegs m l))))

/-- Steps 3 and 6 of R178 for a load. -/
def loadTrap (s : State) (n : Nat) (l : List (Nat × Nat)) : Option WRes :=
  match (if (s.core n).coupled then none else remoteAt n l) with
  | some a => some (.trap 0x0A (BitVec.ofNat 64 a))
  | none => quadEmpty s n l

/-- The R bits that a load sets, in each member's open region, and the errors it finds (R144, R177, R179). -/
def State.quadRead (s : State) (n : Nat) (l : List (Nat × Nat)) : State :=
  (List.range 4).foldl (fun s m =>
    let segs := memberSegs m l
    if segs.isEmpty then s else
    (s.updCore (quadMember n m) (fun c => c.markR (granSegs segs))).readErrs n (quadMember n m) segs) s

/-- The address of a scratchpad fault as the word's quad address. -/
def quadTrap (n : Nat) : WRes → WRes
  | .trap cause tval => if cause = 0x07 || cause = 0x0A then .trap cause (tval + BitVec.ofNat 64 (memberOf n * 2 ^ 21)) else .trap cause tval
  | r => r

/-- Steps 3 to 7 of R178 for a store of lanes to ranges, with the wait of R50; `data` is step 5. -/
def storeTrap (s : State) (n : Nat) (l : List (Nat × Nat)) (data : Option WRes) : Option WRes :=
  match remoteAt n l with
  | some a => some (.trap 0x06 (BitVec.ofNat 64 a))
  | none =>
    let segs := memberSegs (memberOf n) l
    match protTrap s n segs with
    | some t => some (quadTrap n t)
    | none => match data with
      | some t => some t
      | none => match emptyCheck s n (granSegs segs) with
        | some t => some t
        | none => (writeCheck s n segs).map (quadTrap n)

/-! ### Lanes in memory formats (R180, R181) -/

/-- The element size in bytes of a type code (R176). -/
def tySize (t : Nat) : Nat := if t = 3 || t = 4 then 4 else if t = 2 || t = 5 || t = 6 then 2 else 1

/-- A lane widened from memory (R180). -/
def loadLane (t x : Nat) : BitVec 32 × Flags :=
  if t = 3 || t = 4 then (BitVec.ofNat 32 x, 0)
  else match tyFmt t with
    | some _ => toLane (toF32 t rne x)
    | none => (BitVec.ofInt 32 (tyInt t x), 0)

/-- A lane converted to its memory format (R181). -/
def storeLane (t : Nat) (md : Mode) (x : BitVec 32) : Nat × Flags :=
  if t = 3 || t = 4 then (x.toNat, 0)
  else match tyFmt t with
    | some _ => fromF32 t md x.toNat
    | none => fromI32 t md x.toNat

/-- The flag in capture b that tells that a selected lane read a neighbour, which delays a load by 4 cycles (R175). -/
def capRemote (r : Bool) : Lanes × LMask := capS (if r then 1 else 0, false)

/-- The latency of a load (R175). -/
def loadLat (lat : Nat) (b : Lanes × LMask) : Nat := if (uncapS b).1 = 0 then lat else lat + 4

/-- The effects of VLD and VLDX from the raw elements in a (R180). -/
def fxVld (lat : Nat) (w : VMWord) (cx : Ctx) (m : KReg) (a b : Lanes × LMask) : List (Nat × Eff) :=
  fxLanes (loadLat lat b) (w.kv cx) w.zeroing m a.2 (fun i => loadLane w.ty.toNat (a.1.get i).toNat)

/-- Step 1 of R178 for scalar operands: base, then stride or header base. -/
def scalarTrap (c : Core) (cx : Ctx) (codes : List Nat) : Option WRes := psnTrap c cx codes

/-- The stride of a word (R176); code 48 is unit stride. -/
def strideOf (c : Core) (cx : Ctx) (w : VMWord) (unit : Int) : Int :=
  if w.stride = 48 then unit else (readS c cx (w.kstride cx)).1.toInt

/-- base + off (R176). -/
def baseOf (c : Core) (cx : Ctx) (w : VMWord) : Int := ((readS c cx (w.kbase cx)).1.toNat : Int) + w.off.toInt

/-- The lane addresses of VLD, VST, VLDX and VSTX: byte addresses, or nibble addresses for INT4 (R176). -/
def laneAddr (t : Nat) (base stride : Int) (i : Int) : Nat :=
  if t = 12 then ((2 * base + i * stride) % 2 ^ 24).toNat else ((base + i * stride) % 2 ^ 23).toNat

/-- The selected lanes with their addresses, in lane order. -/
def laneAddrs (c : Core) (cx : Ctx) (w : VMWord) (m : LMask) (idx : Option (Lanes × LMask)) : List (Nat × Nat) :=
  let t := w.ty.toNat
  let st := strideOf c cx w (if t = 12 then 1 else tySize t)
  let b := baseOf c cx w
  (setBits m).map (fun i => (i, laneAddr t b st (match idx with | some v => (laneAt v i).toInt | none => i)))

/-- The byte range of a lane address. -/
def laneRange (t a : Nat) : Nat × Nat := if t = 12 then (a / 2, 1) else (a, tySize t)

/-- Step 1 of R178: base, stride, index lanes, and the mask of a store. -/
def vmPoison (c : Core) (cx : Ctx) (w : VMWord) (m : KReg) (idx : Option (Lanes × LMask)) (store : Bool) : Option WRes :=
  match scalarTrap c cx ([w.kbase cx] ++ (if w.stride = 48 then [] else [w.kstride cx])) with
  | some t => some t
  | none => match idx.bind (fun v => dataTrap (w.kidx cx) m.bits v.2) with
    | some t => some t
    | none => if store then maskTrap w.mask.toNat m else none

/-- VLD and VLDX (R180, R182). -/
def opVld (i : Instr) (w : VMWord) (lat : Nat) (indexed : Bool) (s : State) : Out :=
  let h := hdVM i w (some (true, lat))
  issueWord h noPre
    (fun cx => refV (w.kv cx) ++ refS (w.kbase cx) ++ refS (w.kstride cx) ++ (if indexed then refV (w.kidx cx) else []))
    (fun cx s =>
      let n := s.cur
      let c := s.core n
      let t := w.ty.toNat
      let m := readK c w.mask.toNat
      let idx := if indexed then some (readV c cx (w.kidx cx) 0) else none
      match vmPoison c cx w m idx false with
      | some r => r
      | none =>
        let las := laneAddrs c cx w m.bits idx
        let segs := las.map (fun x => laneRange t x.2)
        match alignTrap (tySize t) segs with
        | some r => r
        | none => match loadTrap s n segs with
          | some r => r
          | none =>
            let raw (x : Nat) : Nat :=
              let r := laneRange t x
              let v := s.quadVal n r.1 r.2
              if t = 12 then bits v (4 * (x % 2)) 4 else v
            let a : Lanes × LMask :=
              (las.foldl (fun (l : Lanes) x => l.setIfInBounds x.1 (BitVec.ofNat 32 (raw x.2))) Lanes.zero,
               las.foldl (fun (p : LMask) x => let r := laneRange t x.2
                 if s.quadBad n r.1 r.2 then p ||| (1 <<< x.1) else p) 0)
            let b := capRemote (!indexed && (remoteAt n segs).isSome)
            .ok ((s.quadRead n segs).addOp n cx 1 m a b capNone h.len (fxVld lat w cx m a b)) (.seq 0)) s

/-- VLD (R180). -/
def execVld (w : VMWord) (s : State) : Out := opVld (.vld w) w 8 false s
/-- VLDX (R182). -/
def execVldx (w : VMWord) (s : State) : Out := opVld (.vldx w) w 40 true s

/-- The bytes that a lane store writes at a local lane address, with their bit masks (R181). -/
def laneBytes (t a v : Nat) : List (Nat × Byte × Byte) :=
  if t = 12 then [(a / 2, BitVec.ofNat 8 (v % 16 * 16 ^ (a % 2)), if a % 2 = 0 then 0x0F else 0xF0)]
  else fullBytes a (leBytes (tySize t) v)

/-- The effects of VST and VSTX: data in a, local lane addresses in b (R181). -/
def fxVst (lat : Nat) (w : VMWord) (rc : RCtx) (m : KReg) (a b : Lanes × LMask) : List (Nat × Eff) :=
  let t := w.ty.toNat
  let rs := (setBits m.bits).map (fun i => (i, storeLane t (rc.mode w.rnd.toNat 0 i) (laneAt a i)))
  (lat, .spw (rs.flatMap (fun x => laneBytes t (laneAt b x.1).toNat x.2.1))) ::
    flagEff lat (rs.foldl (fun f x => f ||| x.2.2) 0)

/-- VST and VSTX (R181, R182). -/
def opVst (i : Instr) (w : VMWord) (lat : Nat) (indexed : Bool) (s : State) : Out :=
  let h := hdVM i w none
  issueWord h noPre
    (fun cx => refV (w.kv cx) ++ refS (w.kbase cx) ++ refS (w.kstride cx) ++ (if indexed then refV (w.kidx cx) else []))
    (fun cx s =>
      let n := s.cur
      let c := s.core n
      let t := w.ty.toNat
      let m := readK c w.mask.toNat
      let idx := if indexed then some (readV c cx (w.kidx cx) 0) else none
      match vmPoison c cx w m idx true with
      | some r => r
      | none =>
        let las := laneAddrs c cx w m.bits idx
        let segs := las.map (fun x => laneRange t x.2)
        match alignTrap (tySize t) segs with
        | some r => r
        | none =>
          let a := readV c cx (w.kv cx) 0
          match storeTrap s n segs (dataTrap (w.kv cx) m.bits a.2) with
          | some r => r
          | none =>
            let md := if t = 12 then 2 ^ 22 else 2 ^ 21
            let b : Lanes × LMask := (las.foldl (fun (l : Lanes) x => l.setIfInBounds x.1 (BitVec.ofNat 32 (x.2 % md))) Lanes.zero, 0)
            let own := memberSegs (memberOf n) segs
            .ok ((s.updCore n (fun c => c.markW (granSegs own))).addOp n cx 1 m a b capNone h.len
              (fxVst lat w (c.rctx cx) m a b)) (.seq 0)) s

/-- VST (R181). -/
def execVst (w : VMWord) (s : State) : Out := opVst (.vst w) w 4 false s
/-- VSTX (R182). -/
def execVstx (w : VMWord) (s : State) : Out := opVst (.vstx w) w 12 true s

/-! ### Block formats (R72 to R79, R185, R186) -/

/-- The magnitude bits of a BX type, and the bytes of a block's element plane (R72, R74). -/
def bxM (t : Nat) : Nat := if t = 9 then 7 else if t = 10 then 4 else 2
/-- See `bxM`. -/
def bxSize (t : Nat) : Nat := if t = 9 then 16 else if t = 10 then 10 else 6

/-- The Hamming check bits of 8 data bits (R76). -/
def hamming (d : Nat) : Nat :=
  let x (l : List Nat) : Nat := (l.map (fun i => bits d i 1)).sum % 2
  x [0, 1, 3, 4, 6] + 2 * x [0, 2, 3, 5, 6] + 4 * x [1, 2, 3, 7] + 8 * x [4, 5, 6, 7]

/-- The data bit that a syndrome says has flipped (R77). -/
def flippedBit (syn : Nat) : Option Nat :=
  if syn = 3 then some 0 else if syn = 5 then some 1 else if syn = 6 then some 2 else if syn = 7 then some 3
  else if syn = 9 then some 4 else if syn = 10 then some 5 else if syn = 11 then some 6 else if syn = 12 then some 7 else none

/-- A field checked against its stored check bits: the data to use, whether a bit was corrected, whether it is beyond
correction (R77). -/
def checkField (d chk : Nat) : Nat × Bool × Bool :=
  let syn := Nat.xor chk (hamming d)
  if syn = 0 then (d, false, false)
  else if syn = 1 || syn = 2 || syn = 4 || syn = 8 then (d, true, false)
  else match flippedBit syn with
    | some i => (Nat.xor d (2 ^ i), true, false)
    | none => (d, false, true)

/-- A checked header: E, SS, the number of corrections, and whether it is beyond correction (R73, R77). -/
def bxHeader (hdr : Nat) : Nat × Nat × Nat × Bool :=
  let e := checkField (bits hdr 0 8) (bits hdr 8 4)
  let ss := checkField (bits hdr 12 8) (bits hdr 20 4)
  (e.1, ss.1, (if e.2.1 then 1 else 0) + (if ss.2.1 then 1 else 0), e.2.2 || ss.2.2)

/-- Element `j` of a block as an FP32 pattern (R75). -/
def bxElem (m hdr plane j : Nat) : BitVec 32 :=
  let h := bxHeader hdr
  if h.2.2.2 then 0
  else if h.1 = 255 then 0x7FC00000
  else
    let x := bits plane (j * (m + 1)) (m + 1)
    let sc : Int := (h.1 : Int) - 127 - (bits h.2.1 (2 * (j / 4)) 2 : Nat) - ((m : Int) - 1)
    BitVec.ofNat 32 (roundD fp32 rne (2 ^ m ≤ x) (x % 2 ^ m) sc).1

/-- The exponent of a positive FP32 value: ⌊log2 |x|⌋ (R78). -/
def exp32 (x : BitVec 32) : Int :=
  match l32 x with
  | .fin _ m e => (Nat.log2 m : Int) + e
  | _ => 0

/-- The magnitude of an FP32 pattern. -/
def mag32 (x : BitVec 32) : Nat := x.toNat % 2 ^ 31

/-- One quantised element: its code and whether it was inexact (R78 step 5, R79). -/
def bxQuant (m : Nat) (md : Mode) (sc : Int) (x : BitVec 32) : Nat × Bool :=
  let neg := 2 ^ 31 ≤ x.toNat
  match l32 x with
  | .fin _ mm e =>
    let r := roundInt md neg mm (e - sc)
    (min r.1 (2 ^ m - 1) + (if neg then 2 ^ m else 0), r.2)
  | _ => (if neg then 2 ^ m else 0, false)

/-- The header of E and SS with their check bits (R73, R76). -/
def bxMake (e ss : Nat) : Nat := e + 2 ^ 8 * hamming e + 2 ^ 12 * ss + 2 ^ 20 * hamming ss

/-- Quantises a block of 16 FP32 patterns: header, element plane, flags (R78, R79). -/
def bxEncode (m : Nat) (md : Nat → Mode) (xs : List (BitVec 32)) : Nat × Nat × Flags :=
  let pack (l : List Nat) : Nat := l.foldr (fun c n => c + 2 ^ (m + 1) * n) 0
  let sign (x : BitVec 32) : Nat := if 2 ^ 31 ≤ x.toNat then 2 ^ m else 0
  if xs.any (fun x => 0x7F800000 ≤ mag32 x) then (0x3FF, 0, fNv)
  else
    let big := xs.foldl (fun b x => max b (mag32 x)) 0
    if big = 0 then (bxMake 0 0, pack (xs.map sign), 0)
    else
      let e : Int := max 1 (min 254 (exp32 (BitVec.ofNat 32 big) + 127))
      let sigma (q : Nat) : Nat :=
        let b := ((xs.drop (4 * q)).take 4).foldl (fun b x => max b (mag32 x)) 0
        if b = 0 then 3
        else ([1, 2, 3].filter (fun (k : Nat) => exp32 (BitVec.ofNat 32 b) < e - 127 - (k : Int))).length
      let ss := (List.range 4).foldl (fun n q => n + sigma q * 4 ^ q) 0
      let rs := xs.zipIdx.map (fun x => bxQuant m (md x.2) (e - 127 - (sigma (x.2 / 4) : Int) - ((m : Int) - 1)) x.1)
      (bxMake e.toNat ss, pack (rs.map (·.1)), if rs.any (·.2) then fNx else 0)

/-- The blocks that have a selected lane (R185). -/
def bxBlocks (m : LMask) : List Nat := (List.range 4).filter (fun b => bits m.toNat (16 * b) 16 != 0)

/-- The effects of VLDB from the planes in a, bytes 0 to 63, and the headers in a, bytes 64 on (R185). -/
def fxVldb (w : VMWord) (cx : Ctx) (m : KReg) (a b : Lanes × LMask) : List (Nat × Eff) :=
  let t := w.ty.toNat
  let k := bxM t
  let all := leVal ((List.range 19).flatMap (fun i => leBytes 4 (laneAt a i).toNat))
  let hdr (i : Nat) : Nat := bits all (8 * (64 + 3 * (i / 16))) 24
  let plane (i : Nat) : Nat := bits all (8 * (bxSize t * (i / 16))) (8 * bxSize t)
  let p := maskOf (fun i => (bxHeader (hdr i.val)).2.2.2)
  fxLanes (loadLat 12 b) (w.kv cx) w.zeroing m (a.2 ||| p) (fun i => (bxElem k (hdr i.val) (plane i.val) (i.val % 16), 0))

/-- The report of an uncorrectable BX header read by an engine (R344, R352). -/
def headerReport (c : Core) (eng : Nat) : Report := { engine := eng, level := 3, addrk := 3, addr := c.pc }

/-- Accounts for the checks of the headers that a word read: corrections count in CERR, one beyond correction is a data
error (R77, R344). -/
def State.bxErrs (s : State) (n eng : Nat) (hdrs : List Nat) : State :=
  let c := s.core n
  let fixed := (hdrs.map (fun h => (bxHeader h).2.2.1)).sum
  let s := if fixed = 0 then s else s.corrected n fixed (headerReport c eng)
  if hdrs.any (fun h => (bxHeader h).2.2.2) then s.dataError n (headerReport c eng) else s

/-- VLDB (R185). DESIGN CHOICE: log 54. The bytes of a block's elements are examined before those of its header. -/
def execVldb (w : VMWord) (s : State) : Out :=
  let h := hdVM (.vldb w) w (some (true, 12))
  issueWord h noPre (fun cx => refV (w.kv cx) ++ refS (w.kbase cx) ++ refS (w.khdr cx))
    (fun cx s =>
      let n := s.cur
      let c := s.core n
      let t := w.ty.toNat
      let z := bxSize t
      let m := readK c w.mask.toNat
      match scalarTrap c cx [w.kbase cx, w.khdr cx] with
      | some r => r
      | none =>
        let ea := (baseOf c cx w % 2 ^ 23).toNat
        let hv := (readS c cx (w.khdr cx)).1.toNat
        let bs := bxBlocks m.bits
        let pa (b : Nat) : Nat := (ea + z * b) % 2 ^ 23
        let ha (b : Nat) : Nat := (hv + 3 * b) % 2 ^ 23
        let segs := bs.flatMap (fun b => [(pa b, z), (ha b, 3)])
        if ea % 2 = 1 then .trap 0x05 (BitVec.ofNat 64 ea)
        else match loadTrap s n segs with
        | some r => r
        | none =>
          let bytes (p : Nat → Nat) (len : Nat) (b : Nat) : List Byte :=
            if bs.contains b then (List.range len).map (fun i => s.quadByte n (p b + i)) else List.replicate len 0
          let planes := (List.range 4).flatMap (bytes pa z)
          let hdrs := (List.range 4).flatMap (bytes ha 3)
          let k := bxM t
          let bad := maskOf (fun i =>
            let b := i.val / 16
            let lo := i.val % 16 * (k + 1) / 8
            let hi := (i.val % 16 * (k + 1) + k) / 8
            bs.contains b && (s.quadBad n (ha b) 3 || s.quadBad n (pa b + lo) (hi - lo + 1)))
          let a : Lanes × LMask := ((capBytes (planes ++ List.replicate (64 - 4 * z) 0 ++ hdrs) false).1, bad)
          let b := capRemote (remoteAt n segs).isSome
          let s := (s.quadRead n segs).bxErrs n 1 (bs.map (fun b => leVal (bytes ha 3 b)))
          .ok (s.addOp n cx 1 m a b capNone h.len (fxVldb w cx m a b)) (.seq 0)) s

/-- The effects of VSTB: data in a, the local addresses of each block's plane and header in lanes 16b and 16b + 1 of b
(R186). DESIGN CHOICE: log 54. Of bytes that overlap the later block's stay, and within a block its header's. -/
def fxVstb (w : VMWord) (rc : RCtx) (m : KReg) (a b : Lanes × LMask) : List (Nat × Eff) :=
  let t := w.ty.toNat
  let rs := (bxBlocks m.bits).map (fun k =>
    let xs := (List.range 16).map (fun j => if m.bits.getLsbD (16 * k + j) then laneAt a (16 * k + j) else 0)
    (k, bxEncode (bxM t) (fun j => rc.mode w.rnd.toNat k (16 * k + j)) xs))
  (8, .spw (rs.flatMap (fun x => fullBytes (laneAt b (16 * x.1)).toNat (leBytes (bxSize t) x.2.2.1) ++
      fullBytes (laneAt b (16 * x.1 + 1)).toNat (leBytes 3 x.2.1)))) ::
    flagEff 8 (rs.foldl (fun f x => f ||| x.2.2.2) 0)

/-- VSTB (R186). -/
def execVstb (w : VMWord) (s : State) : Out :=
  let h := hdVM (.vstb w) w none
  issueWord h noPre (fun cx => refV (w.kv cx) ++ refS (w.kbase cx) ++ refS (w.khdr cx))
    (fun cx s =>
      let n := s.cur
      let c := s.core n
      let z := bxSize w.ty.toNat
      let m := readK c w.mask.toNat
      match scalarTrap c cx [w.kbase cx, w.khdr cx] with
      | some r => r
      | none => match maskTrap w.mask.toNat m with
        | some r => r
        | none =>
          let ea := (baseOf c cx w % 2 ^ 23).toNat
          let hv := (readS c cx (w.khdr cx)).1.toNat
          let bs := bxBlocks m.bits
          let segs := bs.flatMap (fun b => [((ea + z * b) % 2 ^ 23, z), ((hv + 3 * b) % 2 ^ 23, 3)])
          if ea % 2 = 1 then .trap 0x05 (BitVec.ofNat 64 ea)
          else
            let a := readV c cx (w.kv cx) 0
            match storeTrap s n segs (dataTrap (w.kv cx) m.bits a.2) with
            | some r => r
            | none =>
              let x : Lanes := Vector.ofFn (fun i : Fin 64 =>
                if i.val % 16 = 0 then BitVec.ofNat 32 ((ea + z * (i.val / 16)) % 2 ^ 21)
                else if i.val % 16 = 1 then BitVec.ofNat 32 ((hv + 3 * (i.val / 16)) % 2 ^ 21) else 0)
              let own := memberSegs (memberOf n) segs
              .ok ((s.updCore n (fun c => c.markW (granSegs own))).addOp n cx 1 m a (x, 0) capNone h.len
                (fxVstb w (c.rctx cx) m a (x, 0))) (.seq 0)) s

/-! ### Extraction (R184) -/

/-- The bit offset of field `k` from the byte address ea (R184). -/
def fieldStart (x : BitVec 160) (k : Nat) : Nat :=
  let ss := patStarts x
  k / ss.length * patPeriod x + ss.getD (k % ss.length) 0

/-- The effects of VXPL: the bytes each field spans in a, the pattern in c (R184). -/
def fxVxpl (w : VMWord) (cx : Ctx) (m : KReg) (a b o : Lanes × LMask) : List (Nat × Eff) :=
  let x := lanesPat o
  let wd := patWidth x
  fxLanes (loadLat 12 b) (w.kv cx) w.zeroing m a.2 (fun i =>
    let v := bits (a.1.get i).toNat (fieldStart x i.val % 8) wd
    (if x.getLsbD 140 && 2 ^ (wd - 1) ≤ v then BitVec.ofInt 32 ((v : Int) - (2 ^ wd : Nat)) else BitVec.ofNat 32 v, 0))

/-- VXPL (R184). -/
def execVxpl (w : VMWord) (s : State) : Out :=
  let h := hdVM (.vxpl w) w (some (true, 12))
  issueWord h noPre (fun cx => refV (w.kv cx) ++ refS (w.kbase cx))
    (fun cx s =>
      let n := s.cur
      let c := s.core n
      let m := readK c w.mask.toNat
      let xr := c.xreg w.c.toNat
      match scalarTrap c cx [w.kbase cx] with
      | some r => r
      | none =>
        if xr.psn != 0 then .trap 0x08 (psnTval w.c.toNat)
        else if !patLegal xr.bits then .trap 0x02 (c.fieldTval 51)
        else
          let ea := (baseOf c cx w % 2 ^ 23).toNat
          let wd := patWidth xr.bits
          let range (i : Nat) : Nat × Nat :=
            let b := fieldStart xr.bits i
            ((ea + b / 8) % 2 ^ 23, (b + wd - 1) / 8 - b / 8 + 1)
          let sel := setBits m.bits
          let segs := sel.map range
          match loadTrap s n segs with
          | some r => r
          | none =>
            let a : Lanes × LMask :=
              (sel.foldl (fun (l : Lanes) i => l.setIfInBounds i (BitVec.ofNat 32 (s.quadVal n (range i).1 (range i).2))) Lanes.zero,
               sel.foldl (fun (p : LMask) i => if s.quadBad n (range i).1 (range i).2 then p ||| (1 <<< i) else p) 0)
            let b := capRemote (remoteAt n segs).isSome
            let o := capX xr
            .ok ((s.quadRead n segs).addOp n cx 1 m a b o h.len (fxVxpl w cx m a b o)) (.seq 0)) s

/-! ### Global forms (R287 to R291) -/

/-- The selected lanes with their virtual addresses (R287). -/
def globalLanes (c : Core) (cx : Ctx) (w : VMWord) (m : LMask) : List (Nat × Nat) :=
  let st := strideOf c cx w (tySize w.ty.toNat)
  let b := baseOf c cx w
  (setBits m).map (fun i => (i, ((b + (i : Int) * st) % 2 ^ 64).toNat))

/-- The checks of R288 up to translation: the physical addresses of the selected lanes. -/
def globalChecks (s : State) (cx : Ctx) (w : VMWord) (m : KReg) (store : Bool) (acc : Nat) : WRes ⊕ List (Nat × Nat × Nat) :=
  let n := s.cur
  let c := s.core n
  match vmPoison c cx w m none store with
  | some r => .inl r
  | none =>
    let las := globalLanes c cx w m.bits
    match las.find? (fun x => x.2 % tySize w.ty.toNat ≠ 0) with
    | some x => .inl (.trap 0x05 (BitVec.ofNat 64 x.2))
    | none => match s.translateAll n (las.map (fun x => (x.2, acc))) with
      | .inl r => .inl r
      | .inr pas => .inr ((las.zip pas).map (fun x => (x.1.1, x.1.2, x.2)))

/-- The virtual address of the first write that finds no commit-buffer slot (R261, R288 step 4). -/
def overflowAt (c : Core) (len : Nat) (ls : List (Nat × Nat × Nat)) : Option Nat :=
  ((List.range ls.length).find? (fun k => !c.slotsFor ((ls.take (k + 1)).map (fun x => (x.2.2, len))))).bind
    (fun k => (ls[k]?).map (fun x => x.2.1))

/-- The head and registers of a vector global word. -/
def opVglobal (i : Instr) (w : VMWord) (body : Ctx → State → WRes) (s : State) : Out :=
  issueWord (hdVM i w none) noPre (fun cx => refV (w.kv cx) ++ refS (w.kbase cx) ++ refS (w.kstride cx)) body s

/-- The write of a VLDG with no selected lane under zeroing (R289). -/
def fxVldg (w : VMWord) (cx : Ctx) (m : KReg) : List (Nat × Eff) :=
  if m.bits = 0 && w.zeroing then [(1, .vset (w.kv cx) Lanes.zero 0 0 m.psn true)] else []

/-- VLDG (R289). -/
def execVldg (w : VMWord) (s : State) : Out :=
  opVglobal (.vldg w) w (fun cx s =>
    let n := s.cur
    let m := readK (s.core n) w.mask.toNat
    let d := w.kv cx
    match globalChecks s cx w m false 0 with
    | .inl r => r
    | .inr ls =>
      if ls.isEmpty then .ok (s.addOp n cx 1 m capNone capNone capNone 12 (fxVldg w cx m)) (.seq 0)
      else
        let k := tySize w.ty.toNat
        let (id, s) := s.fresh
        let r := s.gRead n id w.cls.toNat id 1 true
          (ls.flatMap (fun x => (List.range k).map (fun j => (4 * x.1 + j, x.2.2 + j))))
        let s := r.2.await n id (.vldg d w.ty.toNat m.bits m.psn w.zeroing) (k * ls.length) r.1
          (ls.flatMap (fun x => (List.range k).map (fun j => (4 * x.1 + j, x.2.1 + j)))) w.cls.toNat
        .ok (s.updCore n (fun c => { c with arch := c.arch.emptyV d id })) (.seq 0)) s

/-- The flags of a VSTG, set in its issue cycle + 4 (R290). -/
def fxVstg (w : VMWord) (rc : RCtx) (m : KReg) (a : Lanes × LMask) : List (Nat × Eff) :=
  flagEff 4 ((setBits m.bits).foldl (fun f i => f ||| (storeLane w.ty.toNat (rc.mode w.rnd.toNat 0 i) (laneAt a i)).2) 0)

/-- VSTG (R290). -/
def execVstg (w : VMWord) (s : State) : Out :=
  opVglobal (.vstg w) w (fun cx s =>
    let n := s.cur
    let c := s.core n
    let m := readK c w.mask.toNat
    match globalChecks s cx w m true 1 with
    | .inl r => r
    | .inr ls =>
      let k := tySize w.ty.toNat
      match overflowAt c k ls with
      | some va => .trap 0x0D (BitVec.ofNat 64 va)
      | none =>
        let a := readV c cx (w.kv cx) 0
        match dataTrap (w.kv cx) m.bits a.2 with
        | some r => r
        | none =>
          let rc := c.rctx cx
          let (op, s) := s.fresh
          let s := ls.foldl (fun s x =>
            let v := (storeLane w.ty.toNat (rc.mode w.rnd.toNat 0 x.1) (laneAt a x.1)).1
            s.hold n op w.cls.toNat (.write x.2.1 x.2.2 (leBytes k v))) s
          .ok (s.addOp n cx 1 m a capNone capNone 12 (fxVstg w rc m a)) (.seq 0)) s

/-- VRED.G (R291). -/
def execVredG (w : VMWord) (s : State) : Out :=
  opVglobal (.vredG w) w (fun cx s =>
    let n := s.cur
    let c := s.core n
    let m := readK c w.mask.toNat
    match globalChecks s cx w m true 2 with
    | .inl r => r
    | .inr ls =>
      match overflowAt c 4 ls with
      | some va => .trap 0x0D (BitVec.ofNat 64 va)
      | none =>
        let a := readV c cx (w.kv cx) 0
        match dataTrap (w.kv cx) m.bits a.2 with
        | some r => r
        | none =>
          let rc := c.rctx cx
          let md := rc.mode w.rnd.toNat 0 0
          let xs := ls.map (fun x => (x.2.1, x.2.2, laneAt a x.1, (rc.mode w.rnd.toNat 0 x.1).rnd))
          if xs.isEmpty then .ok s (.seq 0)
          else .ok (s.hold n s.nextId w.cls.toNat (.adds xs (if w.ty = 4 then some md.code else none))) (.seq 0)) s

end Sys2Proof.Machine
end

