-- ==== Sys2Proof/Machine/Copy.lean ====
section
/-! DEFINITION. The copy engine: CPY, CPYX, CRESUME, CCANCEL, and the arrivals and translations of copies (R301 to R312,
R398). -/
namespace Sys2Proof.Machine

/-! ### Shapes and sides (R302, R303) -/

/-- The scalar operand codes of a C-form word after rotation (R92, R99). -/
structure CopyArgs where
  kto : Nat
  kfrom : Nat
  kshape : Nat
  dst : Word
  src : Word
  shape : Word

/-- The operands of a copy word. -/
def copyArgs (c : Core) (cx : Ctx) (w : CWord) : CopyArgs :=
  let a := rotS cx (w.rot.getLsbD 3) w.dst.toNat
  let b := rotS cx (w.rot.getLsbD 2) w.src.toNat
  let d := rotS cx (w.rot.getLsbD 1) w.shape.toNat
  ⟨a, b, d, (readS c cx a).1, (readS c cx b).1, (readS c cx d).1⟩

/-- Rows, row length, source stride and destination stride of a shape; CPY is one row (R302). -/
def copyShape (x : Bool) (v : Nat) : Nat × Nat × Nat × Nat :=
  if x then (bits v 52 12 + 1, 8 * bits v 0 20, 8 * bits v 36 16, 8 * bits v 20 16) else (1, v, 0, 0)

/-- The rows of one side as quad address ranges. -/
def sideRows (base stride rows len : Nat) : List (Nat × Nat) :=
  (List.range rows).map (fun r => ((base + r * stride) % 2 ^ 23, len))

/-- The first address of a side that breaks R303: a row that leaves member `m`. -/
def sideBad (m : Nat) (l : List (Nat × Nat)) : Option Nat :=
  l.findSome? (fun r =>
    if r.1 / 2 ^ 21 ≠ m then some r.1
    else if 2 ^ 21 < r.1 % 2 ^ 21 + r.2 then some (((m + 1) * 2 ^ 21) % 2 ^ 23) else none)

/-- Local ranges of rows. -/
def localRows (l : List (Nat × Nat)) : List (Nat × Nat) := l.map (fun r => (r.1 % 2 ^ 21, r.2))

/-- The bytes of local ranges, in order. -/
def readRows (c : Core) (l : List (Nat × Nat)) : List Byte := l.flatMap (fun r => Memory.read c.spad r.1 r.2)

/-- The first destination byte that would raise IDEMPOTENCE: its granule is read, by the region or by the copy itself, and not
written (R304, step 11). -/
def copyIdem (c : Core) (own : List Nat) (l : List (Nat × Nat)) : Option Nat :=
  firstIn (fun g => (c.opn.rset.contains g || own.contains g) && !c.opn.wset.contains g) l

/-! ### Kinds 0 to 2 (R305) -/

/-- The effects of a local copy: chunk g of 64 bytes lands `lat + g` cycles after issue; words whose source was uncorrectable
become uncorrectable (R302, R305). -/
def localCopyFx (lat : Nat) (member : Option Nat) (dst : Nat) (ds : List Nat) (bs : List Byte) (bad : List Bool) : List (Nat × Eff) :=
  let n := bs.length
  (List.range ((n + 63) / 64)).flatMap (fun g =>
    let as := (ds.drop (64 * g)).take 64
    let w := (as.zip ((bs.drop (64 * g)).take 64)).map (fun x => (x.1, x.2, (0xFF : Byte)))
    let u := saddAll [] (((as.zip ((bad.drop (64 * g)).take 64)).filter (·.2)).map (fun x => x.1 / 8))
    (lat + g, match member with | none => Eff.spw w | some m => Eff.rspw m w) ::
      (if u.isEmpty then [] else [(lat + g, Eff.spue dst u)]))

/-- The addresses of local ranges, byte by byte. -/
def byteAddrs (l : List (Nat × Nat)) : List Nat := l.flatMap (fun r => (List.range r.2).map (· + r.1))

/-- The copy that core `n` has just issued, its last operation, reads what it overwrites: its record in an object carries the bytes that are
still to land (R368). -/
def State.carry (s : State) (n : Nat) : State :=
  s.updCore n (fun c => { c with flights :=
    c.flights.dropLast ++ (c.flights.drop (c.flights.length - 1)).map (fun (f : Flight) => { f with carries := true }) })

/-- The body of a copy of kind 0, 1 or 2 after the checks up to leave (R304 steps 10 and 11, R305): `src` and `dst` are the
cores read and written. -/
def localCopy (h : Head) (cx : Ctx) (s : State) (kind src dst : Nat) (fr to_ : List (Nat × Nat)) (n : Nat) : WRes :=
  let me := s.cur
  let sg := granSegs fr
  let dg := granSegs to_
  match emptyIn s me (if src = dst then [(me, saddAll sg dg)] else [(src, sg), (dst, dg)]) with
  | some r => r
  | none =>
      match copyIdem (s.core dst) (if kind = 0 then sg else []) to_ with
      | some a => .trap 0x07 (BitVec.ofNat 64 (memberOf dst * 2 ^ 21 + a))
      | none =>
        if (s.core dst).heldBack dg then .hold (s.quadClose me)
        else
          let sc := s.core src
          let fx := localCopyFx (if kind = 0 then 7 else 11) (if kind = 1 then some (memberOf dst) else none) (memberOf dst)
            (byteAddrs to_) (readRows sc fr) (if sc.ue.isEmpty then [] else (byteAddrs fr).map sc.ueAt)
          let s := (s.updCore src (fun c => c.markR sg)).readErrs me src fr
          let s := s.updCore dst (fun c => c.markW dg)
          let s := s.updCore me (fun c =>
            let c := { c with port := (c.opn.id, cx.t + (n + 63) / 64) :: c.port.filter (fun p => p.1 != c.opn.id) }
            if 65536 ≤ n then c.addHeavy cx.dt ((n + 65535) / 65536) ((n + 63) / 64) else c)
          let s := s.addOp me cx 5 ⟨0, 0⟩ capNone capNone capNone h.len fx
          .ok (if kind = 0 && firstIn sg.contains to_ != none then s.carry me else s) (.seq 0)

/-! ### Kinds 3 and 4 (R306 to R309) -/

/-- The lowest free copy slot (R309). -/
def Core.freeSlot (c : Core) : Option Nat := (List.range 16).find? (fun k => (mget c.slots k).isNone)

/-- Some byte of a copy is homed elsewhere than on the core's own die, as far as its pages are mapped (R308). -/
def State.farCopy (s : State) (n : Nat) (blocks : List Nat) : Bool :=
  match (s.core n).step with
  | none => false
  | some i => blocks.any (fun b => match s.mapped n i.part (4096 * b) with
      | some pa => homeDie pa != some (dieOf n)
      | none => true)

/-- The promise of a copy of `n` bytes: its lower bound plus what the memory scheduler adds (R308). DESIGN CHOICE: log 5. -/
def State.promise (s : State) (n dt len : Nat) (blocks : List Nat) : Nat × State :=
  (dt + 64 + (len + 63) / 64 + (if s.farCopy n blocks then 38 else 0) + Config.promiseSlack s.free,
   { s with free := s.free + 1 })

/-- Sends the reads of one translated 4 KiB block of a kind 3 copy, whose frame byte for `4096 * b` is at `pa` (R306). The L1 loses lines
of a block that did not lie there, as far as the core could see, when the copy issued. -/
def State.copyReads (s : State) (n k : Nat) (x : CopySlot) (b pa : Nat) : State :=
  let due (y : Nat × Nat × Nat) : Bool := y.2.2 / 4096 = b && mget (s.core n).empties (y.2.1 / 64) = some x.id
  let ws := (x.bytes.filter due).map (fun y => (y.1, pa + y.2.2 % 4096))
  let s := if x.seen.contains (b, pa) then s else s.l1Drop n (fun l => ws.any (fun w => w.2 / 64 * 64 = l))
  let r := s.gRead n x.op x.cls x.id 0 false ws
  r.2.updCore n (fun c => { c with slots := c.slots.map (fun e =>
    if e.1 = k then (e.1, { e.2 with got := e.2.got ++ r.1 }) else e) })

/-- hold(effect) at its place in issue order, which is that of an earlier word (R262, R282, R307, R339). -/
def State.holdAt (s : State) (n rgn op cls : Nat) (e : HeldEff) : State :=
  let h := { s.heldAs n op cls s.nextId e with rgn := rgn }
  (({ s with nextId := s.nextId + 1 }).checkEntry n h).updCore n (fun c => { c with held := insertBy (fun a b => a.op < b.op) h c.held })

/-- Holds the 64-byte blocks of one translated 4 KiB block of a kind 4 copy; the later byte of the copy order stays (R302,
R307). -/
def State.copyHolds (s : State) (n : Nat) (x : CopySlot) (b pa : Nat) : State :=
  let ys := x.bytes.filter (fun y => y.2.2 / 4096 = b)
  (saddAll [] (ys.map (fun y => y.2.2 / 64))).foldl (fun s v =>
    let mine := ys.filter (fun y => y.2.2 / 64 = v)
    let mask : BitVec 64 := mine.foldl (fun m y => m ||| (1 <<< (y.2.2 % 64))) 0
    let bytes := mine.foldl (fun (l : List Byte) y => l.set (y.2.2 % 64) (x.src.getD y.1 0)) (List.replicate 64 0)
    s.holdAt n x.rgn x.op x.cls (.block x.id (64 * v) (pa + 64 * v % 4096) mask bytes)) s

/-- One block of a copy has been translated to `pa`: its reads are sent or its writes held, and a kind 4 copy whose last block
is held frees its slot (R306, R307). -/
def State.copyBlock (s : State) (n k b pa : Nat) : State :=
  match mget (s.core n).slots k with
  | none => s
  | some x =>
    let x' := { x with todo := x.todo.filter (· != b) }
    let s := s.updCore n (fun c => { c with slots := mput c.slots k x' })
    let s := if x.kind = 3 then s.copyReads n k x' b pa else s.copyHolds n x' b pa
    if x.kind = 4 && x'.todo.isEmpty then s.updCore n (fun c => { c with slots := mdel c.slots k }) else s

/-- The L1 loses every line that holds a byte of the given 4 KiB blocks of a kind 3 copy, as far as they are mapped: those blocks, with the
frame bytes they lie at (R306). -/
def State.copyInval (s : State) (n : Nat) (x : CopySlot) (blocks : List Nat) : List (Nat × Nat) × State :=
  match (s.core n).step with
  | none => ([], s)
  | some i =>
    let bs := blocks.filterMap (fun b => (s.mapped n i.part (4096 * b)).map (fun pa => (b, pa)))
    let lines := bs.flatMap (fun b => (x.bytes.filter (fun y => y.2.2 / 4096 = b.1)).map (fun y => (b.2 + y.2.2 % 4096) / 64 * 64))
    (bs, s.l1Drop n lines.contains)

/-- The body of a copy of kind 3 or 4 once its operands are legal: `rows` as (local offset, virtual address, length), `k` the
code of the operand `from` (R304 steps 7 to 12, R306 to R308). -/
def globalCopy (h : Head) (cx : Ctx) (s : State) (w : CWord) (kind kfrom : Nat) (rows : List (Nat × Nat × Nat)) (n : Nat) : WRes :=
  let me := s.cur
  let c := s.core me
  let bs := rowBytes 0 rows
  let va0 := (bs.headD (0, 0, 0)).2.2
  let blocks := saddAll [] (bs.map (fun b => b.2.2 / 4096))
  match s.translateAll me [(va0, if kind = 3 then 0 else 1)] with
  | .inl r => r
  | .inr pas =>
    let pa := pas.headD 0 / 4096 * 4096
    let lines := saddAll [] (bs.map (fun b => b.2.2 / 64))
    let loc := rows.map (fun r => (r.1, r.2.2))
    let gs := granSegs loc
    if kind = 4 && 1024 < c.slotsUsed + lines.length then
      .trap 0x0D (BitVec.ofNat 64 (64 * lines.getD (1024 - c.slotsUsed) 0))
    else match (if kind = 4 && !c.ue.isEmpty then (byteAddrs loc).find? c.ueAt else none) with
    | some a => .trap 0x08 (BitVec.ofNat 64 (kfrom + a / 8 * 8 * 2 ^ 32))
    | none => match emptyCheck s me gs with
      | some r => r
      | none => match (if kind = 3 then writeCheck s me loc else none) with
        | some (.trap cause tval) => .trap cause (tval + BitVec.ofNat 64 (memberOf me * 2 ^ 21))
        | some r => r
        | none => match c.freeSlot with
          | none => .freeze s
          | some k =>
            let (id, s) := s.fresh
            let x : CopySlot := { id := id, op := id, rgn := c.opn.id, kind := kind, cls := w.cls.toNat, cw := w.cw == 1,
                                  rows := rows, src := if kind = 4 then readRows c loc else [], todo := blocks }
            let p := s.promise me cx.dt n blocks
            let x := { x with due := p.1 }
            let (seen, s) := if kind = 3 then p.2.copyInval me x blocks else ([], p.2)
            let x := { x with seen := seen }
            let s := s.updCore me (fun c =>
              let c := { c with slots := mput c.slots k x }
              let c := if 65536 ≤ n then c.addHeavy cx.dt ((n + 65535) / 65536) ((n + 63) / 64) id else c
              if kind = 3 then { c.markW gs with empties := gs.foldl (fun l g => mput l g id) c.empties } else c.markR gs)
            let s := if kind = 4 then s.readErrs me me loc else s
            let s := s.copyBlock me k (va0 / 4096) pa
            .ok (s.addOp me cx 5 ⟨0, 0⟩ capNone capNone capNone h.len [(2, .spush (BitVec.ofNat 64 p.1))]) (.seq 0)

/-- The window `k` that the writer bulkhead of core `n` has open for the partition of its step (R393, R397). -/
def State.windowOf? (s : State) (n k : Nat) : Option Win :=
  s.windows.find? (fun x => x.isOpen && x.bulkhead = bulkheadOf n && x.n = k && (match (s.core n).step with | some i => x.wpart = i.part | none => false))

/-- Holds one block for window `k`. A block that the region has written already keeps its slot, with the new bytes (R261, R398). -/
def State.holdWindow (s : State) (n op k off : Nat) (bs : List Byte) : State :=
  let c := s.core n
  let same (h : Held) : Bool := h.rgn = c.opn.id && (match h.eff with | .window j o _ => j = k && o = off | _ => false)
  if c.held.any same then
    (s.checkEntry n (s.heldAs n op 16 0 (.window k off bs))).updCore n (fun c => { c with held := c.held.map (fun h =>
      if same h then { h with eff := .window k off bs } else h) })
  else s.hold n op 16 (.window k off bs)

/-- The body of a copy of kind 5 after its source checks: every 64-byte block is held for the window (R307, R398). -/
def windowCopy (cx : Ctx) (s : State) (k kfrom : Nat) (fr to_ : List (Nat × Nat)) (n : Nat) : WRes :=
  let me := s.cur
  let c := s.core me
  let gs := granSegs fr
  let as := byteAddrs to_
  let keys := distinct (c.held.flatMap Held.slotKeys)
  let fresh := (saddAll [] (as.map (· / 64))).filter (fun b => !keys.contains (c.opn.id, 2 + k, b))
  if 1024 < c.slotsUsed + fresh.length then .trap 0x0D (BitVec.ofNat 64 (64 * fresh.getD (1024 - c.slotsUsed) 0))
  else match (if c.ue.isEmpty then none else (byteAddrs fr).find? c.ueAt) with
  | some a => .trap 0x08 (BitVec.ofNat 64 (kfrom + a / 8 * 8 * 2 ^ 32))
  | none => match emptyCheck s me gs with
    | some r => r
    | none =>
      let bs := readRows c fr
      let s := (s.updCore me (fun c => c.markR gs)).readErrs me me fr
      let (op, s) := s.fresh
      let s := (List.range (n / 64)).foldl (fun s g =>
        s.holdWindow me op k (as.getD (64 * g) 0) ((bs.drop (64 * g)).take 64)) s
      .ok (s.updCore me (fun c =>
        if 65536 ≤ n then c.addHeavy cx.dt ((n + 65535) / 65536) ((n + 63) / 64) else c)) (.seq 0)

/-- ISSUE_CONFLICT at the local port (R305). -/
def portPre (w : CWord) (cx : Ctx) (s : State) : Option (Nat × Word) :=
  if 2 < w.kind.toNat then none
  else match (s.core s.cur).port with
    | [] => none
    | p :: _ => if cx.t < p.2 then some (0x03, BitVec.ofNat 64 p.2) else none

/-- The first value that step 3 of R304 and R398 reject. -/
def copyMisaligned (x : Bool) (kind : Nat) (a : CopyArgs) (ds len : Nat) : Option Word :=
  (([(a.dst, 8), (a.src, 8)] ++ (if x then [] else [(a.shape, 8)]) ++
    (if kind = 5 then [(a.dst, 64), (BitVec.ofNat 64 len, 64), (BitVec.ofNat 64 ds, 64)] else [])).find?
      (fun y : Word × Nat => y.1.toNat % y.2 ≠ 0)).map (fun y : Word × Nat => y.1)

/-- CPY and CPYX (R301 to R308). -/
def opCopy (i : Instr) (w : CWord) (x : Bool) (s : State) : Out :=
  let kind := w.kind.toNat
  let h := { mkHead i w.idle (w.rot != 0) w.stage (if kind = 3 || kind = 4 then some (false, 2) else none) with
    banned := kind ≤ 2 }
  issueWord h (portPre w)
    (fun cx => refS (rotS cx (w.rot.getLsbD 3) w.dst.toNat) ++ refS (rotS cx (w.rot.getLsbD 2) w.src.toNat) ++
      refS (rotS cx (w.rot.getLsbD 1) w.shape.toNat))
    (fun cx s =>
      let me := s.cur
      let c := s.core me
      let a := copyArgs c cx w
      let (rows, len, ss, ds) := copyShape x a.shape.toNat
      let n := rows * len
      match psnTrap c cx [a.kto, a.kfrom, a.kshape] with
      | some r => r
      | none =>
        if (kind = 1 || kind = 2) && !c.coupled then
          .trap 0x0A (BitVec.ofNat 64 ((if kind = 1 then a.dst else a.src).toNat % 2 ^ 23))
        else match copyMisaligned x kind a ds len with
        | some v => .trap 0x05 v
        | none =>
          if n = 0 then
            .ok (if kind = 3 || kind = 4 then
              s.addOp me cx 5 ⟨0, 0⟩ capNone capNone capNone h.len [(2, .spush (BitVec.ofNat 64 cx.dt))] else s) (.seq 0)
          else if !x && 2 ^ 21 < n then .trap 0x06 a.shape
          else
            let own := memberOf me
            let td := sideRows a.dst.toNat ds rows len
            let fd := sideRows a.src.toNat ss rows len
            let tm := a.dst.toNat / 2 ^ 21 % 4
            let fm := a.src.toNat / 2 ^ 21 % 4
            let wd := s.windowOf? me w.aux.toNat
            let wlen := match wd with | some v => 4096 * (v.tlen + 1) | none => 2 ^ 64
            let tbad := if kind = 0 || kind = 3 then sideBad own td
              else if kind = 1 then (if tm = own then some (td.headD (0, 0)).1 else sideBad tm td)
              else if kind = 2 then sideBad own td
              else if kind = 5 then
                (List.range rows).findSome? (fun r =>
                  let o := a.dst.toNat + r * ds
                  if wlen < o + len then some (max o wlen) else none)
              else none
            let fbad := if kind = 2 then (if fm = own then some (fd.headD (0, 0)).1 else sideBad fm fd)
              else if kind = 3 then none else sideBad own fd
            let dst := if kind = 1 then quadMember me tm else me
            let src := if kind = 2 then quadMember me fm else me
            match tbad with
            | some v => .trap 0x06 (BitVec.ofNat 64 v)
            | none => match fbad with
              | some v => .trap 0x06 (BitVec.ofNat 64 v)
              | none =>
                match (if kind ≤ 3 then protTrap s dst (localRows td) else none) with
                | some (.trap cause tval) => .trap cause (tval + BitVec.ofNat 64 (memberOf dst * 2 ^ 21))
                | some r => r
                | none =>
                  if kind = 5 && wd.isNone then .trap 0x0A (BitVec.ofNat 64 w.aux.toNat)
                  else if 65536 ≤ n && !c.covered cx.dt ((n + 65535) / 65536) ((n + 63) / 64) then
                    .trap 0x0C (BitVec.ofNat 64 ((n + 65535) / 65536))
                  else if kind ≤ 2 then localCopy h cx s kind src dst (localRows fd) (localRows td) n
                  else if kind = 3 then
                    globalCopy h cx s w kind a.kfrom
                      ((localRows td).zipIdx.map (fun r => (r.1.1, (a.src.toNat + r.2 * ss) % 2 ^ 64, len))) n
                  else if kind = 4 then
                    globalCopy h cx s w kind a.kfrom
                      ((localRows fd).zipIdx.map (fun r => (r.1.1, (a.dst.toNat + r.2 * ds) % 2 ^ 64, len))) n
                  else windowCopy cx s w.aux.toNat a.kfrom (localRows fd)
                    ((List.range rows).map (fun r => (a.dst.toNat + r * ds, len))) n) s

/-- CPY (R301, R302). -/
def execCpy (w : CWord) (s : State) : Out := opCopy (.cpy w) w false s
/-- CPYX (R301, R302). -/
def execCpyx (w : CWord) (s : State) : Out := opCopy (.cpyx w) w true s

/-! ### CRESUME and CCANCEL (R312) -/

/-- The suspended copy that a handle names, with its slot. -/
def Core.suspended (c : Core) (hd : Word) : Option (Nat × CopySlot) :=
  let k := hd.toNat / 2 ^ 60
  match mget c.slots k with
  | some x => if x.susp.isSome then some (k, x) else none
  | none => none

/-- What a replay needs to put suspended copy `x` of slot `k` back as it stands (R310). -/
def Core.undoOf (c : Core) (k : Nat) (x : CopySlot) : Undo :=
  ⟨c.opn.id, k, x, (c.empties.filter (fun e => e.2 = x.id)).map (·.1), c.heavy.filter (fun h => h.id = x.id)⟩

/-- The head and operand of CRESUME and CCANCEL: `f` acts on the suspended copy. -/
def opHandle (i : Instr) (w : CWord) (push : Option (Bool × Nat)) (f : Head → Ctx → State → Option (Nat × CopySlot) → State)
    (s : State) : Out :=
  let h := mkHead i w.idle (w.rot != 0) w.stage push
  issueWord h noPre (fun cx => refS (rotS cx (w.rot.getLsbD 0) w.aux.toNat))
    (fun cx s =>
      let c := s.core s.cur
      let k := rotS cx (w.rot.getLsbD 0) w.aux.toNat
      (psnTrap c cx [k]).getD (.ok (f h cx s (c.suspended (readS c cx k).1)) (.seq 0))) s

/-- CRESUME (R312). -/
def execCresume (w : CWord) (s : State) : Out :=
  opHandle (.cresume w) w (some (false, 2)) (fun h cx s o =>
    let me := s.cur
    let push (s : State) (v : Nat) : State :=
      s.addOp me cx 5 ⟨0, 0⟩ capNone capNone capNone h.len [(2, .spush (BitVec.ofNat 64 v))]
    match o with
    | none => push s 0
    | some (k, x) =>
      let rest := (x.bytes.filter (fun y => x.todo.contains (y.2.2 / 4096))).length
      let (op, s) := s.fresh
      let p := s.promise me cx.dt rest x.todo
      let (seen, s) := if x.kind = 3 then p.2.copyInval me x x.todo else ([], p.2)
      push (s.updCore me (fun c => { c with
        undo := c.undo ++ [c.undoOf k x]
        slots := mput c.slots k { x with susp := none, op := op, rgn := c.opn.id, due := p.1, seen := seen, walked := none } })) p.1) s

/-- CCANCEL (R312). -/
def execCcancel (w : CWord) (s : State) : Out :=
  opHandle (.ccancel w) w none (fun _ _ s o =>
    match o with
    | none => s
    | some (k, x) => s.updCore s.cur (fun c => { c with
        undo := c.undo ++ [c.undoOf k x]
        slots := mdel c.slots k
        heavy := c.heavy.filter (fun h => h.id != x.id)
        empties := c.empties.filter (fun e => e.2 != x.id)
        held := c.held.filter (fun e => match e.eff with | .block id .. => id != x.id | _ => true) })) s

/-! ### Arrivals of copies -/

/-- Frees the slot of a kind 3 copy whose last granule has arrived (R306, R309). -/
def Core.copyDone (c : Core) (k : Nat) (x : CopySlot) : Core :=
  if x.todo.isEmpty && !c.empties.any (fun e => e.2 = x.id) then { c with slots := mdel c.slots k } else c

/-- The bytes of a kind 3 copy that fall in a granule. -/
def CopySlot.inGranule (x : CopySlot) (g : Nat) : List (Nat × Nat × Nat) := x.bytes.filter (fun y => y.2.1 / 64 = g)

/-- Every byte of a granule has arrived. -/
def CopySlot.ready (x : CopySlot) (g : Nat) : Bool :=
  (x.inGranule g).all (fun y => x.got.any (fun b => b.1 = y.1))

/-- COPY_GRANULE_ARRIVAL (R306, R42): the granule is written and set full; uncorrectable bytes leave uncorrectable words. -/
def execCopyGranuleArrival (core slot granule : Nat) (s : State) : Out :=
  let c := s.core core
  match mget c.slots slot with
  | none => .fault .noSuchEvent
  | some x =>
    if mget c.empties granule ≠ some x.id || !x.ready granule then .fault .noSuchEvent
    else
      let ws := (x.inGranule granule).filterMap (fun y => (x.got.find? (fun b => b.1 = y.1)).map (fun b => (y.2.1, b.2)))
      let bad := saddAll [] ((ws.filter (fun b => b.2.2)).map (fun b => b.1 / 8))
      let c := c.spWrite (ws.map (fun b => (b.1, b.2.1, 0xFF)))
      let c := { c with empties := mdel c.empties granule, ue := saddAll c.ue bad }
      .next (s.setCore core (c.copyDone slot x))

/-- COPY_BLOCK_TRANSLATED (R273, R274, R307, R311): the first block not yet translated is translated by a TLB or, once its miss has been
queued, by a walker; one that fails suspends the copy. -/
def execCopyBlockTranslated (core slot : Nat) (s : State) : Out :=
  match mget (s.core core).slots slot, (s.core core).step with
  | some x, some i =>
    match x.todo with
    | [] => .fault .noSuchEvent
    | b :: _ =>
      if x.susp.isSome then .fault .noSuchEvent
      else
        let va := 4096 * b
        let acc := if x.kind = 3 then 0 else 1
        let suspend (tval : Word) : State :=
          let x' := { x with susp := some (BitVec.ofNat 64 (slot * 2 ^ 60 + tval.toNat % 2 ^ 56)) }
          s.updCore core (fun c => { c with slots := mput c.slots slot x' })
        if 2 ^ 48 ≤ va then .next (suspend (walkTval 3 0 acc va))
        else match s.tlbFind core i.part va with
        | some e =>
          (match permBad e.frame e.leaf acc with
           | some r => .next (suspend (walkTval r (if r = 7 then 0 else levelOf e.size) acc va))
           | none => .next (s.copyBlock core slot b (e.frame + (va - e.va))))
        | none =>
          if x.walked ≠ some b then
            let t := s.queueWalk core i.part va acc (some x.id)
            if t.walks.length = s.walks.length then .fault .noSuchEvent else .next t
          else match s.walk i.part va with
          | .bad pa => .next (s.tableLoss core pa)
          | .fault r l => .next (suspend (walkTval r l acc va))
          | .leaf frame size low entry level =>
            match permBad frame low acc with
            | some r => .next (suspend (walkTval r (if r = 7 then 0 else level) acc va))
            | none =>
              let s := if low.getLsbD 4 then s else s.orEntry entry 4
              let s := s.install core ⟨i.part, va / size * size, size, frame, low ||| 0x10, entry, 0⟩
              .next (s.copyBlock core slot b (frame + va % size))
  | _, _ => .fault .noSuchEvent

end Sys2Proof.Machine
end

