-- ==== Sys2Proof/Machine/Matrix.lean ====
section
/-! DEFINITION. The matrix engine and the accumulator store: MWLD, MMUL, MCHK, MZERO, MALD, MAST, their landings and their
checksums (R82 to R86, R197 to R227, R353). -/
namespace Sys2Proof.Machine

/-! ### Exact arithmetic (R82 to R86, R210) -/

/-- The product of two values, exact. -/
def fvMul (a b : FV) : FV :=
  match a, b with
  | .nan s, _ => .nan s
  | _, .nan s => .nan s
  | .inf n, .inf m => .inf (n != m)
  | .inf n, .fin m k _ => if k = 0 then .nan false else .inf (n != m)
  | .fin n k _, .inf m => if k = 0 then .nan false else .inf (n != m)
  | .fin n k e, .fin m l f => .fin (n != m) (k * l) (e + f)

/-- The exact sum of finite values as m × 2^e. -/
def finSum (l : List FV) : Int × Int :=
  l.foldl (fun s x => match x with
    | .fin n m e =>
      let lo := min s.2 e
      (s.1 * 2 ^ (s.2 - lo).toNat + sgn n m * 2 ^ (e - lo).toNat, lo)
    | _ => s) (0, 0)

/-- A value is a negative zero. -/
def FV.negZero : FV → Bool
  | .fin true 0 _ => true
  | _ => false

/-- The sum of values, rounded once to FP32 under RNE: the pattern and the flags nv and of, the only ones a matrix word sets
besides sat (R82, R85, R60, R213). -/
def sumRne (l : List FV) : BitVec 32 × Flags :=
  let pos := l.any (fun x => match x with | .inf false => true | _ => false)
  let neg := l.any (fun x => match x with | .inf true => true | _ => false)
  if l.any FV.isNan || (pos && neg) then (0x7FC00000, fNv)
  else if pos then (0x7F800000, 0) else if neg then (0xFF800000, 0)
  else
    let s := finSum l
    if s.1 = 0 then (if !l.isEmpty && l.all FV.negZero then 0x80000000 else 0, 0)
    else
      let r := roundD fp32 rne (decide (s.1 < 0)) s.1.natAbs s.2
      (BitVec.ofNat 32 r.1, r.2 &&& fOf)

/-- The value of a decoded element or a cell: FP32, or INT32 for the integer formats (R198). -/
def cellVal (isInt : Bool) (x : BitVec 32) : FV :=
  if isInt then .fin (decide (x.toInt < 0)) x.toInt.natAbs 0 else l32 x

/-- Consecutive groups of `g` (R82). -/
def groupsOf {α : Type} (g : Nat) : Nat → List α → List (List α)
  | 0, _ => []
  | k + 1, l => if l.isEmpty then [] else l.take g :: groupsOf g k (l.drop g)

/-- A floating-point accumulation of products in groups of `g` (R82, R84, R85). -/
def accumulate (g : Nat) (c : BitVec 32) (ps : List FV) : BitVec 32 × Flags :=
  (groupsOf g ps.length ps).foldl (fun s p =>
    let r := sumRne (l32 s.1 :: p)
    (r.1, s.2 ||| r.2)) (c, 0)

/-- An integer accumulation: each group exact, then saturated (R86). -/
def accumulateInt (g : Nat) (c : BitVec 32) (ps : List Int) : BitVec 32 × Flags :=
  (groupsOf g ps.length ps).foldl (fun s p =>
    let r := clamp32 (s.1.toInt + p.sum)
    (r.1, s.2 ||| r.2)) (c, 0)

/-- The group size of a format (R83). -/
def groupSize (fmt : Nat) : Nat := if fmt = 5 || fmt = 6 then 1 else if fmt = 10 || fmt = 11 || fmt = 12 then 4 else 2

/-- The integer formats of the array. -/
def intFmt (fmt : Nat) : Bool := fmt = 0 || fmt = 12

/-! ### Cells, banks and ownership (R197, R207 to R209) -/

/-- The key of a cell. -/
def cellKey (row col : Nat) : Nat := row * 65 + col

/-- A cell of a bank; one that is not listed is +0, not poisoned. -/
def bankGet (b : List (Nat × ACell)) (row col : Nat) : ACell := (mget b (cellKey row col)).getD {}

/-- Writes a cell of a bank. -/
def bankSet (b : List (Nat × ACell)) (row col : Nat) (v : ACell) : List (Nat × ACell) :=
  if v = {} then mdel b (cellKey row col) else mput b (cellKey row col) v

/-- The region whose pending bank a row holds. -/
def Core.owner (c : Core) (row : Nat) : Option Nat := mget c.accOwn row

/-- The cell that a read of a row finds (R207). -/
def Core.cell (c : Core) (row col : Nat) : ACell :=
  if (c.owner row).isSome then bankGet c.accP row col else bankGet c.accC row col

/-- A write of a cell by a word of region `rgn` (R207, R370). -/
def Core.setCell (c : Core) (rgn row col : Nat) (v : ACell) : Core :=
  if c.owner row = some rgn then { c with accP := bankSet c.accP row col v, accUsed := sadd c.accUsed row } else c

/-- Claims rows for the open region: the first claim copies the committed cells (R207). -/
def Core.claim (c : Core) (rows : List Nat) : Core :=
  rows.foldl (fun c r =>
    if c.owner r = some c.opn.id then c
    else
      let mine := c.accC.filter (fun x => x.1 / 65 = r)
      let rest := c.accP.filter (fun x => x.1 / 65 != r)
      { c with accOwn := mput c.accOwn r c.opn.id, accP := mine.foldr (fun x b => mput b x.1 x.2) rest }) c

/-- Some of the rows is pending for a region that is closing (R208). -/
def Core.rowsHeld (c : Core) (rows : List Nat) : Bool :=
  rows.any (fun r => match c.owner r with | some q => c.closing.any (fun x => x.id = q) | none => false)

/-- Notes that a word other than `mm` has read or written cells, for the checksums in flight whose cells have landed (R212). -/
def Core.touch (c : Core) (mm : Nat) (cells : List (Nat × Nat)) : Core :=
  let hits := c.flights.flatMap (fun f => f.evs.flatMap (fun e => match e.2 with
    | .compare id true crow m n _ _ _ _ =>
      if id = mm then [] else
      (cells.filter (fun x => crow ≤ x.1 && x.1 < crow + m && x.2 < n &&
        !f.evs.any (fun y => match y.2 with | .mrow i r .. => i = id && r = x.1 | _ => false))).map (fun x => (id, x.1, x.2))
    | _ => []))
  { c with touched := hits ++ c.touched }

/-! ### Operands (R200 to R203) -/

/-- The number of bytes of a row of `l` elements. -/
def rowSize (fmt l : Nat) : Nat :=
  if 9 ≤ fmt && fmt ≤ 11 then l / 16 * bxSize fmt else if fmt = 12 then (l + 1) / 2 else l * tySize fmt

/-- The operand block of a matrix word: quad addresses of its rows and of its headers. -/
structure Block where
  fmt : Nat
  rows : Nat
  len : Nat
  base : Nat
  stride : Nat
  hdr : Nat

/-- The address of row `r`, and of its headers (R201, R202). -/
def Block.row (b : Block) (r : Nat) : Nat := (b.base + r * b.stride) % 2 ^ 23
/-- See `Block.row`. -/
def Block.hrow (b : Block) (r : Nat) : Nat := (b.hdr + 3 * (b.len / 16) * r) % 2 ^ 23
/-- The block is in a BX format. -/
def Block.isBx (b : Block) : Bool := 9 ≤ b.fmt && b.fmt ≤ 11

/-- Every range the block touches, rows ascending. -/
def Block.segs (b : Block) : List (Nat × Nat) :=
  (List.range b.rows).flatMap (fun r =>
    (b.row r, rowSize b.fmt b.len) :: (if b.isBx then [(b.hrow r, 3 * (b.len / 16))] else []))

/-- The first element row that breaks R203. -/
def Block.misaligned (b : Block) : Option Nat :=
  let al := if b.isBx then 2 else tySize b.fmt
  ((List.range b.rows).map b.row).find? (fun a => a % al ≠ 0)

/-- Element `x` of row `r`, decoded: FP32, or INT32 for the integer formats; poison from an uncorrectable word or header. -/
def State.element (s : State) (n : Nat) (b : Block) (r x : Nat) : ACell :=
  if b.isBx then
    let m := bxM b.fmt
    let pa := (b.row r + bxSize b.fmt * (x / 16)) % 2 ^ 23
    let ha := (b.hrow r + 3 * (x / 16)) % 2 ^ 23
    let h := s.quadVal n ha 3
    let lo := x % 16 * (m + 1) / 8
    let hi := (x % 16 * (m + 1) + m) / 8
    ⟨bxElem m h (s.quadVal n pa (bxSize b.fmt)) (x % 16),
     (bxHeader h).2.2.2 || s.quadBad n ha 3 || s.quadBad n (pa + lo) (hi - lo + 1)⟩
  else
    let z := tySize b.fmt
    let a := if b.fmt = 12 then b.row r + x / 2 else b.row r + x * z
    let v := s.quadVal n a z
    let v := if b.fmt = 12 then bits v (4 * (x % 2)) 4 else v
    ⟨(loadLane b.fmt v).1, s.quadBad n a z⟩

/-- The rows of a block, decoded. -/
def State.block (s : State) (n : Nat) (b : Block) : List (List ACell) :=
  (List.range b.rows).map (fun r => (List.range b.len).map (fun x => s.element n b r x))

/-- The headers that a block reads. -/
def State.headers (s : State) (n : Nat) (b : Block) : List Nat :=
  if b.isBx then (List.range b.rows).flatMap (fun r => (List.range (b.len / 16)).map (fun k => s.quadVal n (b.hrow r + 3 * k) 3))
  else []

/-- The R bits, found errors and header checks of a block that is read. -/
def State.blockRead (s : State) (n : Nat) (b : Block) : State := (s.quadRead n b.segs).bxErrs n 2 (s.headers n b)

/-- The scalar operand codes of a matrix word (R93, R101). -/
def kA (w : MWord) (cx : Ctx) : Nat := rotS cx (w.arot == 1) w.areg.toNat
/-- See `kA`. -/
def kH (w : MWord) (cx : Ctx) : Nat := rotS cx (w.hrot == 1) w.hreg.toNat

/-- The operand block that a matrix word names: `rows` rows of `len` elements. -/
def blockOf (c : Core) (cx : Ctx) (w : MWord) (rows len : Nat) : Block :=
  ⟨w.afmt.toNat, rows, len, ((readS c cx (kA w cx)).1.toNat + 2 * w.abase.toNat) % 2 ^ 23, w.astride.toNat,
   ((readS c cx (kH w cx)).1.toNat + 2 * w.hbase.toNat) % 2 ^ 23⟩

/-- The scalar operand codes that a word reads. -/
def operandCodes (w : MWord) (cx : Ctx) : List Nat := kA w cx :: (if isBx w.afmt then [kH w cx] else [])

/-- The head of a matrix word. -/
def hdM (i : Instr) (w : MWord) : Head :=
  { mkHead i w.idle (w.arot == 1 || w.hrot == 1) w.stage none with rotLow := if w.arot == 1 then 58 else 48 }

/-- Steps 1 to 3 of R220 for a word that reads a block: `joined` tells a chain role or a multicast to another member. DESIGN CHOICE: log 54.
TVAL is 0 for such a word even if its operand names another member too (R214). -/
def readChecks (s : State) (cx : Ctx) (codes : List Nat) (b : Block) (joined : Bool) : Option WRes :=
  let n := s.cur
  let c := s.core n
  let psn := codes.any (fun k => (readS c cx k).2)
  if !c.coupled && joined then some (.trap 0x0A 0)
  else match (if c.coupled || psn then none else remoteAt n b.segs) with
  | some a => some (.trap 0x0A (BitVec.ofNat 64 a))
  | none => match psnTrap c cx codes with
    | some r => some r
    | none => b.misaligned.map (fun a => .trap 0x05 (BitVec.ofNat 64 a))

/-- The delay of a block some byte of which lies in a neighbour (R204). -/
def Block.delta (b : Block) (n : Nat) : Nat := if (remoteAt n b.segs).isSome then 4 else 0

/-! ### The checks of MWLD and MMUL before the quad's (R206, R220) -/

/-- The MWLD names another member than `n`. -/
def casts (w : MWord) (n : Nat) : Bool := w.mcast ≠ 0 && w.mcast.toNat ≠ 2 ^ memberOf n

/-- The member that reads B of an MWLD: the lowest of those that it names (R219). -/
def mwldReader (w : MWord) (n : Nat) : Bool := mcastReader n w = n

/-- The block that an MWLD of member `n` reads: none but in the member that reads B. -/
def mwldBlock (w : MWord) (cx : Ctx) (s : State) : Block :=
  let b := blockOf (s.core s.cur) cx w (w.k.toNat + 1) (w.n.toNat + 1)
  if mwldReader w s.cur then b else { b with rows := 0 }

/-- An MWLD waits for the port to the array (R206). -/
def mwldPre (cx : Ctx) (s : State) : Option (Nat × Word) :=
  match (s.core s.cur).mwlds with
  | [] => none
  | p :: _ => if cx.t < p.2 then some (0x03, BitVec.ofNat 64 p.2) else none

/-- The registers of an MWLD. -/
def mwldRegs (w : MWord) (cx : Ctx) : List Ref := if mwldReader w cx.cid then (operandCodes w cx).flatMap refS else []

/-- Steps 1 to 9 of R220 for an MWLD. -/
def mwldSteps (w : MWord) (cx : Ctx) (s : State) : Option WRes :=
  let n := s.cur
  let b := mwldBlock w cx s
  match readChecks s cx (if mwldReader w n then operandCodes w cx else []) b (casts w n) with
  | some r => some r
  | none => match quadEmpty s n b.segs with
    | some r => some r
    | none => if !(s.core n).covered cx.dt 1 80 then some (.trap 0x0C 1) else none

/-- The block of A that an MMUL reads: none in a member or tail of a chain. -/
def mmulBlock (w : MWord) (cx : Ctx) (s : State) : Block :=
  let b := blockOf (s.core s.cur) cx w (w.m.toNat + 1) (w.k.toNat + 1)
  if w.chain.toNat < 2 then b else { b with rows := 0 }

/-- An MMUL waits for the rows of the one before it to have entered the array (R206). -/
def mmulPre (cx : Ctx) (s : State) : Option (Nat × Word) :=
  match (s.core s.cur).mmuls with
  | [] => none
  | p :: _ => if cx.t < p.2.1 + p.2.2 then some (0x03, BitVec.ofNat 64 (p.2.1 + p.2.2)) else none

/-- The registers of an MMUL. -/
def mmulRegs (w : MWord) (cx : Ctx) : List Ref := if w.chain.toNat < 2 then (operandCodes w cx).flatMap refS else []

/-- Steps 1 to 9 of R220 for an MMUL. -/
def mmulSteps (w : MWord) (cx : Ctx) (s : State) : Option WRes :=
  let b := mmulBlock w cx s
  match readChecks s cx (if w.chain.toNat < 2 then operandCodes w cx else []) b (w.chain ≠ 0) with
  | some r => some r
  | none => match quadEmpty s s.cur b.segs with
    | some r => some r
    | none => if !(s.core s.cur).covered cx.dt 4 (78 + w.m.toNat + 1) then some (.trap 0x0C 4) else none

/-- The head of an MWLD. -/
def mwldHead (w : MWord) : Head := { hdM (.mwld w) w with extra := fun n _ => mwldFields w n }

/-- The checks of step 3 of R103 that depend on the tile and the member's number (R200, R218, R223). DEDUCED: log 41. Those on the tile
are made at the word's own issue, in a loop body too. -/
def mmulExtra (w : MWord) (n : Nat) (c : Core) : List (Nat × Bool) :=
  let t := c.arch.tile
  [(131, t.k ≠ 0 && intFmt w.afmt.toNat != intFmt t.fmt), (93, t.k ≠ w.k.toNat + 1), (87, t.n ≠ w.n.toNat + 1)] ++ mmulFields w n

/-- The head of an MMUL. -/
def mmulHead (w : MWord) : Head := { hdM (.mmul w) w with extra := mmulExtra w }

/-! ### Joint words of a quad (R218, R219) -/

/-- The bits of a matrix word, as recorded in `joint`. -/
def matrixKey (i : Instr) : Nat := encode i

/-- The matrix word with a chain role or a multicast that the core has issued in cycle `t`. -/
def Core.jointAt (c : Core) (t : Nat) : Option Instr :=
  match c.joint.find? (fun j => j.1 = t && 2 ^ 182 ≤ j.2 && j.2 < 2 ^ 192) with
  | some j => match decodeWord (some (j.2 / 2 ^ 182)) (j.2 / 2 ^ 182) j.2 with
    | .instr i => some i
    | _ => none
  | none => none

/-- What a member of a quad does in the present cycle, as far as the joint words of one kind go: nothing of that kind, the word, a word that
does not issue yet, or one that traps for a reason of its own. -/
inductive Peek where
  | other
  | word (w : MWord)
  | stall (r : WRes)
  | bad

/-- What becomes of the word of core `m` that is about to issue in cycle `t`, by the checks that come before the quad's. -/
def State.gatePeek (s : State) (m t : Nat) (w : MWord) (h : Head) (pre : Ctx → State → Option (Nat × Word)) (regs : Ctx → List Ref)
    (steps : Ctx → State → Option WRes) : Peek :=
  let c := s.core m
  let u := { s.setCore m (c.goTo t) with cur := m }
  if c.owe.isSome then .bad
  else match (h.gate pre regs m (c.ownAt h.idle) u).or (steps ((u.core m).ctx m) u) with
  | none => .word w
  | some (.freeze _) => .stall (.freeze s)
  | some (.hold k) => .stall (.hold k)
  | some _ => .bad

/-- The joint MMUL, or MWLD, of member `m` of the quad of core `n` in cycle `t`: it has issued it or, when `m` is numbered above `n`, it is
about to (R218, R219). -/
def State.peek (s : State) (n m t : Nat) (mmul : Bool) : Peek :=
  let c := s.core m
  match c.jointAt t with
  | some (.mmul w) => if mmul then .word w else .other
  | some (.mwld w) => if mmul then .other else .word w
  | some _ => .other
  | none =>
    if m < n || c.ended || c.hand || c.step.isNone || c.issueAt (c.idleAt c.pc) ≠ t then .other
    else match c.decodeAt c.pc with
      | .instr (.mmul w) =>
        if !mmul || w.chain = 0 || !c.arch.loop.activeFor (stageOf (.mmul w)).1 then .other
        else s.gatePeek m t w (mmulHead w) mmulPre (mmulRegs w) (mmulSteps w)
      | .instr (.mwld w) =>
        if mmul || !casts w m || !c.arch.loop.activeFor (stageOf (.mwld w)).1 then .other
        else s.gatePeek m t w (mwldHead w) mwldPre (mwldRegs w) (mwldSteps w)
      | _ => .other

/-- What the four members do in cycle `t`; core `n` issues `w`. -/
def State.quadPeek (s : State) (n t : Nat) (w : MWord) (mmul : Bool) : List Peek :=
  (List.range 4).map (fun m => if m = memberOf n then .word w else s.peek n (quadMember n m) t mmul)

/-- The word of a peek. -/
def Peek.word? : Peek → Option MWord
  | .word w => some w
  | _ => none

/-- The member has a word that does not issue as it should. -/
def Peek.isBad : Peek → Bool
  | .bad => true
  | .stall _ => true
  | _ => false

/-- A member's word that does not issue yet keeps the joint words of its cycle waiting (R41, R215). -/
def State.jointStall (s : State) (n t : Nat) (w : MWord) (mmul : Bool) : Option WRes :=
  (s.quadPeek n t w mmul).findSome? (fun p => match p with | .stall r => some r | _ => none)

/-- Roles of members 0 to 3 that form chains: a head, then members, then a tail (R218). -/
def rolesOk (rs : List Nat) : Bool :=
  rs.foldl (fun (o : Option Bool) r => match o, r with
    | some false, 0 => some false
    | some false, 1 => some true
    | some true, 2 => some true
    | some true, 3 => some false
    | _, _ => none) (some false) = some false

/-- The chain words of cycle `t` form the pattern of R218, and agree in m, k and afmt. -/
def State.chainOk (s : State) (n t : Nat) (w : MWord) : Bool :=
  let ps := s.quadPeek n t w true
  !ps.any (·.isBad) &&
  ps.all (fun p => match p.word? with | some v => v.m = w.m && v.k = w.k && v.afmt = w.afmt | none => true) &&
  rolesOk (ps.map (fun p => match p.word? with | some v => v.chain.toNat | none => 0))

/-- The head of the chain that core `n` belongs to: the nearest member below it, itself included, whose role is head. -/
def State.chainHead (s : State) (n t : Nat) (w : MWord) : Nat :=
  if w.chain = 1 then n
  else ((List.range (memberOf n)).reverse.map (quadMember n)).find? (fun m => match (s.core m).jointAt t with
    | some (.mmul v) => v.chain = 1
    | _ => false) |>.getD n

/-- The multicasts of cycle `t` are well formed: every member that one of them names issues the same word (R219). -/
def State.mcastOk (s : State) (n t : Nat) (w : MWord) : Bool :=
  let ps := s.quadPeek n t w false
  !ps.any (·.isBad) &&
  ps.all (fun p => match p.word? with
    | none => true
    | some u => ps.zipIdx.all (fun q => !u.mcast.getLsbD q.2 || (match q.1.word? with
      | some v => v.mcast = u.mcast && v.k = u.k && v.n = u.n && v.afmt = u.afmt
      | none => false)))

/-- The joint word of core `n` in cycle `t` does not issue: it waits for that of a member, or raises CHAIN, and so do the joint words of the
members that come after it in that cycle (R218, R219, R220). -/
def State.jointFault (s : State) (n t : Nat) (w : MWord) (mmul : Bool) : WRes :=
  (s.jointStall n t w mmul).getD (.fin ((((quadCores n).filter (fun m => n < m && (match s.peek n m t mmul with | .word _ => true | _ => false))).foldl
    (fun s m => s.updCore m (fun c => { c with owe := some (0x12, 0) })) s).trap n 2 0x12 0))

/-- Records a joint word of the present cycle. -/
def Core.addJoint (c : Core) (t : Nat) (i : Instr) : Core :=
  { c with joint := (t, matrixKey i) :: c.joint.filter (fun j => j.1 = t) }

/-! ### MWLD (R219, R222) -/

/-- The check weights of a tile's rows (R210), poisoned as R213 states. -/
def checkWeights (isInt : Bool) (rows : List (List ACell)) : List ACell :=
  rows.map (fun r => ⟨(sumRne (r.map (fun x => cellVal isInt x.bits))).1, r.any (·.psn)⟩)

/-- The tile that a flight of core `m` issued in cycle `t` is to latch, with its cycle. -/
def Core.tileOf (c : Core) (t : Nat) : Option (Nat × Tile) :=
  (c.flights.filter (fun f => f.issue = t && f.kind = 4)).findSome? (fun f =>
    f.evs.findSome? (fun e => match e.2 with | .latch x => some (e.1, x) | _ => none))

/-- MWLD (R222). -/
def execMwld (w : MWord) (s : State) : Out :=
  let h := mwldHead w
  issueWord h mwldPre (mwldRegs w)
    (fun cx s =>
      let n := s.cur
      let joined := casts w n
      match mwldSteps w cx s with
      | some r => r
      | none =>
        if joined && !s.mcastOk n cx.t w then s.jointFault n cx.t w false
        else
          let b := mwldBlock w cx s
          let rows := s.block n b
          let isInt := intFmt w.afmt.toNat
          let own : Nat × Tile := (cx.t + 80 + b.delta n,
            { k := w.k.toNat + 1, n := w.n.toNat + 1, fmt := w.afmt.toNat, rows := rows, w := checkWeights isInt rows })
          let x := if mwldReader w n then own else ((s.core (mcastReader n w)).tileOf cx.t).getD own
          let s := s.blockRead n b
          let s := s.updCore n (fun c =>
            let c := c.addHeavy cx.dt 1 80
            let c := { c with mwlds := (c.opn.id, x.1) :: c.mwlds.filter (fun p => p.1 != c.opn.id) }
            if joined then c.addJoint cx.t (.mwld w) else c)
          .ok (s.addOp n cx 4 ⟨0, 0⟩ capNone capNone capNone h.len [(x.1 - cx.t, .latch x.2)]) (.seq 0)) s

/-! ### MMUL (R218, R223) -/

/-- The rows of A that a head issued in cycle `t` streams, with the cycle at which its first row lands. -/
def Core.aRowsOf (c : Core) (t : Nat) : Option (Nat × List (List ACell)) :=
  (c.flights.find? (fun f => f.issue = t && f.kind = 4)).bind (fun f =>
    let rs := f.evs.filterMap (fun e => match e.2 with | .mrow _ _ _ _ _ _ a _ => some (e.1, a) | _ => none)
    match rs with
    | [] => none
    | r :: _ => some (r.1, rs.map (·.2)))

/-- The column sums of A, each rounded once to FP32 (R210). DESIGN CHOICE: log 54. Their rounding sets no flag (R213). -/
def columnSums (isInt : Bool) (k : Nat) (rows : List (List ACell)) : List ACell :=
  (List.range k).map (fun j =>
    ⟨(sumRne (rows.map (fun r => cellVal isInt (r.getD j {}).bits))).1, rows.any (fun r => r.any (·.psn))⟩)

/-- The effects of an MMUL whose first output row lands `lat` cycles after issue (R204, R210, R223). -/
def mmulFx (mm lat addr : Nat) (w : MWord) (t : Tile) (mtol : Word) (rows : List (List ACell)) : List (Nat × Eff) :=
  let isInt := intFmt t.fmt
  let g := min (groupSize w.afmt.toNat) (groupSize t.fmt)
  let m := w.m.toNat + 1
  let crow := w.crow.toNat
  let ck := w.ck == 1
  let acc := w.acc == 1
  (rows.zipIdx.map (fun r => (lat + r.2, Eff.mrow mm (crow + r.2) acc ck g isInt r.1 t))) ++
  (if ck then [(lat + m, .mchkrow mm (crow + m) acc (columnSums isInt t.k rows) t)] else []) ++
  [(lat + m + 6, .compare mm ck crow m t.n isInt mtol addr none)]

/-- The rows that a chain's or a lone MMUL claims (R207). -/
def mmulRows (w : MWord) : List Nat := (List.range (w.m.toNat + 1 + w.ck.toNat)).map (· + w.crow.toNat)

/-- The words of the chain of cycle `t` that core `n` belongs to, with their cores: those with as many heads up to them as it has (R218). -/
def State.chainOf (s : State) (n t : Nat) (w : MWord) : List (Nat × MWord) :=
  if w.chain = 0 then [(n, w)] else
  let ws := (s.quadPeek n t w true).map (·.word?)
  let heads (m : Nat) : Nat := ((ws.take (m + 1)).filter (fun v => v.any (·.chain = 1))).length
  ws.zipIdx.filterMap (fun x => match x.1 with
    | some v => if v.chain ≠ 0 && heads x.2 = heads (memberOf n) then some (quadMember n x.2, v) else none
    | none => none)

/-- A word of the chain of cycle `t` would claim a row pending for a region that is closing, so that the whole chain waits (R208,
R218). -/
def State.chainHeld (s : State) (n t : Nat) (w : MWord) : Bool :=
  (s.chainOf n t w).any (fun x => (s.core x.1).rowsHeld (mmulRows x.2))

/-- The whole chain of core `n` waits for the closing of the rows that it would claim: all its words issue together after it (R208, R218). -/
def State.holdChain (s : State) (n t : Nat) (w : MWord) : State :=
  (s.chainOf n t w).foldl (fun u x => u.updCore x.1 (fun c => { c with floor := max (t + 1) (s.quadClose n) })) s

/-- MMUL (R223). -/
def execMmul (w : MWord) (s : State) : Out :=
  let h := mmulHead w
  let m := w.m.toNat + 1
  issueWord h mmulPre (mmulRegs w)
    (fun cx s =>
      let n := s.cur
      let c := s.core n
      let joined := w.chain ≠ 0
      match mmulSteps w cx s with
      | some r => r
      | none =>
        if joined && !s.chainOk n cx.t w then s.jointFault n cx.t w true
        else if s.chainHeld n cx.t w then (if joined then .fin (s.holdChain n cx.t w) else .hold (s.quadClose n))
        else
          let b := mmulBlock w cx s
          let hd := s.chainHead n cx.t w
          let own := (72 + b.delta n, s.block n b)
          let x := if w.chain.toNat < 2 then own else match (s.core hd).aRowsOf cx.t with
            | some r => (r.1 - cx.t + 2 * (n - hd), r.2)
            | none => own
          let s := s.blockRead n b
          let s := s.updCore n (fun c =>
            let c := (c.claim (mmulRows w)).addHeavy cx.dt 4 (78 + m)
            let c := { c with mmuls := (c.opn.id, cx.t, m) :: c.mmuls.filter (fun p => p.1 != c.opn.id) }
            if joined then c.addJoint cx.t (.mmul w) else c)
          .ok (s.addOp n cx 4 ⟨0, 0⟩ capNone capNone capNone h.len
            (mmulFx s.nextId x.1 cx.addr w c.arch.tile c.arch.csr.mtol x.2)) (.seq 0)) s

/-- Output row `row` of an MMUL lands (R82 to R86, R205, R210, R213). -/
def Core.landRow (c : Core) (rgn mm row : Nat) (acc ck : Bool) (g : Nat) (isInt : Bool) (a : List ACell) (t : Tile) :
    Core × Flags :=
  let ap := a.any (·.psn)
  let c0 := if acc then c.touch mm ((List.range t.n).map (fun j => (row, j))) else c
  let start : BitVec 32 := if isInt then 0 else 0x80000000
  let one (j : Nat) : ACell × Flags :=
    let old := c.cell row j
    let b := t.rows.map (fun r => r.getD j {})
    let ps := a.zip b
    let r := if isInt then accumulateInt g (if acc then old.bits else start) (ps.map (fun p => p.1.bits.toInt * p.2.bits.toInt))
      else accumulate g (if acc then old.bits else start) (ps.map (fun p => fvMul (l32 p.1.bits) (l32 p.2.bits)))
    (⟨r.1, ap || (acc && old.psn) || b.any (·.psn)⟩, r.2)
  let rs := (List.range t.n).map (fun j => (j, one j))
  let c1 := rs.foldl (fun c r => c.setCell rgn row r.1 r.2.1) c0
  let c1 := c1.touch mm (rs.map (fun r => (row, r.1)))
  let sat := (rs.filter (fun r => r.2.2.getLsbD 5)).map (fun r => (mm, row, r.1))
  let fl : Flags := rs.foldl (fun f r => f ||| r.2.2) 0
  let c1 := { c1 with sats := sat ++ c1.sats }
  if ck then
    let old := c.cell row 64
    let r := accumulate 1 (if acc then old.bits else 0x80000000)
      ((a.zip t.w).map (fun p => fvMul (cellVal isInt p.1.bits) (l32 p.2.bits)))
    (c1.setCell rgn row 64 ⟨r.1, ap || (acc && old.psn) || t.w.any (·.psn)⟩, fl ||| r.2)
  else (c1, fl)

/-- The check row of an MMUL lands (R210, R213). -/
def Core.landCheckRow (c : Core) (rgn row : Nat) (acc : Bool) (sums : List ACell) (t : Tile) : Core × Flags :=
  let isInt := intFmt t.fmt
  (List.range t.n).foldl (fun (x : Core × Flags) j =>
    let old := c.cell row j
    let b := t.rows.map (fun r => r.getD j {})
    let r := accumulate 1 (if acc then old.bits else 0x80000000)
      ((sums.zip b).map (fun p => fvMul (l32 p.1.bits) (cellVal isInt p.2.bits)))
    (x.1.setCell rgn row j ⟨r.1, sums.any (·.psn) || (acc && old.psn) || b.any (·.psn)⟩, x.2 ||| r.2)) (c, 0)

/-! ### The compare (R211, R212, R353) -/

/-- A cell's value as a multiple of 2^−149; none for a NaN or an infinity. -/
def scaled (isInt : Bool) (x : BitVec 32) : Option Int :=
  match cellVal isInt x with
  | .fin n m e => some (sgn n m * 2 ^ (e + 149).toNat)
  | _ => none

/-- The difference of a row or column from its check cell when it mismatches; none when it passes or is left unchecked. -/
def mismatch (t : Nat) (a : Int) (vs : List (Option Int)) (chk : Option Int) : Option Int :=
  if vs.any (·.isNone) then none
  else match chk with
  | none => none
  | some k =>
    let xs := vs.filterMap id
    let d := xs.sum - k
    let m : Int := (xs.map (fun v => (v.natAbs : Int))).sum + k.natAbs
    if m + a * 2 ^ t < (d.natAbs : Int) * 2 ^ t then some d else none

/-- What a compare decides. -/
inductive Verdict where
  | pass
  | fix (row col : Nat) (bits : BitVec 32)
  | bad

/-- The compare of rows `crow` to `crow + m − 1` and columns 0 to `n − 1` over the cells that `get` gives; `blocked` tells that a
cell has been read or written since it landed (R211, R212). DESIGN CHOICE: log 54. A correction that rounds to an infinity leaves its row and column
unchecked, and passes. -/
def compareCells (get : Nat → Nat → ACell) (sat blocked : Nat → Nat → Bool) (crow m n : Nat) (isInt : Bool) (mtol : Word) :
    Verdict :=
  let t := mtol.toNat % 64
  let a := (scaled false (BitVec.ofNat 32 (mtol.toNat / 2 ^ 32))).getD 0
  let val (g : Nat → Nat → ACell) (i j : Nat) : Option Int :=
    let c := g (crow + i) j
    if c.psn || sat (crow + i) j then none else scaled (isInt && j < 64 && i < m) c.bits
  let row (g : Nat → Nat → ACell) (i : Nat) : Option Int := mismatch t a ((List.range n).map (val g i)) (val g i 64)
  let col (g : Nat → Nat → ACell) (j : Nat) : Option Int := mismatch t a ((List.range m).map (fun i => val g i j)) (val g m j)
  let rs := (List.range m).filterMap (fun i => (row get i).map (fun d => (i, d)))
  let cs := (List.range n).filterMap (fun j => (col get j).map (fun d => (j, d)))
  match rs, cs with
  | [], [] => .pass
  | [(i, rho)], [(j, gam)] =>
    if blocked (crow + i) j || (rho.natAbs : Int) + gam.natAbs + a * 2 ^ t < ((rho - gam).natAbs : Int) * 2 ^ t then .bad
    else
      let v := (val get i j).getD 0 - rho
      let new : BitVec 32 :=
        if isInt then
          let r := roundInt rne (decide (v < 0)) v.natAbs (-149)
          (clamp32 (sgn (decide (v < 0)) r.1)).1
        else if v = 0 then 0 else BitVec.ofNat 32 (roundD fp32 rne (decide (v < 0)) v.natAbs (-149)).1
      let get2 (r c : Nat) : ACell := if r = crow + i && c = j then ⟨new, false⟩ else get r c
      if (row get2 i).isNone && (col get2 j).isNone then .fix (crow + i) j new else .bad
  | _, _ => .bad

/-- The compare cycle of an MMUL or MCHK of region `rgn` on core `n` (R212, R353): it passes, corrects one cell, or reports an
error of the region. A correction lands among the landings of its cycle, in issue order (R34). -/
def State.compare (s : State) (n rgn mm : Nat) (ck : Bool) (crow m cols : Nat) (isInt : Bool) (mtol : Word) (addr : Nat)
    (cells : Option (List (List ACell))) : State :=
  let c := s.core n
  let done (s : State) : State := s.updCore n (fun c => { c with
    touched := c.touched.filter (fun x => x.1 != mm), sats := c.sats.filter (fun x => x.1 != mm) })
  if !ck then done s
  else
    let get (r k : Nat) : ACell := match cells with
      | some x => (x.getD (r - crow) []).getD k {}
      | none => c.cell r k
    match compareCells get (fun r k => c.sats.contains (mm, r, k)) (fun r k => c.touched.contains (mm, r, k)) crow m cols
      isInt mtol with
    | .pass => done s
    | .fix r k v =>
      let f : Flight := { id := mm, rgn := rgn, issue := c.clock, addr := addr, lcnt := 0, units := [], kind := 4, hand := c.hand, mask := ⟨0, 0⟩
                          opa := capNone, opb := capNone, opc := capNone, evs := [(c.clock, .correct mm r k v)] }
      ((done s).updCore n (fun c => { c with flights := insFlight f c.flights })).corrected n 1
        { engine := 5, level := 3, addrk := 3, addr := addr }
    | .bad => (done s).regionErr n rgn { engine := 2, level := 3, addrk := 3, addr := addr }

/-! ### MCHK, MZERO, MALD, MAST (R224 to R227) -/

/-- MCHK (R224). -/
def execMchk (w : MWord) (s : State) : Out :=
  let h := hdM (.mchk w) w
  let m := w.m.toNat + 1
  let rows := (List.range (m + 1)).map (· + w.crow.toNat)
  issueWord h noPre (fun _ => [])
    (fun cx s =>
      let n := s.cur
      let c := s.core n
      if c.rowsHeld rows then .hold (s.quadClose n)
      else
        let cols := w.n.toNat + 1
        let isInt := c.arch.tile.k ≠ 0 && intFmt c.arch.tile.fmt
        let c := c.claim rows
        let cells := rows.map (fun r => (List.range 65).map (fun k => c.cell r k))
        let c := c.touch s.nextId (rows.flatMap (fun r => (List.range cols).map (fun k => (r, k))))
        let s := s.setCore n c
        .ok (s.addOp n cx 4 ⟨0, 0⟩ capNone capNone capNone h.len
          [(12, .compare s.nextId true w.crow.toNat m cols isInt c.arch.csr.mtol cx.addr (some cells))]) (.seq 0)) s

/-- The cells of rows `crow …` and columns `ccol …` written with given values. -/
def blockCells (crow ccol : Nat) (rows : List (List ACell)) : List (List (Nat × Nat × ACell)) :=
  rows.zipIdx.map (fun r => r.1.zipIdx.map (fun x => (crow + r.2, ccol + x.2, x.1)))

/-- MZERO (R225). -/
def execMzero (w : MWord) (s : State) : Out :=
  let h := hdM (.mzero w) w
  let rows := (List.range (w.m.toNat + 1)).map (· + w.crow.toNat)
  issueWord h noPre (fun _ => [])
    (fun cx s =>
      let n := s.cur
      if (s.core n).rowsHeld rows then .hold (s.quadClose n)
      else
        let zero := List.replicate (w.m.toNat + 1) (List.replicate (w.n.toNat + 1) ({} : ACell))
        .ok ((s.updCore n (fun c => c.claim rows)).addOp n cx 4 ⟨0, 0⟩ capNone capNone capNone h.len
          [(2, .acells (blockCells w.crow.toNat w.ccol.toNat zero).flatten)]) (.seq 0)) s

/-- MALD (R226). -/
def execMald (w : MWord) (s : State) : Out :=
  let h := hdM (.mald w) w
  let rows := (List.range (w.m.toNat + 1)).map (· + w.crow.toNat)
  issueWord h noPre (fun cx => (operandCodes w cx).flatMap refS)
    (fun cx s =>
      let n := s.cur
      let c := s.core n
      let b := blockOf c cx w (w.m.toNat + 1) (w.n.toNat + 1)
      match readChecks s cx [kA w cx] b false with
      | some r => r
      | none => match quadEmpty s n b.segs with
        | some r => r
        | none =>
          if c.rowsHeld rows then .hold (s.quadClose n)
          else
            let xs := blockCells w.crow.toNat w.ccol.toNat (s.block n b)
            let lat := 8 + b.delta n
            .ok (((s.blockRead n b).updCore n (fun c => c.claim rows)).addOp n cx 4 ⟨0, 0⟩ capNone capNone capNone h.len
              (xs.zipIdx.map (fun r => (lat + r.2, Eff.acells r.1)))) (.seq 0)) s

/-- A cell converted to the memory format of MAST (R227). -/
def mastElem (fmt : Nat) (md : Mode) (x : BitVec 32) : Nat × Flags := storeLane fmt md x

/-- The bytes that a row of MAST writes at a local address, with their masks. -/
def mastBytes (fmt a : Nat) (vs : List Nat) : List (Nat × Byte × Byte) :=
  vs.zipIdx.flatMap (fun v => laneBytes fmt (if fmt = 12 then 2 * a + v.2 else a + v.2 * tySize fmt) v.1)

/-- The effects of MAST (R227): `cells` are those of the block, row by row, `at_` gives the local address of each row. -/
def mastFx (w : MWord) (rc : RCtx) (at_ : Nat → Nat) (cells : List (List ACell)) : List (Nat × Eff) :=
  cells.zipIdx.flatMap (fun r =>
    let vs := r.1.zipIdx.map (fun x =>
      mastElem w.afmt.toNat (rc.mode w.rnd.toNat r.2 ((w.ccol.toNat + x.2) % 64)) x.1.bits)
    (8 + r.2, Eff.spw (mastBytes w.afmt.toNat (at_ r.2) (vs.map (·.1)))) ::
      flagEff (8 + r.2) (vs.foldl (fun f v => f ||| v.2) 0))

/-- The first poisoned cell that MAST would store (R220, step 6). -/
def mastPoison (c : Core) (w : MWord) : Option WRes :=
  ((List.range (w.m.toNat + 1)).findSome? (fun i =>
    ((List.range (w.n.toNat + 1)).find? (fun j => (c.cell (w.crow.toNat + i) (w.ccol.toNat + j)).psn)).map
      (fun j => (w.crow.toNat + i, w.ccol.toNat + j)))).map
    (fun x => .trap 0x08 (BitVec.ofNat 64 (x.1 * 2 ^ 16 + x.2 * 2 ^ 8 + 0xFF)))

/-- MAST (R227). DESIGN CHOICE: log 54. A row that names another member is SPAD_RANGE outside a coupled quad too (R214, R220). -/
def execMast (w : MWord) (s : State) : Out :=
  let h := hdM (.mast w) w
  issueWord h noPre (fun cx => (operandCodes w cx).flatMap refS)
    (fun cx s =>
      let n := s.cur
      let c := s.core n
      let b := blockOf c cx w (w.m.toNat + 1) (w.n.toNat + 1)
      match psnTrap c cx [kA w cx] with
      | some r => r
      | none => match b.misaligned with
        | some a => .trap 0x05 (BitVec.ofNat 64 a)
        | none => match storeTrap s n b.segs (mastPoison c w) with
          | some r => r
          | none =>
            let own := memberSegs (memberOf n) b.segs
            let cells := (List.range b.rows).map (fun i =>
              (List.range b.len).map (fun j => c.cell (w.crow.toNat + i) (w.ccol.toNat + j)))
            let s := s.updCore n (fun c => (c.markW (granSegs own)).touch s.nextId
              ((List.range b.rows).flatMap (fun i => (List.range b.len).map (fun j => (w.crow.toNat + i, w.ccol.toNat + j)))))
            .ok (s.addOp n cx 4 ⟨0, 0⟩ capNone capNone capNone h.len
              (mastFx w (c.rctx cx) (fun i => b.row i % 2 ^ 21) cells)) (.seq 0)) s

end Sys2Proof.Machine
end

