-- ==== Sys2Proof/Machine/Fx.lean ====
section
/-! DEFINITION. The effects of a recorded word, computed again from its operand captures (R358, R363). -/
namespace Sys2Proof.Machine

/-- The effects of a synchronous scalar or vector word with their latencies, from its captured operands a, b and o, its mask, the
rounding context and the CSRs; a word that lands nothing has none. -/
def fx (i : Instr) (cx : Ctx) (rc : RCtx) (r : Csrs) (m : KReg) (a b o : Lanes × LMask) : List (Nat × Eff) :=
  match i with
  | .add w => fxAB 1 aluAdd (rotS cx (w.z == 1) w.d.toNat) a b
  | .sub w => fxAB 1 aluSub (rotS cx (w.z == 1) w.d.toNat) a b
  | .mul w => fxAB 3 aluMul (rotS cx (w.z == 1) w.d.toNat) a b
  | .mulh w => fxAB 3 aluMulh (rotS cx (w.z == 1) w.d.toNat) a b
  | .mulhu w => fxAB 3 aluMulhu (rotS cx (w.z == 1) w.d.toNat) a b
  | .div w => fxAB 24 aluDiv (rotS cx (w.z == 1) w.d.toNat) a b
  | .divu w => fxAB 24 aluDivu (rotS cx (w.z == 1) w.d.toNat) a b
  | .rem w => fxAB 24 aluRem (rotS cx (w.z == 1) w.d.toNat) a b
  | .remu w => fxAB 24 aluRemu (rotS cx (w.z == 1) w.d.toNat) a b
  | .andR w => fxAB 1 aluAndR (rotS cx (w.z == 1) w.d.toNat) a b
  | .orR w => fxAB 1 aluOrR (rotS cx (w.z == 1) w.d.toNat) a b
  | .xorR w => fxAB 1 aluXorR (rotS cx (w.z == 1) w.d.toNat) a b
  | .andn w => fxAB 1 aluAndn (rotS cx (w.z == 1) w.d.toNat) a b
  | .shl w => fxAB 1 aluShl (rotS cx (w.z == 1) w.d.toNat) a b
  | .shr w => fxAB 1 aluShr (rotS cx (w.z == 1) w.d.toNat) a b
  | .sra w => fxAB 1 aluSra (rotS cx (w.z == 1) w.d.toNat) a b
  | .min w => fxAB 1 aluMin (rotS cx (w.z == 1) w.d.toNat) a b
  | .max w => fxAB 1 aluMax (rotS cx (w.z == 1) w.d.toNat) a b
  | .minu w => fxAB 1 aluMinu (rotS cx (w.z == 1) w.d.toNat) a b
  | .maxu w => fxAB 1 aluMaxu (rotS cx (w.z == 1) w.d.toNat) a b
  | .slt w => fxAB 1 aluSlt (rotS cx (w.z == 1) w.d.toNat) a b
  | .sltu w => fxAB 1 aluSltu (rotS cx (w.z == 1) w.d.toNat) a b
  | .seq w => fxAB 1 aluSeq (rotS cx (w.z == 1) w.d.toNat) a b
  | .sne w => fxAB 1 aluSne (rotS cx (w.z == 1) w.d.toNat) a b
  | .selz w => fxABD 1 aluSelz (rotS cx (w.z == 1) w.d.toNat) a b o
  | .clz w => fxA 1 aluClz (rotS cx (w.z == 1) w.d.toNat) a
  | .ctz w => fxA 1 aluCtz (rotS cx (w.z == 1) w.d.toNat) a
  | .popc w => fxA 1 aluPopc (rotS cx (w.z == 1) w.d.toNat) a
  | .bfx w => fxAB 1 aluBfx (rotS cx (w.z == 1) w.d.toNat) a b
  | .bfi w => fxABD 1 aluBfi (rotS cx (w.z == 1) w.d.toNat) a b o
  | .addx2 w => fxAB 1 aluAddx2 (rotS cx (w.z == 1) w.d.toNat) a b
  | .addx4 w => fxAB 1 aluAddx4 (rotS cx (w.z == 1) w.d.toNat) a b
  | .addx8 w => fxAB 1 aluAddx8 (rotS cx (w.z == 1) w.d.toNat) a b
  | .addi w => fxA 1 (aluAddi w) w.d.toNat a
  | .andi w => fxA 1 (aluAndi w) w.d.toNat a
  | .ori w => fxA 1 (aluOri w) w.d.toNat a
  | .xori w => fxA 1 (aluXori w) w.d.toNat a
  | .shli w => fxA 1 (aluShli w) w.d.toNat a
  | .shri w => fxA 1 (aluShri w) w.d.toNat a
  | .srai w => fxA 1 (aluSrai w) w.d.toNat a
  | .slti w => fxA 1 (aluSlti w) w.d.toNat a
  | .movi w => fxMovi w
  | .movsh w => fxMovsh w o
  | .call _ => fxCall (uncapS a).1.toNat (uncapS b).1.toNat
  | .callr _ => fxCall (uncapS a).1.toNat (uncapS b).1.toNat
  | .ret _ => fxRet (uncapS b).1.toNat
  | .ldsB w => fxLds 1 true w.d.toNat a
  | .ldsBu w => fxLds 1 false w.d.toNat a
  | .ldsH w => fxLds 2 true w.d.toNat a
  | .ldsHu w => fxLds 2 false w.d.toNat a
  | .ldsW w => fxLds 4 true w.d.toNat a
  | .ldsWu w => fxLds 4 false w.d.toNat a
  | .ldsD w => fxLds 8 false w.d.toNat a
  | .stsB _ => fxSts 1 a b
  | .stsH _ => fxSts 2 a b
  | .stsW _ => fxSts 4 a b
  | .stsD _ => fxSts 8 a b
  | .faddS w => fxFp2 fp32 4 fAdd (shadeAdd fp32) w cx rc a b
  | .fsubS w => fxFp2 fp32 4 fSub (shadeSub fp32) w cx rc a b
  | .fmulS w => fxFp2 fp32 4 fMul (shadeMul fp32) w cx rc a b
  | .ffmaS w => fxFfma fp32 4 w cx rc a b o
  | .fdivS w => fxFp2 fp32 12 fDiv noShade w cx rc a b
  | .fsqrtS w => fxFsqrt fp32 12 w cx rc a
  | .fminS w => fxFminmax fp32 false w cx a b
  | .fmaxS w => fxFminmax fp32 true w cx a b
  | .fcmpS w => fxFcmp fp32 w cx a b
  | .fclassS w => fxFclass fp32 w cx a
  | .fabsS w => fxFabs fp32 w cx a
  | .fnegS w => fxFneg fp32 w cx a
  | .fcvt w => fxFcvt w cx rc a
  | .faddD w => fxFp2 fp64 6 fAdd (shadeAdd fp64) w cx rc a b
  | .fsubD w => fxFp2 fp64 6 fSub (shadeSub fp64) w cx rc a b
  | .fmulD w => fxFp2 fp64 6 fMul (shadeMul fp64) w cx rc a b
  | .ffmaD w => fxFfma fp64 6 w cx rc a b o
  | .fdivD w => fxFp2 fp64 20 fDiv noShade w cx rc a b
  | .fsqrtD w => fxFsqrt fp64 20 w cx rc a
  | .fminD w => fxFminmax fp64 false w cx a b
  | .fmaxD w => fxFminmax fp64 true w cx a b
  | .fcmpD w => fxFcmp fp64 w cx a b
  | .fclassD w => fxFclass fp64 w cx a
  | .fabsD w => fxFabs fp64 w cx a
  | .fnegD w => fxFneg fp64 w cx a
  | .csrr w => fxCsrr w a
  | .csrw w => fxCsrWrite (fun _ a => a) w a b
  | .csrs w => fxCsrWrite (fun o a => o ||| a) w a b
  | .csrc w => fxCsrWrite (fun o a => o &&& ~~~a) w a b
  | .precv w => fxPrecv w a b
  | .vadd w => fxVfs laneVadd shadeVadd w cx rc m a b o
  | .vsub w => fxVfs laneVsub shadeVsub w cx rc m a b o
  | .vmul w => fxVfs laneVmul shadeVmul w cx rc m a b o
  | .vfma w => fxVfs laneVfma shadeVfma w cx rc m a b o
  | .vfms w => fxVfs laneVfms shadeVfms w cx rc m a b o
  | .vfnma w => fxVfs laneVfnma shadeVfnma w cx rc m a b o
  | .vmin w => fxVf 2 laneVmin w cx rc m a b o
  | .vmax w => fxVf 2 laneVmax w cx rc m a b o
  | .vabs w => fxVf 2 laneVabs w cx rc m a b o
  | .vneg w => fxVf 2 laneVneg w cx rc m a b o
  | .vrcp w => fxVf 10 laneVrcp w cx rc m a b o
  | .vrsq w => fxVf 10 laneVrsq w cx rc m a b o
  | .vexp2 w => fxVf 10 laneVexp2 w cx rc m a b o
  | .vlog2 w => fxVf 10 laneVlog2 w cx rc m a b o
  | .vcmp w => fxVcmp w m a b
  | .vclass w => fxVf 2 laneVclass w cx rc m a b o
  | .vsel w => fxVsel w cx m a b o
  | .vcvt w => fxVf 4 (fun md x _ _ => vcvt (w.imm.toNat % 4) w.ty.toNat md x) w cx rc m a b o
  | .viadd w => fxVi 2 (laneViadd w) w cx m a b o
  | .visub w => fxVi 2 (laneVisub w) w cx m a b o
  | .vimul w => fxVi 4 (laneVimul w) w cx m a b o
  | .vimad w => fxVi 4 laneVimad w cx m a b o
  | .vand w => fxVi 2 laneVand w cx m a b o
  | .vor w => fxVi 2 laneVor w cx m a b o
  | .vxor w => fxVi 2 laneVxor w cx m a b o
  | .vandn w => fxVi 2 laneVandn w cx m a b o
  | .vshl w => fxVi 2 laneVshl w cx m a b o
  | .vshr w => fxVi 2 laneVshr w cx m a b o
  | .vsra w => fxVi 2 laneVsra w cx m a b o
  | .vimin w => fxVi 2 (laneVimin w) w cx m a b o
  | .vimax w => fxVi 2 (laneVimax w) w cx m a b o
  | .vicmp w => fxVicmp w m a b
  | .vmov w => fxVi 2 (fun x _ _ => (x, 0)) w cx m a b o
  | .vmovToPattern w => fxVmovToX w a
  | .vmovFromPattern w => fxAll 1 (w.kd cx) a.1 a.2
  | .vext w => fxVext w cx a b
  | .vins w => fxVins w cx a b o
  | .vperm w => fxVperm w cx m a b o
  | .vrot w => fxVrot w cx m a b
  | .vcomp w => fxVcomp w cx m a
  | .vxpnd w => fxVxpnd w cx m a
  | .viota w => fxViota w cx m
  | .vred w => fxVred w cx rc m a
  | .vscan w => fxVscan w cx rc m a b
  | .vdefer w => fxVdefer w r m a b o
  | .vdrain w => fxVdrain w cx r m a b o
  | .vld w => fxVld 8 w cx m a b
  | .vst w => fxVst 4 w rc m a b
  | .vldb w => fxVldb w cx m a b
  | .vstb w => fxVstb w rc m a b
  | .vldx w => fxVld 40 w cx m a b
  | .vstx w => fxVst 12 w rc m a b
  | .vxpl w => fxVxpl w cx m a b o
  | .vldg w => fxVldg w cx m
  | .vstg w => fxVstg w rc m a
  | .kand w => fxK2 (fun x y => x &&& y) w a b
  | .kor w => fxK2 (fun x y => x ||| y) w a b
  | .kxor w => fxK2 (fun x y => x ^^^ y) w a b
  | .knot w => fxK2 (fun x _ => ~~~x) w a b
  | .kmov w => fxK2 (fun x _ => x) w a b
  | .kmovFromScalar w => fxKfromS w a
  | .kmovToScalar w => fxKtoS w cx a
  | .kpop w => fxKpop w cx a
  | _ => []

end Sys2Proof.Machine
end

