-- ==== Sys2Proof/Machine/Landing.lean ====
section
/-! DEFINITION. The landing of results, tiles and compares at their cycles, and guarded arrivals (R33 to R36, R40, R42, R46,
R162, R163, R204, R212, R222, R353, R359). -/
namespace Sys2Proof.Machine

/-! ### What lands next -/

/-- The operations whose cycles run: in trap mode only those that handler words issued, for the others hold their place (R356,
R359). -/
def Core.running (c : Core) : List Flight := if c.hand then c.flights.filter (·.hand) else c.flights

/-- A compare reads the cells as they stand at the start of its cycle, before the landings of that cycle (R353); a flag landing
ORs into STATUS after a CSR write that lands in the same cycle (R71). -/
def Eff.rank : Eff → Nat
  | .compare .. => 0
  | .csrw .. => 1
  | _ => 2

/-- An effect still to come: its flight, its place there, its cycle and itself. -/
structure Coming where
  flight : Nat
  rgn : Nat
  idx : Nat
  at_ : Nat
  eff : Eff

/-- Every effect still to come, in issue order. -/
def Core.coming (c : Core) : List Coming :=
  c.running.flatMap (fun f => f.evs.zipIdx.map (fun e => ⟨f.id, f.rgn, e.2, e.1.1, e.1.2⟩))

/-- The next effect of a core: the earliest cycle, compares first and CSR writes next, then issue order (R34, R35, R71,
R353). -/
def Core.nextEff (c : Core) : Option Coming :=
  c.coming.foldl (fun b x => match b with
    | none => some x
    | some y => if x.at_ < y.at_ || (x.at_ = y.at_ && x.eff.rank < y.eff.rank) then some x else b) none

/-- Takes an effect out of its operation; an operation without effects is done. -/
def Core.dropEff (c : Core) (x : Coming) : Core :=
  { c with flights := (c.flights.map (fun f =>
      if f.id = x.flight then { f with evs := f.evs.eraseIdx x.idx } else f)).filter (fun f => !f.evs.isEmpty) }

/-- The device cycle at which cycle `t` of the core's clock comes, if the core does not freeze first. -/
def Core.devAt (c : Core) (t : Nat) : Nat := if c.hand then max c.dt t else c.dt + (t - c.stream)

/-! ### Landing -/

/-- One effect of an operation of region `rgn` of core `n` is performed in its cycle. -/
def State.land (s : State) (n rgn : Nat) (e : Eff) : State :=
  let arch (f : Arch → Arch) : State := s.updCore n (fun c => c.updArch rgn f)
  let csrs (s : State) (f : Csrs → Csrs) : State := s.updCore n (fun c => c.updArch rgn (fun a => { a with csr := f a.csr }))
  match e with
  | .sland d v p => arch (fun a => a.landS d v p)
  | .svoid => arch (fun a => a.pushS {})
  | .spush v => arch (fun a => a.pushS ⟨v, false, false⟩)
  | .vland d x p kb kp mz => arch (fun a => a.landV d x p kb kp mz)
  | .vset d x p kb kp mz => arch (fun a => a.setV d (a.mergeV d x p kb kp mz))
  | .vvoid => arch (fun a => a.pushV {})
  | .kland d x p kb kp mz => arch (fun a => a.landK d x p kb kp mz)
  | .xland d v p => arch (fun a => if h : d < 4 then { a with x := a.x.set d ⟨v, p⟩ } else a)
  | .flags f => csrs s (fun r => r.orFlags f)
  | .csrw k v => csrs s (fun r => r.write k v)
  | .spw bs => s.updCore n (fun c => c.spWrite bs)
  | .rspw m bs => s.updCore (quadMember n m) (fun c => c.spWrite bs)
  | .spue m ws => s.updCore (quadMember n m) (fun c => { c with ue := saddAll c.ue ws })
  | .mrow mm row acc ck g i a t =>
    let r := (s.core n).landRow rgn mm row acc ck g i a t
    csrs (s.setCore n r.1) (fun x => x.orFlags r.2)
  | .mchkrow mm row acc sums t =>
    let r := (s.core n).landCheckRow rgn row acc sums t
    let r := (r.1.touch mm ((List.range t.n).map (fun j => (row, j))), r.2)
    csrs (s.setCore n r.1) (fun x => x.orFlags r.2)
  | .acells cs => s.updCore n (fun c =>
      (cs.foldl (fun c x => c.setCell rgn x.1 x.2.1 x.2.2) c).touch 0 (cs.map (fun x => (x.1, x.2.1))))
  | .compare mm ck crow m k i mtol addr cells => s.compare n rgn mm ck crow m k i mtol addr cells
  | .correct mm row col v => s.updCore n (fun c => (c.setCell rgn row col ⟨v, false⟩).touch mm [(row, col)])
  | .latch t => arch (fun a => { a with tile := t })
  | .mismatch engine addr => s.regionErr n rgn { engine := engine, level := 3, addrk := 3, addr := addr }

/-- The next effect of core `n`, if it is of the wanted sort, in its cycle. -/
def landNext (ok : Eff → Bool) (n : Nat) (s : State) : Out :=
  match (s.core n).nextEff with
  | none => .fault .noSuchEvent
  | some x =>
    if !ok x.eff then .fault .noSuchEvent
    else .next ((((s.updCore n (fun c => (c.goTo x.at_).dropEff x)).sync n)).land n x.rgn x.eff)

/-- RESULT_LANDING (R33 to R36, R162, R163). -/
def execResultLanding (core : Nat) (s : State) : Out :=
  landNext (fun e => match e with | .compare .. => false | .latch _ => false | _ => true) core s

/-- TILE_LATCH (R222). -/
def execTileLatch (core : Nat) (s : State) : Out :=
  landNext (fun e => match e with | .latch _ => true | _ => false) core s

/-- CHECKSUM_COMPARE (R211, R212, R353). -/
def execChecksumCompare (core : Nat) (s : State) : Out :=
  landNext (fun e => match e with | .compare .. => true | _ => false) core s

/-! ### Guarded arrivals (R40, R42, R46, R284, R289, R297, R323, R359) -/

/-- The bytes of an arrival from index `i` on: value and whether any is uncorrectable. -/
def Await.bytesAt (w : Await) (i n : Nat) : List Byte × Bool :=
  let bs := (List.range n).map (fun k => ((w.bytes.find? (fun b => b.1 = i + k)).map (·.2)).getD (0, false))
  (bs.map (·.1), bs.any (·.2))

/-- What an arrival brings once all of it is there: a scalar destination with value and poison, or lanes for a vector register
with the flags of their conversion (R180). -/
inductive Brought where
  | scalar (d : Nat) (v : Word) (psn : Bool)
  | vector (d : Nat) (x : Lanes) (psn kb kp : LMask) (mz : Bool) (fl : Flags)

/-- See `Brought`. -/
def Await.brings (w : Await) : Option Brought :=
  match w.kind with
  | .ldg d n sg =>
    if w.bytes.length < w.need then none else
    let b := w.bytesAt 0 n
    some (.scalar d (extendTo n sg (leVal b.1)) b.2)
  | .vldg d ty kb kp mz =>
    if w.bytes.length < w.need then none else
    let k := tySize ty
    let lane (i : Nat) : (BitVec 32 × Flags) × Bool :=
      let b := w.bytesAt (4 * i) k
      (loadLane ty (leVal b.1), b.2)
    some (.vector d (Vector.ofFn (fun i : Fin 64 => if kb.getLsbD i.val then (lane i.val).1.1 else 0))
      (maskOf (fun i => kb.getLsbD i.val && (lane i.val).2)) kb kp mz
      ((List.range 64).foldl (fun f i => if kb.getLsbD i then f ||| (lane i).1.2 else f) 0))
  | .atom d => w.ready.map (fun r => .scalar d r.1 r.2)
  | .ask d .. => w.ready.map (fun r => .scalar d r.1 r.2)

/-- The register that awaits arrival `id` may take it: it is empty for that arrival. An atomic's value that a later COMMIT.A has
overtaken is lost (R297); a register that a trap handler has declared full takes any other arrival (R42). -/
def arriveOk (atom : Bool) (id : Nat) (pend : Option Nat) : Bool := pend = some id || (pend.isNone && !atom)

/-- An arrival writes its register and sets it full, with the flags of its conversion (R42, R71, R180, R289). -/
def Arch.arrive (a : Arch) (atom : Bool) (id : Nat) (b : Brought) : Arch :=
  match b with
  | .scalar d v p =>
    if h : d < 32 then
      if arriveOk atom id a.s[d].pend then { a with s := a.s.set d ⟨v, p, none⟩ } else a
    else a
  | .vector d x p kb kp mz fl =>
    if h : d < 32 then
      let v := a.mergeV d x p kb kp mz
      if arriveOk atom id a.v[d].pend then { a with v := a.v.set d ⟨v.1, v.2, none⟩, csr := a.csr.orFlags fl } else a
    else a

/-- Sets one bit of an 8-byte word of a memory. -/
def Memory.setBit (m : List Host.Cell) (a i : Nat) (b : Bool) : List Host.Cell :=
  let x := Memory.get m (a + i / 8)
  let k : Byte := BitVec.ofNat 8 (2 ^ (i % 8))
  Memory.set m (a + i / 8) (if b then x ||| k else x &&& ~~~k)

/-- The image of a register in the save area: value, poison and full bit (R357, R359). -/
def Core.image (c : Core) (area : Nat) (b : Brought) : Core :=
  match b with
  | .scalar d .. =>
    if h : d < 32 then
      let r := c.arch.s[d]
      let m := Memory.write c.spad (area + 0x40 + 8 * d) (leBytes 8 r.val.toNat)
      { c with spad := Memory.setBit (Memory.setBit m (area + 0x1C0) d r.psn) (area + 0x1C8) d true }
    else c
  | .vector d .. =>
    if h : d < 32 then
      let r := c.arch.v[d]
      let m := Memory.write c.spad (area + 0x200 + 256 * d) (r.lanes.toList.flatMap (fun l => leBytes 4 l.toNat))
      let m := Memory.write m (area + 0x3200 + 8 * d) (leBytes 8 r.psn.toNat)
      { c with spad := Memory.setBit m (area + 0x3380) d true }
    else c

end Sys2Proof.Machine
end

