-- ==== Sys2Proof/Machine/Traps.lean ====
section
/-! DEFINITION. TRAP and RETT, the traps that no word raises by itself (DEADLINE, an unassigned opcode, a fetch outside the code),
and the end of a wait for a device time (R28, R39, R108, R129, R157, R258, R356 to R363). -/
namespace Sys2Proof.Machine

/-- TRAP (R362). -/
def execTrap (w : SLWord) (s : State) : Out :=
  issueWord (hdS (.trap w) w.idle none) noPre (fun _ => []) (fun _ _ => .trap 0x17 (BitVec.ofNat 64 w.imm.toNat)) s

/-! ### RETT (R363) -/

/-- The loop-buffer state of a save area (R357). An area whose active bit is clear keeps only its pending rings. -/
def loopFrom (v : Nat → Nat → Nat) : LoopSt :=
  let x := v 0x35A0 8
  let p0 := BitVec.ofNat 32 (v 0x35B8 4)
  let p1 := BitVec.ofNat 32 (v 0x35C0 4)
  if bits x 15 1 = 1 then
    { active := true, body := v 0x3580 8, trip := v 0x3588 8, n := v 0x3590 8, j := v 0x3598 8, k := bits x 0 6,
      len := bits x 6 6, stages := bits x 12 3 + 1, cur0 := BitVec.ofNat 32 (v 0x35A8 4), cur1 := BitVec.ofNat 32 (v 0x35B0 4),
      pend0 := p0, pend1 := p1 }
  else { pend0 := p0, pend1 := p1 }

/-- The CSR block of a save area; TPC is not in it. -/
def csrsFrom (v : Nat → Nat → Nat) (old : Csrs) : Csrs :=
  ([0x000, 0x001, 0x002, 0x003, 0x031, 0x040, 0x041, 0x050, 0x051, 0x052, 0x053].zipIdx).foldl
    (fun r x => r.write x.1 (BitVec.ofNat 64 (v (0x3500 + 8 * x.2) 8))) old

/-- The 64 lanes at an offset. -/
def lanesFrom (v : Nat → Nat → Nat) (o : Nat) : Lanes := Vector.ofFn (fun i : Fin 64 => BitVec.ofNat 32 (v (o + 4 * i.val) 4))

/-- The architectural state of a save area, `v o n` being its `n` bytes at offset `o`; the tile and the pipes, which it does not
hold, stay as `old` has them, and an empty register awaits what it awaits in `old` (R357, R363). -/
def archFrom (v : Nat → Nat → Nat) (old : Arch) : Arch :=
  let sq := v 0x1C0 8
  let sf := v 0x1C8 8
  let vf := v 0x3380 8
  let pend (full : Bool) (o : Option Nat) : Option Nat := if full then none else some (o.getD 0)
  { old with
    s := Vector.ofFn (fun i : Fin 32 => (⟨BitVec.ofNat 64 (v (0x40 + 8 * i.val) 8), sq.testBit i.val,
      pend (sf.testBit i.val) old.s[i].pend⟩ : SReg))
    q := Vector.ofFn (fun i : Fin 16 => (⟨BitVec.ofNat 64 (v (0x140 + 8 * i.val) 8), sq.testBit (32 + i.val),
      sq.testBit (48 + i.val)⟩ : QEnt))
    csr := csrsFrom v old.csr
    loop := loopFrom v
    k := Vector.ofFn (fun i : Fin 8 => if i.val = 0 then ({} : KReg) else
      ⟨BitVec.ofNat 64 (v (0x3400 + 8 * (i.val - 1)) 8), BitVec.ofNat 64 (v (0x3440 + 8 * (i.val - 1)) 8)⟩)
    x := Vector.ofFn (fun i : Fin 4 => (⟨BitVec.ofNat 160 (v (0x3480 + 20 * i.val) 20),
      BitVec.ofNat 5 (v (0x34D0 + i.val) 1)⟩ : XReg))
    v := Vector.ofFn (fun i : Fin 32 => (⟨lanesFrom v (0x200 + 256 * i.val), BitVec.ofNat 64 (v (0x3200 + 8 * i.val) 8),
      pend (vf.testBit i.val) old.v[i].pend⟩ : VReg))
    vq := Vector.ofFn (fun i : Fin 16 => (⟨lanesFrom v (0x2200 + 256 * i.val), BitVec.ofNat 64 (v (0x3300 + 8 * i.val) 8),
      vf.testBit (32 + i.val)⟩ : VQEnt)) }

/-- What a record of R358 says: validity, kind, age, remaining cycles, region, address, lcnt and the word. -/
structure Record where
  valid : Bool
  kind : Nat
  age : Nat
  rem : Nat
  closing : Bool
  addr : Nat
  lcnt : Nat
  op : Nat
  word : Nat
  units : List (BitVec 32)

/-- The record at offset `o`. -/
def recordFrom (v : Nat → Nat → Nat) (o : Nat) : Record :=
  let x := v o 8
  let op := v (o + 24) 4 / 2 ^ 22
  let us := (List.range (lenBits op / 32)).map (fun i => BitVec.ofNat 32 (v (o + 24 + 4 * i) 4))
  { valid := x.testBit 0, kind := bits x 1 3, age := bits x 8 8, rem := bits x 16 16, closing := x.testBit 32,
    addr := v (o + 8) 8, lcnt := v (o + 16) 8, op := op, word := unitsWord us, units := us }

/-- The word of a record, if it decodes and belongs to the engine that its kind names; a void may come from a word of any engine
(R136, R363). -/
def Record.instr (r : Record) (t : DecTable) : Option Instr :=
  match decodeWord (t.iop r.op) r.op r.word with
  | .instr i => if i.fieldFail.isNone && (2 ≤ r.kind || engineOf (i.opcode.getD 0) = r.kind) then some i else none
  | .unassigned _ => none

/-- A valid record that RETT may not re-issue. -/
def Record.bad (r : Record) (t : DecTable) : Bool := r.valid && r.kind < 4 && (r.instr t).isNone

/-- The operation that a record of the open region re-issues at stream cycle `f`, computed from the record (R363). -/
def Record.flight (r : Record) (v : Nat → Nat → Nat) (o f id rgn n : Nat) (i : StepInfo) (a : Arch) : Option Flight :=
  match r.instr i.dtab with
  | none => none
  | some ins =>
    let cap (k : Nat) : Lanes × LMask := (lanesFrom v (o + 0x40 + 256 * k), BitVec.ofNat 64 (v (o + 0x340 + 8 * k) 8))
    let cx : Ctx := { t := f - r.age, dt := 0, addr := r.addr, lcnt := r.lcnt, codebase := i.codebase, cid := n, loop := a.loop }
    let rc := ({ arch := a, step := some i } : Core).rctx cx
    let m : KReg := ⟨BitVec.ofNat 64 (v (o + 0x30) 8), BitVec.ofNat 64 (v (o + 0x38) 8)⟩
    let evs : List (Nat × Eff) :=
      if r.kind = 2 then [(r.age + r.rem, .svoid)] else if r.kind = 3 then [(r.age + r.rem, .vvoid)]
      else fx ins cx rc a.csr m (cap 0) (cap 1) (cap 2)
    let evs := (evs.map (fun e => (f + e.1 - r.age, e.2))).filter (fun e => f < e.1)
    some { id := id, rgn := rgn, issue := f - r.age, addr := r.addr, lcnt := r.lcnt, units := r.units, kind := r.kind,
           hand := false, mask := m, opa := cap 0, opb := cap 1, opc := cap 2, evs := evs }

/-- What forbids the stores that operations re-issued from edited records would make: a byte outside the scratchpad is SPAD_RANGE, one
inside a protected range PROTECTION (R52, R142). DEDUCED: log 40. -/
def State.storesBad (s : State) (n : Nat) (fs : List Flight) : Option Nat :=
  let as := fs.flatMap (fun f => f.evs.flatMap (fun e => match e.2 with | .spw bs => bs.map (·.1) | _ => []))
  if as.any (fun a => 0x200000 ≤ a) then some 0x06
  else if as.any (inRanges (s.protRanges n)) then some 0x0A else none

/-- The members of a coupled quad go on together once none of them is in trap mode (R361). -/
def State.alignQuad (s : State) (n : Nat) : State :=
  let g := s.gangOf n
  if g.length ≤ 1 || g.any (fun m => (s.core m).hand) then s else
  let off (m : Nat) : Int := ((s.core m).dt : Int) - (s.core m).stream
  let o := g.foldl (fun x m => max x (off m)) (off n)
  g.foldl (fun s m => let d := (o - off m).toNat
    s.updCore m (fun c => { c with dt := c.dt + d, slip := c.slip + BitVec.ofNat 64 d })) s

/-- Leaves trap mode: the operations `back` hold their places again at stream cycle f, which comes at device cycle `dt`
(R360, R363). DESIGN CHOICE: log 54. The issue group of f is empty then: words that issued at f before the trap raise no conflict with those
that follow (R31). -/
def Core.leaveTrap (c : Core) (k : TrapCtx) (dt : Nat) (back : List Flight) : Core :=
  { c with trap := none, dt := dt, slip := c.slip + BitVec.ofNat 64 (dt - k.u), floor := 0, grpEng := [], grpEnd := false,
           flights := (back.foldl (fun l f => insFlight f l) (c.flights.filter (fun f => !f.hand))) }

/-- An operation of the handler is still to land or to arrive. -/
def Core.handlerBusy (c : Core) (k : TrapCtx) : Bool :=
  c.awaits.any (fun w => k.id0 ≤ w.id) || c.slots.any (fun x => x.2.kind = 3 && x.2.susp.isNone && k.id0 ≤ x.2.op)

/-- RETT (R363). The word that it resumes still waits as R45 states while two regions are closing (R157). DESIGN CHOICE:
log 54. An operation that the handler has withdrawn still counts for t_L of its region (R156). -/
def execRett (w : SRWord) (s : State) : Out :=
  issueWord (hdS (.rett w) w.idle none) noPre (fun _ => []) (fun cx s =>
    let n := s.cur
    let c := s.core n
    match c.trap, c.step with
    | some k, some i =>
      let mine := c.flights.filter (·.hand)
      if !mine.isEmpty then
        .fin (s.setCore n { c with floor := mine.foldl (fun m f => max m f.lastAt) (cx.dt + 1) })
      else if c.handlerBusy k then .freeze s
      else
        let s := s.readErrs n n [(k.area, saveSize)]
        if (s.core n).doom.isSome then .fin (s.updCore n (fun c => { c with floor := cx.dt + 1 }))
        else
          let v (o len : Nat) : Nat := Memory.val c.spad (k.area + o) len
          let hdr := v 0 8
          let m := bits hdr 16 8
          let tpc := c.arch.csr.tpc.toNat
          let at_ (j : Nat) : Nat := 0x3600 + 1024 * j
          let recs := (List.range m).map (fun j => (j, recordFrom v (at_ j)))
          let l := loopFrom v
          let ok := bits hdr 0 16 = 1 && m ≤ 64 && !recs.any (fun r => r.2.bad i.dtab) && tpc % 4 = 0 && inCode c tpc &&
            (!l.active || (l.k < l.len && ((bodyAddrs c l.len l.body).1)[l.k]? = some tpc))
          if !ok then
            .fin (s.endStep n { cls := 0x10, cause := 0x02, engine := 0, level := 3, addrk := 3, addr := cx.addr })
          else
            let a := archFrom v c.arch
            let live := recs.filter (fun r => r.2.valid && !r.2.closing && r.2.kind < 4)
            let same (j : Nat) : Option Flight := k.latches[j]?.filter (fun f => f.rgn = c.opn.id &&
              c.spad.filter (fun x => k.area + at_ j ≤ x.1 && x.1 < k.area + at_ j + 1024) = recordCells (k.area + at_ j) k.f false f)
            let edited := (live.filter (fun r => (same r.1).isNone)).filterMap (fun r =>
              r.2.flight v (at_ r.1) k.f (match k.latches[r.1]? with | some f => f.id | none => s.nextId + r.1) c.opn.id n i a)
            match s.storesBad n edited with
            | some cause => .fin (s.endStep n { cls := 0x10, cause := cause, engine := 0, level := 3, addrk := 3, addr := cx.addr })
            | none =>
            let opens := live.filterMap (fun r => same r.1) ++ edited
            let shut := k.latches.filter (fun f => f.rgn != c.opn.id)
            let ages := shut.map (fun f => k.f - f.issue) ++ live.map (fun r => r.2.age)
            let big := ages.foldl max 0
            let p0 := cx.dt + 64 + 8 * m
            let cut (f : Flight) : Flight := { f with evs := f.evs.filter (fun e => k.f < e.1) }
            let back := ((shut ++ opens).map cut).filter (fun f => !f.evs.isEmpty)
            let c := { (s.core n).leaveTrap k (p0 + big) back with arch := a, pc := tpc, base := k.f, exact_ := true
                                                                   floor := if 2 ≤ c.closing.length then s.quadClose n else 0 }
            .fin (({ s with nextId := s.nextId + 64 }.setCore n c).alignQuad n)
    | _, _ => .trap 0x02 (c.fieldTval 0)) s

/-! ### Traps at a word that does not itself raise them -/

/-- The idle count by which the next word issues: one in place of a word whose first byte is outside (R28). -/
def Core.nextIdle (c : Core) : Nat := if inCode c c.pc then c.idleAt c.pc else 1

/-- Takes the trap `cause` at the word at the program counter, in its issue cycle; a trap that is owed comes first. -/
def State.trapNext (s : State) (n eng cause : Nat) (tval : Core → Word) : State :=
  let t := (s.core n).issueAt (s.core n).nextIdle
  let s := (s.updCore n (fun c => c.goTo t)).sync n
  match (s.core n).owe with
  | some (k, v) => (s.updCore n (fun c => { c with owe := none })).trap n eng k v
  | none => s.trap n eng cause (tval (s.core n))

/-- A fetch outside the loaded code: SPAD_RANGE with the word's address (R28). -/
def State.fetchTrap (s : State) (n : Nat) : State :=
  s.trapNext n (s.core n).nextEngine 0x06 (fun c => BitVec.ofNat 64 c.pc)

/-- UNASSIGNED_OPCODE (R103 step 1, R104, R108). -/
def execUnassignedOpcode (core : Nat) (s : State) : Out :=
  let c := s.core core
  if c.step.isNone || c.ended then .fault .noSuchEvent
  else match c.decodeAt c.pc with
  | .instr _ => .fault .noSuchEvent
  | .unassigned op => .next (s.trapNext core (engineOf op) 0x01 (fun c => decodeTval c.pc 0 op 0))

/-- The device cycle at which the next word faults with DEADLINE, if it does: the first in which device time has passed DLINE,
no earlier than the word's own issue cycle and no later than the end of a wait (R39, R157, R258, R359). -/
def Core.deadlineAt (c : Core) : Option Nat :=
  match c.step with
  | none => none
  | some i =>
    if c.hand || i.deadlined || c.ended then none
    else
      let own := if c.exact_ then c.base else c.base + c.nextIdle
      let t := max (c.devAt own) i.dline
      if t ≤ c.devAt (c.issueAt c.nextIdle) then some t else none

/-- DEADLINE (R39, R258): the next word faults with TVAL = DLINE. -/
def execDeadline (core : Nat) (s : State) : Out :=
  let c := s.core core
  match c.deadlineAt, c.step with
  | some t, some i =>
    let s := (s.setCore core { c with stream := c.stream + (t - c.dt), dt := max c.dt t, until? := none }).sync core
    .next (s.trap core 15 0x0B (BitVec.ofNat 64 i.dline))
  | _, _ => .fault .noSuchEvent

/-- DEADLINE_END (R258): the control die ends a step that has not completed by DLINE + 65,536. -/
def execDeadlineEnd (core : Nat) (s : State) : Out :=
  let c := s.core core
  match c.step with
  | none => .fault .noSuchEvent
  | some i =>
    let t := max c.dt (i.dline + 65536)
    .next ((({ s with now := max s.now t }).updCore core (fun c => { c with dt := t })).endStep core
      { cls := 0x11, engine := 15, level := 3, addrk := 0 })

/-- The device cycle at which the wait of WAITT or REALIGN ends: the time waited for, or DLINE if that comes first and may still
be raised (R39, R129, R256). -/
def Core.untilAt (c : Core) (u : Until) : Nat :=
  match c.step with
  | some i => if c.hand || i.deadlined then max c.dt u.time else max c.dt (min u.time i.dline)
  | none => c.dt

/-- DEVICE_TIME_REACHED (R38, R129, R256): the frozen core, and with it the members of its coupled quad, go on. The cycles of the wait add
to SLIP, which a REALIGN that then issues clears. -/
def execDeviceTimeReached (core : Nat) (s : State) : Out :=
  let c := s.core core
  match c.waiting with
  | none => .fault .noSuchEvent
  | some u =>
    let t := c.untilAt u
    let past : Option Until := if (u.realign && u.time < t) || (u.check && u.time ≤ t) then some { u with past := true } else none
    let g := if c.hand then [core] else (s.gangOf core).filter (fun m => !(s.core m).hand)
    let d := t - c.dt
    let s := g.foldl (fun s m => s.updCore m (fun k =>
      { k with dt := k.dt + d, slip := if c.hand then k.slip else k.slip + BitVec.ofNat 64 d
               floor := if c.hand then max k.floor t else k.floor
               until? := if m = core || (u.realign && (match k.until? with | some x => x.realign && x.time = u.time | none => false))
                 then past else k.until? })) s
    .next (s.sync core)

end Sys2Proof.Machine
end

