-- ==== Sys2Proof/Machine/Homes.lean ====
section
/-! DEFINITION. What the homes of memory do whoever asks: latencies, writes, the performing of atomics, and the bytes that the control die sees
and writes (R247, R263, R267, R278, R279, R281, R282, R295 to R299, R338, R381). -/
namespace Sys2Proof.Machine

/-! ### What an effect touches -/

/-- The physical addresses that an effect touches at homes. -/
def HeldEff.homes (e : HeldEff) : List Nat :=
  match e with
  | .write _ pa _ => [pa]
  | .block _ _ pa _ _ => [pa]
  | .atomic _ _ _ _ pa .. => [pa]
  | .adds ls _ => ls.map (fun x => x.2.1)
  | _ => []

/-- The bytes that a write leaves at homes: physical address and byte. -/
def HeldEff.cells (e : HeldEff) : List (Nat × Byte) :=
  match e with
  | .write _ pa bs => bs.zipIdx.map (fun b => (pa + b.2, b.1))
  | .block _ _ pa m bs => (bs.zipIdx.filter (fun b => m.getLsbD b.2)).map (fun b => (pa + b.2, b.1))
  | _ => []

/-- The effect performs at a home. -/
def HeldEff.global (e : HeldEff) : Bool :=
  match e with
  | .write .. => true
  | .block .. => true
  | .atomic .. => true
  | .adds .. => true
  | _ => false

/-- The release of the effect sends the control die a message (R395). -/
def HeldEff.message (e : HeldEff) : Bool :=
  match e with
  | .launch .. => true
  | .signal _ => true
  | .fenceRc => true
  | .resume .. => true
  | .fork .. => true
  | .discard .. => true
  | _ => false

/-! ### Latencies (R381) -/

/-- The least time of a message between a core and the home of an address; the host link is the control die's. -/
def homeLat (n pa : Nat) : Nat :=
  match homeDie pa with
  | some d => if d = dieOf n then 0 else 38
  | none => 30

/-! ### Order (R278, R281, R299) -/

/-- A released effect of core `n`, held before `id`, has not performed at its home. -/
def State.relBefore (s : State) (n id : Nat) (p : Rel → Bool) : Bool :=
  s.rels.any (fun x => x.core = n && x.op < id && x.eff.global && p x)

/-- A write to the host window of core `n`, held before `id`, has performed but is not visible at system scope (R278). -/
def State.hostBefore (s : State) (n id : Nat) (p : Nat → Bool) : Bool :=
  s.hostWrites.any (fun x => x.2.1 = n && x.2.2.2 < id && p x.2.2.1)

/-- An atomic other than `id` has read its bytes of the host window and not written them yet: other accesses of the package to a range that
holds them wait (R299). -/
def State.hostHeld (s : State) (id pa n : Nat) : Bool :=
  s.rels.any (fun x => x.id != id && x.old.isSome && x.eff.homes.any (fun p => pa < p + 8 && p < pa + n))

/-- Drops the ordering points that no earlier access waits for. -/
def State.pruneOrders (s : State) : State :=
  { s with orders := s.orders.filter (fun o => (s.core o.core).held.any (fun h => h.op < o.id) ||
      (s.core o.core).slots.any (fun x => x.2.kind = 4 && x.2.op < o.id) || s.relBefore o.core o.id (fun _ => true) ||
      s.hostBefore o.core o.id (fun _ => true)) }

/-- A released effect is done. -/
def State.dropRel (s : State) (id : Nat) : State := { s with rels := s.rels.filter (fun r => r.id != id) }

/-! ### Record caches (R247) -/

/-- The record cache of a partition loses every entry (R247). -/
def State.flushRecs (s : State) (p : Nat) : State := s.updPart p (fun x => { x with recs := [] })

/-- Invalidations of record caches take effect once every store that the core released before has performed (R247). -/
def State.settle (s : State) : State :=
  let due := s.rels.filter (fun r => match r.eff with
    | .fenceRc => !s.rels.any (fun x => x.core = r.core && x.op < r.op && (match x.eff with | .fenceRc => false | _ => true))
    | _ => false)
  let s := due.foldl (fun s r => s.flushRecs r.part) s
  { s with rels := s.rels.filter (fun r => !due.any (fun d => d.id = r.id)) }

/-! ### Writes (R263, R267, R278) -/

/-- The step that released an effect pays for it. -/
def Rel.payer (r : Rel) : Payer := some (r.core, r.launch, r.stp)

/-- Bytes are written at their home: a whole word loses its error, a partial one stays uncorrectable, and one whose entry was
uncorrectable at release becomes so (R263, R267). -/
def State.homeWrite (s : State) (who : Payer) (pa : Nat) (bs : List Byte) (bad : List Nat) : State :=
  let s := (s.memFix who pa bs.length).memWrite pa bs
  if bad.isEmpty then s else { s with memUe := saddAll s.memUe (wordsIn (bad.map (· + pa / 64 * 8)) pa bs.length) }

/-- A write to the host window waits for its completion (R278). -/
def State.hostPending (s : State) (r : Rel) (pa : Nat) : State :=
  if windowOf pa = 4 then { s with hostWrites := s.hostWrites ++ [(r.id, r.core, r.cls, r.op)] } else s

/-! ### Atomics (R295 to R299, R338) -/

/-- The value that an atomic leaves, on `n` bytes (R295). -/
def AtomOp.apply (op : AtomOp) (wide : Bool) (old b d : Nat) : Nat :=
  let m := if wide then 2 ^ 64 else 2 ^ 32
  let sg (x : Nat) : Int := if 2 * x < m then x else (x : Int) - m
  match op with
  | .add => (old + b) % m
  | .min => if sg b < sg old then b else old
  | .max => if sg old < sg b then b else old
  | .and => Nat.land old b
  | .or => Nat.lor old b
  | .xchg => b
  | .cas => if old = d then b else old
  | .fadd => (fAdd fp32 rne (FV.ofBits fp32 old) (FV.ofBits fp32 b)).1

/-- A released atomic whose return is to be delivered takes the next place of its step's log; a 257th makes the step unadoptable (R338). -/
def StepInfo.logPlace (i : StepInfo) (tok : Nat) : StepInfo :=
  if i.log.length < 256 then { i with log := i.log ++ [(tok, 0, true)] } else { i with unadoptable := true }

/-- The control die logs the return of the atomic `tok`, wherever the step is by now (R338). -/
def StepInfo.logReturn (i : StepInfo) (tok : Nat) (v : Word × Bool) : StepInfo :=
  { i with log := i.log.map (fun x => if x.1 = tok then (tok, v) else x) }

/-- See `StepInfo.logReturn`. -/
def State.logReturn (s : State) (r : Rel) (tok : Nat) (v : Word × Bool) : State :=
  let s := { s with cores := s.cores.map (fun (x : Nat × Core) => (x.1, { x.2 with step := x.2.step.map (fun (i : StepInfo) => i.logReturn tok v) })) }
  s.updLaunch r.launch (fun l => { l with redo := l.redo.map (fun (x : Redo) => { x with info := x.info.logReturn tok v }) })

/-- The return of an atomic is on its way to its core. -/
def State.sendReturn (s : State) (r : Rel) (tok pa : Nat) (v : Word) (psn : Bool) : State :=
  let at_ := s.now + homeLat r.core pa
  s.updCore r.core (fun c => { c with awaits := c.awaits.map (fun a =>
    if a.id = tok then { a with ready := some (v, psn), since := max a.since at_ } else a) })

/-- An atomic writes at its home what it makes of the value `found` there, its poison with it, and its return is on its way (R263, R267, R295,
R297, R338). -/
def State.atomicWrite (s : State) (r : Rel) (op : AtomOp) (wide : Bool) (pa : Nat) (b dold : Word) (d : Option Nat) (tok : Nat)
    (found : Word × Bool) : State :=
  let s := if found.2 then s.memBad r.payer (pa / 8) else s
  let keep := if !r.bad.isEmpty || (found.2 && op != .xchg) then [pa % 64 / 8] else []
  let s := (s.dropRel r.id).homeWrite r.payer pa (leBytes (if wide then 8 else 4) (op.apply wide found.1.toNat b.toNat dold.toNat)) keep
  let s := if d.isSome then s.logReturn r tok found else s
  ((s.sendReturn r tok pa found.1 found.2).hostPending r pa).pruneOrders.settle

/-- An atomic to the host window that has read its bytes writes them (R299). -/
def State.finishAtomic (s : State) (r : Rel) : State :=
  match r.eff, r.old with
  | .atomic op wide _ _ pa b dold d tok, some found => s.atomicWrite r op wide pa b dold d tok found
  | _, _ => s

/-- The atomics to the host window that have read bytes of a range, and not written them. -/
def State.halfDone (s : State) (pa n : Nat) : List Rel :=
  s.rels.filter (fun x => x.old.isSome && (match x.eff with
    | .atomic _ wide _ _ p .. => pa < p + (if wide then 8 else 4) && p < pa + n
    | _ => false))

/-- An access of the control die to a range waits behind the atomics that have begun there: they are finished (R299). -/
def State.hostDone (s : State) (pa n : Nat) : State := (s.halfDone pa n).foldl State.finishAtomic s

/-- The control die writes bytes at a physical address. -/
def State.diePut (s : State) (pa : Nat) (bs : List Byte) : State := (s.hostDone pa bs.length).memWrite pa bs

/-- Memory as a read by the control die finds it: behind the atomics to the host window that have begun (R299). -/
def State.dieMem (s : State) : List Host.Cell :=
  (s.rels.filter (fun x => x.old.isSome)).foldl (fun m x => match x.eff, x.old with
    | .atomic op wide _ _ pa b dold _ _, some o =>
      Memory.write m pa (leBytes (if wide then 8 else 4) (op.apply wide o.1.toNat b.toNat dold.toNat))
    | _, _ => m) s.mem

end Sys2Proof.Machine
end

