-- ==== Sys2Proof/Machine/Post.lean ====
section
/-! DEFINITION. What the control die writes for others: accesses through a partition's tables, completion and signal records,
status words, error blocks, log entries, the CRC and the posting of launches (R253, R254, R272, R324, R339, R346 to R349, R410 to
R413, R425). -/
namespace Sys2Proof.Machine

/-! ### CRC-64 (R339) -/

/-- One byte of the CRC-64 of R339. -/
def crcByte (c : Word) (b : Byte) : Word :=
  (List.range 8).foldl (fun c _ => if c.msb then (c <<< 1) ^^^ 0x42F0E1EBA9EA3693 else c <<< 1) (c ^^^ (b.setWidth 64 <<< 56))

/-- The CRC-64 of bytes, carried on from `c`. -/
def crc64 (c : Word) (bs : List Byte) : Word := bs.foldl crcByte c

/-! ### The control die's own accesses (R253, R268, R270, R272) -/

/-- Why the control die cannot make an access: PAGE_FAULT or PROTECTION, or an uncorrectable error in the table entry at `pa` (R270, R434). -/
inductive DieErr where
  | fault (cause : Nat)
  | table (pa : Nat)
  deriving DecidableEq, Repr

/-- Translates an address of a partition for the control die: the physical address and the leaf's entry, or why not. -/
def State.dieTrans (s : State) (p va acc : Nat) : (Nat × Nat) ⊕ DieErr :=
  if 2 ^ 48 ≤ va then .inr (.fault 0x09) else
  match s.walk p va with
  | .leaf frame size low entry _ =>
    match permBad frame low acc with
    | some _ => .inr (.fault 0x0A)
    | none => .inl (frame + va % size, entry)
  | .bad pa => .inr (.table pa)
  | .fault .. => .inr (.fault 0x09)

/-- The control die writes bytes that lie in one page of a partition, for `who`, setting A and D (R267, R272, R434); and why not, if it may
not. -/
def State.dieWrite (s : State) (who : Payer) (p va : Nat) (bs : List Byte) : State × Option DieErr :=
  let s := s.fixPath who (s.walkPath (fun _ => none) p va)
  match s.dieTrans p va 1 with
  | .inr e => (s, some e)
  | .inl (pa, e) => (((s.orEntry e 4).orEntry e 5).diePut pa bs, none)

/-- How a read by the control die ends. -/
inductive DieRead where
  | bytes (l : List Byte)
  | fault (cause va : Nat)
  /-- an uncorrectable word of what is read, or of a table entry -/
  | bad (pa : Nat)
  | table (pa : Nat)
  deriving DecidableEq, Repr

/-- The bytes of a read. -/
def DieRead.data (r : DieRead) : List Byte := match r with | .bytes l => l | _ => []

/-- The first word of a physical range that cannot be read without error. -/
def State.badWord (s : State) (pa n : Nat) : Option Nat :=
  if s.memUe.isEmpty && s.deadDies.isEmpty then none else
  ((List.range ((pa + n - 1) / 8 - pa / 8 + 1)).map (fun i => pa / 8 + i)).find? (fun w => s.memUe.contains w || s.homeLost (8 * w))

/-- Reads `n` bytes of a partition from `va`, 64 bytes at most at a time. `fuel` bounds the pieces. -/
def State.dieRead (s : State) (p acc : Nat) : Nat → Nat → Nat → DieRead
  | 0, _, _ => .bytes []
  | fuel + 1, va, n =>
    if n = 0 then .bytes [] else
    let k := min n (64 - va % 64)
    match s.dieTrans p va acc with
    | .inr e => (match e with | .table pa => .table pa | .fault cause => .fault cause va)
    | .inl (pa, _) => match s.badWord pa k with
      | some w => .bad (8 * w)
      | none => match s.dieRead p acc fuel (va + k) (n - k) with
        | .bytes l => .bytes (Memory.read s.dieMem pa k ++ l)
        | r => r

/-- Reads `n` bytes of a partition. -/
def State.readVa (s : State) (p acc va n : Nat) : DieRead := s.dieRead p acc (n / 64 + 2) va n

/-- What a read of `n` bytes of a partition by the control die leaves, for `who`: A set in the leaves that permit it, and single-bit errors
of its entries and its data corrected and counted (R267, R272, R434). -/
def State.readLeaves (s : State) (who : Payer) (p acc va n : Nat) : State :=
  if n = 0 then s else
  ((List.range ((va + n - 1) / 0x10000 - va / 0x10000 + 1)).map (· + va / 0x10000)).foldl (fun s k =>
    let a := max va (0x10000 * k)
    let e := min (va + n) (0x10000 * (k + 1))
    let s := s.fixPath who (s.walkPath (fun _ => none) p a)
    match s.dieTrans p a acc with
    | .inl (pa, entry) => (s.orEntry entry 4).memFix who pa (e - a)
    | .inr _ => s) s

/-- A read of `n` bytes of a partition by the control die, for `who`, and what it leaves. -/
def State.fetchVa (s : State) (who : Payer) (p acc va n : Nat) : DieRead × State := (s.readVa p acc va n, s.readLeaves who p acc va n)

/-! ### Answers and entries of the log (R349, R415) -/

/-- The host is sent a class and data: the answer to a command. -/
def State.result (s : State) (cls : Nat) (data : List Byte) : State := { s with results := s.results ++ [⟨cls, data⟩] }

/-- The bytes of an entry of the event log. DESIGN CHOICE: log 10. -/
def LogEntry.bytes (e : LogEntry) : List Byte :=
  [e.what, e.core, e.engine, e.addr, e.time, e.stepid.toNat, e.reason].flatMap (fun x => leBytes 8 x)

/-! ### Queues (R407 to R413) -/

/-- The queue with an identifier. -/
def State.queue? (s : State) (q : Nat) : Option Queue := s.queues.find? (fun x => x.id = q)

/-- Changes a queue. -/
def State.updQueue (s : State) (q : Nat) (f : Queue → Queue) : State :=
  { s with queues := s.queues.map (fun x => if x.id = q then f x else x) }

/-- The sizes of a queue's rings. -/
def Queue.sqZ (q : Queue) : Nat := 2 ^ (12 + q.sqsz)
/-- See `Queue.sqZ`. -/
def Queue.cqZ (q : Queue) : Nat := 2 ^ (12 + q.cqsz)

/-- The completion ring has 64 free bytes beyond every outstanding reservation (R412). -/
def Queue.room (q : Queue) : Bool :=
  (q.cqtail + 2 * q.cqZ - q.cqhead % (2 * q.cqZ)) % (2 * q.cqZ) + 64 * q.reserved + 64 ≤ q.cqZ

/-- The error block of R347, as a number of 256 bits. -/
def errorBlock (r : Report) (ncorr nreplay nadopt nretire : Nat) : Nat :=
  let unit := if r.cls = 0 then 15 * 2 ^ 60 else r.unit
  let step := if r.cls = 0 then 0xFFFFFFFF else r.step
  let tail := if r.cls = 0 then 0 else r.addrk * 2 ^ 80 + r.cause * 2 ^ 88 + r.addr % 2 ^ 64 * 2 ^ 128
  r.cls + unit + step * 2 ^ 96 + tail + min nretire 255 * 2 ^ 192 + min nadopt 255 * 2 ^ 200 +
    min nreplay 65535 * 2 ^ 208 + min ncorr (2 ^ 32 - 1) * 2 ^ 224

/-- The header of a record (R313). -/
def recHeader (len typ flags serial : Nat) : Nat := len + typ * 2 ^ 24 + flags * 2 ^ 28 + serial % 2 ^ 32 * 2 ^ 32

/-- Writes a 64-byte record on a completion ring, advances its tail and raises MSI-X if asked (R411, R412). -/
def State.ringWrite (s : State) (q : Nat) (typ serial : Nat) (body : List Byte) : State :=
  match s.queue? q with
  | none => s
  | some x =>
    let h := recHeader 64 typ (if x.lost then 1 else 0) serial
    let s := s.diePut (hostPa (x.cqbase.toNat + x.cqtail % x.cqZ)) (leBytes 8 h ++ body)
    s.updQueue q (fun x => { x with cqtail := (x.cqtail + 64) % (2 * x.cqZ), lost := false,
                                    msixCount := if x.msix then x.msixCount + 1 else x.msixCount })

/-- A submission is done: its COMPLETE record, unless it is quiet and went well, and its reservation released (R410 to R412). -/
def State.complete (s : State) (q serial : Nat) (tag : Word) (quiet : Bool) (typ steps lineage : Nat) (block : Nat) : State :=
  let s := s.updQueue q (fun x => { x with reserved := x.reserved - 1, pending := x.pending - 1,
                                           lastSerial := serial })
  if quiet && block % 256 < 0x10 then s
  else s.ringWrite q 1 serial (leBytes 8 tag.toNat ++ leBytes 8 (q + typ * 2 ^ 16 + steps * 2 ^ 32) ++ leBytes 8 lineage ++
    leBytes 32 block)

/-- A host signal (R411, R413): written when there is room beyond the reservations, else dropped and noted. -/
def State.signal (s : State) (q : Nat) (stepid v : Word) : State :=
  match s.queue? q with
  | none => s
  | some x =>
    let s := s.updQueue q (fun x => { x with signals := x.signals + 1 })
    if x.room then s.ringWrite q 2 (x.signals + 1) (leBytes 8 stepid.toNat ++ leBytes 8 v.toNat ++ List.replicate 40 0)
    else s.updQueue q (fun x => { x with lost := true })

/-! ### Launches posted and finished (R252 to R254, R324, R346) -/

/-- An empty report for a launch that ends by itself (R352). -/
def launchReport (cls cause addrk addr : Nat) : Report :=
  { cls := cls, cause := cause, engine := 15, level := 0, addrk := addrk, addr := addr }

/-- A launch of record `tor`, queued. -/
def newLaunch (id part tor : Nat) (o : Origin) (prio : Nat) (root : Option Nat) (after : Option (Nat × Nat)) (now : Nat) :
    Launch :=
  { id := id, part := part, tor := tor, origin := o, prio := prio, words := [], dtab := {}, serial := 0, target := none,
    phase := 0, rect := none, code := [], preload := [], total := 0, nextStep := 0, running := [], redo := [], done := 0,
    children := 0, report := {}, ncorr := 0, nreplay := 0, nadopt := 0, nretire := 0, variant := 0,
    sums := ((0, 0), (0, 0)), tau := ((0, 0), (0, 0)), marks := [], bounds := [], startAt := none, lent := [], accepted := now,
    rootQueue := root, after := after, suspended := 0 }

/-- What a failed access to `va` by the control die reports (R352, R434). -/
def State.errReport (s : State) (e : DieErr) (va : Nat) : Report :=
  match e with
  | .fault cause => launchReport 0x10 cause 1 va
  | .table pa => { s.memReport (pa / 8) with cls := 0x20, addr := pa }

/-- What a failed read by the control die reports (R244, R352, R434). -/
def State.failedRead (s : State) (r : DieRead) : Option Report :=
  match r with
  | .fault cause a => some (s.errReport (.fault cause) a)
  | .bad pa => some (launchReport 0x20 0 2 pa)
  | .table pa => some (s.errReport (.table pa) 0)
  | .bytes _ => none

/-- Writes the status word of a child; a status word that cannot be written raises the parent's class (R253, R352). -/
def State.statusWord (s : State) (part parent step status : Nat) (v : Nat) : State :=
  if status = 0 then s else
  match s.dieWrite (launchPayer parent) part status (leBytes 8 v) with
  | (s, none) => s
  | (s, some e) =>
    let r : Report := { s.errReport e status with step := step, time := s.now }
    s.updLaunch parent (fun l => { l with report := l.report.worse r })

/-- The status word of R253. -/
def statusVal (r : Report) (steps : Nat) : Nat := r.cls + (if r.cls = 0x10 then r.cause * 256 else 0) + steps * 2 ^ 32

/-- A launch is over: it reports where it came from, and a parent counts one child less (R253, R324, R410). Steps of forks that were to
run again have no list any more (R336, R374). -/
def State.finishLaunch (s : State) (id : Nat) : State :=
  match s.launch? id with
  | none => s
  | some l =>
    let s := s.endRedos id l.redo notAdoptableReport
    let keep : List Launch := s.launches.filter (fun x => x.id != id)
    let s := { s with launches := keep.map (fun (x : Launch) => { x with lent := x.lent.filter (fun y => y.2 != id) }) }
    let s := s.updPart l.part (fun p => { p with queue := p.queue.filter (· != id) })
    match l.origin with
    | .device parent step status =>
      let s := s.statusWord l.part parent step status (statusVal l.report l.done)
      s.updLaunch parent (fun x => { x with children := x.children - 1 })
    | .host q serial tag quiet =>
      s.complete q serial tag quiet (if l.target.isSome then 2 else 1) l.done 0
        (errorBlock l.report l.ncorr l.nreplay l.nadopt l.nretire)

/-- Ends a launch that runs no step (R236, R244, R248, R386). -/
def State.refuseLaunch (s : State) (id : Nat) (r : Report) : State :=
  (s.updLaunch id (fun l => { l with report := l.report.worse { r with time := s.now } })).finishLaunch id

/-- Posts a child launch of a step; one that finds the partition's queue full ends REFUSED (R252 to R254). -/
def State.postLaunch (s : State) (n : Nat) (i : StepInfo) (a b : Word) : State :=
  match s.part? i.part with
  | none => s
  | some p =>
    let full : Bool := 4096 ≤ p.queue.length
    let (id, s) := s.fresh
    let parent := s.launch? i.launch
    let t := (s.core n).dt
    let l := newLaunch id i.part a.toNat (.device i.launch i.stp b.toNat) (match parent with | some x => x.prio | none => 0)
      i.root (some (n, id)) s.now
    let l := { l with dtab := i.dtab, since := t }
    let l := if full then { l with phase := 1, report := launchReport 0x13 0 0 0, endAt := t + 60 } else l
    let s := s.updLaunch i.launch (fun x => { x with children := x.children + 1 })
    { s with launches := s.launches ++ [l] }.updPart i.part (fun p => if full then p else { p with queue := p.queue ++ [id] })

end Sys2Proof.Machine
end

