-- ==== Sys2Proof/Machine/Sha.lean ====
section
/-! DEFINITION. SHAKE256 (FIPS 202), which tags, measurements and keys use (R371, R418, R420). -/
namespace Sys2Proof.Machine

/-- The round constants of Keccak-f[1600]. -/
def keccakRC : List Word :=
  [0x0000000000000001, 0x0000000000008082, 0x800000000000808A, 0x8000000080008000, 0x000000000000808B, 0x0000000080000001,
   0x8000000080008081, 0x8000000000008009, 0x000000000000008A, 0x0000000000000088, 0x0000000080008009, 0x000000008000000A] ++
  [0x000000008000808B, 0x800000000000008B, 0x8000000000008089, 0x8000000000008003, 0x8000000000008002, 0x8000000000000080,
   0x000000000000800A, 0x800000008000000A, 0x8000000080008081, 0x8000000000008080, 0x0000000080000001, 0x8000000080008008]

/-- The rotation of lane (x, y), at index x + 5y. -/
def keccakRot : List Nat :=
  [0, 1, 62, 28, 27, 36, 44, 6, 55, 20, 3, 10, 43, 25, 39, 41, 45, 15, 21, 8, 18, 2, 61, 56, 14]

/-- One round on 25 lanes, lane (x, y) at index x + 5y. -/
def keccakRound (a : Vector Word 25) (rc : Word) : Vector Word 25 :=
  let at_ (v : Vector Word 25) (x y : Nat) : Word := v.toList.getD (x % 5 + 5 * (y % 5)) 0
  let c (x : Nat) : Word := at_ a x 0 ^^^ at_ a x 1 ^^^ at_ a x 2 ^^^ at_ a x 3 ^^^ at_ a x 4
  let cs : Vector Word 5 := Vector.ofFn (fun i : Fin 5 => c i.val)
  let cAt (x : Nat) : Word := cs.toList.getD (x % 5) 0
  let t : Vector Word 25 := Vector.ofFn (fun i : Fin 25 =>
    a[i.val] ^^^ cAt (i.val + 4) ^^^ (cAt (i.val + 1)).rotateLeft 1)
  let b : Vector Word 25 := Vector.ofFn (fun i : Fin 25 =>
    let x := i.val % 5
    let y := i.val / 5
    -- lane (x, y) of B comes from lane (x + 3y, x) of A
    let j := (x + 3 * y) % 5 + 5 * x
    (t.toList.getD j 0).rotateLeft (keccakRot.getD j 0))
  Vector.ofFn (fun i : Fin 25 =>
    let x := i.val % 5
    let y := i.val / 5
    let v := at_ b x y ^^^ (~~~(at_ b (x + 1) y) &&& at_ b (x + 2) y)
    if i.val = 0 then v ^^^ rc else v)

/-- The permutation. -/
def keccakF (a : Vector Word 25) : Vector Word 25 := keccakRC.foldl keccakRound a

/-- Absorbs one block of 136 bytes. -/
def absorb (a : Vector Word 25) (blk : List Byte) : Vector Word 25 :=
  keccakF (Vector.ofFn (fun i : Fin 25 =>
    if i.val < 17 then a[i.val] ^^^ BitVec.ofNat 64 (leVal ((blk.drop (8 * i.val)).take 8)) else a[i.val]))

/-- Blocks of 136 bytes. -/
def blocks136 : Nat → List Byte → List (List Byte)
  | 0, _ => []
  | k + 1, l => if l.isEmpty then [] else l.take 136 :: blocks136 k (l.drop 136)

/-- The padding of SHAKE after `n` bytes. -/
def shakePad (n : Nat) : List Byte :=
  let k := 136 - n % 136
  if k = 1 then [0x9F] else 0x1F :: (List.replicate (k - 2) 0 ++ [0x80])

/-- The first `n` bytes of SHAKE256, for n up to 136. -/
def shake256 (msg : List Byte) (n : Nat) : List Byte :=
  let m := msg ++ shakePad msg.length
  let a := (blocks136 (m.length / 136 + 1) m).foldl absorb (Vector.replicate 25 0)
  ((a.toList.take 17).flatMap (fun w => leBytes 8 w.toNat)).take n

end Sys2Proof.Machine
end

