-- ==== Sys2Proof/Machine/Objects.lean ====
section
/-! DEFINITION. Continuation objects: their bytes, their tags, the check of R372, and their capture (R366 to R372, R377). -/
namespace Sys2Proof.Machine

/-! ### Bytes of an object (R369, R370) -/

/-- Zeros up to a multiple of 64. -/
def pad64 (l : List Byte) : List Byte := l ++ List.replicate (roundUp l.length 64 - l.length) 0

/-- The 8-byte words of numbers. -/
def words8 (l : List Nat) : List Byte := l.flatMap (fun x => leBytes 8 x)

/-- An operation as its record shows it. That of a kind 0 copy that reads what it overwrites carries, in the places of its operands, the bytes
that are still to land, as far as a record has room (R358, R368). DESIGN CHOICE: log 55. -/
def Flight.shown (f : Flight) : Flight :=
  if !f.carries then f else
  let bs := f.evs.flatMap (fun e => match e.2 with | .spw l => l.map (fun b => b.2.1) | _ => [])
  let part (k : Nat) : Lanes := Vector.ofFn (fun i : Fin 64 => BitVec.ofNat 32 (leVal ((bs.drop (256 * k + 4 * i.val)).take 4)))
  { f with opa := (part 0, 0), opb := (part 1, 0), opc := (part 2, 0) }

/-- The live state of a core as an object holds it: the save-area layout with records of every kind (R357, R358, R370). -/
def liveBytes (c : Core) : List Byte :=
  Memory.read (saveCells c 0 c.dt c.stream 0 0 c.pc ((c.flights.take 64).map Flight.shown)) 0 saveSize

/-- A snapshot in the save-area layout up to 0x3600. -/
def snapBytes (a : Arch) : List Byte := Memory.read (archCells 0 a) 0 0x3600

/-- The matrix part: 4,096 decoded cells, 64 check weights, then K, N, format and whether a latch is under way. -/
def matrixBytes (c : Core) : List Byte :=
  let t := c.arch.tile
  let cell (o : Option ACell) : List Byte := leBytes 4 ((o.getD {}).bits.toNat)
  (List.range 4096).flatMap (fun i => cell ((t.rows[i / 64]?).bind (fun r => r[i % 64]?))) ++
  (List.range 64).flatMap (fun i => cell (t.w[i]?)) ++
  pad64 (words8 [t.k, t.n, t.fmt, if c.flights.any (fun f => f.evs.any (fun e => match e.2 with | .latch _ => true | _ => false))
    then 1 else 0])

/-- A piece of a held effect in one block: where it lies, its kind of R339, its byte mask and its data. -/
structure HeldPart where
  pa : Nat
  kind : Nat
  mask : Nat
  data : List Byte

/-- Bytes at `pa` within their 64-byte block. -/
def HeldPart.within (kind pa : Nat) (bs : List Byte) : HeldPart :=
  ⟨pa / 64 * 64, kind, (2 ^ bs.length - 1) * 2 ^ (pa % 64), List.replicate (pa % 64) 0 ++ bs⟩

/-- A held effect in the pieces that R339 counts: each addition of a VRED.G is one, each 64 bytes of a pipe record are one. -/
def heldParts (e : HeldEff) : List HeldPart :=
  match e with
  | .write _ pa bs => [.within 1 pa bs]
  | .block _ _ pa m bs => [⟨pa, 1, m.toNat, bs⟩]
  | .atomic _ wide op _ pa b d _ _ => [⟨pa, 2, if wide then 255 else 15, leBytes 2 op ++ leBytes 8 b.toNat ++ leBytes 8 d.toNat⟩]
  | .adds ls _ => ls.map (fun x => .within 3 x.2.1 (leBytes 4 x.2.2.1.toNat))
  | .window n off bs => [⟨n * 2 ^ 32 + off, 4, 2 ^ 64 - 1, bs⟩]
  | .launch a b => [⟨0, 5, 0, words8 [a.toNat, b.toNat]⟩]
  | .resume a b _ => [⟨1, 5, 0, words8 [a.toNat, b.toNat]⟩]
  | .fork a b _ => [⟨2, 5, 0, words8 [a.toNat, b.toNat]⟩]
  | .discard a _ => [⟨3, 5, 0, words8 [a.toNat, 0]⟩]
  | .fenceRc => [⟨0, 6, 0, []⟩]
  | .signal b => [⟨0, 7, 0, leBytes 8 b.toNat⟩]
  | .pipeRec p off bs _ => (List.range ((bs.length + 63) / 64)).map (fun k =>
      ⟨p * 2 ^ 32 + off + 64 * k, 8, 2 ^ 64 - 1, (bs.drop (64 * k)).take 64⟩)
  -- the publication of a pipe's head is no effect of R339: H_c stands for it
  | .pipeHead .. => []

/-- A held effect of an object: 80 bytes a piece. An effect that is in no class has class 0. -/
def heldBytes (c : Core) (h : Held) : List (List Byte) :=
  (heldParts h.eff).map (fun x =>
    leBytes 8 (x.pa % 2 ^ 48 + (if h.rgn = c.opn.id then 0 else 2 ^ 48) + (if h.cls < 16 then h.cls else 0) * 2 ^ 49 + (x.kind - 1) * 2 ^ 53) ++
    leBytes 8 x.mask ++ (x.data ++ List.replicate 64 0).take 64)

/-- What of a kind 3 copy has not arrived, granule by granule and row by row: granule, virtual address, size. A suspended copy keeps what
it has not translated to itself (R311, R368). -/
def Core.copyRest (c : Core) (x : CopySlot) : List (Nat × Nat × Nat) :=
  (c.empties.filter (fun e => e.2 = x.id)).flatMap (fun e => x.rows.filterMap (fun r =>
    let lo := max r.1 (64 * e.1)
    let va := r.2.1 + (lo - r.1)
    let n := min (r.1 + r.2.2) (64 * e.1 + 64) - lo
    let n := if x.susp.isNone then n else ((List.range n).filter (fun k => !x.todo.contains ((va + k) / 4096))).length
    if n = 0 then none else some (e.1, va, n)))

/-- The reissue records of core `n`, each a read that has not arrived: address, destination, size, class with copy slot. A VLDG has one for
each lane, a copy one for each piece of a granule. -/
def reissueBytes (n : Nat) (c : Core) : List (List Byte) :=
  c.awaits.flatMap (fun w => match w.kind with
    | .ldg d k _ => [words8 [((w.vas.head?).map (·.2)).getD 0, d, k, w.cls]]
    | .vldg d ty _ _ _ => (w.vas.filter (fun v => v.1 % 4 = 0)).map (fun v => words8 [v.2, 64 + d, tySize ty, w.cls])
    | _ => []) ++
  c.slots.flatMap (fun x => if x.2.kind = 3 then
    (c.copyRest x.2).map (fun r => words8 [r.2.1, memberOf n * 2 ^ 21 + 64 * r.1, r.2.2, x.2.cls + 2 ^ 8 * x.1]) else [])

/-- The rows of the accumulator store that an object keeps, with their owner: 0 committed, 1 open, 2 closing. -/
def usedRows (c : Core) : List (Nat × Nat) :=
  (saddAll [] (c.accOwn.map (·.1) ++ c.accUsed)).map (fun r =>
    (r, match mget c.accOwn r with | none => 0 | some q => if q = c.opn.id then 1 else 2))

/-- One row of the accumulator part: 528 bytes. -/
def rowBytes528 (c : Core) (r : Nat × Nat) : List Byte :=
  let bank (b : List (Nat × ACell)) : List Byte :=
    (List.range 65).flatMap (fun k => leBytes 4 ((mget b (r.1 * 65 + k)).getD {}).bits.toNat)
  leBytes 4 r.1 ++ leBytes 4 r.2 ++ bank c.accC ++ bank c.accP

/-- The granule bits: full, R and W of the open region, R and W of the closing one. -/
def granuleBytes (c : Core) : List Byte :=
  let q := c.closing.headD {}
  let b (p : Bool) (k : Nat) : Nat := if p then 2 ^ k else 0
  (List.range 32768).map (fun g => BitVec.ofNat 8 (b (!c.isEmpty g) 0 + b (c.opn.rset.contains g) 1 + b (c.opn.wset.contains g) 2 +
    b (q.rset.contains g) 3 + b (q.wset.contains g) 4))

/-- The live range of granules that options name (R367). -/
def liveRange (opts : Word) : Nat × Nat :=
  let k := bits opts.toNat 15 16
  if k = 0 then (0, 32768) else (bits opts.toNat 0 15, k)

/-- Places parts one after another, each at a multiple of 64. -/
def placeParts (at_ : Nat) : List (List Byte × Nat) → List Nat × List Byte
  | [] => ([], [])
  | (p, k) :: r =>
    let x := placeParts (at_ + roundUp p.length 64) r
    ((at_ + k * 2 ^ 32) :: x.1, pad64 p ++ x.2)

/-- The section of core `n` (R370). -/
def sectionBytes (n : Nat) (c : Core) (opts : Word) : List Byte :=
  let g := liveRange opts
  let i := c.step.getD {}
  let q := c.closing.headD {}
  let held := c.held.flatMap (heldBytes c)
  let re := reissueBytes n c
  let rows := usedRows c
  let parts : List (List Byte × Nat) :=
    [(liveBytes c, (c.flights.take 64).length), (snapBytes c.opn.snap, 1),
     (if c.closing.isEmpty then List.replicate 0x3600 0 else snapBytes q.snap, c.closing.length), (matrixBytes c, 1),
     (held.flatten, held.length), (re.flatten, re.length),
     ((List.range 16).flatMap (fun k => match mget c.slots k with
        | none => List.replicate 16 0
        | some x => words8 [1 + (if x.susp.isSome then 2 else 0), (x.susp.getD 0).toNat]), 16),
     ((List.range 8).flatMap (fun p => let x := c.arch.pipe p
        words8 [x.tail, x.serial.toNat, x.head, (c.hv.toList).getD p 0, (c.tv.toList).getD p 0]), 8),
     ((rows.map (rowBytes528 c)).flatten, rows.length), (granuleBytes c, 32768),
     (Memory.read c.spad (64 * g.1) (64 * g.2), g.2)]
  let pl := placeParts 256 parts
  let flags := i.closed + (if i.suppress.isSome then 2 ^ 60 else 0) + (if c.closing.isEmpty then 0 else 2 ^ 63) +
    (match c.doom with | none => 0 | some d => 2 ^ 61 + (if d.rgn = c.opn.id then 0 else 2 ^ 62))
  (words8 ([i.stepid.toNat, i.stp] ++ (List.range 6).map (fun k => i.idx.getD k 0) ++
    [c.stream, c.slip.toNat, c.streamRef, c.dtRef, flags, q.tC.getD 0, q.tL.getD 0, c.opn.rcnt, q.rcnt, g.1, g.2, i.role] ++ pl.1)
    ++ List.replicate 256 0).take 256 ++ pl.2

/-- ASCII text as bytes. -/
def asciiBytes (s : String) : List Byte := s.toList.map (fun ch => BitVec.ofNat 8 ch.toNat)

/-- The key K_c of R371. -/
def contKey : List Byte := shake256 (asciiBytes "RAMURI CONTINUATION TAG1" ++ Config.sealingSecret.toList) 32

/-- Bytes with 16 of them replaced from offset 0x1F0 on. -/
def withTag (o t : List Byte) : List Byte := o.take 0x1F0 ++ t ++ o.drop 0x200

/-- The tag of an object (R371). -/
def objTag (o : List Byte) : List Byte := (shake256 (contKey ++ withTag o (List.replicate 16 0)) 16)

/-- The bytes of an object, header and tag included (R369). -/
def objBytes (o : Obj) (opts : Word) (serial : Nat) : List Byte :=
  let secs := o.sections.map (fun x => sectionBytes x.cid x.core opts)
  let place := secs.foldl (fun (x : Nat × List Nat) b => (x.1 + b.length, x.2 ++ [x.1, b.length])) (512, [])
  let roles := (saddAll [] (o.sections.map (fun x => (x.core.step.getD {}).role))).length
  let head := words8 [0x31544E4F435F4E45,
      1 + (if o.midRegion then 2 ^ 8 else 0) + o.sections.length * 2 ^ 9 + roles * 2 ^ 12 + (if o.coupled then 2 ^ 15 else 0) +
        o.part * 2 ^ 16 + o.mapid * 2 ^ 21,
      place.1, o.lineage, o.gen, o.time, o.budget + o.estimate * 2 ^ 32, o.tor, serial, 0] ++
    o.measure ++ (words8 place.2 ++ List.replicate 64 0).take 64
  let b := (head ++ List.replicate 512 0).take 512 ++ secs.flatten
  withTag b (objTag b)

/-- Writes bytes across pages of a partition, 64 at a time, for `who`; the address that refuses and why, if one does. -/
def State.dieWriteAll (s : State) (who : Payer) (p : Nat) : Nat → Nat → List Byte → State × Option (Nat × DieErr)
  | 0, _, _ => (s, none)
  | fuel + 1, va, bs =>
    if bs.isEmpty then (s, none) else
    match s.dieWrite who p va (bs.take (64 - va % 64)) with
    | (s, some e) => (s, some (va, e))
    | (s, none) => s.dieWriteAll who p fuel (va + (64 - va % 64)) (bs.drop (64 - va % 64))

/-- Remembers an object by the tag of its bytes. -/
def State.keepObj (s : State) (o : Obj) (b : List Byte) : State := { s with objs := (leVal ((b.drop 0x1F0).take 16), o) :: s.objs }

/-- Writes an object and remembers it by its tag; what a failure reports. -/
def State.putObj (s : State) (who : Payer) (p va : Nat) (o : Obj) (b : List Byte) : State × Option Report :=
  match s.dieWriteAll who p (b.length / 64 + 2) va b with
  | (s, some (a, e)) => (s, some (s.errReport e a))
  | (s, none) => (s.keepObj o b, none)

/-! ### Lineages and the check (R372) -/

/-- The lineage with an identifier. -/
def State.lineage? (s : State) (l : Nat) : Option Lineage := s.lineages.find? (fun x => x.id = l)

/-- A new lineage. -/
def State.newLineage (s : State) (forked : Bool) : Nat × State :=
  let (id, s) := s.fresh
  let l : Lineage := ⟨id, 0, none, false, 0, forked⟩
  (id, { s with lineages := s.lineages ++ [l] })

/-- What the check of an object finds. -/
inductive Checked where
  | pass (tag : Nat) (o : Obj)
  | fail (cause : Nat)
  | trap (cause : Nat) (tval : Word)
  | bad (pa : Nat)
  | table (pa : Nat)

/-- TVAL of a translation that the control die made for a word. -/
def State.dieTval (s : State) (p va acc : Nat) : Word :=
  if 2 ^ 48 ≤ va then walkTval 3 0 acc va else
  match s.walk p va with
  | .fault r l => walkTval r l acc va
  | .leaf frame _ low _ level => match permBad frame low acc with
    | some r => walkTval r (if r = 7 then 0 else level) acc va
    | none => 0
  | .bad _ => 0

/-- The size that the header of the object at `a` gives, as far as it can be read (R369). -/
def State.objSize (s : State) (p a : Nat) : Nat :=
  match s.readVa p 0 a 512 with
  | .bytes h => max 512 (leVal ((h.drop 0x10).take 8) % 2 ^ 32)
  | _ => 512

/-- The check of R372 on the object at `a`, for an issuer of partition `p` whose decode table is `mapid`. -/
def State.checkObj (s : State) (p mapid a : Nat) : Checked :=
  let conv (r : DieRead) (f : List Byte → Checked) : Checked := match r with
    | .bytes l => f l
    | .fault cause va => .trap cause (s.dieTval p va 0)
    | .bad pa => .bad pa
    | .table pa => .table pa
  conv (s.readVa p 0 a 512) (fun h =>
    let w (o n : Nat) : Nat := leVal ((h.drop o).take n)
    let size := w 0x10 8
    if w 0 8 ≠ 0x31544E4F435F4E45 || bits (w 8 8) 0 8 ≠ 1 || size < 512 || size % 64 ≠ 0 then .fail 0x10
    else conv (s.readVa p 0 a size) (fun b =>
      let tag := leVal ((b.drop 0x1F0).take 16)
      if leBytes 16 tag ≠ objTag b || bits (w 8 8) 16 5 ≠ p || bits (w 8 8) 21 16 ≠ mapid then .fail 0x10
      else match mget s.objs tag, s.lineage? (w 0x18 8) with
      | some o, some l =>
        if o.gen = l.gen && !l.reserved then .pass tag o
        else if o.gen + 1 = l.gen && l.consumed = some a then .fail 0x0E
        else .fail 0x0F
      | none, _ => .fail 0x10
      | _, none => .fail 0x0F))

/-! ### Suspension (R366 to R368, R377, R378) -/

/-- What runs or falls together with core `n`, in the order of roles and members: its gang instance, its coupled quad, or itself (R336,
R337, R364). -/
def State.unitOf (s : State) (n : Nat) : List Nat :=
  let i := ((s.core n).step).getD {}
  let role (m : Nat) : Nat := (((s.core m).step).getD {}).role
  let before (a b : Nat) : Bool := role a < role b || (role a = role b && pcolOf a < pcolOf b)
  if i.gang then sortBy before (n :: s.instanceOf n) else s.gangOf n

/-- The cores that one suspension captures, in the order of an object's sections (R364, R368, R369). DESIGN CHOICE: log 42. In a coupled
gang it is one quad, since an object holds no more than four cores. -/
def State.groupOf (s : State) (n : Nat) : List Nat :=
  if (s.core n).coupled then s.gangOf n else s.unitOf n

/-- Suspends the group of core `n` at device time `f` into `addr`; the earliest of several suspensions applies (R367). -/
def State.suspendGroup (s : State) (n f addr : Nat) (opts : Word) (pool pfail : Bool) : State :=
  match (s.core n).step with
  | none => s
  | some i =>
    if s.groups.any (fun g => g.phase = 0 && g.cores.contains n && g.f ≤ f) then s
    else
      let (id, s) := s.fresh
      let rest := s.groups.filter (fun g => !(g.phase = 0 && g.cores.contains n))
      let cs := (s.groupOf n)
      let g : Group := { id := id, part := i.part, launch := i.launch, cores := cs, addr := addr, opts := opts, f := f,
                         phase := 0, pool := pool, pfail := pfail }
      { s with groups := rest ++ [g] }

/-- The suspension that a core is under. -/
def State.suspOf (s : State) (n : Nat) : Option Group := s.groups.find? (fun g => g.phase = 0 && g.cores.contains n)

/-- The next word is the first of its region and no region is closing (R368). -/
def Core.atBoundary (c : Core) : Bool := c.closing.isEmpty && c.pc = c.opn.pc && c.base = c.opn.base && !c.ended && !c.exact_

/-- The device cycle at which a core freezes for its suspension: its next issue cycle at or after F, or F itself while it waits;
with bnd, only at a region boundary (R368, R377). A core whose step has ended its last region freezes at F, without bnd: it issues no word
any more. -/
def Core.suspendAt (c : Core) (g : Group) : Option Nat :=
  if c.step.isNone || c.frozen || c.hand then none
  else if c.ended then (if g.opts.getLsbD 31 then none else some (max c.dt g.f))
  else
    let own := c.devAt (if c.exact_ then c.base else c.base + c.nextIdle)
    let last := match c.waiting with | some u => c.untilAt u | none => c.devAt (c.issueAt c.nextIdle)
    let t := max own g.f
    if g.opts.getLsbD 31 && !(c.atBoundary) then none
    else if t ≤ last then some t else none

/-- The stream cycle at which a member of a quad waits for a device time, or is in trap mode: the streams of the others stand there too (R129,
R215, R361). -/
def State.quadStop (s : State) (n : Nat) : Option Nat :=
  (s.gangOf n).findSome? (fun m => match (s.core m).trap with
    | some k => some k.f
    | none => if (s.core m).waiting.isSome then some (s.core m).stream else none)

/-- A core at device cycle `t`: its stream has run to there, unless it stands at `stop` (R377). -/
def Core.runTo (c : Core) (t : Nat) (stop : Option Nat) : Core :=
  let at_ := match stop with | some x => max c.stream x | none => c.stream + (t - c.dt)
  { c with stream := at_, dt := max c.dt t, slip := c.slip + BitVec.ofNat 64 ((t - c.dt) - (at_ - c.stream)) }

/-- Core `n` and the members of its coupled quad that are not in trap mode have run to device cycle `t`. -/
def State.runTo (s : State) (n t : Nat) : State :=
  let stop := s.quadStop n
  ((s.gangOf n).filter (fun m => !(s.core m).hand)).foldl (fun s m => s.updCore m (fun c => c.runTo t stop)) s

/-- Freezes a core and the members of its coupled quad for a suspension at device cycle `t` (R377). -/
def State.freezeFor (s : State) (n t : Nat) (g : Group) (boundary : Bool) : State :=
  let s := ((s.gangOf n).filter (fun m => !(s.core m).hand)).foldl (fun s m => s.updCore m (fun c => { c with frozen := true })) (s.runTo n t)
  let all := (s.gangOf n).all (fun m => (s.core m).atBoundary)
  { s with now := max s.now t
           groups := s.groups.map (fun x => if x.id = g.id then { x with boundary := x.boundary && boundary && all } else x) }

/-- SUSPEND_FREEZE (R368). -/
def execSuspendFreeze (core : Nat) (s : State) : Out :=
  match s.suspOf core with
  | none => .fault .noSuchEvent
  | some g => match (s.core core).suspendAt g with
    | none => .fault .noSuchEvent
    | some t => .next (s.freezeFor core t g (g.opts.getLsbD 31))

/-- SUSPEND_BOUNDARY_TIMEOUT (R368). A core in trap mode freezes when it resumes. -/
def execSuspendBoundaryTimeout (core : Nat) (s : State) : Out :=
  match s.suspOf core with
  | none => .fault .noSuchEvent
  | some g =>
    let c := s.core core
    if c.frozen || c.hand || c.step.isNone || !g.opts.getLsbD 31 then .fault .noSuchEvent
    else .next (s.freezeFor core (max c.dt (g.f + 65536)) g false)

/-- The other end of a pipe still runs the same step, in the role that the pipe leads to, of the same gang instance (R250, R379). -/
def State.peerHere (s : State) (r : Rel) : Bool :=
  match (s.core r.peer).step with
  | some i => i.launch = r.launch && i.inst = r.inst && i.stp = r.stp && i.role = r.prole && i.fork = r.fork
  | none => false

/-- Everything that a frozen group waits for has come (R368). The model also waits until every effect that its cores released has
performed. -/
def State.objectReady (s : State) (g : Group) : Bool :=
  let cs := g.cores.filter (fun n => (s.core n).step.isSome)
  cs.all (fun n => let c := s.core n
    c.frozen && !s.rels.any (fun r => r.core = n) &&
    !c.awaits.any (fun w => match w.kind with
      | .atom _ => w.rgn != c.opn.id && !c.closing.any (fun q => q.id = w.rgn)
      | _ => false)) &&
  !s.rels.any (fun r => match r.eff with
    | .window n _ _ => s.windows.any (fun w => w.isOpen && w.bulkhead = bulkheadOf r.core && w.n = n && cs.contains w.tcore &&
        r.at_ ≤ (s.core w.tcore).dt)
    | .pipeRec .. => cs.contains r.peer && s.peerHere r
    | .pipeHead .. => cs.contains r.peer && s.peerHere r
    | _ => false)

/-- Windows into the cores of a captured group accept nothing until the group, of lineage `l`, is resumed (R368). -/
def State.pauseWindows (s : State) (cs : List Nat) (l : Nat) : State :=
  { s with windows := s.windows.map (fun w => if w.isOpen && cs.contains w.tcore then { w with paused := some l } else w) }

/-- The group of lineage `l` is resumed, or will never be: windows accept blocks again (R368). -/
def State.openWindows (s : State) (l : Nat) : State :=
  { s with windows := s.windows.map (fun w => if w.paused = some l then { w with paused := none } else w) }

/-- The cores of a captured group are free: their steps are suspended (R368). -/
def State.freeCaptured (s : State) (g : Group) (cs : List Nat) (forked : Bool) : State :=
  let s := cs.foldl (fun s n => (s.emptyWindows n).updCore n Core.vacate) s
  let s := { s with
    groups := (s.groups.filter (fun x => x.id != g.id)).map (fun x => { x with cores := x.cores.filter (fun n => !cs.contains n) })
    reads := s.reads.filter (fun r => !cs.contains r.core)
    walks := s.walks.map (fun (w : Walk) => if cs.contains w.core then { w with gone := true } else w)
    orders := s.orders.filter (fun o => !cs.contains o.core) }
  if forked then s else s.updLaunch g.launch (fun l =>
    { l with running := l.running.filter (fun x => !cs.contains x.1), suspended := l.suspended + cs.length })

/-- Adds an entry to the manifest that PFAIL is writing: the newer bank (R422). -/
def State.addManifest (s : State) (e : Nat × Nat × Nat × Nat) : State :=
  let add (m : Manifest) : Manifest := { m with entries := m.entries ++ [e] }
  let (a, b) := s.banks
  { s with banks := if a.seq < b.seq then (a, add b) else (add a, b) }

/-- What of a core's scratchpad its object keeps: bytes outside the live range are zero and full once it is restored (R373). -/
def Core.liveOnly (c : Core) (opts : Word) : Core :=
  let r := liveRange opts
  let live (a : Nat) : Bool := 64 * r.1 ≤ a && a < 64 * (r.1 + r.2)
  { c with spad := c.spad.filter (fun b => live b.1), ue := c.ue.filter (fun w => live (8 * w)), ce := c.ce.filter (fun w => live (8 * w))
           empties := c.empties.filter (fun e => live (64 * e.1)) }

/-- OBJECT_WRITE (R368 to R372): the object of a settled group is written and its cores are freed. -/
def execObjectWrite (group : Nat) (s : State) : Out :=
  match s.groups.find? (fun g => g.id = group && g.phase = 0) with
  | none => .fault .noSuchEvent
  | some g =>
    let cs := g.cores.filter (fun n => (s.core n).step.isSome)
    if cs.isEmpty || !s.objectReady g then .fault .noSuchEvent
    else
      let i := ((s.core (cs.headD 0)).step).getD {}
      let x : Nat × State := match i.lineage with
        | some l => (l, s)
        | none => s.newLineage false
      let s := x.2
      let gen := match s.lineage? x.1 with | some l => l.gen | none => 0
      let time := cs.foldl (fun t n => max t (s.core n).dt) 0
      let launch := s.launch? i.launch
      let r := liveRange g.opts
      let bad := cs.findSome? (fun n => ((s.core n).ue.find? (fun w => r.1 ≤ w / 8 && w / 8 < r.1 + r.2)).map (fun w => (n, w)))
      let secs := cs.map (fun n => (⟨s.core n, n, s.orders.filter (fun o => o.core = n)⟩ : Section))
      let o : Obj :=
        { lineage := x.1, gen := gen, midRegion := !(g.boundary && cs.all (fun n => (s.core n).held.isEmpty)),
          coupled := i.coupled, part := i.part, mapid := i.dtab.mapid, time := time, budget := i.dline - time,
          estimate := i.estimate time, launch := i.launch, tor := i.trp, forked := i.forked, sections := secs,
          image := Memory.read (s.core (cs.headD 0)).spad i.codebase i.codelen,
          measure := shake256 (Memory.read (s.core (cs.headD 0)).spad i.codebase i.codelen) 64 }
      let b := objBytes o g.opts (match launch with | some l => l.serial | none => 0)
      let o : Obj := { o with sections := secs.map (fun x => { x with core := x.core.liveOnly g.opts }) }
      match bad with
      | some (n, w) => .next ({ s with groups := s.groups.filter (fun x => x.id != g.id) }.endGroup cs
          { cls := 0x20, engine := 4, level := 3, addrk := 3, addr := 8 * w, core := n })
      | none =>
        match (if g.pfail then ((s.diePut (hostPa g.addr) b).keepObj o b, none) else s.putObj (launchPayer g.launch) g.part g.addr o b) with
        | (s, some r) => .next ({ s with groups := s.groups.filter (fun x => x.id != g.id) }.endGroup cs r)
        | (s, none) =>
          let s := (s.freeCaptured g cs i.forked).pauseWindows cs x.1
          let s := if g.pfail then s.addManifest (g.part, x.1, gen, g.addr) else s
          let back : Group := { g with phase := 1, tag := leVal ((b.drop 0x1F0).take 16), cores := [] }
          .next (if g.pool then { s with groups := s.groups ++ [back] } else s)

end Sys2Proof.Machine
end

