-- ==== Sys2Proof/Machine/Conts.lean ====
section
/-! DEFINITION. SUSPEND, RESUME, FORK and DISCARD, what their release does, and the restart of a group (R367, R372 to R376,
R379). -/
namespace Sys2Proof.Machine

/-- The operands a and b of an SR-form word. -/
def srOps (c : Core) (cx : Ctx) (w : SRWord) : Nat × Nat × Word × Word :=
  let ka := rotS cx (w.z == 1) w.a.toNat
  let kb := rotS cx (w.z == 1) w.b.toNat
  (ka, kb, (readS c cx ka).1, (readS c cx kb).1)

/-- SUSPEND (R367), once the port of its bulkhead admits it (R395). -/
def execSuspend (w : SRWord) (s : State) : Out :=
  issueWord (hdSR (.suspend w) w none) noPre
    (fun cx => refS (rotS cx (w.z == 1) w.a.toNat) ++ refS (rotS cx (w.z == 1) w.b.toNat))
    (fun cx s =>
      let n := s.cur
      let c := s.core n
      let (ka, kb, a, b) := srOps c cx w
      match psnTrap c cx [ka, kb] with
      | some r => r
      | none =>
        if a.toNat % 4096 ≠ 0 then .trap 0x05 a
        else if b.toNat / 2 ^ 32 ≠ 0 || 32768 < bits b.toNat 0 15 + bits b.toNat 15 16 then .trap 0x02 (c.fieldTval 1)
        else match s.translateAll n [(a.toNat, 1)] with
        | .inl r => r
        | .inr _ =>
          if cx.dt < s.portAt n then .freeze s else
          .ok ((s.usePort n cx.dt).suspendGroup n (cx.dt + 64) a.toNat b false false) (.seq 0)) s

/-- Core `n` asks the control die for the check of an object and waits for its answer, which comes 60 device cycles or more later (R373,
R381). DESIGN CHOICE: log 5. -/
def State.askCheck (s : State) (n dt : Nat) : State :=
  ({ s with free := s.free + 1 }).updCore n (fun c =>
    { c with until? := some { time := dt + 60 + Config.askSlack s.free, realign := false, check := true } })

/-- The control die has answered the check that the core's word asked for. -/
def Core.answered (c : Core) : Bool := match c.until? with | some u => u.check && u.past | none => false

/-- The common part of RESUME, FORK and DISCARD: `vas` are translated, the core waits for the control die's answer, the object at a is
checked, and `eff` is what a passing check holds (R373 to R376). -/
def contBody (useB : Bool) (alignB : Nat) (vas : Word → Word → List (Nat × Nat)) (w : SRWord) (mark : Bool) (fork : Bool)
    (eff : Word → Word → Nat → HeldEff) (cx : Ctx) (s : State) : WRes :=
  let n := s.cur
  let c := s.core n
  let (ka, kb, a, b) := srOps c cx w
  let i := c.step.getD {}
  match psnTrap c cx (if useB then [ka, kb] else [ka]) with
  | some r => r
  | none =>
    if a.toNat % 4096 ≠ 0 then .trap 0x05 a
    else if useB && b.toNat % alignB ≠ 0 then .trap 0x05 b
    else if c.muted then .ok (s.hold n s.nextId 16 (eff a b 0)) (.seq 0)
    else match s.translateAll n (vas a b) with
    | .inl r => r
    | .inr _ =>
      if !c.answered then (if cx.dt < s.portAt n then .freeze s else .fin ((s.usePort n cx.dt).askCheck n cx.dt))
      else
      let r := s.checkObj i.part i.dtab.mapid a.toNat
      let s := s.readLeaves (s.payer n) i.part 0 a.toNat (s.objSize i.part a.toNat)
      match r with
      | .trap cause tval => .fin (s.trap n 0 cause tval)
      | .fail cause => .fin (s.trap n 0 cause a)
      | .table pa => .fin (s.tableLoss n pa)
      | .bad pa => .fin ((s.memBad (s.payer n) (pa / 8)).trap n 0 0x10 a)
      | .pass tag o =>
        if fork && o.midRegion then .fin (s.trap n 0 0x11 a)
        else
          let s := if mark then s.updLineage o.lineage (fun l => { l with reserved := true }) else s
          .ok (s.hold n s.nextId 16 (eff a b tag)) (.seq 0)

/-- RESUME (R373). -/
def execResume (w : SRWord) (s : State) : Out :=
  issueWord (hdSR (.resume w) w none) noPre
    (fun cx => refS (rotS cx (w.z == 1) w.a.toNat) ++ refS (rotS cx (w.z == 1) w.b.toNat))
    (contBody true 8 (fun a _ => [(a.toNat, 0)]) w true false (fun a b t => .resume a b t)) s

/-- FORK (R374). -/
def execFork (w : SRWord) (s : State) : Out :=
  issueWord (hdSR (.fork w) w none) noPre
    (fun cx => refS (rotS cx (w.z == 1) w.a.toNat) ++ refS (rotS cx (w.z == 1) w.b.toNat))
    (contBody true 4096 (fun a b => [(a.toNat, 0), (b.toNat, 1)]) w false true (fun a b t => .fork a b t)) s

/-- DISCARD (R375). -/
def execDiscard (w : SRWord) (s : State) : Out :=
  issueWord (hdSR (.discard w) w none) noPre (fun cx => refS (rotS cx (w.z == 1) w.a.toNat))
    (contBody false 1 (fun a _ => [(a.toNat, 0)]) w true false (fun a _ t => .discard a t)) s

/-! ### At release (R372 to R375) -/

/-- Consumes the generation of an object at `a` (R372). -/
def State.consume (s : State) (o : Obj) (a : Nat) : State :=
  s.updLineage o.lineage (fun l => { l with gen := l.gen + 1, consumed := some a, reserved := false })

/-- A group of the pool whose object a program consumes is not restarted from it any more (R372, R378). -/
def State.dropPool (s : State) (tag : Nat) : State := { s with groups := s.groups.filter (fun g => !(g.pool && g.phase = 1 && g.tag = tag)) }

/-- A RESUME is released: the generation is consumed and the group waits for its rectangle. -/
def State.startObj (s : State) (a tag : Nat) (status : Option (Nat × Nat × Nat)) (byHost : Option (Nat × Nat × Word × Bool)) : State :=
  match mget s.objs tag with
  | none => s
  | some o =>
    let s := (s.consume o a).dropPool tag
    let (id, s) := s.fresh
    let g : Group := { id := id, part := o.part, launch := o.launch, cores := [], addr := a, opts := 0, f := s.now + 60, phase := 1,
                       tag := tag, status := status, byHost := byHost }
    { s with groups := s.groups ++ [g] }

/-- A FORK is released: the object is copied to `b` under a new lineage, generation 0 and a new tag; the lineage, or what keeps the copy from
being read or written (R374): then no lineage is recorded. -/
def State.forkObj (s : State) (who : Payer) (part a b tag : Nat) : (Nat ⊕ Report) × State :=
  match mget s.objs tag with
  | none => (.inr (launchReport 0x10 0x10 1 a), s)
  | some o =>
    let (rd, s) := s.fetchVa who part 0 a (s.objSize part a)
    match s.failedRead rd with
    | some r => (.inr r, s)
    | none =>
      let src := rd.data
      let (l, s1) := s.newLineage true
      let new := src.take 0x18 ++ words8 [l, 0] ++ src.drop 0x28
      let new := withTag new (objTag new)
      let o2 : Obj := { o with lineage := l, gen := 0, forked := true }
      (match s1.putObj who part b o2 new with
       | (s2, none) => (.inl l, s2)
       | (s2, some r) => (.inr r, { s2 with lineages := s.lineages }))

/-- The suspended steps of an object, of the TOR's launch, end with a report. -/
def State.dropSections (s : State) (o : Obj) (r : Report) : State :=
  s.updLaunch o.launch (fun l => o.sections.foldl (fun l x =>
    let i := x.core.step.getD {}
    { l with report := l.report.worse { r with step := i.stp, time := s.now, core := x.cid }, ncorr := l.ncorr + x.core.cerr
             nreplay := l.nreplay + i.replays }) { l with suspended := l.suspended - o.sections.length, endAt := max l.endAt (s.now + 60) })

/-- A DISCARD is released: the generation is consumed, and unless the lineage comes from a fork, the object's steps end KILLED in
their launch (R375), whose counts keep what they have corrected and replayed. -/
def State.discardObj (s : State) (a tag : Nat) : State :=
  match mget s.objs tag with
  | none => s
  | some o =>
    let s := ((s.consume o a).dropPool tag).openWindows o.lineage
    if o.forked then s else s.dropSections o { cls := 0x12, engine := 15, level := 3 }

/-! ### The end of a resumed group (R373, R376) -/

/-- What a resumed group, or one that could not start, reports. -/
def State.finishGroup (s : State) (g : Group) (r : Report) (steps : Nat) : State :=
  let s := { s with groups := s.groups.filter (fun x => x.id != g.id) }
  let s := match g.status with
    | some (launch, step, b) => s.statusWord g.part launch step b (statusVal r steps)
    | none => s
  match g.byHost with
  | some (q, serial, tag, quiet) => s.complete q serial tag quiet 4 steps 0 (errorBlock r 0 0 0 0)
  | none => s

/-! ### GROUP_RESTART (R373, R379) -/

/-- The cores of a partition (R394). -/
def Partition.has (p : Partition) (n : Nat) : Bool :=
  p.brow ≤ rowOf n / 2 && rowOf n / 2 < p.brow + p.bheight && p.bcol ≤ pcolOf n / 4 && pcolOf n / 4 < p.bcol + p.bwidth

/-- One-row rectangles of `k` cores, in the order of rows and columns; a coupled one is a whole quad. -/
def rowPlaces (k : Nat) (coupled : Bool) : List (List Nat) :=
  (List.range 8).flatMap (fun row => (List.range (33 - k)).filterMap (fun col =>
    if coupled && col % 4 ≠ 0 then none else some ((List.range k).map (fun j => coreAt row (col + j)))))

/-- The cores that a group's object takes: the first free place; or none that the partition could ever give. -/
def State.groupPlace (s : State) (o : Obj) : Option (List Nat) ⊕ Unit :=
  match s.part? o.part with
  | none => .inr ()
  | some p =>
    let ps := (rowPlaces o.sections.length o.coupled).filter (fun l => l.all p.has)
    let fit := ps.filter (fun l => l.all s.inService)
    if fit.isEmpty then .inr () else .inl (fit.find? (fun l => l.all (s.freeCore o.launch)))

/-- Reads of core `n` that a continuation object records are sent again: `vas` by index, for the arrival or copy `tag` (R368). A byte that no
longer translates is uncorrectable; an uncorrectable table entry ends the step (R434). The answer is what is known of them at once. -/
def State.reissue (s : State) (n part op cls tag fill : Nat) (vas : List (Nat × Nat)) : List (Nat × Byte × Bool) × State :=
  let rs := vas.map (fun v => (v.1, s.dieTrans part v.2 0))
  let bad := rs.filterMap (fun r => match r.2 with | .inl _ => none | .inr _ => some (r.1, (0 : Byte), true))
  let s := vas.foldl (fun s v => s.fixPath (s.payer n) (s.walkPath (fun _ => none) part v.2)) s
  match rs.findSome? (fun r => match r.2 with | .inr (.table pa) => some pa | _ => none) with
  | some pa => ([], s.tableLoss n pa)
  | none =>
    let r := s.gRead n op cls tag fill false (rs.filterMap (fun r => match r.2 with | .inl p => some (r.1, p.1) | .inr _ => none))
    (bad ++ r.1, r.2)

/-- A read that has not arrived is made again (R368). -/
def State.reissueAwait (s : State) (n part : Nat) (w : Await) : State :=
  let r := s.reissue n part w.id w.cls w.id w.fill w.vas
  r.2.updCore n (fun c => { c with awaits := c.awaits.map (fun x => if x.id = w.id then { x with bytes := r.1 } else x) })

/-- The reads of a suspended kind 3 copy that had been sent and have not arrived are made again (R311, R368). -/
def State.reissueSlot (s : State) (n part k : Nat) (x : CopySlot) : State :=
  let c := s.core n
  let miss := x.bytes.filter (fun b => mget c.empties (b.2.1 / 64) = some x.id && !x.todo.contains (b.2.2 / 4096) && !x.got.any (fun z => z.1 = b.1))
  let r := s.reissue n part x.op x.cls x.id 0 (miss.map (fun b => (b.1, b.2.2)))
  r.2.updCore n (fun c => { c with slots := c.slots.map (fun y => if y.1 = k then (k, { y.2 with got := y.2.got ++ r.1 }) else y) })

/-- A kind 3 copy after a restart: the blocks of what has not arrived are translated and read again; a suspended one stays so (R368). -/
def Core.copyAgain (c : Core) (x : CopySlot) : CopySlot :=
  if x.kind = 3 && x.susp.isNone then
    { x with got := [], todo := saddAll x.todo ((x.bytes.filter (fun b => mget c.empties (b.2.1 / 64) = some x.id)).map (fun b => b.2.2 / 4096)) }
  else x

/-- One section is restored on core `n` at device time `t` (R370, R373). -/
def State.restoreSection (s : State) (g : Group) (o : Obj) (x : Section) (n t : Nat) : State :=
  let c := x.core
  let i := c.step.getD {}
  let ages := c.flights.map (fun f => c.stream - f.issue)
  let dt := t + 64 + 8 * c.flights.length + ages.foldl max 0
  let i := { i with dline := t + o.budget, est := o.estimate, estAt := t, resumed := t, group := some g.id, forked := o.forked,
                    lineage := some o.lineage }
  let inCodeR (a : Nat) : Bool := i.codebase ≤ a && a < i.codebase + i.codelen
  let spad := Memory.write (c.spad.filter (fun b => !inCodeR b.1)) i.codebase o.image
  let slots := c.slots.map (fun y => (y.1, c.copyAgain y.2))
  let old := s.core n
  let c := { c with step := some i, dt := dt, slip := c.slip + BitVec.ofNat 64 (dt - c.dt), frozen := false, spad := spad, slots := slots, l1 := [], tlb := old.tlb
                    until? := c.until?.filter (fun u => !u.check),
                    asked := [], heavy := [], walkFaults := [] }
  let s := s.setCore n c
  let s := { s with orders := s.orders ++ x.orders.map (fun y => { y with core := n }) }
  let s := c.awaits.foldl (fun s w => match w.kind with
    | .ldg .. => s.reissueAwait n o.part w
    | .vldg .. => s.reissueAwait n o.part w
    | _ => s) s
  c.slots.foldl (fun s y => if y.2.kind = 3 && y.2.susp.isSome then s.reissueSlot n o.part y.1 y.2 else s) s

/-- The pipes between the step of core `n` and the other members of its gang instance that run the same step number are bound to the cores
on which they run now (R379). -/
def State.rebind (s : State) (n : Nat) : State :=
  match (s.core n).step with
  | none => s
  | some i =>
    let mates := (s.instanceOf n).filterMap (fun m => (s.core m).step.bind (fun j => if j.stp = i.stp then some (m, j.role) else none))
    let s := s.updCore n (fun c => { c with step := c.step.map (fun j => { j with pipes := j.pipes.map (fun p =>
      match mates.find? (fun x => x.2 = if p.prod = i.role then p.cons else p.prod) with | some x => { p with peer := x.1 } | none => p) }) })
    mates.foldl (fun s x => s.updCore x.1 (fun c => { c with step := c.step.map (fun j => { j with pipes := j.pipes.map (fun p =>
      if (if p.prod = j.role then p.cons else p.prod) = i.role then { p with peer := n } else p) }) })) s

/-- An image and a record match an entry of a manifest (R418). -/
def manifestOk (m code tor : List Byte) : Bool :=
  (List.range (m.length / 64)).any (fun k =>
    (m.drop (64 * k)).take 64 = shake256 code 32 ++ shake256 (tor.take 0x20 ++ (tor.drop 0x90).take 0x70) 32)

/-- What the check of R372 finds that the control die makes of the object of a group of its pool before it resumes the group: what is wrong with
it, if anything (R366, R373). -/
def State.poolCheck (s : State) (g : Group) (o : Obj) : Option Report :=
  if !g.pool then none else
  match s.checkObj o.part o.mapid g.addr with
  | .pass tag _ => if tag = g.tag then none else some (launchReport 0x10 0x10 1 g.addr)
  | .fail cause => some (launchReport 0x10 cause 1 g.addr)
  | .trap cause _ => some (launchReport 0x10 cause 1 g.addr)
  | .bad pa => some (launchReport 0x20 0 2 pa)
  | .table pa => some (s.errReport (.table pa) g.addr)

/-- The standing grants exceed the package's capacity or the allowances a partition's limit (R322, R424). -/
def State.overLeave (s : State) (p : Nat) : Bool :=
  s.capacity < s.granted s.now || (s.part? p).any (fun x => x.params.leaveLimit < s.partLeave p)

/-- GROUP_RESTART (R322, R366, R372, R373, R379). A group waits while its cores, or the leave of their grants, are not free, and one of the pool
while a program's RESUME or DISCARD of it is held (log 42). -/
def execGroupRestart (group : Nat) (s : State) : Out :=
  match s.groups.find? (fun g => g.id = group && g.phase = 1) with
  | none => .fault .noSuchEvent
  | some g => match mget s.objs g.tag with
    | none => .fault .noSuchEvent
    | some o =>
      let end_ (s : State) (r : Report) : Out := .next ((if o.forked then s else s.dropSections o r).finishGroup g { r with time := s.now } 0)
      if g.pool && (s.lineage? o.lineage).any (·.reserved) then .fault .noSuchEvent
      else match s.groupPlace o with
      | .inr _ => end_ s (launchReport 0x13 0 0 0)
      | .inl none => .fault .noSuchEvent
      | .inl (some cs) =>
        let found := s.poolCheck g o
        let s := if g.pool then s.readLeaves (launchPayer o.launch) o.part 0 g.addr (s.objSize o.part g.addr) else s
        match found with
        | some r => end_ s r
        | none =>
        -- the code image is read from the TOR as R244 states and compared with the measurement
        let who : Payer := launchPayer o.launch
        let (rd, s) := s.fetchVa who o.part 0 o.tor 256
        let v := leVal ((rd.data.drop 8).take 8)
        let (rc, s) := s.fetchVa who o.part 3 (bits v 0 48) (64 * bits v 48 13)
        match (s.failedRead rd).orElse (fun _ => s.failedRead rc) with
        | some r => end_ s r
        | none =>
          let locked := match (s.part? o.part).bind (·.locked) with
            | some m => !manifestOk m rc.data rd.data
            | none => false
          if locked then end_ s (launchReport 0x30 0 1 g.addr)
          else if shake256 rc.data 64 ≠ o.measure then end_ s (launchReport 0x10 0x10 1 g.addr)
          else
            let old := s
            let t := s.now
            let s := if g.pool then s.consume o g.addr else s
            let s := (o.sections.zip cs).foldl (fun s x => s.restoreSection g o x.1 x.2 t) s
            let s := cs.foldl State.rebind s
            let s := (s.alignQuad (cs.headD 0)).openWindows o.lineage
            let s := { s with groups := s.groups.map (fun x => if x.id = g.id then { x with phase := 2, cores := cs } else x) }
            let s := if o.forked then s else s.updLaunch o.launch (fun l =>
              { l with suspended := l.suspended - cs.length
                       running := l.running ++ (o.sections.zip cs).map (fun x => (x.2, (x.1.core.step.getD {}).stp)) })
            if s.overLeave o.part then (if old.granted old.now = 0 then end_ old (launchReport 0x13 0 0 0) else .fault .noSuchEvent)
            else .next s

end Sys2Proof.Machine
end

