-- ==== Sys2Proof/Machine/Increments.lean ====
section
/-! DEFINITION. The mapped pages of a partition, increments and their sealing (R416, R417, R420, R423). -/
namespace Sys2Proof.Machine

/-- A mapped page: virtual address, frame, size, low bits of the leaf, address of the leaf. -/
structure PageMap where
  va : Nat
  frame : Nat
  size : Nat
  low : BitVec 12
  entry : Nat
  deriving DecidableEq, Repr

/-- The bytes of addresses that an entry of level `k` covers (R268). -/
def entrySpan (k : Nat) : Nat := if k = 0 then 0x10000 else if k = 1 then 0x200000 else if k = 2 then 0x40000000 else 0x8000000000

/-- The pages that entry `i` of the table at `tab` of level `k` maps, for the addresses from `va` on; `next` gives those of a table below
(R268 to R270). -/
def State.pagesAt (s : State) (k tab va i : Nat) (next : Nat → Nat → List PageMap) : List PageMap :=
  let ea := tab + 8 * i
  let e := Memory.val s.mem ea 8
  let a := va + i * entrySpan k
  let frame := bits e 12 36 * 2 ^ 12
  if e % 2 = 0 || entryBad e k then []
  else if bits e 1 3 ≠ 0 then
    if s.presentOk false frame (pageSize k) then [⟨a, frame, pageSize k, BitVec.ofNat 12 e, ea⟩] else []
  else if !s.presentOk true frame 4096 then [] else next frame a

/-- The pages that a table of level `k` at `tab` maps, for the addresses from `va` on (R268 to R270). -/
def State.pagesFrom (s : State) : Nat → Nat → Nat → List PageMap
  | 0, tab, va => (List.range 32).flatMap (fun i => s.pagesAt 0 tab va i (fun _ _ => []))
  | k + 1, tab, va => (List.range 512).flatMap (fun i => s.pagesAt (k + 1) tab va i (s.pagesFrom k))

/-- The mapped pages of a partition. -/
def State.pages (s : State) (p : Nat) : List PageMap :=
  match (s.part? p).bind (·.root) with
  | some r => s.pagesFrom 3 r 0
  | none => []

/-- The descriptor of an entry of an increment (R417). -/
def pageDesc (va pa size : Nat) : List Byte := (words8 [va, pa, size] ++ List.replicate 64 0).take 64

/-- The header of an increment (R417). -/
def incHeader (k part b count : Nat) (crc : Word) : List Byte :=
  (words8 [0x31434E495F4E4553, k, part, b, count, crc.toNat] ++ List.replicate 64 0).take 64

/-- What the copying of a page into an increment leaves: its single-bit errors are corrected and counted, and uncorrectable words are logged
(R267, R349). -/
def State.pageFix (s : State) (pa size : Nat) : State :=
  (wordsIn s.memUe pa size).foldl (fun s w => s.memBad none w) (s.memFix none pa size)

/-- A full increment of a partition's mapped memory (R267, R417, R423); pages of the host window are left out as R416 leaves them out. -/
def State.fullIncrement (s : State) (p b : Nat) : List Byte × State :=
  let ps := (s.pages p).filter (fun x => windowOf x.frame != 4)
  let body := ps.flatMap (fun x => pageDesc x.va x.frame x.size ++ Memory.read s.mem x.frame x.size)
  (incHeader 0 p b ps.length (crc64 0 body) ++ body, ps.foldl (fun s x => s.pageFix x.frame x.size) s)

/-- The key of a sealed image: of this device, or for a peer with the given public key (R420). -/
def sealKey (peer : Option (List Byte)) (m : List Byte) (l c : Nat) : List Byte :=
  let secret := match peer with
    | none => Config.sealingSecret.toList
    | some k => Config.x448Shared k
  shake256 (secret ++ m ++ words8 [l, c]) 32

/-- The 96-bit nonce of a sealed image (R420). -/
def sealNonce (c : Nat) : List Byte := leBytes 8 c ++ [0, 0, 0, 0]

/-- The image `h ++ rest` sealed under lineage `l` with counter `c` for measurement `m`, for this device or a named peer (R420). -/
def sealImage (peer : Option (List Byte)) (m : List Byte) (l c : Nat) (h rest : List Byte) : List Byte :=
  let clear := words8 [l, c]
  clear ++ h ++ Config.gcmSeal (sealKey peer m l c) (sealNonce c) (clear ++ h) rest

/-- An image with a header of `k` bytes sealed under lineage `l` for a partition of measurement `m`: the seal counter goes up first (R420). -/
def State.seal (s : State) (peer : Option (List Byte)) (m : List Byte) (l k : Nat) (image : List Byte) : List Byte × State :=
  let c := (match s.lineage? l with | some x => x.sealCtr | none => 0) + 1
  (sealImage peer m l c (image.take k) (image.drop k), s.updLineage l (fun x => { x with sealCtr := c }))

/-- A continuation object, whose bytes are `b`, sealed under its own lineage for a partition of measurement `m` (R420); no row of the opcode
table orders it (log 37). -/
def State.sealObject (s : State) (peer : Option (List Byte)) (m : List Byte) (b : List Byte) : List Byte × State :=
  s.seal peer m (leVal ((b.drop 0x18).take 8)) 512 b

/-- The restore of a sealed image on a device whose partition has measurement `m` (R420): the image in clear, or class SECURITY. The report of
the sealing peer must be verified; an image older than the recorded counter of its lineage is refused, a lineage not recorded is accepted and
recorded. No row of the opcode table orders it (log 37). -/
def State.restoreImage (s : State) (m : List Byte) (verified : Bool) (peer : Option (List Byte)) (image : List Byte) :
    State × Nat × List Byte :=
  let l := leVal (image.take 8)
  let c := leVal ((image.drop 8).take 8)
  let header := if leVal ((image.drop 16).take 8) = 0x31434E495F4E4553 then 64 else 512
  let h := (image.drop 16).take header
  let known := s.lineage? l
  if !verified || (match known with | some x => decide (c < x.sealCtr) | none => false) then (s, 0x30, [])
  else match Config.gcmOpen (sealKey peer m l c) (sealNonce c) (image.take (16 + header)) (image.drop (16 + header)) with
    | none => (s, 0x30, [])
    | some b =>
      let s := if known.isSome then s else { s with lineages := s.lineages ++ [⟨l, 0, none, false, 0, false⟩] }
      (s.updLineage l (fun x => { x with sealCtr := c }), 0, h ++ b)

/-- A partition in capture mode seals a full increment at a launch that it accepts (R420, R423). -/
def State.captureLaunch (s : State) (p : Nat) : State :=
  match s.part? p with
  | none => s
  | some x =>
    if x.capture.isNone then s else
    let b := s.fullIncrement p s.now
    let i := b.2.seal none x.measure x.ckptLineage 64 b.1
    { i.2 with images := s.images ++ [(p, i.1)] }

/-- Clears bits of a page-table entry. -/
def State.clearEntry (s : State) (ea bit : Nat) : State :=
  let b := Memory.get s.mem (ea + bit / 8)
  { s with mem := Memory.set s.mem (ea + bit / 8) (b &&& ~~~(BitVec.ofNat 8 (2 ^ (bit % 8)))) }

/-- Removes the translations of a partition that satisfy `p` from every TLB (R275). -/
def State.flushTlbs (s : State) (part : Nat) (p : TlbEnt → Bool) : State :=
  let keep (e : TlbEnt) : Bool := !(e.part = part && p e)
  { s with quadTlb := s.quadTlb.filter (fun x => keep x.2)
           cores := s.cores.map (fun (x : Nat × Core) => (x.1, { x.2 with tlb := x.2.tlb.filter keep })) }

/-- The held writes of a partition's steps find their pages clean again, as the translations are that went (R272, R416). DEDUCED: log 27. -/
def State.forgetDirty (s : State) (part : Nat) : State :=
  { s with cores := s.cores.map (fun (x : Nat × Core) => (x.1, if x.2.step.any (fun i => i.part = part) then
      { x.2 with held := x.2.held.map (fun (h : Held) => { h with pages := h.pages.map (fun p => { p with dirty := false }) }) } else x.2)) }

/-- Marks the dirty pages of a partition for a checkpoint and opens it (R416, steps 1 to 3); pages that were marked already are copied too. -/
def State.beginCkpt (s : State) (part queue serial : Nat) (tag : Word) (quiet : Bool) (area size k : Nat) : State :=
  let ps := (s.pages part).filter (fun x => (x.low.getLsbD 5 || x.low.getLsbD 6) && windowOf x.frame != 4)
  let s := ps.foldl (fun s x => (s.orEntry x.entry 6).clearEntry x.entry 5) s
  let s := (s.flushTlbs part (fun _ => true)).forgetDirty part
  let c : Ckpt := { part := part, queue := queue, serial := serial, tag := tag, quiet := quiet, area := area, size := size, k := k,
                    b := s.now, pages := ps.map (fun x => (x.va, x.frame, x.size, x.entry)), len := 0, crc := 0, count := 0 }
  { s with ckpts := s.ckpts ++ [c] }

/-- A checkpoint is over: its header is written or its marks are cleared, and its record completes (R416, R417). -/
def State.endCkpt (s : State) (c : Ckpt) (ok : Bool) : State :=
  let s := { s with ckpts := s.ckpts.filter (fun x => x.queue != c.queue || x.serial != c.serial) }
  let s := c.pages.foldl (fun s p => s.clearEntry p.2.2.2 6) s
  let s := if ok then s.diePut (hostPa c.area) (incHeader c.k c.part c.b c.count c.crc) else s
  s.complete c.queue c.serial c.tag c.quiet 7 0 0
    (errorBlock (if ok then c.err else c.err.worse { cls := 0x20, engine := 9, level := 0, addrk := 0, time := s.now }) 0 0 0 0)

/-- No write that was released before the boundary is still on its way to the page that a checkpoint copies next (R416). -/
def State.pageQuiet (s : State) (c : Ckpt) : Bool :=
  match c.pages with
  | (_, pa, size, _) :: _ => !s.rels.any (fun r => r.eff.homes.any (fun p => pa ≤ p && p < pa + size))
  | [] => true

/-- Copies the next marked page of a checkpoint, or ends it (R416, step 4). An uncorrectable word that a page holds is reported as DATA_LOSS
with its address. DESIGN CHOICE: log 27. -/
def State.stepCkpt (s : State) (c : Ckpt) : State :=
  match c.pages with
  | [] => s.endCkpt c (64 + c.len ≤ c.size)
  | (va, pa, size, entry) :: rest =>
    if c.size < 64 + c.len + 64 + size then s.endCkpt c false
    else
      let b := pageDesc va pa size ++ Memory.read s.mem pa size
      let err : Report := match s.badWord pa size with
        | some w => c.err.worse { s.memReport w with cls := 0x20, time := s.now }
        | none => c.err
      let s := ((s.pageFix pa size).diePut (hostPa (c.area + 64 + c.len)) b).clearEntry entry 6
      let c' := { c with err := err, pages := rest, len := c.len + b.length, crc := crc64 c.crc b, count := c.count + 1 }
      { s with ckpts := s.ckpts.map (fun (x : Ckpt) => if x.queue = c.queue && x.serial = c.serial then c' else x) }

end Sys2Proof.Machine
end

