-- ==== Sys2Proof/Machine/Regions.lean ====
section
/-! DEFINITION. Closing, release, replay, retirement and the hand-over of steps to adoption (R44 to R48, R156, R216, R261 to R264,
R282, R300, R326 to R339, R360, R392, R399, R400). -/
namespace Sys2Proof.Machine

/-! ### The effect digest (R339) -/

/-- The bytes that one effect feeds into the digest, kind, address, length and data. -/
def digestItem (kind addr len : Nat) (data : List Byte) : List Byte := BitVec.ofNat 8 kind :: (leBytes 8 addr ++ leBytes 4 len ++ data)

/-- The bytes of a byte list where a mask has ones, zero elsewhere. -/
def maskBytes (m : BitVec 64) (bs : List Byte) : List Byte := bs.zipIdx.map (fun b => if m.getLsbD b.2 then b.1 else 0)

/-- What an effect feeds into the digest; pipe records and releases feed nothing. -/
def digestOf (e : HeldEff) : List Byte :=
  match e with
  | .write va _ bs => digestItem 1 va bs.length bs
  | .block _ va _ m bs => digestItem 1 va 64 (leBytes 8 m.toNat ++ maskBytes m bs)
  | .atomic op wide code va _ b d _ _ =>
    digestItem 2 va (if wide then 8 else 4) (leBytes 2 code ++ leBytes 8 b.toNat ++ (if op = .cas then leBytes 8 d.toNat else []))
  | .adds ls _ => ls.flatMap (fun x => digestItem 3 x.1 4 (leBytes 4 x.2.2.1.toNat))
  | .window n off bs => digestItem 4 (n * 2 ^ 32 + off) 64 bs
  | .launch a b => digestItem 5 0 16 (words8 [a.toNat, b.toNat])
  | .resume a b _ => digestItem 5 1 16 (words8 [a.toNat, b.toNat])
  | .fork a b _ => digestItem 5 2 16 (words8 [a.toNat, b.toNat])
  | .discard a _ => digestItem 5 3 16 (words8 [a.toNat, 0])
  | .fenceRc => digestItem 6 0 0 []
  | .signal b => digestItem 7 0 8 (leBytes 8 b.toNat)
  | .pipeRec .. => []
  | .pipeHead .. => []

/-! ### Release (R44, R261 to R264, R282, R300, R343, R392, R405) -/

/-- What the core's own write, at place `op` of its issue order, adds to its lines that have been read at their homes and are still on their
way (R264, R280). -/
def State.patchReads (s : State) (n op : Nat) (e : HeldEff) : State :=
  { s with reads := s.reads.map (fun (r : RdReq) => if r.core = n && r.done.isSome then
      { r with patches := r.patches ++ ((e.cells.filter (fun b => b.1 / 64 * 64 = r.line)).map (fun b => (op, b.1 % 64, b.2, false))) } else r) }

/-- The core's own L1 at the release of an effect: a write updates the bytes it holds, an atomic or an addition invalidates the
line (R264, R300). -/
def State.l1Release (s : State) (n op : Nat) (e : HeldEff) : State :=
  let drop : State := s.l1Drop n (fun l => e.homes.any (fun p => p / 64 * 64 = l))
  match e with
  | .atomic .. => drop
  | .adds .. => drop
  | e => (s.patchReads n op e).updCore n (fun c => e.cells.foldl (fun c b => c.l1Write b.1 b.2) c)

/-- Every translation of core `n` by the leaf at `ea`, in its TLB, its quad's and its held effects, holds D = 1 from now on (R272). -/
def State.knowDirty (s : State) (n ea : Nat) : State :=
  let f (e : TlbEnt) : TlbEnt := if e.entryPa = ea then { e with leaf := e.leaf ||| 0x20 } else e
  let g (p : PageUse) : PageUse := if p.entryPa = ea then { p with dirty := true } else p
  { s with quadTlb := s.quadTlb.map (fun (x : Nat × TlbEnt) => if x.1 = quadOf n then (x.1, f x.2) else x) }.updCore n (fun c => { c with
    tlb := c.tlb.map f, held := c.held.map (fun (h : Held) => { h with pages := h.pages.map g }) })

/-- The release of a write sets D in the leaves of its translations that hold D = 0, where it goes to a home (R272). -/
def State.setDirty (s : State) (n : Nat) (ps : List PageUse) : State :=
  ps.foldl (fun s p => if p.dirty then s else (s.orEntry p.entryPa 5).knowDirty n p.entryPa) s

/-- One held effect of core `n`, whose step is `i`, is released (R44, R282). -/
def State.release (s : State) (n : Nat) (i : StepInfo) (h : Held) : State :=
  let c := s.core n
  let lost := h.eff.homes.filter s.homeLost
  let s := if lost.isEmpty then s else s.homeGone (s.payer n) (lost.headD 0)
  let rep : Report := { engine := 3, level := 3, addrk := 1, addr := h.eff.vas.headD 0 }
  let s := h.ce.foldl (fun s _ => s.countFix (s.payer n) rep) s
  let s := if h.ue.isEmpty then s else s.dataError n rep
  let eff := match h.eff with | .adds ls m => HeldEff.adds (ls.filter (fun x => !s.homeLost x.2.1)) m | e => e
  let roleOf (p : PipeDecl) : Nat := if p.prod = i.role then p.cons else p.prod
  let rel : Rel := { id := h.id, op := h.op, core := n, rgn := h.rgn, cls := h.cls, launch := i.launch, part := i.part, stp := i.stp, role := i.role,
                     at_ := c.dt, bad := h.ue, eff := eff, inst := i.inst, fork := i.fork,
                     prole := (match eff with
                       | .pipeRec p .. => roleOf (i.pipes[p]?.getD {})
                       | .pipeHead p _ => roleOf (i.pipes[p]?.getD {})
                       | _ => 0),
                     peer := (match eff with
                       | .pipeRec p .. => (i.pipes[p]?.getD {}).peer
                       | .pipeHead p _ => (i.pipes[p]?.getD {}).peer
                       | .window k .. => ((s.windows.find? (fun w => w.isOpen && w.bulkhead = bulkheadOf n && w.n = k)).map (·.tcore)).getD 0
                       | _ => 0),
                     ring := (match eff with | .pipeRec p .. => (i.pipes[p]?.getD {}).rbase | _ => 0) }
  let s := (s.l1Release n h.op h.eff).setDirty n (if lost.isEmpty then h.pages else [])
  let s := match eff with
    | .atomic _ _ _ _ _ _ _ (some _) tok => s.updCore n (fun c => { c with step := c.step.map (fun i => i.logPlace tok) })
    | _ => s
  let s := if eff.message then s.sendMsg n else s
  match eff with
  | .launch a b => s.postLaunch n i a b
  | .signal b => match i.root with
    | some q => s.signal q i.stepid b
    | none => s
  | .resume a b tag => s.startObj a.toNat tag (some (i.launch, i.stp, b.toNat)) none
  | .fork a b tag => (s.forkObj (s.payer n) i.part a.toNat b.toNat tag).2
  | .discard a tag => s.discardObj a.toNat tag
  | .adds ls _ => if ls.isEmpty then s else { s with rels := s.rels ++ [rel] }
  | .window k .. =>
    if (s.windows.any (fun w => w.isOpen && w.closing = 0 && w.bulkhead = bulkheadOf n && w.n = k && w.wpart = i.part)) then { s with rels := s.rels ++ [rel] }
    else s
  | .pipeRec .. => { s with rels := s.rels ++ [rel] }
  | .pipeHead .. => { s with rels := s.rels ++ [rel] }
  | .fenceRc => ({ s with rels := s.rels ++ [rel] }).settle
  | .write .. => if lost.isEmpty then { s with rels := s.rels ++ [rel] } else s
  | .block .. => if lost.isEmpty then { s with rels := s.rels ++ [rel] } else s
  | .atomic _ _ _ _ _ _ _ _ tok =>
    if lost.isEmpty then { s with rels := s.rels ++ [rel] }
    else s.updCore n (fun c => { c with awaits := c.awaits.map (fun w => if w.id = tok then { w with ready := some (0, true) } else w) })

/-- Counts the slots, atomics and blocks of additions of one closing (R392, R405). -/
def State.countReleases (s : State) (n : Nat) (hs : List Held) : State :=
  let blocks (p : HeldEff → Bool) : List Nat :=
    saddAll [] ((hs.filter (fun h => p h.eff)).flatMap (fun h => match h.eff with
      | .write _ pa bs => granRange pa bs.length
      | e => e.homes.map (· / 64)))
  let ws := blocks (fun e => match e with | .write .. => true | .block .. => true | _ => false)
  let as := blocks (fun e => match e with | .adds .. => true | _ => false)
  let at_ := (hs.filter (fun h => match h.eff with | .atomic .. => true | _ => false)).flatMap (fun h => h.eff.homes.map (· / 64))
  (ws ++ as ++ at_).foldl (fun s b => s.count n true (64 * b)) s

/-- What suppress mode does with an effect: pipe traffic is performed, an atomic takes its return from the log, the rest is dropped
(R337, R338). -/
def State.suppressed (s : State) (n : Nat) (i : StepInfo) (h : Held) : State :=
  match h.eff with
  | .pipeRec .. => s.release n i h
  | .pipeHead .. => s.release n i h
  | .atomic _ _ _ _ _ _ _ d tok =>
    if d.isNone then s else
    s.updCore n (fun c =>
      let j := c.step.getD {}
      { c with awaits := c.awaits.map (fun w => if w.id = tok then { w with ready := some (((j.log[j.logAt]?).map (·.2)).getD (0, true)) } else w)
               step := some { j with logAt := j.logAt + 1 } })
  | _ => s

/-! ### Closing (R44, R45, R156, R207, R216) -/

/-- The pending rows of region `q` become committed (R207). -/
def Core.commitRows (c : Core) (q : Nat) : Core :=
  let rows := (c.accOwn.filter (fun x => x.2 = q)).map (·.1)
  if rows.isEmpty then c else
  let mine := c.accP.filter (fun x => rows.contains (x.1 / 65))
  { c with accC := mine.foldl (fun b x => mput b x.1 x.2) (c.accC.filter (fun x => !rows.contains (x.1 / 65)))
           accP := c.accP.filter (fun x => !rows.contains (x.1 / 65))
           accOwn := c.accOwn.filter (fun x => x.2 != q) }

/-- The pending rows of region `q` and of later ones are discarded (R47, R209). -/
def Core.dropRows (c : Core) (q : Nat) : Core :=
  let rows := (c.accOwn.filter (fun x => q ≤ x.2)).map (·.1)
  { c with accP := c.accP.filter (fun x => !rows.contains (x.1 / 65)), accOwn := c.accOwn.filter (fun x => x.2 < q) }

/-- A step whose last region has closed completes, with the class of R346 and the report of R348 and R354. -/
def State.completeStep (s : State) (n : Nat) : State :=
  let c := s.core n
  match c.step with
  | none => s
  | some i =>
    let k := i.okClass c.cerr
    let i := i.noteLost k 0
    let d := dieOf n
    let s := s.updLaunch i.launch (fun l =>
      let a := c.dt - i.started
      { l with sums := if d = 0 then ((l.sums.1.1 + a, l.sums.1.2 + 1), l.sums.2) else (l.sums.1, (l.sums.2.1 + a, l.sums.2.2 + 1)) })
    ((s.depart n).sendMsg n).account n i c.cerr

/-- The step runs in suppress mode: its next closing releases no write (R337). -/
def StepInfo.quiet (i : StepInfo) : Bool := match i.suppress with | some (k, _) => i.closed < k | none => false

/-- Closes the oldest closing region of core `n` at stream cycle `t`. -/
def State.closeOne (s : State) (n t : Nat) : State :=
  let s := (s.updCore n (fun c => c.goTo t)).sync n
  let c := s.core n
  match c.closing, c.step with
  | r :: rest, some i =>
    let mine := c.held.filter (fun h => h.rgn = r.id)
    let inWin := s.windows.map (fun w =>
      if w.isOpen && w.tcore = n then { w with read := saddAll w.read (r.rset.filter (fun g =>
        64 * w.tbase ≤ g && g < 64 * (w.tbase + w.tlen + 1))) } else w)
    let s := { s with windows := inWin }
    let dig := mine.foldl (fun d h => crc64 d (digestOf h.eff)) i.digest
    let i1 := { i with digest := dig, closed := i.closed + 1 }
    let c := (c.commitRows r.id)
    let s := s.setCore n { c with closing := rest, shut := t, step := some i1, held := c.held.filter (fun h => h.rgn != r.id),
                                  undo := c.undo.filter (fun u => u.1 != r.id) }
    let s := if i.quiet then mine.foldl (fun s h => s.suppressed n i1 h) s
      else mine.foldl (fun s h => s.release n i1 h) (s.countReleases n mine)
    let bad : Bool := match i.suppress with | some (k, d) => i1.closed = k && dig ≠ d | none => false
    let past : Bool := match i.suppress with | some (k, _) => k ≤ i1.closed | none => false
    let s := if past then s.updCore n (fun c => { c with step := c.step.map (fun i => { i with suppress := none }) }) else s
    if bad then s.endStep n notAdoptableReport
    else if c.ended && rest.isEmpty then s.completeStep n else s
  | _, _ => s

/-- A page that the closing region is to release a write to has CK set: its virtual address (R272). -/
def State.ckPage (s : State) (n : Nat) : Option Nat :=
  let c := s.core n
  match c.closing, c.step with
  | r :: _, some i => if i.quiet then none else (c.held.filter (fun h => h.rgn = r.id)).findSome? (fun h =>
      h.eff.vas.find? (fun va => match s.walk i.part va with | .leaf _ _ low _ _ => low.getLsbD 6 | _ => false))
  | _, _ => none

/-- The page with `va` of a partition is the next one that its checkpoint copies (R416). -/
def State.pageFirst (s : State) (part va : Nat) : State :=
  let mine (p : Nat × Nat × Nat × Nat) : Bool := p.1 ≤ va && va < p.1 + p.2.2.1
  { s with ckpts := s.ckpts.map (fun (k : Ckpt) =>
      if k.part = part then { k with pages := k.pages.filter mine ++ k.pages.filter (fun p => !mine p) } else k) }

/-- REGION_CLOSING (R44, R156, R216, R272): the oldest closing region of a core, in a coupled quad those of all four members; the
core freezes in its closing cycle while a page it writes waits for its checkpoint copy. -/
def execRegionClosing (core : Nat) (s : State) : Out :=
  let g := s.gangOf core
  if g.any (fun m => (s.core m).closing.isEmpty || (s.core m).hand || (s.core m).frozen) then .fault .noSuchEvent
  else
    let t := s.quadClose core
    match g.findSome? (fun m => s.ckPage m) with
    | some va =>
      let s := g.foldl (fun s m => s.updCore m (fun c => c.goTo t)) s
      let s := s.pageFirst ((s.core core).step.getD {}).part va
      .next ((s.freezeAll core 1).sync core)
    | none => .next (g.foldl (fun s m => s.closeOne m t) s)

/-! ### Replay (R47, R310, R330 to R333, R360) -/

/-- A copy that a discarded CRESUME or CCANCEL found suspended is suspended again: what later blocks have brought goes, and the granules that
hold a byte of theirs, or that a CCANCEL had set full, are empty again (R310). -/
def State.putBack (s : State) (n : Nat) (u : Undo) : State :=
  let x := u.copy
  let late (b : Nat × Nat × Nat) : Bool := x.todo.contains (b.2.2 / 4096)
  let idx := (x.bytes.filter late).map (·.1)
  let x := { x with got := x.got.filter (fun g => !idx.contains g.1) }
  let running := (s.core n).slots.any (fun y => y.2.id = x.id)
  let gs := u.empties.filter (fun g => !running || x.bytes.any (fun b => b.2.1 / 64 = g && late b))
  { s with reads := s.reads.map (fun (r : RdReq) => { r with wants := r.wants.filter (fun w => !(w.tag = x.id && idx.contains w.idx)) }) }.updCore n
    (fun c => { c with slots := mput c.slots u.slot x, empties := gs.foldl (fun l g => mput l g x.id) c.empties
                       heavy := c.heavy.filter (fun (h : Heavy) => h.id != x.id) ++ u.heavy })

/-- A request to the governor of a discarded ASK stands until the replayed ASK replaces it; its answer comes to no register (R332). -/
def Await.orphan (w : Await) : Option Await :=
  match w.kind with
  | .ask _ a b u => if w.ready.isNone then some { w with kind := .ask 48 a b u } else none
  | _ => none

/-- Regions `q` and later of core `n` are discarded: their operations, held effects, rows, copies and arrivals (R47, R310, R332). -/
def State.discardFrom (s : State) (n q : Nat) : State :=
  let c := s.core n
  let gone := c.held.filter (fun h => q ≤ h.rgn)
  let s := gone.foldl (fun s h => s.unreserve h.eff) s
  let back := c.undo.filter (fun u => q ≤ u.rgn && u.copy.rgn < q)
  let dead := c.slots.filter (fun x => q ≤ x.2.rgn && !back.any (fun u => u.copy.id = x.2.id))
  let ids := dead.map (fun x => x.2.id)
  let lost := (c.empties.filter (fun e => ids.contains e.2)).map (·.1)
  let spad := lost.zipIdx.foldl (fun m g => Memory.write m (64 * g.1) (Config.freeGranule (s.free + g.2)).toList) c.spad
  let fl := c.flights.filter (fun f => f.rgn < q && !f.hand)
  let c := { c with
    flights := fl, held := c.held.filter (fun h => h.rgn < q)
    awaits := c.awaits.filterMap (fun (w : Await) => if w.rgn < q then some w else w.orphan)
    slots := c.slots.filter (fun x => !ids.contains x.2.id), spad := spad, empties := c.empties.filter (fun e => !ids.contains e.2)
    port := c.port.filter (fun p => p.1 < q), mmuls := c.mmuls.filter (fun p => p.1 < q), mwlds := c.mwlds.filter (fun p => p.1 < q)
    heavy := c.heavy.filter (fun h => h.rgn < q), touched := c.touched.filter (fun x => fl.any (fun f => f.evs.any (fun e => match e.2 with
      | .compare mm .. => mm = x.1 | _ => false)))
    sats := c.sats.filter (fun x => fl.any (fun f => f.evs.any (fun e => match e.2 with | .compare mm .. => mm = x.1 | _ => false)))
    joint := [], owe := none, walkFaults := [], until? := none, undo := c.undo.filter (fun u => u.rgn < q) }.dropRows q
  let s := { s with free := s.free + lost.length, orders := s.orders.filter (fun o => !(o.core = n && q ≤ o.rgn))
                    walks := s.walks.map (fun (w : Walk) => if w.core = n && (w.slot.isNone || w.slot.any ids.contains) then { w with gone := true } else w) }
  back.reverse.foldl (fun s u => s.putBack n u) (s.setCore n c)

/-- The region `q` of a core. -/
def Core.region? (c : Core) (q : Nat) : Option Region := if c.opn.id = q then some c.opn else c.closing.find? (fun r => r.id = q)

/-- Replays region `q` of core `n`; the next device cycle is `dt` (R47, R330, R331). -/
def State.replayOne (s : State) (n q dt : Nat) : State :=
  match (s.core n).region? q with
  | none => s
  | some r =>
    let s := s.discardFrom n q
    s.updCore n (fun c => { c with
      slip := c.slip + BitVec.ofNat 64 (dt - c.dt + c.stream - r.openAt), dt := dt, stream := r.openAt
      opn := { id := q, openAt := r.openAt, pc := r.pc, base := r.openAt, snap := r.snap, rcnt := r.rcnt + 1 }
      closing := c.closing.filter (fun x => x.id < q), arch := r.snap, pc := r.pc, base := r.openAt, exact_ := false, floor := 0
      ended := false, trap := none, doom := none, grpEng := [], grpEnd := false
      step := c.step.map (fun i => { i with replays := i.replays + 1 }) })

/-- The cycle g of R330 at which a replay or retirement takes effect: that of the error, or the closing cycle of a clean earlier
region. -/
def State.doomAt (s : State) (n : Nat) (d : Doom) : Nat :=
  let c := s.core n
  if c.closing.any (fun r => r.id < d.rgn) then max d.found (s.quadLastClose n) else max d.found c.stream

/-- What the control die keeps of a step that leaves its core to run again elsewhere: its committed count and its digest (R336 to R338). -/
def StepInfo.handed (i : StepInfo) (kill failover : Bool) (lost : Report) : StepInfo :=
  let goal := match i.suppress with
    | some (k, d) => if i.closed < k then (k, d) else (i.closed, i.digest)
    | none => (i.closed, i.digest)
  { i with suppress := if goal.1 = 0 then none else some goal, closed := 0, digest := 0, logAt := 0, replays := 0
           deadlined := false, adopted := i.adopted || !kill, failedOver := i.failedOver || failover
           lost := if i.adopted || kill then i.lost else lost }

/-- The step of core `n` cannot run again: it is not adoptable, or its launch, which had a list for it, is over (R336, R338, R341). -/
def State.stuck (s : State) (n : Nat) : Bool :=
  match (s.core n).step with
  | some i => i.unadoptable || (s.launch? i.launch).isNone
  | none => false

/-- The step of core `n` that cannot run again has lost its core to the error `lost` (R354). -/
def State.markLost (s : State) (n : Nat) (kill failover : Bool) (lost : Report) : State :=
  s.updCore n (fun c => { c with step := c.step.map (fun i => { i.handed kill failover lost with suppress := i.suppress, replays := i.replays }) })

/-- The step of core `n` leaves it to run again elsewhere (R334, R336 to R338, R366): `kill` for a pre-empted one. -/
def State.handOver (s : State) (n : Nat) (kill failover : Bool) (lost : Report) : State :=
  let c := s.core n
  match c.step with
  | none => s
  | some i =>
    let j := i.handed kill failover lost
    if s.stuck n then (s.markLost n kill failover lost).endStep n notAdoptableReport
    else
      ((s.depart n).leaveGroups n).updLaunch i.launch (fun l =>
        if i.forked then { l with redo := l.redo ++ [⟨j, kill, n, none⟩] }
        else { l with running := l.running.filter (fun x => x.1 != n), redo := l.redo ++ [⟨j, kill, n, none⟩]
                      ncorr := l.ncorr + c.cerr, nreplay := l.nreplay + i.replays })

/-- The steps that are adopted together with that of core `n`, which the error `lost` concerns: its quad or its gang instance, whole (R336, R337,
R354). The rings of a gang instance are cleared. Where a member of a gang instance cannot run again, the others end KILLED (R251). -/
def State.handOverAll (s : State) (n : Nat) (kill failover : Bool) (lost : Report) : State :=
  let g := s.unitOf n
  let lost := { lost with step := (((s.core n).step).getD {}).stp }
  let s := g.foldl (fun s m => s.discardFrom m 0) s
  let s := { s with rels := s.rels.filter (fun r => !(g.contains r.core && (match r.eff with
    | .pipeRec .. => true
    | .pipeHead .. => true
    | _ => false))) }
  let bad := g.filter s.stuck
  if !bad.isEmpty && (((s.core n).step).getD {}).gang then
    (bad.foldl (fun s m => s.markLost m kill failover lost) s).endGroup bad notAdoptableReport
  else g.foldl (fun s m => s.handOver m kill failover lost) s

/-- Windows into a core that leaves service close, and their blocks in flight are dropped (R400). A command to close one is still to be
answered. -/
def State.closeWindowsInto (s : State) (n : Nat) : State :=
  let ws := s.windows.filter (fun w => w.isOpen && w.tcore = n)
  { s with
    windows := s.windows.map (fun w => if w.isOpen && w.tcore = n then { w with isOpen := false, reqs := [] } else w)
    rels := s.rels.filter (fun r => match r.eff with
      | .window k .. => !ws.any (fun w => w.bulkhead = bulkheadOf r.core && w.n = k)
      | _ => true) }

/-- Retires core `n` (R334, R335, R355, R400). -/
def State.retire (s : State) (n why : Nat) (rep : Report) : State :=
  let i := ((s.core n).step).getD {}
  let s := s.logEvent ⟨0, n, rep.engine, rep.addr, rep.time, i.stepid, why⟩
  let s := { s with retired := sadd s.retired n }
  let s := (s.updLaunch i.launch (fun l => { l with nretire := l.nretire + 1 })).closeWindowsInto n
  let s := s.handOverAll n false false rep
  s.updCore n (fun c => { c with spad := [], ue := [], ce := [], accC := [], empties := [], l1 := [], tlb := [] })

/-- What the error block says of a parity error in an entry snapshot: its address is that of the word that wrote it, the one that ended the
region before (R333, R352). -/
def snapReport (r : Region) : Report :=
  { cls := 3, engine := 0, level := 3, addrk := 3, addr := if r.id = 0 then r.pc else r.pc - 4 }

/-- A step that pre-emption kills waits for the clean closing regions of its group: those before every region of their quad in which an
error was found (R366). -/
def State.killWaits (s : State) (n : Nat) : Bool :=
  (s.unitOf n).any (fun m => (s.core m).closing.any (fun r =>
    (s.gangOf m).all (fun k => match (s.core k).doom with | some d => r.id < d.rgn | none => true)))

/-- REPLAY (R47, R216, R330 to R334, R360): the doomed region of a core is replayed, with those of its coupled quad, or its core is
retired. A member in trap mode first leaves it, and the quad goes on with a clean closing region if there is one. -/
def execReplay (core : Nat) (s : State) : Out :=
  let c := s.core core
  match c.doom with
  | none => .fault .noSuchEvent
  | some d =>
    let g := s.gangOf core
    let waits := g.any (fun m => (s.core m).hand) && c.closing.any (fun r => r.id < d.rgn)
    -- every member in trap mode leaves it at its present device cycle
    let s := g.foldl (fun s m => match (s.core m).trap with
      | none => s
      | some k =>
        let shut := k.latches.filter (fun f => f.rgn < d.rgn)
        let v := (s.core m).dt
        let big := (shut.map (fun f => k.f - f.issue)).foldl max 0
        s.updCore m (fun c => c.leaveTrap k (if waits then v + 64 + 8 * shut.length + big else v) (if waits then shut else []))) s
    let s := s.alignQuad core
    -- out of trap mode, the error counts as found at the stream cycle at which stream time resumes
    let d := if c.hand then { d with found := (s.core core).stream } else d
    if waits then .next (s.updCore core (fun c => { c with doom := some d }))
    else
      let t := s.doomAt core d
      let s := (g.foldl (fun s m => s.updCore m (fun c => c.goTo t)) s).sync core
      match g.findSome? (fun m => match (s.core m).region? d.rgn with | some r => if r.snapBad then some (m, r) else none | none => none) with
      | some (m, r) =>
        let i := ((s.core m).step).getD {}
        .next (s.retire m 1 { snapReport r with core := m, step := i.stp, time := (s.core m).dt })
      | none =>
      if d.why = 3 then
        if s.killWaits core then .fault .noSuchEvent
        else .next (s.handOverAll core true false {})
      else if d.retire then .next (s.retire core d.why d.rep)
      else
        let dt := (s.core core).dt + 1
        .next (g.foldl (fun s m => s.replayOne m d.rgn dt) s)

/-- REGION_ERROR (R325, R330): a detector fires on an operation of an open or closing region; on a core without that region there is none for it
to fire on, and nothing changes. -/
def execRegionError (core rgn engine addr : Nat) (s : State) : Out :=
  let c := s.core core
  if c.step.isNone || (c.region? rgn).isNone then .next s
  else .next (s.regionErr core rgn { engine := engine, level := 3, addrk := 3, addr := addr })

end Sys2Proof.Machine
end

