-- ==== Sys2Proof/Machine/MemEvents.lean ====
section
/-! DEFINITION. What happens at the homes: reads, writes, atomics, additions, deliveries and host accesses perform, in the orders that
R280 to R282, R294, R296, R398 and R402 require (R266, R267, R278 to R300, R317, R319, R343, R351, R381, R398, R403, R404). -/
namespace Sys2Proof.Machine

/-! ### Latencies between dies (R381) -/

/-- The least time of a message between a die of a core and another core's die. -/
def coreLat (n m : Nat) : Nat := if dieOf n = dieOf m then 0 else 38

/-! ### Errors in memory (R267) -/

/-- The bytes of a line as its home gives them, each with whether it is uncorrectable (R267, R343). -/
def State.lineRead (s : State) (line : Nat) : List (Byte × Bool) :=
  if s.homeLost line then List.replicate 64 (0, true)
  else
    let bad := wordsIn s.memUe line 64
    (Memory.read s.mem line 64).zipIdx.map (fun b => (b.1, bad.contains ((line + b.2) / 8)))

/-! ### Order (R280 to R282, R294, R296, R402) -/

/-- The lines that an effect touches at homes. -/
def HeldEff.lines (e : HeldEff) : List Nat := saddAll [] (e.homes.map (· / 64))

/-- A block of a kind 3 copy that the core issued before `id` has not been translated, so its reads have not performed (R281,
R306). -/
def State.copyBefore (s : State) (n id : Nat) (p : CopySlot → Bool) : Bool :=
  (s.core n).slots.any (fun x => x.2.kind = 3 && x.2.susp.isNone && x.2.op < id && !x.2.todo.isEmpty && p x.2)

/-- A block of a copy still to be translated lies, by the present translations, in the 4 KiB of a line. -/
def State.blockAt (s : State) (n line : Nat) (x : CopySlot) : Bool :=
  match (s.core n).step with
  | none => false
  | some i => x.todo.any (fun b => (s.mapped n i.part (4096 * b)).any (fun pa => pa / 4096 = line / 4096))

/-- A request may be served at its home: every earlier read of its class of the core, and every earlier access of the core to its
line, has performed (R280, R281), and the message has had its time (R381). -/
def State.readReady (s : State) (r : RdReq) : Bool :=
  r.done.isNone && !s.reads.any (fun x => x.before r.core r.op (fun k => k = r.cls || x.line = r.line)) &&
  !s.hostHeld 0 r.line 64 &&
  !s.copyBefore r.core r.op (fun x => x.cls = r.cls || s.blockAt r.core r.line x) &&
  !s.rels.any (fun x => x.core = r.core && x.op < r.op && x.eff.global && x.eff.lines.contains (r.line / 64))

/-- An order of R281 keeps `y` from performing. A COMMIT.REL orders writes of the masked classes behind those of its region. -/
def State.ordered (s : State) (y : Rel) (o : Order) : Bool :=
  o.core = y.core && o.id < y.op &&
  (if o.fence then
    inMask o.mask y.cls &&
      (s.relBefore y.core o.id (fun x => inMask o.mask x.cls) || (o.scope = 5 && s.hostBefore y.core o.id (inMask o.mask)))
   else if o.acq then false
   else match o.kind with
    | .rel m => inMask m y.cls &&
        (s.relBefore y.core o.id (fun _ => true) || (o.scope = 5 && s.hostBefore y.core o.id (fun _ => true)))
    | .atomic => s.relBefore y.core o.id (fun x => x.rgn = o.rgn)
    | _ => false)

/-- A released effect may perform at its home (R281, R282, R296, R402). -/
def State.relReady (s : State) (y : Rel) : Bool :=
  (match y.eff with
   | .atomic .. => !s.relBefore y.core y.op (fun _ => true)
   | _ => true) &&
  !s.reads.any (fun x => x.before y.core y.op (sameClass y.cls)) &&
  !s.copyBefore y.core y.op (fun x => sameClass y.cls x.cls) &&
  !s.rels.any (fun x => x.core = y.core && x.op < y.op && x.eff.global &&
    (sameClass y.cls x.cls || x.eff.lines.any y.eff.lines.contains)) &&
  -- of two lanes of one word that write one byte, the later one stays (R290)
  !s.rels.any (fun x => x.core = y.core && x.op = y.op && x.id < y.id && x.eff.cells.any (fun b => y.eff.cells.any (fun d => d.1 = b.1))) &&
  !y.eff.homes.any (fun p => s.hostHeld y.id (p / 64 * 64) 64) &&
  !s.orders.any (s.ordered y)

/-- The earliest device time at which a released effect can perform (R381). -/
def Rel.from (y : Rel) : Nat :=
  y.at_ + (match y.eff with
    | .pipeRec .. => coreLat y.core y.peer
    | .pipeHead .. => coreLat y.core y.peer
    | .window .. => coreLat y.core y.peer
    | .fenceRc => 0
    | e => (e.homes.map (homeLat y.core)).foldl max 0)

/-! ### READ_PERFORM (R264, R267, R278, R280, R284, R289, R306, R404) -/

/-- The core's own released writes to a line that have not performed yet, in their order (R264, R280). -/
def State.ownWrites (s : State) (n line : Nat) : List (Nat × Nat × Byte × Bool) :=
  (s.rels.filter (fun x => x.core = n)).flatMap (fun x => (x.eff.cells.filter (fun b => b.1 / 64 * 64 = line)).map (fun b => (x.op, b.1 % 64, b.2, false)))

/-- A line with those of the later bytes of the core that are earlier in issue order than `op`. -/
def patched (line : List (Byte × Bool)) (ps : List (Nat × Nat × Byte × Bool)) (op : Nat) : List (Byte × Bool) :=
  (ps.filter (fun p => p.1 < op)).foldl (fun l p => l.set p.2.1 p.2.2) line

/-- The L1 of the core takes, refreshes or drops a line that has come from its home (R264, R265, R280). -/
def State.fillL1 (s : State) (n line fill : Nat) (bytes : List (Byte × Bool)) : State :=
  let c := s.core n
  let held := (c.l1Line line).isSome
  if fill = 0 then s
  else if (fill = 1 || held) && !bytes.any (·.2) then s.setCore n (c.l1Fill line (bytes.map (·.1)) s.nextId)
  else s.setCore n { c with l1 := c.l1.filter (fun l => l.pa != line) }

/-- A request performs: the line is read at its home, its errors are found, and it is on its way (R267, R278, R344). What an earlier read of
the line by the core is still to bring, to a later read or to the L1, becomes no older than this (R280). -/
def State.performRead (s : State) (r : RdReq) : State :=
  let s := { s with now := max s.now (r.at_ + homeLat r.core r.line) }
  let s := s.memFix (s.payer r.core) r.line 64
  let bytes := s.lineRead r.line
  let s := match r.wants.find? (fun w => (bytes.getD w.off (0, true)).2) with
    | none => s
    | some w =>
      let k := (r.line + w.off) / 8
      if s.homeLost r.line then s.homeGone (s.payer r.core) (8 * k) else s.memBad (s.payer r.core) k
  let at_ := s.now + homeLat r.core r.line
  let ps := s.ownWrites r.core r.line
  let here := bytes.zipIdx.map (fun b => (r.op, b.2, b.1))
  { s with reads := s.reads.map (fun (x : RdReq) =>
      if x.id = r.id then { x with done := some (at_, bytes), patches := ps }
      else if x.core = r.core && x.line = r.line && x.done.isSome then { x with patches := x.patches ++ here ++ ps } else x) }

/-- The bytes that a line brings to an arrival or a copy. -/
def RdReq.gives (r : RdReq) (bytes : List (Byte × Bool)) (tag : Nat) : List (Nat × Byte × Bool) :=
  (r.wants.filter (fun w => w.tag = tag)).map (fun w => (w.idx, (patched bytes r.patches w.op).getD w.off (0, true)))

/-- A line arrives: what waits for its bytes has them, and the L1 takes it (R264, R280, R404). -/
def State.readBack (s : State) (r : RdReq) (at_ : Nat) (bytes : List (Byte × Bool)) : State :=
  let s := { s with now := max s.now at_, reads := s.reads.filter (fun (x : RdReq) => x.id != r.id) }
  let s := s.updCore r.core (fun c => { c with
    awaits := c.awaits.map (fun a => { a with bytes := a.bytes ++ r.gives bytes a.id })
    slots := c.slots.map (fun x => (x.1, { x.2 with got := x.2.got ++ r.gives bytes x.2.id }))
    undo := c.undo.map (fun (u : Undo) => { u with copy := { u.copy with got := u.copy.got ++ r.gives bytes u.copy.id } }) })
  s.fillL1 r.core r.line r.fill (patched bytes r.patches s.nextId)

/-- READ_PERFORM (R278): a read performs at its home; by a later event of its row the line arrives. -/
def execReadPerform (id : Nat) (s : State) : Out :=
  match s.reads.find? (fun r => r.id = id) with
  | none => .fault .noSuchEvent
  | some r => match r.done with
    | some (at_, bytes) => .next (s.readBack r at_ bytes)
    | none => if !s.readReady r then .fault .noSuchEvent else .next (s.performRead r).settle

/-! ### WRITE_PERFORM (R267, R278, R279, R299) -/

/-- The runs of a masked 64-byte block: offset and bytes. -/
def blockRuns (mask : BitVec 64) (bytes : List Byte) : List (Nat × List Byte) :=
  (List.range 8).flatMap (fun w =>
    if bits mask.toNat (8 * w) 8 = 255 then [(8 * w, (bytes.drop (8 * w)).take 8)]
    else (List.range 8).filterMap (fun k => if mask.getLsbD (8 * w + k) then some (8 * w + k, [bytes.getD (8 * w + k) 0]) else none))

/-- WRITE_PERFORM (R278, R282). -/
def execWritePerform (id : Nat) (s : State) : Out :=
  match s.rels.find? (fun r => r.id = id) with
  | none => .fault .noSuchEvent
  | some r =>
    if !s.relReady r then .fault .noSuchEvent else
    let s := { s with now := max s.now r.from }
    let lost (pa : Nat) : Out := .next ((s.dropRel id).homeGone r.payer pa).pruneOrders.settle
    match r.eff with
    | .write _ pa bs =>
      if s.homeLost pa then lost pa
      else .next (((s.dropRel id).homeWrite r.payer pa bs r.bad).hostPending r pa).pruneOrders.settle
    | .block _ _ pa m bs =>
      if s.homeLost pa then lost pa
      else .next (((blockRuns m bs).foldl (fun s x => s.homeWrite r.payer (pa + x.1) x.2 r.bad) (s.dropRel id)).hostPending r pa).pruneOrders.settle
    | _ => .fault .noSuchEvent

/-! ### ATOMIC_PERFORM (R295 to R299, R338, R403) -/

/-- ATOMIC_PERFORM (R296, R298, R299, R403): once, indivisibly, after everything that the core released before. In the host window it reads,
and by a later event of its row it writes: an access of the host may come between. -/
def execAtomicPerform (id : Nat) (s : State) : Out :=
  match s.rels.find? (fun r => r.id = id) with
  | none => .fault .noSuchEvent
  | some r =>
    if !s.relReady r then .fault .noSuchEvent else
    let s := { s with now := max s.now r.from }
    match r.eff with
    | .atomic op wide _ _ pa b dold d tok =>
      let n := if wide then 8 else 4
      if s.homeLost pa then
        .next (((s.dropRel id).sendReturn r tok pa 0 true).homeGone r.payer pa).pruneOrders.settle
      else
        let s := s.memFix r.payer pa n
        let found := (BitVec.ofNat 64 (Memory.val s.mem pa n), s.memUe.contains (pa / 8))
        if windowOf pa = 4 && r.old.isNone then
          .next { s with rels := s.rels.map (fun (x : Rel) => if x.id = id then { x with old := some found } else x) }
        else
        .next (s.atomicWrite r op wide pa b dold d tok (r.old.getD found))
    | _ => .fault .noSuchEvent

/-! ### GLOBAL_ADDITION_PERFORM (R291) -/

/-- One addition of a VRED.G word (R291). -/
def addOne (mode : Option Nat) (old v rnd : Nat) : Nat :=
  match mode with
  | none => (old + v) % 2 ^ 32
  | some m => (fAdd fp32 ⟨m, rnd⟩ (FV.ofBits fp32 old) (FV.ofBits fp32 v)).1

/-- GLOBAL_ADDITION_PERFORM (R291): the additions of one word, in ascending lane order. -/
def execGlobalAdditionPerform (id : Nat) (s : State) : Out :=
  match s.rels.find? (fun r => r.id = id) with
  | none => .fault .noSuchEvent
  | some r =>
    if !s.relReady r then .fault .noSuchEvent else
    let s := { s with now := max s.now r.from }
    match r.eff with
    | .adds ls mode =>
      let s := ls.foldl (fun s x =>
        let pa := x.2.1
        if s.homeLost pa then s.homeGone r.payer pa
        else
          let s := s.memFix r.payer pa 4
          let psn := s.memUe.contains (pa / 8)
          let s := if psn then s.memBad r.payer (pa / 8) else s
          s.homeWrite r.payer pa (leBytes 4 (addOne mode (Memory.val s.mem pa 4) x.2.2.1.toNat x.2.2.2)) r.bad) (s.dropRel id)
      .next (ls.foldl (fun s x => if windowOf x.2.1 = 4 && !s.hostWrites.any (fun h => h.1 = r.id) then s.hostPending r x.2.1 else s) s).pruneOrders.settle
    | _ => .fault .noSuchEvent

/-! ### Pipes and windows (R317, R319, R398, R399) -/

/-- Bytes delivered into a scratchpad from outside: no R or W bit, no freeze (R315, R399). -/
def Core.deliver (c : Core) (a : Nat) (bs : List Byte) : Core := c.spWrite (fullBytes a bs)

/-- A delivery of the same pipe and direction, or to the same windows, was released earlier by the same core. -/
def State.earlierDelivery (s : State) (r : Rel) : Bool :=
  s.rels.any (fun x => x.core = r.core && x.id < r.id && (match x.eff, r.eff with
    | .pipeRec p .., .pipeRec q .. => p = q
    | .pipeHead p _, .pipeHead q _ => p = q
    | .window .., .window .. => true
    | _, _ => false))

/-- PIPE_RECORD_ARRIVAL (R317): the bytes, then the tail. -/
def execPipeRecordArrival (id : Nat) (s : State) : Out :=
  match s.rels.find? (fun r => r.id = id) with
  | none => .fault .noSuchEvent
  | some r => match r.eff with
    | .pipeRec p off bs tail =>
      if s.earlierDelivery r then .fault .noSuchEvent else
      let here := s.peerHere r
      let s := ({ s with now := max s.now r.from }).dropRel id
      .next (if here then s.updCore r.peer (fun c =>
        { c.deliver (4096 * r.ring + off) bs with tv := c.tv.setIfInBounds p tail }) else s).settle
    | _ => .fault .noSuchEvent

/-- PIPE_HEAD_ARRIVAL (R319). -/
def execPipeHeadArrival (id : Nat) (s : State) : Out :=
  match s.rels.find? (fun r => r.id = id) with
  | none => .fault .noSuchEvent
  | some r => match r.eff with
    | .pipeHead p head =>
      if s.earlierDelivery r then .fault .noSuchEvent else
      let here := s.peerHere r
      let s := ({ s with now := max s.now r.from }).dropRel id
      .next (if here then s.updCore r.peer (fun c => { c with hv := c.hv.setIfInBounds p head }) else s).settle
    | _ => .fault .noSuchEvent

/-- A window into a suspended group accepts no block that was released after the group had frozen (R368). -/
def State.shut (s : State) (r : Rel) (w : Win) : Bool := w.paused.isSome || ((s.core w.tcore).frozen && (s.core w.tcore).dt < r.at_)

/-- WINDOW_DELIVERY (R398, R399, R423): one block, whole; its granule becomes full, and the target's partition logs it in capture mode. -/
def execWindowDelivery (id : Nat) (s : State) : Out :=
  match s.rels.find? (fun r => r.id = id) with
  | none => .fault .noSuchEvent
  | some r => match r.eff with
    | .window k off bs =>
      let to_ := s.windows.find? (fun w => w.isOpen && w.bulkhead = bulkheadOf r.core && w.n = k)
      if s.earlierDelivery r || to_.any (s.shut r) then .fault .noSuchEvent else
      let s := ({ s with now := max s.now r.from }).dropRel id
      match to_ with
      | none => .next s.settle
      | some w =>
        let a := 4096 * w.tbase + off
        let s := s.updCore w.tcore (fun c => let d := c.deliver a bs
          { d with empties := mdel d.empties (a / 64), ue := saddAll d.ue (r.bad.map (· + a / 8)) })
        .next (({ s with windows := s.windows.map (fun (x : Win) =>
          if x.bulkhead = w.bulkhead && x.n = k then { x with delivered := x.delivered + 1 } else x) }).capture w.tpart 5 (8 * w.bulkhead + k) off).settle
    | _ => .fault .noSuchEvent

/-! ### The host link and other requesters (R277, R278) -/

/-- HOST_LINK_WRITE_COMPLETION (R278). -/
def execHostLinkWriteCompletion (id : Nat) (s : State) : Out :=
  if s.hostWrites.any (fun h => h.1 = id) then
    .next ({ s with hostWrites := s.hostWrites.filter (fun h => h.1 != id) }).pruneOrders
  else .fault .noSuchEvent

/-- HOST_REQUESTER_ACCESS (R277): a read or write of `n` bytes performs at the home of a device line; a read leaves only what it
corrects. -/
def execHostRequesterAccess (pa : Nat) (n : Nat) (wr : Option (List (BitVec 8))) (s : State) : Out :=
  if s.homeLost pa then .next s
  else match wr with
  | none => .next ((wordsIn s.memUe pa n).foldl (fun s w => s.memBad none w) (s.memFix none pa n))
  | some bs => .next (s.homeWrite none pa bs [])

end Sys2Proof.Machine
end

