-- ==== Sys2Proof/Machine/Launches.lean ====
section
/-! DEFINITION. The walker: records and their checks, expansion, dispatch lists, admission, dispatch, adoption, completion, variants,
pre-emption and timed launches (R228 to R259, R336, R341, R364 to R366, R386, R399, R418). -/
namespace Sys2Proof.Machine

/-- A pipe word as a declaration, its other end not yet known (R234). -/
def pipeOf (v : Nat) : PipeDecl :=
  { valid := bits v 31 1 = 1, prod := bits v 29 2, cons := bits v 27 2, size := bits v 24 3, rbase := bits v 15 9, worst := bits v 0 15 }

/-- The pipes of a record. -/
def torPipes (t : List Word) : List PipeDecl := (List.range 8).map (fun p => pipeOf (torPipe t p))

/-- The dimension at each position, outermost first. -/
def torOrder (t : List Word) : List Nat :=
  (List.range (torDepth t)).filterMap (fun p => (List.range (torDepth t)).find? (fun d => (torDim t d).2.2 = p))

/-- The tile numbers of step `s` by position, outermost first: mixed-radix digits. -/
def digits (radix : List Nat) (s : Nat) : List Nat :=
  (radix.foldr (fun r (x : Nat × List Nat) => (x.1 / r, x.1 % r :: x.2)) (s, [])).2

/-- i0 to i5 of step `s` (R237). -/
def torIndex (t : List Word) (s : Nat) : List Nat :=
  let o := torOrder t
  let g := o.zip (digits (o.map (torTiles t)) s)
  (List.range 6).map (fun d => match g.find? (fun x => x.1 = d) with | some x => x.2 * (torDim t d).2.1 | none => 0)

/-! ### The checks of R236 -/

/-- Two ranges [a, a + n) and [b, b + m) share a byte. -/
def meets (a n b m : Nat) : Bool := n ≠ 0 && m ≠ 0 && a < b + m && b < a + n

/-- The rings of a record: consumer role, base, size. -/
def torRings (t : List Word) : List (Nat × Nat × Nat) :=
  ((torPipes t).filter (·.valid)).map (fun p => (p.cons, 4096 * p.rbase, p.ring))

/-- Roles that role set `l` feeds through pipes. -/
def fed (ps : List PipeDecl) (l : List Nat) : List Nat := saddAll [] ((ps.filter (fun p => p.valid && l.contains p.prod)).map (·.cons))

/-- The pipes form a cycle among the roles. -/
def pipeCycle (ps : List PipeDecl) : Bool :=
  (List.range 4).any (fun r => (fed ps [r]).contains r || (fed ps (fed ps [r])).contains r ||
    (fed ps (fed ps (fed ps [r]))).contains r || (fed ps (fed ps (fed ps (fed ps [r])))).contains r)

/-- The reserved bits and the words that must be zero are zero (R230 to R236, R245). -/
def torZeros (t : List Word) : Bool :=
  tf t 0 41 23 = 0 && tf t 0 18 14 = 0 && tf t 1 61 3 = 0 && tf t 3 41 23 = 0 && tf t 3 19 13 = 0 &&
  (List.range 6).all (fun d => if d < torDepth t then tf t (4 + d) 52 12 = 0 else tw t (4 + d) = 0) &&
  (List.range 4).all (fun r => if r < torRoles t then tf t (18 + r) 16 48 = 0 else tw t (18 + r) = 0) &&
  (List.range 8).all (fun p => bits (torPipe t p) 31 1 = 1 || torPipe t p = 0) &&
  (List.range 4).all (fun v => if v < torVariants t then bits (th t 26 v) 9 23 = 0 else th t 26 v = 0) &&
  tf t 28 20 44 = 0 && tf t 29 21 11 = 0 && tf t 29 53 11 = 0 && tf t 30 61 3 = 0 && tf t 31 21 43 = 0

/-- Every field lies in its range (R230 to R235, R245). -/
def torRanges (t : List Word) : Bool :=
  1 ≤ torRoles t && torRoles t ≤ 4 && 1 ≤ torDepth t && torDepth t ≤ 6 && torVariants t ≤ 4 &&
  torCode t % 64 = 0 && 64 ≤ torCodeLen t && torCodeLen t ≤ 64 * 4096 && 1 ≤ torBudget t && tf t 3 17 2 ≤ 1 &&
  (List.range (torDepth t)).all (fun d => 1 ≤ (torDim t d).2.1) &&
  (List.range (torRoles t)).all (fun r => 4 * torEntry t r < torCodeLen t) &&
  (torPipes t).all (fun p => !p.valid || (p.prod < torRoles t && p.cons < torRoles t && p.prod ≠ p.cons &&
    4096 * p.rbase % p.ring = 0 && 1 ≤ p.worst && 64 * p.worst ≤ p.ring)) &&
  (List.range (torVariants t)).all (fun v => torShare t v ≤ 256) &&
  torSbase t % 8 = 0 && torSlim t % 8 = 0 && torPre t % 64 = 0 && torPreLen t ≤ 64 * 4096 && torPreBase t % 64 = 0

/-- No two of the areas that a record places in the scratchpad overlap (R236). -/
def torAreas (t : List Word) : Bool :=
  let c := (torBase t, torCodeLen t)
  let st := (torSlim t, torSbase t - torSlim t)
  let pre := (torPreBase t, torPreLen t)
  let rs := torRings t
  c.1 + c.2 ≤ 0x200000 && torSlim t ≤ torSbase t && !meets st.1 st.2 c.1 c.2 &&
  rs.all (fun r => !meets r.2.1 r.2.2 c.1 c.2 && !meets r.2.1 r.2.2 st.1 st.2) &&
  pre.1 + pre.2 ≤ 0x200000 && !meets pre.1 pre.2 c.1 c.2 && !meets pre.1 pre.2 st.1 st.2 &&
  rs.all (fun r => !meets pre.1 pre.2 r.2.1 r.2.2) &&
  rs.zipIdx.all (fun x => rs.zipIdx.all (fun y => x.2 = y.2 || x.1.1 ≠ y.1.1 || !meets x.1.2.1 x.1.2.2 y.1.2.1 y.1.2.2))

/-- A record passes the checks of R236 and R249. -/
def torOk (t : List Word) : Bool :=
  tf t 0 0 8 = 1 && tf t 0 8 8 = 1 && torZeros t && torRanges t &&
  (List.range (torDepth t)).all (fun p => (List.range (torDepth t)).any (fun d => (torDim t d).2.2 = p)) &&
  torSteps t ≤ 2 ^ 32 - 1 && torAreas t && !pipeCycle (torPipes t) &&
  (!torCoupled t || (torSteps t % 4 = 0 && torWidth t % 4 = 0 && (!torAnchor t || torCol t % 4 = 0))) &&
  (torStatic t || torRoles t < 2) && torWidth t % torRoles t = 0 &&
  (!torAnchor t || (torRow t + torHeight t ≤ 8 && torCol t + torWidth t ≤ 32))

/-- Every core of an instance may take a step of the launch. -/
def State.instFree (s : State) (l : Launch) (e : List (List Nat)) : Bool := (instCores e).all (s.freeCore l.id)

/-- The instance of its list that a group takes now, or the instances, by their first core, that groups before the next one wait for: those in
`seen`, and its own (R240, R241, R249). `x` is the list with the number of groups before this one that belong to it. -/
def State.spot (s : State) (l : Launch) (static : Bool) (x : List (List (List Nat)) × Nat) (seen : List Nat) : List (List Nat) ⊕ List Nat :=
  let key (e : List (List Nat)) : Nat := (instCores e).headD 0
  if static then
    match x.1[x.2 % max x.1.length 1]? with
    | none => .inr seen
    | some e => if !seen.contains (key e) && s.instFree l e then .inl e else .inr (sadd seen (key e))
  else match x.1.find? (fun e => !seen.contains (key e) && s.instFree l e) with
    | some e => .inl e
    | none => .inr (x.1.foldl (fun o e => sadd o (key e)) seen)

/-- The next group to dispatch and the instance it goes to: the lowest group whose instance is free, each list in ascending order (R240,
R241, R249). `seen` are the instances that a group before it waits for. -/
def State.nextGroup (s : State) (l : Launch) (es : List (List (List Nat))) : Nat → Nat → List Nat → Option (Nat × Nat × List (List Nat))
  | 0, _, _ => none
  | fuel + 1, g, seen =>
    if es.length ≤ seen.length then none
    else if l.ahead.contains g || l.isDead es.length g then s.nextGroup l es fuel (g + 1) seen
    else match s.spot l (torStatic l.words) (l.listFor es g) seen with
      | .inl e => some (g, es.findIdx (fun y => y == e), e)
      | .inr seen => s.nextGroup l es fuel (g + 1) seen

/-! ### The state of a core at dispatch (R25, R151, R158, R197, R243, R245, R250, R264) -/

/-- The cells of bytes placed at an address. -/
def cellsOf (a : Nat) (bs : List Byte) : List Host.Cell :=
  (bs.zipIdx.filter (fun b => b.1 != unlisted)).map (fun b => (a + b.2, b.1))

/-- The scratchpad at dispatch: the code image, the preload, and the ranges of open windows as they stand; zero elsewhere (R245). -/
def State.spadImage (s : State) (n : Nat) (l : Launch) : List Host.Cell :=
  let ws := (s.windows.filter (fun w => w.isOpen && w.tcore = n)).map (fun w => (4096 * w.tbase, 4096 * (w.tlen + 1)))
  let m := (s.core n).spad.filter (fun c => inRanges ws c.1)
  let m := Memory.blit m (torBase l.words) l.code.length (cellsOf (torBase l.words) l.code)
  Memory.blit m (torPreBase l.words) l.preload.length (cellsOf (torPreBase l.words) l.preload)

/-- A core with step `i` at device time `u`, as the walker starts it. -/
def State.startCore (s : State) (n : Nat) (l : Launch) (i : StepInfo) (u : Nat) : Core :=
  let old := s.core n
  let ws := (s.windows.filter (fun w => w.isOpen && w.tcore = n)).map (fun w => (4096 * w.tbase, 4096 * (w.tlen + 1)))
  let a : Arch := ({} : Arch).setS 31 (BitVec.ofNat 64 i.sbase) false
  let pc := i.codebase + 4 * torEntry l.words i.role
  { step := some i, pc := pc, dt := u, dtRef := u, arch := a, opn := { pc := pc, snap := a }, spad := s.spadImage n l
    ue := old.ue.filter (fun w => inRanges ws (8 * w)), ce := old.ce.filter (fun w => inRanges ws (8 * w))
    empties := old.empties.filter (fun e => inRanges ws (64 * e.1)), tlb := old.tlb }

/-- The in-service cores of the launch's rectangle in the bulkhead of core `n` (R322). -/
def State.shareCores (s : State) (l : Launch) (n : Nat) : Nat :=
  match l.rect with
  | none => 1
  | some r => max 1 ((rectOrder false r).filter (fun p => bulkheadOf (coreAt p.1 p.2) = bulkheadOf n && s.inService (coreAt p.1 p.2))).length

/-- What the walker gives step `stp` of role `r` on instance `j` (R237, R243, R249, R322). -/
def State.newStep (s : State) (l : Launch) (r stp j : Nat) (n u : Nat) (peer : Nat → Nat) : StepInfo :=
  let t := l.words
  { launch := l.id, part := l.part, stp := stp, role := r, inst := j, idx := torIndex t stp, trp := l.tor
    stepid := BitVec.ofNat 64 (l.serial * 2 ^ 32 + stp), sbase := torSbase t, slim := torSlim t, codebase := torBase t
    codelen := torCodeLen t, dline := u + torBudget t, dtab := l.dtab, static := torStatic t, coupled := torCoupled t
    started := u, est := torEstimate t, estAt := u
    gang := 2 ≤ torRoles t, root := l.rootQueue
    pipes := (torPipes t).map (fun p => { p with peer := peer (if p.prod = r then p.cons else p.prod) })
    units := torUnits t / s.shareCores l n, lclass := torClass t }

/-- The member of role `r` of an instance that core position `m` of another role faces. -/
def peerIn (e : List (List Nat)) (m r : Nat) : Nat := (e.getD r []).getD m 256

/-- Places one step on core `n` at device time `u`; the launch runs it from then on, if it is no step of a fork (R374). -/
def State.place (s : State) (l : Launch) (i : StepInfo) (n u : Nat) : State :=
  let s := s.setCore n (s.startCore n l i u)
  if i.forked then s
  else s.updLaunch l.id (fun x => { x with running := x.running ++ [(n, i.stp)], startAt := some (x.startAt.getD u) })

/-- The least device time at which the control die can start cores for a launch: it has heard of the launch's post and of what left the
cores, and the order travels (R381). -/
def State.dispatchFrom (s : State) (l : Launch) (e : List (List Nat)) : Nat :=
  (instCores e).foldl (fun t n => let d := (s.core n).dt; max t (if d = 0 then 0 else d + 60)) (max (s.now + 30) (l.since + 60))

/-- Dispatches group `g` onto instance `j`, whose entries are `e`, at device time `u` (R242, R243, R249). -/
def State.dispatchGroup (s : State) (l : Launch) (g j : Nat) (e : List (List Nat)) (u : Nat) : State :=
  let s := e.zipIdx.foldl (fun s b => b.1.zipIdx.foldl (fun s m =>
    s.place l (s.newStep l b.2 (g * l.per + m.2) j m.1 u (peerIn e m.2)) m.1 u) s) s
  s.updLaunch l.id (fun x =>
    let a := sadd x.ahead g
    let k := ((List.range (a.length + 1)).find? (fun k => !a.contains (x.nextStep / x.per + k))).getD 0
    { x with nextStep := x.nextStep + k * x.per, ahead := a.filter (fun y => x.nextStep / x.per + k ≤ y)
             taken := if torVariants x.words = 0 then x.taken else sadd x.taken (x.rank g)
             dies := if torVariants x.words = 0 then x.dies else x.dies ++ [(g, instDie e, u)] })

/-! ### Redispatch (R336 to R338, R341, R366) -/

/-- The steps to run again that go together with one: its gang instance, or the steps of its quad, of the same fork if it is of one. -/
def redoGroup (l : Launch) (r : Redo) : List Redo :=
  l.redo.filter (fun x => x.kill = r.kill && x.info.fork = r.info.fork &&
    (if torCoupled l.words then x.info.stp / 4 = r.info.stp / 4 && (2 ≤ torRoles l.words || x.info.role = r.info.role)
     else if 2 ≤ torRoles l.words then x.info.inst = r.info.inst && x.info.stp = r.info.stp
     else x = r))

/-- Returns of atomics of a step are still to be logged (R338). -/
def State.logOpen (s : State) (l : Nat) (i : StepInfo) : Bool :=
  s.rels.any (fun r => r.launch = l && r.stp = i.stp && r.role = i.role && r.inst = i.inst &&
    (match r.eff with | .atomic .. => true | _ => false))

/-- A step that runs again on core `n` of instance `j`: its record's state afresh, with what the control die keeps for it. It is coupled if
all four steps of its quad run again with it (R214). -/
def State.again (s : State) (l : Launch) (rs : List Redo) (i : StepInfo) (j n u : Nat) (e : List (List Nat)) : StepInfo :=
  let k := s.newStep l i.role i.stp j n u (peerIn e (i.stp % l.per))
  let quad := rs.filter (fun (r : Redo) => r.info.role = i.role && r.info.stp / 4 = i.stp / 4)
  { k with coupled := k.coupled && quad.length = 4, suppress := i.suppress, log := i.log, adopted := i.adopted, failedOver := i.failedOver, lost := i.lost, report := i.report
           forked := i.forked, lineage := i.lineage, group := i.group }

/-- The core on which a step runs again. -/
def redoCore (l : Launch) (e : List (List Nat)) (r : Redo) : Nat := peerIn e (r.info.stp % l.per) r.info.role

/-- Runs a group of steps again on an instance (R336, R366). A resumed group has its steps on their new cores. A killed group takes the die
and the index of an undispatched one (R239). -/
def State.redispatch (s : State) (l : Launch) (rs : List Redo) (j : Nat) (e : List (List Nat)) (u : Nat) : State :=
  let again (x : Launch) (r : Redo) : Bool := r.kill && !r.info.forked && torVariants x.words ≠ 0
  let s := rs.foldl (fun s r => let n := redoCore l e r; s.place l (s.again l rs r.info j n u e) n u) s
  let s := { s with groups := s.groups.map (fun (g : Group) => { g with cores := g.cores.map (fun n =>
    match rs.find? (fun (r : Redo) => r.core = n && r.info.group = some g.id) with | some r => redoCore l e r | none => n) }) }
  s.updLaunch l.id (fun x => { x with
    redo := x.redo.filter (fun y => !rs.contains y)
    taken := (rs.filter (fun (r : Redo) => again x r)).foldl (fun t r => sadd t (x.rank (r.info.stp / x.per))) x.taken
    dies := (rs.filter (fun (r : Redo) => again x r)).foldl (fun t r => t.filter (fun y => y.1 != r.info.stp / x.per) ++ [(r.info.stp / x.per, instDie e, u)]) x.dies
    nadopt := x.nadopt + (rs.filter (fun (r : Redo) => !r.kill && !r.info.forked)).length })

/-- Steps that cannot run again end NOT_ADOPTABLE (R336, R338, R341). -/
def State.notAdoptable (s : State) (l : Launch) (rs : List Redo) : State :=
  s.endRedos l.id rs notAdoptableReport

/-- The first group of steps that are to be adopted. -/
def Launch.firstAdopted (l : Launch) : Option (List Redo) := (l.redo.find? (fun r => !r.kill)).map (redoGroup l)

/-- The groups of steps that were killed, in the order in which they run again: ascending (R240, R241, R366). -/
def Launch.killedGroups (l : Launch) : List (List Redo) :=
  (sortBy (fun (a b : Redo) => a.info.stp ≤ b.info.stp) (l.redo.filter (·.kill))).foldl (fun o r =>
    if o.any (·.contains r) then o else o ++ [redoGroup l r]) []

/-- A step that was lost with its bulkhead may run on these cores (R396). -/
def Redo.mayUse (r : Redo) (e : List (List Nat)) : Bool :=
  match r.avoid with
  | some b => e.flatten.all (fun n => bulkheadOf n ≠ b)
  | none => true

/-- The first of the killed groups that has a place, and the instance it takes; or the instances that killed groups wait for. A step of a fork
runs on the first free instance. One whose log is still open keeps its place (R240, R241, R338, R366). -/
def State.nextKilled (s : State) (l : Launch) (es : List (List (List Nat))) :
    List (List Redo) → List Nat → (List Redo × List (List Nat)) ⊕ List Nat
  | [], seen => .inr seen
  | rs :: later, seen =>
    let g := (match rs with | r :: _ => r.info.stp | [] => 0) / l.per
    let forked := rs.any (fun (r : Redo) => r.info.forked)
    match s.spot l (torStatic l.words && !forked) (if forked then (es, 0) else l.listFor es g) seen with
    | .inr seen => s.nextKilled l es later seen
    | .inl e =>
      if rs.any (fun (r : Redo) => s.logOpen l.id r.info) then s.nextKilled l es later (sadd seen ((instCores e).headD 0)) else .inl (rs, e)

/-- ADOPTION (R336, R337, R341): on the first free instance of the list. A single step waits for one; a quad or a gang instance that finds none
ends NOT_ADOPTABLE. -/
def execAdoption (launch : Nat) (s : State) : Out :=
  match s.launch? launch with
  | none => .fault .noSuchEvent
  | some l => match l.firstAdopted with
    | none => .fault .noSuchEvent
    | some rs =>
      if rs.any (fun r => s.logOpen launch r.info) then .fault .noSuchEvent else
      let es := (s.instances l).filter (fun e => rs.all (·.mayUse e))
      if es.isEmpty || rs.any (fun r => r.info.unadoptable) then .next (s.notAdoptable l rs)
      else match es.find? (s.instFree l) with
        | some e => .next (s.redispatch l rs ((s.instances l).findIdx (fun y => y == e)) e (s.dispatchFrom l e))
        | none => if torCoupled l.words || 2 ≤ torRoles l.words then .next (s.notAdoptable l rs) else .fault .noSuchEvent

/-- A variant choice that applies from the present time on is still to come (R257, R383). -/
def Launch.choiceDue (l : Launch) (u : Nat) : Bool :=
  match l.bounds with
  | b :: _ => b.at_ + 64 ≤ u
  | [] => false

/-- A group of the launch that pre-emption captured waits to be resumed (R366). -/
def State.poolWaits (s : State) (l : Nat) : Bool := s.groups.any (fun g => g.launch = l && g.pool && g.phase = 1)

/-- STEP_DISPATCH (R240 to R243, R249, R336, R366): steps to be adopted and groups that were checkpointed go first; then the killed steps and
those that have not been dispatched, in their order, each as its place is free. -/
def execStepDispatch (launch : Nat) (s : State) : Out :=
  match s.launch? launch with
  | none => .fault .noSuchEvent
  | some l =>
    let es := s.instances l
    let due (e : List (List Nat)) : Bool := l.choiceDue (s.dispatchFrom l e)
    if l.phase ≠ 1 || l.firstAdopted.isSome || s.poolWaits launch then .fault .noSuchEvent
    else match s.nextKilled l es l.killedGroups [] with
      | .inl (rs, e) =>
        if due e then .fault .noSuchEvent else .next (s.redispatch l rs (es.findIdx (fun y => y == e)) e (s.dispatchFrom l e))
      | .inr seen => match s.nextGroup l es (l.groupCount - l.nextStep / l.per) (l.nextStep / l.per) seen with
        | none => .fault .noSuchEvent
        | some (g, j, e) => if due e then .fault .noSuchEvent else .next (s.dispatchGroup l g j e (s.dispatchFrom l e))

/-! ### Admission (R236, R244 to R249, R399, R418, R424) -/

/-- The rectangles that a record may take in a partition, first choice first (R248). -/
def places (p : Partition) (t : List Word) : List (Nat × Nat × Nat × Nat) :=
  let h := torHeight t
  let w := torWidth t
  let inside (r : Nat × Nat × Nat × Nat) : Bool :=
    2 * p.brow ≤ r.1 && r.1 + r.2.2.1 ≤ 2 * (p.brow + p.bheight) && 4 * p.bcol ≤ r.2.1 && r.2.1 + r.2.2.2 ≤ 4 * (p.bcol + p.bwidth)
  let all := if torAnchor t then [(torRow t, torCol t, h, w)]
    else (List.range 8).flatMap (fun row => (List.range 32).filterMap (fun col =>
      if torCoupled t && col % 4 ≠ 0 then none else some (row, col, h, w)))
  all.filter inside

/-- A rectangle may go to launch `l`: no core of it holds a step or belongs to another launch (R248, R366). -/
def State.rectFree (s : State) (l : Nat) (r : Nat × Nat × Nat × Nat) : Bool :=
  (rectOrder false r).all (fun p => let n := coreAt p.1 p.2; (s.core n).step.isNone && !s.claimed l n)

/-- The rectangles that a launch could ever take in its partition as it stands: its allowance is within the partition's limit and the
package's capacity, and the rectangle has an instance (R248, R249, R259, R424). DEDUCED: log 44. -/
def State.usable (s : State) (p : Partition) (l : Launch) : List (Nat × Nat × Nat × Nat) :=
  (places p l.words).filter (fun r => let x := { l with rect := some r }
    x.allowance ≤ p.params.leaveLimit && x.allowance ≤ s.capacity && !(s.instances x).isEmpty)

/-- A window's range on a core of the rectangle meets what the record places there (R399). -/
def State.windowClash (s : State) (t : List Word) (r : Nat × Nat × Nat × Nat) : Bool :=
  s.windows.any (fun w => w.isOpen && inRect r w.tcore &&
    (let a := 4096 * w.tbase
     let n := 4096 * (w.tlen + 1)
     meets a n (torBase t) (torCodeLen t) || meets a n (torSlim t) (torSbase t - torSlim t) ||
     (torRings t).any (fun x => meets a n x.2.1 x.2.2)))

/-- The words of 256 bytes. -/
def torWords (b : List Byte) : List Word := (List.range 32).map (fun k => BitVec.ofNat 64 (leVal ((b.drop (8 * k)).take 8)))

/-- The record cache takes a record; a full one loses the entry launched longest ago (R246). -/
def putRec (rs : List RecEnt) (e : RecEnt) : List RecEnt :=
  let rs := rs.filter (fun x => x.va != e.va)
  let rs := if rs.length < 64 then rs else
    let old := rs.foldl (fun m x => min m x.used) e.used
    rs.eraseP (fun x => x.used = old)
  rs ++ [e]

/-- A partition as a number of a launch's queue place: the higher priority first, and the earlier post within one (R252, R254). -/
def State.queueFirst (s : State) (p : Partition) (l : Launch) : Bool :=
  p.queue.all (fun k => match s.launch? k with
    | some x => x.id = l.id || x.target.isSome || x.prio < l.prio || (x.prio = l.prio && l.id < x.id)
    | none => true)

/-- A partition in capture mode still waits for what its steps have released: the increment that is sealed at the acceptance of a launch holds
it (R423). -/
def State.sealWaits (s : State) (p : Partition) : Bool := p.capture.isSome && s.rels.any (fun r => r.part = p.id && r.eff.global)

/-- Everything that the posting core released before has performed (R252); and for a partition in capture mode, whose increment is sealed at
acceptance, everything that its steps released (R423). -/
def State.mayRead (s : State) (l : Launch) : Bool :=
  !(s.part? l.part).any s.sealWaits &&
  match l.after with
  | none => true
  | some (n, id) => !s.rels.any (fun r => r.core = n && r.id < id)

/-- A partition's manifest, if it is locked, does not match a code image and a record (R418). -/
def Partition.bars (p : Partition) (code : List Byte) (words : List Word) : Bool :=
  p.locked.any (fun m => !manifestOk m code (words.flatMap (fun v => leBytes 8 v.toNat)))

/-- The latest device time at which a core that is free now has been left: what the control die has heard of it opens a rectangle (R381). -/
def State.freedAt (s : State) : Nat := s.cores.foldl (fun t c => if c.2.step.isNone then max t c.2.dt else t) 0

/-- A launch is accepted: its record is read, through the cache, and checked, and its preload is read (R236, R245, R246, R418). What
follows is the launch's end, or a launch with its record. -/
def State.acceptLaunch (s : State) (p : Partition) (l : Launch) : State :=
  let hit := p.recs.find? (fun e => e.va = l.tor)
  let (rd, s) := match hit with | some _ => (DieRead.bytes [], s) | none => s.fetchVa (launchPayer l.id) p.id 0 l.tor 256
  match s.failedRead rd with
  | some r => s.refuseLaunch l.id r
  | none =>
    let w := match hit with | some e => e.words | none => torWords rd.data
    let e : RecEnt := match hit with
      | some e => { e with used := s.nextId }
      | none => { va := l.tor, words := w, used := s.nextId, tau := ((0, 0), (0, 0)), variant := 0 }
    let s := ({ s with nextId := s.nextId + 1 }).captureLaunch p.id
    let s := s.updPart p.id (fun p => { p with recs := putRec p.recs e, serial := (p.serial + 1) % 2 ^ 32 })
    let tab := match l.origin with | .device .. => l.dtab | .host .. => p.dtab
    let s := s.updLaunch l.id (fun x => { x with words := w, serial := p.serial, dtab := tab, total := torSteps w, tau := e.tau, variant := e.variant })
    if !torOk w then s.refuseLaunch l.id (launchReport 0x10 0x16 1 l.tor)
    else
      let (pre, s) := s.fetchVa (launchPayer l.id) p.id 0 (torPre w) (torPreLen w)
      let code := s.readVa p.id 3 (torCode w) (torCodeLen w)
      match s.failedRead pre with
      | some r => s.refuseLaunch l.id r
      | none =>
        if p.locked.isNone then s.updLaunch l.id (fun x => { x with preload := pre.data })
        else match s.failedRead code with
          | some r => s.refuseLaunch l.id r
          | none =>
            if p.bars code.data w then s.refuseLaunch l.id (launchReport 0x30 0 1 l.tor)
            else s.updLaunch l.id (fun x => { x with preload := pre.data })

/-- An accepted launch takes its rectangle: the code image is read, and in a locked partition compared with the manifest, and the launch runs
(R244, R248, R418). -/
def State.takeIn (s : State) (l : Launch) (r : Nat × Nat × Nat × Nat) : State :=
  let (code, s) := s.fetchVa (launchPayer l.id) l.part 3 (torCode l.words) (torCodeLen l.words)
  match s.failedRead code with
  | some rep => s.refuseLaunch l.id rep
  | none =>
    if (s.part? l.part).any (fun p => p.bars code.data l.words) then s.refuseLaunch l.id (launchReport 0x30 0 1 l.tor) else
    let s := s.updLaunch l.id (fun x => { x with phase := 1, rect := some r, code := code.data, since := max x.since s.freedAt })
    s.updPart l.part (fun p => { p with queue := p.queue.filter (· != l.id) })

/-- What an accepted launch can do now. -/
inductive Admit where
  | refuse (r : Report)
  | wait
  | go (r : Nat × Nat × Nat × Nat)

/-- The leave of a rectangle's allowance is there (R322, R424). -/
def State.leaveFree (s : State) (p : Partition) (a : Nat) : Bool :=
  s.partLeave p.id + a ≤ p.params.leaveLimit && s.granted s.now + a ≤ s.capacity

/-- See `Admit` (R248, R249, R399, R424). -/
def State.admission (s : State) (p : Partition) (l : Launch) : Admit :=
  let us := s.usable p l
  if us.isEmpty then .refuse (launchReport 0x13 0 0 0)
  else match us.find? (s.rectFree l.id) with
    | none => .wait
    | some r =>
      if !s.leaveFree p ({ l with rect := some r } : Launch).allowance then .wait
      else if s.windowClash l.words r then .refuse (launchReport 0x10 0x16 1 l.tor)
      else .go r

/-- A launch that the walker may read now, or whose record it has read and which it may take in. -/
def State.admissible (s : State) (p : Partition) (l : Launch) : Bool :=
  l.phase = 0 && l.target.isNone && p.queue.contains l.id &&
  (if l.words.isEmpty then s.mayRead l
   else s.queueFirst p l && (match s.admission p l with | .wait => false | _ => true))

/-- LAUNCH_ADMISSION (R236, R244 to R249): the record is read and checked; once its rectangle, reservations and leave fit, the launch
at the head of its queue is admitted. -/
def execLaunchAdmission (launch : Nat) (s : State) : Out :=
  match s.launch? launch with
  | none => .fault .noSuchEvent
  | some l => match s.part? l.part with
    | none => .fault .noSuchEvent
    | some p =>
      if !s.admissible p l then .fault .noSuchEvent
      else
        let s := if l.words.isEmpty then s.acceptLaunch p l else s
        match s.launch? launch, s.part? l.part with
        | some l, some p =>
          if l.total = 0 then .next (s.finishLaunch launch)
          else if !s.queueFirst p l then .next s
          else match s.admission p l with
            | .refuse r => .next (s.refuseLaunch launch r)
            | .wait => .next s
            | .go r => .next (s.takeIn l r)
        | _, _ => .next s

/-! ### Completion and variants (R228, R253, R257, R324, R383) -/

/-- A launch's last means and variant go to its record cache entry (R257). One whose record was not read has none. -/
def State.keepTau (s : State) (l : Launch) : State :=
  if l.words.isEmpty then s else s.updPart l.part (fun p => { p with recs := p.recs.map (fun (e : RecEnt) =>
    if e.va = l.tor then { e with tau := measured l.tau l.sums, variant := l.variant } else e) })

/-- A launch is complete once its steps, its children, its effects and the choices of its boundaries are (R228, R253, R257, R324). Steps that no
core is left for are not run (R259, R342). -/
def State.launchDone (s : State) (l : Launch) : Bool :=
  l.phase = 1 && l.running.isEmpty && l.redo.all (fun r => r.info.forked) && l.children = 0 && l.suspended = 0 && l.bounds.isEmpty &&
  (!s.stepsLeft l || s.barren l) && !s.rels.any (fun r => r.launch = l.id)

/-- A launch some of whose steps no core is left for reports NOT_ADOPTABLE. DESIGN CHOICE: log 44. -/
def State.endReport (s : State) (l : Launch) : State :=
  if s.stepsLeft l then s.updLaunch l.id (fun x => { x with
    report := x.report.worse { notAdoptableReport with step := x.nextStep, time := s.now } }) else s

/-- LAUNCH_COMPLETE (R253, R324): of a launch, or of a resumed group that has run to its end. -/
def execLaunchComplete (launch : Nat) (s : State) : Out :=
  match s.launch? launch with
  | some l => if s.launchDone l then .next (((s.endReport l).keepTau l).finishLaunch launch) else .fault .noSuchEvent
  | none => match s.groups.find? (fun g => g.id = launch && g.phase = 2 && g.cores.isEmpty) with
    | some g => .next (s.finishGroup g g.report g.done)
    | none => .fault .noSuchEvent

/-- The prediction of R257 for share `q`, as a fraction over a common denominator. -/
def predict (n : Nat) (q : Nat) (t : (Nat × Nat) × (Nat × Nat)) (n0 n1 : Nat) : Nat :=
  let c0 := ceil256 n q
  let c1 := n - c0
  max (c0 * t.1.1 * (max t.2.2 1 * max n1 1)) (c1 * t.2.1 * (max t.1.2 1 * max n0 1))

/-- VARIANT_CHOICE (R257, R383): the variant of the lowest prediction is taken. From then on an order reaches a core 64 cycles after the
boundary or later. -/
def execVariantChoice (launch : Nat) (s : State) : Out :=
  match s.launch? launch with
  | none => .fault .noSuchEvent
  | some l => match l.bounds with
    | [] => .fault .noSuchEvent
    | bd :: later =>
      let es := s.instances l
      let d (k : Nat) : Nat := (es.filter (fun e => instDie e = k)).length
      let t := bd.tau
      let v := (List.range (torVariants l.words)).foldl (fun (b : Option (Nat × Nat)) v =>
        let x := predict bd.rest (torShare l.words v) t (d 0) (d 1)
        match b with
        | none => some (v, x)
        | some (w, y) => if x < y then some (v, x) else some (w, y)) none
      let s := { s with now := max s.now (bd.at_ + 34) }
      .next (s.updLaunch launch (fun x => { x with
        bounds := later
        variant := if (l.share es).isNone || (t.1.2 = 0 && t.2.2 = 0) then x.variant else match v with | some w => w.1 | none => x.variant }))

/-! ### Pre-emption (R364 to R366, R378) -/

/-- A slot of the partition's continuation pool that no captured group uses (R365, R415). -/
def State.freePool (s : State) (p : Partition) : Option Nat :=
  ((List.range p.params.poolCount).map (fun k => p.params.poolBase + k * p.params.poolSlot)).find? (fun a =>
    !s.groups.any (fun g => g.part = p.id && g.pool && g.addr = a && g.phase < 2))

/-- The victims that cover a rectangle for launch `l`, with the cores that they hold and those on which their resumed groups run, lowest priority
first and the latest started first (R364, R373); none if they cannot. -/
def State.victims (s : State) (l : Launch) (r : Nat × Nat × Nat × Nat) : Option (List Launch) :=
  let before (a b : Launch) : Bool := a.prio < b.prio || (a.prio = b.prio && b.startAt.getD 0 ≤ a.startAt.getD 0)
  let vs := sortBy before (s.launches.filter (fun x => x.phase = 1 && x.part = l.part && x.prio < l.prio && x.startAt.isSome))
  let open_ (ts : List Launch) : Bool := (rectOrder false r).all (fun p => let n := coreAt p.1 p.2
    ts.any (fun x => s.holds x n || (s.core n).step.any (fun i => i.launch = x.id && !i.forked)) ||
      ((s.core n).step.isNone && !s.claimed l.id n))
  ((List.range (vs.length + 1)).map (fun k => vs.take k)).find? open_

/-- The rectangle that a blocked launch pre-empts for. -/
def State.preemptPlan (s : State) (p : Partition) (l : Launch) : Option ((Nat × Nat × Nat × Nat) × List Launch) :=
  (s.usable p l).findSome? (fun r => match s.victims l r with
    | some (v :: vs) => some (r, v :: vs)
    | _ => none)

/-- A launch may pre-empt now: it could be admitted, but can obtain no rectangle (R364). -/
def State.mayPreempt (s : State) (p : Partition) (l : Launch) : Bool :=
  l.phase = 0 && !l.words.isEmpty && l.target.isNone && p.queue.contains l.id && s.queueFirst p l && p.tokens ≠ 0 &&
  !s.launches.any (fun x => x.lent.any (fun y => y.2 = l.id)) &&
  !(s.usable p l).any (s.rectFree l.id) && (s.preemptPlan p l).isSome

/-- The decision of R365 on one group, and its start: 0 DRAIN, 1 KILL, 2 CHECKPOINT. DESIGN CHOICE: log 42. An instance of a coupled gang,
which no object can hold, is not checkpointed. -/
def State.decide (s : State) (p : Partition) (cs : List Nat) : Nat × State :=
  let infos := cs.filterMap (fun n => (s.core n).step)
  let r := infos.foldl (fun m i => max m (i.estimate s.now)) 0
  let e := infos.foldl (fun (m : Option Nat) i => match m with
    | none => some (s.now - max i.started i.resumed)
    | some x => some (min x (s.now - max i.started i.resumed))) none
  let ok := infos.all (fun i => !i.unadoptable)
  if r ≤ p.params.td then (0, s)
  else if e.getD 0 ≤ p.params.tk && ok then
    (1, cs.foldl (fun s n => s.updCore n (fun c => match c.doom with
      | none => { c with doom := some ⟨c.opn.id, true, c.clock, {}, 3⟩ }
      | some d => { c with doom := some { d with retire := true, why := 3 } })) s)
  else if 4 < cs.length then (0, s)
  else match s.freePool p with
    | some a => (2, s.suspendGroup (cs.headD 0) (s.now + 64) a 0 true false)
    | none => (0, s)

/-- PREEMPTION (R364 to R366, R378, R423). Each core of the rectangle is the newcomer's from the decision on (log 35). -/
def execPreemption (launch : Nat) (s : State) : Out :=
  match s.launch? launch with
  | none => .fault .noSuchEvent
  | some l => match s.part? l.part with
    | none => .fault .noSuchEvent
    | some p =>
      if !s.mayPreempt p l then .fault .noSuchEvent
      else match s.preemptPlan p l with
        | none => .fault .noSuchEvent
        | some (r, vs) =>
          let ids := vs.map (·.id)
          let s := s.updPart p.id (fun p => { p with
            tokens := p.tokens - 1, tokenAt := if p.params.tokenDepth ≤ p.tokens then s.now + p.params.tokenRate else p.tokenAt })
          let cells := (rectOrder false r).map (fun q => coreAt q.1 q.2)
          let s := { s with launches := s.launches.map (fun (x : Launch) =>
            if ids.contains x.id then { x with lent := x.lent ++ cells.map (fun n => (n, launch)) } else x) }
          let heads := cells.filter (fun n => match (s.core n).step with
            | some i => ids.contains i.launch && (s.unitOf n).all (fun m => !cells.contains m || n ≤ m)
            | none => false)
          .next (heads.foldl (fun s n =>
            let d := s.decide p (s.unitOf n)
            d.2.capture p.id 4 n d.1) s)

/-- TOKEN_REFILL (R364). -/
def execTokenRefill (part : Nat) (s : State) : Out :=
  match s.part? part with
  | none => .fault .noSuchEvent
  | some p =>
    if p.params.tokenDepth ≤ p.tokens then .fault .noSuchEvent
    else
      let t := max s.now p.tokenAt
      .next ({ s with now := t }.updPart part (fun p => { p with tokens := p.tokens + 1, tokenAt := p.tokenAt + p.params.tokenRate }))

/-! ### Timed launches (R386) -/

/-- PTP time at a device time, in units of 2^-16 ns (R384). -/
def Ptp.at (p : Ptp) (t : Nat) : Nat := p.p0 + (t - p.d0) * p.rate / 2 ^ 24

/-- The smallest device time with PTP time at least `x` (R386). -/
def Ptp.reach (p : Ptp) (x : Nat) : Nat :=
  if x ≤ p.p0 then p.d0 else p.d0 + ((x - p.p0) * 2 ^ 24 + max p.rate 1 - 1) / max p.rate 1

/-- After a re-anchoring the target times of timed launches are computed again (R386). -/
def State.retarget (s : State) : State :=
  { s with launches := s.launches.map (fun (l : Launch) => match l.target with
      | some (x, _) => if l.phase = 0 then { l with target := some (x, s.ptp.reach x) } else l
      | none => l) }

/-- TIMED_LAUNCH_HOLD (R386): the rectangle is fixed and takes no other launch's new steps. -/
def execTimedLaunchHold (launch : Nat) (s : State) : Out :=
  match s.launch? launch with
  | none => .fault .noSuchEvent
  | some l => match l.target, s.part? l.part with
    | some (_, d), some p =>
      if l.phase ≠ 0 || l.hold || l.words.isEmpty then .fault .noSuchEvent
      else
        let us := s.usable p l
        let r := match us.find? (s.rectFree launch) with | some r => some r | none => us.head?
        .next ({ s with now := max s.now (d - 2 ^ 20) }.updLaunch launch (fun x => { x with hold := true, rect := r }))
    | _, _ => .fault .noSuchEvent

/-- TIMED_LAUNCH_START (R386): at d the launch takes its rectangle, if it is wholly free, and step 0 is dispatched. One whose allowance the
governor cannot make at d is refused too (R424). DESIGN CHOICE: log 44. -/
def execTimedLaunchStart (launch : Nat) (s : State) : Out :=
  match s.launch? launch with
  | none => .fault .noSuchEvent
  | some l => match l.target, l.rect with
    | some (_, d), some r =>
      if l.phase ≠ 0 || !l.hold then .fault .noSuchEvent
      else
        let u := max s.now d
        let s := { s with now := u }
        let cells := (rectOrder false r).map (fun q => coreAt q.1 q.2)
        if cells.any (fun n => !s.inService n || (s.core n).step.isSome) || s.capacity < s.granted u + l.allowance then
          .next (s.refuseLaunch launch (launchReport 0x13 0 0 0))
        else if s.windowClash l.words r then .next (s.refuseLaunch launch (launchReport 0x10 0x16 1 l.tor))
        else
          let s := { s with launches := s.launches.map (fun (x : Launch) =>
            if x.id = launch then x else { x with lent := x.lent ++ (cells.filter (s.holds x)).map (fun n => (n, launch)) }) }
          let s := (s.takeIn l r).updLaunch launch (fun x => { x with hold := false })
          match s.launch? launch with
          | none => .next s
          | some l =>
            let es := s.instances l
            if l.total = 0 then .next (s.finishLaunch launch)
            else match s.nextGroup l es 1 0 [] with
              | some (g, j, e) => .next (s.dispatchGroup l g j e u)
              | none => .next (s.refuseLaunch launch (launchReport 0x13 0 0 0))
    | some _, none => .next (s.refuseLaunch launch (launchReport 0x13 0 0 0))
    | _, _ => .fault .noSuchEvent

end Sys2Proof.Machine
end

