-- ==== Sys2Proof/Machine/Arrivals.lean ====
section
/-! DEFINITION. Guarded arrivals and the governor's answers to ASK (R40, R42, R46, R323, R359, R381, R424). -/
namespace Sys2Proof.Machine

/-! ### The governor (R323, R424) -/

/-- The requests that wait for an answer: leave class, identifier, core. -/
def State.asks (s : State) : List (Nat × Nat × Nat) :=
  s.cores.flatMap (fun x => (x.2.awaits.filter (fun w => (match w.kind with | .ask .. => true | _ => false) && w.ready.isNone)).map
    (fun w => ((match x.2.step with | some i => i.lclass | none => 0), w.id, x.1)))

/-- The request is the next that the governor serves: the higher leave class first, the older first within a class. -/
def State.askNext (s : State) (id : Nat) : Bool :=
  match s.asks.find? (fun a => a.2.1 = id) with
  | none => false
  | some a => s.asks.all (fun b => b.1 < a.1 || (b.1 = a.1 && a.2.1 ≤ b.2.1))

/-- The answer to a request at device time `w`: the value, and the core and the state that it leaves; none while the units cannot be
kept available (R323). Every earlier grant ends at the new one's start, if not before. How late a grant starts beyond `w` is a free value. DESIGN CHOICE: log 5. -/
def State.askAnswer (s : State) (n a b w : Nat) : Option (Word × State) :=
  let c := s.core n
  let limit := match c.step.bind (fun i => s.part? i.part) with | some p => p.params.coreLeaveLimit | none => 0
  if a = 0 || b = 0 then some (0, s.setCore n { c with asked := [] })
  else if limit < a then some (BitVec.allOnes 64, s)
  else if s.capacity < s.granted w - c.askedUnits w + a then none
  else
    let st := w + Config.askSlack s.free
    let old := (c.asked.map (fun (g : Nat × Nat × Nat) => (g.1, g.2.1, min g.2.2 st))).filter (fun g => max w g.2.1 < g.2.2)
    some (BitVec.ofNat 64 st, { s with free := s.free + 1 }.setCore n { c with asked := (a, st, st + b) :: old })

/-! ### GUARDED_ARRIVAL (R42, R46, R359) -/

/-- An arrival at its core: the destination takes the value and is full, in the live state and in the snapshots of later regions; in
trap mode, for an operation older than the trap, also in the save area. No arrival names s31 (R283, R295, R323). -/
def State.arriveAt (s : State) (n : Nat) (w : Await) (b : Brought) : State :=
  let c := s.core n
  let atom := match w.kind with | .atom _ => true | _ => false
  let c1 := { c with awaits := c.awaits.filter (fun x => x.id != w.id) }
  let c2 := c1.updArch w.rgn (fun a => a.arrive atom w.id b)
  { s with now := max s.now w.since }.setCore n (match c.trap with
    | some k => if w.id < k.id0 && c2.arch != c.arch then c2.image k.area b else c2
    | none => c2)

/-- What is there to arrive, with the state that an answer of the governor leaves. -/
def State.arrival (s : State) (n : Nat) (w : Await) : Option (Brought × State) :=
  match w.kind with
  | .ask d a b u =>
    if !s.askNext w.id then none else
    let at_ := max s.now (u + 60)
    (s.askAnswer n a b at_).map (fun (r : Word × State) => (Brought.scalar d r.1 false, { r.2 with now := at_ }))
  | _ => w.brings.map (fun (b : Brought) => (b, s))

/-- GUARDED_ARRIVAL (R42, R46, R284, R289, R297, R323, R359). -/
def execGuardedArrival (core id : Nat) (s : State) : Out :=
  match (s.core core).awaits.find? (fun w => w.id = id) with
  | none => .fault .noSuchEvent
  | some w => match s.arrival core w with
    | none => .fault .noSuchEvent
    | some (b, s) => .next (s.arriveAt core w b)

end Sys2Proof.Machine
end

