-- ==== Sys2Proof/Machine/Errors.lean ====
section
/-! DEFINITION. Upsets, scrubbing, link retries, the loss of a die and bulkhead resets (R19, R24, R144, R263, R265, R267, R333, R342,
R343, R349 to R353, R396, R400). -/
namespace Sys2Proof.Machine

/-! ### SOFT_ERROR (R353) -/

/-- The number of bits that a mask flips. -/
def flips (m : Nat) : Nat := ((List.range 64).filter m.testBit).length

/-- Flips bits of the 8-byte word `k` of a memory. -/
def flipWord (m : List Host.Cell) (k : Nat) (flip : Word) : List Host.Cell :=
  Memory.write m (8 * k) (((Memory.read m (8 * k) 8).zip (leBytes 8 flip.toNat)).map (fun b => b.1 ^^^ b.2))

/-- What an upset of a SECDED word leaves: (bytes, words with one flipped bit, uncorrectable words). One flipped bit is corrected when
it is found, so the bytes stay; a second one makes the word uncorrectable (R144, R267). -/
def strike (m : List Host.Cell) (ce ue : List Nat) (k : Nat) (flip : Word) : List Host.Cell × List Nat × List Nat :=
  if flip = 0 then (m, ce, ue)
  else if flips flip.toNat = 1 && !ce.contains k && !ue.contains k then (m, sadd ce k, ue)
  else (flipWord m k flip, ce.filter (· != k), sadd ue k)

/-- SOFT_ERROR (R353, R325): an upset flips stored bits; a detector or a read finds it later. -/
def execSoftError (u : Upset) (s : State) : Out :=
  match u with
  | .spad n a flip =>
    let c := s.core n
    let x := strike c.spad c.ce c.ue (a / 8) flip
    .next (s.setCore n { c with spad := x.1, ce := x.2.1, ue := x.2.2 })
  | .cell n row col flip =>
    let c := s.core n
    let k := row * 65 + col
    let hit (b : List (Nat × ACell)) : List (Nat × ACell) :=
      let x := (mget b k).getD {}
      mput b k { x with bits := x.bits ^^^ flip }
    .next (s.setCore n (if (mget c.accOwn row).isSome then { c with accP := hit c.accP } else { c with accC := hit c.accC }))
  | .mem pa flip =>
    let x := strike s.mem s.memCe s.memUe (pa / 8) flip
    .next { s with mem := x.1, memCe := x.2.1, memUe := x.2.2, cacheErr := if flip = 0 then s.cacheErr else s.cacheErr.filter (· != pa / 8) }
  | .cache pa flip =>
    if (homeDie pa).isNone || flip = 0 then .next s
    else
      let x := strike s.mem s.memCe s.memUe (pa / 8) flip
      .next { s with mem := x.1, memCe := x.2.1, memUe := x.2.2, cacheErr := sadd s.cacheErr (pa / 8) }
  | .held n id word flip =>
    if flip = 0 then .next s
    else .next (s.updCore n (fun c => { c with held := c.held.map (fun (h : Held) =>
      if h.id != id then h
      else if flips flip.toNat = 1 && !h.ce.contains word && !h.ue.contains word then { h with ce := sadd h.ce word }
      else { h with ce := h.ce.filter (· != word), ue := sadd h.ue word }) }))
  | .snapshot n rgn =>
    let c := s.core n
    match c.step with
    | none => .next s
    | some i =>
      if c.opn.id = rgn then
        let r : Report := { snapReport c.opn with core := n, step := i.stp, time := c.dt }
        .next (s.setCore n { c with doom := some (match c.doom with
          | some d => if d.rgn < rgn then d else { d with retire := true, why := 1, rep := r }
          | none => ⟨rgn, true, c.clock, r, 1⟩) })
      else .next (s.setCore n { c with closing := c.closing.map (fun (q : Region) => if q.id = rgn then { q with snapBad := true } else q) })
  | .named n r lane flip =>
    .next (s.updCore n (fun c =>
      let a := { c.arch with struck := r :: c.arch.struck.filter (· != r) }
      { c with arch := match r with
        | .s d => if h : d < 32 then { a with s := a.s.set d { a.s[d] with val := a.s[d].val ^^^ flip } } else a
        | .v d => if h : d < 32 then { a with v := a.v.set d { a.v[d] with
            lanes := a.v[d].lanes.setIfInBounds lane ((a.v[d].lanes.toList).getD lane 0 ^^^ flip.truncate 32) } } else a
        | _ => a }))
  | .l1 n pa flip =>
    if flip = 0 then .next s
    else
      let s := s.logEvent ⟨1, n, 15, pa / 8 * 8, s.now, 0, 0⟩
      if flips flip.toNat = 1 then .next s
      else .next (s.updCore n (fun c => { c with l1 := c.l1.filter (fun l => l.pa != pa / 64 * 64) }))
  | .control a flip => .next (if flip = 0 then s else s.logEvent ⟨1, 0, 9, a, s.now, 0, 0⟩)

/-! ### Scrubbing (R350, R351) -/

/-- The rows of a unit: 0 to 7 HBM stacks, 8 and 9 memory-side caches. -/
def unitRows (u : Nat) : Nat := if u < 8 then 0x900000000 / 1024 else 0x2000000 / 512

/-- Visits one row of a unit: single-bit errors are corrected; any error found is logged, and whether there was one (R349, R350). -/
def State.visit (s : State) (u m : Nat) : Bool × State :=
  let fixed := s.memCe.filter (fun w => s.unitRow w = some (u, m))
  let found := fixed ++ s.memUe.filter (fun w => s.unitRow w = some (u, m))
  let t := found.foldl (fun t w => t.countFix none (s.memReport w)) s
  (!found.isEmpty, { t with memCe := t.memCe.filter (fun w => !fixed.contains w), cacheErr := t.cacheErr.filter (fun w => !fixed.contains w) })

/-- The device cycles between two visits of a unit (R350). -/
def State.scrubStep (s : State) (u : Nat) : Nat := max 1 ((if u < 8 then s.scrubHbm else s.scrubCache) / unitRows u)

/-- SCRUB_VISIT (R350): the next row of a unit. A part of a pass that ends makes the amber rows due. -/
def execScrubVisit (unit : Nat) (s : State) : Out :=
  let x := (mget s.scrubs unit).getD {}
  if 10 ≤ unit || x.amberDue then .fault .noSuchEvent
  else
    let n := unitRows unit
    let m := if unit < 8 then 1024 * x.pos + unit % 4 * 0x900000000 else 512 * x.pos
    let v := ({ s with now := max s.now (x.last + s.scrubStep unit) }).visit unit m
    let y := (mget v.2.scrubs unit).getD {}
    let y := if v.1 then { y with amber := amberEnter (amberCap unit) m y.amber } else y
    let pos := (x.pos + 1) % n
    .next { v.2 with scrubs := mput v.2.scrubs unit { y with
      pos := pos, last := x.last + s.scrubStep unit, amberDue := (x.pos + 1) * 16 / n ≠ x.pos * 16 / n } }

/-- AMBER_VISIT (R351): every amber row of a unit. -/
def execAmberVisit (unit : Nat) (s : State) : Out :=
  let x := (mget s.scrubs unit).getD {}
  if !x.amberDue then .fault .noSuchEvent
  else
    let r := x.amber.foldl (fun (o : List Amber × State) a =>
      let v := o.2.visit unit a.addr
      (o.1 ++ (if v.1 then [{ a with clean := 0 }] else if 16 ≤ a.clean + 1 then [] else [{ a with clean := a.clean + 1 }]), v.2)) ([], s)
    .next { r.2 with scrubs := mput r.2.scrubs unit { x with amber := r.1, amberDue := false } }

/-! ### Links and dies (R19, R24, R342, R343, R349) -/

/-- LINK_RETRY (R19, R349): a retry that succeeds changes no value and no order; it is logged. -/
def execLinkRetry (link : Nat) (s : State) : Out := .next (s.logEvent ⟨2, 0, 8, link, s.now, 0, 0⟩)

/-- More than 32 cores of a die stand retired (R342). -/
def State.dieWorn (s : State) (d : Nat) : Bool := 32 < (s.retired.filter (fun n => dieOf n = d)).length

/-- The cores that hold a step and satisfy `p`. -/
def State.stepCores (s : State) (p : Nat → Bool) : List Nat := (s.cores.filter (fun x => p x.1 && x.2.step.isSome)).map (·.1)

/-- Steps to run again that have nowhere to go end DIE_LOST (R342). -/
def State.endRedo (s : State) (p : Launch → Bool) : State :=
  (s.launches.filter p).foldl (fun s l => s.endRedos l.id l.redo { cls := 0x21, engine := 8, level := 1 }) s

/-- The cores of a die, or of a bulkhead, with nothing in them. -/
def State.clearCores (s : State) (p : Nat → Bool) : State :=
  { s with cores := s.cores.map (fun (x : Nat × Core) => if p x.1 then (x.1, { dt := x.2.dt }) else x)
           walks := s.walks.filter (fun w => !p w.core) }

/-- The die that is lost when the link between the compute dies exhausts its retries: the one with more retired cores, die 1 on a tie
(R342). -/
def State.weakDie (s : State) : Nat :=
  if (s.retired.filter (fun n => dieOf n = 1)).length < (s.retired.filter (fun n => dieOf n = 0)).length then 0 else 1

/-- DIE_LOSS (R342, R343, R400): a given die is lost, or the link between the compute dies. The die is fenced; its steps, and those of its
retired cores that wait to be adopted, are adopted on the other die or end with DIE_LOST (R354). A die that is lost already changes nothing. -/
def execDieLoss (die : Option Nat) (s : State) : Out :=
  let (die, gone) := match die with
    | some d => (d, decide (2 ≤ d) || s.deadDies.contains d)
    | none => (s.weakDie, !s.deadDies.isEmpty)
  if gone then .next s
  else
    let on (n : Nat) : Bool := dieOf n = die
    let s := { s with deadDies := sadd s.deadDies die }
    let s := (s.cores.filter (fun x => on x.1)).foldl (fun s x => s.closeWindowsInto x.1) s
    let rep : Report := { cls := 4, engine := 8, level := 1, addrk := 0, core := 128 * die, time := s.now }
    let s := (s.stepCores on).foldl (fun s n => s.captureOn n rep) s
    let s := (s.stepCores on).foldl (fun s n => if (s.core n).step.isSome then s.handOverAll n false true rep else s) s
    let s := s.clearCores on
    let s := { s with launches := s.launches.map (fun (l : Launch) => { l with redo := l.redo.map (fun (r : Redo) =>
      if on r.core && !r.kill then { r with info := { r.info with failedOver := true } } else r) }) }
    .next (s.endRedo (fun l => (s.instances l).isEmpty))

/-- CONTROL_DIE_LOSS (R24, R352): the package ends, and reports it over the host link: with class DIE_LOST and the last entry of the event log.
DESIGN CHOICE: log 49. -/
def execControlDieLoss (s : State) : Out :=
  let e : LogEntry := ⟨1, 0, 9, 0, s.now, 0, 0⟩
  .next { (s.logEvent e).result 0x21 e.bytes with life := .ended }

/-! ### Bulkheads (R396, R400) -/

/-- The steps that wait to run again in `s`, and did not in `old`, are adopted outside a bulkhead (R396). -/
def State.avoidBulkhead (s old : State) (bulkhead : Nat) : State :=
  { s with launches := s.launches.map (fun (l : Launch) =>
      let before := match old.launch? l.id with | some x => x.redo | none => []
      { l with redo := l.redo.map (fun r => if before.contains r then r else { r with avoid := some bulkhead }) }) }

/-- BULKHEAD_RESET (R396, R400): ordered, its steps end KILLED; after a failure they are adopted elsewhere. One that is ordered while the
bulkhead is out of service begins the reset anew. The package has 32 bulkheads (R14); a number beyond names none. -/
def execBulkheadReset (bulkhead : Nat) (ordered : Bool) (s : State) : Out :=
  if 32 ≤ bulkhead then .next s
  else
    let on (n : Nat) : Bool := bulkheadOf n = bulkhead
    let s := { s with offline := s.offline.filter (fun (o : Nat × Nat) => o.1 != bulkhead) ++ [(bulkhead, s.now + 38000)] }
    let s := (s.cores.filter (fun x => on x.1)).foldl (fun s x => s.closeWindowsInto x.1) s
    let s := (s.stepCores on).foldl (fun s n =>
      if (s.core n).step.isNone then s
      else if ordered then (s.discardFrom n 0).endStep n { cls := 0x12, engine := 15, level := 3, addrk := 0 }
      else ((s.captureOn n { engine := 9, level := 2 }).handOverAll n false false { cls := 3, engine := 9, level := 2, addrk := 0, core := n, time := s.now }).avoidBulkhead s bulkhead) s
    .next (s.clearCores on)

/-- BULKHEAD_RETURN (R396): its cores return to service, their stores zero. -/
def execBulkheadReturn (bulkhead : Nat) (s : State) : Out :=
  match s.offline.find? (fun o => o.1 = bulkhead) with
  | none => .fault .noSuchEvent
  | some o =>
    let s := { s with now := max s.now o.2, offline := s.offline.filter (fun x => x.1 != bulkhead) }
    .next (s.clearCores (fun n => bulkheadOf n = bulkhead))

end Sys2Proof.Machine
end

