-- ==== Sys2Proof/Machine/Power.lean ====
section
/-! DEFINITION. PTP time, the clock, power fail and package reset (R380, R382, R384, R385, R421, R422, R425). -/
namespace Sys2Proof.Machine

/-! ### PTP and the clock (R382, R384, R385, R425) -/

/-- The nominal rate of the clock in force, in 2^-40 ns per device cycle (R384, R385). -/
def nominalRate (derated : Bool) : Nat := if derated then 0xA000000000 else 578690330408

/-- A rate lies within ±200 ppm of the nominal rate (R385). -/
def rateOk (derated : Bool) (rate : Nat) : Bool :=
  let n := nominalRate derated
  (max rate n - min rate n) * 1000000 ≤ 200 * n

/-- Re-anchors at the present device time with a rate: the mapping stays continuous; timed launches get new target times (R384 to
R386, R423). -/
def State.reanchor (s : State) (rate : Nat) : State :=
  let p := s.ptp
  let s := { s with ptp := { p with d0 := s.now, p0 := p.at s.now, rate := rate, seq := p.seq + 1 } }.retarget
  let x := p.at s.now % 2 ^ 80 + rate * 2 ^ 80
  s.parts.foldl (fun s q => s.capture q.id 2 (x % 2 ^ 64) (x / 2 ^ 64)) s

/-- The servo error in ns, the sample less the mapped time, both in 2^-16 ns (R384). -/
def servoErr (host mapped : Nat) : Int := ((host : Int) - mapped) / 65536

/-- PTP_SAMPLE (R385): the host's clock `host` in 2^-16 ns, and the rate that the control die takes, if it lies within its bounds. -/
def execPtpSample (host rate : Nat) (s : State) : Out :=
  let t := max s.now s.ptp.nextAt
  let s := { s with now := t }
  let e := servoErr host (s.ptp.at t)
  let good := if e.natAbs < 100 then s.ptp.good + 1 else 0
  let s := { s with ptp := { s.ptp with err := BitVec.ofInt 32 e, good := good, nextAt := t + s.ptpInterval, lock := s.ptp.lock || 4 ≤ good } }
  .next (if rateOk s.derated rate then s.reanchor rate else s)

/-- The device time at which the fourth interval without a sample ends (R385). -/
def State.lockLossAt (s : State) : Nat := s.ptp.nextAt + 3 * s.ptpInterval

/-- PTP_LOCK_LOSS (R385). -/
def execPtpLockLoss (s : State) : Out :=
  if !s.ptp.lock then .fault .noSuchEvent
  else
    let s := { s with now := max s.now s.lockLossAt }
    .next { s with ptp := { s.ptp with lock := false, good := 0 } }

/-- CLOCK_SWITCH (R382, R385): at D_s the clock changes and the control die re-anchors at its nominal rate. -/
def execClockSwitch (s : State) : Out :=
  match s.clockAt with
  | none => .fault .noSuchEvent
  | some (t, d) => .next ({ s with now := max s.now t, derated := d, clockAt := none }.reanchor (nominalRate d))

/-- Chooses D_s, 1,024 device cycles from now or more (R382). DESIGN CHOICE: log 5. -/
def State.planClock (s : State) (d : Bool) : State :=
  { s with clockAt := some (s.now + 1024 + Config.clockSlack s.free, d), free := s.free + 1 }

/-- THERMAL_DERATE (R425). -/
def execThermalDerate (s : State) : Out :=
  let goes : Bool := match s.clockAt with | some (_, d) => d | none => s.derated
  let s := { s with hotAt := some s.now }
  .next (if goes then s else s.planClock true)

/-- The device time from which the clock may return (R425). -/
def State.coolAt (s : State) : Nat := s.hotAt.getD 0 + 2 ^ 24

/-- CLOCK_RESTORE (R425). A clock that is not derated, or is about to change, stays as it is. -/
def execClockRestore (s : State) : Out :=
  if !s.derated || s.clockAt.isSome then .next s
  else .next ({ s with now := max s.now s.coolAt }.planClock false)

/-! ### Power fail (R421, R422) -/

/-- A core whose oldest closing region is clean, has no landing to come and closes within 48 stream cycles (R421). -/
def Core.nearlyClosed (c : Core) : Bool :=
  match c.closing with
  | [] => false
  | r :: _ => c.doom.isNone && !r.snapBad && c.closeCycle ≤ c.stream + 48 && !c.flights.any (fun f => f.rgn = r.id && !f.evs.isEmpty)

/-- Lets the regions close that are within 48 stream cycles of it, in a coupled quad together; one that waits for a checkpoint's copy of a page
is not among them (R216, R272, R421). -/
def State.lastClosings (s : State) : Nat → Nat → State
  | 0, _ => s
  | fuel + 1, n =>
    let g := s.gangOf n
    if g.all (fun m => (s.core m).nearlyClosed && (s.ckPage m).isNone) && s.quadClose n ≤ (s.core n).stream + 48 then
      (g.foldl (fun s m => s.closeOne m (max (s.core m).stream (s.quadClose n))) s).lastClosings fuel n
    else s

/-- Freezes core `n` at the present device time or where it stands, its other open and closing regions discarded; no replay is counted
(R421). -/
def State.freezeOff (s : State) (n : Nat) : State :=
  let c := s.core n
  let q := match c.closing with | [] => c.opn | r :: _ => r
  let s := s.replayOne n q.id (max c.dt s.now)
  s.updCore n (fun c => { c with
    frozen := true, opn := { c.opn with rcnt := q.rcnt }, step := c.step.map (fun i => { i with replays := i.replays - 1 }) })

/-- The power-fail area of a partition, host bus address and size: the first two 8-byte words of its configuration block. DESIGN
CHOICE: log 8. -/
def Partition.failArea (p : Partition) : Nat × Nat := (leVal (p.cfg.take 8), leVal ((p.cfg.drop 8).take 8))

/-- The bytes of a power-fail area that one core of a group takes. DESIGN CHOICE: log 8. -/
def failSlot : Nat := 0x400000

/-- The bytes of a partition's area that groups take already. -/
def State.failUsed (s : State) (p : Nat) : Nat :=
  ((s.groups.filter (fun g => g.pfail && g.part = p)).map (fun g => failSlot * g.cores.length)).sum

/-- KILLED, as the control die reports it. -/
def killedReport : Report := { cls := 0x12, engine := 15, level := 3, addrk := 0 }

/-- Captures the group of core `n` into its partition's power-fail area, or ends it KILLED (R421). -/
def State.failGroup (s : State) (n : Nat) : State :=
  match (s.core n).step with
  | none => s
  | some i =>
    let cs := s.groupOf n
    if s.groups.any (fun g => g.pfail && g.cores.contains n) then s else
    match s.part? i.part with
    | none => cs.foldl (fun s m => s.endStep m killedReport) s
    | some p =>
      let a := p.failArea
      let used := s.failUsed i.part
      if a.2 < used + failSlot * cs.length then cs.foldl (fun s m => s.endStep m killedReport) s
      else s.suspendGroup n s.now (a.1 + used) 0 false true

/-- The two banks with the older one made ready for a manifest; what it says of the queues is written last (R422). -/
def State.newManifest (s : State) : State :=
  let (a, b) := s.banks
  let seqOf (m : Manifest) : Nat := if m.valid then m.seq else 0
  let m : Manifest := { seq := max (seqOf a) (seqOf b) + 1, time := s.now, entries := [], valid := false, queues := [] }
  { s with banks := if seqOf a ≤ seqOf b then (m, b) else (a, m) }

/-- Starts PFAIL (R421). -/
def State.startPfail (s : State) : State :=
  let on := s.stepCores (fun _ => true)
  let s := on.foldl (fun s n => s.updCore n (fun c => match c.trap with | some k => c.leaveTrap k c.dt [] | none => c)) s
  let s := on.foldl (fun s n => s.runTo n s.now) s
  let s := on.foldl (fun s n => s.lastClosings 64 n) s
  let s := (s.stepCores (fun _ => true)).foldl (fun s n => s.freezeOff n) s
  let s := { s with groups := s.groups.filter (fun g => g.phase ≠ 0), life := .pfail s.now }.newManifest
  (s.stepCores (fun _ => true)).foldl (fun s n => s.failGroup n) s

/-- PFAIL (R421, R422). One that is under way runs to its end. -/
def execPfail (s : State) : Out := .next (if s.life = .running then s.startPfail else s)

/-- OVERTEMPERATURE (R425): the management event log gets an entry and PFAIL starts, if it is not under way. -/
def execOvertemperature (s : State) : Out :=
  .next (if s.life = .running then (s.logEvent ⟨3, 0, 9, 0, s.now, 0, 0⟩).startPfail else s)

/-- Device cycles in a number of milliseconds at the clock in force (R4, R382). -/
def State.cyclesOf (s : State) (ms : Nat) : Nat := ms * (if s.derated then 1600000 else 1900000)

/-- PFAIL_CAPTURE_TIMEOUT (R421): what has not been captured by 18 ms ends KILLED. -/
def execPfailCaptureTimeout (s : State) : Out :=
  match s.life with
  | .pfail t =>
    let s := { s with now := max s.now (t + s.cyclesOf 18) }
    let s := (s.stepCores (fun _ => true)).foldl (fun s n => s.endStep n killedReport) s
    .next { s with groups := s.groups.filter (fun g => !g.pfail) }
  | _ => .fault .noSuchEvent

/-- PFAIL_INCREMENT_TIMEOUT (R421): increments stop at 20 ms, the manifest is whole, and the package stays reset. -/
def execPfailIncrementTimeout (s : State) : Out :=
  match s.life with
  | .pfail t =>
    let qs := (List.range 2048).map (fun k => match s.queue? k with | some q => (q.sqhead, q.lastSerial) | none => (0, 0))
    let whole (m : Manifest) : Manifest := { m with valid := true, queues := qs }
    let (a, b) := s.banks
    .next { s with now := max s.now (t + s.cyclesOf 20), ckpts := [], life := .held
                   banks := if a.seq < b.seq then (a, whole b) else (whole a, b) }
  | _ => .fault .noSuchEvent

/-! ### Reset (R335, R372, R380, R420 to R422) -/

/-- The package after a reset: MRAM, host memory, and what the model keeps beside them go on; the rest is as `State.reset` says. -/
def State.afterReset (s : State) : State :=
  let host (pa : Nat) : Bool := 4 * 2 ^ 45 ≤ pa
  { State.reset with
    retired := s.retired, lineages := s.lineages, banks := s.banks, objs := s.objs, evlog := s.evlog
    mem := s.mem.filter (fun c => host c.1), memUe := s.memUe.filter (fun w => host (8 * w)), memCe := s.memCe.filter (fun w => host (8 * w))
    free := s.free, nextId := s.nextId, inputs := s.inputs }

/-- PFAIL_RELEASE (R421): a host command releases the package from the reset in which PFAIL has left it. -/
def execPfailRelease (s : State) : Out := .next (if s.life = .held then s.afterReset else s)

/-- PACKAGE_RESET (R380). -/
def execPackageReset (s : State) : Out := .next s.afterReset

end Sys2Proof.Machine
end

