-- ==== Sys2Proof/Machine/HostQueues.lean ====
section
/-! DEFINITION. The host's registers, the queue mapper and the submission records (R247, R374 to R376, R386, R391, R392, R407 to
R414, R416, R424). -/
namespace Sys2Proof.Machine

/-! ### The registers of BAR 0 (R407, R409, R412) -/

/-- The queue that a virtual function calls `j` (R407). -/
def State.vfQueue (s : State) (vf j : Nat) : Option Queue := s.queues.find? (fun q => q.vf = vf && q.j = j)

/-- Bytes between the head and the tail of a submission ring (R314). -/
def Queue.occ (q : Queue) (tail : Nat) : Nat := (tail + 2 * q.sqZ - q.sqhead % (2 * q.sqZ)) % (2 * q.sqZ)

/-- A record waits in the submission ring. -/
def Queue.waits (q : Queue) : Bool := q.occ q.sqtail ≠ 0

/-- A submission record (R313, R410). -/
structure SubRec where
  typ : Nat
  len : Nat
  flags : Nat
  serial : Nat
  tag : Word
  a : Nat
  b : Nat
  c : Nat
  deriving DecidableEq, Repr

/-- The record at the head of a submission ring, as it stands in host memory. -/
def State.headRec (s : State) (q : Queue) : SubRec :=
  let w (o : Nat) : Nat := Memory.val s.dieMem (hostPa (q.sqbase.toNat + (q.sqhead + o) % q.sqZ)) 8
  let h := w 0
  ⟨bits h 24 4, bits h 0 24, bits h 28 4, bits h 32 32, BitVec.ofNat 64 (w 8), w 16, w 24, w 32⟩

/-- The ring bytes that a record takes, no more than are there (R313). -/
def Queue.size (q : Queue) (r : SubRec) : Nat := min (max 64 (roundUp r.len 64)) (q.occ q.sqtail)

/-- A queue whose head has passed over the SKIP records before it (R314). -/
def State.skipped (s : State) : Nat → Queue → Queue
  | 0, q => q
  | fuel + 1, q =>
    if !q.waits then q else
    let r := s.headRec q
    if r.typ ≠ 0 then q else s.skipped fuel { q with sqhead := (q.sqhead + q.size r) % (2 * q.sqZ) }

/-- A queue after its head has moved: SKIPs are passed, and a queue with no record leaves its slot (R414). -/
def State.settleHead (s : State) (q : Queue) : Queue :=
  let q := s.skipped (q.occ q.sqtail / 64 + 1) q
  if q.waits then q else { q with bound := none, raised := 0 }

/-- SQTAIL_WRITE (R407, R409). -/
def execSqtailWrite (vf j : Nat) (v : BitVec 64) (s : State) : Out :=
  match s.vfQueue vf j with
  | none => .next s
  | some q =>
    let t := bits v.toNat 0 25
    if t % 64 ≠ 0 || q.sqZ < q.occ t || !q.en then
      .next (s.updQueue q.id (fun q => { q with errn := true, en := false, bound := none }))
    else
      let q1 := { q with sqtail := t % (2 * q.sqZ) }
      let q1 := if q.waits then q1 else { q1 with waitAt := s.now, raised := 0 }
      .next (s.updQueue q.id (fun _ => s.settleHead q1))

/-- CQHEAD_WRITE (R412). -/
def execCqheadWrite (vf j : Nat) (v : BitVec 64) (s : State) : Out :=
  match s.vfQueue vf j with
  | none => .next s
  | some q =>
    let h := bits v.toNat 0 25
    let z := 2 * q.cqZ
    let dist (x : Nat) : Nat := (x + z - q.cqhead % z) % z
    .next (s.updQueue q.id (fun q =>
      if h % 64 ≠ 0 || z ≤ h || dist q.cqtail < dist h then { q with errc := true } else { q with cqhead := h }))

/-- A write of the word at 0x2010 + 64j: enable, priority, ring sizes, MSI-X; errn and errc are cleared by ones. Enabling a queue
begins its count of signals and its wait afresh (R407, R411, R414). -/
def Queue.ctl (q : Queue) (now v : Nat) : Queue :=
  let size (x old : Nat) : Nat := if q.en || 12 < x then old else x
  let en := bits v 31 1 = 1
  { q with en := en, prio := bits v 28 3, cqsz := size (bits v 12 4) q.cqsz, sqsz := size (bits v 8 4) q.sqsz, msix := bits v 2 1 = 1
           errn := q.errn && bits v 1 1 = 0, errc := q.errc && bits v 0 1 = 0
           signals := if en && !q.en then 0 else q.signals
           waitAt := if en && !q.en then now else q.waitAt, raised := if en && !q.en then 0 else q.raised, bound := if en then q.bound else none }

/-! ### The registers of BAR 2 (R381, R384, R391, R392, R397, R408, R424) -/

/-- PCAP_WRITE (R424). -/
def execPcapWrite (v : BitVec 64) (s : State) : Out :=
  let w := bits v.toNat 0 10
  let s := { s with capBad := s.capBad && bits v.toNat 10 1 = 0 }
  .next (if w < 250 || 850 < w then { s with capBad := true } else { s with cap := w })

/-- BOUNDARY_REGISTER_WRITE (R391). -/
def execBoundaryRegisterWrite (off : Nat) (v : BitVec 64) (s : State) : Out :=
  if off ≠ 0x1008 && off ≠ 0x1010 && off ≠ 0x1018 then .next s
  else if !s.quiesced then .next { s with wberr := true }
  else if off = 0x1008 then .next { s with sprtop := v.toNat }
  else if off = 0x1010 then .next { s with dtop0 := v.toNat }
  else .next { s with dtop1 := v.toNat }

/-- Writes one of the four line counters of a core (R392). -/
def Counters.put (c : Counters) (k : Nat) (v : Word) : Counters :=
  match k with
  | 0 => { c with lrd := v }
  | 1 => { c with rrd := v }
  | 2 => { c with lwr := v }
  | 3 => { c with rwr := v }
  | _ => c

/-- A write of the BAR 2 word at `off` (R408). -/
def State.writeBar2 (s : State) (off : Nat) (v : Word) : Out :=
  if off % 8 ≠ 0 then .next s
  else if off = 0x4000 then execPcapWrite v s
  else if off = 0x1008 || off = 0x1010 || off = 0x1018 then execBoundaryRegisterWrite off v s
  else if off = 0x1000 then .next { s with wberr := s.wberr && !v.getLsbD 9 }
  else if 0x1000000 ≤ off && off < 0x1000000 + 64 * 256 then
    let n := (off - 0x1000000) / 64
    .next { s with counters := mput s.counters n (((mget s.counters n).getD {}).put (off / 8 % 8) v) }
  else .next s

/-- REGISTER_WRITE (R407, R408). -/
def execRegisterWrite (r : RegTarget) (v : BitVec 64) (s : State) : Out :=
  match r with
  | .bar2 off => s.writeBar2 off v
  | .bar0 vf off =>
    if off % 8 ≠ 0 then .next s
    else if 0x1000 ≤ off && off < 0x1800 then execSqtailWrite vf ((off - 0x1000) / 8) v s
    else if 0x1800 ≤ off && off < 0x2000 then execCqheadWrite vf ((off - 0x1800) / 8) v s
    else if off < 0x2000 then .next s
    else match s.vfQueue vf ((off - 0x2000) / 64) with
      | none => .next s
      | some q => .next (s.updQueue q.id (fun q =>
          match off % 64 with
          | 0x00 => if q.en then q else { q with sqbase := BitVec.ofNat 64 (v.toNat / q.sqZ * q.sqZ) }
          | 0x08 => if q.en then q else { q with cqbase := BitVec.ofNat 64 (v.toNat / q.cqZ * q.cqZ) }
          | 0x10 => q.ctl s.now v.toNat
          | _ => q))

/-- What a read of a register returns: the layouts of R381, R384, R391, R392, R397, R407 and R424. -/
def State.readReg (s : State) (r : RegTarget) : Word :=
  let bit (b : Bool) (k : Nat) : Nat := if b then 2 ^ k else 0
  BitVec.ofNat 64 (match r with
  | .bar0 vf off =>
    if off % 8 ≠ 0 || off < 0x1800 then 0
    else if off < 0x2000 then (match s.vfQueue vf ((off - 0x1800) / 8) with | some q => q.cqhead | none => 0)
    else match s.vfQueue vf ((off - 0x2000) / 64) with
      | none => 0
      | some q => (match off % 64 with
        | 0x00 => q.sqbase.toNat
        | 0x08 => q.cqbase.toNat
        | 0x10 => bit q.en 31 + q.prio * 2 ^ 28 + q.cqsz * 2 ^ 12 + q.sqsz * 2 ^ 8 + bit q.msix 2 + bit q.errn 1 + bit q.errc 0
        | 0x18 => q.sqhead
        | 0x20 => q.cqtail
        | _ => 0)
  | .bar2 off =>
    if off % 8 ≠ 0 then 0
    else if off = 0x1000 then s.mmode + bit s.quiesced 8 + bit s.wberr 9
    else if off = 0x1008 then s.sprtop
    else if off = 0x1010 then s.dtop0
    else if off = 0x1018 then s.dtop1
    else if off = 0x2000 then s.ptp.d0
    else if off = 0x2008 then s.ptp.p0 % (1000000000 * 65536)
    else if off = 0x2010 then s.ptp.p0 / (1000000000 * 65536)
    else if off = 0x2018 then s.ptp.rate
    else if off = 0x2020 then bit s.ptp.lock 63 + s.ptp.seq.toNat * 2 ^ 32 + s.ptp.err.toNat
    else if off = 0x2028 then 38 * 2 ^ 8 + 30
    else if 0x3000 ≤ off && off < 0x4000 then
      (match s.windows.find? (fun w => w.bulkhead * 8 + w.n = (off - 0x3000) / 16 && w.isOpen) with
      | none => 0
      | some w => if off % 16 = 8 then w.delivered.toNat
        else 2 ^ 32 + w.tpart * 2 ^ 27 + w.tcore * 2 ^ 19 + w.tbase * 2 ^ 10 + w.tlen * 2 ^ 3)
    else if off = 0x4000 then bit s.derated 32 + s.capacity * 2 ^ 16 + bit s.capBad 10 + s.cap
    else if 0x1000000 ≤ off && off < 0x1000000 + 64 * 256 then
      let c := (mget s.counters ((off - 0x1000000) / 64)).getD {}
      (match off / 8 % 8 with
      | 0 => c.lrd.toNat
      | 1 => c.rrd.toNat
      | 2 => c.lwr.toNat
      | 3 => c.rwr.toNat
      | _ => 0)
    else 0)

/-! ### The queue mapper (R414) -/

/-- The effective priority of a queue. -/
def Queue.rank (q : Queue) : Nat := min 7 (q.prio + q.raised)

/-- A queue waits for a slot. -/
def Queue.wantsSlot (q : Queue) : Bool := q.en && q.bound.isNone && q.waits

/-- The waiting queue that a free slot takes. Of queues that waited equally long the lowest number: DESIGN CHOICE, log 9. -/
def State.nextQueue (s : State) : Option Queue :=
  (s.queues.filter Queue.wantsSlot).foldl (fun (b : Option Queue) q => match b with
    | none => some q
    | some x => if x.rank < q.rank || (x.rank = q.rank && (q.waitAt < x.waitAt || (q.waitAt = x.waitAt && q.id < x.id))) then some q else b) none

/-- A slot is free. -/
def State.slotFree (s : State) : Bool := (s.queues.filter (fun q => q.bound.isSome)).length < 64

/-- QUEUE_BIND (R414). -/
def execQueueBind (queue : Nat) (s : State) : Out :=
  match s.nextQueue with
  | none => .fault .noSuchEvent
  | some q =>
    if q.id ≠ queue || !s.slotFree then .fault .noSuchEvent
    else .next (s.updQueue queue (fun q => { q with bound := some (s.now, 0), raised := 0 }))

/-- When a waiting queue's priority is raised next. -/
def Queue.agingAt (q : Queue) : Nat := q.waitAt + 190000000 * (q.raised + 1)

/-- QUEUE_AGING (R414). -/
def execQueueAging (queue : Nat) (s : State) : Out :=
  match s.queue? queue with
  | none => .fault .noSuchEvent
  | some q =>
    if !q.wantsSlot || 7 ≤ q.rank then .fault .noSuchEvent
    else .next ({ s with now := max s.now q.agingAt }.updQueue queue (fun q => { q with raised := q.raised + 1 }))

/-- QUEUE_QUANTUM_END (R414). -/
def execQueueQuantumEnd (queue : Nat) (s : State) : Out :=
  match s.queue? queue with
  | none => .fault .noSuchEvent
  | some q => match q.bound with
    | none => .fault .noSuchEvent
    | some (t, k) =>
      let u := if 16 ≤ k then s.now else max s.now (t + 3800000)
      .next ({ s with now := u }.updQueue queue (fun q => { q with bound := none, raised := 0, waitAt := u }))

/-! ### Accepting a record (R409, R410, R412, R414, R423) -/

/-- The queue may have the record at its head accepted: it is enabled, bound with quantum left, its virtual function is bound, there
is completion space, and an ordered record finds every earlier one complete. A timed launch, which is read at once, waits as in `sealWaits`. -/
def State.acceptable (s : State) (q : Queue) (r : SubRec) : Option Partition :=
  let slot : Bool := match q.bound with | some (_, k) => k < 16 | none => false
  if q.en && slot && q.waits && q.room && (r.flags % 2 = 0 || q.pending = 0) then
    ((s.vfs.find? (fun v => v.1 = q.vf)).bind (fun v => s.part? v.2)).filter (fun p => !(r.typ = 2 && s.sealWaits p))
  else none

/-- Takes the record at the head of a queue: its completion space is reserved and the head moves on. -/
def State.accept (s : State) (queue : Nat) (typ : Nat → Bool) : Option (Partition × Queue × SubRec × State) :=
  match s.queue? queue with
  | none => none
  | some q =>
    let r := s.headRec q
    if !typ r.typ then none else
    (s.acceptable q r).map (fun p =>
      let q1 := { q with sqhead := (q.sqhead + q.size r) % (2 * q.sqZ), reserved := q.reserved + 1, pending := q.pending + 1
                         bound := q.bound.map (fun b => (b.1, b.2 + 1)) }
      (p, q, r, (s.updQueue queue (fun _ => s.settleHead q1)).capture p.id 1 queue r.serial))

/-- A quiet record (R410). -/
def SubRec.quiet (r : SubRec) : Bool := r.flags / 2 % 2 = 1

/-- The length, the reserved flags and the unused operands of a record are as R410 requires; `n` operands are used. -/
def SubRec.shaped (r : SubRec) (n : Nat) : Bool :=
  r.len = 40 && r.flags < 4 && (1 ≤ n || r.a = 0) && (2 ≤ n || r.b = 0) && (3 ≤ n || r.c = 0)

/-- A record is done with a report. -/
def State.doneRec (s : State) (q : Queue) (r : SubRec) (rep : Report) (lineage : Nat) : State :=
  s.complete q.id r.serial r.tag r.quiet r.typ 0 lineage (errorBlock { rep with time := s.now } 0 0 0 0)

/-- PROGRAM_FAULT with cause RECORD (R410). -/
def State.badRec (s : State) (q : Queue) (r : SubRec) : State := s.doneRec q r (launchReport 0x10 0x16 1 r.a) 0

/-- Accepts a record of the type asked for; one that is not as R410 requires completes with RECORD, else `f` acts. -/
def onRecord (queue typ n : Nat) (limits : SubRec → Bool) (f : Partition → Queue → SubRec → State → State) (s : State) : Out :=
  match s.accept queue (fun t => t = typ) with
  | none => .fault .noSuchEvent
  | some (p, q, r, s) => .next (if r.shaped n && limits r then f p q r s else s.badRec q r)

/-- A launch that a queue submits: queued, or refused when the partition's queue is full (R254, R410). -/
def State.submit (s : State) (p : Partition) (q : Queue) (r : SubRec) : Option Launch × State :=
  if 4096 ≤ p.queue.length then (none, s.doneRec q r (launchReport 0x13 0 0 0) 0)
  else
    let (id, s) := s.fresh
    let l := newLaunch id p.id r.a (.host q.id r.serial r.tag r.quiet) q.prio (some q.id) none s.now
    (some l, ({ s with launches := s.launches ++ [l] }).updPart p.id (fun p => { p with queue := p.queue ++ [id] }))

/-- LAUNCH_RECORD (R410). The record's address is a multiple of 256 (R229). -/
def execLaunchRecord (queue : Nat) (s : State) : Out :=
  onRecord queue 1 1 (fun r => r.a % 256 = 0) (fun p q r s => (s.submit p q r).2) s

/-- TIMED_LAUNCH (R386, R410): the launch is accepted and its record read at once; too near a target is refused. -/
def execTimedLaunch (queue : Nat) (s : State) : Out :=
  onRecord queue 2 3 (fun r => r.a % 256 = 0 && r.b < 2 ^ 48 && r.c < 1000000000) (fun p q r s =>
    match s.submit p q r with
    | (none, s) => s
    | (some l, s) =>
      let x := (r.b * 1000000000 + r.c) * 65536
      let d := s.ptp.reach x
      let s := s.updLaunch l.id (fun l => { l with target := some (x, d) })
      if d < s.now + 2 ^ 20 then s.refuseLaunch l.id (launchReport 0x13 0 0 0)
      else s.acceptLaunch p { l with target := some (x, d) }) s

/-- FENCE_RC_RECORD (R247, R410). -/
def execFenceRcRecord (queue : Nat) (s : State) : Out :=
  onRecord queue 3 0 (fun _ => true) (fun p q r s => (s.flushRecs p.id).doneRec q r {} 0) s

/-- The checks that RESUME, FORK and DISCARD records share with the words of the same names (R373 to R376): addresses `vas` with the
access each needs, then the object at a. -/
def State.recCheck (s : State) (p : Partition) (a : Nat) (vas : List (Nat × Nat)) : Report ⊕ (Nat × Obj) :=
  match vas.find? (fun v => v.1 % 4096 ≠ 0) with
  | some v => .inl (launchReport 0x10 0x05 1 v.1)
  | none =>
    match vas.findSome? (fun v => match s.dieTrans p.id v.1 v.2 with | .inr e => some (e, v.1) | .inl _ => none) with
    | some (e, va) => .inl (s.errReport e va)
    | none => match s.checkObj p.id p.dtab.mapid a with
      | .trap cause _ => .inl (launchReport 0x10 cause 1 a)
      | .fail cause => .inl (launchReport 0x10 cause 1 a)
      | .bad _ => .inl (launchReport 0x10 0x10 1 a)
      | .table pa => .inl (s.errReport (.table pa) a)
      | .pass tag o => .inr (tag, o)

/-- What the reads of that check leave: see `State.readLeaves`; an uncorrectable word among them is watched (R272, R351, R373). -/
def State.recRead (s : State) (p : Partition) (a : Nat) (vas : List (Nat × Nat)) : State :=
  if vas.any (fun v => v.1 % 4096 ≠ 0 || match s.dieTrans p.id v.1 v.2 with | .inr _ => true | .inl _ => false) then s else
  let t := s.readLeaves none p.id 0 a (s.objSize p.id a)
  match s.checkObj p.id p.dtab.mapid a with
  | .bad pa => t.memBad none (pa / 8)
  | _ => t

/-- RESUME_RECORD (R373, R376). It completes when the group that it starts has run to its end. -/
def execResumeRecord (queue : Nat) (s : State) : Out :=
  onRecord queue 4 1 (fun _ => true) (fun p q r s =>
    let vas := [(r.a, 0)]
    let t := s.recRead p r.a vas
    match s.recCheck p r.a vas with
    | .inl rep => t.doneRec q r rep 0
    | .inr (tag, _) => t.startObj r.a tag none (some (q.id, r.serial, r.tag, r.quiet))) s

/-- FORK_RECORD (R374, R376, R411). -/
def execForkRecord (queue : Nat) (s : State) : Out :=
  onRecord queue 5 2 (fun _ => true) (fun p q r s =>
    let vas := [(r.a, 0), (r.b, 1)]
    let t := s.recRead p r.a vas
    match s.recCheck p r.a vas with
    | .inl rep => t.doneRec q r rep 0
    | .inr (tag, o) =>
      if o.midRegion then t.doneRec q r (launchReport 0x10 0x11 1 r.a) 0
      else match t.forkObj none p.id r.a r.b tag with
        | (.inl l, s) => s.doneRec q r {} l
        | (.inr rep, s) => s.doneRec q r rep 0) s

/-- DISCARD_RECORD (R375, R376). -/
def execDiscardRecord (queue : Nat) (s : State) : Out :=
  onRecord queue 6 1 (fun _ => true) (fun p q r s =>
    let vas := [(r.a, 0)]
    let t := s.recRead p r.a vas
    match s.recCheck p r.a vas with
    | .inl rep => t.doneRec q r rep 0
    | .inr (tag, _) => (t.discardObj r.a tag).doneRec q r {} 0) s

/-- The checkpoint that a queue has in progress. -/
def State.ckptOf (s : State) (queue : Nat) : Option Ckpt := s.ckpts.find? (fun c => c.queue = queue)

/-- The partition of a queue has a checkpoint in progress. -/
def State.ckptBusy (s : State) (queue : Nat) : Bool :=
  match (s.queue? queue).bind (fun q => s.vfs.find? (fun v => v.1 = q.vf)) with
  | some v => s.ckpts.any (fun c => c.part = v.2)
  | none => false

/-- CHECKPOINT_RECORD (R416): accepted, it marks the dirty pages; each later event of the queue copies one page, and the last ends the
increment. One checkpoint of a partition is in progress at a time. -/
def execCheckpointRecord (queue : Nat) (s : State) : Out :=
  match s.ckptOf queue with
  | some c => if s.pageQuiet c then .next (s.stepCkpt c) else .fault .noSuchEvent
  | none =>
    if s.ckptBusy queue then .fault .noSuchEvent
    else onRecord queue 7 3 (fun r => r.a % 4096 = 0 && 1 ≤ r.c) (fun p q r s =>
      s.beginCkpt p.id q.id r.serial r.tag r.quiet r.a r.b r.c) s

/-- INVALID_SUBMISSION_RECORD (R410). -/
def execInvalidSubmissionRecord (queue : Nat) (s : State) : Out :=
  match s.accept queue (fun t => 8 ≤ t) with
  | none => .fault .noSuchEvent
  | some (_, q, r, s) => .next (s.badRec q r)

end Sys2Proof.Machine
end

