-- ==== Sys2Proof/Machine/Commands.lean ====
section
/-! DEFINITION. The privileged commands of PF 0 (R110 to R112, R270, R275, R335, R390, R394, R397, R407, R415, R418, R419, R422, R423,
R425, R435). -/
namespace Sys2Proof.Machine

/-! ### Answers (R415) -/

/-- An invalid operand. -/
def State.badOperand (s : State) : Out := .next (s.result 0x10 [])

/-- A command that is refused for now. -/
def State.busy (s : State) : Out := .next (s.result 0x13 [])

/-- A command that is not permitted. -/
def State.denied (s : State) : Out := .next (s.result 0x30 [])

/-- A step of the partition is resident. -/
def State.resident (s : State) (p : Nat) : Bool := s.cores.any (fun c => match c.2.step with | some i => i.part = p | none => false)

/-- A step of any partition is resident. -/
def State.anyResident (s : State) : Bool := s.cores.any (fun c => c.2.step.isSome)

/-- A launch of the partition is queued. -/
def State.queued (s : State) (p : Nat) : Bool := s.launches.any (fun l => l.part = p && l.phase = 0)

/-- A command on one partition that is refused with BUSY while `busy` holds. -/
def State.onPart (s : State) (part : Nat) (busy : Bool) (f : Partition → Out) : Out :=
  match s.part? part with
  | none => s.badOperand
  | some p => if busy then s.busy else f p

/-! ### Partitions (R394, R407, R418) -/

/-- The rectangle of a partition lies in the bulkhead grid and meets no other partition (R394). -/
def State.gridOk (s : State) (part brow bcol bh bw : Nat) : Bool :=
  1 ≤ bh && 1 ≤ bw && brow + bh ≤ 4 && bcol + bw ≤ 8 &&
  s.parts.all (fun p => p.id = part || p.brow + p.bheight ≤ brow || brow + bh ≤ p.brow || p.bcol + p.bwidth ≤ bcol || bcol + bw ≤ p.bcol)

/-- A decode table image: header and entries (R109). -/
def tableImage (mapid : Nat) (rows : List Nat) : List Byte :=
  words8 [mapid + 2 ^ 16 + 1024 * 2 ^ 32, 0, 0, 0, 0, 0, 0, 0] ++
  rows.flatMap (fun r => leBytes 4 (match r with | 0 => 0 | k + 1 => 2 ^ 31 + k))

/-- The entries of the identity image of decode map 1 (R110, R112). -/
def identityRows : List Nat := (List.range 1024).map (fun p => if (decodeOp p 0).isSome then p + 1 else 0)

/-- The measurement that an image and a configuration block set (R418). -/
def measureOf (image cfg : List Byte) : List Byte := shake256 (image ++ cfg) 64

/-- The parameters of a new partition: the reset values of R364 and R365; the limits that the manual gives no value for are as wide as
they can be, and there is no pool. DESIGN CHOICE: log 10. -/
def resetParams : PartParams :=
  { td := 65536, tk := 16384, tokenRate := 2 ^ 24, tokenDepth := 4, leaveLimit := 2 ^ 32, coreLeaveLimit := 2 ^ 32, copyBandwidth := 0
    poolBase := 0, poolSlot := 0, poolCount := 0 }

/-- PARTITION_CREATE (R394, R418, R420). -/
def execPartitionCreate (part brow bcol bheight bwidth : Nat) (cfg : List (BitVec 8)) (s : State) : Out :=
  if 32 ≤ part || (s.part? part).isSome || cfg.length ≠ 64 || !s.gridOk part brow bcol bheight bwidth then s.badOperand
  else
    let (l, s) := s.newLineage false
    let image := tableImage 1 identityRows
    let p : Partition :=
      { id := part, brow := brow, bcol := bcol, bheight := bheight, bwidth := bwidth, cfg := cfg, root := none, dtab := {}, dimage := image
        serial := 0, queue := [], recs := [], tokens := 4, tokenAt := s.now, params := resetParams, measure := measureOf image cfg
        locked := none, capture := none, ckptLineage := l }
    .next ({ s with parts := s.parts ++ [p] }.result 0 [])

/-- The partition that owns a bulkhead. -/
def State.ownerOf (s : State) (b : Nat) : Option Nat :=
  (s.parts.find? (fun p => p.brow ≤ b / 8 && b / 8 < p.brow + p.bheight && p.bcol ≤ b % 8 && b % 8 < p.bcol + p.bwidth)).map (·.id)

/-- Windows whose bulkheads have changed hands close, and requests for them lapse: the gates pass nothing of a former owner (R393).
DESIGN CHOICE: log 48. -/
def State.gateWindows (s : State) : State :=
  { s with windows := s.windows.map (fun w =>
      if s.ownerOf w.bulkhead = some w.wpart && s.ownerOf (bulkheadOf w.tcore) = some w.tpart then w else { w with isOpen := false, reqs := [] }) }

/-- PARTITION_RESIZE (R394). -/
def execPartitionResize (part brow bcol bheight bwidth : Nat) (s : State) : Out :=
  if !s.gridOk part brow bcol bheight bwidth then s.badOperand
  else s.onPart part (s.resident part || s.queued part) (fun _ =>
    .next ((s.updPart part (fun p => { p with brow := brow, bcol := bcol, bheight := bheight, bwidth := bwidth })).gateWindows.result 0 []))

/-- PARTITION_REMOVE (R394, R407, R420): its virtual functions are unbound and its checkpoint lineage ends. -/
def execPartitionRemove (part : Nat) (s : State) : Out :=
  s.onPart part (s.resident part || s.queued part) (fun p =>
    .next ({ s with parts := s.parts.filter (fun x => x.id != part), vfs := s.vfs.filter (fun v => v.2 != part)
                    lineages := s.lineages.filter (fun l => l.id != p.ckptLineage) }.gateWindows.result 0 []))

/-- BIND_VF (R407). -/
def execBindVf (vf part : Nat) (s : State) : Out :=
  if 96 ≤ vf || (s.part? part).isNone then s.badOperand
  else if s.queues.any (fun q => q.vf = vf && q.en) then s.busy
  else .next ({ s with vfs := mput s.vfs vf part }.result 0 [])

/-- The lowest number that a virtual function has free for a queue. -/
def State.freeJ (s : State) (vf : Nat) : Option Nat := (List.range 64).find? (fun j => (s.vfQueue vf j).isNone)

/-- ASSIGN_QUEUE (R20, R407): the queue's registers are at their reset values. -/
def execAssignQueue (queue vf : Nat) (s : State) : Out :=
  if 2048 ≤ queue || 96 ≤ vf then s.badOperand
  else if s.queues.any (fun q => q.id = queue && q.en) then s.busy
  else
    let u := { s with queues := s.queues.filter (fun q => q.id != queue) }
    match u.freeJ vf with
    | none => s.badOperand
    | some j => .next ({ u with queues := u.queues ++ [({ id := queue, vf := vf, j := j } : Queue)] }.result 0 [])

/-! ### Translation (R270, R275) -/

/-- SET_PTROOT (R268, R270). -/
def execSetPtroot (part root : Nat) (s : State) : Out :=
  if root % 4096 ≠ 0 || 2 ^ 48 ≤ root || !s.presentOk true root 4096 then s.badOperand
  else s.onPart part false (fun _ => .next ((s.updPart part (fun p => { p with root := some root })).result 0 []))

/-- An invalidation covers some byte of [va, va + size). -/
def scopeCovers (w : InvScope) (va size : Nat) : Bool :=
  match w with
  | .page a => va ≤ a && a < va + size
  | .range a n => va < a + n && a < va + size
  | .whole => true

/-- A write that was held before `id0` and was translated through an entry that the invalidation removes is still held (R275). -/
def State.holdsUnder (s : State) (part : Nat) (w : InvScope) (id0 : Nat) : Bool :=
  s.cores.any (fun c => match c.2.step with
    | some i => i.part = part && c.2.held.any (fun h => h.id < id0 && h.pages.any (fun p => scopeCovers w p.1 p.2))
    | none => false)

/-- The walkers' caches lose the pointers of a partition above some byte that an invalidation covers, and what walks have found for words that
have not issued yet is forgotten (R275). -/
def State.flushWalkers (s : State) (part : Nat) (w : InvScope) : State :=
  { s with ptrs := s.ptrs.filter (fun e => !(e.part = part && scopeCovers w e.va e.size))
           cores := s.cores.map (fun (x : Nat × Core) => (x.1, if x.2.step.any (fun i => i.part = part) then { x.2 with walkFaults := [] } else x.2)) }

/-- INVALIDATE (R275): the entries are removed at once; the command is answered, later if need be, once no held write rests on them. -/
def execInvalidate (part : Nat) (what : InvScope) (s : State) : Out :=
  s.onPart part false (fun _ =>
    let s := (s.flushTlbs part (fun e => scopeCovers what e.va e.size)).flushWalkers part what
    .next (if s.holdsUnder part what s.nextId then { s with invs := s.invs ++ [(part, what, s.nextId)], nextId := s.nextId + 1 }
      else s.result 0 []))

/-- An invalidation that has begun is answered: no write held before `id` rests on what it removed (R275). -/
def State.finishInvalidate (s : State) (part : Nat) (what : InvScope) (id : Nat) : Out :=
  if !s.invs.contains (part, what, id) || s.holdsUnder part what id then .fault .noSuchEvent
  else .next ({ s with invs := s.invs.filter (fun x => x != (part, what, id)) }.result 0 [])

/-! ### Decode tables (R109 to R112, R418) -/

/-- The table of an image, if R110 accepts it. -/
def tableOf (b : List Byte) : Option DecTable :=
  let h := leVal (b.take 8)
  let es := (List.range 1024).map (fun p => leVal ((b.drop (64 + 4 * p)).take 4))
  let mapid := bits h 0 16
  let rows := es.map (fun e => if e.testBit 31 then e % 4096 + 1 else 0)
  let entryOk (x : Nat × Nat) : Bool :=
    bits x.1 12 19 = 0 && (!x.1.testBit 31 || (x.1 % 4096 < 1024 && (decodeOp (x.1 % 4096) 0).isSome && lenBits (x.1 % 4096) = lenBits x.2))
  if mapid ≠ 0 && bits h 16 16 = 1 && bits h 32 32 = 1024 && ((b.drop 8).take 56).all (· == 0) && es.zipIdx.all entryOk &&
     (mapid ≠ 1 || rows = identityRows) then some ⟨mapid, rows⟩ else none

/-- DECODE_TABLE_LOAD (R110, R112, R418): the image lies at a virtual address of the partition. -/
def execDecodeTableLoad (part addr : Nat) (s : State) : Out :=
  s.onPart part (s.resident part || s.queued part) (fun p =>
    let r := s.fetchVa none part 0 addr 4160
    match r.1 with
    | .bytes b => match tableOf b with
      | some t => .next ((r.2.updPart part (fun x => { x with dtab := t, dimage := b, measure := measureOf b p.cfg })).result 0 [])
      | none => r.2.badOperand
    | _ => r.2.badOperand)

/-! ### The memory mode (R387, R390) -/

/-- Nothing is under way in the memory network. -/
def State.memQuiet (s : State) : Bool := s.rels.isEmpty && s.reads.isEmpty && s.walks.isEmpty && s.hostWrites.isEmpty

/-- A new memory mode takes force: bytes present before and after keep their contents; the others are lost, or are as nothing has written
them (log 3). The caches, their errors included, are written back, and every TLB and walker cache is empty (R387, R390 steps 2 to 6). -/
def State.remap (s : State) (mode : Nat) : State :=
  let t := { s with mmode := mode, sprtop := 2 * spreadOf mode, dtop0 := 0x2400000000 - spreadOf mode, dtop1 := 0x2400000000 - spreadOf mode
                    quiesced := false, mmodeTo := none, quadTlb := [], ptrs := [], cacheErr := [] }
  let both (pa : Nat) : Bool := 4 ≤ windowOf pa || (pa % 2 ^ 45 < s.present (windowOf pa) && pa % 2 ^ 45 < t.present (windowOf pa))
  { t with mem := s.mem.filter (fun c => both c.1), memUe := s.memUe.filter (fun w => both (8 * w)), memCe := s.memCe.filter (fun w => both (8 * w))
           cores := s.cores.map (fun (x : Nat × Core) => (x.1, { x.2 with tlb := [] })) }

/-- SET_MMODE (R387, R390): an accepted command quiesces the memory network. One that comes during the change of another is refused too.
DESIGN CHOICE: log 10. -/
def execSetMmode (mode : Nat) (s : State) : Out :=
  if 3 ≤ mode then s.badOperand
  else if s.mmodeTo.isSome || s.anyResident || s.launches.any (fun l => l.phase = 0) || s.groups.any (fun g => g.phase < 2) ||
    s.windows.any (·.isOpen) then s.busy
  else .next { s with mmodeTo := some mode }

/-- The change of the memory mode goes on once nothing is under way in the memory network: the boundary registers accept writes, and then the
mode changes and the command is answered (R390, R391). -/
def State.changeMmode (s : State) : Out :=
  match s.mmodeTo with
  | none => .fault .noSuchEvent
  | some mode =>
    if !s.memQuiet then .fault .noSuchEvent
    else if !s.quiesced then .next { s with quiesced := true }
    else .next ((s.remap mode).result 0 [])

/-! ### Windows (R397, R399) -/

/-- Opening a window is refused with BUSY (R397). -/
def State.windowBusy (s : State) (bulkhead n core base len : Nat) : Bool :=
  s.windows.any (fun w => w.isOpen && ((w.bulkhead = bulkhead && w.n = n) ||
    (w.tcore = core && meets base len (4096 * w.tbase) (4096 * (w.tlen + 1))))) ||
  (match (s.core core).step with
   | some i => meets base len i.codebase i.codelen || meets base len i.slim (i.sbase - i.slim) ||
      i.pipes.any (fun p => p.valid && p.cons = i.role && meets base len (4096 * p.rbase) p.ring)
   | none => false)

/-- WINDOW_OPEN (R397, R399): the first of two matching requests is held; the second, from the other partition, opens the window. -/
def execWindowOpen (part bulkhead n core base len : Nat) (s : State) : Out :=
  if 32 ≤ bulkhead || 8 ≤ n || 256 ≤ core || base % 4096 ≠ 0 || len % 4096 ≠ 0 || len = 0 || 0x80000 < len || 0x200000 < base + len then s.badOperand
  else match s.ownerOf bulkhead, s.ownerOf (bulkheadOf core) with
    | some wp, some tp =>
      if wp = tp then s.badOperand
      else if part ≠ wp && part ≠ tp then s.denied
      else
        let other := if part = wp then tp else wp
        let same (w : Win) : Bool := !w.isOpen && w.closing = 0 && w.bulkhead = bulkhead && w.n = n && w.tcore = core && w.tbase = base / 4096 &&
          w.tlen + 1 = len / 4096 && w.wpart = wp && w.tpart = tp
        let w : Win := ⟨bulkhead, n, tp, core, base / 4096, len / 4096 - 1, 0, false, [part], 0, wp, [], none⟩
        if s.windows.any (fun x => same x && x.reqs.contains other) then
          let rest := s.windows.filter (fun x => !same x)
          if s.windowBusy bulkhead n core base len then ({ s with windows := rest } : State).busy
          else
            let gs := granRange base len
            let s := { s with windows := rest ++ [{ w with isOpen := true, reqs := [part, other] }] }
            .next ((s.updCore core (fun c => { c with empties := gs.foldl (fun l g => mput l g 0) c.empties })).result 0 [])
        else .next ({ s with windows := s.windows.filter (fun x => !same x) ++ [w] }.result 0 [])
    | _, _ => s.badOperand

/-- Blocks that were released through a window are still on their way. -/
def State.windowInFlight (s : State) (bulkhead n : Nat) : Bool :=
  s.rels.any (fun r => match r.eff with | .window k _ _ => k = n && bulkheadOf r.core = bulkhead | _ => false)

/-- The open window `n` of a bulkhead. -/
def Win.named (w : Win) (bulkhead n : Nat) : Bool := w.isOpen && w.bulkhead = bulkhead && w.n = n

/-- Changes the windows that satisfy `p`. -/
def State.updWindows (s : State) (p : Win → Bool) (f : Win → Win) : State :=
  { s with windows := s.windows.map (fun w => if p w then f w else w) }

/-- WINDOW_CLOSE (R397): blocks released from then on are dropped; it is answered, later if need be, once every released block has been
delivered. Each of several commands that wait for that is answered. -/
def execWindowClose (part bulkhead n : Nat) (s : State) : Out :=
  match s.windows.find? (·.named bulkhead n) with
  | none => s.badOperand
  | some w =>
    if part ≠ w.wpart && part ≠ w.tpart then s.denied
    else if s.windowInFlight bulkhead n then .next (s.updWindows (·.named bulkhead n) (fun x => { x with closing := x.closing + 1 }))
    else .next ((s.updWindows (·.named bulkhead n) (fun x => { x with isOpen := false, closing := 0, reqs := [] })).result 0 [])

/-- The closing of a window is done: its last block has been delivered, or it has closed for another reason. The commands that wait are
answered (R397). -/
def State.finishClose (s : State) (bulkhead n : Nat) : Out :=
  let due (w : Win) : Bool := w.closing ≠ 0 && w.bulkhead = bulkhead && w.n = n && (!w.isOpen || !s.windowInFlight bulkhead n)
  match s.windows.find? due with
  | none => .fault .noSuchEvent
  | some w => .next ((List.range w.closing).foldl (fun s _ => s.result 0 [])
      (s.updWindows due (fun x => { x with isOpen := false, closing := 0, reqs := [] })))

/-! ### Parameters (R364, R365, R415, R424, R435) -/

/-- SET_PARTITION_PARAMETERS (R415). -/
def execSetPartitionParameters (part : Nat) (v : PartParams) (s : State) : Out :=
  if 64 < v.poolCount || v.poolBase % 4096 ≠ 0 || v.poolSlot % 4096 ≠ 0 then s.badOperand
  else s.onPart part (s.resident part) (fun _ => .next ((s.updPart part (fun p => { p with params := v })).result 0 []))

/-- SET_PACKAGE_PARAMETERS (R385, R415, R424). -/
def execSetPackageParameters (v : PackParams) (s : State) : Out :=
  if v.cap < 250 || 850 < v.cap || v.scrubHbm = 0 || v.scrubCache = 0 || v.ptpInterval = 0 then s.badOperand
  else .next ({ s with cap := v.cap, threshold := v.threshold, scrubHbm := v.scrubHbm, scrubCache := v.scrubCache
                       ptpInterval := v.ptpInterval }.result 0 [])

/-- SET_HOSTSZ (R435). -/
def execSetHostsz (size : Nat) (s : State) : Out :=
  if 2 ^ 45 < size || size % 2 ^ 30 ≠ 0 then s.badOperand
  else if s.anyResident then s.busy
  else .next ({ s with hostsz := size }.result 0 [])

/-- CLEAR_RETIREMENT (R335, R415). -/
def execClearRetirement (core : Nat) (s : State) : Out :=
  if 256 ≤ core then s.badOperand
  else if s.cores.any (fun c => bulkheadOf c.1 = bulkheadOf core && c.2.step.isSome) then s.busy
  else .next ({ s with retired := s.retired.filter (fun n => n != core) }.result 0 [])

/-! ### Security (R418, R419, R423) -/

/-- A launch that runs in a partition whose manifest it does not match runs no further step, and reports SECURITY (R418). -/
def State.stopLaunch (s : State) (l : Launch) : State :=
  let r : Report := { launchReport 0x30 0 1 l.tor with time := s.now }
  (s.endRedos l.id l.redo r).updLaunch l.id (fun x => { x with report := x.report.worse r, nextStep := x.total, ahead := [] })

/-- LOCK_PARTITION (R418). A second lock adds to the manifest. -/
def execLockPartition (part : Nat) (manifest : List (BitVec 8)) (s : State) : Out :=
  if manifest.length % 64 ≠ 0 then s.badOperand
  else s.onPart part (s.resident part) (fun p =>
    let p : Partition := { p with measure := shake256 (p.measure ++ manifest) 64, locked := some (p.locked.getD [] ++ manifest) }
    let s := s.updPart part (fun _ => p)
    let s := (s.launches.filter (fun l => l.part = part && l.phase = 1 && s.stepsLeft l && p.bars l.code l.words)).foldl State.stopLaunch s
    .next (s.result 0 []))

/-- The lineages of a partition: its checkpoint lineage and those of objects that it owned. -/
def State.lineagesOf (s : State) (p : Partition) : List Lineage :=
  s.lineages.filter (fun l => l.id = p.ckptLineage || s.objs.any (fun o => o.2.part = p.id && o.2.lineage = l.id))

/-- ATTEST (R419): what the report holds, in the manual's order, and its signature. The report's layout: DESIGN CHOICE, log 10. -/
def execAttest (part : Nat) (nonce : List (BitVec 8)) (s : State) : Out :=
  if nonce.length ≠ 64 then s.badOperand
  else s.onPart part false (fun p =>
    let rep := words8 [part] ++ p.measure ++ nonce ++ Config.identityBlock ++
      (s.lineagesOf p).flatMap (fun l => words8 [l.id, l.gen, l.sealCtr]) ++ Config.x448Public s.free
    .next ({ s with free := s.free + 1 }.result 0 (rep ++ Config.sign448 rep)))

/-- SET_CAPTURE_MODE (R415, R423). -/
def execSetCaptureMode (part : Nat) (on : Bool) (ring : Nat) (s : State) : Out :=
  s.onPart part (s.resident part) (fun _ =>
    .next ((s.updPart part (fun p => { p with capture := if on then some ring else none })).result 0 []))

/-! ### Logs (R349, R355, R415, R422, R425) -/

/-- READ_EVENT_LOG (R415). -/
def execReadEventLog (s : State) : Out :=
  .next (s.result 0 (s.evlog.flatMap LogEntry.bytes))

/-- The bytes of a manifest bank (R422). -/
def Manifest.bytes (m : Manifest) : List Byte :=
  let b := words8 [0x31464D5F4C494146, m.seq, m.time, m.entries.length] ++
    (List.range 2048).flatMap (fun k => let q := m.queues.getD k (0, 0); leBytes 4 q.1 ++ leBytes 4 q.2) ++
    m.entries.flatMap (fun e => words8 [e.1 + e.2.1 * 2 ^ 8, e.2.2.1, e.2.2.2])
  let b := (b ++ List.replicate 0xFFF8 0).take 0xFFF8
  b ++ leBytes 8 (crc64 0 b).toNat

/-- The newer valid bank (R422). -/
def State.manifest? (s : State) : Option Manifest :=
  let (a, b) := s.banks
  if a.valid && (!b.valid || b.seq < a.seq) then some a else if b.valid then some b else none

/-- READ_PFAIL_MANIFEST (R415, R422). -/
def execReadPfailManifest (s : State) : Out := .next (s.result 0 (match s.manifest? with | some m => m.bytes | none => []))

end Sys2Proof.Machine
end

