-- ==== Sys2Proof/Machine/Dispatch.lean ====
section
/-! DEFINITION. One arm per constructor of Instr. -/
namespace Sys2Proof.Machine

/-- The meaning of every instruction and event: one call each. -/
def exec (i : Instr) (s : State) : Host.Outcome State Fault Refusal :=
  match i with
  | .add w => Sys2Proof.Machine.execAdd w s
  | .sub w => Sys2Proof.Machine.execSub w s
  | .mul w => Sys2Proof.Machine.execMul w s
  | .mulh w => Sys2Proof.Machine.execMulh w s
  | .mulhu w => Sys2Proof.Machine.execMulhu w s
  | .div w => Sys2Proof.Machine.execDiv w s
  | .divu w => Sys2Proof.Machine.execDivu w s
  | .rem w => Sys2Proof.Machine.execRem w s
  | .remu w => Sys2Proof.Machine.execRemu w s
  | .andR w => Sys2Proof.Machine.execAndR w s
  | .orR w => Sys2Proof.Machine.execOrR w s
  | .xorR w => Sys2Proof.Machine.execXorR w s
  | .andn w => Sys2Proof.Machine.execAndn w s
  | .shl w => Sys2Proof.Machine.execShl w s
  | .shr w => Sys2Proof.Machine.execShr w s
  | .sra w => Sys2Proof.Machine.execSra w s
  | .min w => Sys2Proof.Machine.execMin w s
  | .max w => Sys2Proof.Machine.execMax w s
  | .minu w => Sys2Proof.Machine.execMinu w s
  | .maxu w => Sys2Proof.Machine.execMaxu w s
  | .slt w => Sys2Proof.Machine.execSlt w s
  | .sltu w => Sys2Proof.Machine.execSltu w s
  | .seq w => Sys2Proof.Machine.execSeq w s
  | .sne w => Sys2Proof.Machine.execSne w s
  | .selz w => Sys2Proof.Machine.execSelz w s
  | .clz w => Sys2Proof.Machine.execClz w s
  | .ctz w => Sys2Proof.Machine.execCtz w s
  | .popc w => Sys2Proof.Machine.execPopc w s
  | .bfx w => Sys2Proof.Machine.execBfx w s
  | .bfi w => Sys2Proof.Machine.execBfi w s
  | .addx2 w => Sys2Proof.Machine.execAddx2 w s
  | .addx4 w => Sys2Proof.Machine.execAddx4 w s
  | .addx8 w => Sys2Proof.Machine.execAddx8 w s
  | .addi w => Sys2Proof.Machine.execAddi w s
  | .andi w => Sys2Proof.Machine.execAndi w s
  | .ori w => Sys2Proof.Machine.execOri w s
  | .xori w => Sys2Proof.Machine.execXori w s
  | .shli w => Sys2Proof.Machine.execShli w s
  | .shri w => Sys2Proof.Machine.execShri w s
  | .srai w => Sys2Proof.Machine.execSrai w s
  | .slti w => Sys2Proof.Machine.execSlti w s
  | .movi w => Sys2Proof.Machine.execMovi w s
  | .movsh w => Sys2Proof.Machine.execMovsh w s
  | .br w => Sys2Proof.Machine.execBr w s
  | .jmp w => Sys2Proof.Machine.execJmp w s
  | .jmpr w => Sys2Proof.Machine.execJmpr w s
  | .call w => Sys2Proof.Machine.execCall w s
  | .callr w => Sys2Proof.Machine.execCallr w s
  | .ret w => Sys2Proof.Machine.execRet w s
  | .loop w => Sys2Proof.Machine.execLoop w s
  | .loopr w => Sys2Proof.Machine.execLoopr w s
  | .nop w => Sys2Proof.Machine.execNop w s
  | .waitt w => Sys2Proof.Machine.execWaitt w s
  | .ends w => Sys2Proof.Machine.execEnds w s
  | .trap w => Sys2Proof.Machine.execTrap w s
  | .rett w => Sys2Proof.Machine.execRett w s
  | .ldsB w => Sys2Proof.Machine.execLdsB w s
  | .ldsBu w => Sys2Proof.Machine.execLdsBu w s
  | .ldsH w => Sys2Proof.Machine.execLdsH w s
  | .ldsHu w => Sys2Proof.Machine.execLdsHu w s
  | .ldsW w => Sys2Proof.Machine.execLdsW w s
  | .ldsWu w => Sys2Proof.Machine.execLdsWu w s
  | .ldsD w => Sys2Proof.Machine.execLdsD w s
  | .stsB w => Sys2Proof.Machine.execStsB w s
  | .stsH w => Sys2Proof.Machine.execStsH w s
  | .stsW w => Sys2Proof.Machine.execStsW w s
  | .stsD w => Sys2Proof.Machine.execStsD w s
  | .faddS w => Sys2Proof.Machine.execFaddS w s
  | .fsubS w => Sys2Proof.Machine.execFsubS w s
  | .fmulS w => Sys2Proof.Machine.execFmulS w s
  | .ffmaS w => Sys2Proof.Machine.execFfmaS w s
  | .fdivS w => Sys2Proof.Machine.execFdivS w s
  | .fsqrtS w => Sys2Proof.Machine.execFsqrtS w s
  | .fminS w => Sys2Proof.Machine.execFminS w s
  | .fmaxS w => Sys2Proof.Machine.execFmaxS w s
  | .fcmpS w => Sys2Proof.Machine.execFcmpS w s
  | .fclassS w => Sys2Proof.Machine.execFclassS w s
  | .fabsS w => Sys2Proof.Machine.execFabsS w s
  | .fnegS w => Sys2Proof.Machine.execFnegS w s
  | .fcvt w => Sys2Proof.Machine.execFcvt w s
  | .faddD w => Sys2Proof.Machine.execFaddD w s
  | .fsubD w => Sys2Proof.Machine.execFsubD w s
  | .fmulD w => Sys2Proof.Machine.execFmulD w s
  | .ffmaD w => Sys2Proof.Machine.execFfmaD w s
  | .fdivD w => Sys2Proof.Machine.execFdivD w s
  | .fsqrtD w => Sys2Proof.Machine.execFsqrtD w s
  | .fminD w => Sys2Proof.Machine.execFminD w s
  | .fmaxD w => Sys2Proof.Machine.execFmaxD w s
  | .fcmpD w => Sys2Proof.Machine.execFcmpD w s
  | .fclassD w => Sys2Proof.Machine.execFclassD w s
  | .fabsD w => Sys2Proof.Machine.execFabsD w s
  | .fnegD w => Sys2Proof.Machine.execFnegD w s
  | .csrr w => Sys2Proof.Machine.execCsrr w s
  | .csrw w => Sys2Proof.Machine.execCsrw w s
  | .csrs w => Sys2Proof.Machine.execCsrs w s
  | .csrc w => Sys2Proof.Machine.execCsrc w s
  | .ldgW w => Sys2Proof.Machine.execLdgW w s
  | .ldgWu w => Sys2Proof.Machine.execLdgWu w s
  | .ldgD w => Sys2Proof.Machine.execLdgD w s
  | .ldgS w => Sys2Proof.Machine.execLdgS w s
  | .stgW w => Sys2Proof.Machine.execStgW w s
  | .stgD w => Sys2Proof.Machine.execStgD w s
  | .fence w => Sys2Proof.Machine.execFence w s
  | .fenceAcq w => Sys2Proof.Machine.execFenceAcq w s
  | .commit w => Sys2Proof.Machine.execCommit w s
  | .commitRel w => Sys2Proof.Machine.execCommitRel w s
  | .check w => Sys2Proof.Machine.execCheck w s
  | .commitAAddD w => Sys2Proof.Machine.execCommitAAddD w s
  | .commitAMinD w => Sys2Proof.Machine.execCommitAMinD w s
  | .commitAMaxD w => Sys2Proof.Machine.execCommitAMaxD w s
  | .commitAAndD w => Sys2Proof.Machine.execCommitAAndD w s
  | .commitAOrD w => Sys2Proof.Machine.execCommitAOrD w s
  | .commitAXchgD w => Sys2Proof.Machine.execCommitAXchgD w s
  | .commitACasD w => Sys2Proof.Machine.execCommitACasD w s
  | .commitAAddW w => Sys2Proof.Machine.execCommitAAddW w s
  | .commitAMinW w => Sys2Proof.Machine.execCommitAMinW w s
  | .commitAMaxW w => Sys2Proof.Machine.execCommitAMaxW w s
  | .commitAAndW w => Sys2Proof.Machine.execCommitAAndW w s
  | .commitAOrW w => Sys2Proof.Machine.execCommitAOrW w s
  | .commitAXchgW w => Sys2Proof.Machine.execCommitAXchgW w s
  | .commitACasW w => Sys2Proof.Machine.execCommitACasW w s
  | .commitAFaddW w => Sys2Proof.Machine.execCommitAFaddW w s
  | .launch w => Sys2Proof.Machine.execLaunch w s
  | .launchSignal w => Sys2Proof.Machine.execLaunchSignal w s
  | .fenceRc w => Sys2Proof.Machine.execFenceRc w s
  | .hint w => Sys2Proof.Machine.execHint w s
  | .realign w => Sys2Proof.Machine.execRealign w s
  | .ask w => Sys2Proof.Machine.execAsk w s
  | .precv w => Sys2Proof.Machine.execPrecv w s
  | .prelease w => Sys2Proof.Machine.execPrelease w s
  | .suspend w => Sys2Proof.Machine.execSuspend w s
  | .resume w => Sys2Proof.Machine.execResume w s
  | .fork w => Sys2Proof.Machine.execFork w s
  | .discard w => Sys2Proof.Machine.execDiscard w s
  | .vadd w => Sys2Proof.Machine.execVadd w s
  | .vsub w => Sys2Proof.Machine.execVsub w s
  | .vmul w => Sys2Proof.Machine.execVmul w s
  | .vfma w => Sys2Proof.Machine.execVfma w s
  | .vfms w => Sys2Proof.Machine.execVfms w s
  | .vfnma w => Sys2Proof.Machine.execVfnma w s
  | .vmin w => Sys2Proof.Machine.execVmin w s
  | .vmax w => Sys2Proof.Machine.execVmax w s
  | .vabs w => Sys2Proof.Machine.execVabs w s
  | .vneg w => Sys2Proof.Machine.execVneg w s
  | .vrcp w => Sys2Proof.Machine.execVrcp w s
  | .vrsq w => Sys2Proof.Machine.execVrsq w s
  | .vexp2 w => Sys2Proof.Machine.execVexp2 w s
  | .vlog2 w => Sys2Proof.Machine.execVlog2 w s
  | .vcmp w => Sys2Proof.Machine.execVcmp w s
  | .vclass w => Sys2Proof.Machine.execVclass w s
  | .vsel w => Sys2Proof.Machine.execVsel w s
  | .vcvt w => Sys2Proof.Machine.execVcvt w s
  | .viadd w => Sys2Proof.Machine.execViadd w s
  | .visub w => Sys2Proof.Machine.execVisub w s
  | .vimul w => Sys2Proof.Machine.execVimul w s
  | .vimad w => Sys2Proof.Machine.execVimad w s
  | .vand w => Sys2Proof.Machine.execVand w s
  | .vor w => Sys2Proof.Machine.execVor w s
  | .vxor w => Sys2Proof.Machine.execVxor w s
  | .vandn w => Sys2Proof.Machine.execVandn w s
  | .vshl w => Sys2Proof.Machine.execVshl w s
  | .vshr w => Sys2Proof.Machine.execVshr w s
  | .vsra w => Sys2Proof.Machine.execVsra w s
  | .vimin w => Sys2Proof.Machine.execVimin w s
  | .vimax w => Sys2Proof.Machine.execVimax w s
  | .vicmp w => Sys2Proof.Machine.execVicmp w s
  | .vmov w => Sys2Proof.Machine.execVmov w s
  | .vmovToPattern w => Sys2Proof.Machine.execVmovToPattern w s
  | .vmovFromPattern w => Sys2Proof.Machine.execVmovFromPattern w s
  | .vext w => Sys2Proof.Machine.execVext w s
  | .vins w => Sys2Proof.Machine.execVins w s
  | .vperm w => Sys2Proof.Machine.execVperm w s
  | .vrot w => Sys2Proof.Machine.execVrot w s
  | .vcomp w => Sys2Proof.Machine.execVcomp w s
  | .vxpnd w => Sys2Proof.Machine.execVxpnd w s
  | .viota w => Sys2Proof.Machine.execViota w s
  | .vred w => Sys2Proof.Machine.execVred w s
  | .vscan w => Sys2Proof.Machine.execVscan w s
  | .vdefer w => Sys2Proof.Machine.execVdefer w s
  | .vdrain w => Sys2Proof.Machine.execVdrain w s
  | .vld w => Sys2Proof.Machine.execVld w s
  | .vst w => Sys2Proof.Machine.execVst w s
  | .vldb w => Sys2Proof.Machine.execVldb w s
  | .vstb w => Sys2Proof.Machine.execVstb w s
  | .vldx w => Sys2Proof.Machine.execVldx w s
  | .vstx w => Sys2Proof.Machine.execVstx w s
  | .vxpl w => Sys2Proof.Machine.execVxpl w s
  | .vldg w => Sys2Proof.Machine.execVldg w s
  | .vstg w => Sys2Proof.Machine.execVstg w s
  | .vredG w => Sys2Proof.Machine.execVredG w s
  | .kand w => Sys2Proof.Machine.execKand w s
  | .kor w => Sys2Proof.Machine.execKor w s
  | .kxor w => Sys2Proof.Machine.execKxor w s
  | .knot w => Sys2Proof.Machine.execKnot w s
  | .kmov w => Sys2Proof.Machine.execKmov w s
  | .kmovFromScalar w => Sys2Proof.Machine.execKmovFromScalar w s
  | .kmovToScalar w => Sys2Proof.Machine.execKmovToScalar w s
  | .kpop w => Sys2Proof.Machine.execKpop w s
  | .cpy w => Sys2Proof.Machine.execCpy w s
  | .cpyx w => Sys2Proof.Machine.execCpyx w s
  | .cresume w => Sys2Proof.Machine.execCresume w s
  | .ccancel w => Sys2Proof.Machine.execCcancel w s
  | .psend w => Sys2Proof.Machine.execPsend w s
  | .mwld w => Sys2Proof.Machine.execMwld w s
  | .mmul w => Sys2Proof.Machine.execMmul w s
  | .mchk w => Sys2Proof.Machine.execMchk w s
  | .mzero w => Sys2Proof.Machine.execMzero w s
  | .mald w => Sys2Proof.Machine.execMald w s
  | .mast w => Sys2Proof.Machine.execMast w s
  | .resultLanding core => Sys2Proof.Machine.execResultLanding core s
  | .guardedArrival core id => Sys2Proof.Machine.execGuardedArrival core id s
  | .copyGranuleArrival core slot granule => Sys2Proof.Machine.execCopyGranuleArrival core slot granule s
  | .copyBlockTranslated core slot => Sys2Proof.Machine.execCopyBlockTranslated core slot s
  | .tileLatch core => Sys2Proof.Machine.execTileLatch core s
  | .checksumCompare core => Sys2Proof.Machine.execChecksumCompare core s
  | .regionClosing core => Sys2Proof.Machine.execRegionClosing core s
  | .regionError core rgn engine addr => Sys2Proof.Machine.execRegionError core rgn engine addr s
  | .replay core => Sys2Proof.Machine.execReplay core s
  | .deadline core => Sys2Proof.Machine.execDeadline core s
  | .deadlineEnd core => Sys2Proof.Machine.execDeadlineEnd core s
  | .writePerform id => Sys2Proof.Machine.execWritePerform id s
  | .atomicPerform id => Sys2Proof.Machine.execAtomicPerform id s
  | .globalAdditionPerform id => Sys2Proof.Machine.execGlobalAdditionPerform id s
  | .translationReturn id => Sys2Proof.Machine.execTranslationReturn id s
  | .pipeRecordArrival id => Sys2Proof.Machine.execPipeRecordArrival id s
  | .pipeHeadArrival id => Sys2Proof.Machine.execPipeHeadArrival id s
  | .windowDelivery id => Sys2Proof.Machine.execWindowDelivery id s
  | .launchAdmission launch => Sys2Proof.Machine.execLaunchAdmission launch s
  | .stepDispatch launch => Sys2Proof.Machine.execStepDispatch launch s
  | .adoption launch => Sys2Proof.Machine.execAdoption launch s
  | .launchComplete launch => Sys2Proof.Machine.execLaunchComplete launch s
  | .variantChoice launch => Sys2Proof.Machine.execVariantChoice launch s
  | .preemption launch => Sys2Proof.Machine.execPreemption launch s
  | .tokenRefill part => Sys2Proof.Machine.execTokenRefill part s
  | .suspendFreeze core => Sys2Proof.Machine.execSuspendFreeze core s
  | .suspendBoundaryTimeout core => Sys2Proof.Machine.execSuspendBoundaryTimeout core s
  | .objectWrite group => Sys2Proof.Machine.execObjectWrite group s
  | .groupRestart group => Sys2Proof.Machine.execGroupRestart group s
  | .dieLoss die => Sys2Proof.Machine.execDieLoss die s
  | .controlDieLoss => Sys2Proof.Machine.execControlDieLoss s
  | .linkRetry link => Sys2Proof.Machine.execLinkRetry link s
  | .scrubVisit unit => Sys2Proof.Machine.execScrubVisit unit s
  | .amberVisit unit => Sys2Proof.Machine.execAmberVisit unit s
  | .ptpSample host rate => Sys2Proof.Machine.execPtpSample host rate s
  | .ptpLockLoss => Sys2Proof.Machine.execPtpLockLoss s
  | .clockSwitch => Sys2Proof.Machine.execClockSwitch s
  | .thermalDerate => Sys2Proof.Machine.execThermalDerate s
  | .clockRestore => Sys2Proof.Machine.execClockRestore s
  | .overtemperature => Sys2Proof.Machine.execOvertemperature s
  | .pfail => Sys2Proof.Machine.execPfail s
  | .pfailCaptureTimeout => Sys2Proof.Machine.execPfailCaptureTimeout s
  | .pfailIncrementTimeout => Sys2Proof.Machine.execPfailIncrementTimeout s
  | .pfailRelease => Sys2Proof.Machine.execPfailRelease s
  | .timedLaunchHold launch => Sys2Proof.Machine.execTimedLaunchHold launch s
  | .timedLaunchStart launch => Sys2Proof.Machine.execTimedLaunchStart launch s
  | .bulkheadReset bulkhead ordered => Sys2Proof.Machine.execBulkheadReset bulkhead ordered s
  | .bulkheadReturn bulkhead => Sys2Proof.Machine.execBulkheadReturn bulkhead s
  | .packageReset => Sys2Proof.Machine.execPackageReset s
  | .queueBind queue => Sys2Proof.Machine.execQueueBind queue s
  | .queueAging queue => Sys2Proof.Machine.execQueueAging queue s
  | .queueQuantumEnd queue => Sys2Proof.Machine.execQueueQuantumEnd queue s
  | .sqtailWrite vf j v => Sys2Proof.Machine.execSqtailWrite vf j v s
  | .cqheadWrite vf j v => Sys2Proof.Machine.execCqheadWrite vf j v s
  | .pcapWrite v => Sys2Proof.Machine.execPcapWrite v s
  | .boundaryRegisterWrite off v => Sys2Proof.Machine.execBoundaryRegisterWrite off v s
  | .registerWrite r v => Sys2Proof.Machine.execRegisterWrite r v s
  | .launchRecord queue => Sys2Proof.Machine.execLaunchRecord queue s
  | .timedLaunch queue => Sys2Proof.Machine.execTimedLaunch queue s
  | .fenceRcRecord queue => Sys2Proof.Machine.execFenceRcRecord queue s
  | .resumeRecord queue => Sys2Proof.Machine.execResumeRecord queue s
  | .forkRecord queue => Sys2Proof.Machine.execForkRecord queue s
  | .discardRecord queue => Sys2Proof.Machine.execDiscardRecord queue s
  | .checkpointRecord queue => Sys2Proof.Machine.execCheckpointRecord queue s
  | .partitionCreate part brow bcol bheight bwidth cfg => Sys2Proof.Machine.execPartitionCreate part brow bcol bheight bwidth cfg s
  | .partitionResize part brow bcol bheight bwidth => Sys2Proof.Machine.execPartitionResize part brow bcol bheight bwidth s
  | .partitionRemove part => Sys2Proof.Machine.execPartitionRemove part s
  | .bindVf vf part => Sys2Proof.Machine.execBindVf vf part s
  | .assignQueue queue vf => Sys2Proof.Machine.execAssignQueue queue vf s
  | .setPtroot part root => Sys2Proof.Machine.execSetPtroot part root s
  | .invalidate part what => Sys2Proof.Machine.execInvalidate part what s
  | .decodeTableLoad part addr => Sys2Proof.Machine.execDecodeTableLoad part addr s
  | .setMmode mode => Sys2Proof.Machine.execSetMmode mode s
  | .windowOpen part bulkhead n core base len => Sys2Proof.Machine.execWindowOpen part bulkhead n core base len s
  | .windowClose part bulkhead n => Sys2Proof.Machine.execWindowClose part bulkhead n s
  | .setPartitionParameters part v => Sys2Proof.Machine.execSetPartitionParameters part v s
  | .setPackageParameters v => Sys2Proof.Machine.execSetPackageParameters v s
  | .setHostsz size => Sys2Proof.Machine.execSetHostsz size s
  | .clearRetirement core => Sys2Proof.Machine.execClearRetirement core s
  | .lockPartition part manifest => Sys2Proof.Machine.execLockPartition part manifest s
  | .attest part nonce => Sys2Proof.Machine.execAttest part nonce s
  | .setCaptureMode part on ring => Sys2Proof.Machine.execSetCaptureMode part on ring s
  | .readEventLog => Sys2Proof.Machine.execReadEventLog s
  | .readPfailManifest => Sys2Proof.Machine.execReadPfailManifest s
  | .deviceTimeReached core => Sys2Proof.Machine.execDeviceTimeReached core s
  | .unassignedOpcode core => Sys2Proof.Machine.execUnassignedOpcode core s
  | .softError u => Sys2Proof.Machine.execSoftError u s
  | .readPerform id => Sys2Proof.Machine.execReadPerform id s
  | .hostLinkWriteCompletion id => Sys2Proof.Machine.execHostLinkWriteCompletion id s
  | .hostRequesterAccess pa n wr => Sys2Proof.Machine.execHostRequesterAccess pa n wr s
  | .invalidSubmissionRecord queue => Sys2Proof.Machine.execInvalidSubmissionRecord queue s

end Sys2Proof.Machine
end

