-- ==== Sys2Proof/Machine/Pick.lean ====
section
/-! DEFINITION. Which word or event the next step of the package executes: cores in the order of device time, events of the package when
they can come about, inputs first (R30 to R34, R38, R44, R47, R129, R215 to R219, R256, R260, R308, R356, R359, R368, R381, R421). -/
namespace Sys2Proof.Machine

/-! ### Events -/

/-- What can happen next: the next word of a core, or an event that has no encoding and that the machine brings about by itself. -/
inductive Ev where
  | issue (n : Nat)
  | landing (n : Nat)
  | latch (n : Nat)
  | compare (n : Nat)
  | closing (n : Nat)
  | replay (n : Nat)
  | deadline (n : Nat)
  | deadlineEnd (n : Nat)
  | timeReached (n : Nat)
  | suspendFreeze (n : Nat)
  | suspendTimeout (n : Nat)
  | arrival (n id : Nat)
  | granule (n slot g : Nat)
  | block (n slot : Nat)
  | read (id : Nat)
  | write (id : Nat)
  | atomic (id : Nat)
  | additions (id : Nat)
  | walk (id : Nat)
  | pipeRecord (id : Nat)
  | pipeHead (id : Nat)
  | window (id : Nat)
  | hostWrite (id : Nat)
  | admission (l : Nat)
  | dispatch (l : Nat)
  | adoption (l : Nat)
  | complete (l : Nat)
  | variant (l : Nat)
  | preempt (l : Nat)
  | timedHold (l : Nat)
  | timedStart (l : Nat)
  | token (p : Nat)
  | object (g : Nat)
  | restart (g : Nat)
  | dieLoss (d : Nat)
  | scrub (u : Nat)
  | amber (u : Nat)
  | lockLoss
  | clockSwitch
  | captureTimeout
  | incrementTimeout
  | bulkheadReturn (b : Nat)
  | bind (q : Nat)
  | aging (q : Nat)
  | quantum (q : Nat)
  /-- the record of the given type at the head of a queue -/
  | record (typ q : Nat)
  | invalidate (p : Nat) (w : InvScope) (id : Nat)
  | windowClose (b n : Nat)
  | mmode
  | port
  deriving DecidableEq, Repr

/-- The next word of core `n` (R28, R103, R216). -/
def runWord (n : Nat) (s : State) : Out :=
  let c := s.core n
  if c.outside then .next (s.fetchTrap n)
  else if s.tornCycle n then .next ((s.quadChain n).trapNext n c.nextEngine 0x12 (fun _ => 0))
  else match c.decodeAt c.pc with
    | .instr i => exec i { s with cur := n }
    | .unassigned _ => execUnassignedOpcode n s

/-- A submission record by its type (R410). -/
def runRecord (typ q : Nat) (s : State) : Out :=
  match typ with
  | 1 => execLaunchRecord q s
  | 2 => execTimedLaunch q s
  | 3 => execFenceRcRecord q s
  | 4 => execResumeRecord q s
  | 5 => execForkRecord q s
  | 6 => execDiscardRecord q s
  | 7 => execCheckpointRecord q s
  | _ => execInvalidSubmissionRecord q s

/-- The meaning of an event: that of its row of the opcode table, or the end of a command that has begun. -/
def Ev.run (e : Ev) (s : State) : Out :=
  match e with
  | .issue n => runWord n s
  | .landing n => execResultLanding n s
  | .latch n => execTileLatch n s
  | .compare n => execChecksumCompare n s
  | .closing n => execRegionClosing n s
  | .replay n => execReplay n s
  | .deadline n => execDeadline n s
  | .deadlineEnd n => execDeadlineEnd n s
  | .timeReached n => execDeviceTimeReached n s
  | .suspendFreeze n => execSuspendFreeze n s
  | .suspendTimeout n => execSuspendBoundaryTimeout n s
  | .arrival n id => execGuardedArrival n id s
  | .granule n k g => execCopyGranuleArrival n k g s
  | .block n k => execCopyBlockTranslated n k s
  | .read id => execReadPerform id s
  | .write id => execWritePerform id s
  | .atomic id => execAtomicPerform id s
  | .additions id => execGlobalAdditionPerform id s
  | .walk id => execTranslationReturn id s
  | .pipeRecord id => execPipeRecordArrival id s
  | .pipeHead id => execPipeHeadArrival id s
  | .window id => execWindowDelivery id s
  | .hostWrite id => execHostLinkWriteCompletion id s
  | .admission l => execLaunchAdmission l s
  | .dispatch l => execStepDispatch l s
  | .adoption l => execAdoption l s
  | .complete l => execLaunchComplete l s
  | .variant l => execVariantChoice l s
  | .preempt l => execPreemption l s
  | .timedHold l => execTimedLaunchHold l s
  | .timedStart l => execTimedLaunchStart l s
  | .token p => execTokenRefill p s
  | .object g => execObjectWrite g s
  | .restart g => execGroupRestart g s
  | .dieLoss d => execDieLoss (some d) s
  | .scrub u => execScrubVisit u s
  | .amber u => execAmberVisit u s
  | .lockLoss => execPtpLockLoss s
  | .clockSwitch => execClockSwitch s
  | .captureTimeout => execPfailCaptureTimeout s
  | .incrementTimeout => execPfailIncrementTimeout s
  | .bulkheadReturn b => execBulkheadReturn b s
  | .bind q => execQueueBind q s
  | .aging q => execQueueAging q s
  | .quantum q => execQueueQuantumEnd q s
  | .record typ q => runRecord typ q s
  | .invalidate p w id => s.finishInvalidate p w id
  | .windowClose b n => s.finishClose b n
  | .mmode => s.changeMmode
  | .port => s.openPort

/-- The event can come about. -/
def Ev.enabled (e : Ev) (s : State) : Bool := match e.run s with | .next _ => true | _ => false

/-! ### What a core does next -/

/-- A candidate: its device time, its place within that device cycle (landings, then closings, then words, then words that the members
of a quad issue together, then the ends of regions of a quad, then replays), its core, and the event. -/
structure Cand where
  time : Nat
  phase : Nat
  n : Nat
  ev : Ev
  deriving DecidableEq, Repr

/-- The earlier of two candidates. -/
def Cand.before (a b : Cand) : Bool :=
  a.time < b.time || (a.time = b.time && (a.phase < b.phase || (a.phase = b.phase && a.n ≤ b.n)))

/-- The place of a word in its cycle (R216, R218, R219, R256). -/
def Core.wordPhase (c : Core) : Nat :=
  if !c.coupled then 2 else
  match c.nextOp with
  | none => 2
  | some op => if endsRegion op then 4 else if op = 0x123 || 0x300 ≤ op then 3 else 2

/-- The device time beyond which the stream of core `n` does not run now, because it or a member of its quad waits for a device time
(R129, R215); none: no such wait. -/
def State.waitLimit (s : State) (n : Nat) : Option Nat :=
  ((s.gangOf n).filter (fun m => !(s.core m).hand && (s.core m).waiting.isSome)).foldl (fun (o : Option Nat) m => match o with
    | none => some (s.core m).dt
    | some t => some (min t (s.core m).dt)) none

/-- The stream cycle beyond which the stream of core `n` does not run now, because a member of its quad is in trap mode (R361). -/
def State.trapLimit (s : State) (n : Nat) : Option Nat :=
  (s.gangOf n).findSome? (fun m => if m = n then none else (s.core m).trap.map (·.f))

/-- Core `n` has left trap mode and waits for the other members of its quad to leave it too (R361). -/
def State.awaitsQuad (s : State) (n : Nat) : Bool :=
  (s.core n).exact_ && !(s.core n).hand && (s.gangOf n).any (fun m => (s.core m).hand)

/-- The cycle of its clock beyond which core `n` issues no word, because an error has been found (R330). -/
def State.doomLimit (s : State) (n : Nat) : Option Nat :=
  let c := s.core n
  if c.hand then c.doom.map (·.found)
  else (s.gangOf n).findSome? (fun m => let d := s.core m; if d.hand then none else d.doom.map (·.found))

/-- A bound that may be absent. -/
def within? (x : Nat) (o : Option Nat) : Bool := match o with | none => true | some b => x ≤ b

/-- The stream of core `n` may reach cycle `t` of its clock now. -/
def State.streamMay (s : State) (n t : Nat) : Bool :=
  let c := s.core n
  c.hand || (within? (c.devAt t) (s.waitLimit n) && within? t (s.trapLimit n))

/-- The landing that comes next. -/
def State.landCand (s : State) (n : Nat) : List Cand :=
  let c := s.core n
  match c.nextEff with
  | none => []
  | some x =>
    if s.streamMay n x.at_ then
      [⟨c.devAt x.at_, 0, n, match x.eff with | .compare .. => .compare n | .latch _ => .latch n | _ => .landing n⟩]
    else []

/-- The closing that comes next; in a coupled quad its lowest member stands for all. A region from which an error has been found does
not close (R44, R47, R216). -/
def State.closeCand (s : State) (n : Nat) : List Cand :=
  let g := s.gangOf n
  let t := s.quadClose n
  if (s.core n).closing.isEmpty || g.any (fun m => m < n) ||
     g.any (fun m => let c := s.core m
       c.closing.isEmpty || c.hand || c.frozen || (match c.doom, c.closing with | some d, r :: _ => d.rgn ≤ r.id | _, _ => false))
  then []
  else if s.streamMay n t then [⟨g.foldl (fun x m => max x ((s.core m).devAt t)) 0, 1, n, .closing n⟩] else []

/-- The replay or retirement that waits. -/
def State.doomCand (s : State) (n : Nat) : List Cand :=
  let c := s.core n
  match c.doom with
  | none => []
  | some d =>
    let held : Bool := d.why = 3 && !c.hand && s.killWaits n
    let time := if c.hand then max c.dt d.found
      else if (s.gangOf n).any (fun m => (s.core m).hand) then c.devAt d.found else c.devAt (s.doomAt n d)
    if held then [] else [⟨time, 5, n, .replay n⟩]

/-- The next word, and the events that take its place: DEADLINE, the end of a wait, the freeze for a suspension. -/
def State.wordCand (s : State) (n : Nat) : List Cand :=
  let c := s.core n
  if s.awaitsQuad n then [] else
  let t := c.issueAt c.nextIdle
  let dl := match c.deadlineAt with | some u => [(⟨u, 2, n, .deadline n⟩ : Cand)] | none => []
  let su := match (s.suspOf n).bind c.suspendAt with | some u => [(⟨u, 2, n, .suspendFreeze n⟩ : Cand)] | none => []
  let w := match c.waiting with
    | some u => [(⟨c.untilAt u, 2, n, .timeReached n⟩ : Cand)]
    | none =>
      if c.ended || !within? t (s.doomLimit n) || !s.streamMay n t then [] else [⟨c.devAt t, c.wordPhase, n, .issue n⟩]
  match su with
  | [] => if dl.isEmpty then w else dl
  | x :: _ => if dl.any (fun y => y.time < x.time) then dl else [x]

/-- The ends that the control die makes at a fixed time: of the step by R258, of a wait for a boundary by R368. -/
def State.endCand (s : State) (n : Nat) : List Cand :=
  let c := s.core n
  (match c.step with | some i => [(⟨max c.dt (i.dline + 65536), 0, n, .deadlineEnd n⟩ : Cand)] | none => []) ++
  (match s.suspOf n with
   | some g => if g.opts.getLsbD 31 && !c.hand then [⟨max c.dt (g.f + 65536), 0, n, .suspendTimeout n⟩] else []
   | none => [])

/-- The candidates of a core. A frozen core has none. -/
def State.coreCands (s : State) (n : Nat) : List Cand :=
  let c := s.core n
  if c.step.isNone || c.frozen then []
  else s.landCand n ++ s.closeCand n ++ s.doomCand n ++ s.wordCand n ++ s.endCand n

/-- The earliest of candidates. -/
def earliest (l : List Cand) : Option Cand :=
  l.foldl (fun (b : Option Cand) x => match b with
    | none => some x
    | some y => if y.before x then some y else some x) none

/-- What the cores do next. -/
def State.coreNext (s : State) : Option Cand := earliest (s.cores.flatMap (fun x => s.coreCands x.1))

/-! ### What the package does next -/

/-- An event of the package: the device time from which it can come about, or at which it does (`fixed`). -/
structure Pkg where
  time : Nat
  fixed : Bool
  ev : Ev
  deriving DecidableEq, Repr

/-- An event that comes about at some time from `t` on. -/
def Pkg.from (t : Nat) (e : Ev) : Pkg := ⟨t, false, e⟩

/-- An event that comes about at `t`. -/
def Pkg.at_ (t : Nat) (e : Ev) : Pkg := ⟨t, true, e⟩

/-- What memory and the walkers do (R274, R278, R395). -/
def State.memEvents (s : State) : List Pkg :=
  (match s.portOpens with | some t => [Pkg.at_ t .port] | none => []) ++
  (walking s.walks).map (fun w => .from (w.at_ + 60) (.walk w.id)) ++
  s.reads.map (fun r => .from (match r.done with | some (t, _) => t | none => r.at_ + homeLat r.core r.line) (.read r.id)) ++
  s.rels.filterMap (fun r => match r.eff with
    | .write .. => some (.from r.from (.write r.id))
    | .block .. => some (.from r.from (.write r.id))
    | .atomic .. => some (.from r.from (.atomic r.id))
    | .adds .. => some (.from r.from (.additions r.id))
    | .pipeRec .. => some (.from r.from (.pipeRecord r.id))
    | .pipeHead .. => some (.from r.from (.pipeHead r.id))
    | .window .. => some (.from r.from (.window r.id))
    | _ => none) ++
  s.hostWrites.map (fun h => .from 0 (.hostWrite h.1))

/-- What arrives at a core (R42, R306, R307). -/
def State.arrivalEvents (s : State) : List Pkg :=
  s.cores.flatMap (fun x =>
    x.2.awaits.map (fun w => .from (max w.since (match w.kind with | .ask _ _ _ u => u + 60 | _ => 0)) (.arrival x.1 w.id)) ++
    x.2.slots.flatMap (fun y =>
      (if y.2.kind = 3 then (x.2.empties.filter (fun e => e.2 = y.2.id)).map (fun e => .from y.2.since (.granule x.1 y.1 e.1)) else []) ++
      (if y.2.todo.isEmpty || y.2.susp.isSome || x.2.frozen then [] else [.from 0 (.block x.1 y.1)])))

/-- What the walker does (R240, R243, R248, R253, R257, R336, R365, R386). Of a post, or of the end of a step, it hears 30 cycles later, and what it
then reads or writes it reaches in another 30 (R381). -/
def State.launchEvents (s : State) : List Pkg :=
  s.launches.flatMap (fun l =>
    [.from (l.since + 60) (.admission l.id), .from 0 (.dispatch l.id), .from 0 (.adoption l.id), .from l.endAt (.complete l.id), .from 0 (.preempt l.id)] ++
    (match l.bounds with | b :: _ => [Pkg.from (b.at_ + 34) (.variant l.id)] | [] => []) ++
    (match l.target with
     | some (_, d) => if l.phase ≠ 0 then [] else if l.hold then [Pkg.at_ d (.timedStart l.id)] else [.at_ (d - 2 ^ 20) (.timedHold l.id)]
     | none => [])) ++
  s.parts.filterMap (fun p => if p.tokens < p.params.tokenDepth then some (.at_ p.tokenAt (.token p.id)) else none)

/-- What the control die does with groups (R368, R373). -/
def State.groupEvents (s : State) : List Pkg :=
  s.groups.map (fun g =>
    if g.phase = 0 then .from (g.cores.foldl (fun t n => max t ((s.core n).dt + 60)) g.f) (.object g.id)
    else if g.phase = 1 then .from g.f (.restart g.id) else .from g.endAt (.complete g.id))

/-- What the control die does at its times (R342, R350, R351, R382, R385, R396). -/
def State.timerEvents (s : State) : List Pkg :=
  ((List.range 2).filter (fun d => s.dieWorn d && !s.deadDies.contains d)).map (fun d => .at_ 0 (.dieLoss d)) ++
  (List.range 10).map (fun u => let x := (mget s.scrubs u).getD {}
    if x.amberDue then .at_ x.last (.amber u) else .at_ (x.last + s.scrubStep u) (.scrub u)) ++
  (if s.ptp.lock then [.at_ s.lockLossAt .lockLoss] else []) ++
  (match s.clockAt with | some (t, _) => [.at_ t .clockSwitch] | none => []) ++
  s.offline.map (fun o => .at_ o.2 (.bulkheadReturn o.1))

/-- What the control die does for the host (R275, R397, R410, R414, R416). -/
def State.hostEvents (s : State) : List Pkg :=
  s.queues.flatMap (fun q =>
    (if q.wantsSlot then [Pkg.from 0 (.bind q.id), .at_ q.agingAt (.aging q.id)] else []) ++
    (match q.bound with
     | some (t, k) => [Pkg.at_ (if 16 ≤ k then 0 else t + 3800000) (.quantum q.id)] ++
         (if q.waits then [.from 0 (.record (s.headRec q).typ q.id)] else [])
     | none => []) ++
    (if (s.ckptOf q.id).isSome then [.from 0 (.record 7 q.id)] else [])) ++
  s.invs.map (fun i => .from 0 (.invalidate i.1 i.2.1 i.2.2)) ++
  (s.windows.filter (fun w => w.closing ≠ 0)).map (fun w => .from 0 (.windowClose w.bulkhead w.n))

/-- Device cycles from the detection of a power fail to the times of R421. -/
def State.pfailEvents (s : State) (t : Nat) : List Pkg :=
  (if s.anyResident || s.groups.any (·.pfail) then [.at_ (t + s.cyclesOf 18) .captureTimeout] else []) ++
  [.at_ (t + s.cyclesOf 20) .incrementTimeout]

/-- Everything that the package can do, by the present life (R421). -/
def State.pkgEvents (s : State) : List Pkg :=
  match s.life with
  | .running =>
    match s.mmodeTo with
    | some _ => .from 0 .mmode :: (s.memEvents ++ s.arrivalEvents ++ s.timerEvents)
    | none => s.memEvents ++ s.arrivalEvents ++ s.launchEvents ++ s.groupEvents ++ s.timerEvents ++ s.hostEvents
  | .pfail t => s.memEvents ++ s.arrivalEvents ++ s.groupEvents.filter (fun e => match e.ev with | .object _ => true | _ => false) ++
      (s.hostEvents.filter (fun e => match e.ev with | .record 7 q => (s.ckptOf q).isSome | _ => false)) ++ s.pfailEvents t
  | _ => []

/-- The earliest of the events that come about at a fixed time. -/
def State.nextFixed (s : State) (l : List Pkg) : Option Pkg :=
  (l.filter (fun e => e.fixed && e.ev.enabled s)).foldl (fun (b : Option Pkg) x => match b with
    | none => some x
    | some y => if y.time ≤ x.time then some y else some x) none

/-- A copy is past its promise, or a region waits for a checkpoint's copy of a page: what can be done for it is done before a core goes
on (R272, R308). -/
def State.pressing (s : State) (h : Nat) : Bool :=
  s.cores.any (fun x => x.2.slots.any (fun y => y.2.susp.isNone && y.2.due < h) || (!s.ckpts.isEmpty && (s.ckPage x.1).isSome))

/-- What must happen next as time goes on, and when: the next of the cores, or an event at a fixed time that comes no later. -/
def State.clockNext (s : State) (l : List Pkg) : Option (Nat × Ev) :=
  match s.coreNext, s.nextFixed l with
  | some c, some f => if f.time < c.time then some (f.time, f.ev) else some (c.time, c.ev)
  | some c, none => some (c.time, c.ev)
  | none, some f => some (f.time, f.ev)
  | none, none => none

/-- What may happen next: what the clock brings, and every event that can come about by then (R260). -/
def State.choices (s : State) : List Ev :=
  let l := s.pkgEvents
  let k := s.clockNext l
  let free := (l.filter (fun e => !e.fixed && within? e.time (k.map (·.1)) && e.ev.enabled s)).map (·.ev)
  match k with
  | none => free
  | some (t, e) => if !free.isEmpty && s.pressing t then free else e :: free

/-! ### Inputs (R22, R260, R277, R353, R407, R415) -/

/-- What the outside world may do: the other rows of the opcode table are not inputs. -/
def isInput : Instr → Bool
  | .softError _ => true
  | .regionError .. => true
  | .linkRetry _ => true
  | .controlDieLoss => true
  | .dieLoss _ => true
  | .bulkheadReset .. => true
  | .packageReset => true
  | .thermalDerate => true
  | .clockRestore => true
  | .overtemperature => true
  | .pfail => true
  | .pfailRelease => true
  | .ptpSample .. => true
  | .sqtailWrite .. => true
  | .cqheadWrite .. => true
  | .pcapWrite _ => true
  | .boundaryRegisterWrite .. => true
  | .registerWrite .. => true
  | .partitionCreate .. => true
  | .partitionResize .. => true
  | .partitionRemove _ => true
  | .bindVf .. => true
  | .assignQueue .. => true
  | .setPtroot .. => true
  | .invalidate .. => true
  | .decodeTableLoad .. => true
  | .setMmode _ => true
  | .windowOpen .. => true
  | .windowClose .. => true
  | .setPartitionParameters .. => true
  | .setPackageParameters _ => true
  | .setHostsz _ => true
  | .clearRetirement _ => true
  | .lockPartition .. => true
  | .attest .. => true
  | .setCaptureMode .. => true
  | .readEventLog => true
  | .readPfailManifest => true
  | .hostRequesterAccess .. => true
  | _ => false

/-- The device time before which an input does not come: a sample of the host's clock its interval, the return of the clock the time
that junctions must stay cool (R385, R425). -/
def State.inputTime (s : State) (i : Instr) : Nat :=
  match i with
  | .ptpSample .. => s.ptp.nextAt
  | .clockRestore => s.coolAt
  | _ => 0

/-- An input is a write of a register, or comes from within the package: it does not use the memory network, and is no command. -/
def byRegister : Instr → Bool
  | .boundaryRegisterWrite .. => true
  | .registerWrite .. => true
  | .pcapWrite _ => true
  | .sqtailWrite .. => true
  | .cqheadWrite .. => true
  | .softError _ => true
  | .linkRetry _ => true
  | .controlDieLoss => true
  | .dieLoss _ => true
  | .packageReset => true
  | .thermalDerate => true
  | .overtemperature => true
  | .pfail => true
  | _ => false

/-- The input at the head of the inputs acts now. While a change of the memory mode quiesces the memory network, commands and accesses to
memory wait (R390). -/
def State.inputNow (s : State) (i : Instr) : Bool :=
  within? (s.inputTime i) ((s.clockNext s.pkgEvents).map (·.1)) && (s.mmodeTo.isNone || byRegister i)

/-- The next word or event, and the state in which it executes. A free value decides among several (log 5). -/
def State.pick (s : State) : Option (Ev × State) :=
  match s.choices with
  | [] => none
  | [e] => some (e, s)
  | e :: r => some (((e :: r)[Config.freeChoice s.free % (r.length + 1)]?).getD e, { s with free := s.free + 1 })

end Sys2Proof.Machine
end

