-- ==== Sys2Proof/Machine/Step.lean ====
section
/-! DEFINITION. One step of the package, and the state in which it runs a given instruction. -/
namespace Sys2Proof.Machine

/-- A step that is no input: the word or event that comes next. -/
def stepOwn (s : State) : Host.Outcome State Fault Refusal :=
  match s.pick with
  | some (e, t) => e.run t
  | none => .fault .nothingToDo

/-- One step: an input that is there acts first; else the next word or event. A row that is no input does not come from outside. A package that is held in reset hears only its release
(R421), one that has ended hears nothing (R24). -/
def step (s : State) : Host.Outcome State Fault Refusal :=
  match s.life with
  | .ended => .fault .packageStopped
  | .held => (match s.inputs with
    | [] => .fault .packageStopped
    | i :: r => (match i with
      | .pfailRelease => execPfailRelease { s with inputs := r }
      | .packageReset => execPackageReset { s with inputs := r }
      | _ => .next { s with inputs := r }))
  | _ => (match s.inputs with
    | [] => stepOwn s
    | i :: r =>
      if !isInput i then .next { s with inputs := r }
      else if s.inputNow i then exec i { s with inputs := r } else stepOwn s)

/-- The step that `State.withFetchWord` starts: all of it as a launch could have placed it (log 11). -/
def fetchStep (now : Nat) : StepInfo :=
  { launch := 0, part := 0, stepid := 0, sbase := 0x140000, slim := 0x100000, codebase := 0, codelen := 0x40000, dline := now + 2 ^ 32
    started := now, est := 2 ^ 32, estAt := now }

/-- Core 0 runs a fresh step whose code begins with the given word: the very next step of a state with nothing under way, such as the
one after reset, fetches and runs it (log 11). -/
def State.withFetchWord (s : State) (nbits w : Nat) : State :=
  let a : Arch := ({} : Arch).setS 31 0x140000 false
  let c : Core := { step := some (fetchStep s.now), dt := s.now, dtRef := s.now, arch := a, opn := { snap := a }
                    spad := Memory.write [] 0 (leBytes (nbits / 8) w) }
  { s with inputs := [], life := .running, cores := mput s.cores 0 c }

end Sys2Proof.Machine
end

