-- ==== Sys2Proof/Safety.lean ====
section
/-! DEFINITION. What a safe run of the package is, and the terms in which the claims speak of the issue of a word. -/
namespace Sys2Proof.Machine

/-- A step is safe when the model neither faults nor refuses: traps, ends of steps and errors of the package are next
states and are safe (R346, R356). -/
def State.safe (s : State) : Prop := ∃ t, step s = .next t

/-! ### The word at the head of the stream of core `cur` -/

/-- The cycle of the core's clock in which a word with the given idle count issues (R30). -/
def State.cycle (s : State) (idle : Nat) : Nat := (s.core s.cur).issueAt idle

/-- The core with its clock at the issue cycle (R30, R38). -/
def State.issueCore (s : State) (idle : Nat) : Core := (s.core s.cur).goTo (s.cycle idle)

/-- The state at the issue cycle. -/
def State.atIssue (s : State) (idle : Nat) : State := (s.setCore s.cur (s.issueCore idle)).sync s.cur

/-- What the word sees of its issue. -/
def State.issueCtx (s : State) (idle : Nat) : Ctx := (s.issueCore idle).ctx s.cur

/-- The word with head `h`, which reads or writes the registers `regs`, issues now and meets no condition of R103 that stops it: a step
runs and has not ended (R130), the quad owes no trap (R216), the word is active in this kernel iteration (R134), no field fails (R103), a
trap handler may issue it (R359), its engine is free in its issue group (R31), none of its registers is empty (R41), and it names no state
whose parity is wrong (R325). -/
abbrev State.canIssue (s : State) (h : Head) (regs : Ctx → List Ref) : Prop :=
  (s.core s.cur).step.isSome = true ∧ (s.core s.cur).ended = false ∧ (s.core s.cur).owe = none ∧
  (s.core s.cur).arch.loop.activeFor h.stage = true ∧ h.fieldFail s.cur (s.issueCore h.idle) = none ∧
  ((s.core s.cur).hand && (handlerBanned (h.i.opcode.getD 0) || h.banned)) = false ∧
  (s.core s.cur).conflicts ((s.core s.cur).ownAt h.idle) h.eng = false ∧
  (s.issueCore h.idle).awaitOf (regs (s.issueCtx h.idle)) = none ∧
  ∀ r ∈ (s.core s.cur).arch.struck, h.names (s.issueCore h.idle) (regs (s.issueCtx h.idle)) r = false

/-- What the issue of a word may change of its core `c` when its effects are only under way: the place of the stream, its clock, its issue
group, the operations in flight, the sets R and W and the last landing of the open region, and the state of the loop buffer. -/
def Core.issuedFrame (c d : Core) : Prop :=
  d = { c with
    stream := d.stream, dt := d.dt, pc := d.pc, base := d.base, exact_ := d.exact_, floor := d.floor, until? := d.until?,
    walkFaults := d.walkFaults, grpAt := d.grpAt, grpEng := d.grpEng, grpEnd := d.grpEnd, flights := d.flights
    opn := { c.opn with tL := d.opn.tL, rset := d.opn.rset, wset := d.opn.wset }
    arch := { c.arch with loop := d.arch.loop } }

/-- The frame of a word whose effects are only under way: global memory, every other core and all of the package but the clock and the
identifiers stay as they are, and so does the core but for what `Core.issuedFrame` names; its clock stands at the issue cycle. -/
structure State.Issued (s t : State) (h : Head) : Prop where
  package : t = { s with cores := t.cores, now := t.now, nextId := t.nextId }
  others : ∀ m, m ≠ s.cur → t.core m = s.core m
  core : (s.core s.cur).issuedFrame (t.core s.cur)
  stream : (t.core s.cur).stream = (s.issueCore h.idle).stream
  device : (t.core s.cur).dt = (s.issueCore h.idle).dt
  group : (t.core s.cur).grpAt = s.cycle h.idle

/-- The stream goes on behind the word, outside a loop body with the word that follows it in the code, whose idle count runs from `extra`
cycles after the issue cycle (R27, R30, R128). -/
def State.goesOn (s t : State) (h : Head) (extra : Nat) : Prop :=
  (s.core s.cur).arch.loop.active = false →
    (t.core s.cur).pc = (s.core s.cur).pc + h.len ∧ (t.core s.cur).base = (s.issueCore h.idle).clock + extra

/-- The word has put one operation in flight, of the open region, whose effects `evs` come so many cycles after the issue cycle (R33). -/
def State.puts (s t : State) (h : Head) (evs : List (Nat × Eff)) : Prop :=
  ∃ f : Flight, (t.core s.cur).flights = (s.core s.cur).flights ++ [f] ∧ f.issue = (s.issueCore h.idle).clock ∧
    f.addr = (s.core s.cur).pc ∧ f.rgn = (s.core s.cur).opn.id ∧
    f.evs = evs.map (fun e => ((s.issueCore h.idle).clock + e.1, e.2))

end Sys2Proof.Machine
end

