-- ==== Sys2Proof/Certificates/Slice0/Obligations.lean ====
section
/-! DEFINITION. The statements for the provers. -/
open Sys2Proof
open Sys2Proof.Machine

/-! ### Scalar integer words (R113 to R119) -/

/-- The words of R116 and R117 with operands a and b: latency and value. -/
def Sys2Proof.Claims.twoOperand (w : SRWord) : List (Instr × Nat × (Word → Word → Word)) :=
  [(.add w, 1, fun a b => a + b), (.sub w, 1, fun a b => a - b), (.mul w, 3, fun a b => a * b),
   (.mulh w, 3, fun a b => BitVec.ofInt 64 (a.toInt * b.toInt / 2 ^ 64)),
   (.mulhu w, 3, fun a b => BitVec.ofNat 64 (a.toNat * b.toNat / 2 ^ 64)),
   (.div w, 24, fun a b => if b = 0 then 0xFFFFFFFFFFFFFFFF else a.sdiv b),
   (.divu w, 24, fun a b => if b = 0 then 0xFFFFFFFFFFFFFFFF else BitVec.ofNat 64 (a.toNat / b.toNat)),
   (.rem w, 24, fun a b => if b = 0 then 0xFFFFFFFFFFFFFFFF else a - b * a.sdiv b),
   (.remu w, 24, fun a b => if b = 0 then 0xFFFFFFFFFFFFFFFF else BitVec.ofNat 64 (a.toNat % b.toNat)),
   (.andR w, 1, fun a b => a &&& b), (.orR w, 1, fun a b => a ||| b), (.xorR w, 1, fun a b => a ^^^ b),
   (.andn w, 1, fun a b => a &&& ~~~b), (.shl w, 1, fun a b => a <<< (b.toNat % 64)),
   (.shr w, 1, fun a b => a >>> (b.toNat % 64)), (.sra w, 1, fun a b => a.sshiftRight (b.toNat % 64)),
   (.min w, 1, fun a b => if a.toInt < b.toInt then a else b), (.max w, 1, fun a b => if a.toInt < b.toInt then b else a),
   (.minu w, 1, fun a b => if a.toNat < b.toNat then a else b), (.maxu w, 1, fun a b => if a.toNat < b.toNat then b else a),
   (.slt w, 1, fun a b => if a.toInt < b.toInt then 1 else 0), (.sltu w, 1, fun a b => if a.toNat < b.toNat then 1 else 0),
   (.seq w, 1, fun a b => if a = b then 1 else 0), (.sne w, 1, fun a b => if a = b then 0 else 1),
   (.bfx w, 1, fun a b =>
     let width := b.toNat / 64 % 64 + 1
     let f := a.toNat / 2 ^ (b.toNat % 64) % 2 ^ width
     if b.getLsbD 12 && 2 ^ (width - 1) ≤ f then BitVec.ofInt 64 ((f : Int) - 2 ^ width) else BitVec.ofNat 64 f),
   (.addx2 w, 1, fun a b => a + 2 * b), (.addx4 w, 1, fun a b => a + 4 * b), (.addx8 w, 1, fun a b => a + 8 * b)]

/-- R114, R116, R117: every word with operands a and b that can issue completes; outside the STACK check of s31 it puts in flight exactly
one scalar result for its destination, of the value that its row of the table gives, poisoned when a or b is, that lands after its latency. It
changes nothing else. -/
def Obligations.ScalarTwoOperandWords : Prop :=
  ∀ (w : SRWord) (s : State) (i : Instr) (lat : Nat) (f : Word → Word → Word), (i, lat, f) ∈ Claims.twoOperand w →
    let h := hdSR i w (some lat)
    let cx := s.issueCtx h.idle
    let z := w.z == 1
    let a := readS (s.issueCore h.idle) cx (rotS cx z w.a.toNat)
    let b := readS (s.issueCore h.idle) cx (rotS cx z w.b.toNat)
    let d := rotS cx z w.d.toNat
    s.canIssue h (fun cx => refS (rotS cx z w.d.toNat) ++ refS (rotS cx z w.a.toNat) ++ refS (rotS cx z w.b.toNat)) →
    (d = 31 → stackBad (s.issueCore h.idle) (f a.1 b.1) = false) →
    ∃ t, exec i s = .next t ∧ s.Issued t h ∧ s.goesOn t h 0 ∧ s.puts t h [(lat, .sland d (f a.1 b.1) (a.2 || b.2))]

/-- The number of leading positions of a list of bits that are zero. -/
def Sys2Proof.Claims.zeros (l : List Bool) : Nat := (l.takeWhile (fun b => !b)).length

/-- Bit `p` of BFI's result (R117): the field [p, p + w) takes the low bits of a, the others are those of d_old. -/
def Sys2Proof.Claims.bfiBit (a b o : Word) (k : Nat) : Bool :=
  let p := b.toNat % 64
  let width := b.toNat / 64 % 64 + 1
  if p ≤ k && k < p + width then a.getLsbD (k - p) else o.getLsbD k

/-- Bit `k` of BFX's result (R117): bit k of the field, and from the field's width on its top bit where x is set. -/
def Sys2Proof.Claims.bfxBit (a b : Word) (k : Nat) : Bool :=
  let p := b.toNat % 64
  let width := b.toNat / 64 % 64 + 1
  if k < width then a.getLsbD (p + k) else b.getLsbD 12 && a.getLsbD (p + width - 1)

/-- R114, R116, R117: SELZ and BFI, which read d_old, BFX, and CLZ, CTZ and POPC, which read a only. Each completes, and puts in flight exactly one
scalar result after 1 cycle: for SELZ b when a is zero and else d_old, for BFI and BFX the value whose bits `Claims.bfiBit` and `Claims.bfxBit`
name, for CLZ, CTZ and POPC the number of leading zeros, trailing zeros and ones of a. -/
def Obligations.ScalarSelectAndCountWords : Prop :=
  (∀ (w : SRWord) (s : State) (i : Instr), i = .selz w ∨ i = .bfi w →
    let h := hdSR i w (some 1)
    let cx := s.issueCtx h.idle
    let z := w.z == 1
    let a := readS (s.issueCore h.idle) cx (rotS cx z w.a.toNat)
    let b := readS (s.issueCore h.idle) cx (rotS cx z w.b.toNat)
    let d := rotS cx z w.d.toNat
    let o := readS (s.issueCore h.idle) cx d
    s.canIssue h (fun cx => refS (rotS cx z w.d.toNat) ++ refS (rotS cx z w.a.toNat) ++ refS (rotS cx z w.b.toNat)) →
    ∀ v : Word, (i = .selz w → v = if a.1 = 0 then b.1 else o.1) →
      (i = .bfi w → ∀ k, k < 64 → v.getLsbD k = Claims.bfiBit a.1 b.1 o.1 k) →
      (d = 31 → stackBad (s.issueCore h.idle) v = false) →
      ∃ t, exec i s = .next t ∧ s.Issued t h ∧ s.goesOn t h 0 ∧ s.puts t h [(1, .sland d v (a.2 || b.2 || o.2))]) ∧
  (∀ (w : SRWord) (s : State),
    let h := hdSR (.bfx w) w (some 1)
    let cx := s.issueCtx h.idle
    let z := w.z == 1
    let a := readS (s.issueCore h.idle) cx (rotS cx z w.a.toNat)
    let b := readS (s.issueCore h.idle) cx (rotS cx z w.b.toNat)
    let d := rotS cx z w.d.toNat
    s.canIssue h (fun cx => refS (rotS cx z w.d.toNat) ++ refS (rotS cx z w.a.toNat) ++ refS (rotS cx z w.b.toNat)) →
    ∀ v : Word, (∀ k, k < 64 → v.getLsbD k = Claims.bfxBit a.1 b.1 k) → (d = 31 → stackBad (s.issueCore h.idle) v = false) →
      ∃ t, exec (.bfx w) s = .next t ∧ s.Issued t h ∧ s.goesOn t h 0 ∧ s.puts t h [(1, .sland d v (a.2 || b.2))]) ∧
  (∀ (w : SRWord) (s : State) (i : Instr) (f : Word → Nat),
    (i, f) ∈ ([(.clz w, fun a => Claims.zeros ((List.range 64).map (fun k => a.getLsbD (63 - k)))),
               (.ctz w, fun a => Claims.zeros ((List.range 64).map (fun k => a.getLsbD k))),
               (.popc w, fun a => ((List.range 64).filter (fun k => a.getLsbD k)).length)] : List (Instr × (Word → Nat))) →
    let h := hdSR i w (some 1)
    let cx := s.issueCtx h.idle
    let z := w.z == 1
    let a := readS (s.issueCore h.idle) cx (rotS cx z w.a.toNat)
    let d := rotS cx z w.d.toNat
    s.canIssue h (fun cx => refS (rotS cx z w.d.toNat) ++ refS (rotS cx z w.a.toNat)) →
    (d = 31 → stackBad (s.issueCore h.idle) (BitVec.ofNat 64 (f a.1)) = false) →
    ∃ t, exec i s = .next t ∧ s.Issued t h ∧ s.goesOn t h 0 ∧ s.puts t h [(1, .sland d (BitVec.ofNat 64 (f a.1)) a.2)])

/-- The immediate words of R118: the value from a. -/
def Sys2Proof.Claims.immediate (w : SIWord) : List (Instr × (Word → Word)) :=
  let imm : Word := w.imm.signExtend 64
  let n := w.imm.toNat % 64
  [(.addi w, fun a => a + imm), (.andi w, fun a => a &&& imm), (.ori w, fun a => a ||| imm), (.xori w, fun a => a ^^^ imm),
   (.shli w, fun a => a <<< n), (.shri w, fun a => a >>> n), (.srai w, fun a => a.sshiftRight n),
   (.slti w, fun a => if a.toInt < imm.toInt then 1 else 0)]

/-- R114, R118, R119: the immediate words, MOVI and MOVSH complete, and put in flight exactly one scalar result after 1 cycle: the value of the
table, poisoned when a is; for MOVI the sign-extended imm13, never poisoned; for MOVSH (d_old << 13) OR imm13. MOVI and MOVSH of a value outside
[SLIM, SBASE] to s31 raise STACK with that value in TVAL (R115). Their opcodes are those of the rules. -/
def Obligations.ScalarImmediateWords : Prop :=
  (∀ (w : SIWord) (m : SLWord), (Claims.immediate w).map (fun x => x.1.opcode) = (List.range 8).map (fun k => some (0x040 + k)) ∧
    (Instr.movi m).opcode = some 0x048 ∧ (Instr.movsh m).opcode = some 0x049) ∧
  (∀ (w : SIWord) (s : State) (i : Instr) (f : Word → Word), (i, f) ∈ Claims.immediate w →
    let h := hdS i w.idle (some 1)
    let a := readS (s.issueCore h.idle) (s.issueCtx h.idle) w.a.toNat
    s.canIssue h (fun _ => refS w.d.toNat ++ refS w.a.toNat) →
    (w.d.toNat = 31 → stackBad (s.issueCore h.idle) (f a.1) = false) →
    ∃ t, exec i s = .next t ∧ s.Issued t h ∧ s.goesOn t h 0 ∧ s.puts t h [(1, .sland w.d.toNat (f a.1) a.2)]) ∧
  (∀ (w : SLWord) (s : State),
    let h := hdS (.movi w) w.idle (some 1)
    let v : Word := BitVec.ofInt 64 w.imm.toInt
    s.canIssue h (fun _ => refS w.d.toNat) →
    ((w.d.toNat = 31 → stackBad (s.issueCore h.idle) v = false) →
      ∃ t, exec (.movi w) s = .next t ∧ s.Issued t h ∧ s.goesOn t h 0 ∧ s.puts t h [(1, .sland w.d.toNat v false)]) ∧
    (w.d.toNat = 31 → (∀ k, (s.core s.cur).step = some k → v.toNat < k.slim ∨ k.sbase < v.toNat) →
      exec (.movi w) s = .next ((s.atIssue h.idle).trap s.cur 0 0x04 v))) ∧
  (∀ (w : SLWord) (s : State),
    let h := hdS (.movsh w) w.idle (some 1)
    let o := readS (s.issueCore h.idle) (s.issueCtx h.idle) w.d.toNat
    let v : Word := BitVec.ofNat 64 (o.1.toNat * 2 ^ 13 + w.imm.toNat)
    s.canIssue h (fun _ => refS w.d.toNat) →
    ((w.d.toNat = 31 → stackBad (s.issueCore h.idle) v = false) →
      ∃ t, exec (.movsh w) s = .next t ∧ s.Issued t h ∧ s.goesOn t h 0 ∧ s.puts t h [(1, .sland w.d.toNat v o.2)]) ∧
    (w.d.toNat = 31 → (∀ k, (s.core s.cur).step = some k → v.toNat < k.slim ∨ k.sbase < v.toNat) →
      exec (.movsh w) s = .next ((s.atIssue h.idle).trap s.cur 0 0x04 v)))

/-- R43, R115: a word of latency 1 whose destination is s31 and whose value lies outside [SLIM, SBASE] raises STACK (0x04) in its issue cycle, with
that value in TVAL, and has no other effect. -/
def Sys2Proof.Claims.StackCheckOfResults : Prop :=
  (∀ (w : SRWord) (s : State) (i : Instr) (f : Word → Word → Word), (i, 1, f) ∈ Claims.twoOperand w →
    let h := hdSR i w (some 1)
    let cx := s.issueCtx h.idle
    let z := w.z == 1
    let a := readS (s.issueCore h.idle) cx (rotS cx z w.a.toNat)
    let b := readS (s.issueCore h.idle) cx (rotS cx z w.b.toNat)
    s.canIssue h (fun cx => refS (rotS cx z w.d.toNat) ++ refS (rotS cx z w.a.toNat) ++ refS (rotS cx z w.b.toNat)) →
    rotS cx z w.d.toNat = 31 →
    (∀ k, (s.core s.cur).step = some k → (f a.1 b.1).toNat < k.slim ∨ k.sbase < (f a.1 b.1).toNat) →
    exec i s = .next ((s.atIssue h.idle).trap s.cur 0 0x04 (f a.1 b.1))) ∧
  (∀ (w : SIWord) (s : State) (i : Instr) (f : Word → Word), (i, f) ∈ Claims.immediate w →
    let h := hdS i w.idle (some 1)
    let a := readS (s.issueCore h.idle) (s.issueCtx h.idle) w.a.toNat
    s.canIssue h (fun _ => refS w.d.toNat ++ refS w.a.toNat) → w.d.toNat = 31 →
    (∀ k, (s.core s.cur).step = some k → (f a.1).toNat < k.slim ∨ k.sbase < (f a.1).toNat) →
    exec i s = .next ((s.atIssue h.idle).trap s.cur 0 0x04 (f a.1)))

/-! ### Scalar floating point (R145 to R149) -/

/-- The floating-point words with a result rounded in the mode of RMODE: latency, whether b and d_old are read, format and operation (R146), and
the check of their shade unit on a result x of a, b and d_old (R328, R329). -/
def Sys2Proof.Claims.fpRounded (w : SRWord) :
    List (Instr × Nat × Bool × Bool × Fmt × (Mode → FV → FV → FV → Nat × Flags) × (FV → FV → FV → FV → Bool)) :=
  let add (f : Fmt) (x a b _o : FV) : Bool := shadeAdd f x a b
  let sub (f : Fmt) (x a b _o : FV) : Bool := shadeAdd f x a b.neg
  let mul (f : Fmt) (x a b _o : FV) : Bool := shadeMul f x a b
  let none_ (_ _ _ _ : FV) : Bool := true
  [(.faddS w, 4, true, false, fp32, fun m a b _ => fAdd fp32 m a b, add fp32),
   (.fsubS w, 4, true, false, fp32, fun m a b _ => fAdd fp32 m a b.neg, sub fp32),
   (.fmulS w, 4, true, false, fp32, fun m a b _ => fMul fp32 m a b, mul fp32),
   (.ffmaS w, 4, true, true, fp32, fun m a b c => fFma fp32 m a b c, shadeFma fp32),
   (.fdivS w, 12, true, false, fp32, fun m a b _ => fDiv fp32 m a b, none_), (.fsqrtS w, 12, false, false, fp32, fun m a _ _ => fSqrt fp32 m a, none_),
   (.faddD w, 6, true, false, fp64, fun m a b _ => fAdd fp64 m a b, add fp64),
   (.fsubD w, 6, true, false, fp64, fun m a b _ => fAdd fp64 m a b.neg, sub fp64),
   (.fmulD w, 6, true, false, fp64, fun m a b _ => fMul fp64 m a b, mul fp64),
   (.ffmaD w, 6, true, true, fp64, fun m a b c => fFma fp64 m a b c, shadeFma fp64),
   (.fdivD w, 20, true, false, fp64, fun m a b _ => fDiv fp64 m a b, none_), (.fsqrtD w, 20, false, false, fp64, fun m a _ _ => fSqrt fp64 m a, none_)]

/-- The words of R146 to R148 whose result comes from the patterns of a and b without rounding. -/
def Sys2Proof.Claims.fpPattern (w : SRWord) : List (Instr × Bool × Nat × (Nat → Nat → Nat × Flags)) :=
  let cmp (f : Fmt) (x y : Nat) : Nat × Flags := (((fCmp f x y).1 % 2 ^ 64).toNat, (fCmp f x y).2)
  [(.fminS w, true, 32, fMinMax fp32 false), (.fmaxS w, true, 32, fMinMax fp32 true), (.fcmpS w, true, 32, cmp fp32),
   (.fclassS w, false, 32, fun x _ => (fClass fp32 x, 0)), (.fabsS w, false, 32, fun x _ => (x % 2 ^ 31, 0)),
   (.fnegS w, false, 32, fun x _ => (if x < 2 ^ 31 then x + 2 ^ 31 else x - 2 ^ 31, 0)),
   (.fminD w, true, 64, fMinMax fp64 false), (.fmaxD w, true, 64, fMinMax fp64 true), (.fcmpD w, true, 64, cmp fp64),
   (.fclassD w, false, 64, fun x _ => (fClass fp64 x, 0)), (.fabsD w, false, 64, fun x _ => (x % 2 ^ 63, 0)),
   (.fnegD w, false, 64, fun x _ => (if x < 2 ^ 63 then x + 2 ^ 63 else x - 2 ^ 63, 0))]

/-- The effects of a result with flags: the flags come in the landing cycle (R71). -/
def Sys2Proof.Claims.withFlags (lat d : Nat) (psn : Bool) (r : Nat × Flags) : List (Nat × Eff) :=
  (lat, .sland d (BitVec.ofNat 64 r.1) psn) :: (if r.2 = 0 then [] else [(lat, .flags r.2)])

/-- What a shade unit adds to a result that lands after `lat` cycles: nothing where its check passes, else an error of its engine, named with the
word's address (R328, R329, R352). -/
def Sys2Proof.Claims.shaded (lat engine : Nat) (c : Core) (ok : Bool) : List (Nat × Eff) := if ok then [] else [(lat, .mismatch engine c.pc)]

/-- R145 to R149, R328, R329: every scalar floating-point word that can issue completes: it reads the low 32 or 64 bits of its operands, puts in flight the
zero-extended result, poisoned when an operand it reads is, and with it the flags that the operation raises, and changes nothing else; where the
shade unit does not pass a result of FADD, FSUB, FMUL or FFMA, an error of engine 0 comes with it. FFMA reads d_old as its addend; FCVT converts as its b field says, towards zero where bit 4 of it is set. -/
def Obligations.ScalarFloatWords : Prop :=
  (∀ (w : SRWord) (s : State) (i : Instr) (lat : Nat) (ub uo : Bool) (f : Fmt) (op : Mode → FV → FV → FV → Nat × Flags)
      (sh : FV → FV → FV → FV → Bool), (i, lat, ub, uo, f, op, sh) ∈ Claims.fpRounded w →
    let h := hdSR i w (some lat)
    let cx := s.issueCtx h.idle
    let z := w.z == 1
    let rd (use : Bool) (k : Nat) : Word × Bool := if use then readS (s.issueCore h.idle) cx (rotS cx z k) else (0, false)
    let a := rd true w.a.toNat
    let b := rd ub w.b.toNat
    let o := rd uo w.d.toNat
    let v (x : Word × Bool) : FV := FV.ofBits f (x.1.toNat % 2 ^ f.width)
    let r := op (((s.issueCore h.idle).rctx cx).mode 6 0 0) (v a) (v b) (v o)
    s.canIssue h (fun cx => refS (rotS cx z w.d.toNat) ++ refS (rotS cx z w.a.toNat) ++ (if ub then refS (rotS cx z w.b.toNat) else [])) →
    ∃ t, exec i s = .next t ∧ s.Issued t h ∧ s.goesOn t h 0 ∧
      s.puts t h (Claims.withFlags lat (rotS cx z w.d.toNat) (a.2 || b.2 || o.2) r ++
        Claims.shaded lat 0 (s.core s.cur) (sh (FV.ofBits f r.1) (v a) (v b) (v o)))) ∧
  (∀ (w : SRWord) (s : State) (i : Instr) (ub : Bool) (n : Nat) (op : Nat → Nat → Nat × Flags), (i, ub, n, op) ∈ Claims.fpPattern w →
    let h := hdSR i w (some 1)
    let cx := s.issueCtx h.idle
    let z := w.z == 1
    let a := readS (s.issueCore h.idle) cx (rotS cx z w.a.toNat)
    let b := if ub then readS (s.issueCore h.idle) cx (rotS cx z w.b.toNat) else (0, false)
    s.canIssue h (fun cx => refS (rotS cx z w.d.toNat) ++ refS (rotS cx z w.a.toNat) ++ (if ub then refS (rotS cx z w.b.toNat) else [])) →
    ∃ t, exec i s = .next t ∧ s.Issued t h ∧ s.goesOn t h 0 ∧
      s.puts t h (Claims.withFlags 1 (rotS cx z w.d.toNat) (a.2 || b.2) (op (a.1.toNat % 2 ^ n) (b.1.toNat % 2 ^ n)))) ∧
  (∀ (w : SRWord) (s : State),
    let h := hdSR (.fcvt w) w (some 3)
    let cx := s.issueCtx h.idle
    let z := w.z == 1
    let a := readS (s.issueCore h.idle) cx (rotS cx z w.a.toNat)
    s.canIssue h (fun cx => refS (rotS cx z w.d.toNat) ++ refS (rotS cx z w.a.toNat)) →
    ∃ t, exec (.fcvt w) s = .next t ∧ s.Issued t h ∧ s.goesOn t h 0 ∧
      s.puts t h (Claims.withFlags 3 (rotS cx z w.d.toNat) a.2
        (fcvt (w.b.toNat % 16) (if w.b.getLsbD 4 then ⟨1, 0⟩ else ((s.issueCore h.idle).rctx cx).mode 6 0 0) a.1.toNat)))

/-! ### Scratchpad loads and stores (R139 to R144) -/

/-- The bytes of `l` can be read or written now: no granule of them is empty (R40, R41). -/
def Sys2Proof.Claims.full (c : Core) (a n : Nat) : Prop := ∀ g ∈ granRange a n, c.isEmpty g = false

/-- A write of the range is idempotent and need not wait: whatever granule of it the open region or a closing one has read, that region has written
before (R49, R50). -/
def Sys2Proof.Claims.writable (c : Core) (a n : Nat) : Prop :=
  ∀ g ∈ granRange a n, (g ∈ c.opn.rset → g ∈ c.opn.wset) ∧ ∀ r ∈ c.closing, g ∈ r.rset → g ∈ r.wset

/-- R139, R140: an aligned load of 1, 2, 4 or 8 bytes inside the scratchpad completes where no granule is empty and no error waits in the scratchpad:
after 4 cycles it lands the little-endian value of the bytes as they stand in its issue cycle, sign- or zero-extended; it sets R of its granules
(R49) and changes nothing else. -/
def Obligations.ScratchpadLoads : Prop :=
  ∀ (w : SIWord) (s : State) (i : Instr) (n : Nat) (sg : Bool),
    (i, n, sg) ∈ ([(.ldsB w, 1, true), (.ldsBu w, 1, false), (.ldsH w, 2, true), (.ldsHu w, 2, false), (.ldsW w, 4, true),
      (.ldsWu w, 4, false), (.ldsD w, 8, false)] : List (Instr × Nat × Bool)) →
    let h := hdS i w.idle (some 4)
    let c := s.core s.cur
    let a := readS (s.issueCore h.idle) (s.issueCtx h.idle) w.a.toNat
    let ea := (a.1 + BitVec.ofInt 64 (w.imm.toInt * n)).toNat
    let v := BitVec.ofNat (8 * n) (Memory.val c.spad ea n)
    s.canIssue h (fun _ => refS w.d.toNat ++ refS w.a.toNat) → a.2 = false → ea < 0x200000 → ea % n = 0 → Claims.full c ea n →
    c.ue = [] → c.ce = [] →
    ∃ t, exec i s = .next t ∧ s.Issued t h ∧ s.goesOn t h 0 ∧
      s.puts t h [(4, .sland w.d.toNat (if sg then v.signExtend 64 else v.setWidth 64) false)] ∧
      (t.core s.cur).opn.rset = saddAll c.opn.rset (granRange ea n) ∧ (t.core s.cur).opn.wset = c.opn.wset

/-- R139, R141: an aligned store of 1, 2, 4 or 8 bytes inside the scratchpad, outside its protected ranges, of unpoisoned data, completes where no
granule is empty and R49 and R50 allow the write: its bytes, the low bytes of operand d in little-endian order, are written at its effective address
after 2 cycles; it sets W of its granules and changes nothing else. -/
def Obligations.ScratchpadStores : Prop :=
  ∀ (w : SIWord) (s : State) (i : Instr) (n : Nat),
    (i, n) ∈ ([(.stsB w, 1), (.stsH w, 2), (.stsW w, 4), (.stsD w, 8)] : List (Instr × Nat)) →
    let h := hdS i w.idle none
    let c := s.core s.cur
    let a := readS (s.issueCore h.idle) (s.issueCtx h.idle) w.a.toNat
    let d := readS (s.issueCore h.idle) (s.issueCtx h.idle) w.d.toNat
    let ea := (a.1 + BitVec.ofInt 64 (w.imm.toInt * n)).toNat
    s.canIssue h (fun _ => refS w.d.toNat ++ refS w.a.toNat) → a.2 = false → d.2 = false → ea < 0x200000 → ea % n = 0 →
    (∀ r ∈ s.protRanges s.cur, ¬(r.1 ≤ ea ∧ ea < r.1 + r.2)) → Claims.full c ea n → Claims.writable c ea n →
    ∃ t, exec i s = .next t ∧ s.Issued t h ∧ s.goesOn t h 0 ∧
      s.puts t h [(2, .spw ((List.range n).map (fun k => (ea + k, BitVec.ofNat 8 (d.1.toNat / 256 ^ k), 0xFF))))] ∧
      (t.core s.cur).opn.wset = saddAll c.opn.wset (granRange ea n) ∧ (t.core s.cur).opn.rset = c.opn.rset

/-- R49, R121, R122, R139 to R142: what stops a scratchpad load or store, in the order of its checks: a poisoned address (POISON), an address outside
the scratchpad (SPAD_RANGE), a misaligned one (MISALIGNED), for a store a protected byte (PROTECTION), poisoned data (POISON), and a granule read but
not written by the open region (IDEMPOTENCE); the word then has no effect but the trap. -/
def Sys2Proof.Claims.ScratchpadTraps : Prop :=
  (∀ (w : SIWord) (s : State) (i : Instr) (n : Nat) (lat : Option Nat),
    (i, n, lat) ∈ ([(.ldsB w, 1, some 4), (.ldsBu w, 1, some 4), (.ldsH w, 2, some 4), (.ldsHu w, 2, some 4), (.ldsW w, 4, some 4),
      (.ldsWu w, 4, some 4), (.ldsD w, 8, some 4), (.stsB w, 1, none), (.stsH w, 2, none), (.stsW w, 4, none), (.stsD w, 8, none)] :
      List (Instr × Nat × Option Nat)) →
    let h := hdS i w.idle lat
    let a := readS (s.issueCore h.idle) (s.issueCtx h.idle) w.a.toNat
    let ea : Word := a.1 + BitVec.ofInt 64 (w.imm.toInt * n)
    s.canIssue h (fun _ => refS w.d.toNat ++ refS w.a.toNat) →
    (a.2 = true → exec i s = .next ((s.atIssue h.idle).trap s.cur 0 0x08 (BitVec.ofNat 64 w.a.toNat))) ∧
    (a.2 = false → 0x200000 ≤ ea.toNat → exec i s = .next ((s.atIssue h.idle).trap s.cur 0 0x06 ea)) ∧
    (a.2 = false → ea.toNat < 0x200000 → ea.toNat % n ≠ 0 → exec i s = .next ((s.atIssue h.idle).trap s.cur 0 0x05 ea))) ∧
  (∀ (w : SIWord) (s : State) (i : Instr) (n : Nat),
    (i, n) ∈ ([(.stsB w, 1), (.stsH w, 2), (.stsW w, 4), (.stsD w, 8)] : List (Instr × Nat)) →
    let h := hdS i w.idle none
    let c := s.core s.cur
    let a := readS (s.issueCore h.idle) (s.issueCtx h.idle) w.a.toNat
    let d := readS (s.issueCore h.idle) (s.issueCtx h.idle) w.d.toNat
    let ea : Word := a.1 + BitVec.ofInt 64 (w.imm.toInt * n)
    s.canIssue h (fun _ => refS w.d.toNat ++ refS w.a.toNat) → a.2 = false → ea.toNat < 0x200000 → ea.toNat % n = 0 →
    ((∃ r ∈ s.protRanges s.cur, r.1 ≤ ea.toNat ∧ ea.toNat < r.1 + r.2) →
      exec i s = .next ((s.atIssue h.idle).trap s.cur 0 0x0A ea)) ∧
    ((∀ r ∈ s.protRanges s.cur, ¬(r.1 ≤ ea.toNat ∧ ea.toNat < r.1 + r.2)) →
      (d.2 = true → exec i s = .next ((s.atIssue h.idle).trap s.cur 0 0x08 (BitVec.ofNat 64 w.d.toNat))) ∧
      (d.2 = false → Claims.full c ea.toNat n → ea.toNat / 64 ∈ c.opn.rset → ea.toNat / 64 ∉ c.opn.wset →
        exec i s = .next ((s.atIssue h.idle).trap s.cur 0 0x07 ea))))

/-! ### CSRs (R150 to R154) -/

/-- The CSR map of R151: number and value, for a core `c` that runs the step `i`. LEAVE is 0 where no grant is in force (R324). -/
def Sys2Proof.Claims.csrMap (c : Core) (i : StepInfo) : List (Nat × Word) :=
  let r := c.arch.csr
  let n (x : Nat) : Word := BitVec.ofNat 64 x
  [(0x000, r.status), (0x001, r.rmode), (0x002, r.tvec), (0x003, r.tsave), (0x004, c.tcause), (0x005, c.tval), (0x006, r.tpc),
   (0x010, n i.sbase), (0x011, n i.slim), (0x020, c.slip), (0x021, n i.dline), (0x030, n c.opn.rcnt), (0x031, r.rlim), (0x032, n c.cerr),
   (0x040, r.mtol), (0x041, r.seed), (0x050, r.dqbase), (0x051, r.dqlim), (0x052, r.dqhead), (0x053, r.dqtail), (0x060, n i.codebase),
   (0x070, match c.asked with | g :: _ => n g.2.2 | [] => 0), (0x080, i.stepid), (0x081, n i.part), (0x082, n i.dtab.mapid)]

/-- The program-writable CSRs of R151 with their values. -/
def Sys2Proof.Claims.csrRw (r : Csrs) : List (Nat × Word) :=
  [(0x000, r.status), (0x001, r.rmode), (0x002, r.tvec), (0x003, r.tsave), (0x006, r.tpc), (0x031, r.rlim), (0x040, r.mtol),
   (0x041, r.seed), (0x050, r.dqbase), (0x051, r.dqlim), (0x052, r.dqhead), (0x053, r.dqtail)]

/-- A value that R152 marks illegal for a CSR: a rounding mode of 6 or 7, a replay limit of 0, an absolute tolerance below zero, NaN or
infinite. -/
def Sys2Proof.Claims.csrBad (n : Nat) (v : Word) : Prop :=
  (n = 0x001 ∧ 6 ≤ v.toNat % 8) ∨ (n = 0x031 ∧ v.toNat % 8 = 0) ∨
  (n = 0x040 ∧ (v.toNat / 2 ^ 32 % 2 ^ 31 ≥ 0x7F800000 ∨ v.toNat / 2 ^ 32 > 0x80000000))

/-- R150, R151, R154: CSRR lands the CSR's value in its issue cycle after 1 cycle, unpoisoned; CSRW, CSRS and CSRC with an unpoisoned operand and a
legal resulting value write a, old OR a, or old AND NOT a one cycle after their issue; all four complete and change nothing else. -/
def Obligations.CsrWords : Prop :=
  (∀ (w : SCWord) (s : State) (k : StepInfo) (v : Word), (s.core s.cur).step = some k →
    let h := hdS (.csrr w) w.idle (some 1)
    (w.csr.toNat, v) ∈ Claims.csrMap (s.issueCore h.idle) k → s.canIssue h (fun _ => refS w.r.toNat) →
    (w.r.toNat = 31 → stackBad (s.issueCore h.idle) v = false) →
    ∃ t, exec (.csrr w) s = .next t ∧ s.Issued t h ∧ s.goesOn t h 0 ∧ s.puts t h [(1, .sland w.r.toNat v false)]) ∧
  (∀ (w : SCWord) (s : State) (k : StepInfo) (i : Instr) (old : Word) (f : Word → Word → Word), (s.core s.cur).step = some k →
    (i, f) ∈ ([(.csrw w, fun _ a => a), (.csrs w, fun o a => o ||| a), (.csrc w, fun o a => o &&& ~~~a)] :
      List (Instr × (Word → Word → Word))) →
    let h := hdS i w.idle none
    let a := readS (s.issueCore h.idle) (s.issueCtx h.idle) w.r.toNat
    (w.csr.toNat, old) ∈ Claims.csrMap (s.issueCore h.idle) k → s.canIssue h (fun _ => refS w.r.toNat) → a.2 = false →
    ¬Claims.csrBad w.csr.toNat (f old a.1) →
    ∃ t, exec i s = .next t ∧ s.Issued t h ∧ s.goesOn t h 0 ∧ s.puts t h [(1, .csrw w.csr.toNat (f old a.1))])

/-- R150, R151, R152: a CSR write of a core lands in a program-writable CSR with its reserved bits reading 0, and leaves every other CSR; a write to
any other number changes no CSR (R8). -/
def Sys2Proof.Claims.CsrWrites : Prop :=
  ∀ (r : Csrs) (n : Nat) (v : Word),
    (∀ x ∈ Claims.csrRw (r.write n v), x.1 ≠ n → x ∈ Claims.csrRw r) ∧
    (∀ x ∈ Claims.csrRw (r.write n v), x.1 = n → x.2 = v &&& (if n = 0x000 then 0x13F else if n = 0x001 ∨ n = 0x031 then 7
      else if n = 0x040 then 0xFFFFFFFF0000003F else 0xFFFFFFFFFFFFFFFF)) ∧
    (n ∉ (Claims.csrRw r).map (·.1) → r.write n v = r)

/-! ### Control flow (R120 to R137) -/

/-- The word at the head of the stream transfers to `target`: the target word counts its idle count from the issue cycle + 3 (R32, R122). -/
def Sys2Proof.Claims.transfers (s t : State) (h : Head) (target : Nat) : Prop :=
  (t.core s.cur).pc = target ∧ (t.core s.cur).base = (s.issueCore h.idle).clock + 3

/-- A target that R122 accepts. -/
def Sys2Proof.Claims.goodTarget (c : Core) (t : Word) : Prop :=
  t.toNat % 4 = 0 ∧ ∃ i, c.step = some i ∧ i.codebase ≤ t.toNat ∧ t.toNat < i.codebase + i.codelen

/-- The condition of a branch by its code (R90, R123). -/
def Sys2Proof.Claims.taken (cond : Nat) (a : Word × Bool) : Prop :=
  (cond = 0 ∧ a.1.toInt = 0) ∨ (cond = 1 ∧ a.1.toInt ≠ 0) ∨ (cond = 2 ∧ a.1.toInt < 0) ∨ (cond = 3 ∧ 0 ≤ a.1.toInt) ∨
  (cond = 4 ∧ 0 < a.1.toInt) ∨ (cond = 5 ∧ a.1.toInt ≤ 0) ∨ (cond = 7 ∧ a.2 = true)

/-- R32, R122 to R124: B, JMP and JMPR. A branch whose condition does not hold costs nothing beyond its slot; a transfer to a multiple of 4 in the
code region sends the stream there; nothing else changes and nothing is put in flight. A poisoned condition other than PSN and a poisoned JMPR
target raise POISON. -/
def Obligations.BranchesAndJumps : Prop :=
  (∀ (b : SBWord) (j : SJWord) (r : SRWord), (Instr.br b).opcode = some 0x080 ∧ (Instr.jmp j).opcode = some 0x081 ∧ (Instr.jmpr r).opcode = some 0x082) ∧
  (∀ (w : SBWord) (s : State),
    let h := hdS (.br w) w.idle none
    let a := readS (s.issueCore h.idle) (s.issueCtx h.idle) w.a.toNat
    let target : Word := BitVec.ofInt 64 ((s.core s.cur).pc + 4 * w.off.toInt)
    s.canIssue h (fun _ => refS w.a.toNat) →
    (w.cond.toNat ≠ 7 → a.2 = true → exec (.br w) s = .next ((s.atIssue h.idle).trap s.cur 0 0x08 (BitVec.ofNat 64 w.a.toNat))) ∧
    ((w.cond.toNat = 7 ∨ a.2 = false) →
      (¬Claims.taken w.cond.toNat a →
        ∃ t, exec (.br w) s = .next t ∧ s.Issued t h ∧ s.goesOn t h 0 ∧ (t.core s.cur).flights = (s.core s.cur).flights) ∧
      (Claims.taken w.cond.toNat a → Claims.goodTarget (s.core s.cur) target →
        ∃ t, exec (.br w) s = .next t ∧ s.Issued t h ∧ Claims.transfers s t h target.toNat ∧
          (t.core s.cur).flights = (s.core s.cur).flights))) ∧
  (∀ (w : SJWord) (s : State),
    let h := hdS (.jmp w) w.idle none
    let target : Word := BitVec.ofInt 64 ((s.core s.cur).pc + 4 * w.off.toInt)
    s.canIssue h (fun _ => []) → Claims.goodTarget (s.core s.cur) target →
    ∃ t, exec (.jmp w) s = .next t ∧ s.Issued t h ∧ Claims.transfers s t h target.toNat ∧
      (t.core s.cur).flights = (s.core s.cur).flights) ∧
  (∀ (w : SRWord) (s : State),
    let h := hdSR (.jmpr w) w none
    let k := rotS (s.issueCtx h.idle) (w.z == 1) w.a.toNat
    let a := readS (s.issueCore h.idle) (s.issueCtx h.idle) k
    s.canIssue h (fun cx => refS (rotS cx (w.z == 1) w.a.toNat)) →
    (a.2 = true → exec (.jmpr w) s = .next ((s.atIssue h.idle).trap s.cur 0 0x08 (BitVec.ofNat 64 k))) ∧
    (a.2 = false → Claims.goodTarget (s.core s.cur) a.1 →
      ∃ t, exec (.jmpr w) s = .next t ∧ s.Issued t h ∧ Claims.transfers s t h a.1.toNat ∧
        (t.core s.cur).flights = (s.core s.cur).flights))

/-- R122: a transfer whose target is no multiple of 4 raises MISALIGNED, one whose target lies outside the loaded code region SPAD_RANGE, with the
target in TVAL: JMP, JMPR and a taken B. -/
def Sys2Proof.Claims.TransferTraps : Prop :=
  ∀ (s : State) (i : Instr) (h : Head) (regs : Ctx → List Ref) (target : Word),
    ((∃ w : SJWord, i = .jmp w ∧ h = hdS (.jmp w) w.idle none ∧ regs = (fun _ => []) ∧
        target = BitVec.ofInt 64 ((s.core s.cur).pc + 4 * w.off.toInt)) ∨
     (∃ w : SRWord, i = .jmpr w ∧ h = hdSR (.jmpr w) w none ∧ regs = (fun cx => refS (rotS cx (w.z == 1) w.a.toNat)) ∧
        (target, false) = readS (s.issueCore h.idle) (s.issueCtx h.idle) (rotS (s.issueCtx h.idle) (w.z == 1) w.a.toNat)) ∨
     (∃ w : SBWord, i = .br w ∧ h = hdS (.br w) w.idle none ∧ regs = (fun _ => refS w.a.toNat) ∧
        let a := readS (s.issueCore h.idle) (s.issueCtx h.idle) w.a.toNat
        (w.cond.toNat = 7 ∨ a.2 = false) ∧ Claims.taken w.cond.toNat a ∧
        target = BitVec.ofInt 64 ((s.core s.cur).pc + 4 * w.off.toInt))) →
    s.canIssue h regs →
    (target.toNat % 4 ≠ 0 → exec i s = .next ((s.atIssue h.idle).trap s.cur 0 0x05 target)) ∧
    (target.toNat % 4 = 0 → ¬Claims.goodTarget (s.core s.cur) target → exec i s = .next ((s.atIssue h.idle).trap s.cur 0 0x06 target))

/-- R43, R49, R115, R121, R122, R139 to R142: what stops the scalar words that write s31, reach into the scratchpad or transfer control. -/
def Obligations.ScalarTraps : Prop := Claims.StackCheckOfResults ∧ Claims.ScratchpadTraps ∧ Claims.TransferTraps

/-- R125, R126: CALL and CALLR with an unpoisoned stack pointer whose new value lies in [SLIM, SBASE] and is a multiple of 8, and a good target, write
the return address at the new stack pointer after 2 cycles, lower s31 by 8 after 1 cycle, and transfer; RET reads its target at s31 in its issue
cycle, raises s31 by 8 and transfers. Nothing else changes but the sets R and W. A CALL whose slot begins in a protected range raises PROTECTION
(R28, R142), a RET whose slot lies beyond the scratchpad SPAD_RANGE (R52), each with the slot's address in TVAL. -/
def Obligations.CallsAndReturns : Prop :=
  (∀ (s : State) (i : Instr) (h : Head) (regs : Ctx → List Ref) (target : Word),
    ((∃ w : SJWord, i = .call w ∧ h = hdS (.call w) w.idle none ∧ regs = (fun _ => [.s 31]) ∧
        target = BitVec.ofInt 64 ((s.core s.cur).pc + 4 * w.off.toInt)) ∨
     (∃ w : SRWord, i = .callr w ∧ h = hdSR (.callr w) w none ∧ regs = (fun cx => .s 31 :: refS (rotS cx (w.z == 1) w.a.toNat)) ∧
        (target, false) = readS (s.issueCore h.idle) (s.issueCtx h.idle) (rotS (s.issueCtx h.idle) (w.z == 1) w.a.toNat))) →
    let c := s.core s.cur
    let sp := c.arch.s[31]
    let new := sp.val - 8
    s.canIssue h regs → sp.psn = false → stackBad c new = false → new.toNat % 8 = 0 → new.toNat < 0x200000 →
    Claims.goodTarget c target →
    ((∃ r ∈ s.protRanges s.cur, r.1 ≤ new.toNat ∧ new.toNat < r.1 + r.2) → exec i s = .next ((s.atIssue h.idle).trap s.cur 0 0x0A new)) ∧
    ((∀ r ∈ s.protRanges s.cur, ∀ k < 8, ¬(r.1 ≤ new.toNat + k ∧ new.toNat + k < r.1 + r.2)) →
      Claims.full c new.toNat 8 → Claims.writable c new.toNat 8 →
    ∃ t, exec i s = .next t ∧ s.Issued t h ∧ Claims.transfers s t h target.toNat ∧
      s.puts t h [(1, .sland 31 new false),
        (2, .spw ((List.range 8).map (fun k => (new.toNat + k, BitVec.ofNat 8 ((c.pc + 4) / 256 ^ k), 0xFF))))] ∧
      (t.core s.cur).opn.wset = saddAll c.opn.wset (granRange new.toNat 8))) ∧
  (∀ (w : SRWord) (s : State),
    let h := hdSR (.ret w) w none
    let c := s.core s.cur
    let sp := c.arch.s[31]
    let target : Word := BitVec.ofNat 64 (Memory.val c.spad sp.val.toNat 8)
    s.canIssue h (fun _ => [.s 31]) → sp.psn = false → stackBad c (sp.val + 8) = false → sp.val.toNat % 8 = 0 →
    (0x200000 ≤ sp.val.toNat → exec (.ret w) s = .next ((s.atIssue h.idle).trap s.cur 0 0x06 sp.val)) ∧
    (sp.val.toNat < 0x200000 → Claims.full c sp.val.toNat 8 → c.ue = [] → c.ce = [] → Claims.goodTarget c target →
    ∃ t, exec (.ret w) s = .next t ∧ s.Issued t h ∧ Claims.transfers s t h target.toNat ∧
      s.puts t h [(1, .sland 31 (sp.val + 8) false)] ∧ (t.core s.cur).opn.rset = saddAll c.opn.rset (granRange sp.val.toNat 8)))

/-- R128, R129, R345: NOP, WAITT and CHECK. NOP does nothing: it puts nothing in flight and leaves what is in flight, and the word after it counts from
the NOP's issue cycle + its count. WAITT of an unpoisoned a has no effect once device time has reached a; before that the core waits for that time,
with the stream where it is; a poisoned a raises POISON. CHECK of unpoisoned operands has no effect; with a poisoned lane of d it raises POISON with
the lowest such lane and d in TVAL, and else with the code of a, or of b, where that is poisoned. -/
def Obligations.GapsWaitsAndChecks : Prop :=
  (∀ (j : SJWord) (w : SRWord), (Instr.nop j).opcode = some 0x088 ∧ (Instr.waitt w).opcode = some 0x089 ∧ (Instr.check w).opcode = some 0x10C) ∧
  (∀ (w : SJWord) (s : State),
    let h := { hdS (.nop w) w.idle none with gap := w.off.toNat % 65536 }
    s.canIssue h (fun _ => []) →
    ∃ t, exec (.nop w) s = .next t ∧ s.Issued t h ∧ s.goesOn t h (w.off.toNat % 65536) ∧
      (t.core s.cur).flights = (s.core s.cur).flights) ∧
  (∀ (w : SRWord) (s : State),
    let h := hdSR (.waitt w) w none
    let k := rotS (s.issueCtx h.idle) (w.z == 1) w.a.toNat
    let a := readS (s.issueCore h.idle) (s.issueCtx h.idle) k
    s.canIssue h (fun cx => refS (rotS cx (w.z == 1) w.a.toNat)) →
    (a.2 = true → exec (.waitt w) s = .next ((s.atIssue h.idle).trap s.cur 0 0x08 (BitVec.ofNat 64 k))) ∧
    (a.2 = false → a.1.toNat ≤ (s.issueCore h.idle).dt →
      ∃ t, exec (.waitt w) s = .next t ∧ s.Issued t h ∧ s.goesOn t h 0 ∧ (t.core s.cur).flights = (s.core s.cur).flights) ∧
    (a.2 = false → (s.issueCore h.idle).dt < a.1.toNat →
      exec (.waitt w) s = .next ((s.atIssue h.idle).updCore s.cur
        (fun c => { c with until? := some { time := a.1.toNat, realign := false } })))) ∧
  (∀ (w : SRWord) (s : State),
    let h := hdSR (.check w) w none
    let c := s.issueCore h.idle
    let cx := s.issueCtx h.idle
    let lanes : LMask := if w.d = 48 then 0 else (readV c cx w.d.toNat 0).2
    let raises (tval : Nat) : Prop := exec (.check w) s = .next ((s.atIssue h.idle).trap s.cur 0 0x08 (BitVec.ofNat 64 tval))
    s.canIssue h (fun _ => (if w.d = 48 then [] else refV w.d.toNat) ++ refS w.a.toNat ++ refS w.b.toNat) →
    (∀ k, k < 64 → lanes.getLsbD k = true → (∀ j, j < k → lanes.getLsbD j = false) → raises (k * 2 ^ 16 + 2 ^ 8 + w.d.toNat)) ∧
    (lanes = 0 → (readS c cx w.a.toNat).2 = true → raises w.a.toNat) ∧
    (lanes = 0 → (readS c cx w.a.toNat).2 = false → (readS c cx w.b.toNat).2 = true → raises w.b.toNat) ∧
    (lanes = 0 → (readS c cx w.a.toNat).2 = false → (readS c cx w.b.toNat).2 = false →
      ∃ t, exec (.check w) s = .next t ∧ s.Issued t h ∧ s.goesOn t h 0 ∧ (t.core s.cur).flights = (s.core s.cur).flights))

/-- R131 to R134, R137: LOOP with a legal body (inside the code region, every word allowed under R105, an initiation interval of at least 1) and an
unpoisoned trip count starts its kernel: trip, N = trip + stages − 1, the pending rings current, the first body word counting from LOOP's issue
cycle; a trip count of 0 goes on behind the body. LOOPR with legal rings makes its rings pending. Nothing else changes. -/
def Obligations.LoopWords : Prop :=
  (∀ (w : SXWord) (s : State),
    let h := hdS (.loop w) w.idle none
    let c := s.issueCore h.idle
    let a := readS c (s.issueCtx h.idle) w.a.toNat
    let body := bodyAddrs c w.len.toNat (c.pc + 4)
    let kernel : LoopSt :=
      { active := true, body := c.pc + 4, trip := a.1.toNat, n := a.1.toNat + w.stg.toNat, j := 0, k := 0,
        len := w.len.toNat, stages := w.stg.toNat + 1, cur0 := c.arch.loop.pend0, cur1 := c.arch.loop.pend1 }
    s.canIssue h (fun _ => refS w.a.toNat) → bodyOutside c w.len.toNat (c.pc + 4) = none →
    (∀ x ∈ body.1, bodyTrap c s.cur (w.stg.toNat + 1) x = none) → (∃ x ∈ body.1, 0 < bodyGap c x) → a.2 = false →
    ∃ t, exec (.loop w) s = .next t ∧ s.Issued t h ∧ (t.core s.cur).flights = (s.core s.cur).flights ∧
      (a.1 = 0 → (t.core s.cur).arch.loop = {} ∧ (t.core s.cur).pc = body.2 ∧ (t.core s.cur).base = c.clock) ∧
      (a.1 ≠ 0 → (t.core s.cur).pc = c.pc + 4 ∧ (t.core s.cur).base = c.clock ∧
        (t.core s.cur).arch.loop = kernel)) ∧
  (∀ (w : SQWord) (s : State),
    let h := { hdS (.loopr w) w.idle none with extra := fun _ c => match looprFail c.arch.loop w with
      | some low => [(low, true)]
      | none => [] }
    let l := (s.core s.cur).arch.loop
    let u := BitVec.ofNat 32 (encode (.loopr w))
    s.canIssue h (fun _ => []) → l.active = false →
    ∃ t, exec (.loopr w) s = .next t ∧ s.Issued t h ∧ s.goesOn t h 0 ∧ (t.core s.cur).flights = (s.core s.cur).flights ∧
      (t.core s.cur).arch.loop = if l.pend0 = 0 then { l with pend0 := u } else { l with pend1 := u })

/-- R133, R134, R137: after a word inside a kernel the stream goes on with the next body word, after the last one with the first word of the next
iteration, and after the last word of the last iteration behind the body with the loop buffer empty; shown on NOP, which has no other effect. -/
def Sys2Proof.Claims.KernelAdvance : Prop :=
  ∀ (w : SJWord) (s : State),
    let h := { hdS (.nop w) w.idle none with gap := w.off.toNat % 65536 }
    let l := (s.core s.cur).arch.loop
    s.canIssue h (fun _ => []) → l.active = true →
    ∃ t, exec (.nop w) s = .next t ∧ s.Issued t h ∧ (t.core s.cur).base = (s.issueCore h.idle).clock + w.off.toNat % 65536 ∧
      (l.k + 1 < l.len → (t.core s.cur).pc = (s.core s.cur).pc + 4 ∧
        (t.core s.cur).arch.loop = { l with k := l.k + 1, pend0 := 0, pend1 := 0 }) ∧
      (l.len ≤ l.k + 1 → l.j + 1 < l.n → (t.core s.cur).pc = l.body ∧
        (t.core s.cur).arch.loop = { l with k := 0, j := l.j + 1, pend0 := 0, pend1 := 0 }) ∧
      (l.len ≤ l.k + 1 → l.n ≤ l.j + 1 → (t.core s.cur).pc = (s.core s.cur).pc + 4 ∧ (t.core s.cur).arch.loop = {})

/-- R136: an inactive body word puts nothing in flight but the voids that its active form would push, at the latency of that form, and has no other
effect; shown on every vector word of R166 and R171 with two operands. -/
def Sys2Proof.Claims.InactiveWords : Prop :=
  ∀ (w : VAWord) (s : State) (i : Instr) (lat : Nat),
    (i, lat) ∈ ([(.vadd w, 6), (.vsub w, 6), (.vmul w, 6), (.vmin w, 2), (.vmax w, 2), (.viadd w, 2), (.visub w, 2), (.vimul w, 4),
      (.vand w, 2), (.vor w, 2), (.vxor w, 2), (.vandn w, 2), (.vshl w, 2), (.vshr w, 2), (.vsra w, 2), (.vimin w, 2), (.vimax w, 2)] :
      List (Instr × Nat)) →
    let h := hdVA i w (some (true, lat))
    let c := s.core s.cur
    c.step.isSome = true → c.ended = false → c.owe = none → c.arch.loop.activeFor w.stage.toNat = false →
    ∃ t, exec i s = .next t ∧ s.puts t h [(lat, .vvoid)] ∧ t = { s with cores := t.cores, now := t.now, nextId := t.nextId } ∧
      (∀ m, m ≠ s.cur → t.core m = s.core m) ∧ (t.core s.cur).arch = { c.arch with loop := (t.core s.cur).arch.loop } ∧
      (t.core s.cur).spad = c.spad ∧ (t.core s.cur).held = c.held ∧ (t.core s.cur).grpEng = c.grpEng

/-- R133, R134, R136, R137: how a kernel goes from word to word and from iteration to iteration, and what its inactive words do. -/
def Obligations.KernelWords : Prop := Claims.KernelAdvance ∧ Claims.InactiveWords

/-! ### The end of regions and steps (R44 to R48, R130, R155, R156, R294) -/

/-- Core `cur` has ended its open region at the issue cycle of its word, in the way `how`, and has opened the next one a cycle later, whose entry
snapshot is the present state; a region that was closing holds back the next word until it has closed (R45, R46, R155). -/
structure Sys2Proof.Claims.EndsRegion (s t : State) (h : Head) (how : EndKind) : Prop where
  others : ∀ m, m ≠ s.cur → t.core m = s.core m
  mem : t.mem = s.mem
  closing : (t.core s.cur).closing = (s.core s.cur).closing ++
    [{ (s.core s.cur).opn with tC := some (s.issueCore h.idle).clock, how := how }]
  opens : (t.core s.cur).opn.id = (s.core s.cur).opn.id + 1 ∧ (t.core s.cur).opn.openAt = (s.issueCore h.idle).clock + 1 ∧
    (t.core s.cur).opn.rset = [] ∧ (t.core s.cur).opn.wset = [] ∧ (t.core s.cur).opn.rcnt = 0 ∧
    (t.core s.cur).opn.snap = (t.core s.cur).arch
  arch : (t.core s.cur).arch = { (s.core s.cur).arch with loop := (t.core s.cur).arch.loop }
  spad : (t.core s.cur).spad = (s.core s.cur).spad
  flights : (t.core s.cur).flights = (s.core s.cur).flights
  held : (t.core s.cur).held = (s.core s.cur).held
  next : (t.core s.cur).pc = (s.core s.cur).pc + 4 ∧ (t.core s.cur).base = (s.issueCore h.idle).clock
  wait : (s.core s.cur).closing ≠ [] → (t.core s.cur).floor = (s.atIssue h.idle).earlierClose s.cur (s.issueCore h.idle).clock
  ended : (t.core s.cur).ended = (how == .ends)

/-- R48, R130, R155, R294: COMMIT, COMMIT.REL and, outside a trap handler, ENDS end the open region where no copy has to be waited for (R309) and
every member of a coupled quad ends its region too (R216). ENDS opens no region in which a word issues. -/
def Obligations.RegionEnds : Prop :=
  ∀ (s : State) (i : Instr) (h : Head) (how : EndKind),
    ((∃ w : SRWord, i = .commit w ∧ h = hdS (.commit w) w.idle none ∧ how = .commit) ∨
     (∃ w : SFWord, i = .commitRel w ∧ h = hdS (.commitRel w) w.idle none ∧ how = .rel w.cmask) ∨
     (∃ w : SRWord, i = .ends w ∧ h = hdS (.ends w) w.idle none ∧ how = .ends ∧ (s.core s.cur).trap = none)) →
    s.canIssue h (fun _ => []) → (s.core s.cur).arch.loop.active = false → (s.issueCore h.idle).copyWaits = [] →
    (s.atIssue h.idle).quadEnds s.cur (s.issueCore h.idle).clock = true →
    ∃ t, exec i s = .next t ∧ Claims.EndsRegion s t h how

/-- No error waits in the core's commit buffer (R263). -/
abbrev Sys2Proof.Claims.bufferClean (c : Core) : Prop := ∀ h ∈ c.held, h.ce = [] ∧ h.ue = []

/-- R295 to R297: COMMIT.A with unpoisoned operands, an aligned address that translates for an atomic, and a free commit-buffer slot holds its atomic
and ends the region; where it names a destination, that register becomes empty and awaits the return. -/
def Obligations.AtomicCommits : Prop :=
  ∀ (w : SRWord) (s : State) (i : Instr) (op : AtomOp) (n : Nat),
    (i, op, n) ∈ ([(.commitAAddD w, .add, 8), (.commitAMinD w, .min, 8), (.commitAMaxD w, .max, 8), (.commitAAndD w, .and, 8),
      (.commitAOrD w, .or, 8), (.commitAXchgD w, .xchg, 8), (.commitACasD w, .cas, 8), (.commitAAddW w, .add, 4), (.commitAMinW w, .min, 4),
      (.commitAMaxW w, .max, 4), (.commitAAndW w, .and, 4), (.commitAOrW w, .or, 4), (.commitAXchgW w, .xchg, 4),
      (.commitACasW w, .cas, 4), (.commitAFaddW w, .fadd, 4)] : List (Instr × AtomOp × Nat)) →
    let h := hdSR i w none
    let c := s.issueCore h.idle
    let cx := s.issueCtx h.idle
    let a := readS c cx w.a.toNat
    let b := readS c cx w.b.toNat
    let o := if op = .cas then readS c cx w.d.toNat else (0, false)
    let cut (v : Word) : Word := if n = 8 then v else BitVec.ofNat 64 (v.toNat % 2 ^ 32)
    s.canIssue h (fun _ => (if op = .cas then refS w.d.toNat else []) ++ refS w.a.toNat ++ refS w.b.toNat) →
    c.arch.loop.active = false → c.copyWaits = [] → (s.atIssue h.idle).quadEnds s.cur c.clock = true →
    a.2 = false → b.2 = false → o.2 = false → a.1.toNat % n = 0 → c.slotsUsed + 1 ≤ 1024 → Claims.bufferClean c →
    ∀ pa, (s.atIssue h.idle).translateAll s.cur [(a.1.toNat, 2)] = .inr [pa] →
    ∃ t x, exec i s = .next t ∧ t.mem = s.mem ∧
      (t.core s.cur).held = c.held ++ [x] ∧ x.rgn = c.opn.id ∧
      (∃ d tok, x.eff = .atomic op (n = 8) (i.opcode.getD 0) a.1.toNat pa (cut b.1) (cut o.1) d tok ∧
        (w.d = 48 → d = none) ∧ (w.d ≠ 48 → d = some w.d.toNat)) ∧
      (t.core s.cur).closing.length = c.closing.length + 1 ∧ (t.core s.cur).opn.id = c.opn.id + 1 ∧
      (∀ r (hr : r < 32), r ≠ w.d.toNat → (t.core s.cur).arch.s[r] = c.arch.s[r]) ∧
      (∀ hr : w.d.toNat < 32, (t.core s.cur).arch.s[w.d.toNat].pend.isSome = true ∧
        (t.core s.cur).arch.s[w.d.toNat].val = c.arch.s[w.d.toNat].val)

/-! ### Vector words (R158 to R195) -/

/-- The word has put in flight a vector result for `d` after `lat` cycles, under the mask `m`: in every selected lane the value that `r` gives, lane
poison `psn`, and with it the flags of the selected lanes and, where a selected lane fails the check `ok` of its shade unit, an error of
engine 1 (R71, R160, R162, R328). -/
def Sys2Proof.Claims.laneResult (s t : State) (h : Head) (lat d : Nat) (m : KReg) (psn : LMask) (mz : Bool)
    (r : Fin 64 → BitVec 32 × Flags) (ok : Fin 64 → Bool := fun _ => true) : Prop :=
  ∃ (x : Lanes) (fl : Flags),
    s.puts t h ((lat, .vland d x psn m.bits m.psn mz) :: (if fl = 0 then [] else [(lat, .flags fl)]) ++
      Claims.shaded lat 1 (s.core s.cur) (decide (∀ i : Fin 64, m.bits.getLsbD i = true → ok i = true))) ∧
    (∀ i : Fin 64, m.bits.getLsbD i = true → x[i] = (r i).1) ∧
    (∀ k, fl.getLsbD k = true ↔ ∃ i : Fin 64, m.bits.getLsbD i = true ∧ (r i).2.getLsbD k = true)

/-- The FP32 words of R166 and VCVT (R170): latency, which of b and c they read, a lane's result from its mode and operand lanes, and the check of
its shade unit on a result x of a, b and c (R328, R329). -/
def Sys2Proof.Claims.floatLanes (w : VAWord) :
    List (Instr × Nat × Bool × Bool × (Mode → BitVec 32 → BitVec 32 → BitVec 32 → Nat × Flags) × (FV → FV → FV → FV → Bool)) :=
  let v (x : BitVec 32) : FV := FV.ofBits fp32 x.toNat
  let none_ (_ _ _ _ : FV) : Bool := true
  [(.vadd w, 6, true, false, fun m x y _ => fAdd fp32 m (v x) (v y), fun x a b _ => shadeAdd fp32 x a b),
   (.vsub w, 6, true, false, fun m x y _ => fAdd fp32 m (v x) (v y).neg, fun x a b _ => shadeAdd fp32 x a b.neg),
   (.vmul w, 6, true, false, fun m x y _ => fMul fp32 m (v x) (v y), fun x a b _ => shadeMul fp32 x a b),
   (.vfma w, 6, true, true, fun m x y z => fFma fp32 m (v x) (v y) (v z), fun x a b c => shadeFma fp32 x a b c),
   (.vfms w, 6, true, true, fun m x y z => fFma fp32 m (v x) (v y) (v z).neg, fun x a b c => shadeFma fp32 x a b c.neg),
   (.vfnma w, 6, true, true, fun m x y z => fFma fp32 m (v x).neg (v y) (v z), fun x a b c => shadeFma fp32 x a.neg b c),
   (.vmin w, 2, true, false, fun _ x y _ => fMinMax fp32 false x.toNat y.toNat, none_),
   (.vmax w, 2, true, false, fun _ x y _ => fMinMax fp32 true x.toNat y.toNat, none_),
   (.vabs w, 2, false, false, fun _ x _ _ => (x.toNat % 2 ^ 31, 0), none_),
   (.vneg w, 2, false, false, fun _ x _ _ => (if x.toNat < 2 ^ 31 then x.toNat + 2 ^ 31 else x.toNat - 2 ^ 31, 0), none_),
   (.vrcp w, 10, false, false, fun m x _ _ => fRcp fp32 m (v x), none_), (.vrsq w, 10, false, false, fun m x _ _ => fRsq fp32 m (v x), none_),
   (.vexp2 w, 10, false, false, fun m x _ _ => fExp2 fp32 m (v x), none_), (.vlog2 w, 10, false, false, fun m x _ _ => fLog2 fp32 m (v x), none_),
   (.vclass w, 2, false, false, fun _ x _ _ => (fClass fp32 x.toNat, 0), none_),
   (.vcvt w, 4, false, false, fun m x _ _ => vcvt (w.imm.toNat % 4) w.ty.toNat m x, none_)]

/-- The INT32 words of R171 and VMOV of lanes (R187): latency, which of b and c they read, and a lane's result. -/
def Sys2Proof.Claims.intLanes (w : VAWord) : List (Instr × Nat × Bool × Bool × (BitVec 32 → BitVec 32 → BitVec 32 → BitVec 32 × Flags)) :=
  let sat (n : Int) : BitVec 32 × Flags :=
    if n < -2 ^ 31 then (0x80000000, fSat) else if 2 ^ 31 ≤ n then (0x7FFFFFFF, fSat) else (BitVec.ofInt 32 n, 0)
  let form := w.imm.toNat % 4
  let less (x y : BitVec 32) : Bool := if w.imm.getLsbD 0 then decide (x.toNat < y.toNat) else decide (x.toInt < y.toInt)
  [(.viadd w, 2, true, false, fun x y _ => if w.imm.getLsbD 0 then sat (x.toInt + y.toInt) else (x + y, 0)),
   (.visub w, 2, true, false, fun x y _ => if w.imm.getLsbD 0 then sat (x.toInt - y.toInt) else (x - y, 0)),
   (.vimul w, 4, true, false, fun x y _ => (if form = 0 then x * y else if form = 1 then BitVec.ofInt 32 (x.toInt * y.toInt / 2 ^ 32)
     else BitVec.ofNat 32 (x.toNat * y.toNat / 2 ^ 32), 0)),
   (.vimad w, 4, true, true, fun x y z => (x * y + z, 0)), (.vand w, 2, true, false, fun x y _ => (x &&& y, 0)),
   (.vor w, 2, true, false, fun x y _ => (x ||| y, 0)), (.vxor w, 2, true, false, fun x y _ => (x ^^^ y, 0)),
   (.vandn w, 2, true, false, fun x y _ => (x &&& ~~~y, 0)), (.vshl w, 2, true, false, fun x y _ => (x <<< (y.toNat % 32), 0)),
   (.vshr w, 2, true, false, fun x y _ => (x >>> (y.toNat % 32), 0)), (.vsra w, 2, true, false, fun x y _ => (x.sshiftRight (y.toNat % 32), 0)),
   (.vimin w, 2, true, false, fun x y _ => (if less x y then x else y, 0)), (.vimax w, 2, true, false, fun x y _ => (if less x y then y else x, 0)),
   (.vmov w, 2, false, false, fun x _ _ => (x, 0))]

/-- The registers of a VA word that reads a and, as told, b and c. -/
def Sys2Proof.Claims.vaRegs (w : VAWord) (ua ub uc : Bool) (cx : Ctx) : List Ref :=
  refV (w.kd cx) ++ (if ua then refV (w.ka cx) else []) ++ (if ub then refV (w.kb cx) else []) ++ (if uc then refV (w.kc cx) else [])

/-- R159, R161, R162, R164, R166, R167, R170, R171, R187, R328, R329: every lane-wise vector word that can issue completes and puts in flight one vector result
under its mask: in each selected lane the value of the table computed from the operand lanes of its issue cycle, poisoned where an operand lane is,
with the flags of the selected lanes and, where the shade unit of a selected lane does not pass its result, an error of engine 1; it changes nothing
else. -/
def Obligations.VectorLaneWords : Prop :=
  (∀ (w : VAWord) (s : State) (i : Instr) (lat : Nat) (ub uc : Bool) (g : Mode → BitVec 32 → BitVec 32 → BitVec 32 → Nat × Flags)
      (sh : FV → FV → FV → FV → Bool), (i, lat, ub, uc, g, sh) ∈ Claims.floatLanes w →
    let h := hdVA i w (some (true, lat))
    let c := s.issueCore h.idle
    let cx := s.issueCtx h.idle
    let rd (use : Bool) (k : Nat) : Lanes × LMask := if use then readV c cx k (w.imm.truncate 32) else (Vector.replicate 64 0, 0)
    let a := rd true (w.ka cx)
    let b := rd ub (w.kb cx)
    let o := rd uc (w.kc cx)
    let r (k : Fin 64) : Nat × Flags := g ((c.rctx cx).mode w.rnd.toNat 0 k) a.1[k] b.1[k] o.1[k]
    let v (n : Nat) : FV := FV.ofBits fp32 n
    s.canIssue h (Claims.vaRegs w true ub uc) →
    ∃ t, exec i s = .next t ∧ s.Issued t h ∧ s.goesOn t h 0 ∧
      Claims.laneResult s t h lat (w.kd cx) (readK c w.mask.toNat) (a.2 ||| b.2 ||| o.2) (w.mz == 1)
        (fun k => (BitVec.ofNat 32 (r k).1, (r k).2)) (fun k => sh (v (r k).1) (v a.1[k].toNat) (v b.1[k].toNat) (v o.1[k].toNat))) ∧
  (∀ (w : VAWord) (s : State) (i : Instr) (lat : Nat) (ub uc : Bool) (g : BitVec 32 → BitVec 32 → BitVec 32 → BitVec 32 × Flags),
    (i, lat, ub, uc, g) ∈ Claims.intLanes w →
    let h := hdVA i w (some (true, lat))
    let c := s.issueCore h.idle
    let cx := s.issueCtx h.idle
    let rd (use : Bool) (k : Nat) : Lanes × LMask := if use then readV c cx k (w.imm.truncate 32) else (Vector.replicate 64 0, 0)
    let a := rd true (w.ka cx)
    let b := rd ub (w.kb cx)
    let o := rd uc (w.kc cx)
    s.canIssue h (Claims.vaRegs w true ub uc) →
    ∃ t, exec i s = .next t ∧ s.Issued t h ∧ s.goesOn t h 0 ∧
      Claims.laneResult s t h lat (w.kd cx) (readK c w.mask.toNat) (a.2 ||| b.2 ||| o.2) (w.mz == 1)
        (fun k => g a.1[k] b.1[k] o.1[k]))

/-- The condition of VCMP (R168): codes 0 to 7 are eq, ne, lt, le, gt, ge, un, or. -/
def Sys2Proof.Claims.floatCond (cc : Nat) (x y : BitVec 32) : Bool :=
  let a := FV.ofBits fp32 x.toNat
  let b := FV.ofBits fp32 y.toNat
  let un := a.isNan || b.isNan
  let o := fCompare a b
  [!un && o == .eq, un || o != .eq, !un && o == .lt, !un && o != .gt, !un && o == .gt, !un && o != .lt, un, !un].getD cc false

/-- The condition of VICMP (R172): codes 0 to 7 are eq, ne, lt, le, gt, ge, ltu, geu. -/
def Sys2Proof.Claims.intCond (cc : Nat) (x y : BitVec 32) : Bool :=
  [decide (x = y), decide (x ≠ y), decide (x.toInt < y.toInt), decide (x.toInt ≤ y.toInt), decide (y.toInt < x.toInt),
   decide (y.toInt ≤ x.toInt), decide (x.toNat < y.toNat), decide (y.toNat ≤ x.toNat)].getD cc false

/-- R163, R168, R169, R172: VCMP and VICMP put in flight a mask result after 2 cycles with the bit of their condition in every selected lane, and for
VCMP nv where a selected lane compares a signalling NaN; VSEL selects by its mask, lane by lane. They complete and change nothing else. -/
def Obligations.VectorCompareAndSelect : Prop :=
  (∀ (w : VAWord) (s : State) (i : Instr) (q : BitVec 32 → BitVec 32 → Bool),
    (i, q) ∈ ([(.vcmp w, Claims.floatCond (w.imm.toNat % 8)), (.vicmp w, Claims.intCond (w.imm.toNat % 8))] :
      List (Instr × (BitVec 32 → BitVec 32 → Bool))) →
    let h := hdVA i w none
    let c := s.issueCore h.idle
    let cx := s.issueCtx h.idle
    let m := readK c w.mask.toNat
    let a := readV c cx (w.ka cx) (w.imm.truncate 32)
    let b := readV c cx (w.kb cx) (w.imm.truncate 32)
    let signals (x : BitVec 32) : Bool := FV.ofBits fp32 x.toNat == .nan true
    s.canIssue h (fun cx => refV (w.ka cx) ++ refV (w.kb cx)) →
    ∃ t x fl, exec i s = .next t ∧ s.Issued t h ∧ s.goesOn t h 0 ∧
      s.puts t h ((2, .kland w.d.toNat x (a.2 ||| b.2) m.bits m.psn (w.mz == 1)) :: (if fl = 0 then [] else [(2, .flags fl)])) ∧
      (∀ k : Fin 64, m.bits.getLsbD k = true → x.getLsbD k = q a.1[k] b.1[k]) ∧
      (i = .vicmp w → fl = 0) ∧
      (i = .vcmp w → fl = if ∃ k : Fin 64, m.bits.getLsbD k = true ∧ (signals a.1[k] || signals b.1[k]) = true then fNv else 0)) ∧
  (∀ (w : VAWord) (s : State),
    let h := hdVA (.vsel w) w (some (true, 2))
    let c := s.issueCore h.idle
    let cx := s.issueCtx h.idle
    let a := readV c cx (w.ka cx) 0
    let b := readV c cx (w.kb cx) 0
    let k := readK c w.c.toNat
    s.canIssue h (fun cx => refV (w.kd cx) ++ refV (w.ka cx) ++ refV (w.kb cx)) →
    ∃ t, exec (.vsel w) s = .next t ∧ s.Issued t h ∧ s.goesOn t h 0 ∧
      Claims.laneResult s t h 2 (w.kd cx) (readK c w.mask.toNat) ((k.bits &&& a.2) ||| (~~~k.bits &&& b.2) ||| k.psn) (w.mz == 1)
        (fun j => (if k.bits.getLsbD j then a.1[j] else b.1[j], 0)))

/-- The poison of a mask from bit `i` on: bit j is set when some poisoned bit lies at or below j (R190). -/
def Sys2Proof.Claims.above (p : LMask) (j : Nat) : Bool := (List.range 64).any (fun i => decide (i ≤ j) && p.getLsbD i)

/-- The number of set bits of a mask below `i`: r(i) of R190. -/
def Sys2Proof.Claims.below (m : LMask) (i : Nat) : Nat := ((List.range 64).filter (fun j => decide (j < i) && m.getLsbD j)).length

/-- The words of R189 and R190 that move lanes under their mask: the registers they read and write, the lane and poison that result lane k copies,
and whether a poisoned mask bit reaches every lane from it on (R190) or its own only (R162). -/
def Sys2Proof.Claims.moved (w : VAWord) : List (Instr × (Ctx → List Ref) × (Core → Ctx → Nat → BitVec 32 × Bool) × Bool) :=
  let sh := w.imm.toNat / 64 % 4
  [(.vperm w, Claims.vaRegs w true true (w.imm.getLsbD 0), fun c cx k =>
      let a := readV c cx (w.ka cx) (w.imm.truncate 32)
      let b := readV c cx (w.kb cx) (w.imm.truncate 32)
      let o := readV c cx (w.kc cx) (w.imm.truncate 32)
      let x := (b.1.getD k 0).toNat
      let l := if w.imm.getLsbD 0 && x / 64 % 2 == 1 then o else a
      (l.1.getD (x % 64) 0, l.2.getLsbD (x % 64) || b.2.getLsbD k), false),
   (.vrot w, fun cx => refV (w.kd cx) ++ refV (w.ka cx) ++ refS (w.sb cx), fun c cx k =>
      let a := readV c cx (w.ka cx) 0
      let b := readS c cx (w.sb cx)
      let n := (b.1.toNat + w.imm.toNat % 64) % 64
      let j := if sh = 0 ∨ sh = 1 then (k + n) % 64 else (k + 64 - n) % 64
      if (sh = 1 ∧ 64 ≤ k + n) ∨ (sh = 3 ∧ k < n) then (0, b.2) else (a.1.getD j 0, a.2.getLsbD j || b.2), false),
   (.vxpnd w, Claims.vaRegs w true false false, fun c cx k =>
      let a := readV c cx (w.ka cx) (w.imm.truncate 32)
      let r := Claims.below (readK c w.mask.toNat).bits k
      (a.1.getD r 0, a.2.getLsbD r), true),
   (.viota w, Claims.vaRegs w false false false, fun c _ k =>
      (BitVec.ofNat 32 (Claims.below (readK c w.mask.toNat).bits k), false), true)]

/-- R187 to R190: VPERM, VROT, VXPND and VIOTA put in flight a vector result after 4 cycles whose selected lanes copy the lanes that their table
names, with the poison of what they copy and, for VPERM, of the index; a poisoned mask bit poisons the lanes from it on of VXPND and VIOTA.
They complete and change nothing else. -/
def Sys2Proof.Claims.VectorMoves : Prop :=
  ∀ (w : VAWord) (s : State) (i : Instr) (regs : Ctx → List Ref) (src : Core → Ctx → Nat → BitVec 32 × Bool) (up : Bool),
    (i, regs, src, up) ∈ Claims.moved w →
    let h := hdVA i w (some (true, 4))
    let c := s.issueCore h.idle
    let cx := s.issueCtx h.idle
    let m := readK c w.mask.toNat
    s.canIssue h regs →
    ∃ t x p q, exec i s = .next t ∧ s.Issued t h ∧ s.goesOn t h 0 ∧ s.puts t h [(4, .vland (w.kd cx) x p m.bits q (w.mz == 1))] ∧
      (∀ k : Fin 64, m.bits.getLsbD k = true → x[k] = (src c cx k).1 ∧ p.getLsbD k = (src c cx k).2) ∧
      (∀ j, j < 64 → q.getLsbD j = if up then Claims.above m.psn j else m.psn.getLsbD j)

/-- R190: VCOMP writes every lane: the selected lanes of a, packed from lane 0 upwards, then zeros; a poisoned mask bit poisons every lane. -/
def Sys2Proof.Claims.VectorCompress : Prop :=
  ∀ (w : VAWord) (s : State),
    let h := hdVA (.vcomp w) w (some (true, 4))
    let c := s.issueCore h.idle
    let cx := s.issueCtx h.idle
    let m := readK c w.mask.toNat
    let a := readV c cx (w.ka cx) (w.imm.truncate 32)
    s.canIssue h (Claims.vaRegs w true false false) →
    ∃ t x p, exec (.vcomp w) s = .next t ∧ s.Issued t h ∧ s.goesOn t h 0 ∧
      s.puts t h [(4, .vland (w.kd cx) x p (BitVec.allOnes 64) 0 false)] ∧
      (∀ k : Fin 64, m.bits.getLsbD k = true →
        x.getD (Claims.below m.bits k) 0 = a.1[k] ∧ p.getLsbD (Claims.below m.bits k) = (a.2.getLsbD k || m.psn != 0)) ∧
      (∀ j : Fin 64, Claims.below m.bits 64 ≤ j.val → x[j] = 0 ∧ p.getLsbD j = (m.psn != 0))

/-- R187 to R190: the words that move lanes. -/
def Obligations.VectorMoves : Prop := Claims.VectorMoves ∧ Claims.VectorCompress

/-- R187, R188: VEXT lands the lane that b and imm name, zero- or sign-extended, in a scalar after 2 cycles; VINS a copy of d_old with that lane
replaced; VMOV moves a legal pattern to a pattern register and back after 1 cycle. They complete and change nothing else. -/
def Obligations.VectorScalarMoves : Prop :=
  (∀ (w : VAWord) (s : State),
    let h := hdVA (.vext w) w (some (false, 2))
    let c := s.issueCore h.idle
    let cx := s.issueCtx h.idle
    let a := readV c cx (w.ka cx) 0
    let b := readS c cx (w.sb cx)
    let i := (b.1.toNat + w.imm.toNat % 64) % 64
    let v : BitVec 32 := a.1[i]'(Nat.mod_lt _ (by decide))
    s.canIssue h (fun cx => refS (w.sd cx) ++ refV (w.ka cx) ++ refS (w.sb cx)) →
    ∃ t, exec (.vext w) s = .next t ∧ s.Issued t h ∧ s.goesOn t h 0 ∧
      s.puts t h [(2, .sland (w.sd cx) (if w.imm.getLsbD 6 then v.signExtend 64 else v.setWidth 64) (a.2.getLsbD i || b.2))]) ∧
  (∀ (w : VAWord) (s : State),
    let h := hdVA (.vins w) w (some (true, 2))
    let c := s.issueCore h.idle
    let cx := s.issueCtx h.idle
    let a := readS c cx (w.sa cx)
    let b := readS c cx (w.sb cx)
    let o := readV c cx (w.kd cx) 0
    let i := (b.1.toNat + w.imm.toNat % 64) % 64
    s.canIssue h (fun cx => refV (w.kd cx) ++ refS (w.sa cx) ++ refS (w.sb cx)) →
    ∃ t x p, exec (.vins w) s = .next t ∧ s.Issued t h ∧ s.goesOn t h 0 ∧
      s.puts t h [(2, .vland (w.kd cx) x p (BitVec.allOnes 64) 0 false)] ∧
      (∀ k : Fin 64, x[k] = (if k.val = i then a.1.setWidth 32 else o.1[k]) ∧
        p.getLsbD k = ((if k.val = i then a.2 else o.2.getLsbD k) || b.2))) ∧
  (∀ (w : VAWord) (s : State),
    let h := hdVA (.vmovToPattern w) w none
    let c := s.issueCore h.idle
    let cx := s.issueCtx h.idle
    let a := readV c cx (w.ka cx) 0
    let x : BitVec 160 := BitVec.ofNat 160 (a.1[0].toNat + a.1[1].toNat * 2 ^ 32 + a.1[2].toNat * 2 ^ 64 + a.1[3].toNat * 2 ^ 96 +
      a.1[4].toNat * 2 ^ 128)
    s.canIssue h (fun cx => refV (w.ka cx)) →
    (patLegal x = true → ∃ t, exec (.vmovToPattern w) s = .next t ∧ s.Issued t h ∧ s.goesOn t h 0 ∧
      s.puts t h [(1, .xland w.d.toNat x (a.2.setWidth 5))]) ∧
    (patLegal x = false → exec (.vmovToPattern w) s = .next ((s.atIssue h.idle).trap s.cur 1 0x02 (c.fieldTval 67)))) ∧
  (∀ (w : VAWord) (s : State),
    let h := hdVA (.vmovFromPattern w) w (some (true, 1))
    let c := s.issueCore h.idle
    let cx := s.issueCtx h.idle
    let r := c.xreg w.a.toNat
    s.canIssue h (fun cx => refV (w.kd cx)) →
    ∃ t x, exec (.vmovFromPattern w) s = .next t ∧ s.Issued t h ∧ s.goesOn t h 0 ∧
      s.puts t h [(1, .vland (w.kd cx) x (r.psn.setWidth 64) (BitVec.allOnes 64) 0 false)] ∧
      (∀ k : Fin 64, x[k] = r.bits.extractLsb' (32 * k) 32))

/-- What VRED and VSCAN make of two values at lane `l` (R80, R81, R191): op add, min or max on FP32 (type 4) or INT32 lanes, min and max of INT32
unsigned with the .u suffix. Only an FP32 addition rounds. -/
def Sys2Proof.Claims.combined (w : VAWord) (rc : RCtx) (l : Nat) (x y : BitVec 32) : BitVec 32 × Flags :=
  let op := w.imm.toNat % 4
  let lt : Bool := if w.imm.getLsbD 2 then decide (x.toNat < y.toNat) else decide (x.toInt < y.toInt)
  let f (r : Nat × Flags) : BitVec 32 × Flags := (BitVec.ofNat 32 r.1, r.2)
  if w.ty = 4 then
    if op = 0 then f (fAdd fp32 (rc.mode w.rnd.toNat 0 l) (FV.ofBits fp32 x.toNat) (FV.ofBits fp32 y.toNat))
    else f (fMinMax fp32 (decide (op = 2)) x.toNat y.toNat)
  else (if op = 0 then x + y else if op = 1 then (if lt then x else y) else (if lt then y else x), 0)

/-- The shade unit passes that combination (R328): it looks at FP32 additions only. -/
def Sys2Proof.Claims.combinedOk (w : VAWord) (rc : RCtx) (l : Nat) (x y : BitVec 32) : Prop :=
  w.ty = 4 → w.imm.toNat % 4 = 0 →
    shadeAdd fp32 (FV.ofBits fp32 (Claims.combined w rc l x y).1.toNat) (FV.ofBits fp32 x.toNat) (FV.ofBits fp32 y.toNat) = true

/-- Node `i` of level `k` of the tree of R80 over the present lanes of `a`, with its lowest present lane; none where it is absent. -/
def Sys2Proof.Claims.node (w : VAWord) (rc : RCtx) (m : LMask) (a : Lanes) : Nat → Nat → Option (Nat × BitVec 32)
  | 0, i => if m.getLsbD i then some (i, a.getD i 0) else none
  | k + 1, i => match Claims.node w rc m a k (2 * i), Claims.node w rc m a k (2 * i + 1) with
    | some x, some y => some (x.1, (Claims.combined w rc x.1 x.2 y.2).1)
    | some x, none => some x
    | none, y => y

/-- The value that a scan carries into lane `i` (R81, R192): none where a segment begins, or nothing was present in it yet. -/
def Sys2Proof.Claims.carried (w : VAWord) (rc : RCtx) (m head : LMask) (a : Lanes) : Nat → Option (BitVec 32)
  | 0 => none
  | i + 1 =>
    let y := if head.getLsbD i then none else Claims.carried w rc m head a i
    if m.getLsbD i then some (match y with | none => a.getD i 0 | some u => (Claims.combined w rc i u (a.getD i 0)).1) else y

/-- What a scan has at lane `i` before it: see `Claims.carried`; a head bit at `i` begins a segment. -/
def Sys2Proof.Claims.before (w : VAWord) (rc : RCtx) (m head : LMask) (a : Lanes) (i : Nat) : Option (BitVec 32) :=
  if head.getLsbD i then none else Claims.carried w rc m head a i

/-- R80, R191: VRED lands after 12 cycles, in every lane, the value of the root of the tree of R80 over the present lanes of a, or +0 without a present
lane, poisoned in every lane where a present lane or a bit of the mask is; for INT32 addition that is the sum modulo 2^32. Its flags are those of the
combined nodes, and where the shade unit does not pass an FP32 addition at a node, an error of engine 1 comes with them (R328). It changes nothing else. -/
def Sys2Proof.Claims.Reductions : Prop :=
  ∀ (w : VAWord) (s : State),
    let h := hdVA (.vred w) w (some (true, 12))
    let c := s.issueCore h.idle
    let cx := s.issueCtx h.idle
    let rc := c.rctx cx
    let m := readK c w.mask.toNat
    let a := readV c cx (w.ka cx) (w.imm.truncate 32)
    let node := Claims.node w rc m.bits a.1
    s.canIssue h (Claims.vaRegs w true false false) →
    ∃ t p fl ok, exec (.vred w) s = .next t ∧ s.Issued t h ∧ s.goesOn t h 0 ∧
      s.puts t h ((12, .vland (w.kd cx) (Vector.replicate 64 (((node 6 0).map (·.2)).getD 0)) p (BitVec.allOnes 64) 0 false) ::
        (if fl = 0 then [] else [(12, .flags fl)]) ++ Claims.shaded 12 1 (s.core s.cur) ok) ∧
      (∀ k, k < 64 → p.getLsbD k = (a.2 &&& m.bits != 0 || m.psn != 0)) ∧
      (∀ b, fl.getLsbD b = true ↔ ∃ k i x y, k < 6 ∧ i < 2 ^ (5 - k) ∧ node k (2 * i) = some x ∧ node k (2 * i + 1) = some y ∧
        (Claims.combined w rc x.1 x.2 y.2).2.getLsbD b = true) ∧
      (ok = true ↔ ∀ k i x y, k < 6 → i < 2 ^ (5 - k) → node k (2 * i) = some x → node k (2 * i + 1) = some y → Claims.combinedOk w rc x.1 x.2 y.2) ∧
      (w.ty = 3 → w.imm.toNat % 4 = 0 →
        ((node 6 0).map (·.2)).getD 0 = ((List.range 64).map (fun i => if m.bits.getLsbD i then a.1.getD i 0 else 0)).sum)

/-- R81, R192: VSCAN lands after 14 cycles, in each present lane, the value of the scan after that lane or, with .ex, before it, 0 in the first of a
segment; poisoned where a present lane of its segment at or below it is, or a bit of the mask or of the head mask at or below it. Its flags are those
of the combinations made, and where the shade unit does not pass one of its FP32 additions, an error of engine 1 comes with them (R328). It changes nothing
else. -/
def Sys2Proof.Claims.Scans : Prop :=
  ∀ (w : VAWord) (s : State),
    let h := hdVA (.vscan w) w (some (true, 14))
    let c := s.issueCore h.idle
    let cx := s.issueCtx h.idle
    let rc := c.rctx cx
    let m := readK c w.mask.toNat
    let hd : KReg := if w.imm.getLsbD 4 then readK c w.b.toNat else ⟨0, 0⟩
    let a := readV c cx (w.ka cx) 0
    let before := Claims.before w rc m.bits hd.bits a.1
    let after (i : Nat) : BitVec 32 := match before i with
      | none => a.1.getD i 0
      | some y => (Claims.combined w rc i y (a.1.getD i 0)).1
    s.canIssue h (fun cx => refV (w.kd cx) ++ refV (w.ka cx)) →
    ∃ t x p q fl ok, exec (.vscan w) s = .next t ∧ s.Issued t h ∧ s.goesOn t h 0 ∧
      s.puts t h ((14, .vland (w.kd cx) x p m.bits q (w.mz == 1)) :: (if fl = 0 then [] else [(14, .flags fl)]) ++
        Claims.shaded 14 1 (s.core s.cur) ok) ∧
      (∀ k : Fin 64, m.bits.getLsbD k = true → x[k] = (if w.imm.getLsbD 3 then (before k).getD 0 else after k) ∧
        (p.getLsbD k = true ↔ ∃ i, i ≤ k.val ∧ m.bits.getLsbD i = true ∧ a.2.getLsbD i = true ∧ ∀ j, i < j → j ≤ k.val → hd.bits.getLsbD j = false)) ∧
      (∀ j, j < 64 → q.getLsbD j = Claims.above (m.psn ||| hd.psn) j) ∧
      (∀ b, fl.getLsbD b = true ↔ ∃ i y, i < 64 ∧ m.bits.getLsbD i = true ∧ before i = some y ∧
        (Claims.combined w rc i y (a.1.getD i 0)).2.getLsbD b = true) ∧
      (ok = true ↔ ∀ i y, i < 64 → m.bits.getLsbD i = true → before i = some y → Claims.combinedOk w rc i y (a.1.getD i 0))

/-- R80, R81, R191, R192: VRED and VSCAN complete, and land the combination of their lanes. -/
def Obligations.ReductionsAndScans : Prop := Claims.Reductions ∧ Claims.Scans

/-- R173: the mask words. KAND, KOR, KXOR, KNOT and KMOV of masks, KMOV from a scalar (every bit poisoned when it is), KMOV to a scalar and KPOP
(poisoned when any bit is) complete, put in flight exactly their result and change nothing else. -/
def Obligations.MaskWords : Prop :=
  (∀ (w : VAWord) (s : State) (i : Instr) (two : Bool) (f : LMask → LMask → LMask),
    (i, two, f) ∈ ([(.kand w, true, fun x y => x &&& y), (.kor w, true, fun x y => x ||| y), (.kxor w, true, fun x y => x ^^^ y),
      (.knot w, false, fun x _ => ~~~x), (.kmov w, false, fun x _ => x)] : List (Instr × Bool × (LMask → LMask → LMask))) →
    let h := hdVA i w none
    let c := s.issueCore h.idle
    let a := readK c w.a.toNat
    let b := if two then readK c w.b.toNat else ⟨0, 0⟩
    s.canIssue h (fun _ => []) →
    ∃ t, exec i s = .next t ∧ s.Issued t h ∧ s.goesOn t h 0 ∧
      s.puts t h [(1, .kland w.d.toNat (f a.bits b.bits) (a.psn ||| b.psn) (BitVec.allOnes 64) 0 false)]) ∧
  (∀ (w : VAWord) (s : State),
    let h := hdVA (.kmovFromScalar w) w none
    let a := readS (s.issueCore h.idle) (s.issueCtx h.idle) (w.sa (s.issueCtx h.idle))
    s.canIssue h (fun cx => refS (w.sa cx)) →
    ∃ t, exec (.kmovFromScalar w) s = .next t ∧ s.Issued t h ∧ s.goesOn t h 0 ∧
      s.puts t h [(1, .kland w.d.toNat a.1 (if a.2 then BitVec.allOnes 64 else 0) (BitVec.allOnes 64) 0 false)]) ∧
  (∀ (w : VAWord) (s : State) (i : Instr) (lat : Nat) (f : LMask → Word),
    (i, lat, f) ∈ ([(.kmovToScalar w, 1, fun x => x),
      (.kpop w, 2, fun x => BitVec.ofNat 64 ((List.range 64).filter (fun k => x.getLsbD k)).length)] : List (Instr × Nat × (LMask → Word))) →
    let h := hdVA i w (some (false, lat))
    let cx := s.issueCtx h.idle
    let a := readK (s.issueCore h.idle) w.a.toNat
    s.canIssue h (fun cx => refS (w.sd cx)) →
    ∃ t, exec i s = .next t ∧ s.Issued t h ∧ s.goesOn t h 0 ∧ s.puts t h [(lat, .sland (w.sd cx) (f a.bits) (a.psn != 0))])

/-! ### Vector memory and deferral (R175 to R195) -/

/-- The frame of a word that reads the scratchpads of its quad: as `State.Issued`, but the set R of another member's open region may grow (R177). -/
structure Sys2Proof.Claims.QuadIssued (s t : State) (h : Head) : Prop where
  package : t = { s with cores := t.cores, now := t.now, nextId := t.nextId }
  others : ∀ m, m ≠ s.cur → t.core m = { s.core m with opn := { (s.core m).opn with rset := (t.core m).opn.rset } }
  core : (s.core s.cur).issuedFrame (t.core s.cur)
  stream : (t.core s.cur).stream = (s.issueCore h.idle).stream
  device : (t.core s.cur).dt = (s.issueCore h.idle).dt

/-- No error waits in the scratchpads of a core's quad. -/
def Sys2Proof.Claims.quadClean (s : State) : Prop := ∀ m, m < 4 → (s.core (quadMember s.cur m)).ue = [] ∧ (s.core (quadMember s.cur m)).ce = []

/-- The address of lane `k` (R176): of its byte, or for INT4 of its nibble. `x` is the lane number or the lane's index. -/
def Sys2Proof.Claims.laneAddress (c : Core) (cx : Ctx) (w : VMWord) (x : Int) : Nat :=
  let base : Int := (readS c cx (w.kbase cx)).1.toNat + w.off.toInt
  let unit : Int := if w.ty.toNat = 12 then 1 else tySize w.ty.toNat
  let st : Int := if w.stride = 48 then unit else (readS c cx (w.kstride cx)).1.toInt
  if w.ty.toNat = 12 then ((2 * base + x * st) % 2 ^ 24).toNat else ((base + x * st) % 2 ^ 23).toNat

/-- R175 to R182: VLD and VLDX, where no check of R178 stops them and no error waits in the quad's scratchpads, complete: each selected lane lands the
bytes, or the nibble, at its address as they stand in the issue cycle, widened as R180 says, after 8 cycles, 4 more when a lane reads a neighbour, or
after 40 cycles; they set R of the granules they touch and change nothing else. -/
def Obligations.VectorLoads : Prop :=
  ∀ (w : VMWord) (s : State) (i : Instr) (lat : Nat) (indexed : Bool),
    (i, lat, indexed) ∈ ([(.vld w, 8, false), (.vldx w, 40, true)] : List (Instr × Nat × Bool)) →
    let h := hdVM i w (some (true, lat))
    let c := s.issueCore h.idle
    let cx := s.issueCtx h.idle
    let m := readK c w.mask.toNat
    let idx := readV c cx (w.kidx cx) 0
    let at_ (k : Fin 64) : Nat := Claims.laneAddress c cx w (if indexed then idx.1[k].toInt else k)
    let raw (k : Fin 64) : Nat :=
      if w.ty.toNat = 12 then s.quadVal s.cur (at_ k / 2) 1 / 16 ^ (at_ k % 2) % 16 else s.quadVal s.cur (at_ k) (tySize w.ty.toNat)
    let segs := (laneAddrs c cx w m.bits (if indexed then some idx else none)).map (fun x => laneRange w.ty.toNat x.2)
    s.canIssue h (fun cx => refV (w.kv cx) ++ refS (w.kbase cx) ++ refS (w.kstride cx) ++ (if indexed then refV (w.kidx cx) else [])) →
    vmPoison c cx w m (if indexed then some idx else none) false = none → alignTrap (tySize w.ty.toNat) segs = none →
    loadTrap (s.atIssue h.idle) s.cur segs = none → Claims.quadClean s →
    ∃ t, exec i s = .next t ∧ Claims.QuadIssued s t h ∧ s.goesOn t h 0 ∧
      Claims.laneResult s t h (if indexed = false ∧ (remoteAt s.cur segs).isSome then lat + 4 else lat) (w.kv cx) m 0 (w.mz == 1)
        (fun k => loadLane w.ty.toNat (raw k)) ∧
      (∀ g ∈ granSegs (memberSegs (memberOf s.cur) segs), g ∈ (t.core s.cur).opn.rset)

/-- R175, R179, R181, R182: VST and VSTX, where no check of R178 stops them, complete: after 4 or 12 cycles they write, in lane order, the bytes or the
nibble of every selected lane, converted as R181 says, at its local address, with the flags of the conversions; they set W of the granules they
touch and change nothing else. -/
def Obligations.VectorStores : Prop :=
  ∀ (w : VMWord) (s : State) (i : Instr) (lat : Nat) (indexed : Bool),
    (i, lat, indexed) ∈ ([(.vst w, 4, false), (.vstx w, 12, true)] : List (Instr × Nat × Bool)) →
    let h := hdVM i w none
    let c := s.issueCore h.idle
    let cx := s.issueCtx h.idle
    let m := readK c w.mask.toNat
    let idx := readV c cx (w.kidx cx) 0
    let a := readV c cx (w.kv cx) 0
    let at_ (k : Fin 64) : Nat := Claims.laneAddress c cx w (if indexed then idx.1[k].toInt else k) % (if w.ty.toNat = 12 then 2 ^ 22 else 2 ^ 21)
    let out (k : Fin 64) : Nat × Flags := storeLane w.ty.toNat ((c.rctx cx).mode w.rnd.toNat 0 k) a.1[k]
    let sel := (List.finRange 64).filter (fun (k : Fin 64) => m.bits.getLsbD k)
    let segs := (laneAddrs c cx w m.bits (if indexed then some idx else none)).map (fun x => laneRange w.ty.toNat x.2)
    s.canIssue h (fun cx => refV (w.kv cx) ++ refS (w.kbase cx) ++ refS (w.kstride cx) ++ (if indexed then refV (w.kidx cx) else [])) →
    vmPoison c cx w m (if indexed then some idx else none) true = none → alignTrap (tySize w.ty.toNat) segs = none →
    storeTrap (s.atIssue h.idle) s.cur segs (dataTrap (w.kv cx) m.bits a.2) = none →
    ∃ t fl, exec i s = .next t ∧ s.Issued t h ∧ s.goesOn t h 0 ∧
      s.puts t h ((lat, .spw (sel.flatMap (fun k => laneBytes w.ty.toNat (at_ k) (out k).1))) :: (if fl = 0 then [] else [(lat, .flags fl)])) ∧
      (∀ b, fl.getLsbD b = true ↔ ∃ k ∈ sel, (out k).2.getLsbD b = true) ∧
      (t.core s.cur).opn.wset = saddAll (s.core s.cur).opn.wset (granSegs (memberSegs (memberOf s.cur) segs))

/-- R184, R185: VXPL with a legal, unpoisoned pattern and VLDB, where no check of R178 stops them and no error waits in the quad's scratchpads,
complete: each selected lane of VXPL lands the field of the bit stream that starts at B_k, each selected lane of VLDB the element of its block decoded
under its header (R75), after 12 cycles, 4 more when a lane reads a neighbour. -/
def Obligations.ExtractionAndBlockLoads : Prop :=
  (∀ (w : VMWord) (s : State),
    let h := hdVM (.vxpl w) w (some (true, 12))
    let c := s.issueCore h.idle
    let cx := s.issueCtx h.idle
    let m := readK c w.mask.toNat
    let x := c.xreg w.c.toNat
    let ea := (((readS c cx (w.kbase cx)).1.toNat + w.off.toInt) % 2 ^ 23).toNat
    let ss := (List.range 128).filter (fun b => x.bits.getLsbD b)
    let start (k : Nat) : Nat := k / ss.length * (x.bits.toNat / 2 ^ 128 % 128 + 1) + ss.getD (k % ss.length) 0
    let width := x.bits.toNat / 2 ^ 136 % 16 + 1
    let range (k : Nat) : Nat × Nat := ((ea + start k / 8) % 2 ^ 23, (start k + width - 1) / 8 - start k / 8 + 1)
    let segs := (setBits m.bits).map range
    let v (k : Nat) : BitVec 32 :=
      let f := s.quadVal s.cur (range k).1 (range k).2 / 2 ^ (start k % 8) % 2 ^ width
      if x.bits.getLsbD 140 ∧ 2 ^ (width - 1) ≤ f then BitVec.ofInt 32 ((f : Int) - 2 ^ width) else BitVec.ofNat 32 f
    s.canIssue h (fun cx => refV (w.kv cx) ++ refS (w.kbase cx)) → (readS c cx (w.kbase cx)).2 = false → x.psn = 0 → patLegal x.bits = true →
    loadTrap (s.atIssue h.idle) s.cur segs = none → Claims.quadClean s →
    ∃ t, exec (.vxpl w) s = .next t ∧ Claims.QuadIssued s t h ∧ s.goesOn t h 0 ∧
      Claims.laneResult s t h (if (remoteAt s.cur segs).isSome then 16 else 12) (w.kv cx) m 0 (w.mz == 1) (fun k => (v k, 0))) ∧
  (∀ (w : VMWord) (s : State),
    let h := hdVM (.vldb w) w (some (true, 12))
    let c := s.issueCore h.idle
    let cx := s.issueCtx h.idle
    let m := readK c w.mask.toNat
    let z := bxSize w.ty.toNat
    let ea := (((readS c cx (w.kbase cx)).1.toNat + w.off.toInt) % 2 ^ 23).toNat
    let hd (k : Nat) : Nat := s.quadVal s.cur (((readS c cx (w.khdr cx)).1.toNat + 3 * (k / 16)) % 2 ^ 23) 3
    let plane (k : Nat) : Nat := s.quadVal s.cur ((ea + z * (k / 16)) % 2 ^ 23) z
    let segs := (bxBlocks m.bits).flatMap (fun b => [((ea + z * b) % 2 ^ 23, z), (((readS c cx (w.khdr cx)).1.toNat + 3 * b) % 2 ^ 23, 3)])
    s.canIssue h (fun cx => refV (w.kv cx) ++ refS (w.kbase cx) ++ refS (w.khdr cx)) →
    (readS c cx (w.kbase cx)).2 = false → (readS c cx (w.khdr cx)).2 = false → ea % 2 = 0 →
    loadTrap (s.atIssue h.idle) s.cur segs = none → Claims.quadClean s →
    (∀ k : Fin 64, m.bits.getLsbD k = true → (bxHeader (hd k)).2.2 = (0, false)) →
    ∃ t p, exec (.vldb w) s = .next t ∧ Claims.QuadIssued s t h ∧ s.goesOn t h 0 ∧
      Claims.laneResult s t h (if (remoteAt s.cur segs).isSome then 16 else 12) (w.kv cx) m p (w.mz == 1)
        (fun k => (bxElem (bxM w.ty.toNat) (hd k) (plane k) (k % 16), 0)) ∧
      (∀ k : Fin 64, m.bits.getLsbD k = true → p.getLsbD k = false))

/-- R186: VSTB, where no check of R178 stops it, completes: after 8 cycles it writes, for every block with a selected lane, the element plane and the
header that R78 and R79 make of the block's 16 lanes, the unselected ones as +0, with their flags. -/
def Obligations.BlockStores : Prop :=
  ∀ (w : VMWord) (s : State),
    let h := hdVM (.vstb w) w none
    let c := s.issueCore h.idle
    let cx := s.issueCtx h.idle
    let m := readK c w.mask.toNat
    let z := bxSize w.ty.toNat
    let a := readV c cx (w.kv cx) 0
    let ea := (((readS c cx (w.kbase cx)).1.toNat + w.off.toInt) % 2 ^ 23).toNat
    let hv := (readS c cx (w.khdr cx)).1.toNat
    let segs := (bxBlocks m.bits).flatMap (fun b => [((ea + z * b) % 2 ^ 23, z), ((hv + 3 * b) % 2 ^ 23, 3)])
    let out (b : Nat) : Nat × Nat × Flags := bxEncode (bxM w.ty.toNat) (fun j => (c.rctx cx).mode w.rnd.toNat b (16 * b + j))
      ((List.range 16).map (fun j => if m.bits.getLsbD (16 * b + j) then a.1.getD (16 * b + j) 0 else 0))
    s.canIssue h (fun cx => refV (w.kv cx) ++ refS (w.kbase cx) ++ refS (w.khdr cx)) →
    (readS c cx (w.kbase cx)).2 = false → (readS c cx (w.khdr cx)).2 = false → m.psn = 0 → ea % 2 = 0 →
    storeTrap (s.atIssue h.idle) s.cur segs (dataTrap (w.kv cx) m.bits a.2) = none →
    ∃ t fl, exec (.vstb w) s = .next t ∧ s.Issued t h ∧ s.goesOn t h 0 ∧
      s.puts t h ((8, .spw ((bxBlocks m.bits).flatMap (fun b =>
          fullBytes ((ea + z * b) % 2 ^ 21) (leBytes z (out b).2.1) ++ fullBytes ((hv + 3 * b) % 2 ^ 21) (leBytes 3 (out b).1)))) ::
        (if fl = 0 then [] else [(8, .flags fl)])) ∧
      (∀ k, fl.getLsbD k = true ↔ ∃ b ∈ bxBlocks m.bits, (out b).2.2.getLsbD k = true)

/-- R193 to R195: VDEFER and VDRAIN with a legal ring. VDEFER of m selected lanes with room for them writes their entries, in lane order, at the tail
after 4 cycles and moves DQTAIL m entries on after 1; VDRAIN of n = min(64, entries) lands the operands of the n oldest entries, their tags and
lanes, and the mask 2^n − 1 after 8 cycles and moves DQHEAD n entries on after 1. They complete and change nothing else. -/
def Obligations.DeferralWords : Prop :=
  (∀ (w : VAWord) (s : State),
    let h := hdVA (.vdefer w) w none
    let c := s.issueCore h.idle
    let cx := s.issueCtx h.idle
    let r := c.arch.csr
    let m := readK c w.mask.toNat
    let a := readV c cx (w.ka cx) 0
    let b := readV c cx (w.kb cx) 0
    let size := r.dqlim.toNat - r.dqbase.toNat
    let ring (p : Word) (k : Nat) : Nat := r.dqbase.toNat + (p.toNat - r.dqbase.toNat + 16 * k) % size
    let sel := setBits m.bits
    let segs := (List.range sel.length).map (fun e => (ring r.dqtail e, 16))
    s.canIssue h (fun cx => refV (w.ka cx) ++ refV (w.kb cx)) → m.psn = 0 → dqBad r = none → protTrap (s.atIssue h.idle) s.cur segs = none →
    m.bits &&& a.2 = 0 → m.bits &&& b.2 = 0 → emptyCheck (s.atIssue h.idle) s.cur (granSegs segs) = none →
    writeCheck (s.atIssue h.idle) s.cur segs = none →
    (r.dqtail.toNat + size - r.dqhead.toNat) % size / 16 + sel.length ≤ size / 16 - 1 →
    ∃ t, exec (.vdefer w) s = .next t ∧ s.Issued t h ∧ s.goesOn t h 0 ∧
      s.puts t h [(1, .csrw 0x053 (BitVec.ofNat 64 (ring r.dqtail sel.length))),
        (4, .spw (sel.zipIdx.flatMap (fun x => fullBytes (ring r.dqtail x.2)
          (leBytes 4 (a.1.getD x.1 0).toNat ++ leBytes 4 (b.1.getD x.1 0).toNat ++ leBytes 2 x.1 ++ leBytes 2 (w.imm.toNat % 65536) ++ leBytes 4 0))))] ∧
      (t.core s.cur).opn.wset = saddAll (s.core s.cur).opn.wset (granSegs segs)) ∧
  (∀ (w : VAWord) (s : State),
    let h := { hdVA (.vdrain w) w (some (true, 8)) with pushes := 3 }
    let c := s.issueCore h.idle
    let cx := s.issueCtx h.idle
    let r := c.arch.csr
    let size := r.dqlim.toNat - r.dqbase.toNat
    let ring (p : Word) (k : Nat) : Nat := r.dqbase.toNat + (p.toNat - r.dqbase.toNat + 16 * k) % size
    let n := min 64 ((r.dqtail.toNat + size - r.dqhead.toNat) % size / 16)
    let segs := (List.range n).map (fun e => (ring r.dqhead e, 16))
    let field (off : Nat) (k : Fin 64) : Nat := if k.val < n then Memory.val c.spad (ring r.dqhead k + off) 4 else 0
    s.canIssue h (fun cx => refV (w.kd cx) ++ refV (w.ka cx) ++ refV (w.kb cx)) → dqBad r = none →
    emptyCheck (s.atIssue h.idle) s.cur (granSegs segs) = none → c.ue = [] → c.ce = [] →
    ∃ t x y z, exec (.vdrain w) s = .next t ∧ s.Issued t h ∧ s.goesOn t h 0 ∧
      s.puts t h [(1, .csrw 0x052 (BitVec.ofNat 64 (ring r.dqhead n))),
        (8, .vland (w.kd cx) x 0 (BitVec.allOnes 64) 0 false), (8, .vland (w.ka cx) y 0 (BitVec.allOnes 64) 0 false),
        (8, .vland (w.kb cx) z 0 (BitVec.allOnes 64) 0 false), (8, .kland w.c.toNat (BitVec.ofNat 64 (2 ^ n - 1)) 0 (BitVec.allOnes 64) 0 false)] ∧
      (∀ k : Fin 64, x[k].toNat = field 0 k ∧ y[k].toNat = field 4 k ∧
        z[k].toNat = field 8 k / 2 ^ 16 * 2 ^ 16 + field 8 k % 64))

/-! ### Global memory words (R283 to R293) -/

/-- The byte that the core's own held writes give a read at place `op` of issue order: that of the latest earlier one that covers it (R262). -/
def Sys2Proof.Claims.heldByte (c : Core) (op pa : Nat) : Option (BitVec 8) :=
  ((c.held.filter (fun h => decide (h.op < op))).filterMap (fun h => h.eff.byteAt pa)).getLast?

/-- The byte at `pa` of the line that the core's L1 holds (R264). -/
def Sys2Proof.Claims.cachedByte (c : Core) (pa : Nat) : Option (BitVec 8) := (c.l1.find? (fun l => l.pa = pa / 64 * 64)).bind (fun l => l.bytes[pa % 64]?)

/-- Byte `j` of the arrival or copy `tag`, of which `got` is there already and which core `n` with state `c` reads from `pa` in class `cls` at place `op`
of its issue order: it is that of the core's held writes, else, where `l1` allows, that of its L1, else it is requested from its home (R262, R278, R284,
R285, R289, R306). -/
def Sys2Proof.Claims.comes (c : Core) (t : State) (n op cls : Nat) (l1 : Bool) (tag : Nat) (got : List (Nat × BitVec 8 × Bool)) (j pa : Nat) : Prop :=
  match Claims.heldByte c op pa, (if l1 then Claims.cachedByte c pa else none) with
  | some b, _ => (j, b, false) ∈ got
  | none, some b => (j, b, false) ∈ got
  | none, none => (∀ y ∈ got, y.1 ≠ j) ∧
      ∃ r ∈ t.reads, r.core = n ∧ r.line = pa / 64 * 64 ∧ ({ tag := tag, idx := j, off := pa % 64, op := op, cls := cls } : Want) ∈ r.wants

/-- What a word that only reads global memory may change besides its destination: cores and clock, the requests on their way, of which each earlier one is
still there, the line counters, and the order of use in the core's own L1. -/
structure Sys2Proof.Claims.OnlyReads (s t : State) (h : Head) : Prop where
  package : t = { s with cores := t.cores, now := t.now, nextId := t.nextId, reads := t.reads, counters := t.counters }
  others : ∀ m, m ≠ s.cur → t.core m = s.core m
  requests : ∀ r ∈ s.reads, ∃ q ∈ t.reads, q = { r with wants := q.wants } ∧ r.wants <+: q.wants
  lines : (t.core s.cur).l1.map (fun l => (l.pa, l.bytes)) = (s.core s.cur).l1.map (fun l => (l.pa, l.bytes))
  flights : (t.core s.cur).flights = (s.core s.cur).flights
  device : (t.core s.cur).dt = (s.issueCore h.idle).dt

/-- R40, R41, R262, R264, R278, R283 to R285: LDG with an unpoisoned aligned address that translates completes at once: its destination becomes empty and
awaits one arrival, each of whose bytes is that of the core's held writes, else, but for LDG.S, that of its L1, else requested from its home; no
other register and no memory changes. -/
def Sys2Proof.Claims.GlobalLoads : Prop :=
  ∀ (w : SGWord) (s : State) (i : Instr) (n : Nat) (sg : Bool),
    (i, n, sg) ∈ ([(.ldgW w, 4, true), (.ldgWu w, 4, false), (.ldgD w, 8, false), (.ldgS w, 8, false)] : List (Instr × Nat × Bool)) →
    let z := w.z == 1
    let h := mkHead i w.idle z 0 none
    let c := s.issueCore h.idle
    let cx := s.issueCtx h.idle
    let a := readS c cx (rotS cx z w.a.toNat)
    let d := rotS cx z w.d.toNat
    s.canIssue h (fun cx => refS (rotS cx z w.d.toNat) ++ refS (rotS cx z w.a.toNat)) → a.2 = false → a.1.toNat % n = 0 →
    ∀ pa, (s.atIssue h.idle).translateAll s.cur [(a.1.toNat, 0)] = .inr [pa] →
    ∃ t x, exec i s = .next t ∧ s.goesOn t h 0 ∧ Claims.OnlyReads s t h ∧
      (t.core s.cur).awaits = c.awaits ++ [x] ∧ x.kind = .ldg d n sg ∧ x.need = n ∧ x.rgn = c.opn.id ∧ x.ready = none ∧
      (∀ j, j < n → Claims.comes c t s.cur x.id w.cls.toNat (i != .ldgS w) x.id x.bytes j (pa + j)) ∧
      (∀ hd : d < 32, (t.core s.cur).arch.s[d] = { c.arch.s[d] with pend := some x.id }) ∧
      (∀ r (hr : r < 32), r ≠ d → (t.core s.cur).arch.s[r] = c.arch.s[r]) ∧
      (s.core s.cur).issuedFrame { t.core s.cur with awaits := c.awaits, l1 := c.l1, arch := { (t.core s.cur).arch with s := c.arch.s } }

/-- R22, R44, R286: STG with an unpoisoned aligned address that translates for a write, unpoisoned data, a free commit-buffer slot and no error waiting
in the commit buffer holds its write until its region closes, behind what the core holds already: no memory changes, no register changes, nothing is put
in flight. -/
def Sys2Proof.Claims.GlobalStores : Prop :=
  ∀ (w : SGWord) (s : State) (i : Instr) (n : Nat), (i, n) ∈ ([(.stgW w, 4), (.stgD w, 8)] : List (Instr × Nat)) →
    let z := w.z == 1
    let h := mkHead i w.idle z 0 none
    let c := s.issueCore h.idle
    let cx := s.issueCtx h.idle
    let a := readS c cx (rotS cx z w.a.toNat)
    let v := readS c cx (rotS cx z w.d.toNat)
    s.canIssue h (fun cx => refS (rotS cx z w.d.toNat) ++ refS (rotS cx z w.a.toNat)) → a.2 = false → v.2 = false → a.1.toNat % n = 0 →
    ∀ pa, (s.atIssue h.idle).translateAll s.cur [(a.1.toNat, 1)] = .inr [pa] → c.slotsFor [(pa, n)] = true → Claims.bufferClean c →
    ∃ t x, exec i s = .next t ∧ t = { s with cores := t.cores, now := t.now, nextId := t.nextId } ∧ s.goesOn t h 0 ∧
      (∀ m, m ≠ s.cur → t.core m = s.core m) ∧ (t.core s.cur).flights = c.flights ∧
      (s.core s.cur).issuedFrame { t.core s.cur with held := c.held } ∧ (t.core s.cur).held = c.held ++ [x] ∧ x.rgn = c.opn.id ∧
      x.cls = w.cls.toNat ∧ x.eff = .write a.1.toNat pa ((List.range n).map (fun k => BitVec.ofNat 8 (v.1.toNat / 256 ^ k)))

/-- R22, R40, R41, R44, R262, R264, R278, R283 to R286: the scalar global loads and stores. -/
def Obligations.ScalarGlobalWords : Prop := Claims.GlobalLoads ∧ Claims.GlobalStores

/-- R287 to R291: VLDG, VSTG and VRED.G, where no check of R288 stops them, complete. A VLDG with a selected lane empties its destination, which awaits all
bytes of its selected lanes, each from the core's held writes, its L1 or its home; one without a selected lane writes no lane under merging and
+0 into every lane after 1 cycle under zeroing. VSTG holds one write for each selected lane, in lane order, and its conversions set their flags
after 4 cycles; VRED.G holds one group of additions with their rounding, or nothing without a selected lane. No memory and no other register
changes. -/
def Obligations.VectorGlobalWords : Prop :=
  (∀ (w : VMWord) (s : State) (ls : List (Nat × Nat × Nat)),
    let h := hdVM (.vldg w) w none
    let c := s.issueCore h.idle
    let cx := s.issueCtx h.idle
    let m := readK c w.mask.toNat
    let k := tySize w.ty.toNat
    s.canIssue h (fun cx => refV (w.kv cx) ++ refS (w.kbase cx) ++ refS (w.kstride cx)) →
    globalChecks (s.atIssue h.idle) cx w m false 0 = .inr ls →
    (ls ≠ [] → ∃ t x, exec (.vldg w) s = .next t ∧ s.goesOn t h 0 ∧ Claims.OnlyReads s t h ∧ (t.core s.cur).awaits = c.awaits ++ [x] ∧
      x.kind = .vldg (w.kv cx) w.ty.toNat m.bits m.psn (w.mz == 1) ∧ x.need = k * ls.length ∧ x.rgn = c.opn.id ∧ x.ready = none ∧
      (∀ l ∈ ls, ∀ j, j < k → Claims.comes c t s.cur x.id w.cls.toNat true x.id x.bytes (4 * l.1 + j) (l.2.2 + j)) ∧
      (∀ hd : w.kv cx < 32, (t.core s.cur).arch.v[w.kv cx] = { c.arch.v[w.kv cx] with pend := some x.id }) ∧
      (∀ r (hr : r < 32), r ≠ w.kv cx → (t.core s.cur).arch.v[r] = c.arch.v[r]) ∧
      (s.core s.cur).issuedFrame { t.core s.cur with awaits := c.awaits, l1 := c.l1, arch := { (t.core s.cur).arch with v := c.arch.v } }) ∧
    (ls = [] → m.bits = 0 → ∃ t, exec (.vldg w) s = .next t ∧ s.Issued t h ∧ s.goesOn t h 0 ∧
      (w.mz = 0 → (t.core s.cur).flights = c.flights) ∧
      (w.mz = 1 → s.puts t h [(1, .vset (w.kv cx) (Vector.replicate 64 0) 0 0 m.psn true)]))) ∧
  (∀ (w : VMWord) (s : State) (ls : List (Nat × Nat × Nat)),
    let h := hdVM (.vstg w) w none
    let c := s.issueCore h.idle
    let cx := s.issueCtx h.idle
    let m := readK c w.mask.toNat
    let k := tySize w.ty.toNat
    let a := readV c cx (w.kv cx) 0
    let out (l : Nat) : Nat × Flags := storeLane w.ty.toNat ((c.rctx cx).mode w.rnd.toNat 0 l) (a.1.getD l 0)
    s.canIssue h (fun cx => refV (w.kv cx) ++ refS (w.kbase cx) ++ refS (w.kstride cx)) →
    globalChecks (s.atIssue h.idle) cx w m true 1 = .inr ls → overflowAt c k ls = none → m.bits &&& a.2 = 0 → Claims.bufferClean c →
    ∃ t new fl, exec (.vstg w) s = .next t ∧ t = { s with cores := t.cores, now := t.now, nextId := t.nextId } ∧ s.goesOn t h 0 ∧
      (∀ m, m ≠ s.cur → t.core m = s.core m) ∧
      (t.core s.cur).held = c.held ++ new ∧ new.map (·.eff) = ls.map (fun l => .write l.2.1 l.2.2 (leBytes k (out l.1).1)) ∧
      (∀ x ∈ new, x.rgn = c.opn.id ∧ x.cls = w.cls.toNat) ∧
      (fl = 0 → (t.core s.cur).flights = c.flights) ∧ (fl ≠ 0 → s.puts t h [(4, .flags fl)]) ∧
      (∀ b, fl.getLsbD b = true ↔ ∃ l, l < 64 ∧ m.bits.getLsbD l = true ∧ (out l).2.getLsbD b = true) ∧
      (s.core s.cur).issuedFrame { t.core s.cur with held := c.held }) ∧
  (∀ (w : VMWord) (s : State) (ls : List (Nat × Nat × Nat)),
    let h := hdVM (.vredG w) w none
    let c := s.issueCore h.idle
    let cx := s.issueCtx h.idle
    let m := readK c w.mask.toNat
    let a := readV c cx (w.kv cx) 0
    let md (l : Nat) : Mode := (c.rctx cx).mode w.rnd.toNat 0 l
    s.canIssue h (fun cx => refV (w.kv cx) ++ refS (w.kbase cx) ++ refS (w.kstride cx)) →
    globalChecks (s.atIssue h.idle) cx w m true 2 = .inr ls → overflowAt c 4 ls = none → m.bits &&& a.2 = 0 → Claims.bufferClean c →
    ∃ t new, exec (.vredG w) s = .next t ∧ t = { s with cores := t.cores, now := t.now, nextId := t.nextId } ∧ s.goesOn t h 0 ∧
      (∀ m, m ≠ s.cur → t.core m = s.core m) ∧ (t.core s.cur).flights = c.flights ∧
      (t.core s.cur).held = c.held ++ new ∧ (∀ x ∈ new, x.rgn = c.opn.id ∧ x.cls = w.cls.toNat) ∧
      new.map (·.eff) = (if ls = [] then [] else
        [.adds (ls.map (fun l => (l.2.1, l.2.2, a.1.getD l.1 0, (md l.1).rnd))) (if w.ty = 4 then some (md 0).code else none)]) ∧
      (s.core s.cur).issuedFrame { t.core s.cur with held := c.held })

/-- R292, R293: FENCE at core scope has no effect; at a wider one, with no region closing and every earlier access of its classes performed and visible at
its scope, it completes and orders later accesses after earlier ones. FENCE.ACQ with every earlier read of its classes performed completes and, above
core scope, empties the core's L1, which then takes no line that is still on its way either. Neither changes a register or memory. -/
def Obligations.FenceWords : Prop :=
  (∀ (w : SFWord) (s : State),
    let h := hdS (.fence w) w.idle none
    let c := s.issueCore h.idle
    s.canIssue h (fun _ => []) →
    (w.scope = 0 → ∃ t, exec (.fence w) s = .next t ∧ s.Issued t h ∧ s.goesOn t h 0 ∧ (t.core s.cur).flights = c.flights) ∧
    (w.scope ≠ 0 → c.trap = none → c.closing = [] → (s.atIssue h.idle).writesPending s.cur w.cmask w.scope.toNat = false →
      (s.atIssue h.idle).readsPending s.cur w.cmask = false →
      ∃ t x, exec (.fence w) s = .next t ∧ s.goesOn t h 0 ∧
        t = { s with cores := t.cores, now := t.now, nextId := t.nextId, orders := t.orders } ∧ (∀ m, m ≠ s.cur → t.core m = s.core m) ∧
        (s.core s.cur).issuedFrame (t.core s.cur) ∧ (t.core s.cur).flights = c.flights ∧
        t.orders = s.orders ++ [x] ∧ x.core = s.cur ∧ x.fence = true ∧ x.acq = false ∧ x.mask = w.cmask ∧ x.scope = w.scope.toNat)) ∧
  (∀ (w : SFWord) (s : State),
    let h := hdS (.fenceAcq w) w.idle none
    let c := s.issueCore h.idle
    s.canIssue h (fun _ => []) → (s.atIssue h.idle).readsPending s.cur w.cmask = false →
    ∃ t x, exec (.fenceAcq w) s = .next t ∧ s.goesOn t h 0 ∧
      t = { s with cores := t.cores, now := t.now, nextId := t.nextId, orders := t.orders, reads := t.reads } ∧
      (∀ m, m ≠ s.cur → t.core m = s.core m) ∧ (t.core s.cur).flights = c.flights ∧
      t.reads = (if w.scope = 0 then s.reads else s.reads.map (fun r => if r.core = s.cur then { r with fill := 0 } else r)) ∧
      (s.core s.cur).issuedFrame { t.core s.cur with l1 := c.l1 } ∧ (t.core s.cur).l1 = (if w.scope = 0 then c.l1 else []) ∧
      t.orders = s.orders ++ [x] ∧ x.core = s.cur ∧ x.acq = true ∧ x.fence = false ∧ x.mask = w.cmask)

/-! ### Words that talk to the walker, the governor and the control die (R247, R252, R255, R256, R323, R367 to R376, R413) -/

/-- The word holds the effect `eff` in its open region, class 16, and does nothing else: no memory, no register and nothing in flight changes (R22,
R44). -/
structure Sys2Proof.Claims.HoldsOne (s t : State) (h : Head) (eff : HeldEff) : Prop where
  package : t = { s with cores := t.cores, now := t.now, nextId := t.nextId }
  others : ∀ m, m ≠ s.cur → t.core m = s.core m
  core : (s.core s.cur).issuedFrame { t.core s.cur with held := (s.core s.cur).held }
  flights : (t.core s.cur).flights = (s.core s.cur).flights
  held : ∃ x, (t.core s.cur).held = (s.core s.cur).held ++ [x] ∧ x.rgn = (s.core s.cur).opn.id ∧ x.cls = 16 ∧ x.eff = eff

/-- R247, R252, R413: LAUNCH with an unpoisoned record address that is a multiple of 256 and an unpoisoned status address that is a multiple of 8
holds the post of a launch; LAUNCH with operand a zero holds a host signal that carries b; FENCE.RC holds an invalidation of the record
cache. That a is zero is read as the operand code 48 (zero) in the field a, not as a register that happens to hold 0: the model's choice, DEDUCED from R252 and
R413 (log 16). -/
def Obligations.LaunchWords : Prop :=
  (∀ (w : SRWord) (s : State),
    let h := hdSR (.launch w) w none
    let cx := s.issueCtx h.idle
    let a := readS (s.issueCore h.idle) cx (rotS cx (w.z == 1) w.a.toNat)
    let b := readS (s.issueCore h.idle) cx (rotS cx (w.z == 1) w.b.toNat)
    s.canIssue h (fun cx => refS (rotS cx (w.z == 1) w.a.toNat) ++ refS (rotS cx (w.z == 1) w.b.toNat)) →
    a.2 = false → b.2 = false → a.1.toNat % 256 = 0 → b.1.toNat % 8 = 0 →
    ∃ t, exec (.launch w) s = .next t ∧ s.goesOn t h 0 ∧ Claims.HoldsOne s t h (.launch a.1 b.1)) ∧
  (∀ (w : SRWord) (s : State),
    let h := hdSR (.launchSignal w) w none
    let cx := s.issueCtx h.idle
    let b := readS (s.issueCore h.idle) cx (rotS cx (w.z == 1) w.b.toNat)
    s.canIssue h (fun cx => refS (rotS cx (w.z == 1) w.b.toNat)) → w.a = 48 → b.2 = false → b.1.toNat % 8 = 0 →
    ∃ t, exec (.launchSignal w) s = .next t ∧ s.goesOn t h 0 ∧ Claims.HoldsOne s t h (.signal b.1)) ∧
  (∀ (w : SRWord) (s : State),
    let h := hdSR (.fenceRc w) w none
    s.canIssue h (fun _ => []) →
    ∃ t, exec (.fenceRc w) s = .next t ∧ s.goesOn t h 0 ∧ Claims.HoldsOne s t h .fenceRc)

/-- R255, R256, R323, R395: HINT sets the step's remaining-time estimate to a, at most 2^32 − 1, from the issue cycle on. REALIGN raises
ILLEGAL_OPERAND in a step that is not static and CHAIN in a coupled quad whose other members do not issue it with one a; else it waits, with the
stream where it is, while device time is before a, raises REALIGN_LATE with TVAL = a when a has passed in a region that is not replayed and the word has
not waited, and at device time a, or later in a replayed region, takes a and the present stream cycle as the references of SLIP, SLIP being the time
that a lies back, and marks a phase boundary of its launch at a. ASK waits, as in a freeze, until the port of its bulkhead admits its request, then
empties its destination, which awaits the governor's answer; the port admits the next message 8 cycles later. -/
def Obligations.EstimatesRealignmentsAndRequests : Prop :=
  (∀ (w : SRWord) (s : State) (i : StepInfo),
    let h := hdSR (.hint w) w none
    let c := s.issueCore h.idle
    let cx := s.issueCtx h.idle
    let a := readS c cx (rotS cx (w.z == 1) w.a.toNat)
    s.canIssue h (fun cx => refS (rotS cx (w.z == 1) w.a.toNat)) → a.2 = false → (s.core s.cur).step = some i →
    ∃ t, exec (.hint w) s = .next t ∧ s.goesOn t h 0 ∧ t = { s with cores := t.cores, now := t.now } ∧
      (s.core s.cur).issuedFrame { t.core s.cur with step := some i } ∧
      (t.core s.cur).step = some { i with est := min a.1.toNat 0xFFFFFFFF, estAt := c.dt }) ∧
  (∀ (w : SRWord) (s : State) (i : StepInfo),
    let h := hdSR (.realign w) w none
    let c := s.issueCore h.idle
    let cx := s.issueCtx h.idle
    let a := readS c cx (rotS cx (w.z == 1) w.a.toNat)
    let together : Prop := i.coupled = true → ∀ m ∈ (s.atIssue h.idle).gangOf s.cur, m ≠ s.cur → (s.atIssue h.idle).realignsAt m cx.t a.1 = true
    let again : Prop := c.opn.rcnt ≠ 0 ∨ i.suppress.isSome = true ∨ c.until?.isSome = true
    s.canIssue h (fun cx => refS (rotS cx (w.z == 1) w.a.toNat)) → a.2 = false → (s.core s.cur).step = some i →
    (i.static = false → exec (.realign w) s = .next ((s.atIssue h.idle).trap s.cur 0 0x02 (c.fieldTval 0))) ∧
    (i.static = true → ¬together → exec (.realign w) s = .next ((s.atIssue h.idle).trap s.cur 0 0x12 0)) ∧
    (i.static = true → together → c.dt < a.1.toNat → exec (.realign w) s =
      .next ((s.atIssue h.idle).updCore s.cur (fun c => { c with until? := some { time := a.1.toNat, realign := true } }))) ∧
    (i.static = true → together → a.1.toNat < c.dt → ¬again → exec (.realign w) s = .next ((s.atIssue h.idle).trap s.cur 0 0x13 a.1)) ∧
    (i.static = true → together → a.1.toNat = c.dt ∨ (a.1.toNat < c.dt ∧ again) → ∃ t, exec (.realign w) s = .next t ∧ s.goesOn t h 0 ∧
      t = { s with cores := t.cores, now := t.now, launches := t.launches } ∧ (∀ m, m ≠ s.cur → t.core m = s.core m) ∧
      (s.core s.cur).issuedFrame { t.core s.cur with slip := c.slip, dtRef := c.dtRef, streamRef := c.streamRef, joint := c.joint } ∧
      (t.core s.cur).flights = c.flights ∧
      (t.core s.cur).slip = BitVec.ofNat 64 (c.dt - a.1.toNat) ∧ (t.core s.cur).dtRef = a.1.toNat ∧ (t.core s.cur).streamRef = c.clock ∧
      (∀ l ∈ s.launches, l.id ≠ i.launch → l ∈ t.launches) ∧
      (∀ l ∈ s.launches, l.id = i.launch → ∃ l' ∈ t.launches, l'.id = l.id ∧ a.1.toNat ∈ l'.marks ∧
        (a.1.toNat ∉ l.marks → ∃ b, l'.bounds = l.bounds ++ [b] ∧ b.at_ = a.1.toNat)))) ∧
  (∀ (w : SRWord) (s : State),
    let h := hdSR (.ask w) w none
    let c := s.issueCore h.idle
    let cx := s.issueCtx h.idle
    let a := readS c cx (rotS cx (w.z == 1) w.a.toNat)
    let b := readS c cx (rotS cx (w.z == 1) w.b.toNat)
    let d := rotS cx (w.z == 1) w.d.toNat
    s.canIssue h (fun cx => (if w.d = 48 then [] else refS (rotS cx (w.z == 1) w.d.toNat)) ++ refS (rotS cx (w.z == 1) w.a.toNat) ++
      refS (rotS cx (w.z == 1) w.b.toNat)) → a.2 = false → b.2 = false →
    (c.dt < s.portAt s.cur → c.trap = none → c.coupled = false → ∃ t, exec (.ask w) s = .next t ∧
      t = { s with cores := t.cores, now := t.now } ∧ (∀ m, m ≠ s.cur → t.core m = s.core m) ∧
      t.core s.cur = { c with dt := c.dt + 1, slip := c.slip + 1 }) ∧
    (s.portAt s.cur ≤ c.dt → ∃ t x, exec (.ask w) s = .next t ∧ s.goesOn t h 0 ∧
      t = { s with cores := t.cores, now := t.now, nextId := t.nextId, ports := t.ports } ∧ (∀ m, m ≠ s.cur → t.core m = s.core m) ∧
      t.portAt s.cur = c.dt + 8 ∧
      (t.core s.cur).awaits = c.awaits ++ [x] ∧ x.kind = .ask d a.1.toNat b.1.toNat c.dt ∧ x.rgn = c.opn.id ∧ x.ready = none ∧
      (∀ hd : d < 32, (t.core s.cur).arch.s[d] = { c.arch.s[d] with pend := some x.id }) ∧
      (∀ r (hr : r < 32), r ≠ d → (t.core s.cur).arch.s[r] = c.arch.s[r]) ∧ (t.core s.cur).flights = c.flights ∧
      (s.core s.cur).issuedFrame { t.core s.cur with awaits := c.awaits, arch := { (t.core s.cur).arch with s := c.arch.s } }))

/-- The word at the head of the stream has asked the control die for a check, over the port of its bulkhead, and waits for the answer; nothing else has
changed (R373, R395). -/
def Sys2Proof.Claims.AsksCheck (s t : State) (h : Head) : Prop :=
  t = { s with cores := t.cores, now := t.now, free := s.free + 1, ports := t.ports } ∧ (∀ m, m ≠ s.cur → t.core m = s.core m) ∧
  t.portAt s.cur = (s.issueCore h.idle).dt + 8 ∧
  ∃ u : Until, t.core s.cur = { s.issueCore h.idle with until? := some u } ∧ u.check = true ∧ u.past = false ∧ u.realign = false ∧
    (s.issueCore h.idle).dt + 60 ≤ u.time

/-- `t` is what the control die's reads of the object at `a` leave of the state `s`, in which the word `h` issues, and besides it only the word's own
effects: the held effect `eff`, the place of the stream, and the lineages (R272, R373). -/
structure Sys2Proof.Claims.Checked (s t : State) (h : Head) (i : StepInfo) (a : Nat) (eff : HeldEff) : Prop where
  mem : t.mem = ((s.atIssue h.idle).readLeaves ((s.atIssue h.idle).payer s.cur) i.part 0 a ((s.atIssue h.idle).objSize i.part a)).mem
  others : ∀ m, m ≠ s.cur → t.core m = s.core m
  core : (s.core s.cur).issuedFrame { t.core s.cur with step := (s.core s.cur).step, held := (s.core s.cur).held }
  flights : (t.core s.cur).flights = (s.core s.cur).flights
  device : (t.core s.cur).dt = (s.issueCore h.idle).dt
  held : ∃ x, (t.core s.cur).held = (s.core s.cur).held ++ [x] ∧ x.rgn = (s.core s.cur).opn.id ∧ x.cls = 16 ∧ x.eff = eff

/-- R367, R373 to R376, R395: SUSPEND with unpoisoned operands, an address that is a multiple of 4,096 and translates for a write, and legal options asks for
the suspension of its group 64 cycles later, once the port of its bulkhead admits the request, until when it freezes, and asks for nothing where one is already
under way that comes no later; it changes no memory and no register.
RESUME, FORK and DISCARD in suppress mode hold their effect without a check. Outside it they first ask the control die, once the port of their
bulkhead admits the request, and wait, with the stream where it is, for an answer that comes 60 cycles later at least (DESIGN CHOICE: log 5, when; the 60
cycles are DEDUCED from R381: log 31; that these requests go through the port, which R395 does not list, is DEDUCED: log 47);
once it is there, a word whose object passes the check holds its effect, RESUME and DISCARD reserve the object's generation, and FORK of an object
captured inside a region raises FORK_UNSAFE with the object's address in TVAL. -/
def Obligations.ContinuationWords : Prop :=
  (∀ (w : SRWord) (s : State) (pas : List Nat),
    let h := hdSR (.suspend w) w none
    let c := s.issueCore h.idle
    let cx := s.issueCtx h.idle
    let a := readS c cx (rotS cx (w.z == 1) w.a.toNat)
    let b := readS c cx (rotS cx (w.z == 1) w.b.toNat)
    s.canIssue h (fun cx => refS (rotS cx (w.z == 1) w.a.toNat) ++ refS (rotS cx (w.z == 1) w.b.toNat)) → a.2 = false → b.2 = false →
    a.1.toNat % 4096 = 0 → b.1.toNat < 2 ^ 32 → b.1.toNat % 2 ^ 15 + b.1.toNat / 2 ^ 15 % 2 ^ 16 ≤ 32768 →
    (s.atIssue h.idle).translateAll s.cur [(a.1.toNat, 1)] = .inr pas →
    (c.dt < s.portAt s.cur → c.trap = none → c.coupled = false → ∃ t, exec (.suspend w) s = .next t ∧
      t = { s with cores := t.cores, now := t.now } ∧ (∀ m, m ≠ s.cur → t.core m = s.core m) ∧
      t.core s.cur = { c with dt := c.dt + 1, slip := c.slip + 1 }) ∧
    (s.portAt s.cur ≤ c.dt → (∃ g ∈ s.groups, g.phase = 0 ∧ s.cur ∈ g.cores ∧ g.f ≤ c.dt + 64) →
      ∃ t, exec (.suspend w) s = .next t ∧ s.goesOn t h 0 ∧ t = { s with cores := t.cores, now := t.now, ports := t.ports } ∧
        t.portAt s.cur = c.dt + 8 ∧ (∀ m, m ≠ s.cur → t.core m = s.core m) ∧ (s.core s.cur).issuedFrame (t.core s.cur) ∧
        (t.core s.cur).flights = c.flights) ∧
    (s.portAt s.cur ≤ c.dt → (∀ g ∈ s.groups, g.phase = 0 → s.cur ∈ g.cores → c.dt + 64 < g.f) →
      ∃ t g, exec (.suspend w) s = .next t ∧ s.goesOn t h 0 ∧
        t = { s with cores := t.cores, now := t.now, nextId := t.nextId, groups := t.groups, ports := t.ports } ∧ t.portAt s.cur = c.dt + 8 ∧
        (∀ m, m ≠ s.cur → t.core m = s.core m) ∧ (s.core s.cur).issuedFrame (t.core s.cur) ∧ (t.core s.cur).flights = c.flights ∧
        t.groups = s.groups.filter (fun g => !(g.phase = 0 && g.cores.contains s.cur)) ++ [g] ∧
        g.phase = 0 ∧ s.cur ∈ g.cores ∧ g.f = c.dt + 64 ∧ g.addr = a.1.toNat ∧ g.opts = b.1)) ∧
  (∀ (w : SRWord) (s : State) (i : StepInfo),
    let h := hdSR (.resume w) w none
    let c := s.issueCore h.idle
    let cx := s.issueCtx h.idle
    let a := readS c cx (rotS cx (w.z == 1) w.a.toNat)
    let b := readS c cx (rotS cx (w.z == 1) w.b.toNat)
    s.canIssue h (fun cx => refS (rotS cx (w.z == 1) w.a.toNat) ++ refS (rotS cx (w.z == 1) w.b.toNat)) → a.2 = false → b.2 = false →
    a.1.toNat % 4096 = 0 → b.1.toNat % 8 = 0 → (s.core s.cur).step = some i →
    (i.suppress.isSome = true → ∃ t, exec (.resume w) s = .next t ∧ s.goesOn t h 0 ∧ Claims.HoldsOne s t h (.resume a.1 b.1 0)) ∧
    (i.suppress = none → ∀ pas, (s.atIssue h.idle).translateAll s.cur [(a.1.toNat, 0)] = .inr pas →
      (c.answered = false → s.portAt s.cur ≤ c.dt → ∃ t, exec (.resume w) s = .next t ∧ Claims.AsksCheck s t h) ∧
      (∀ tag o, c.answered = true → (s.atIssue h.idle).checkObj i.part i.dtab.mapid a.1.toNat = .pass tag o →
        ∃ t, exec (.resume w) s = .next t ∧ s.goesOn t h 0 ∧ Claims.Checked s t h i a.1.toNat (.resume a.1 b.1 tag) ∧
          t.lineages = s.lineages.map (fun l => if l.id = o.lineage then { l with reserved := true } else l)))) ∧
  (∀ (w : SRWord) (s : State) (i : StepInfo),
    let h := hdSR (.fork w) w none
    let c := s.issueCore h.idle
    let cx := s.issueCtx h.idle
    let a := readS c cx (rotS cx (w.z == 1) w.a.toNat)
    let b := readS c cx (rotS cx (w.z == 1) w.b.toNat)
    s.canIssue h (fun cx => refS (rotS cx (w.z == 1) w.a.toNat) ++ refS (rotS cx (w.z == 1) w.b.toNat)) → a.2 = false → b.2 = false →
    a.1.toNat % 4096 = 0 → b.1.toNat % 4096 = 0 → (s.core s.cur).step = some i →
    (i.suppress.isSome = true → ∃ t, exec (.fork w) s = .next t ∧ s.goesOn t h 0 ∧ Claims.HoldsOne s t h (.fork a.1 b.1 0)) ∧
    (i.suppress = none → ∀ pas, (s.atIssue h.idle).translateAll s.cur [(a.1.toNat, 0), (b.1.toNat, 1)] = .inr pas →
      (c.answered = false → s.portAt s.cur ≤ c.dt → ∃ t, exec (.fork w) s = .next t ∧ Claims.AsksCheck s t h) ∧
      (∀ tag o, c.answered = true → (s.atIssue h.idle).checkObj i.part i.dtab.mapid a.1.toNat = .pass tag o →
        (o.midRegion = true → exec (.fork w) s = .next (((s.atIssue h.idle).readLeaves ((s.atIssue h.idle).payer s.cur) i.part 0 a.1.toNat
          ((s.atIssue h.idle).objSize i.part a.1.toNat)).trap s.cur 0 0x11 a.1)) ∧
        (o.midRegion = false → ∃ t, exec (.fork w) s = .next t ∧ s.goesOn t h 0 ∧ Claims.Checked s t h i a.1.toNat (.fork a.1 b.1 tag) ∧
          t.lineages = s.lineages)))) ∧
  (∀ (w : SRWord) (s : State) (i : StepInfo),
    let h := hdSR (.discard w) w none
    let c := s.issueCore h.idle
    let cx := s.issueCtx h.idle
    let a := readS c cx (rotS cx (w.z == 1) w.a.toNat)
    s.canIssue h (fun cx => refS (rotS cx (w.z == 1) w.a.toNat)) → a.2 = false →
    a.1.toNat % 4096 = 0 → (s.core s.cur).step = some i →
    (i.suppress.isSome = true → ∃ t, exec (.discard w) s = .next t ∧ s.goesOn t h 0 ∧ Claims.HoldsOne s t h (.discard a.1 0)) ∧
    (i.suppress = none → ∀ pas, (s.atIssue h.idle).translateAll s.cur [(a.1.toNat, 0)] = .inr pas →
      (c.answered = false → s.portAt s.cur ≤ c.dt → ∃ t, exec (.discard w) s = .next t ∧ Claims.AsksCheck s t h) ∧
      (∀ tag o, c.answered = true → (s.atIssue h.idle).checkObj i.part i.dtab.mapid a.1.toNat = .pass tag o →
        ∃ t, exec (.discard w) s = .next t ∧ s.goesOn t h 0 ∧ Claims.Checked s t h i a.1.toNat (.discard a.1 tag) ∧
          t.lineages = s.lineages.map (fun l => if l.id = o.lineage then { l with reserved := true } else l))))

/-! ### Traps (R356 to R363) -/

/-- R356, R357, R362: TRAP outside trap mode, with a handler and a save area that may be written, takes the trap TRAP with TVAL = imm: TCAUSE, TVAL and
TPC are set, the loop buffer is empty, the operations of the scalar and vector engines that have an event after the trap's cycle leave the flight,
the handler's first word counts from 64 + 8 n cycles after the trap, n being the number of records, and the save area holds the header, the scalar
registers and the result queue; outside the area the scratchpad, and all of global memory, stay as they are. -/
def Obligations.TrapWord : Prop :=
  ∀ (w : SLWord) (s : State) (i : StepInfo),
    let h := hdS (.trap w) w.idle none
    let c := s.issueCore h.idle
    let a := c.arch.csr.tsave.toNat
    let recs := (c.flights.filter (fun f => decide (f.kind < 4) && f.evs.any (fun e => decide (c.stream < e.1)))).take 64
    s.canIssue h (fun _ => []) → c.trap = none → c.step = some i → c.arch.csr.tvec ≠ 0 →
    a % 64 = 0 → a + 0x13600 ≤ 0x200000 → (∀ r ∈ s.protRanges s.cur, r.2 = 0 ∨ r.1 + r.2 ≤ a ∨ a + 0x13600 ≤ r.1) →
    (∀ g, a / 64 ≤ g → g < a / 64 + 0x4D8 → g ∈ c.opn.rset → g ∈ c.opn.wset) →
    ∃ t, exec (.trap w) s = .next t ∧
      let d := t.core s.cur
      let at_ (o : Nat) : Nat := Memory.val d.spad (a + o) 8
      t = { s with cores := t.cores, now := t.now } ∧ (∀ m, m ≠ s.cur → t.core m = s.core m) ∧
      d.hand = true ∧ d.pc = c.arch.csr.tvec.toNat ∧ d.base = c.dt + 64 + 8 * recs.length ∧ d.dt = c.dt ∧ d.stream = c.stream ∧
      d.tcause = 0x17 ∧ d.tval.toNat = w.imm.toNat ∧ d.arch.csr = { c.arch.csr with tpc := BitVec.ofNat 64 c.pc } ∧
      d.arch.s = c.arch.s ∧ d.arch.v = c.arch.v ∧ d.arch.q = c.arch.q ∧ d.arch.loop = {} ∧ d.held = c.held ∧ d.opn.id = c.opn.id ∧
      (∀ f ∈ recs, ∀ x ∈ d.flights, x.id ≠ f.id) ∧
      (∀ g, a / 64 ≤ g → g < a / 64 + 0x4D8 → g ∈ d.opn.wset) ∧
      at_ 0 = 1 + 2 ^ 16 * recs.length + 2 ^ 24 * 0x17 ∧ at_ 8 = w.imm.toNat ∧ at_ 0x10 = c.pc % 2 ^ 64 ∧ at_ 0x18 = c.dt % 2 ^ 64 ∧
      at_ 0x20 = c.stream % 2 ^ 64 ∧
      (∀ k : Fin 32, at_ (0x40 + 8 * k) = c.arch.s[k].val.toNat) ∧ (∀ k : Fin 16, at_ (0x140 + 8 * k) = c.arch.q[k].val.toNat) ∧
      (∀ x, x < a ∨ a + 0x13600 ≤ x → Memory.get d.spad x = Memory.get c.spad x)

/-- R356, R359: a trap ends the step with class PROGRAM_FAULT and its cause when TVEC is 0, when the save area is not a multiple of 64, leaves the
scratchpad or meets the code region, and when the core is in trap mode already; shown on TRAP. -/
def Obligations.TrapEndsStep : Prop :=
  ∀ (w : SLWord) (s : State) (i : StepInfo),
    let h := hdS (.trap w) w.idle none
    let c := s.issueCore h.idle
    let a := c.arch.csr.tsave.toNat
    s.canIssue h (fun _ => []) → c.step = some i →
    (c.trap.isSome = true ∨ c.arch.csr.tvec = 0 ∨ a % 64 ≠ 0 ∨ 0x200000 < a + 0x13600 ∨
      (i.codelen ≠ 0 ∧ a < i.codebase + i.codelen ∧ i.codebase < a + 0x13600)) →
    ∃ t, exec (.trap w) s = .next t ∧ t.mem = s.mem ∧ (t.core s.cur).step = none ∧ (t.core s.cur).flights = [] ∧
      (t.core s.cur).held = [] ∧ (t.core s.cur).spad = c.spad ∧
      (i.forked = false → i.report.cls = 0 → (∀ x ∈ s.cores, x.1 ≠ s.cur → ∀ j, x.2.step = some j → j.launch ≠ i.launch) →
        ∀ l ∈ s.launches, l.id = i.launch → l.report.cls = 0 →
        ∃ l' ∈ t.launches, l'.id = l.id ∧ l'.report.cls = 0x10 ∧ l'.report.cause = 0x17 ∧ l'.report.addr = c.pc)

/-- R363: RETT in trap mode, once every operation and arrival of the handler has come, with no error found and with a save area that passes the checks
and holds no errors, leaves trap mode: the registers, queues, poison and full bits, masks and loop state are those of the area, the word at TPC issues
at the stream cycle of the trap, 64 + 8 n + K device cycles later, K being the largest age among the operations that are issued again, those cycles
count as slip, and the operations of a closing region are in flight again from the capture latches. -/
def Obligations.ReturnFromTrap : Prop :=
  ∀ (w : SRWord) (s : State) (i : StepInfo) (k : TrapCtx),
    let h := hdS (.rett w) w.idle none
    let c := s.issueCore h.idle
    let v (o n : Nat) : Nat := Memory.val c.spad (k.area + o) n
    let m := v 0 8 / 2 ^ 16 % 2 ^ 8
    let tpc := c.arch.csr.tpc.toNat
    let rec_ (j : Nat) : Record := recordFrom v (0x3600 + 1024 * j)
    let live := ((List.range m).map rec_).filter (fun r => r.valid && !r.closing && decide (r.kind < 4))
    let shut := k.latches.filter (fun f => f.rgn != c.opn.id)
    let big := (shut.map (fun f => k.f - f.issue) ++ live.map (fun r => r.age)).foldl max 0
    s.canIssue h (fun _ => []) → c.step = some i → i.coupled = false → c.trap = some k → c.ue = [] → c.ce = [] →
    c.doom = none → (∀ f ∈ c.flights, f.hand = false) → c.handlerBusy k = false →
    v 0 8 % 2 ^ 16 = 1 → m ≤ 64 → (∀ j, j < m → (rec_ j).bad i.dtab = false) → tpc % 4 = 0 → i.codebase ≤ tpc → tpc < i.codebase + i.codelen →
    v 0x35A0 8 / 2 ^ 15 % 2 = 0 →
    ∃ t, exec (.rett w) s = .next t ∧ t.mem = s.mem ∧
      let d := t.core s.cur
      d.trap = none ∧ d.pc = tpc ∧ d.base = k.f ∧ d.exact_ = true ∧ d.dt = c.dt + 64 + 8 * m + big ∧
      d.slip = c.slip + BitVec.ofNat 64 (c.dt + 64 + 8 * m + big - k.u) ∧ d.spad = c.spad ∧ d.held = c.held ∧
      (∀ x : Fin 32, d.arch.s[x].val.toNat = v (0x40 + 8 * x) 8 ∧ d.arch.s[x].psn = (v 0x1C0 8).testBit x ∧
        d.arch.s[x].pend.isNone = (v 0x1C8 8).testBit x) ∧
      (∀ x : Fin 16, d.arch.q[x].val.toNat = v (0x140 + 8 * x) 8 ∧ d.arch.q[x].psn = (v 0x1C0 8).testBit (32 + x) ∧
        d.arch.q[x].void = (v 0x1C0 8).testBit (48 + x)) ∧
      (∀ x : Fin 32, (∀ l : Fin 64, d.arch.v[x].lanes[l].toNat = v (0x200 + 256 * x + 4 * l) 4) ∧
        d.arch.v[x].psn.toNat = v (0x3200 + 8 * x) 8 ∧ d.arch.v[x].pend.isNone = (v 0x3380 8).testBit x) ∧
      (∀ x : Fin 8, x ≠ 0 → d.arch.k[x].bits.toNat = v (0x3400 + 8 * (x - 1)) 8 ∧ d.arch.k[x].psn.toNat = v (0x3440 + 8 * (x - 1)) 8) ∧
      d.arch.loop.active = false ∧ d.arch.tile = c.arch.tile ∧ d.arch.pipes = c.arch.pipes ∧
      (∀ f ∈ shut, (∃ e ∈ f.evs, k.f < e.1) → { f with evs := f.evs.filter (fun e => decide (k.f < e.1)) } ∈ d.flights) ∧
      (∀ f ∈ c.flights, f ∈ d.flights)

/-! ### Pipes and copies (R301 to R320) -/

/-- What a record word changes of its core besides the frame of every word: the pipe part of the state, held effects and the grants in use. -/
def Sys2Proof.Claims.pipeFrame (c d : Core) (pipes : Vector PipeCnt 8) : Prop :=
  c.issuedFrame { d with held := c.held, heavy := c.heavy, arch := { d.arch with pipes := c.arch.pipes } } ∧ d.arch.pipes = pipes

/-- R315 to R319: PRECV of a pipe with a record at its head lands, after 2 cycles, that record's payload length, type and payload address, the head moved
past a SKIP; without a record it freezes the core. PRELEASE moves the head past the record and holds the new head. PSEND of an own, aligned, full
payload that the ring and the commit buffer have room for holds its record, with a SKIP before it where it would cross the end of the ring, and moves
the tail and the serial number. A pipe not declared for the core raises PIPE with reason 0. That the body of a SKIP is zero is the model's choice, DEDUCED from
R313 and R318, which speak of the padding after a record (log 18). -/
def Obligations.PipeWords : Prop :=
  (∀ (w : SIWord) (s : State) (d : PipeDecl),
    let h := hdS (.precv w) w.idle (some 2)
    let c := s.issueCore h.idle
    let p := w.imm.toNat % 8
    let tail := c.tv.toList.getD p 0
    let h0 := (c.arch.pipe p).head
    let v0 := Memory.val c.spad (4096 * d.rbase + h0 % d.ring) 8
    let hd := if v0 / 2 ^ 24 % 16 = 0 then (h0 + v0 % 2 ^ 24) % (2 * d.ring) else h0
    let a := 4096 * d.rbase + hd % d.ring
    let v := Memory.val c.spad a 8
    s.canIssue h (fun _ => refS w.d.toNat) →
    (c.pipeFor p false = none → exec (.precv w) s = .next ((s.atIssue h.idle).trap s.cur 0 0x14 (BitVec.ofNat 64 p))) ∧
    (c.pipeFor p false = some d → h0 = tail →
      exec (.precv w) s = .next ((((s.atIssue h.idle).freezeAll s.cur 1).updCore s.cur
        (fun c => if c.hand then { c with floor := c.dt } else c)))) ∧
    (c.pipeFor p false = some d → h0 ≠ tail → hd ≠ tail → 8 ≤ v % 2 ^ 24 → c.ue = [] → c.ce = [] →
      ∃ t, exec (.precv w) s = .next t ∧ s.Issued t h ∧ s.goesOn t h 0 ∧
        s.puts t h [(2, .sland w.d.toNat (BitVec.ofNat 64 ((v % 2 ^ 24 - 8) * 2 ^ 32 + v / 2 ^ 24 % 16 * 2 ^ 24 + a + 8)) false)])) ∧
  (∀ (w : SIWord) (s : State) (d : PipeDecl),
    let h := hdS (.prelease w) w.idle none
    let c := s.issueCore h.idle
    let p := w.imm.toNat % 8
    let tail := c.tv.toList.getD p 0
    let x := c.arch.pipe p
    let v0 := Memory.val c.spad (4096 * d.rbase + x.head % d.ring) 8
    let hd := if v0 / 2 ^ 24 % 16 = 0 then (x.head + v0 % 2 ^ 24) % (2 * d.ring) else x.head
    let len := Memory.val c.spad (4096 * d.rbase + hd % d.ring) 8 % 2 ^ 24
    let new := (hd + (len + 63) / 64 * 64) % (2 * d.ring)
    s.canIssue h (fun _ => []) →
    (c.pipeFor p false = none → exec (.prelease w) s = .next ((s.atIssue h.idle).trap s.cur 0 0x14 (BitVec.ofNat 64 p))) ∧
    (c.pipeFor p false = some d → x.head = tail →
      exec (.prelease w) s = .next ((s.atIssue h.idle).trap s.cur 0 0x14 (BitVec.ofNat 64 (32 + p)))) ∧
    (c.pipeFor p false = some d → x.head ≠ tail →
      ∃ t y, exec (.prelease w) s = .next t ∧ s.goesOn t h 0 ∧ t = { s with cores := t.cores, now := t.now, nextId := t.nextId } ∧
        (∀ m, m ≠ s.cur → t.core m = s.core m) ∧ (t.core s.cur).flights = c.flights ∧
        Claims.pipeFrame (s.core s.cur) (t.core s.cur) (c.arch.setPipe p { x with head := new }).pipes ∧
        (t.core s.cur).held = c.held ++ [y] ∧ y.rgn = c.opn.id ∧ y.eff = .pipeHead p new)) ∧
  (∀ (w : CWord) (s : State) (d : PipeDecl),
    let h := mkHead (.psend w) w.idle (w.rot != 0) w.stage none
    let c := s.issueCore h.idle
    let cx := s.issueCtx h.idle
    let kf := rotS cx (w.rot.getLsbD 2) w.src.toNat
    let ks := rotS cx (w.rot.getLsbD 1) w.shape.toNat
    let p := w.aux.toNat
    let a := (readS c cx kf).1.toNat
    let len := (readS c cx ks).1.toNat
    let z := d.ring
    let x := c.arch.pipe p
    let m := (8 + len + 63) / 64 * 64
    let at_ := x.tail % z
    let skip := if z < at_ + m then z - at_ else 0
    let occ := (x.tail + 2 * z - c.hv.toList.getD p 0 % (2 * z)) % (2 * z)
    let off := a % 2 ^ 21
    let new := (x.tail + (m + skip)) % (2 * z)
    let body := leBytes 8 (x.serial.toNat * 2 ^ 32 + w.rtype.toNat * 2 ^ 24 + (8 + len)) ++ Memory.read c.spad off len ++
      List.replicate (m - 8 - len) (0 : Byte)
    s.canIssue h (fun cx => refS (rotS cx (w.rot.getLsbD 2) w.src.toNat) ++ refS (rotS cx (w.rot.getLsbD 1) w.shape.toNat)) →
    (c.pipeFor p true = none → exec (.psend w) s = .next ((s.atIssue h.idle).trap s.cur 3 0x14 (BitVec.ofNat 64 p))) ∧
    (c.pipeFor p true = some d → (readS c cx kf).2 = false → (readS c cx ks).2 = false → a % 8 = 0 → len % 8 = 0 →
      (len < 65536 ∨ c.covered c.dt ((len + 65535) / 65536) ((len + 63) / 64) = true) →
      a / 2 ^ 21 % 4 = s.cur % 4 → off + len ≤ 2 ^ 21 →
      (64 * d.worst < occ + (m + skip) → exec (.psend w) s = .next ((s.atIssue h.idle).trap s.cur 3 0x14 (BitVec.ofNat 64 (16 + p)))) ∧
      (occ + (m + skip) ≤ 64 * d.worst → c.slotsUsed + (m + skip) / 64 ≤ 1024 → Claims.full c off len → c.ue = [] → c.ce = [] →
        Claims.bufferClean c →
        ∃ t l, exec (.psend w) s = .next t ∧ s.goesOn t h 0 ∧ t = { s with cores := t.cores, now := t.now, nextId := t.nextId } ∧
          (∀ m, m ≠ s.cur → t.core m = s.core m) ∧ (t.core s.cur).flights = c.flights ∧
          (∀ g ∈ granRange off len, g ∈ (t.core s.cur).opn.rset) ∧
          Claims.pipeFrame (s.core s.cur) (t.core s.cur) (c.arch.setPipe p { x with tail := new, serial := x.serial + 1 }).pipes ∧
          (t.core s.cur).held = c.held ++ l ∧
          (skip = 0 → l.map (·.eff) = [.pipeRec p at_ body new]) ∧
          (skip ≠ 0 → l.map (·.eff) =
            [.pipeRec p at_ (leBytes 8 (x.serial.toNat * 2 ^ 32 + skip) ++ List.replicate (skip - 8) (0 : Byte)) x.tail,
             .pipeRec p 0 body new]))))

/-- What the copy words see: the rows of either side, and the bytes they name in order (R302). -/
structure Sys2Proof.Claims.CopyView where
  rows : Nat
  len : Nat
  to_ : List (Nat × Nat)
  from_ : List (Nat × Nat)

/-- See `CopyView`. -/
def Sys2Proof.Claims.copyView (x : Bool) (a : CopyArgs) : Claims.CopyView :=
  let sh := copyShape x a.shape.toNat
  let side (base stride : Nat) : List (Nat × Nat) := (List.range sh.1).map (fun r => ((base + r * stride) % 2 ^ 23, sh.2.1))
  ⟨sh.1, sh.2.1, side a.dst.toNat sh.2.2.2, side a.src.toNat sh.2.2.1⟩

/-- The conditions of R304 and R305 under which a copy of kind 0 to 2 between two different places runs at once: operands unpoisoned and aligned, rows
inside their members, the destination unprotected, leave granted for 64 KiB and more, every granule full, the destination idempotent and not
held back, the local port free. -/
structure Sys2Proof.Claims.LocalCopyRuns (s : State) (h : Head) (w : CWord) (x : Bool) (src dst : Nat) : Prop where
  unpoisoned : ∀ k ∈ [(copyArgs (s.issueCore h.idle) (s.issueCtx h.idle) w).kto, (copyArgs (s.issueCore h.idle) (s.issueCtx h.idle) w).kfrom,
    (copyArgs (s.issueCore h.idle) (s.issueCtx h.idle) w).kshape], (readS (s.issueCore h.idle) (s.issueCtx h.idle) k).2 = false
  aligned : (copyArgs (s.issueCore h.idle) (s.issueCtx h.idle) w).dst.toNat % 8 = 0 ∧
    (copyArgs (s.issueCore h.idle) (s.issueCtx h.idle) w).src.toNat % 8 = 0 ∧
    (x = false → (copyArgs (s.issueCore h.idle) (s.issueCtx h.idle) w).shape.toNat % 8 = 0 ∧
      (copyArgs (s.issueCore h.idle) (s.issueCtx h.idle) w).shape.toNat ≤ 2 ^ 21)
  inside : (∀ r ∈ (Claims.copyView x (copyArgs (s.issueCore h.idle) (s.issueCtx h.idle) w)).to_,
      r.1 / 2 ^ 21 = dst % 4 ∧ r.1 % 2 ^ 21 + r.2 ≤ 2 ^ 21) ∧
    (∀ r ∈ (Claims.copyView x (copyArgs (s.issueCore h.idle) (s.issueCtx h.idle) w)).from_,
      r.1 / 2 ^ 21 = src % 4 ∧ r.1 % 2 ^ 21 + r.2 ≤ 2 ^ 21)
  open_ : protTrap (s.atIssue h.idle) dst (localRows (Claims.copyView x (copyArgs (s.issueCore h.idle) (s.issueCtx h.idle) w)).to_) = none
  leave : ∀ n, n = (Claims.copyView x (copyArgs (s.issueCore h.idle) (s.issueCtx h.idle) w)).rows *
    (Claims.copyView x (copyArgs (s.issueCore h.idle) (s.issueCtx h.idle) w)).len →
    n < 65536 ∨ (s.issueCore h.idle).covered (s.issueCore h.idle).dt ((n + 65535) / 65536) ((n + 63) / 64) = true
  full : emptyCheck (s.atIssue h.idle) src
      (granSegs (localRows (Claims.copyView x (copyArgs (s.issueCore h.idle) (s.issueCtx h.idle) w)).from_)) = none ∧
    emptyCheck (s.atIssue h.idle) dst (granSegs (localRows (Claims.copyView x (copyArgs (s.issueCore h.idle) (s.issueCtx h.idle) w)).to_)) = none
  idempotent : copyIdem ((s.atIssue h.idle).core dst) (if w.kind = 0 then
      granSegs (localRows (Claims.copyView x (copyArgs (s.issueCore h.idle) (s.issueCtx h.idle) w)).from_) else [])
    (localRows (Claims.copyView x (copyArgs (s.issueCore h.idle) (s.issueCtx h.idle) w)).to_) = none
  free : ((s.atIssue h.idle).core dst).heldBack
    (granSegs (localRows (Claims.copyView x (copyArgs (s.issueCore h.idle) (s.issueCtx h.idle) w)).to_)) = false
  port : portPre w (s.issueCtx h.idle) (s.atIssue h.idle) = none
  clean : ((s.atIssue h.idle).core src).ue = [] ∧ ((s.atIssue h.idle).core src).ce = []

/-- R301, R302, R304, R305: CPY and CPYX of kind 0 (own to own), 1 (own to a neighbour) and 2 (neighbour to own) that meet `Claims.LocalCopyRuns`
complete: chunk g of 64 bytes, as the source holds them in the issue cycle, is written 7 + g cycles later, 11 + g for a neighbour; the destination's W
and the source's R are set; no register and no memory changes at once. A copy of no bytes does nothing. -/
def Obligations.LocalCopies : Prop :=
  ∀ (w : CWord) (s : State) (i : Instr) (x : Bool), (i = .cpy w ∧ x = false) ∨ (i = .cpyx w ∧ x = true) → w.kind.toNat ≤ 2 →
    let h := { mkHead i w.idle (w.rot != 0) w.stage none with banned := true }
    let c := s.issueCore h.idle
    let a := copyArgs c (s.issueCtx h.idle) w
    let v := Claims.copyView x a
    let dst := if w.kind = 1 then s.cur / 4 * 4 + a.dst.toNat / 2 ^ 21 % 4 else s.cur
    let src := if w.kind = 2 then s.cur / 4 * 4 + a.src.toNat / 2 ^ 21 % 4 else s.cur
    let bytes : List (Nat × Byte × Byte) := ((byteAddrs (localRows v.to_)).zip (byteAddrs (localRows v.from_))).map
      (fun p => (p.1, Memory.get ((s.atIssue h.idle).core src).spad p.2, 0xFF))
    let chunk (g : Nat) : List (Nat × Byte × Byte) := (bytes.drop (64 * g)).take 64
    s.canIssue h (fun cx => refS (rotS cx (w.rot.getLsbD 3) w.dst.toNat) ++ refS (rotS cx (w.rot.getLsbD 2) w.src.toNat) ++
      refS (rotS cx (w.rot.getLsbD 1) w.shape.toNat)) →
    (w.kind ≠ 0 → c.coupled = true ∧ dst ≠ src) → Claims.LocalCopyRuns s h w x src dst →
    (v.rows * v.len = 0 → ∃ t, exec i s = .next t ∧ s.Issued t h ∧ s.goesOn t h 0 ∧ (t.core s.cur).flights = c.flights) ∧
    (v.rows * v.len ≠ 0 → ∃ t, exec i s = .next t ∧ s.goesOn t h 0 ∧
      t = { s with cores := t.cores, now := t.now, nextId := t.nextId } ∧
      (∀ m, m ≠ s.cur → t.core m =
        { s.core m with opn := { (s.core m).opn with rset := (t.core m).opn.rset, wset := (t.core m).opn.wset } }) ∧
      (s.core s.cur).issuedFrame { t.core s.cur with port := c.port, heavy := c.heavy } ∧
      (∀ g ∈ granSegs (localRows v.to_), g ∈ (t.core dst).opn.wset) ∧ (∀ g ∈ granSegs (localRows v.from_), g ∈ (t.core src).opn.rset) ∧
      s.puts t h ((List.range ((v.rows * v.len + 63) / 64)).map (fun g =>
        (if w.kind = 0 then (7 + g, Eff.spw (chunk g)) else
          (11 + g, if w.kind = 1 then Eff.rspw (a.dst.toNat / 2 ^ 21 % 4) (chunk g) else Eff.spw (chunk g))))))

/-- R301, R304, R306 to R309: CPY and CPYX of kind 3 (global to own scratchpad) and 4 (own scratchpad to global) whose operands are unpoisoned and
aligned, whose rows lie in the own member, which leave covers, whose first byte translates and which find a free slot complete: the slot with the
lowest number takes the copy or, for a kind 4 copy that needs one 4 KiB block only, is free again at once; a promise of at least 64 cycles and one
more for each 64 bytes is pushed after 2 cycles. Kind 3 leaves every destination granule empty and reads the bytes of its first 4 KiB block, each from
the core's held writes or its home; kind 4 holds one write for each 64-byte line of its first block, behind what its core has held before: under its
mask the bytes that the copy brings to the line, as the own scratchpad holds them, of two for one address the later. No memory changes. A copy of no
bytes only pushes the issue time. -/
def Obligations.GlobalCopies : Prop :=
  ∀ (w : CWord) (s : State) (i : Instr) (x : Bool) (k pa : Nat), (i = .cpy w ∧ x = false) ∨ (i = .cpyx w ∧ x = true) →
    w.kind = 3 ∨ w.kind = 4 →
    let h := mkHead i w.idle (w.rot != 0) w.stage (some (false, 2))
    let c := s.issueCore h.idle
    let a := copyArgs c (s.issueCtx h.idle) w
    let sh := copyShape x a.shape.toNat
    let v := Claims.copyView x a
    let n := v.rows * v.len
    let loc := if w.kind = 3 then v.to_ else v.from_
    let far (r : Nat) : Nat := if w.kind = 3 then (a.src.toNat + r * sh.2.2.1) % 2 ^ 64 else (a.dst.toNat + r * sh.2.2.2) % 2 ^ 64
    let lines := saddAll [] ((List.range v.rows).flatMap (fun r => (List.range v.len).map (fun j => (far r + j) / 64)))
    s.canIssue h (fun cx => refS (rotS cx (w.rot.getLsbD 3) w.dst.toNat) ++ refS (rotS cx (w.rot.getLsbD 2) w.src.toNat) ++
      refS (rotS cx (w.rot.getLsbD 1) w.shape.toNat)) →
    (∀ k ∈ [a.kto, a.kfrom, a.kshape], (readS c (s.issueCtx h.idle) k).2 = false) →
    a.dst.toNat % 8 = 0 → a.src.toNat % 8 = 0 → (x = false → a.shape.toNat % 8 = 0 ∧ a.shape.toNat ≤ 2 ^ 21) →
    (n = 0 → ∃ t, exec i s = .next t ∧ s.Issued t h ∧ s.goesOn t h 0 ∧ s.puts t h [(2, .spush (BitVec.ofNat 64 c.dt))]) ∧ (n ≠ 0 →
    (∀ r ∈ loc, r.1 / 2 ^ 21 = s.cur % 4 ∧ r.1 % 2 ^ 21 + r.2 ≤ 2 ^ 21) →
    (w.kind = 3 → protTrap (s.atIssue h.idle) s.cur (localRows loc) = none ∧ writeCheck (s.atIssue h.idle) s.cur (localRows loc) = none) →
    (w.kind = 4 → c.slotsUsed + lines.length ≤ 1024 ∧ c.ue = [] ∧ c.ce = [] ∧ Claims.bufferClean c) →
    (n < 65536 ∨ c.covered c.dt ((n + 65535) / 65536) ((n + 63) / 64) = true) →
    emptyCheck (s.atIssue h.idle) s.cur (granSegs (localRows loc)) = none →
    (s.atIssue h.idle).translateAll s.cur [(far 0, if w.kind = 3 then 0 else 1)] = .inr [pa] → c.freeSlot = some k →
    ∃ t p, exec i s = .next t ∧ s.goesOn t h 0 ∧
      t = { s with cores := t.cores, now := t.now, nextId := t.nextId, free := t.free, reads := t.reads, counters := t.counters } ∧
      (∀ m, m ≠ s.cur → t.core m = s.core m) ∧
      s.puts t h [(2, .spush (BitVec.ofNat 64 p))] ∧ c.dt + 64 + (n + 63) / 64 ≤ p ∧
      (s.core s.cur).issuedFrame { t.core s.cur with slots := c.slots, heavy := c.heavy, empties := c.empties, held := c.held, l1 := c.l1 } ∧
      (∀ j, j ≠ k → mget (t.core s.cur).slots j = mget c.slots j) ∧ (∀ l ∈ (t.core s.cur).l1, l ∈ c.l1) ∧
      (w.kind = 3 → (t.core s.cur).held = c.held ∧ (∀ g ∈ granSegs (localRows loc), (t.core s.cur).isEmpty g = true ∧ g ∈ (t.core s.cur).opn.wset) ∧
        (∀ r ∈ s.reads, ∃ q ∈ t.reads, q = { r with fill := q.fill }) ∧
        ∃ y, mget (t.core s.cur).slots k = some y ∧ y.kind = 3 ∧ y.due = p ∧ y.susp = none ∧ y.rgn = c.opn.id ∧
          y.cw = (w.cw == 1) ∧ y.cls = w.cls.toNat ∧
          (∀ r j, r < v.rows → j < v.len → (far r + j) / 4096 = far 0 / 4096 →
            Claims.comes c t s.cur y.op y.cls false y.id y.got (r * v.len + j) (pa / 4096 * 4096 + (far r + j) % 4096))) ∧
      (w.kind = 4 → t.reads = s.reads ∧ t.counters = s.counters ∧ (t.core s.cur).l1 = c.l1 ∧ (t.core s.cur).empties = c.empties ∧
        (∀ g ∈ granSegs (localRows loc), g ∈ (t.core s.cur).opn.rset) ∧
        ∃ l, (t.core s.cur).held.Perm (c.held ++ l) ∧ ((∀ e ∈ c.held, e.op ≤ s.nextId) → (t.core s.cur).held = c.held ++ l) ∧
        l.length = (lines.filter (fun b => b / 64 = far 0 / 4096)).length ∧
        (∀ b ∈ lines, b / 64 = far 0 / 4096 → ∃ e ∈ l, e.rgn = c.opn.id ∧ e.cls = w.cls.toNat ∧
          ∃ id m bs, e.eff = .block id (64 * b) (pa / 4096 * 4096 + 64 * b % 4096) m bs ∧ bs.length = 64 ∧ ∀ z, z < 64 →
            (m.getLsbD z = true ↔ ∃ r j, r < v.rows ∧ j < v.len ∧ far r + j = 64 * b + z) ∧
            (∀ r j, r < v.rows → j < v.len → far r + j = 64 * b + z →
              (∀ r' j', r' < v.rows → j' < v.len → far r' + j' = 64 * b + z → r' * v.len + j' ≤ r * v.len + j) →
              bs[z]? = some (Memory.get c.spad ((byteAddrs (localRows loc)).getD (r * v.len + j) 0)))) ∧
        ((∀ b ∈ lines, b / 64 = far 0 / 4096) → mget (t.core s.cur).slots k = none)))

/-- R261, R301, R302, R312, R398: a copy of kind 5 into an open window holds one write for each 64 bytes of its source, in order, all of class 16, behind
what its core has held; a block that the region has written already keeps its place, with the new bytes. CRESUME of a handle that names a suspended
copy makes the copy go on in the present region with a new promise, which it pushes, and pushes 0 for any other handle; CCANCEL of a suspended copy
frees its slot and drops its held writes, its empty granules being full again and its leave no longer in use, and does nothing for any other
handle. -/
def Obligations.WindowAndSuspendedCopies : Prop :=
  (∀ (w : CWord) (s : State) (i : Instr) (x : Bool) (wd : Win), (i = .cpy w ∧ x = false) ∨ (i = .cpyx w ∧ x = true) → w.kind = 5 →
    let h := mkHead i w.idle (w.rot != 0) w.stage none
    let c := s.issueCore h.idle
    let a := copyArgs c (s.issueCtx h.idle) w
    let sh := copyShape x a.shape.toNat
    let v := Claims.copyView x a
    let n := v.rows * v.len
    s.canIssue h (fun cx => refS (rotS cx (w.rot.getLsbD 3) w.dst.toNat) ++ refS (rotS cx (w.rot.getLsbD 2) w.src.toNat) ++
      refS (rotS cx (w.rot.getLsbD 1) w.shape.toNat)) →
    (∀ k ∈ [a.kto, a.kfrom, a.kshape], (readS c (s.issueCtx h.idle) k).2 = false) →
    a.dst.toNat % 64 = 0 → a.src.toNat % 8 = 0 → (x = false → a.shape.toNat % 8 = 0 ∧ a.shape.toNat ≤ 2 ^ 21) → v.len % 64 = 0 →
    sh.2.2.2 % 64 = 0 → n ≠ 0 → s.windowOf? s.cur w.aux.toNat = some wd →
    (∀ r, r < v.rows → a.dst.toNat + r * sh.2.2.2 + v.len ≤ 4096 * (wd.tlen + 1)) →
    (∀ r ∈ v.from_, r.1 / 2 ^ 21 = s.cur % 4 ∧ r.1 % 2 ^ 21 + r.2 ≤ 2 ^ 21) → c.slotsUsed + n / 64 ≤ 1024 → c.ue = [] → c.ce = [] →
    Claims.bufferClean c → (n < 65536 ∨ c.covered c.dt ((n + 65535) / 65536) ((n + 63) / 64) = true) →
    emptyCheck (s.atIssue h.idle) s.cur (granSegs (localRows v.from_)) = none →
    let off (g : Nat) : Nat := a.dst.toNat + 64 * g / v.len * sh.2.2.2 + 64 * g % v.len
    let block (g : Nat) : HeldEff := .window w.aux.toNat (off g) (((byteAddrs (localRows v.from_)).drop (64 * g)).take 64 |>.map (Memory.get c.spad))
    let again (e : Held) (g : Nat) : Prop := e.rgn = c.opn.id ∧ ∃ bs, e.eff = .window w.aux.toNat (off g) bs
    ∃ t, exec i s = .next t ∧ s.goesOn t h 0 ∧ t = { s with cores := t.cores, now := t.now, nextId := t.nextId } ∧
      (∀ m, m ≠ s.cur → t.core m = s.core m) ∧
      (s.core s.cur).issuedFrame { t.core s.cur with held := c.held, heavy := c.heavy } ∧ (t.core s.cur).flights = c.flights ∧
      (∀ g ∈ granSegs (localRows v.from_), g ∈ (t.core s.cur).opn.rset) ∧
      (∀ g, g < n / 64 → (∀ j, g < j → j < n / 64 → off j ≠ off g) → ∃ e ∈ (t.core s.cur).held, e.rgn = c.opn.id ∧ e.eff = block g) ∧
      (∀ e ∈ c.held, (∀ g, g < n / 64 → ¬again e g) → e ∈ (t.core s.cur).held) ∧
      ((∀ e ∈ c.held, ∀ g, g < n / 64 → ¬again e g) → (∀ g j, g < j → j < n / 64 → off j ≠ off g) →
        ∃ l, (t.core s.cur).held = c.held ++ l ∧ (∀ e ∈ l, e.rgn = c.opn.id ∧ e.cls = 16) ∧
          l.map (·.eff) = (List.range (n / 64)).map block)) ∧
  (∀ (w : CWord) (s : State),
    let h := mkHead (.cresume w) w.idle (w.rot != 0) w.stage (some (false, 2))
    let c := s.issueCore h.idle
    let cx := s.issueCtx h.idle
    let a := readS c cx (rotS cx (w.rot.getLsbD 0) w.aux.toNat)
    let k := a.1.toNat / 2 ^ 60
    s.canIssue h (fun cx => refS (rotS cx (w.rot.getLsbD 0) w.aux.toNat)) → a.2 = false →
    ((∀ x, mget c.slots k = some x → x.susp = none) →
      ∃ t, exec (.cresume w) s = .next t ∧ s.Issued t h ∧ s.goesOn t h 0 ∧ s.puts t h [(2, .spush 0)]) ∧
    (∀ x, mget c.slots k = some x → x.susp.isSome = true →
      ∃ t p y, exec (.cresume w) s = .next t ∧ s.goesOn t h 0 ∧ s.puts t h [(2, .spush (BitVec.ofNat 64 p))] ∧ c.dt + 64 ≤ p ∧
        t = { s with cores := t.cores, now := t.now, nextId := t.nextId, free := t.free, reads := t.reads } ∧
        (∀ m, m ≠ s.cur → t.core m = s.core m) ∧ (∀ r ∈ s.reads, ∃ q ∈ t.reads, q = { r with fill := q.fill }) ∧
        (s.core s.cur).issuedFrame { t.core s.cur with slots := c.slots, undo := c.undo, l1 := c.l1 } ∧ (∀ l ∈ (t.core s.cur).l1, l ∈ c.l1) ∧
        mget (t.core s.cur).slots k = some y ∧
        y = { x with susp := none, op := y.op, rgn := c.opn.id, due := p, seen := y.seen, walked := none } ∧
        (∀ j, j ≠ k → mget (t.core s.cur).slots j = mget c.slots j))) ∧
  (∀ (w : CWord) (s : State),
    let h := mkHead (.ccancel w) w.idle (w.rot != 0) w.stage none
    let c := s.issueCore h.idle
    let cx := s.issueCtx h.idle
    let a := readS c cx (rotS cx (w.rot.getLsbD 0) w.aux.toNat)
    let k := a.1.toNat / 2 ^ 60
    s.canIssue h (fun cx => refS (rotS cx (w.rot.getLsbD 0) w.aux.toNat)) → a.2 = false →
    ((∀ x, mget c.slots k = some x → x.susp = none) →
      ∃ t, exec (.ccancel w) s = .next t ∧ s.Issued t h ∧ s.goesOn t h 0 ∧ (t.core s.cur).flights = c.flights) ∧
    (∀ x, mget c.slots k = some x → x.susp.isSome = true →
      ∃ t, exec (.ccancel w) s = .next t ∧ s.goesOn t h 0 ∧ t = { s with cores := t.cores, now := t.now } ∧
        (∀ m, m ≠ s.cur → t.core m = s.core m) ∧ (t.core s.cur).heavy = c.heavy.filter (fun y => y.id != x.id) ∧
        (s.core s.cur).issuedFrame { t.core s.cur with
          slots := c.slots, undo := c.undo, empties := c.empties, held := c.held, heavy := c.heavy } ∧
        (t.core s.cur).flights = c.flights ∧ mget (t.core s.cur).slots k = none ∧ (∀ j, j ≠ k → mget (t.core s.cur).slots j = mget c.slots j) ∧
        (∀ g, (t.core s.cur).isEmpty g = true ↔ ∃ e ∈ c.empties, e.1 = g ∧ e.2 ≠ x.id) ∧
        (t.core s.cur).held = c.held.filter (fun e => match e.eff with | .block id .. => id != x.id | _ => true)))

/-! ### Matrix words (R197 to R227) -/

/-- What a matrix word changes at once: of its own core the frame of every word and the records of the matrix engine and of leave, of its quad the sets R;
no register, no scratchpad, no global memory. -/
structure Sys2Proof.Claims.MatrixIssued (s t : State) (h : Head) : Prop where
  package : t = { s with cores := t.cores, now := t.now, nextId := t.nextId }
  others : ∀ m, m ≠ s.cur → t.core m = { s.core m with opn := { (s.core m).opn with rset := (t.core m).opn.rset } }
  core : (s.core s.cur).issuedFrame { t.core s.cur with
    heavy := (s.core s.cur).heavy, mmuls := (s.core s.cur).mmuls, mwlds := (s.core s.cur).mwlds, accOwn := (s.core s.cur).accOwn
    accP := (s.core s.cur).accP, touched := (s.core s.cur).touched, joint := (s.core s.cur).joint }

/-- A word has claimed rows for its open region: a row that was not pending comes with its committed cells, and every other row is as it was (R207). -/
structure Sys2Proof.Claims.ClaimsRows (s t : State) (rows : List Nat) : Prop where
  owned : ∀ r ∈ rows, (t.core s.cur).owner r = some (s.core s.cur).opn.id
  cells : ∀ r ∈ rows, (s.core s.cur).owner r = none ∨ (s.core s.cur).owner r = some (s.core s.cur).opn.id →
    ∀ k, k < 65 → (t.core s.cur).cell r k = (s.core s.cur).cell r k
  rest : ∀ r, r ∉ rows → (t.core s.cur).owner r = (s.core s.cur).owner r ∧ ∀ k, k < 65 → (t.core s.cur).cell r k = (s.core s.cur).cell r k

/-- What a word of the accumulator store changes at once: of its own core the frame of every word, the claims and what the checksums in flight know of it;
of its quad the sets R; no register, no scratchpad, no global memory. -/
structure Sys2Proof.Claims.AccumulatorIssued (s t : State) (h : Head) : Prop where
  package : t = { s with cores := t.cores, now := t.now, nextId := t.nextId }
  others : ∀ m, m ≠ s.cur → t.core m = { s.core m with opn := { (s.core m).opn with rset := (t.core m).opn.rset } }
  core : (s.core s.cur).issuedFrame { t.core s.cur with
    accOwn := (s.core s.cur).accOwn, accP := (s.core s.cur).accP, touched := (s.core s.cur).touched }
  device : (t.core s.cur).dt = (s.issueCore h.idle).dt

/-- The granules of a block's rows and headers have been read, in each member of the quad (R49, R201). -/
def Sys2Proof.Claims.blockRead (s t : State) (b : Block) : Prop :=
  ∀ m, m < 4 → ∀ g ∈ granSegs (memberSegs m b.segs), g ∈ (t.core (quadMember s.cur m)).opn.rset

/-- Row `r`, column `x` of an operand block in an element format, decoded (R198, R200, R201): its `n`-byte element at base + r × stride + x × n. -/
def Sys2Proof.Claims.elementAt (s : State) (b : Block) (r x : Nat) : BitVec 32 :=
  (loadLane b.fmt (s.quadVal s.cur ((b.base + r * b.stride) % 2 ^ 23 + x * tySize b.fmt) (tySize b.fmt))).1

/-- The conditions of R220 under which a block is read at once: unpoisoned operands, aligned rows, no neighbour's row outside a coupled quad, every granule full,
no error in the quad's scratchpads or in the block's headers. -/
structure Sys2Proof.Claims.Readable (s : State) (idle : Nat) (codes : List Nat) (b : Block) : Prop where
  unpoisoned : ∀ k ∈ codes, (readS (s.issueCore idle) (s.issueCtx idle) k).2 = false
  aligned : b.misaligned = none
  near : (s.issueCore idle).coupled = true ∨ remoteAt s.cur b.segs = none
  full : quadEmpty (s.atIssue idle) s.cur b.segs = none
  clean : Claims.quadClean s
  headers : ∀ x ∈ s.headers s.cur b, (bxHeader x).2.2 = (0, false)

/-- The exact sum of the finite values of a list, as a multiple of 2 to an exponent. -/
def Sys2Proof.Claims.exactSum (l : List FV) : Int × Int :=
  let lo := (l.map (fun x => match x with | .fin _ _ e => e | _ => 0)).foldl min 0
  ((l.map (fun x => match x with | .fin n m e => (if n then -(m : Int) else m) * 2 ^ (e - lo).toNat | _ => 0)).sum, lo)

/-- The sum of values, exact and rounded once to FP32 under RNE (R60, R85, R210): the canonical NaN for a NaN or for infinities of both signs, an infinity
for infinities of one, −0 for negative zeros alone. -/
def Sys2Proof.Claims.sumOnce (l : List FV) : BitVec 32 :=
  let pos := l.any (· == .inf false)
  let neg := l.any (· == .inf true)
  let s := Claims.exactSum l
  if l.any (·.isNan) || (pos && neg) then 0x7FC00000
  else if pos then 0x7F800000 else if neg then 0xFF800000
  else if s.1 = 0 then (if !l.isEmpty && l.all (fun x => match x with | .fin true 0 _ => true | _ => false) then 0x80000000 else 0)
  else BitVec.ofNat 32 (roundD fp32 ⟨0, 0⟩ (decide (s.1 < 0)) s.1.natAbs s.2).1

/-- R60, R85, R200, R204, R210, R213, R219, R222: MWLD without a multicast to other members whose block can be read, covered by leave and with the tile buffer free, completes:
the K × N weights as they stand in the issue cycle are latched 80 cycles later, 84 when a row lies in a neighbour, with their format and K check weights;
in a format of whole bytes each is the element at its address. The check weight of a row is the sum of its weights, exact and rounded once, poisoned where
one of them is. A receiver of a well-formed multicast latches the tile of the member that reads it, in the
same cycle. -/
def Obligations.WeightLoads : Prop :=
  (∀ (w : MWord) (s : State),
    let h := mwldHead w
    let c := s.issueCore h.idle
    let cx := s.issueCtx h.idle
    let b := blockOf c cx w (w.k.toNat + 1) (w.n.toNat + 1)
    s.canIssue h (fun cx => (operandCodes w cx).flatMap refS) → w.mcast = 0 ∨ w.mcast.toNat = 2 ^ (s.cur % 4) →
    Claims.Readable s h.idle (operandCodes w cx) b → c.covered c.dt 1 80 = true → (∀ p ∈ c.mwlds.head?, p.2 ≤ s.cycle h.idle) →
    ∃ t tile, exec (.mwld w) s = .next t ∧ Claims.MatrixIssued s t h ∧ s.goesOn t h 0 ∧
      s.puts t h [(if (remoteAt s.cur b.segs).isSome then 84 else 80, .latch tile)] ∧
      tile.k = w.k.toNat + 1 ∧ tile.n = w.n.toNat + 1 ∧ tile.fmt = w.afmt.toNat ∧ tile.rows = s.block s.cur b ∧
      tile.w = tile.rows.map (fun r => ⟨Claims.sumOnce (r.map (fun x => cellVal (decide (w.afmt.toNat = 0 ∨ w.afmt.toNat = 12)) x.bits)), r.any (·.psn)⟩) ∧
      (w.afmt.toNat ∈ [0, 5, 6, 7, 8] → tile.rows = (List.range (w.k.toNat + 1)).map (fun r => (List.range (w.n.toNat + 1)).map (fun x =>
        { bits := Claims.elementAt s b r x, psn := false }))) ∧
      Claims.blockRead s t b ∧ Claims.ClaimsRows s t []) ∧
  (∀ (w : MWord) (s : State) (at_ : Nat) (tile : Tile),
    let h := mwldHead w
    let c := s.issueCore h.idle
    s.canIssue h (fun _ => []) → w.mcast ≠ 0 → mcastReader s.cur w ≠ s.cur → c.coupled = true → c.covered c.dt 1 80 = true →
    (∀ p ∈ c.mwlds.head?, p.2 ≤ s.cycle h.idle) → (s.atIssue h.idle).mcastOk s.cur c.clock w = true →
    (s.core (mcastReader s.cur w)).tileOf c.clock = some (at_, tile) →
    ∃ t, exec (.mwld w) s = .next t ∧ Claims.MatrixIssued s t h ∧ s.goesOn t h 0 ∧ s.puts t h [(at_ - c.clock, .latch tile)] ∧
      Claims.ClaimsRows s t [])

/-- The effects of an MMUL whose rows of A are `rows` and whose first output row lands after `lat` cycles (R204, R210, R223); `chk` is what the check row
adds. -/
def Sys2Proof.Claims.product (c : Core) (w : MWord) (id lat : Nat) (rows : List (List ACell)) (chk : List (Nat × Eff)) : List (Nat × Eff) :=
  let tile := c.arch.tile
  let m := w.m.toNat + 1
  let isInt := decide (tile.fmt = 0 ∨ tile.fmt = 12)
  let group (f : Nat) : Nat := if f = 5 ∨ f = 6 then 1 else if f = 10 ∨ f = 11 ∨ f = 12 then 4 else 2
  (List.range m).map (fun i => (lat + i, Eff.mrow id (w.crow.toNat + i) (w.acc == 1) (w.ck == 1)
      (min (group w.afmt.toNat) (group tile.fmt)) isInt (rows.getD i []) tile)) ++ chk ++
    [(lat + m + 6, .compare id (w.ck == 1) w.crow.toNat m tile.n isInt c.arch.csr.mtol c.pc none)]

/-- With ck the check row follows the last output row: it takes the sum of each column of A, exact and rounded once, poisoned where an element of A is
(R210, R213). -/
def Sys2Proof.Claims.checkRow (c : Core) (w : MWord) (id lat : Nat) (rows : List (List ACell)) (chk : List (Nat × Eff)) : Prop :=
  let tile := c.arch.tile
  let sums : List ACell := (List.range tile.k).map (fun j => ⟨Claims.sumOnce (rows.map (fun r =>
    cellVal (decide (tile.fmt = 0 ∨ tile.fmt = 12)) (r.getD j {}).bits)), rows.any (fun r => r.any (·.psn))⟩)
  (w.ck = 0 → chk = []) ∧
  (w.ck = 1 → chk = [(lat + w.m.toNat + 1, .mchkrow id (w.crow.toNat + w.m.toNat + 1) (w.acc == 1) sums tile)])

/-- R60, R85, R204, R207, R210, R213, R218, R223: MMUL outside a chain or at the head of a well-formed one, of the tile's K and N, whose block can be read, covered by leave,
with the array free and no row that a closing region still holds, completes: output row i lands 72 + i cycles after issue, 76 + i when a row of A lies in a
neighbour, with the rows of A as they stand in the issue cycle; with ck the check row follows the last one; the compare comes 6 cycles after row M. It
claims its rows for the open region. A later member of the chain multiplies the head's rows, 2 cycles later for each core between them. -/
def Obligations.MatrixMultiplies : Prop :=
  (∀ (w : MWord) (s : State),
    let h := mmulHead w
    let c := s.issueCore h.idle
    let cx := s.issueCtx h.idle
    let m := w.m.toNat + 1
    let b := blockOf c cx w m (w.k.toNat + 1)
    let lat := if (remoteAt s.cur b.segs).isSome then 76 else 72
    let rows := (List.range (m + w.ck.toNat)).map (· + w.crow.toNat)
    s.canIssue h (fun cx => (operandCodes w cx).flatMap refS) →
    w.chain = 0 ∨ (w.chain = 1 ∧ c.coupled = true ∧ (s.atIssue h.idle).chainOk s.cur c.clock w = true) →
    Claims.Readable s h.idle (operandCodes w cx) b → c.covered c.dt 4 (78 + m) = true →
    (∀ p ∈ c.mmuls.head?, p.2.1 + p.2.2 ≤ s.cycle h.idle) → (s.atIssue h.idle).chainHeld s.cur c.clock w = false →
    ∃ t id chk, exec (.mmul w) s = .next t ∧ Claims.MatrixIssued s t h ∧ s.goesOn t h 0 ∧
      s.puts t h (Claims.product c w id lat (s.block s.cur b) chk) ∧ Claims.checkRow c w id lat (s.block s.cur b) chk ∧
      (w.afmt.toNat ∈ [0, 5, 6, 7, 8] → s.block s.cur b = (List.range m).map (fun r => (List.range (w.k.toNat + 1)).map (fun x =>
        { bits := Claims.elementAt s b r x, psn := false }))) ∧
      Claims.blockRead s t b ∧ Claims.ClaimsRows s t rows) ∧
  (∀ (w : MWord) (s : State) (at_ : Nat) (rows : List (List ACell)),
    let h := mmulHead w
    let c := s.issueCore h.idle
    let hd := (s.atIssue h.idle).chainHead s.cur c.clock w
    let lat := at_ - c.clock + 2 * (s.cur - hd)
    s.canIssue h (fun _ => []) → 2 ≤ w.chain.toNat → c.coupled = true → (s.atIssue h.idle).chainOk s.cur c.clock w = true →
    c.covered c.dt 4 (78 + (w.m.toNat + 1)) = true → (∀ p ∈ c.mmuls.head?, p.2.1 + p.2.2 ≤ s.cycle h.idle) →
    (s.atIssue h.idle).chainHeld s.cur c.clock w = false → ((s.atIssue h.idle).core hd).aRowsOf c.clock = some (at_, rows) →
    rows.length = w.m.toNat + 1 →
    ∃ t id chk, exec (.mmul w) s = .next t ∧ Claims.MatrixIssued s t h ∧ s.goesOn t h 0 ∧
      s.puts t h (Claims.product c w id lat rows chk) ∧ Claims.checkRow c w id lat rows chk ∧
      Claims.ClaimsRows s t ((List.range (w.m.toNat + 1 + w.ck.toNat)).map (· + w.crow.toNat)))

/-- R207, R208, R212, R224 to R227: the words of the accumulator store, where no row of theirs is held by a closing region, complete. MCHK, MZERO and
MALD claim their rows for the open region. MCHK compares the cells as they stand in the issue cycle 12 cycles later (R212, R224; that this reading
goes before R353 is DEDUCED, log 13); MZERO writes +0 to its block after 2 cycles; MALD writes row i of its block after 8 + i cycles, 12 + i from a
neighbour; MAST writes row i of its block, converted as R181 says, to the own scratchpad after 8 + i cycles, with the flags of the conversions. -/
def Obligations.AccumulatorWords : Prop :=
  (∀ (w : MWord) (s : State),
    let h := hdM (.mchk w) w
    let c := s.issueCore h.idle
    let rows := (List.range (w.m.toNat + 2)).map (· + w.crow.toNat)
    s.canIssue h (fun _ => []) → c.rowsHeld rows = false →
    ∃ t id cells, exec (.mchk w) s = .next t ∧ Claims.AccumulatorIssued s t h ∧ s.goesOn t h 0 ∧
      s.puts t h [(12, .compare id true w.crow.toNat (w.m.toNat + 1) (w.n.toNat + 1)
        (decide (c.arch.tile.k ≠ 0 ∧ (c.arch.tile.fmt = 0 ∨ c.arch.tile.fmt = 12))) c.arch.csr.mtol c.pc (some cells))] ∧
      ((∀ r ∈ rows, c.owner r = none ∨ c.owner r = some c.opn.id) → cells = rows.map (fun r => (List.range 65).map (fun k => c.cell r k))) ∧
      Claims.ClaimsRows s t rows) ∧
  (∀ (w : MWord) (s : State),
    let h := hdM (.mzero w) w
    let c := s.issueCore h.idle
    let rows := (List.range (w.m.toNat + 1)).map (· + w.crow.toNat)
    s.canIssue h (fun _ => []) → c.rowsHeld rows = false →
    ∃ t cs, exec (.mzero w) s = .next t ∧ Claims.AccumulatorIssued s t h ∧ s.goesOn t h 0 ∧ s.puts t h [(2, .acells cs)] ∧
      (∀ r k v, (r, k, v) ∈ cs ↔ v = {} ∧ w.crow.toNat ≤ r ∧ r ≤ w.crow.toNat + w.m.toNat ∧ w.ccol.toNat ≤ k ∧ k ≤ w.ccol.toNat + w.n.toNat) ∧
      Claims.ClaimsRows s t rows) ∧
  (∀ (w : MWord) (s : State),
    let h := hdM (.mald w) w
    let c := s.issueCore h.idle
    let cx := s.issueCtx h.idle
    let b := blockOf c cx w (w.m.toNat + 1) (w.n.toNat + 1)
    let rows := (List.range (w.m.toNat + 1)).map (· + w.crow.toNat)
    s.canIssue h (fun cx => (operandCodes w cx).flatMap refS) → Claims.Readable s h.idle (operandCodes w cx) b → c.rowsHeld rows = false →
    ∃ t, exec (.mald w) s = .next t ∧ Claims.AccumulatorIssued s t h ∧ s.goesOn t h 0 ∧
      s.puts t h ((List.range (w.m.toNat + 1)).map (fun i => ((if (remoteAt s.cur b.segs).isSome then 12 else 8) + i,
        .acells ((List.range (w.n.toNat + 1)).map (fun k => (w.crow.toNat + i, w.ccol.toNat + k,
          { bits := Claims.elementAt s b i k, psn := false })))))) ∧ Claims.blockRead s t b ∧ Claims.ClaimsRows s t rows) ∧
  (∀ (w : MWord) (s : State),
    let h := hdM (.mast w) w
    let c := s.issueCore h.idle
    let cx := s.issueCtx h.idle
    let b := blockOf c cx w (w.m.toNat + 1) (w.n.toNat + 1)
    let out (i k : Nat) : Nat × Flags := storeLane w.afmt.toNat ((c.rctx cx).mode w.rnd.toNat i ((w.ccol.toNat + k) % 64))
      (c.cell (w.crow.toNat + i) (w.ccol.toNat + k)).bits
    let at_ (i k : Nat) : Nat :=
      let a := (b.base + i * w.astride.toNat) % 2 ^ 23 % 2 ^ 21
      if w.afmt.toNat = 12 then 2 * a + k else a + k * tySize w.afmt.toNat
    s.canIssue h (fun cx => (operandCodes w cx).flatMap refS) → (∀ k ∈ operandCodes w cx, (readS c cx k).2 = false) → b.misaligned = none →
    (∀ i k, i < w.m.toNat + 1 → k < w.n.toNat + 1 → (c.cell (w.crow.toNat + i) (w.ccol.toNat + k)).psn = false) →
    storeTrap (s.atIssue h.idle) s.cur b.segs none = none →
    ∃ t, ∃ fl : Nat → Flags, exec (.mast w) s = .next t ∧ Claims.AccumulatorIssued s t h ∧ s.goesOn t h 0 ∧
      (∀ i b, (fl i).getLsbD b = true ↔ ∃ k, k < w.n.toNat + 1 ∧ (out i k).2.getLsbD b = true) ∧
      s.puts t h ((List.range (w.m.toNat + 1)).flatMap (fun i => (8 + i, Eff.spw ((List.range (w.n.toNat + 1)).flatMap (fun k =>
        laneBytes w.afmt.toNat (at_ i k) (out i k).1))) :: if fl i = 0 then [] else [(8 + i, .flags (fl i))])) ∧
      (∀ g ∈ granSegs (memberSegs (memberOf s.cur) b.segs), g ∈ (t.core s.cur).opn.wset) ∧ Claims.ClaimsRows s t [])

/-! ### Landings and arrivals (R33 to R36, R40, R42, R46, R71, R82 to R86, R162, R163, R204, R207, R210 to R213, R222, R328, R353) -/

/-- A change `R` has come to the live state of core `c` and to the entry snapshot of every region that opened after region `rgn`; snapshots of the others, and
all else of the regions, are as they were (R46). -/
structure Sys2Proof.Claims.LandsIn (c d : Core) (rgn : Nat) (R : Arch → Arch → Prop) : Prop where
  live : R c.arch d.arch
  opn : d.opn = { c.opn with snap := d.opn.snap } ∧ if rgn < c.opn.id then R c.opn.snap d.opn.snap else d.opn.snap = c.opn.snap
  closing : d.closing.length = c.closing.length ∧ ∀ p ∈ c.closing.zip d.closing, p.2 = { p.1 with snap := p.2.snap } ∧
    if rgn < p.1.id then R p.1.snap p.2.snap else p.2.snap = p.1.snap

/-- No host ring of a partition in capture mode holds the byte at `a` (R423); that an event takes 32 bytes there is the model's choice (log 10). -/
def Sys2Proof.Claims.noRing (s : State) (a : Nat) : Prop :=
  ∀ p ∈ s.parts, ∀ r, p.capture = some r → ∀ k, a < hostPa (r + 32 * k) ∨ hostPa (r + 32 * k) + 32 ≤ a

/-- Of global memory at most the host rings of partitions in capture mode have changed, and their errors with them: all of it stays where no partition is in
capture mode (R423). -/
structure Sys2Proof.Claims.ringsOnly (s t : State) : Prop where
  bytes : ∀ a, Claims.noRing s a → Memory.get t.mem a = Memory.get s.mem a
  errors : ∀ w, (∀ k, k < 8 → Claims.noRing s (8 * w + k)) → (w ∈ t.memUe ↔ w ∈ s.memUe)
  log : (∀ p ∈ s.parts, p.capture = none) → t.mem = s.mem ∧ t.memUe = s.memUe ∧ t.capLog = s.capLog

/-- The effect `x` of core `n`, which comes next, has come and gone: of the package only the clock has changed, of the other cores at most core `m`; the clock
of core `n` stands at the effect's cycle, and of what is in flight exactly one effect is gone. -/
structure Sys2Proof.Claims.Landed (s t : State) (n m : Nat) (x : Coming) : Prop where
  package : t = { s with cores := t.cores, now := t.now }
  others : ∀ k, k ≠ n → k ≠ m → t.core k = s.core k
  clock : (s.core n).trap = none → (t.core n).stream = max (s.core n).stream x.at_ ∧
    (t.core n).dt = (s.core n).dt + (x.at_ - (s.core n).stream)
  handler : (s.core n).trap.isSome = true → (t.core n).stream = (s.core n).stream ∧ (t.core n).dt = max (s.core n).dt x.at_
  left : ∀ f ∈ (t.core n).flights, ∃ g ∈ (s.core n).flights, f = { g with evs := f.evs } ∧ f.evs.Sublist g.evs
  less : ((t.core n).flights.map (fun f => f.evs.length)).sum + 1 = ((s.core n).flights.map (fun f => f.evs.length)).sum

/-- The pushes of a landing onto the scalar and the vector result queue (R35, R160). -/
def Sys2Proof.Claims.pushed (a b : Arch) (e : QEnt) : Prop := b.q[0] = e ∧ ∀ k (hk : k < 15), b.q[k + 1] = a.q[k]
/-- See `pushed`. -/
def Sys2Proof.Claims.pushedV (a b : Arch) (e : VQEnt) : Prop := b.vq[0] = e ∧ ∀ k (hk : k < 15), b.vq[k + 1] = a.vq[k]

/-- What a vector result under a mask makes of the lanes and the lane poison of a register (R162). -/
def Sys2Proof.Claims.merged (old : VReg) (y : Lanes) (p kb kp : LMask) (mz : Bool) : Lanes × LMask :=
  (Vector.ofFn (fun l : Fin 64 => if kb.getLsbD l then y[l] else if mz then 0 else old.lanes[l]),
   maskOf (fun l => (if kb.getLsbD l then p.getLsbD l else !mz && old.psn.getLsbD l) || kp.getLsbD l))

/-- The effects that land in the architectural state, a latched tile apart. -/
def Sys2Proof.Claims.inArch : Eff → Bool
  | .sland .. | .svoid | .spush _ | .vland .. | .vset .. | .vvoid | .kland .. | .xland .. | .flags _ | .csrw .. => true
  | _ => false

/-- What an effect that lands in the architectural state makes of it, `a` before and `b` after, for the effects of `inArch`. What wrong parity
waits to be found (`struck`) may move with a queue or end with a write. -/
def Sys2Proof.Claims.archLanding (e : Eff) (a b : Arch) : Prop :=
  match e with
  | .sland d v p => (b = { a with s := b.s, q := b.q, struck := b.struck } ∧ Claims.pushed a b ⟨v, p, false⟩ ∧
      ∀ r (hr : r < 32), b.s[r] = if r = d then { a.s[r] with val := v, psn := p } else a.s[r])
  | .svoid => (b = { a with q := b.q, struck := b.struck } ∧ Claims.pushed a b ⟨0, true, true⟩)
  | .spush v => (b = { a with q := b.q, struck := b.struck } ∧ Claims.pushed a b ⟨v, false, false⟩)
  | .vland d y p kb kp mz =>
    let m := Claims.merged (if h : d < 32 then a.v[d] else {}) y p kb kp mz
    (b = { a with v := b.v, vq := b.vq, struck := b.struck } ∧ Claims.pushedV a b ⟨m.1, m.2, false⟩ ∧
      ∀ r (hr : r < 32), b.v[r] = if r = d then { a.v[r] with lanes := m.1, psn := m.2 } else a.v[r])
  | .vset d y p kb kp mz =>
    let m := Claims.merged (if h : d < 32 then a.v[d] else {}) y p kb kp mz
    (b = { a with v := b.v, struck := b.struck } ∧
      ∀ r (hr : r < 32), b.v[r] = if r = d then { a.v[r] with lanes := m.1, psn := m.2 } else a.v[r])
  | .vvoid => (b = { a with vq := b.vq, struck := b.struck } ∧ Claims.pushedV a b ⟨Vector.replicate 64 0, BitVec.allOnes 64, true⟩)
  | .kland d y p kb kp mz => (b = { a with k := b.k, struck := b.struck } ∧
      ∀ r (hr : r < 8), if r = d ∧ r ≠ 0 then
        (∀ l, l < 64 → b.k[r].bits.getLsbD l = (if kb.getLsbD l then y.getLsbD l else !mz && a.k[r].bits.getLsbD l) ∧
          b.k[r].psn.getLsbD l = ((if kb.getLsbD l then p.getLsbD l else !mz && a.k[r].psn.getLsbD l) || kp.getLsbD l))
        else b.k[r] = a.k[r])
  | .xland d v p => (b = { a with x := b.x, struck := b.struck } ∧ ∀ r (hr : r < 4), b.x[r] = if r = d then ⟨v, p⟩ else a.x[r])
  | .flags f => (b = { a with csr := { a.csr with status := a.csr.status ||| f.setWidth 64 } })
  | .csrw k v => (b = { a with csr := a.csr.write k v })
  | _ => False

/-- Bytes under their bit masks have been written to the scratchpad of a core: a byte named once takes the bits of its mask, one named by a whole mask and not
again later is that byte, every other byte is as it was, and a word all of whose bytes are written whole loses its errors (R144, R181). -/
structure Sys2Proof.Claims.Stored (c d : Core) (bs : List (Nat × BitVec 8 × BitVec 8)) : Prop where
  once : ∀ l r b v m, bs = l ++ (b, v, m) :: r → (∀ y ∈ l ++ r, y.1 ≠ b) → Memory.get d.spad b = (v &&& m) ||| (Memory.get c.spad b &&& ~~~m)
  last : ∀ l r b v, bs = l ++ (b, v, 0xFF) :: r → (∀ y ∈ r, y.1 ≠ b) → Memory.get d.spad b = v
  rest : ∀ b, (∀ y ∈ bs, y.1 ≠ b) → Memory.get d.spad b = Memory.get c.spad b
  errors : ∀ w, (w ∈ d.ue ↔ w ∈ c.ue ∧ ∃ i, i < 8 ∧ ∀ y ∈ bs, y.1 = 8 * w + i → y.2.2 ≠ 0xFF) ∧
    (w ∈ d.ce ↔ w ∈ c.ce ∧ ∃ i, i < 8 ∧ ∀ y ∈ bs, y.1 = 8 * w + i → y.2.2 ≠ 0xFF)

/-- What a landing in the accumulator store leaves of its core but the pending cells: its state but for STATUS, its place, its scratchpad. -/
def Sys2Proof.Claims.cellsOnly (c d : Core) : Prop :=
  d = { c with stream := d.stream, dt := d.dt, flights := d.flights, accP := d.accP, accUsed := d.accUsed, touched := d.touched, sats := d.sats
               arch := d.arch, opn := d.opn, closing := d.closing }

/-- The result of an output row of an MMUL in column `j`, and of its check cell for `j` = 64: the products of row `a` of A and that column of the tile, or
the check weights, accumulated in groups onto the old cell, or onto nothing without acc (R82 to R86, R205, R210, R213). -/
def Sys2Proof.Claims.rowResult (c : Core) (row : Nat) (acc : Bool) (g : Nat) (isInt : Bool) (a : List ACell) (tile : Tile) (j : Nat) : ACell × Flags :=
  let old := c.cell row j
  let b : List ACell := if j = 64 then tile.w else tile.rows.map (fun r => r.getD j {})
  let r := if j = 64 then accumulate 1 (if acc then old.bits else 0x80000000) ((a.zip b).map (fun p => fvMul (cellVal isInt p.1.bits) (l32 p.2.bits)))
    else if isInt then accumulateInt g (if acc then old.bits else 0) ((a.zip b).map (fun p => p.1.bits.toInt * p.2.bits.toInt))
    else accumulate g (if acc then old.bits else 0x80000000) ((a.zip b).map (fun p => fvMul (l32 p.1.bits) (l32 p.2.bits)))
  (⟨r.1, a.any (·.psn) || (acc && old.psn) || b.any (·.psn)⟩, r.2)

/-- The result of the check row of an MMUL in column `j` (R210, R213). -/
def Sys2Proof.Claims.checkResult (c : Core) (row : Nat) (acc : Bool) (sums : List ACell) (tile : Tile) (j : Nat) : ACell × Flags :=
  let old := c.cell row j
  let b : List ACell := tile.rows.map (fun r => r.getD j {})
  let r := accumulate 1 (if acc then old.bits else 0x80000000)
    ((sums.zip b).map (fun p => fvMul (l32 p.1.bits) (cellVal (decide (tile.fmt = 0 ∨ tile.fmt = 12)) p.2.bits)))
  (⟨r.1, sums.any (·.psn) || (acc && old.psn) || b.any (·.psn)⟩, r.2)

/-- The cells of `cols` in a row pending for the landing's region take their results, no other cell changes, and the flags that the results raise OR into
STATUS. -/
def Sys2Proof.Claims.rowLands (c d : Core) (rgn row : Nat) (cols : List Nat) (res : Nat → ACell × Flags) : Prop :=
  (∀ j ∈ cols, c.owner row = some rgn → d.cell row j = (res j).1) ∧
  (∀ r k, k < 65 → r ≠ row ∨ k ∉ cols ∨ c.owner row ≠ some rgn → d.cell r k = c.cell r k) ∧
  ∃ fl : Flags, (∀ b, fl.getLsbD b = true ↔ ∃ j ∈ cols, (res j).2.getLsbD b = true) ∧
    Claims.LandsIn c d rgn (fun a b => b = { a with csr := { a.csr with status := a.csr.status ||| fl.setWidth 64 } })

/-- R33 to R36, R71, R82 to R86, R144, R152, R162, R163, R181, R205, R207, R210, R213, R305, R328: RESULT_LANDING performs the effect that comes next, in its
cycle. What lands in the architectural state lands there and in the snapshots of later regions. Bytes land in the own scratchpad, or in that of a
neighbour, which may also take over uncorrectable words. An output row, a check row and the cells of MZERO and MALD land in rows pending for their
region, as a corrected cell does. A result that the shade units find to be off is an error of its region. -/
def Sys2Proof.Claims.ResultsLand : Prop :=
  ∀ (s : State) (n : Nat) (x : Coming), (s.core n).nextEff = some x → ((s.core n).flights.map (·.id)).Nodup →
    let c := s.core n
    (Claims.inArch x.eff = true → ∃ t, exec (.resultLanding n) s = .next t ∧ Claims.Landed s t n n x ∧
        t.core n = { c with stream := (t.core n).stream, dt := (t.core n).dt, flights := (t.core n).flights, arch := (t.core n).arch
                            opn := (t.core n).opn, closing := (t.core n).closing } ∧
        Claims.LandsIn c (t.core n) x.rgn (Claims.archLanding x.eff)) ∧
    (∀ bs, x.eff = .spw bs → ∃ t, exec (.resultLanding n) s = .next t ∧ Claims.Landed s t n n x ∧ Claims.Stored c (t.core n) bs ∧
      t.core n = { c with stream := (t.core n).stream, dt := (t.core n).dt, flights := (t.core n).flights, spad := (t.core n).spad
                          ue := (t.core n).ue, ce := (t.core n).ce }) ∧
    (∀ m bs, x.eff = .rspw m bs → quadMember n m ≠ n → ∃ t, exec (.resultLanding n) s = .next t ∧ Claims.Landed s t n (quadMember n m) x ∧
      t.core n = { c with stream := (t.core n).stream, dt := (t.core n).dt, flights := (t.core n).flights } ∧
      Claims.Stored (s.core (quadMember n m)) (t.core (quadMember n m)) bs ∧
      t.core (quadMember n m) = { s.core (quadMember n m) with spad := (t.core (quadMember n m)).spad
                                                               ue := (t.core (quadMember n m)).ue, ce := (t.core (quadMember n m)).ce }) ∧
    (∀ m ws, x.eff = .spue m ws → ∃ t, exec (.resultLanding n) s = .next t ∧ Claims.Landed s t n (quadMember n m) x ∧
      (∀ w, w ∈ (t.core (quadMember n m)).ue ↔ w ∈ (s.core (quadMember n m)).ue ∨ w ∈ ws) ∧
      (t.core n).arch = c.arch ∧ (∀ k, (t.core k).spad = (s.core k).spad)) ∧
    (∀ mm row acc ck g i a tile, x.eff = .mrow mm row acc ck g i a tile → tile.n ≤ 64 →
      ∃ t, exec (.resultLanding n) s = .next t ∧ Claims.Landed s t n n x ∧ Claims.cellsOnly c (t.core n) ∧
        Claims.rowLands c (t.core n) x.rgn row (List.range tile.n ++ if ck then [64] else []) (Claims.rowResult c row acc g i a tile)) ∧
    (∀ mm row acc sums tile, x.eff = .mchkrow mm row acc sums tile → tile.n ≤ 64 →
      ∃ t, exec (.resultLanding n) s = .next t ∧ Claims.Landed s t n n x ∧ Claims.cellsOnly c (t.core n) ∧
        Claims.rowLands c (t.core n) x.rgn row (List.range tile.n) (Claims.checkResult c row acc sums tile)) ∧
    (∀ cs, x.eff = .acells cs → (∀ y ∈ cs, y.2.1 < 65) → ∃ t, exec (.resultLanding n) s = .next t ∧ Claims.Landed s t n n x ∧
      Claims.cellsOnly c (t.core n) ∧ (t.core n).arch = c.arch ∧ (t.core n).opn = c.opn ∧ (t.core n).closing = c.closing ∧
      (∀ r k, k < 65 → (∀ y ∈ cs, y.1 = r → y.2.1 ≠ k) ∨ c.owner r ≠ some x.rgn → (t.core n).cell r k = c.cell r k) ∧
      (∀ r k v, c.owner r = some x.rgn → (r, k, v) ∈ cs → (∀ y ∈ cs, y.1 = r → y.2.1 = k → y.2.2 = v) → (t.core n).cell r k = v)) ∧
    (∀ mm row col v, x.eff = .correct mm row col v → col < 65 → ∃ t, exec (.resultLanding n) s = .next t ∧ Claims.Landed s t n n x ∧
      Claims.cellsOnly c (t.core n) ∧ (t.core n).arch = c.arch ∧ (c.owner row = some x.rgn → (t.core n).cell row col = ⟨v, false⟩) ∧
      (∀ r k, k < 65 → r ≠ row ∨ k ≠ col ∨ c.owner row ≠ some x.rgn → (t.core n).cell r k = c.cell r k)) ∧
    (∀ engine addr, x.eff = .mismatch engine addr → ∃ t d, exec (.resultLanding n) s = .next t ∧ Claims.ringsOnly s t ∧
      (∀ k, k ≠ n → t.core k = s.core k) ∧ (t.core n).doom = some d ∧ (t.core n).arch = c.arch ∧ (t.core n).spad = c.spad ∧
      (c.doom = none → d.rgn = x.rgn ∧ d.rep.cls = 2 ∧ d.rep.engine = engine ∧ d.rep.addr = addr))

/-- R199, R212, R222, R353: TILE_LATCH makes its tile the tile of the core. CHECKSUM_COMPARE of a word without ck changes no cell and no register. One with ck
does neither when its rows and columns pass; where one row and one column are off in the way that R212 asks, it counts a corrected error and puts the
corrected cell among the landings of its cycle; any other mismatch is an error of its region. -/
def Sys2Proof.Claims.LatchAndCompare : Prop :=
  ∀ (s : State) (n : Nat) (x : Coming), (s.core n).nextEff = some x → ((s.core n).flights.map (·.id)).Nodup →
    let c := s.core n
    (∀ tile, x.eff = .latch tile → ∃ t, exec (.tileLatch n) s = .next t ∧ Claims.Landed s t n n x ∧
      t.core n = { c with stream := (t.core n).stream, dt := (t.core n).dt, flights := (t.core n).flights, arch := (t.core n).arch
                          opn := (t.core n).opn, closing := (t.core n).closing } ∧
      Claims.LandsIn c (t.core n) x.rgn (fun a b => b = { a with tile := tile })) ∧
    (∀ mm ck crow m cols i mtol addr cells, x.eff = .compare mm ck crow m cols i mtol addr cells →
      let verdict := compareCells (fun r k => match cells with
          | some y => (y.getD (r - crow) []).getD k {}
          | none => c.cell r k)
        (fun r k => c.sats.contains (mm, r, k)) (fun r k => c.touched.contains (mm, r, k)) crow m cols i mtol
      (ck = false ∨ verdict = .pass → ∃ t, exec (.checksumCompare n) s = .next t ∧ Claims.Landed s t n n x ∧
        t.core n = { c with stream := (t.core n).stream, dt := (t.core n).dt, flights := (t.core n).flights, touched := (t.core n).touched
                            sats := (t.core n).sats }) ∧
      (∀ r k v, ck = true → verdict = .fix r k v → ∃ t f, exec (.checksumCompare n) s = .next t ∧ t = { s with
          cores := t.cores, now := t.now, capLog := t.capLog, mem := t.mem, memUe := t.memUe, memCe := t.memCe, cacheErr := t.cacheErr } ∧
        Claims.ringsOnly s t ∧ (∀ m, m ≠ n → t.core m = s.core m) ∧ (t.core n).arch = c.arch ∧ (∀ r k, (t.core n).cell r k = c.cell r k) ∧
        (t.core n).cerr = c.cerr + 1 ∧ (t.core n).doom = c.doom ∧ f ∈ (t.core n).flights ∧ f.rgn = x.rgn ∧
        f.evs = [((t.core n).clock, .correct mm r k v)]) ∧
      (ck = true → verdict = .bad → ∃ t d, exec (.checksumCompare n) s = .next t ∧ Claims.ringsOnly s t ∧ (∀ m, m ≠ n → t.core m = s.core m) ∧
        (t.core n).arch = c.arch ∧ (∀ r k, (t.core n).cell r k = c.cell r k) ∧ (t.core n).cerr = c.cerr ∧ (t.core n).doom = some d ∧
        (c.doom = none → d.rgn = x.rgn ∧ d.rep.cls = 2 ∧ d.rep.engine = 2 ∧ d.rep.addr = addr)))

/-- R8, R33 to R36, R46, R71, R82 to R86, R150 to R152, R162, R163, R199, R205, R207, R210 to R213, R222, R328, R353: what lands in a core, and how. -/
def Obligations.Landings : Prop := Claims.ResultsLand ∧ Claims.LatchAndCompare ∧ Claims.CsrWrites

/-- Arrival `w` of core `n` has come, with what it brings in effect `R` on the architectural state: it is no longer awaited, and of its core nothing else
changes but the grants asked for (R40, R42, R46). -/
structure Sys2Proof.Claims.Arrived (s t : State) (n : Nat) (w : Await) (R : Arch → Arch → Prop) : Prop where
  package : t = { s with cores := t.cores, now := t.now, free := t.free }
  others : ∀ m, m ≠ n → t.core m = s.core m
  core : t.core n = { s.core n with
    awaits := (s.core n).awaits.filter (fun y => y.id != w.id), arch := (t.core n).arch, opn := (t.core n).opn, closing := (t.core n).closing
    asked := (t.core n).asked, spad := (t.core n).spad }
  state : Claims.LandsIn (s.core n) (t.core n) w.rgn R
  clock : s.now ≤ t.now ∧ w.since ≤ t.now

/-- A scalar arrival makes the register that awaits it full; an atomic's value that a later atomic has overtaken is lost, and a register that is full already,
since a handler has declared it so, takes any other arrival (R42, R297). -/
def Sys2Proof.Claims.fills (id d : Nat) (atom : Bool) (v : Word) (p : Bool) (a b : Arch) : Prop :=
  b = { a with s := b.s } ∧ ∀ r (hr : r < 32), b.s[r] =
    if r = d ∧ (a.s[r].pend = some id ∨ (a.s[r].pend = none ∧ atom = false)) then ⟨v, p, none⟩ else a.s[r]

/-- R40, R42, R46, R180, R284, R289, R297, R323, R359: GUARDED_ARRIVAL of a load whose bytes are all there, of an atomic's return or of the governor's answer
writes the register that awaits it, which is full from then on, and no other register; an uncorrectable byte poisons it, or its lane of a VLDG, whose
conversions set their flags. A request for no units or no time is answered by 0, one beyond the partition's limit by all ones, one that the package can
grant by the start of its grant, each of them at least 60 cycles after it was made. In trap mode what came for a word before the trap is in the save
area as well. -/
def Sys2Proof.Claims.GuardedArrivals : Prop :=
  ∀ (s : State) (n : Nat) (w : Await), (s.core n).awaits.find? (fun y => y.id = w.id) = some w →
    let c := s.core n
    let limit := match c.step.bind (fun i => s.part? i.part) with | some p => p.params.coreLeaveLimit | none => 0
    let byte (j : Nat) : BitVec 8 × Bool := ((w.bytes.find? (fun y => y.1 = j)).map (·.2)).getD (0, false)
    let val (j k : Nat) : Nat := leVal ((List.range k).map (fun m => (byte (j + m)).1))
    let spoilt (j k : Nat) : Bool := (List.range k).any (fun m => (byte (j + m)).2)
    let arrives (d : Nat) (atom : Bool) (v : Word) (p : Bool) : Prop := ∃ t, exec (.guardedArrival n w.id) s = .next t ∧
      Claims.Arrived s t n w (Claims.fills w.id d atom v p) ∧ (c.trap = none → (t.core n).spad = c.spad) ∧
      (∀ k, c.trap = some k → w.id < k.id0 → ∀ hd : d < 32, c.arch.s[d].pend = some w.id →
        Memory.val (t.core n).spad (k.area + 0x40 + 8 * d) 8 = v.toNat ∧
        (Memory.val (t.core n).spad (k.area + 0x1C0) 8).testBit d = p ∧ (Memory.val (t.core n).spad (k.area + 0x1C8) 8).testBit d = true)
    (∀ d k sg, w.kind = .ldg d k sg → 1 ≤ k → k ≤ 8 → w.need ≤ w.bytes.length →
      arrives d false (if sg then (BitVec.ofNat (8 * k) (val 0 k)).signExtend 64 else BitVec.ofNat 64 (val 0 k)) (spoilt 0 k)) ∧
    (∀ d ty kb kp mz, w.kind = .vldg d ty kb kp mz → w.need ≤ w.bytes.length →
      let lane (l : Nat) : BitVec 32 × Flags := loadLane ty (val (4 * l) (tySize ty))
      ∃ t, ∃ fl : Flags, exec (.guardedArrival n w.id) s = .next t ∧ (c.trap = none → (t.core n).spad = c.spad) ∧
        (∀ k, c.trap = some k → w.id < k.id0 → ∀ hd : d < 32, c.arch.v[d].pend = some w.id →
          (∀ l : Fin 64, Memory.val (t.core n).spad (k.area + 0x200 + 256 * d + 4 * l) 4 = (t.core n).arch.v[d].lanes[l].toNat) ∧
          (Memory.val (t.core n).spad (k.area + 0x3380) 8).testBit d = true) ∧
        (∀ b, fl.getLsbD b = true ↔ ∃ l, l < 64 ∧ kb.getLsbD l = true ∧ (lane l).2.getLsbD b = true) ∧
        Claims.Arrived s t n w (fun a b => b = { a with v := b.v, csr := b.csr } ∧ ∀ r (hr : r < 32),
          if r = d then
            (if a.v[r].pend = some w.id ∨ a.v[r].pend = none then
              b.csr = { a.csr with status := a.csr.status ||| fl.setWidth 64 } ∧ b.v[r].pend = none ∧ ∀ l : Fin 64,
                b.v[r].lanes[l] = (if kb.getLsbD l then (lane l).1 else if mz then 0 else a.v[r].lanes[l]) ∧
                b.v[r].psn.getLsbD l = ((if kb.getLsbD l then spoilt (4 * l) (tySize ty) else !mz && a.v[r].psn.getLsbD l) || kp.getLsbD l)
             else b.v[r] = a.v[r] ∧ b.csr = a.csr)
          else b.v[r] = a.v[r])) ∧
    (∀ d v p, w.kind = .atom d → w.ready = some (v, p) → arrives d true v p) ∧
    (∀ d a b u, w.kind = .ask d a b u → s.askNext w.id = true →
      (a = 0 ∨ b = 0 → arrives d false 0 false) ∧ (a ≠ 0 → b ≠ 0 → limit < a → arrives d false (BitVec.allOnes 64) false) ∧
      (a ≠ 0 → b ≠ 0 → a ≤ limit → s.granted (max s.now (u + 60)) - c.askedUnits (max s.now (u + 60)) + a ≤ s.capacity →
        ∃ st, max s.now (u + 60) ≤ st ∧ arrives d false (BitVec.ofNat 64 st) false ∧
          ∀ t, exec (.guardedArrival n w.id) s = .next t → (a, st, st + b) ∈ (t.core n).asked) ∧
      (∀ t, exec (.guardedArrival n w.id) s = .next t → u + 60 ≤ t.now))

/-- R144, R273, R274, R306, R307, R309, R311: COPY_GRANULE_ARRIVAL of an empty granule all of whose bytes have arrived writes them and sets the granule full;
its uncorrectable bytes leave uncorrectable words, and the last granule frees the slot. COPY_BLOCK_TRANSLATED takes the first block not yet translated: a
TLB that holds its page, or a walk for it that has returned, lets it go on: its reads are sent, or one write is held for each 64-byte line of it, with
under its mask the bytes that the copy brings to the line, of two for one address the later; where neither is there its miss is queued; an address or a
page that does not permit it suspends the copy, with a handle that carries the slot, the reason, the level, the access and the address (R271). -/
def Sys2Proof.Claims.CopyArrivals : Prop :=
  (∀ (s : State) (n slot g : Nat) (x : CopySlot), mget (s.core n).slots slot = some x → mget (s.core n).empties g = some x.id →
    x.ready g = true → (∀ y ∈ x.bytes, ∀ z ∈ x.bytes, y.2.1 = z.2.1 → y = z) →
    ∃ t, exec (.copyGranuleArrival n slot g) s = .next t ∧ t = { s with cores := t.cores } ∧ (∀ m, m ≠ n → t.core m = s.core m) ∧
      t.core n = { s.core n with spad := (t.core n).spad, ue := (t.core n).ue, ce := (t.core n).ce, empties := (t.core n).empties
                                 slots := (t.core n).slots } ∧
      (t.core n).isEmpty g = false ∧ (∀ h, h ≠ g → (t.core n).isEmpty h = (s.core n).isEmpty h) ∧
      (∀ y ∈ x.bytes, y.2.1 / 64 = g → ∃ z, x.got.find? (fun b => b.1 = y.1) = some z ∧ Memory.get (t.core n).spad y.2.1 = z.2.1 ∧
        (z.2.2 = true → y.2.1 / 8 ∈ (t.core n).ue)) ∧
      (∀ a, a / 64 ≠ g → Memory.get (t.core n).spad a = Memory.get (s.core n).spad a) ∧
      (x.todo = [] → (∀ e ∈ (s.core n).empties, e.2 = x.id → e.1 = g) → mget (t.core n).slots slot = none) ∧
      (x.todo ≠ [] ∨ (∃ e ∈ (s.core n).empties, e.2 = x.id ∧ e.1 ≠ g) → (t.core n).slots = (s.core n).slots)) ∧
  (∀ (s : State) (n slot b : Nat) (r : List Nat) (x : CopySlot) (i : StepInfo), mget (s.core n).slots slot = some x → (s.core n).step = some i →
    x.todo = b :: r → x.susp = none →
    let c := s.core n
    let acc := if x.kind = 3 then 0 else 1
    let suspends (reason level : Nat) : Prop := ∃ t, exec (.copyBlockTranslated n slot) s = .next t ∧ t = { s with cores := t.cores } ∧
      (∀ m, m ≠ n → t.core m = s.core m) ∧ t.core n = { c with slots := (t.core n).slots } ∧
      mget (t.core n).slots slot = some { x with susp := some (BitVec.ofNat 64
        (slot * 2 ^ 60 + (reason * 2 ^ 53 + level * 2 ^ 51 + acc * 2 ^ 48 + 4096 * b % 2 ^ 48) % 2 ^ 56)) } ∧
      (∀ j, j ≠ slot → mget (t.core n).slots j = mget c.slots j)
    let ys := x.bytes.filter (fun y => y.2.2 / 4096 = b)
    let goesOn (pa : Nat) : Prop := ∃ t, exec (.copyBlockTranslated n slot) s = .next t ∧ (∀ m, m ≠ n → t.core m = s.core m) ∧
      (t.core n).arch = c.arch ∧ (t.core n).spad = c.spad ∧ (t.core n).empties = c.empties ∧ (t.core n).flights = c.flights ∧
      (∀ j, j ≠ slot → mget (t.core n).slots j = mget c.slots j) ∧
      (x.kind = 3 → (t.core n).held = c.held ∧ ∃ y, mget (t.core n).slots slot = some y ∧ y.todo = r.filter (· != b) ∧ y.susp = none ∧
        y.bytes = x.bytes ∧ ∀ z ∈ x.bytes, z.2.2 / 4096 = b → mget c.empties (z.2.1 / 64) = some x.id → (∀ e ∈ x.got, e.1 ≠ z.1) →
          Claims.comes c t n x.op x.cls false x.id y.got z.1 (pa + z.2.2 % 4096)) ∧
      (x.kind = 4 → Claims.bufferClean c → ∃ l, (t.core n).held.Perm (c.held ++ l) ∧
        l.length = (saddAll [] (ys.map (fun y => y.2.2 / 64))).length ∧
        (∀ y ∈ ys, ∃ e ∈ l, e.rgn = x.rgn ∧ e.op = x.op ∧ e.cls = x.cls ∧ ∃ m bs,
          e.eff = .block x.id (y.2.2 / 64 * 64) (pa + y.2.2 / 64 * 64 % 4096) m bs ∧ bs.length = 64 ∧ ∀ z, z < 64 →
            (m.getLsbD z = true ↔ ∃ q ∈ ys, q.2.2 = y.2.2 / 64 * 64 + z) ∧
            (∀ q ∈ ys, q.2.2 = y.2.2 / 64 * 64 + z → (∀ q' ∈ ys, q'.2.2 = q.2.2 → q'.1 ≤ q.1) → bs[z]? = some (x.src.getD q.1 0))) ∧
        (r.filter (· != b) = [] → mget (t.core n).slots slot = none))
    (2 ^ 48 ≤ 4096 * b → suspends 3 0) ∧
    (4096 * b < 2 ^ 48 →
      (∀ e, s.tlbFind n i.part (4096 * b) = some e →
        (∀ k, permBad e.frame e.leaf acc = some k → suspends k (if k = 7 then 0 else levelOf e.size)) ∧
        (permBad e.frame e.leaf acc = none → goesOn (e.frame + (4096 * b - e.va)))) ∧
      (s.tlbFind n i.part (4096 * b) = none →
        (x.walked ≠ some b → (∀ w ∈ s.walks, w.core = n → w.slot = some x.id → w.gone = true) →
          (s.walks.filter (fun w => !w.taken && bulkheadOf w.core = bulkheadOf n)).length < 64 →
          ∃ t w, exec (.copyBlockTranslated n slot) s = .next t ∧ t.mem = s.mem ∧ t.cores = s.cores ∧ w ∈ t.walks ∧ w.core = n ∧
            w.part = i.part ∧ w.va = 4096 * b ∧ w.acc = acc ∧ w.slot = some x.id) ∧
        (x.walked = some b →
          (∀ k l, s.walk i.part (4096 * b) = .fault k l → suspends k l) ∧
          (∀ frame size low entry level, s.walk i.part (4096 * b) = .leaf frame size low entry level →
            (∀ k, permBad frame low acc = some k → suspends k (if k = 7 then 0 else level)) ∧ (permBad frame low acc = none → goesOn (frame + 4096 * b % size)))))))

/-- R264, R267, R272 to R274, R278, R280, R284, R404: TRANSLATION_RETURN ends its walk, 60 cycles after its miss or later: where no pointer that the walkers
hold is stale, a leaf that permits the access is in the TLB of its core, and a fault waits for the word that missed. READ_PERFORM of a request that
nothing earlier holds back reads its line at its home, bytes of an uncorrectable word as such, and by a later event brings the bytes to what awaits
them, each after the core's own earlier writes and reads of the line, and the line to the L1 that takes it. -/
def Sys2Proof.Claims.WalksAndReads : Prop :=
  (∀ (s : State) (w : Walk), s.walks.find? (fun x => x.id = w.id) = some w → w.taken = true → (s.walks.map (·.id)).Nodup →
    s.walkWith (s.cachedPtr w.part) w.part w.va = s.walk w.part w.va →
    ∃ t, exec (.translationReturn w.id) s = .next t ∧ (∀ x ∈ t.walks, x.id ≠ w.id ∧ ∃ y ∈ s.walks, x = { y with taken := x.taken, gone := x.gone }) ∧
      w.at_ + 60 ≤ t.now ∧
      (∀ frame size low entry level, s.walk w.part w.va = .leaf frame size low entry level → permBad frame low w.acc = none → w.slot = none →
        ∃ e ∈ (t.core w.core).tlb, e.part = w.part ∧ e.va = w.va / size * size ∧ e.size = size ∧ e.frame = frame ∧ e.leaf = low ||| 0x10) ∧
      (∀ frame size low entry level k, s.walk w.part w.va = .leaf frame size low entry level → permBad frame low w.acc = some k → w.slot = none →
        w.gone = false → ∃ tval, (w.va, w.acc, 0x0A, tval) ∈ (t.core w.core).walkFaults) ∧
      (∀ k l, s.walk w.part w.va = .fault k l → w.slot = none → w.gone = false → ∃ tval, (w.va, w.acc, 0x09, tval) ∈ (t.core w.core).walkFaults)) ∧
  (∀ (s : State) (r : RdReq), s.reads.find? (fun x => x.id = r.id) = some r → r.done = none → s.readReady r = true →
    ∃ t bytes ps, exec (.readPerform r.id) s = .next t ∧ Claims.ringsOnly s t ∧ (∀ m, t.core m = { s.core m with step := (t.core m).step }) ∧
      t.reads = s.reads.map (fun x => if x.id = r.id then { x with done := some (t.now + homeLat r.core r.line, bytes), patches := ps }
        else if x.core = r.core && x.line = r.line && x.done.isSome then
          { x with patches := x.patches ++ bytes.zipIdx.map (fun b => (r.op, b.2, b.1)) ++ ps } else x) ∧
      s.now ≤ t.now ∧ r.at_ + homeLat r.core r.line ≤ t.now ∧ bytes.length = 64 ∧
      (∀ w, (∀ k, k < 8 → Claims.noRing s (8 * w + k)) → (w ∈ t.memCe ↔ w ∈ s.memCe ∧ (8 * w + 8 ≤ r.line ∨ r.line + 64 ≤ 8 * w))) ∧
      (s.homeLost r.line = false → ∀ k, k < 64 → Claims.noRing s (r.line + k) → bytes[k]? =
        some (Memory.get s.mem (r.line + k), decide ((r.line + k) / 8 ∈ s.memUe))) ∧
      (s.homeLost r.line = true → ∀ b ∈ bytes, b.2 = true)) ∧
  (∀ (s : State) (r : RdReq) (at_ : Nat) (bytes : List (BitVec 8 × Bool)), s.reads.find? (fun x => x.id = r.id) = some r →
    r.done = some (at_, bytes) → (∀ k ∈ r.wants, k.off < bytes.length) →
    let given (k : Want) : BitVec 8 × Bool := match (r.patches.filter (fun p => decide (p.1 < k.op) && p.2.1 == k.off)).getLast? with
      | some p => p.2.2
      | none => bytes.getD k.off (0, true)
    ∃ t, exec (.readPerform r.id) s = .next t ∧ t = { s with cores := t.cores, now := t.now, reads := t.reads } ∧
      t.reads = s.reads.filter (fun x => x.id != r.id) ∧ t.now = max s.now at_ ∧ (∀ m, m ≠ r.core → t.core m = s.core m) ∧
      t.core r.core = { s.core r.core with awaits := (t.core r.core).awaits, slots := (t.core r.core).slots, undo := (t.core r.core).undo
                                           l1 := (t.core r.core).l1 } ∧
      (∀ a ∈ (s.core r.core).awaits, ∃ b ∈ (t.core r.core).awaits, b = { a with bytes := b.bytes } ∧ (∀ y ∈ a.bytes, y ∈ b.bytes) ∧
        ∀ k ∈ r.wants, k.tag = a.id → (k.idx, given k) ∈ b.bytes) ∧
      (∀ a ∈ (s.core r.core).slots, ∃ b ∈ (t.core r.core).slots, b.1 = a.1 ∧ b.2 = { a.2 with got := b.2.got } ∧ (∀ y ∈ a.2.got, y ∈ b.2.got) ∧
        ∀ k ∈ r.wants, k.tag = a.2.id → (k.idx, given k) ∈ b.2.got) ∧
      (r.fill = 0 → (t.core r.core).l1 = (s.core r.core).l1) ∧
      (r.fill = 1 → (∀ b ∈ bytes, b.2 = false) → (∀ p ∈ r.patches, p.2.2.2 = false) → ∃ l ∈ (t.core r.core).l1, l.pa = r.line))

/-- R40, R42, R46, R144, R180, R264, R267, R272 to R274, R278, R280, R284, R289, R297, R306, R307, R309, R311, R323, R359, R404: what comes to a core from
outside. -/
def Obligations.Arrivals : Prop := Claims.GuardedArrivals ∧ Claims.CopyArrivals ∧ Claims.WalksAndReads

/-! ### What performs at homes and what is delivered (R263, R267, R277 to R279, R282, R290, R291, R295, R296, R299, R315, R317, R319, R338, R343, R398, R399) -/

/-- A released effect that performed is gone, nothing has come to the released effects, the clock stands no earlier than its arrival, and of the cores
nothing has changed but what their steps report, and what awaits them where a return may come. -/
structure Sys2Proof.Claims.Performed (s t : State) (r : Rel) (ret : Bool) : Prop where
  gone : ∀ x ∈ t.rels, x ∈ s.rels ∧ x.id ≠ r.id
  clock : t.now = max s.now r.from
  reads : t.reads = s.reads
  cores : ∀ m, (t.core m) = { s.core m with step := (t.core m).step, awaits := if ret then (t.core m).awaits else (s.core m).awaits }

/-- What a write of `n` bytes at `pa` with commit-buffer errors `bad` does to the errors of memory outside capture rings: a word written whole loses what it
had, and a word that the write touches is uncorrectable where its entry was (R263, R267). -/
def Sys2Proof.Claims.written (s t : State) (pa n : Nat) (bad : List Nat) : Prop :=
  ∀ w, (w ∈ t.memUe → w ∈ s.memUe ∨ (w < pa / 64 * 8 + 8 ∧ ∃ b ∈ bad, w = b + pa / 64 * 8)) ∧
    (pa ≤ 8 * w → 8 * w + 8 ≤ pa + n → (∀ b ∈ bad, w ≠ b + pa / 64 * 8) → w ∉ t.memUe) ∧
    (8 * w + 8 ≤ pa ∨ pa + n ≤ 8 * w → (∀ k, k < 8 → Claims.noRing s (8 * w + k)) → (w ∈ t.memUe ↔ w ∈ s.memUe))

/-- R263, R267, R278, R279, R282, R343: WRITE_PERFORM of a held write, or of a block of a copy, that no order holds back and whose home is there, stores its
bytes, for a block those under its byte mask, and no other byte of memory changes; one whose home is lost is gone without effect on memory. -/
def Sys2Proof.Claims.WritesPerform : Prop :=
  ∀ (s : State) (r : Rel), s.rels.find? (fun x => x.id = r.id) = some r → s.relReady r = true →
    (∀ va pa bs, r.eff = .write va pa bs →
      (s.homeLost pa = false → (∀ b ∈ r.bad, b < 8) → ∃ t, exec (.writePerform r.id) s = .next t ∧ Claims.Performed s t r false ∧
        Claims.written s t pa bs.length r.bad ∧
        (∀ k, k < bs.length → Memory.get t.mem (pa + k) = bs.getD k 0) ∧
        (∀ a, a < pa ∨ pa + bs.length ≤ a → Claims.noRing s a → Memory.get t.mem a = Memory.get s.mem a)) ∧
      (s.homeLost pa = true → ∃ t, exec (.writePerform r.id) s = .next t ∧ Claims.Performed s t r false ∧ Claims.ringsOnly s t)) ∧
    (∀ slot va pa m bs, r.eff = .block slot va pa m bs → bs.length = 64 →
      (s.homeLost pa = false → ∃ t, exec (.writePerform r.id) s = .next t ∧ Claims.Performed s t r false ∧
        (∀ k, k < 64 → Claims.noRing s (pa + k) → Memory.get t.mem (pa + k) = if m.getLsbD k then bs.getD k 0 else Memory.get s.mem (pa + k)) ∧
        (∀ a, a < pa ∨ pa + 64 ≤ a → Claims.noRing s a → Memory.get t.mem a = Memory.get s.mem a)) ∧
      (s.homeLost pa = true → ∃ t, exec (.writePerform r.id) s = .next t ∧ Claims.Performed s t r false ∧ Claims.ringsOnly s t))

/-- The value that an atomic leaves in place of `old` (R295), on operands b and d_old of `n` bits. -/
def Sys2Proof.Claims.atomicValue (op : AtomOp) (n old b d : Nat) : Nat :=
  let less (x y : Nat) : Prop := (BitVec.ofNat n x).toInt < (BitVec.ofNat n y).toInt
  match op with
  | .add => old + b
  | .min => if less b old then b else old
  | .max => if less old b then b else old
  | .and => (BitVec.ofNat n old &&& BitVec.ofNat n b).toNat
  | .or => (BitVec.ofNat n old ||| BitVec.ofNat n b).toNat
  | .xchg => b
  | .cas => if old = d then b else old
  | .fadd => (fAdd fp32 ⟨0, 0⟩ (FV.ofBits fp32 old) (FV.ofBits fp32 b)).1

/-- What was there is on its way to the arrival `tok` of core `n`, with its poison (R297). -/
def Sys2Proof.Claims.returned (s t : State) (n tok : Nat) (v : Word) (p : Bool) : Prop :=
  ∀ w ∈ (s.core n).awaits, w.id = tok → ∃ y ∈ (t.core n).awaits, y = { w with ready := some (v, p), since := y.since }

/-- R267, R295 to R299, R338, R343, R403: ATOMIC_PERFORM of an atomic that nothing holds back replaces the 4 or 8 bytes at its address by the value that its
operation makes of them, changes no other byte, and sends the value that was there, poisoned where its word was uncorrectable, to the arrival that waits
for it. In the host window its first event only reads, and a later one writes. One whose home is lost returns poison. The return takes
the place in its step's log that the release gave it. -/
def Sys2Proof.Claims.AtomicsPerform : Prop :=
  ∀ (s : State) (r : Rel) (op : AtomOp) (wide : Bool) (code va pa : Nat) (b dold : Word) (d : Option Nat) (tok : Nat),
    s.rels.find? (fun x => x.id = r.id) = some r → s.relReady r = true → r.eff = .atomic op wide code va pa b dold d tok →
    (wide = false → b.toNat < 2 ^ 32 ∧ dold.toNat < 2 ^ 32) → (op = .fadd → wide = false) →
    let n := if wide then 8 else 4
    (∀ k, k < n → Claims.noRing s (pa + k)) → (∀ k, k < 8 → Claims.noRing s (pa / 8 * 8 + k)) →
    let found : Word × Bool := (BitVec.ofNat 64 (Memory.val s.mem pa n), s.memUe.contains (pa / 8))
    (s.homeLost pa = true → ∃ t, exec (.atomicPerform r.id) s = .next t ∧ Claims.Performed s t r true ∧ Claims.ringsOnly s t ∧
      Claims.returned s t r.core tok 0 true) ∧
    (s.homeLost pa = false → windowOf pa = 4 → r.old = none → ∃ t, exec (.atomicPerform r.id) s = .next t ∧ Claims.ringsOnly s t ∧
      t.rels = s.rels.map (fun x => if x.id = r.id then { x with old := some found } else x) ∧ t.now = max s.now r.from ∧
      ∀ m, t.core m = { s.core m with step := (t.core m).step }) ∧
    (s.homeLost pa = false → windowOf pa ≠ 4 ∨ r.old.isSome = true → (∀ y ∈ r.old, wide = false → y.1.toNat < 2 ^ 32) →
      let old := r.old.getD found
      ∃ t, exec (.atomicPerform r.id) s = .next t ∧ Claims.Performed s t r true ∧
        Memory.val t.mem pa n = Claims.atomicValue op (8 * n) old.1.toNat b.toNat dold.toNat % 2 ^ (8 * n) ∧
        (∀ a, a < pa ∨ pa + n ≤ a → Claims.noRing s a → Memory.get t.mem a = Memory.get s.mem a) ∧
        Claims.returned s t r.core tok old.1 old.2 ∧
        (∀ m i, d.isSome = true → (s.core m).step = some i →
          ∃ j, (t.core m).step = some j ∧ j.log = i.log.map (fun x => if x.1 = tok then (tok, old) else x)))

/-- R291, R343: GLOBAL_ADDITION_PERFORM of the additions of one word makes them in ascending lane order, each on 4 bytes: modulo 2^32, or in FP32 under its
mode. Each address whose home is there takes the additions that go there, in that order, and no other byte changes. -/
def Sys2Proof.Claims.AdditionsPerform : Prop :=
  ∀ (s : State) (r : Rel) (ls : List (Nat × Nat × BitVec 32 × Nat)) (mode : Option Nat),
    s.rels.find? (fun x => x.id = r.id) = some r → s.relReady r = true → r.eff = .adds ls mode →
    (∀ x ∈ ls, ∀ y ∈ ls, x.2.1 = y.2.1 ∨ x.2.1 + 4 ≤ y.2.1 ∨ y.2.1 + 4 ≤ x.2.1) → (∀ x ∈ ls, ∀ k, k < 4 → Claims.noRing s (x.2.1 + k)) →
    ∃ t, exec (.globalAdditionPerform r.id) s = .next t ∧ Claims.Performed s t r false ∧
      (∀ x ∈ ls, Memory.val t.mem x.2.1 4 = (ls.filter (fun y => y.2.1 = x.2.1 && !s.homeLost x.2.1)).foldl (fun old y => (match mode with
          | none => old + y.2.2.1.toNat
          | some m => (fAdd fp32 ⟨m, y.2.2.2⟩ (FV.ofBits fp32 old) (FV.ofBits fp32 y.2.2.1.toNat)).1) % 2 ^ 32) (Memory.val s.mem x.2.1 4)) ∧
      (∀ a, (∀ x ∈ ls, a < x.2.1 ∨ x.2.1 + 4 ≤ a) → Claims.noRing s a → Memory.get t.mem a = Memory.get s.mem a)

/-- R277, R278, R343: HOST_LINK_WRITE_COMPLETION ends the wait for one write to the host window and changes nothing else but the orders that waited for it;
HOST_REQUESTER_ACCESS writes the bytes of a write and no others, a read changes neither memory nor a core, and an access to a lost home does
nothing. -/
def Sys2Proof.Claims.HostLink : Prop :=
  (∀ (s : State) (x : Nat × Nat × Nat × Nat), x ∈ s.hostWrites →
    ∃ t, exec (.hostLinkWriteCompletion x.1) s = .next t ∧ t = { s with hostWrites := t.hostWrites, orders := t.orders } ∧
      t.hostWrites = s.hostWrites.filter (fun y => y.1 != x.1) ∧ ∀ o ∈ t.orders, o ∈ s.orders) ∧
  (∀ (s : State) (pa n : Nat),
    (s.homeLost pa = true → ∀ wr, exec (.hostRequesterAccess pa n wr) s = .next s) ∧
    (s.homeLost pa = false → ∃ t, exec (.hostRequesterAccess pa n none) s = .next t ∧ t.mem = s.mem ∧ t.cores = s.cores ∧ t.rels = s.rels ∧
      t.reads = s.reads ∧ t.memUe = s.memUe ∧ ∀ w, w ∈ t.memCe ↔ w ∈ s.memCe ∧ (8 * w + 8 ≤ pa ∨ pa + n ≤ 8 * w)) ∧
    (∀ bs, s.homeLost pa = false → ∃ t, exec (.hostRequesterAccess pa n (some bs)) s = .next t ∧ t.cores = s.cores ∧ t.rels = s.rels ∧
      t.reads = s.reads ∧ Claims.written s t pa bs.length [] ∧
      (∀ k, k < bs.length → Memory.get t.mem (pa + k) = bs.getD k 0) ∧
      (∀ a, a < pa ∨ pa + bs.length ≤ a → Memory.get t.mem a = Memory.get s.mem a)))

/-- A delivery is done: it is gone, nothing has come to what is released, memory stays but for capture rings, and of the cores at most core `m` has
changed. -/
structure Sys2Proof.Claims.Delivered (s t : State) (r : Rel) (m : Nat) : Prop where
  gone : ∀ x ∈ t.rels, x ∈ s.rels ∧ x.id ≠ r.id
  clock : t.now = max s.now r.from
  mem : Claims.ringsOnly s t ∧ t.reads = s.reads
  others : ∀ k, k ≠ m → t.core k = s.core k

/-- R315, R317, R319, R368, R379, R398, R399: PIPE_RECORD_ARRIVAL writes the record into the ring of its consumer and then moves the tail counter there;
PIPE_HEAD_ARRIVAL moves the head counter of the producer; WINDOW_DELIVERY writes its block into the core of its window, unless the group there is
suspended, whose granule is full from then on, and counts it. None of them comes before an earlier delivery of the same kind and none changes a register.
What is sent to a step that is gone, or through a window that is closed, is dropped. -/
def Sys2Proof.Claims.Deliveries : Prop :=
  ∀ (s : State) (r : Rel), s.rels.find? (fun x => x.id = r.id) = some r → s.earlierDelivery r = false →
    let peer := s.core r.peer
    (∀ p off bs tail, r.eff = .pipeRec p off bs tail →
      (s.peerHere r = true → ∃ t, exec (.pipeRecordArrival r.id) s = .next t ∧ Claims.Delivered s t r r.peer ∧
        t.core r.peer = { peer with spad := (t.core r.peer).spad, ue := (t.core r.peer).ue, ce := (t.core r.peer).ce, tv := (t.core r.peer).tv } ∧
        (∀ q (hq : q < 8), (t.core r.peer).tv[q] = if q = p then tail else peer.tv[q]) ∧
        (∀ k, k < bs.length → Memory.get (t.core r.peer).spad (4096 * r.ring + off + k) = bs.getD k 0) ∧
        (∀ a, a < 4096 * r.ring + off ∨ 4096 * r.ring + off + bs.length ≤ a →
          Memory.get (t.core r.peer).spad a = Memory.get peer.spad a)) ∧
      (s.peerHere r = false → ∃ t, exec (.pipeRecordArrival r.id) s = .next t ∧ Claims.Delivered s t r r.peer ∧ t.cores = s.cores)) ∧
    (∀ p head, r.eff = .pipeHead p head →
      (s.peerHere r = true → ∃ t, exec (.pipeHeadArrival r.id) s = .next t ∧ Claims.Delivered s t r r.peer ∧
        t.core r.peer = { peer with hv := (t.core r.peer).hv } ∧
        (∀ q (hq : q < 8), (t.core r.peer).hv[q] = if q = p then head else peer.hv[q])) ∧
      (s.peerHere r = false → ∃ t, exec (.pipeHeadArrival r.id) s = .next t ∧ Claims.Delivered s t r r.peer ∧ t.cores = s.cores)) ∧
    (∀ k off bs, r.eff = .window k off bs →
      (s.windows.find? (fun x => x.isOpen && x.bulkhead = bulkheadOf r.core && x.n = k) = none →
        ∃ t, exec (.windowDelivery r.id) s = .next t ∧ Claims.Delivered s t r r.peer ∧ t.cores = s.cores ∧ t.windows = s.windows) ∧
      (∀ w, s.windows.find? (fun x => x.isOpen && x.bulkhead = bulkheadOf r.core && x.n = k) = some w → w.paused = none →
        ((s.core w.tcore).frozen = false ∨ r.at_ ≤ (s.core w.tcore).dt) →
        ∃ t, exec (.windowDelivery r.id) s = .next t ∧ Claims.Delivered s t r w.tcore ∧
          t.core w.tcore = { s.core w.tcore with spad := (t.core w.tcore).spad, ue := (t.core w.tcore).ue, ce := (t.core w.tcore).ce
                                                 empties := (t.core w.tcore).empties } ∧
          (∀ g, (t.core w.tcore).isEmpty g = true ↔ (s.core w.tcore).isEmpty g = true ∧ g ≠ (4096 * w.tbase + off) / 64) ∧
          (∀ j, j < bs.length → Memory.get (t.core w.tcore).spad (4096 * w.tbase + off + j) = bs.getD j 0) ∧
          (∀ a, a < 4096 * w.tbase + off ∨ 4096 * w.tbase + off + bs.length ≤ a →
            Memory.get (t.core w.tcore).spad a = Memory.get (s.core w.tcore).spad a) ∧
          t.windows = s.windows.map (fun x => if x.bulkhead = w.bulkhead ∧ x.n = k then { x with delivered := x.delivered + 1 } else x)))

/-- R263, R267, R277 to R279, R282, R291, R295 to R299, R315, R317, R319, R338, R343, R368, R379, R398, R399, R403: what performs at homes and what is delivered
to cores. -/
def Obligations.PerformsAndDeliveries : Prop :=
  Claims.WritesPerform ∧ Claims.AtomicsPerform ∧ Claims.AdditionsPerform ∧ Claims.HostLink ∧ Claims.Deliveries

/-! ### Regions, replay, deadlines and waits (R28, R39, R44, R47, R103, R129, R207, R258, R330 to R335, R355) -/

/-- The core `c`, which is core `n` of `s` at some cycle and whose step is `i`, can take a trap: it is not in trap mode, it has a handler, and its save
area is aligned, lies in the scratchpad, is clear of the protected ranges, and its overwriting is idempotent (R356). The model's choice is log 40: that
the area must be clear of rings and windows too. -/
abbrev Sys2Proof.Claims.handles (s : State) (n : Nat) (c : Core) (i : StepInfo) : Prop :=
  let a := c.arch.csr.tsave.toNat
  c.trap = none ∧ c.step = some i ∧ c.arch.csr.tvec ≠ 0 ∧ a % 64 = 0 ∧ a + 0x13600 ≤ 0x200000 ∧
    (∀ r ∈ s.protRanges n, r.2 = 0 ∨ r.1 + r.2 ≤ a ∨ a + 0x13600 ≤ r.1) ∧
    ∀ g ∈ c.opn.rset, a / 64 ≤ g → g < a / 64 + 0x4D8 → g ∈ c.opn.wset

/-- The operations that a trap on `c` records: those of the scalar and vector engines that have an event after its cycle, 64 of them at most (R356, R358). -/
abbrev Sys2Proof.Claims.recordedAt (c : Core) : List Flight :=
  (c.flights.filter (fun f => decide (f.kind < 4) && f.evs.any (fun e => decide (c.stream < e.1)))).take 64

/-- Core `n` has taken a trap at its next word, as `c` stood in the cycle of the trap, and the package is as it was (R356, R357). -/
structure Sys2Proof.Claims.Trapped (s t : State) (n : Nat) (c : Core) (cause tval : Word) : Prop where
  package : t = { s with cores := t.cores, now := t.now }
  others : ∀ m, m ≠ n → t.core m = s.core m
  mode : (t.core n).hand = true ∧ (t.core n).pc = c.arch.csr.tvec.toNat ∧ (t.core n).dt = c.dt ∧ (t.core n).stream = c.stream ∧
    (t.core n).base = c.dt + 64 + 8 * (Claims.recordedAt c).length
  causes : (t.core n).tcause = cause ∧ (t.core n).tval = tval ∧ (t.core n).arch.csr = { c.arch.csr with tpc := BitVec.ofNat 64 c.pc }
  kept : (t.core n).arch = { c.arch with csr := (t.core n).arch.csr, loop := {} } ∧ (t.core n).held = c.held ∧ (t.core n).awaits = c.awaits ∧
    (t.core n).slots = c.slots ∧ (t.core n).empties = c.empties ∧ (t.core n).closing = c.closing ∧ (t.core n).opn = { c.opn with wset := (t.core n).opn.wset }
  latched : ∀ f, f ∈ (t.core n).flights ↔ f ∈ c.flights ∧ ∀ r ∈ Claims.recordedAt c, r.id ≠ f.id
  header : let a := c.arch.csr.tsave.toNat
    Memory.val (t.core n).spad a 8 = 1 + 2 ^ 16 * (Claims.recordedAt c).length + 2 ^ 24 * cause.toNat ∧
    Memory.val (t.core n).spad (a + 8) 8 = tval.toNat ∧ Memory.val (t.core n).spad (a + 0x10) 8 = c.pc % 2 ^ 64
  area : let a := c.arch.csr.tsave.toNat
    (∀ g, g ∈ (t.core n).opn.wset ↔ g ∈ c.opn.wset ∨ (a / 64 ≤ g ∧ g < a / 64 + 0x4D8)) ∧
    ∀ x, x < a ∨ a + 0x13600 ≤ x → Memory.get (t.core n).spad x = Memory.get c.spad x

/-- A held effect of core `n` leaves it at the closing: the homes it goes to are there, and the window is open to its step (R44, R343, R393, R398). -/
abbrev Sys2Proof.Claims.goesOut (s : State) (n : Nat) (i : StepInfo) (e : HeldEff) : Prop :=
  match e with
  | .write _ pa _ => s.homeLost pa = false
  | .block _ _ pa _ _ => s.homeLost pa = false
  | .atomic _ _ _ _ pa .. => s.homeLost pa = false
  | .adds ls _ => ls ≠ [] ∧ ∀ x ∈ ls, s.homeLost x.2.1 = false
  | .pipeRec .. => True
  | .pipeHead .. => True
  | .window k .. => ∃ w ∈ s.windows, w.isOpen = true ∧ w.closing = 0 ∧ w.bulkhead = bulkheadOf n ∧ w.n = k ∧ w.wpart = i.part
  | _ => False

/-- The held effects of the oldest closing region of a core (R44). -/
abbrev Sys2Proof.Claims.closingHeld (c : Core) : List Held :=
  c.held.filter (fun h => c.closing.head?.any (fun r => r.id = h.rgn))

/-- The places that the returns of released atomics take in the log of their step, in release order (R338). -/
def Sys2Proof.Claims.returnPlaces (hs : List Held) : List (Nat × Word × Bool) :=
  hs.filterMap (fun h => match h.eff with | .atomic _ _ _ _ _ _ _ (some _) tok => some (tok, 0, true) | _ => none)

/-- R44, R156, R207, R216, R263, R272, R282, R338, R339, R399: REGION_CLOSING closes the oldest closing region of a core, in a coupled quad those of its four
members, in the cycle `T`, the latest of what R156 gives them, in which the region before it had closed: each held effect is released, in issue order and
with the errors of its entry, the rows of the accumulator store that the region wrote become committed, the committed count goes up by one and the digest
takes in the effects; the returns of atomics have their places in the step's log; the granules of windows that the region read are noted. An
uncorrectable entry makes the step report DATA_LOSS. Of memory only D is set, in the leaves of the pages written that held D = 0. Nothing else of the
package changes but counters, the L1 and what the TLBs know of D, and, for a partition in capture mode, the log of what errors the entries held. Shown
for members outside trap mode and suppress mode that have no marked page to wait for and go on after it, and for effects that go to homes,
windows and pipes. -/
def Sys2Proof.Claims.Closing : Prop :=
  ∀ (s : State) (n T : Nat),
    let g := s.gangOf n
    let shut (m : Nat) (r : Region) : Nat := max (max (r.tC.getD 0) (match r.tL with | some t => t + 48 | none => 0)) (s.core m).shut
    let mine (m : Nat) : List Held := Claims.closingHeld (s.core m)
    let at_ (m : Nat) : Core := (s.core m).goTo T
    (∀ m ∈ g, s.ckPage m = none) →
    (∀ m ∈ g, ∃ i, (s.core m).step = some i ∧ i.suppress = none ∧ (s.core m).closing ≠ [] ∧ (s.core m).trap = none ∧ (s.core m).frozen = false ∧
      ((s.core m).ended = false ∨ (s.core m).closing.tail ≠ []) ∧ ∀ h ∈ mine m, Claims.goesOut s m i h.eff) →
    (∀ m ∈ g, ∀ r ∈ (s.core m).closing.head?, shut m r ≤ T) → (∃ m ∈ g, ∃ r ∈ (s.core m).closing.head?, shut m r = T) →
    ∃ t, exec (.regionClosing n) s = .next t ∧ (∀ m, m ∉ g → t.core m = s.core m) ∧
      t = { s with cores := t.cores, now := t.now, windows := t.windows, rels := t.rels, reads := t.reads, mem := t.mem, counters := t.counters
                   launches := t.launches, quadTlb := t.quadTlb, capLog := t.capLog, memUe := t.memUe, memCe := t.memCe, cacheErr := t.cacheErr } ∧
      t.rels.map (fun x => (x.id, x.core, x.eff, x.bad)) =
        s.rels.map (fun x => (x.id, x.core, x.eff, x.bad)) ++ g.flatMap (fun m => (mine m).map (fun h => (h.id, m, h.eff, h.ue))) ∧
      (∀ m ∈ g, ∃ i j, (s.core m).step = some i ∧
        j = { i with closed := i.closed + 1, digest := (mine m).foldl (fun d h => crc64 d (digestOf h.eff)) i.digest, report := j.report
                     log := j.log, unadoptable := j.unadoptable } ∧
        (i.log.length + (Claims.returnPlaces (mine m)).length ≤ 256 →
          j.log = i.log ++ Claims.returnPlaces (mine m) ∧ j.unadoptable = i.unadoptable) ∧
        (256 < i.log.length + (Claims.returnPlaces (mine m)).length → i.log.length ≤ 256 → j.log.length = 256 ∧ j.unadoptable = true) ∧
        (t.core m).held.map (fun h => { h with pages := [] }) =
          ((s.core m).held.filter (fun h => !(s.core m).closing.head?.any (fun r => r.id = h.rgn))).map (fun h => { h with pages := [] }) ∧
        t.core m = { at_ m with
          closing := (s.core m).closing.tail, shut := T, step := some j, l1 := (t.core m).l1, tlb := (t.core m).tlb, held := (t.core m).held
          undo := (s.core m).undo.filter (fun u => !(s.core m).closing.head?.any (fun r => r.id = u.rgn))
          accC := (t.core m).accC, accP := (t.core m).accP, accOwn := (t.core m).accOwn } ∧
        ((∃ h ∈ mine m, h.ue ≠ []) → 0x20 ≤ j.report.cls) ∧
        ((∀ x ∈ (s.core m).accOwn, ∀ y ∈ (s.core m).accOwn, x.1 = y.1 → x = y) → (∀ x ∈ (s.core m).accP, ∀ y ∈ (s.core m).accP, x.1 = y.1 → x = y) →
          ∀ w k, k < 65 → (t.core m).cell w k = (s.core m).cell w k ∧
            (∀ r ∈ (s.core m).closing.head?, (s.core m).owner w = some r.id → (t.core m).owner w = none))) ∧
      ((∀ m ∈ g, ∀ h ∈ mine m, h.ue = [] ∧ h.ce = []) →
        t.launches = s.launches ∧ ∀ m ∈ g, ∀ i j, (s.core m).step = some i → (t.core m).step = some j → j.report = i.report) ∧
      (∀ (x : Nat) (w : Win), s.windows[x]? = some w → ∃ gs, t.windows[x]? = some { w with read := gs } ∧
        ∀ y, y ∈ gs ↔ y ∈ w.read ∨ (w.isOpen = true ∧ w.tcore ∈ g ∧
          ∃ r ∈ (s.core w.tcore).closing.head?, y ∈ r.rset ∧ 64 * w.tbase ≤ y ∧ y < 64 * (w.tbase + w.tlen + 1))) ∧
      (∀ m ∈ g, ∀ h ∈ mine m, ∀ p ∈ h.pages, p.dirty = false → Claims.noRing s p.entryPa →
        Memory.get t.mem p.entryPa = Memory.get s.mem p.entryPa ||| 0x20) ∧
      (∀ a, Claims.noRing s a → (∀ m ∈ g, ∀ h ∈ mine m, ∀ p ∈ h.pages, p.dirty = true ∨ p.entryPa ≠ a) → Memory.get t.mem a = Memory.get s.mem a)

/-- R48, R228, R257, R258, R346, R347: the closing of the last region of a step that has ended, on a core that runs alone and with nothing held, completes the
step: the core is idle, and its launch has one step more done, its device time for the mean of its die, and its counts, and what it is told can be seen 60 cycles later (R381); other launches, memory and what is released
stay. -/
def Sys2Proof.Claims.LastClosing : Prop :=
  ∀ (s : State) (n : Nat) (i : StepInfo) (r : Region),
    let c := s.core n
    let rep := (i.noteLost (i.okClass c.cerr) 0).report
    let ran := (c.goTo (r.closeAt c.shut)).dt - i.started
    c.closing = [r] → c.step = some i → i.coupled = false → i.suppress = none → c.trap = none → c.frozen = false →
    c.ended = true → c.held = [] → i.forked = false →
    ∃ t, exec (.regionClosing n) s = .next t ∧ (∀ m, m ≠ n → t.core m = s.core m) ∧ (t.core n).step = none ∧ (t.core n).spad = c.spad ∧
      (t.core n).awaits = [] ∧ (t.core n).slots = [] ∧ (t.core n).flights = [] ∧
      t = { s with cores := t.cores, now := t.now, windows := t.windows, reads := t.reads, walks := t.walks, launches := t.launches, groups := t.groups
                   ports := t.ports } ∧
      t.launches = s.launches.map (fun l => if l.id = i.launch then
        { l with running := l.running.filter (fun x => x.1 != n), report := l.report.worse rep, done := l.done + (if rep.cls < 0x10 then 1 else 0)
                 ncorr := l.ncorr + c.cerr, nreplay := l.nreplay + i.replays, endAt := max l.endAt ((c.goTo (r.closeAt c.shut)).dt + 60)
                 sums := if dieOf n = 0 then ((l.sums.1.1 + ran, l.sums.1.2 + 1), l.sums.2) else (l.sums.1, (l.sums.2.1 + ran, l.sums.2.2 + 1)) }
        else l)

/-- R325, R330, R331, R334, R355: REGION_ERROR notes that the region is to be replayed, or its core to be retired when the region has been replayed RLIM
times or the core has met more errors within 2^30 cycles than the threshold; of two errors the earlier region counts, and of one region the first that retires
the core, else the first. The step's report notes the error, and a partition in capture mode logs it (R423); nothing else happens in that cycle. -/
def Sys2Proof.Claims.RegionErrors : Prop :=
  ∀ (s : State) (n q engine addr : Nat) (i : StepInfo) (r : Region),
    let c := s.core n
    let full := decide (c.arch.csr.rlim.toNat % 8 ≤ r.rcnt)
    let many := decide (s.threshold < 1 + ((s.errTimes.filter (fun x => decide (x.1 = n) && decide (c.dt < x.2 + 2 ^ 30))).length))
    let rep : Report := ⟨2, 0, engine, 3, n, 3, addr, i.stp, c.dt⟩
    let d : Doom := ⟨q, full || many, c.clock, rep, if full then 0 else 2⟩
    c.step = some i → c.region? q = some r → (∀ o ∈ c.doom, o.why ≠ 3) →
    ∃ t, exec (.regionError n q engine addr) s = .next t ∧ t = { s with
        cores := t.cores, errTimes := t.errTimes, capLog := t.capLog, mem := t.mem, memUe := t.memUe, memCe := t.memCe, cacheErr := t.cacheErr } ∧
      Claims.ringsOnly s t ∧ (∀ m, m ≠ n → t.core m = s.core m) ∧
      (∀ x, x ∈ t.errTimes ↔ x = (n, c.dt) ∨ (x ∈ s.errTimes ∧ (x.1 ≠ n ∨ c.dt < x.2 + 2 ^ 30))) ∧
      t.core n = { c with step := some (i.note rep), doom := (t.core n).doom } ∧
      (c.doom = none → (t.core n).doom = some d) ∧
      (∀ o ∈ c.doom, (q < o.rgn ∨ (q = o.rgn ∧ o.retire = false ∧ d.retire = true) → (t.core n).doom = some d) ∧
        (o.rgn < q ∨ (q = o.rgn ∧ (o.retire = true ∨ d.retire = false)) → (t.core n).doom = some o))

/-- The lineage `l` is reserved by an effect that core `c` holds for region `q` or a later one (R372). -/
abbrev Sys2Proof.Claims.reservedBy (s : State) (c : Core) (q : Nat) (l : Lineage) : Bool :=
  let of_ (tag : Nat) : Bool := match mget s.objs tag with | some o => o.lineage = l.id | none => false
  c.held.any (fun h => decide (q ≤ h.rgn) && (match h.eff with | .resume _ _ tag => of_ tag | .discard _ tag => of_ tag | _ => false))

/-- What is in flight for region `q` of core `c` and later ones has been discarded, in `d` (R47, R310, R332): operations, arrivals but for what the governor
has been asked, held effects, copies, pending rows, and the marks of the rows and engines used. The granules of discarded copies are full
again; every other byte of the scratchpad stays. -/
structure Sys2Proof.Claims.Discarded (c d : Core) (q : Nat) : Prop where
  flights : d.flights = c.flights.filter (fun f => decide (f.rgn < q) && !f.hand)
  held : d.held = c.held.filter (fun h => h.rgn < q)
  awaits : d.awaits = c.awaits.filterMap (fun w => if w.rgn < q then some w else w.orphan)
  slots : (∀ x ∈ d.slots, x ∈ c.slots) ∧ ∀ x ∈ c.slots, x.2.rgn < q → (∀ y ∈ c.slots, y.2.id = x.2.id → y.2.rgn < q) → x ∈ d.slots
  rows : ∀ w, d.owner w = ((c.accOwn.filter (fun x => x.2 < q)).find? (fun x => x.1 = w)).map (·.2)
  spad : ∀ a, (∀ e ∈ c.empties, e.1 = a / 64 → ∀ x ∈ c.slots, x.2.id = e.2 → x.2.rgn < q) → Memory.get d.spad a = Memory.get c.spad a

/-- R46, R47, R216, R330, R331, R332, R372: REPLAY of a region, on a core or on the four of a coupled quad, none of them in trap mode: at the cycle `T` of R330
the region and all later ones are discarded, the state of each member is that of the region's entry snapshot, its stream is back at the region's first word,
and one device cycle after `T` it goes on; the count of replays of the region goes up by one, and SLIP by the distance. Reservations of lineages by
discarded words are undone. Global memory and what is released stay. -/
def Sys2Proof.Claims.Replays : Prop :=
  ∀ (s : State) (n : Nat) (d : Doom),
    let c := s.core n
    let g := s.gangOf n
    let T := max d.found (if c.closing.any (fun x => decide (x.id < d.rgn)) then s.quadLastClose n else c.stream)
    let at_ (m : Nat) : Core := (s.core m).goTo T
    c.doom = some d → d.retire = false → d.why ≠ 3 →
    (∀ m ∈ g, (s.core m).step.isSome = true ∧ (s.core m).trap = none ∧ (∃ r, (s.core m).region? d.rgn = some r ∧ r.snapBad = false) ∧
      (∀ u ∈ (s.core m).undo, u.rgn < d.rgn)) →
    (c.coupled = true → ∀ m ∈ g, (s.core m).offset = c.offset) →
    ∃ t, exec (.replay n) s = .next t ∧ (∀ m, m ∉ g → t.core m = s.core m) ∧
      t = { s with cores := t.cores, now := t.now, free := t.free, orders := t.orders, walks := t.walks, lineages := t.lineages } ∧
      t.orders = s.orders.filter (fun o => !(g.contains o.core && decide (d.rgn ≤ o.rgn))) ∧
      t.lineages = s.lineages.map (fun l => if g.any (fun m => Claims.reservedBy s (s.core m) d.rgn l) then { l with reserved := false } else l) ∧
      ∀ m ∈ g, ∃ i r, (s.core m).step = some i ∧ (s.core m).region? d.rgn = some r ∧
        let x := t.core m
        Claims.Discarded (s.core m) x d.rgn ∧
        x.arch = r.snap ∧ x.pc = r.pc ∧ x.stream = r.openAt ∧ x.base = r.openAt ∧ x.exact_ = false ∧ x.dt = (at_ n).dt + 1 ∧
        x.slip = (s.core m).slip + BitVec.ofNat 64 ((at_ n).dt + 1 - (at_ m).dt + (at_ m).stream - r.openAt) ∧
        x.opn = { id := d.rgn, openAt := r.openAt, pc := r.pc, base := r.openAt, snap := r.snap, rcnt := r.rcnt + 1 } ∧
        x.closing = (s.core m).closing.filter (fun y => y.id < d.rgn) ∧ x.ended = false ∧ x.doom = none ∧
        x.step = some { i with replays := i.replays + 1 } ∧ x.cerr = (s.core m).cerr ∧ x.tcause = (s.core m).tcause ∧ x.tval = (s.core m).tval

/-- R334, R335, R336, R337, R347, R354, R355, R400: where the core, which runs alone, is to be retired it is: it is in the list of retired cores for good, it is
idle, its stores are lost, its step is to run again elsewhere with what adoption needs, up to its committed count and digest in suppress mode, the windows
into it are closed, and the event log has an entry with the error, the step and the reason. -/
def Sys2Proof.Claims.Retirements : Prop :=
  ∀ (s : State) (n : Nat) (i : StepInfo) (d : Doom),
    let c := s.core n
    c.doom = some d → d.retire = true → d.why ≠ 3 → c.step = some i → i.coupled = false → i.gang = false → c.trap = none →
    (∀ r, c.region? d.rgn = some r → r.snapBad = false) → (∀ r ∈ c.closing, d.rgn ≤ r.id) → i.unadoptable = false → i.suppress = none →
    (∃ l ∈ s.launches, l.id = i.launch) →
    ∃ t, exec (.replay n) s = .next t ∧ (∀ m, m ≠ n → t.core m = s.core m) ∧
      t = { s with cores := t.cores, now := t.now, free := t.free, orders := t.orders, walks := t.walks, lineages := t.lineages, reads := t.reads
                   retired := t.retired, evlog := t.evlog, windows := t.windows, rels := t.rels, launches := t.launches, groups := t.groups } ∧
      (∀ m, m ∈ t.retired ↔ m = n ∨ m ∈ s.retired) ∧
      (t.core n).step = none ∧ (t.core n).held = [] ∧ (t.core n).flights = [] ∧ (t.core n).awaits = [] ∧ (t.core n).slots = [] ∧
      (t.core n).spad = [] ∧ (t.core n).accC = [] ∧ (t.core n).accP = [] ∧
      t.evlog = s.evlog ++ [⟨0, n, d.rep.engine, d.rep.addr, d.rep.time, i.stepid, d.why⟩] ∧
      (∀ w ∈ t.windows, w.tcore = n → w.isOpen = false) ∧ (∀ x ∈ t.rels, x ∈ s.rels) ∧
      t.launches = s.launches.map (fun l => if l.id = i.launch then
        let y : Launch := { l with
          nretire := l.nretire + 1
          redo := l.redo ++ [⟨{ i with suppress := if i.closed = 0 then none else some (i.closed, i.digest), closed := 0, digest := 0, logAt := 0
                                       replays := 0, deadlined := false, adopted := true
                                       lost := if i.adopted then i.lost else { d.rep with step := i.stp } }, false, n, none⟩] }
        if i.forked then y
        else { y with running := l.running.filter (fun x => x.1 != n), ncorr := l.ncorr + c.cerr, nreplay := l.nreplay + i.replays }
        else l)

/-- The step `i` of core `n` has ended with class DEADLINE (R258): the core is idle with nothing in flight or held, memory and what is released stay, and its
launch, whose other steps have reported nothing worse and in which it was alone, reports the class. -/
structure Sys2Proof.Claims.EndedLate (s t : State) (n : Nat) (i : StepInfo) : Prop where
  core : (t.core n).step = none ∧ (t.core n).held = [] ∧ (t.core n).flights = [] ∧ (t.core n).closing = [] ∧ (t.core n).awaits = [] ∧
    (t.core n).slots = [] ∧ (t.core n).spad = (s.core n).spad
  package : t.mem = s.mem ∧ t.rels = s.rels
  report : i.forked = false → i.report.cls < 0x11 → (∀ x ∈ s.cores, x.1 ≠ n → ∀ j, x.2.step = some j → j.launch ≠ i.launch) →
    ∀ l ∈ s.launches, l.id = i.launch → l.report.cls < 0x11 → ∃ k ∈ t.launches, k.id = l.id ∧ k.report.cls = 0x11 ∧ k.done = l.done

/-- R39, R258: DEADLINE faults with DEADLINE (0x0B) and TVAL = DLINE at the first device cycle in which DLINE has passed and the next word would issue: the trap
is taken where there is a handler, and is not raised again in that step; the step ends with class DEADLINE where TVEC is 0. DEADLINE_END ends the step with
that class, no earlier than 65,536 cycles after DLINE. -/
def Sys2Proof.Claims.Deadlines : Prop :=
  (∀ (s : State) (n : Nat) (i : StepInfo) (u : Nat),
    let c := s.core n
    c.step = some i → c.deadlineAt = some u →
    i.dline ≤ u ∧
    (Claims.handles s n c i → ∃ t, exec (.deadline n) s = .next t ∧
      Claims.Trapped s t n { c with stream := c.stream + (u - c.dt), dt := max c.dt u, until? := none } 0x0B (BitVec.ofNat 64 i.dline) ∧
      (t.core n).step = some { i with deadlined := true }) ∧
    (c.arch.csr.tvec = 0 → ∃ t, exec (.deadline n) s = .next t ∧ Claims.EndedLate s t n i)) ∧
  (∀ (s : State) (n : Nat) (i : StepInfo), (s.core n).step = some i →
    ∃ t, exec (.deadlineEnd n) s = .next t ∧ Claims.EndedLate s t n i ∧ t.now = max s.now (max (s.core n).dt (i.dline + 65536)))

/-- R39, R129, R215, R256, R373: DEVICE_TIME_REACHED ends the wait of a core: its device time is the time it waits for, or DLINE where that comes first and
can still be raised, and the members of its coupled quad that are not in trap mode go on with it; the wait counts as
slip outside trap mode, and a REALIGN that then issues clears SLIP; an answer whose time has come is there, and a REALIGN that was not in time is late. -/
def Sys2Proof.Claims.WaitsEnd : Prop :=
  ∀ (s : State) (n : Nat) (i : StepInfo) (u : Until),
    let c := s.core n
    let end_ := max c.dt (if c.hand || i.deadlined then u.time else min u.time i.dline)
    let g := if c.hand then [n] else (s.gangOf n).filter (fun m => !(s.core m).hand)
    let rest : Option Until := if (u.realign && decide (u.time < end_)) || (u.check && decide (u.time ≤ end_)) then some { u with past := true } else none
    c.step = some i → c.until? = some u → u.past = false →
    ∃ t, exec (.deviceTimeReached n) s = .next t ∧ t = { s with cores := t.cores, now := max s.now end_ } ∧ (∀ m, m ∉ g → t.core m = s.core m) ∧
      t.core n = { c with
        dt := end_, slip := if c.hand then c.slip else c.slip + BitVec.ofNat 64 (end_ - c.dt)
        floor := if c.hand then max c.floor end_ else c.floor, until? := rest } ∧
      ∀ m ∈ g, m ≠ n → t.core m = { s.core m with
        dt := (s.core m).dt + (end_ - c.dt)
        slip := if c.hand then (s.core m).slip else (s.core m).slip + BitVec.ofNat 64 (end_ - c.dt)
        until? := if u.realign && (s.core m).until?.any (fun x => x.realign && x.time = u.time) then rest else (s.core m).until? }

/-- R28, R103, R104, R108: the next word, of an opcode that is unassigned under the step's decode table, takes the trap ILLEGAL_OPCODE (0x01) in its issue cycle,
with the word's address in the upper half of TVAL, bit 31 clear and the opcode from bit 8 on; without a handler the step ends. -/
def Sys2Proof.Claims.Unassigned : Prop :=
  ∀ (s : State) (n op : Nat) (i : StepInfo),
    let c := (s.core n).goTo ((s.core n).issueAt (s.core n).nextIdle)
    (s.core n).ended = false → (s.core n).owe = none → (s.core n).decodeAt (s.core n).pc = .unassigned op → c.pc < 2 ^ 32 → op < 2 ^ 10 →
    (Claims.handles s n c i →
      ∃ t, exec (.unassignedOpcode n) s = .next t ∧ Claims.Trapped s t n c 0x01 (BitVec.ofNat 64 (c.pc * 2 ^ 32 + op * 2 ^ 8))) ∧
    (c.step = some i → c.trap.isSome = true ∨ c.arch.csr.tvec = 0 →
      ∃ t, exec (.unassignedOpcode n) s = .next t ∧ (t.core n).step = none ∧ t.mem = s.mem ∧ t.rels = s.rels)

/-- R28, R39, R44, R46 to R48, R103, R104, R108, R129, R156, R207, R215, R216, R256 to R258, R263, R282, R325, R330 to R337, R339, R346, R347, R354, R355, R372,
R373, R399, R400: how regions close, are replayed or end with their core, and what comes at a device time. -/
def Obligations.RegionAndTimeEvents : Prop :=
  Claims.Closing ∧ Claims.LastClosing ∧ Claims.RegionErrors ∧ Claims.Replays ∧ Claims.Retirements ∧ Claims.Deadlines ∧ Claims.WaitsEnd ∧ Claims.Unassigned

/-! ### Launches (R228 to R257, R324, R336, R337, R341, R364 to R366, R381, R383, R386, R410 to R412) -/

/-- A read by the control die has set at most A bits of table entries in memory (R272). -/
abbrev Sys2Proof.Claims.onlyMarks (s t : State) : Prop :=
  ∀ a, Memory.get t.mem a = Memory.get s.mem a ∨ Memory.get t.mem a = Memory.get s.mem a ||| 0x10

/-- No atomic has read the host window and not written it yet: an access of the control die does not have to wait for one (R299). -/
abbrev Sys2Proof.Claims.atomicsWhole (s : State) : Prop := ∀ x ∈ s.rels, x.old = none

/-- The completion record of a submission of queue `x` with the error block of a report and its counts has been written at the tail of the completion ring,
which has moved on, and the submission's reservation is released (R347, R410 to R412). -/
structure Sys2Proof.Claims.Completed (t : State) (x : Queue) (serial typ steps : Nat) (tag : Word) (r : Report) : Prop where
  queue : ∃ y, t.queue? x.id = some y ∧ y = { x with
    cqtail := (x.cqtail + 64) % (2 * 2 ^ (12 + x.cqsz)), lost := false, reserved := x.reserved - 1, pending := x.pending - 1
    lastSerial := serial, msixCount := if x.msix then x.msixCount + 1 else x.msixCount }
  record : let a := hostPa (x.cqbase.toNat + x.cqtail % 2 ^ (12 + x.cqsz))
    Memory.val t.mem a 8 = 64 + 2 ^ 24 + (if x.lost then 2 ^ 28 else 0) + serial % 2 ^ 32 * 2 ^ 32 ∧ Memory.val t.mem (a + 8) 8 = tag.toNat ∧
    Memory.val t.mem (a + 16) 8 = (x.id + typ * 2 ^ 16 + steps * 2 ^ 32) % 2 ^ 64
  block : let a := hostPa (x.cqbase.toNat + x.cqtail % 2 ^ (12 + x.cqsz)) + 32
    r.cls < 256 → r.engine < 16 → r.level < 4 → r.addrk < 256 → r.cause < 256 → r.step < 2 ^ 32 → r.cls ≠ 0 →
    Memory.val t.mem a 1 = r.cls ∧ Memory.val t.mem (a + 7) 1 / 16 = r.engine ∧ Memory.val t.mem (a + 10) 1 = r.addrk ∧
    Memory.val t.mem (a + 11) 1 = r.cause ∧ Memory.val t.mem (a + 12) 4 = r.step ∧ Memory.val t.mem (a + 16) 8 = r.addr % 2 ^ 64

/-- R236, R244 to R248, R272, R352, R410, R418: LAUNCH_ADMISSION of the launch at the head of its partition's queue, whose record has been read and whose rectangle
fits, reads the code image, which sets A bits only, and lets the launch run on that rectangle, or ends it with class SECURITY (0x30) where its partition is
locked and its manifest does not match; of a launch that no rectangle of its partition could ever hold it
ends the launch with class REFUSED (0x13), and of a launch from a host queue whose record fails the checks of R236, among them a type other than 1,
no role or more than four, and no cycle of budget, with PROGRAM_FAULT and cause INVALID_RECORD (0x16): no step runs, and the queue gets the completion
record. Shown for memory without single-bit errors and no atomic half done. What the control die has heard of the freed cores counts for the dispatch
(log 31). -/
def Sys2Proof.Claims.Admissions : Prop :=
  (∀ (s : State) (p : Partition) (l : Launch) (r : Nat × Nat × Nat × Nat) (code : List Byte),
    s.launch? l.id = some l → s.part? l.part = some p → s.admissible p l = true → l.words.isEmpty = false → l.total ≠ 0 → s.admission p l = .go r →
    s.readVa l.part 3 (torCode l.words) (torCodeLen l.words) = .bytes code → s.memCe = [] →
    (p.bars code l.words = false →
      ∃ t, exec (.launchAdmission l.id) s = .next t ∧ t = { s with mem := t.mem, launches := t.launches, parts := t.parts } ∧ Claims.onlyMarks s t ∧
        t.launches = s.launches.map (fun x => if x.id = l.id then
          { x with phase := 1, rect := some r, code := code, since := max x.since s.freedAt } else x) ∧
        t.parts = s.parts.map (fun q => if q.id = l.part then { q with queue := q.queue.filter (fun k => k != l.id) } else q)) ∧
    (p.bars code l.words = true → Claims.atomicsWhole s → ∀ (serial : Nat) (tag : Word) (quiet : Bool) (x : Queue),
      l.origin = .host x.id serial tag quiet → l.target = none → l.report = {} → l.redo = [] → s.queue? x.id = some x →
      ∃ t, exec (.launchAdmission l.id) s = .next t ∧ t.cores = s.cores ∧ t.launch? l.id = none ∧
        Claims.Completed t x serial 1 l.done tag ⟨0x30, 0, 15, 0, 0, 1, l.tor, 0xFFFFFFFF, s.now⟩)) ∧
  (∀ (s : State) (p : Partition) (l : Launch) (serial : Nat) (tag : Word) (quiet : Bool) (x : Queue),
    s.launch? l.id = some l → s.part? l.part = some p → s.admissible p l = true → l.words.isEmpty = false → l.total ≠ 0 → s.usable p l = [] →
    Claims.atomicsWhole s → l.origin = .host x.id serial tag quiet → l.target = none → l.report = {} → l.redo = [] → s.queue? x.id = some x →
    ∃ t, exec (.launchAdmission l.id) s = .next t ∧ t.cores = s.cores ∧ t.rels = s.rels ∧ t.launch? l.id = none ∧
      Claims.Completed t x serial 1 l.done tag ⟨0x13, 0, 15, 0, 0, 0, 0, 0xFFFFFFFF, s.now⟩) ∧
  (∀ (s : State) (p : Partition) (l : Launch) (bs : List Byte) (serial : Nat) (tag : Word) (quiet : Bool) (x : Queue),
    s.launch? l.id = some l → s.part? l.part = some p → s.admissible p l = true → l.words = [] → p.recs = [] → p.capture = none →
    s.readVa p.id 0 l.tor 256 = .bytes bs → bs.length = 256 → torOk (torWords bs) = false → s.memCe = [] →
    Claims.atomicsWhole s → l.origin = .host x.id serial tag quiet → l.target = none → l.report = {} → l.redo = [] → s.queue? x.id = some x →
    ∃ t, exec (.launchAdmission l.id) s = .next t ∧ t.cores = s.cores ∧ t.rels = s.rels ∧ t.launch? l.id = none ∧
      Claims.Completed t x serial 1 l.done tag ⟨0x10, 0x16, 15, 0, 0, 1, l.tor, 0xFFFFFFFF, s.now⟩) ∧
  ∀ bs : List Byte, bs.getD 0 0 ≠ 1 ∨ (bs.getD 4 0).toNat % 8 = 0 ∨ 4 < (bs.getD 4 0).toNat % 8 ∨ leVal ((bs.drop 16).take 4) = 0 →
    bs.length = 256 → torOk (torWords bs) = false

/-- What the walker gives core `n` at device time `u` for step `stp` of launch `l` in role `r` (R25, R151, R158, R197, R237, R243, R245, R250, R264): the step's
fields, the pc at the entry of its role, every register at its value at dispatch, no operation in flight, nothing held; in the scratchpad the code
image and the preload, what stood in the ranges of open windows, and zero elsewhere. -/
structure Sys2Proof.Claims.Started (s t : State) (l : Launch) (n u stp r : Nat) (i : StepInfo) : Prop where
  step : (t.core n).step = some i ∧ i.launch = l.id ∧ i.part = l.part ∧ i.stp = stp ∧ i.role = r ∧
    i.stepid = BitVec.ofNat 64 (l.serial * 2 ^ 32 + stp) ∧ i.started = u ∧ i.dline = u + torBudget l.words ∧ i.est = torEstimate l.words ∧ i.estAt = u ∧
    i.trp = l.tor ∧ i.idx = torIndex l.words stp
  areas : i.codebase = torBase l.words ∧ i.codelen = torCodeLen l.words ∧ i.sbase = torSbase l.words ∧ i.slim = torSlim l.words ∧ i.dtab = l.dtab
  modes : i.static = torStatic l.words ∧ (i.coupled = true → torCoupled l.words = true) ∧ i.closed = 0 ∧ i.replays = 0 ∧ i.deadlined = false
  place : (t.core n).pc = torBase l.words + 4 * torEntry l.words r ∧ (t.core n).dt = u ∧ (t.core n).dtRef = u ∧ (t.core n).stream = 0 ∧
    (t.core n).slip = 0 ∧ (t.core n).cerr = 0
  scalars : (t.core n).arch.s[31] = ⟨BitVec.ofNat 64 (torSbase l.words), false, none⟩ ∧
    ∀ k (hk : k < 32), k ≠ 31 → (t.core n).arch.s[k] = ⟨0, false, none⟩
  arch : (t.core n).arch = { ({} : Arch) with s := (t.core n).arch.s }
  region : (t.core n).opn = { pc := (t.core n).pc, snap := (t.core n).arch }
  idle : (t.core n).flights = [] ∧ (t.core n).held = [] ∧ (t.core n).awaits = [] ∧ (t.core n).closing = [] ∧ (t.core n).trap = none ∧
    (t.core n).slots = [] ∧ (t.core n).accC = [] ∧ (t.core n).accOwn = [] ∧ (t.core n).l1 = []
  spad : ∀ a, Memory.get (t.core n).spad a =
    if torPreBase l.words ≤ a ∧ a < torPreBase l.words + l.preload.length then l.preload.getD (a - torPreBase l.words) 0
    else if torBase l.words ≤ a ∧ a < torBase l.words + l.code.length then l.code.getD (a - torBase l.words) 0
    else if ∃ w ∈ s.windows, w.isOpen = true ∧ w.tcore = n ∧ 4096 * w.tbase ≤ a ∧ a < 4096 * w.tbase + 4096 * (w.tlen + 1) then
      Memory.get (s.core n).spad a
    else 0

/-- The device time of an order that reaches the cores `ns` for launch `l`: 30 cycles after the present, 60 after the launch's post, and 60 after what the control
die last heard of each core. That R381 makes a request and its answer take 30 cycles each is DEDUCED (log 31). -/
abbrev Sys2Proof.Claims.ordered (s : State) (l : Launch) (ns : List Nat) (u : Nat) : Prop :=
  s.now + 30 ≤ u ∧ l.since + 60 ≤ u ∧ ∀ n ∈ ns, (s.core n).dt = 0 ∨ (s.core n).dt + 60 ≤ u

/-- R214, R237, R240 to R243, R245, R249, R336, R337, R341, R366, R381: STEP_DISPATCH starts the next group of steps that has a place, a step on every core of
each role, or first the killed ones that have one, on a list of its own order the lowest on the first free core; ADOPTION starts steps that their cores lost
again. Steps that run again are in suppress mode up to their committed count and digest, with their log, coupled where their whole quad runs again, and no core
but theirs changes. Where the list of cores is empty, a step is not adoptable, or a quad or gang instance finds no place free, they end NOT_ADOPTABLE. A
killed step goes before one that was never dispatched in the order of log 43, and the cycles are those of log 31. -/
def Sys2Proof.Claims.Dispatches : Prop :=
  (∀ (s : State) (l : Launch) (g j : Nat) (e : List (List Nat)),
    s.launch? l.id = some l → l.phase = 1 → l.redo = [] → s.poolWaits l.id = false → (∀ b ∈ l.bounds.head?, s.dispatchFrom l e < b.at_ + 64) →
    s.nextGroup l (s.instances l) (l.groupCount - l.nextStep / l.per) (l.nextStep / l.per) [] = some (g, j, e) → e.flatten.Nodup →
    ∃ t u, exec (.stepDispatch l.id) s = .next t ∧ Claims.ordered s l e.flatten u ∧ t = { s with cores := t.cores, launches := t.launches } ∧
      (∀ m, m ∉ e.flatten → t.core m = s.core m) ∧
      (∀ r m n, (e.getD r [])[m]? = some n → ∃ i, Claims.Started s t l n u (g * l.per + m) r i ∧ i.inst = j ∧ i.suppress = none ∧ i.adopted = false ∧
        i.coupled = torCoupled l.words ∧ i.log = [] ∧ i.forked = false) ∧
      ∃ k, t.launch? l.id = some k ∧
        k = { l with running := k.running, startAt := k.startAt, nextStep := k.nextStep, ahead := k.ahead, dies := k.dies, taken := k.taken } ∧
        (∀ x, x ∈ k.running ↔ x ∈ l.running ∨ ∃ r m, (e.getD r [])[m]? = some x.1 ∧ x.2 = g * l.per + m) ∧
        (∀ h, (h < k.nextStep / l.per ∨ h ∈ k.ahead) ↔ (h < l.nextStep / l.per ∨ h ∈ l.ahead ∨ h = g))) ∧
  (∀ (s : State) (l : Launch) (rs : List Redo) (j : Nat) (e : List (List Nat)) (kill : Bool),
    let core (r : Redo) : Nat := (e.getD r.info.role []).getD (r.info.stp % l.per) 256
    s.launch? l.id = some l → j = (s.instances l).findIdx (fun y => y == e) → (rs.map core).Nodup →
    (kill = true → l.phase = 1 ∧ l.firstAdopted = none ∧ s.poolWaits l.id = false ∧ (∀ b ∈ l.bounds.head?, s.dispatchFrom l e < b.at_ + 64) ∧
      s.nextKilled l (s.instances l) l.killedGroups [] = .inl (rs, e)) →
    (kill = false → l.firstAdopted = some rs ∧ (∀ r ∈ rs, s.logOpen l.id r.info = false ∧ r.info.unadoptable = false) ∧
      ((s.instances l).filter (fun y => rs.all (fun r => r.mayUse y))).find? (s.instFree l) = some e) →
    ∃ t u, exec (if kill then .stepDispatch l.id else .adoption l.id) s = .next t ∧ Claims.ordered s l e.flatten u ∧
      t = { s with cores := t.cores, launches := t.launches, groups := t.groups } ∧ (∀ m, m ∉ rs.map core → t.core m = s.core m) ∧
      (∀ r ∈ rs, ∃ i, Claims.Started s t l (core r) u r.info.stp r.info.role i ∧ i.inst = j ∧ i.suppress = r.info.suppress ∧ i.log = r.info.log ∧
        i.adopted = r.info.adopted ∧ i.failedOver = r.info.failedOver ∧ i.report = r.info.report ∧ i.forked = r.info.forked ∧
        i.coupled = (torCoupled l.words &&
          decide ((rs.filter (fun q => q.info.role = r.info.role && q.info.stp / 4 = r.info.stp / 4)).length = 4))) ∧
      ∃ k, t.launch? l.id = some k ∧ k = { l with running := k.running, startAt := k.startAt, taken := k.taken, dies := k.dies, redo := l.redo.filter (fun x => !rs.contains x)
                                                  nadopt := l.nadopt + (rs.filter (fun r => !r.kill && !r.info.forked)).length } ∧
        ∀ x, x ∈ k.running ↔ x ∈ l.running ∨ ∃ r ∈ rs, r.info.forked = false ∧ x = (core r, r.info.stp)) ∧
  (∀ (s : State) (l : Launch) (r : Redo) (e : List (List Nat)),
    s.launch? l.id = some l → l.phase = 1 → s.poolWaits l.id = false → (∀ b ∈ l.bounds.head?, s.dispatchFrom l e < b.at_ + 64) →
    torStatic l.words = false → l.share (s.instances l) = none → (s.instances l).find? (s.instFree l) = some e →
    r ∈ l.redo → (∀ q ∈ l.redo, q.kill = true ∧ q.info.forked = false ∧ s.logOpen l.id q.info = false ∧ r.info.stp ≤ q.info.stp ∧
      (q.info.stp = r.info.stp → redoGroup l q = redoGroup l r ∧ q ∈ redoGroup l r)) →
    ((redoGroup l r).map (fun q => (e.getD q.info.role []).getD (q.info.stp % l.per) 256)).Nodup →
    ∃ t, exec (.stepDispatch l.id) s = .next t ∧ ∀ q ∈ redoGroup l r, ∃ i,
      (t.core ((e.getD q.info.role []).getD (q.info.stp % l.per) 256)).step = some i ∧ i.launch = l.id ∧ i.stp = q.info.stp ∧ i.role = q.info.role) ∧
  (∀ (s : State) (l : Launch) (rs : List Redo),
    let es := (s.instances l).filter (fun y => rs.all (fun r => r.mayUse y))
    s.launch? l.id = some l → l.firstAdopted = some rs → (∀ r ∈ rs, s.logOpen l.id r.info = false) →
    es = [] ∨ (∃ r ∈ rs, r.info.unadoptable = true) ∨
      ((torCoupled l.words = true ∨ 2 ≤ torRoles l.words) ∧ ∀ e ∈ es, s.instFree l e = false) →
    ∃ t k, exec (.adoption l.id) s = .next t ∧ t = { s with launches := t.launches, groups := t.groups } ∧ t.launch? l.id = some k ∧
      k.redo = l.redo.filter (fun x => !rs.contains x) ∧ k.done = l.done ∧
      ((∃ r ∈ rs, r.info.forked = false) → (∀ r ∈ rs, r.info.report.cls ≤ 0x22) → l.report.cls ≤ 0x22 → k.report.cls = 0x22))

/-- R228, R253, R254, R257, R324, R347, R383, R410: LAUNCH_COMPLETE of a launch whose steps, children and effects are done ends it: its parent has a child less, and
its status word, where it has one that can be written, holds the class, the cause of a PROGRAM_FAULT and the number of steps; one that cannot be written makes
the parent report it. To a host queue goes its completion record, unless it went well and the submission is quiet. The record's cache entry keeps the means
and the variant. A launch for some of whose steps no core is left reports NOT_ADOPTABLE; that is the model's choice (log 44). VARIANT_CHOICE, for a boundary
that REALIGN has marked, takes the variant of the lowest prediction, the lowest number on a tie; that it is made 34 cycles after the boundary is
log 43. Shown for no atomic half done and, where a parent's status word is written, for memory without single-bit errors. -/
def Sys2Proof.Claims.Completions : Prop :=
  (∀ (s : State) (l : Launch), s.launch? l.id = some l → s.launchDone l = true → Claims.atomicsWhole s →
    let r : Report := if s.stepsLeft l then l.report.worse ⟨0x22, 0, 9, 0, 0, 0, 0, l.nextStep, s.now⟩ else l.report
    (∀ parent step status, l.origin = .device parent step status → s.memCe = [] →
      ∃ t, exec (.launchComplete l.id) s = .next t ∧ t.cores = s.cores ∧ t.rels = s.rels ∧ t.queues = s.queues ∧ t.launch? l.id = none ∧
        (∀ x, s.launch? parent = some x → parent ≠ l.id → ∃ y, t.launch? parent = some y ∧ y.children = x.children - 1 ∧
          (∀ cause, status ≠ 0 → s.dieTrans l.part status 1 = .inr cause → 0x10 ≤ y.report.cls)) ∧
        (status = 0 ∨ (∃ cause, s.dieTrans l.part status 1 = .inr cause) → t.mem = s.mem) ∧
        (∀ pa e, status ≠ 0 → s.dieTrans l.part status 1 = .inl (pa, e) →
          Memory.val t.mem pa 8 = (r.cls + (if r.cls = 0x10 then r.cause * 2 ^ 8 else 0) + l.done * 2 ^ 32) % 2 ^ 64 ∧
          ∀ a, a ≠ e → a < pa ∨ pa + 8 ≤ a → Memory.get t.mem a = Memory.get s.mem a) ∧
        (l.words.isEmpty = false → ∀ p ∈ t.parts, p.id = l.part → ∀ x ∈ p.recs, x.va = l.tor → x.variant = l.variant ∧ x.tau =
          (if l.sums.1.2 = 0 then l.tau.1 else l.sums.1, if l.sums.2.2 = 0 then l.tau.2 else l.sums.2))) ∧
    (∀ (x : Queue) serial tag quiet, l.origin = .host x.id serial tag quiet → s.queue? x.id = some x → r.cls < 256 →
      ∃ t, exec (.launchComplete l.id) s = .next t ∧ t.cores = s.cores ∧ t.rels = s.rels ∧ t.launch? l.id = none ∧
        (quiet = true → r.cls < 0x10 → t.mem = s.mem) ∧
        (quiet = false ∨ 0x10 ≤ r.cls → Claims.Completed t x serial (if l.target.isSome then 2 else 1) l.done tag r))) ∧
  (∀ (s : State) (l : Launch) (bd : Bound) (later : List Bound),
    let es := s.instances l
    let count (d : Nat) : Nat := max 1 (es.filter (fun e => dieOf ((e.headD []).headD 0) = d)).length
    let first (q : Nat) : Nat := (bd.rest * q + 255) / 256
    let cost (v : Nat) : Nat := max (first (torShare l.words v) * bd.tau.1.1 * (bd.tau.2.2 * count 1))
      ((bd.rest - first (torShare l.words v)) * bd.tau.2.1 * (bd.tau.1.2 * count 0))
    s.launch? l.id = some l → l.bounds = bd :: later →
    ∃ t k, exec (.variantChoice l.id) s = .next t ∧ t = { s with now := max s.now (bd.at_ + 34), launches := t.launches } ∧ t.launch? l.id = some k ∧
      k = { l with bounds := later, variant := k.variant } ∧
      ((l.share es).isSome = true → bd.tau.1.2 ≠ 0 → bd.tau.2.2 ≠ 0 → k.variant < torVariants l.words ∧
        ∀ v, v < torVariants l.words → cost k.variant ≤ cost v ∧ (v < k.variant → cost k.variant < cost v)) ∧
      ((l.share es).isSome = false ∨ (bd.tau.1.2 = 0 ∧ bd.tau.2.2 = 0) → k.variant = l.variant))

/-- R364 to R366, R378: PREEMPTION of a launch that may pre-empt takes one token and lends it the cores of its victims; where every running step has at most
t_d cycles left, all of them drain: nothing happens to a core; where every one has more, has run for at most t_k and may run again, their groups are killed, each
core of a victim that is lent and runs alone among them, and no group is captured; where every one has more and has run longer, no core is killed or changed:
they drain, or a group is to be captured into the pool at a slot of it, 64 cycles from now. A partition in capture mode logs what is decided. That every core
of the place is the newcomer's from the decision on is DEDUCED (log 35). TOKEN_REFILL adds one token at its time. -/
def Sys2Proof.Claims.Preemptions : Prop :=
  (∀ (s : State) (l : Launch) (p : Partition),
    let left (i : StepInfo) : Nat := i.est - (s.now - i.estAt)
    let run (i : StepInfo) : Nat := s.now - max i.started i.resumed
    s.launch? l.id = some l → s.part? l.part = some p → s.mayPreempt p l = true → (∀ x ∈ s.launches, x.id = l.id → x = l) →
    ∃ t, exec (.preemption l.id) s = .next t ∧
      t = { s with cores := t.cores, parts := t.parts, launches := t.launches, groups := t.groups, nextId := t.nextId, capLog := t.capLog
                   mem := t.mem, memUe := t.memUe, memCe := t.memCe, cacheErr := t.cacheErr } ∧ Claims.ringsOnly s t ∧
      (∃ q, t.part? p.id = some q ∧ q = { p with tokens := p.tokens - 1, tokenAt := q.tokenAt }) ∧
      (∃ k ∈ t.launches, k.id ≠ l.id ∧ ∃ c, (c, l.id) ∈ k.lent) ∧
      ((∀ m i, (s.core m).step = some i → left i ≤ p.params.td) → t.cores = s.cores ∧ t.groups = s.groups) ∧
      ((∀ m i, (s.core m).step = some i → p.params.td < left i ∧ run i ≤ p.params.tk ∧ i.unadoptable = false) →
        t.groups = s.groups ∧ (∀ m, t.core m = s.core m ∨ ∃ d, t.core m = { s.core m with doom := some d } ∧ d.retire = true ∧ d.why = 3) ∧
        ((∀ m i, (s.core m).step = some i → i.coupled = false ∧ i.gang = false) →
          ∀ k ∈ t.launches, ∀ n i, (n, l.id) ∈ k.lent → (s.core n).step = some i → i.launch = k.id → ∃ d ∈ (t.core n).doom, d.why = 3)) ∧
      ((∀ m i, (s.core m).step = some i → p.params.td < left i ∧ p.params.tk < run i) → t.cores = s.cores ∧
        ∀ g ∈ t.groups, g ∈ s.groups ∨ (g.pool = true ∧ g.phase = 0 ∧ g.f = s.now + 64 ∧ g.opts = 0 ∧
          ∃ k, k < p.params.poolCount ∧ g.addr = p.params.poolBase + k * p.params.poolSlot))) ∧
  (∀ (s : State) (p : Partition), s.part? p.id = some p → p.tokens < p.params.tokenDepth →
    ∃ t, exec (.tokenRefill p.id) s = .next t ∧ t = { s with now := max s.now p.tokenAt, parts := t.parts } ∧
      t.parts = s.parts.map (fun q => if q.id = p.id then { q with tokens := q.tokens + 1, tokenAt := q.tokenAt + q.params.tokenRate } else q))

/-- R236, R386, R399: TIMED_LAUNCH_HOLD fixes the rectangle, a free one if there is one, 2^20 cycles before the launch's device time at the earliest;
TIMED_LAUNCH_START, at that time, starts step 0 on the first core of its rectangle and nothing else, or ends the launch without a step where a core of its
rectangle is not free or is out of service, or where a window's range there meets the record's areas. Shown where the governor can make the launch's allowance;
that it is refused where it cannot is the model's choice (log 44). -/
def Sys2Proof.Claims.TimedLaunches : Prop :=
  (∀ (s : State) (l : Launch) (p : Partition) (x d : Nat),
    s.launch? l.id = some l → s.part? l.part = some p → l.target = some (x, d) → l.phase = 0 → l.hold = false → l.words.isEmpty = false →
    ∃ t k, exec (.timedLaunchHold l.id) s = .next t ∧ t = { s with now := max s.now (d - 2 ^ 20), launches := t.launches } ∧
      t.launch? l.id = some k ∧ k = { l with hold := true, rect := k.rect } ∧ (∀ r, k.rect = some r → r ∈ s.usable p l) ∧
      ((∃ r ∈ s.usable p l, s.rectFree l.id r = true) → ∃ r, k.rect = some r ∧ s.rectFree l.id r = true)) ∧
  (∀ (s : State) (l : Launch) (x d : Nat) (r : Nat × Nat × Nat × Nat),
    s.launch? l.id = some l → l.target = some (x, d) → l.phase = 0 → l.hold = true → l.rect = some r →
    r.1 + r.2.2.1 ≤ 8 → r.2.1 + r.2.2.2 ≤ 32 →
    (∃ t, exec (.timedLaunchStart l.id) s = .next t ∧ t.now = max s.now d ∧
      (∀ n i, (s.core n).step = none → (t.core n).step = some i → i.launch = l.id ∧ i.stp < l.per ∧ i.started = t.now ∧ inRect r n = true) ∧
      ((∃ n, n < 256 ∧ inRect r n = true ∧ ((s.core n).step.isSome = true ∨ s.inService n = false)) → s.memCe = [] → Claims.atomicsWhole s →
        t.launch? l.id = none ∧ t.cores = s.cores)) ∧
    (∀ code, (∀ n, n < 256 → inRect r n = true → (s.core n).step = none ∧ s.inService n = true ∧ s.claimed l.id n = false) →
      s.granted (max s.now d) + l.allowance ≤ s.capacity → s.windowClash l.words r = false → s.memCe = [] →
      s.readVa l.part 3 (torCode l.words) (torCodeLen l.words) = .bytes code → (∀ p ∈ s.part? l.part, p.bars code l.words = false) →
      1 ≤ r.2.2.1 → 1 ≤ r.2.2.2 → l.total ≠ 0 → torCoupled l.words = false → torRoles l.words < 2 → torVariants l.words = 0 →
      l.lent = [] → l.ahead = [] → l.nextStep = 0 →
      ∃ t i, exec (.timedLaunchStart l.id) s = .next t ∧
        Claims.Started s t { l with code := code } (coreAt r.1 r.2.1) (max s.now d) 0 0 i ∧ i.suppress = none ∧
        (∀ m, m ≠ coreAt r.1 r.2.1 → t.core m = s.core m) ∧ t.rels = s.rels ∧ Claims.onlyMarks s t) ∧
    (∀ (q : Queue) serial tag quiet, s.windowClash l.words r = true → s.granted (max s.now d) + l.allowance ≤ s.capacity →
      (∀ n, n < 256 → inRect r n = true → (s.core n).step = none ∧ s.inService n = true) →
      l.origin = .host q.id serial tag quiet → l.report = {} → l.redo = [] → s.queue? q.id = some q → Claims.atomicsWhole s →
      ∃ t, exec (.timedLaunchStart l.id) s = .next t ∧ t.cores = s.cores ∧ t.launch? l.id = none ∧
        Claims.Completed t q serial 2 l.done tag ⟨0x10, 0x16, 15, 0, 0, 1, l.tor, 0xFFFFFFFF, max s.now d⟩))

/-- R228, R236, R237, R240 to R249, R253, R254, R257, R272, R324, R336, R337, R341, R347, R352, R364 to R366, R378, R381, R383, R386, R399, R410 to R412: what the
walker does with launches. The 60 cycles each way of a dispatch and of a post (DEDUCED from R381, log 31), the cycle a + 34 from which a variant takes force (log 43),
what of a killed or adopted step's launch the model settles (logs 35 and 44) are the model's choices, and no rule's: each statement says which. -/
def Obligations.LaunchEvents : Prop :=
  Claims.Admissions ∧ Claims.Dispatches ∧ Claims.Completions ∧ Claims.Preemptions ∧ Claims.TimedLaunches

/-! ### Suspension and restart of groups (R366 to R373, R377, R379) -/

/-- Core `n` and the members of its coupled quad that are not in trap mode are frozen for the capture of group `g` at device cycle `u` (R215, R361, R368,
R377): stream time has run to there, unless a member waits or is in trap mode, where the streams of all stand at that place and the cycles count as slip;
`boundary` tells whether the group is captured between regions. Nothing else changes. -/
structure Sys2Proof.Claims.Frozen (s t : State) (n u : Nat) (g : Group) (boundary : Bool) : Prop where
  package : t = { s with cores := t.cores, now := max s.now u, groups := t.groups }
  others : ∀ m, m ∉ (s.gangOf n).filter (fun m => !(s.core m).hand) → t.core m = s.core m
  core : ∀ m ∈ (s.gangOf n).filter (fun m => !(s.core m).hand), t.core m = { s.core m with
    stream := (t.core m).stream, dt := max (s.core m).dt u, frozen := true
    slip := (s.core m).slip + BitVec.ofNat 64 ((u - (s.core m).dt) - ((t.core m).stream - (s.core m).stream)) }
  runs : (∀ m ∈ s.gangOf n, (s.core m).trap = none ∧ (s.core m).waiting = none) → ∀ m ∈ s.gangOf n,
    (t.core m).stream = (s.core m).stream + (u - (s.core m).dt)
  stands : ∀ x, let stop (m : Nat) : Option Nat := match (s.core m).trap with
      | some k => some k.f
      | none => if (s.core m).waiting.isSome then some (s.core m).stream else none
    (∃ m ∈ s.gangOf n, stop m = some x) → (∀ m ∈ s.gangOf n, ∀ y ∈ stop m, y = x) →
    ∀ m ∈ s.gangOf n, (s.core m).trap = none → (t.core m).stream = max (s.core m).stream x
  group : t.groups = s.groups.map (fun x => if x.id = g.id then
    { x with boundary := x.boundary && boundary && (s.gangOf n).all (fun m => (s.core m).atBoundary) } else x)

/-- R215, R361, R368, R377: SUSPEND_FREEZE freezes a core for the capture of its group at its next issue cycle from F on, or in the wait it is in, or, where
its options say so, at a region boundary. SUSPEND_BOUNDARY_TIMEOUT freezes one that has met no region boundary 65,536 cycles after F, and its group is not at a
boundary. Neither changes a register, the pc, an operation in flight, or memory. -/
def Sys2Proof.Claims.Freezes : Prop :=
  ∀ (s : State) (n : Nat) (g : Group), s.suspOf n = some g →
    let c := s.core n
    (∀ u, c.suspendAt g = some u → g.f ≤ u ∧
      (c.ended = false → c.waiting = none → u ≤ max g.f (c.devAt (c.issueAt c.nextIdle))) ∧
      (c.ended = false → g.opts.getLsbD 31 = true → c.closing = [] ∧ c.pc = c.opn.pc) ∧
      ∃ t, exec (.suspendFreeze n) s = .next t ∧ Claims.Frozen s t n u g (g.opts.getLsbD 31)) ∧
    (c.frozen = false → c.hand = false → c.step.isSome = true → g.opts.getLsbD 31 = true →
      ∃ t, exec (.suspendBoundaryTimeout n) s = .next t ∧ Claims.Frozen s t n (max c.dt (g.f + 65536)) g false)

/-- The `n` bytes at `a` of partition p can be written: each translates for a write, none lies in a table entry that the walks of the first `m` bytes read, and
these walks meet no entry in part (R270, R272). -/
def Sys2Proof.Claims.takesWrites (s : State) (p a n m : Nat) : Prop :=
  ∀ k, k < n → ∃ pa e, s.dieTrans p (a + k) 1 = .inl (pa, e) ∧
    ∀ j, j < m → ∀ y ∈ s.walkPath (fun _ => none) p (a + j), (pa < y.2.1 ∨ y.2.1 + 8 ≤ pa) ∧ (e = y.2.1 ∨ e < y.2.1 ∨ y.2.1 + 8 ≤ e)

/-- R368 to R370, R372, R373, R378, R421, R422, R434: OBJECT_WRITE of a settled group frees its cores. For a group of one core whose live range holds no
uncorrectable word, and every page of whose object translates for a write, its tables being none of what it writes, there is then an object with the core as
it was frozen, under its own lineage or a new one of generation 0 for a step that was dispatched normally, and the launch counts one step suspended and none
running there; a group that pre-emption captured waits to be started again. Where power fails, the object stands at the group's address of the fail
area, and its header begins with the magic number, lineage, generation, time, budget with estimate, and record. Where the first page of the object may not be
written, the step ends with PROGRAM_FAULT, or with DATA_LOSS for an uncorrectable table entry; and where an uncorrectable word is live, with DATA_LOSS.
Shown for memory without single-bit errors and no atomic half done. -/
def Sys2Proof.Claims.ObjectWrites : Prop :=
  (∀ (s : State) (g : Group),
    s.groups.find? (fun x => x.id = g.id && x.phase = 0) = some g → g.cores ≠ [] → (∀ n ∈ g.cores, (s.core n).step.isSome = true) →
    s.objectReady g = true → (∀ n ∈ g.cores, (∀ m ∈ s.gangOf n, m ∈ g.cores) ∧ ∀ m ∈ s.instanceOf n, m ∈ g.cores) →
    s.memCe = [] → Claims.atomicsWhole s →
    ∃ t, exec (.objectWrite g.id) s = .next t ∧ (∀ n ∈ g.cores, (t.core n).step = none) ∧ (∀ m, m ∉ g.cores → t.core m = s.core m) ∧
      (∀ x ∈ t.groups, x.id = g.id → x.phase ≠ 0 ∧ g.pool = true)) ∧
  (∀ (s : State) (g : Group) (n : Nat) (i : StepInfo),
    let c := s.core n
    let new : Nat × List Lineage := match i.lineage with | some l => (l, s.lineages) | none => (s.nextId, s.lineages ++ [⟨s.nextId, 0, none, false, 0, false⟩])
    let gen := match new.2.find? (fun (l : Lineage) => l.id = new.1) with | some l => l.gen | none => 0
    let live (w : Nat) : Bool := decide ((liveRange g.opts).1 ≤ w / 8) && decide (w / 8 < (liveRange g.opts).1 + (liveRange g.opts).2)
    let serial := match s.launch? i.launch with | some l => l.serial | none => 0
    s.groups.find? (fun x => x.id = g.id && x.phase = 0) = some g → g.cores = [n] → c.step = some i → s.objectReady g = true →
    s.memCe = [] → Claims.atomicsWhole s →
    ∃ t, exec (.objectWrite g.id) s = .next t ∧ t.rels = s.rels ∧
      ((∀ w ∈ c.ue, live w = false) →
        (g.pfail = false → i.gang = false → ∀ why, s.dieTrans g.part g.addr 1 = .inr why →
          let cls := match why with | .fault _ => 0x10 | .table _ => 0x20
          t.objs = s.objs ∧ ((t.core n).spad = c.spad) ∧
          (i.forked = false → i.report.cls ≤ cls → ∀ l ∈ s.launches, l.id = i.launch → l.report.cls ≤ cls →
            ∃ k ∈ t.launches, k.id = l.id ∧ k.report.cls = cls)) ∧
        (∃ (o : Obj) (x : Section), o.lineage = new.1 ∧ o.gen = gen ∧ o.part = i.part ∧ o.launch = i.launch ∧ o.tor = i.trp ∧
          o.time = c.dt ∧ o.budget = i.dline - c.dt ∧ o.estimate = i.est - (c.dt - i.estAt) ∧ o.forked = i.forked ∧ o.coupled = i.coupled ∧
          o.mapid = i.dtab.mapid ∧ o.midRegion = !(g.boundary && c.held.isEmpty) ∧
          o.image = Memory.read c.spad i.codebase i.codelen ∧ o.measure = shake256 o.image 64 ∧ o.sections = [x] ∧ x.cid = n ∧
          x.orders = s.orders.filter (fun y => y.core = n) ∧
          x.core = { c with spad := x.core.spad, ue := x.core.ue, ce := x.core.ce, empties := x.core.empties } ∧
          (∀ a, Memory.get x.core.spad a = if live (a / 8) then Memory.get c.spad a else 0) ∧
          let b := objBytes { o with sections := [{ x with core := c }] } g.opts serial
          let tag := leVal ((b.drop 0x1F0).take 16)
          (g.pfail = true ∨ Claims.takesWrites s g.part g.addr b.length b.length) → t.objs = (tag, o) :: s.objs ∧ t.lineages = new.2 ∧
          (g.pool = true → ∃ y ∈ t.groups, y = { g with phase := 1, tag := tag, cores := [] }) ∧
          (∀ w ∈ t.windows, w.isOpen = true → w.tcore = n → w.paused = some new.1) ∧
          ∀ l, s.launch? g.launch = some l → i.forked = false → ∃ k, t.launch? g.launch = some k ∧ k = { l with
            running := l.running.filter (fun x => x.1 != n), suspended := l.suspended + 1 })) ∧
      (g.pfail = true → (∀ w ∈ c.ue, live w = false) → let a := hostPa g.addr
        Memory.val t.mem a 8 = 0x31544E4F435F4E45 ∧ Memory.val t.mem (a + 0x18) 8 = new.1 % 2 ^ 64 ∧ Memory.val t.mem (a + 0x20) 8 = gen % 2 ^ 64 ∧
        Memory.val t.mem (a + 0x28) 8 = c.dt % 2 ^ 64 ∧
        Memory.val t.mem (a + 0x30) 8 = (i.dline - c.dt + (i.est - (c.dt - i.estAt)) * 2 ^ 32) % 2 ^ 64 ∧ Memory.val t.mem (a + 0x38) 8 = i.trp % 2 ^ 64) ∧
      ((∃ w ∈ c.ue, live w = true) → t.objs = s.objs ∧ t.mem = s.mem ∧
        (i.forked = false → i.report.cls ≤ 0x20 → ∀ l ∈ s.launches, l.id = i.launch → l.report.cls ≤ 0x20 →
          ∃ k ∈ t.launches, k.id = l.id ∧ k.report.cls = 0x20)))

/-- R366, R368, R370, R373, R376, R379: GROUP_RESTART of an object of one section, on a free core n, whose code image reads as it was measured, restores the
section: the core goes on where it was, with its registers, 64 cycles and more after the restart as its operations in flight ask, with a deadline of
the remaining budget and those cycles as slip; its launch runs it again, and windows into the group accept blocks again. The pipes of a gang mate that runs
the same step are bound to its new core. A group that no place of its partition could take, or one that has run to its end, ends: its status word, or its
queue's completion record, holds its class and number of steps; the steps of one that could not start report in their launch, which is the model's
choice (log 42), as are the order of the places and the wait of a group of the pool for a RESUME or DISCARD that is held. Shown for leave that is there
(R322, R424), for memory without errors, those that a restart without reads to repeat does not meet apart, and no atomic half done. -/
def Sys2Proof.Claims.Restarts : Prop :=
  (∀ (s : State) (g : Group) (o : Obj) (x : Section) (i : StepInfo) (n : Nat) (tor code : List Byte),
    let v := leVal ((tor.drop 8).take 8)
    let s1 := if g.pool then s.readLeaves (launchPayer o.launch) o.part 0 g.addr (s.objSize o.part g.addr) else s
    let after : State := { s with launches := if o.forked then s.launches else s.launches.map (fun (l : Launch) => if l.id = o.launch then
      { l with suspended := l.suspended - 1, running := l.running ++ [(n, i.stp)] } else l) }.setCore n
        { s.core n with step := some { i with forked := o.forked }, asked := [] }
    s.groups.find? (fun y => y.id = g.id && y.phase = 1) = some g → mget s.objs g.tag = some o → o.sections = [x] → x.core.step = some i →
    i.coupled = false → s.groupPlace o = .inl (some [n]) → s.memCe = [] →
    (g.pool = true → s.poolCheck g o = none ∧ (s.lineage? o.lineage).any (fun l => l.reserved) = false) → after.overLeave o.part = false →
    (s.memUe = [] ∧ s.deadDies = []) ∨ ((∀ w ∈ x.core.awaits, w.vas = []) ∧ x.core.slots = []) →
    s1.readVa o.part 0 o.tor 256 = .bytes tor →
    (s1.readLeaves (launchPayer o.launch) o.part 0 o.tor 256).readVa o.part 3 (v % 2 ^ 48) (64 * (v / 2 ^ 48 % 2 ^ 13)) = .bytes code →
    shake256 code 64 = o.measure → (∀ m ∈ (s.part? o.part).bind (fun p => p.locked), manifestOk m code tor = true) → o.image.length = i.codelen →
    ∃ t, exec (.groupRestart g.id) s = .next t ∧ Claims.onlyMarks s t ∧ t.rels = s.rels ∧ t.now = s.now ∧
      (∀ m, m ≠ n → ∃ st, t.core m = { s.core m with step := st } ∧ (i.gang = false → st = (s.core m).step)) ∧
      t.core n = { x.core with
        step := (t.core n).step, dt := (t.core n).dt, slip := x.core.slip + BitVec.ofNat 64 ((t.core n).dt - x.core.dt), frozen := false
        spad := (t.core n).spad, slots := (t.core n).slots, awaits := (t.core n).awaits, l1 := [], tlb := (s.core n).tlb, asked := [], heavy := []
        walkFaults := [], until? := (t.core n).until? } ∧
      (t.core n).dt = s.now + 64 + 8 * x.core.flights.length + (x.core.flights.map (fun f => x.core.stream - f.issue)).foldl max 0 ∧
      (t.core n).awaits.map (fun w => (w.id, w.rgn, w.kind, w.ready)) = x.core.awaits.map (fun w => (w.id, w.rgn, w.kind, w.ready)) ∧
      (∃ j, (t.core n).step = some j ∧ j = { i with
        dline := s.now + o.budget, est := o.estimate, estAt := s.now, resumed := s.now, group := some g.id, forked := o.forked, lineage := some o.lineage
        pipes := j.pipes }) ∧
      (∀ k, k < i.codelen → Memory.get (t.core n).spad (i.codebase + k) = o.image.getD k 0) ∧
      (∀ a, a < i.codebase ∨ i.codebase + i.codelen ≤ a → Memory.get (t.core n).spad a = Memory.get x.core.spad a) ∧
      (∀ w ∈ t.windows, w.paused ≠ some o.lineage) ∧
      t.groups = s.groups.map (fun y => if y.id = g.id then { y with phase := 2, cores := [n] } else y) ∧
      ∀ l, s.launch? o.launch = some l → o.forked = false → ∃ k, t.launch? o.launch = some k ∧ k = { l with
        suspended := l.suspended - 1, running := l.running ++ [(n, i.stp)] }) ∧
  (∀ (s : State) (g : Group) (o : Obj), s.groups.find? (fun y => y.id = g.id && y.phase = 1) = some g → mget s.objs g.tag = some o →
    s.groupPlace o = .inr () → (g.pool = true → (s.lineage? o.lineage).any (fun l => l.reserved) = false) → s.memCe = [] → Claims.atomicsWhole s →
    ∃ t, exec (.groupRestart g.id) s = .next t ∧ t.cores = s.cores ∧ t.rels = s.rels ∧ (∀ y ∈ t.groups, y.id ≠ g.id) ∧
      (o.forked = false → ∀ l, s.launch? o.launch = some l → ∃ k, t.launch? o.launch = some k ∧ k.suspended = l.suspended - o.sections.length ∧
        (o.sections ≠ [] → 0x13 ≤ k.report.cls)) ∧
      (g.byHost = none → ∀ launch step b pa e, g.status = some (launch, step, b) → b ≠ 0 → s.dieTrans g.part b 1 = .inl (pa, e) →
        Memory.val t.mem pa 8 = 0x13) ∧
      (∀ (y : Queue) serial tag quiet, g.byHost = some (y.id, serial, tag, quiet) → s.queue? y.id = some y →
        Claims.Completed t y serial 4 0 tag ⟨0x13, 0, 15, 0, 0, 0, 0, 0xFFFFFFFF, 0⟩)) ∧
  (∀ (s : State) (g : Group), s.launch? g.id = none → s.groups.find? (fun y => y.id = g.id && y.phase = 2 && y.cores.isEmpty) = some g →
    s.memCe = [] → Claims.atomicsWhole s →
    ∃ t, exec (.launchComplete g.id) s = .next t ∧ t.cores = s.cores ∧ t.rels = s.rels ∧ (∀ y ∈ t.groups, y.id ≠ g.id) ∧
      (g.byHost = none → ∀ launch step b pa e, g.status = some (launch, step, b) → b ≠ 0 → s.dieTrans g.part b 1 = .inl (pa, e) →
        Memory.val t.mem pa 8 = (g.report.cls + (if g.report.cls = 0x10 then g.report.cause * 2 ^ 8 else 0) + g.done * 2 ^ 32) % 2 ^ 64) ∧
      (∀ (y : Queue) serial tag, g.byHost = some (y.id, serial, tag, false) → s.queue? y.id = some y → g.report.cls < 256 →
        Claims.Completed t y serial 4 g.done tag g.report))

/-- R215, R361, R366, R368 to R370, R372, R373, R376 to R379, R421, R422: how groups are frozen, captured and started again. What the model settles of a restart
that fails, and of the order of places, is log 42. -/
def Obligations.GroupEvents : Prop := Claims.Freezes ∧ Claims.ObjectWrites ∧ Claims.Restarts

/-! ### Errors, scrubbing, dies and bulkheads (R19, R24, R144, R260, R263, R265, R267, R325, R333, R342, R349 to R353, R396, R400) -/

/-- What an upset of the bits `flip` of the 8-byte word `k` leaves of a memory under SECDED (R144, R267): words with one flipped bit, words that are
uncorrectable, and the bytes. One flipped bit of a clean word changes no byte; more make the word uncorrectable, its bits flipped. -/
structure Sys2Proof.Claims.Struck (m m' : List Host.Cell) (ce ce' ue ue' : List Nat) (k : Nat) (flip : Word) : Prop where
  one : ∀ j, j < 64 → flip = BitVec.twoPow 64 j → k ∉ ce → k ∉ ue → m' = m ∧ ue' = ue ∧ ∀ w, w ∈ ce' ↔ w = k ∨ w ∈ ce
  more : (∀ j, j < 64 → flip ≠ BitVec.twoPow 64 j) ∨ k ∈ ce ∨ k ∈ ue →
    (∀ w, w ∈ ue' ↔ w = k ∨ w ∈ ue) ∧ (∀ w, w ∈ ce' ↔ w ∈ ce ∧ w ≠ k) ∧
    (∀ j, j < 8 → Memory.get m' (8 * k + j) = Memory.get m (8 * k + j) ^^^ BitVec.ofNat 8 (flip.toNat / 256 ^ j)) ∧
    ∀ a, a / 8 ≠ k → Memory.get m' a = Memory.get m a

/-- R144, R260, R263, R265, R267, R325, R333, R349, R353: what SOFT_ERROR leaves. One flipped bit of a clean word of memory, of its cache, of a scratchpad or of
the commit buffer is correctable, and the bytes read as before; more make the word uncorrectable, their bits flipped; a flipped accumulator cell holds the
flipped bits; a flipped named register too, and the state with wrong parity is noted until a word that names it finds it; an error in the snapshot of the open
region retires the core, one in that of a closing region waits; one of more bits in the L1 drops the line, and each in the L1 is logged; an error in the
control die's SRAM is logged. Which stored values an upset flips is log 24; that an L1 error is logged at once, with engine 15, and one of the control die with
engine 9, is the model's choice (log 45). -/
def Sys2Proof.Claims.Upsets : Prop :=
  (∀ (s : State) (pa : Nat) (flip : Word), flip ≠ 0 →
    (∃ t, exec (.softError (.mem pa flip)) s = .next t ∧ t = { s with mem := t.mem, memCe := t.memCe, memUe := t.memUe, cacheErr := t.cacheErr } ∧
      Claims.Struck s.mem t.mem s.memCe t.memCe s.memUe t.memUe (pa / 8) flip ∧ ∀ w, w ∈ t.cacheErr ↔ w ∈ s.cacheErr ∧ w ≠ pa / 8) ∧
    ((homeDie pa).isSome = true →
      ∃ t, exec (.softError (.cache pa flip)) s = .next t ∧ t = { s with mem := t.mem, memCe := t.memCe, memUe := t.memUe, cacheErr := t.cacheErr } ∧
        Claims.Struck s.mem t.mem s.memCe t.memCe s.memUe t.memUe (pa / 8) flip ∧ ∀ w, w ∈ t.cacheErr ↔ w = pa / 8 ∨ w ∈ s.cacheErr)) ∧
  (∀ (s : State) (n a : Nat) (flip : Word), flip ≠ 0 →
    ∃ t, exec (.softError (.spad n a flip)) s = .next t ∧ t = { s with cores := t.cores } ∧ (∀ m, m ≠ n → t.core m = s.core m) ∧
      t.core n = { s.core n with spad := (t.core n).spad, ce := (t.core n).ce, ue := (t.core n).ue } ∧
      Claims.Struck (s.core n).spad (t.core n).spad (s.core n).ce (t.core n).ce (s.core n).ue (t.core n).ue (a / 8) flip) ∧
  (∀ (s : State) (n r k : Nat) (flip : BitVec 32), k < 65 →
    ∃ t, exec (.softError (.cell n r k flip)) s = .next t ∧ t = { s with cores := t.cores } ∧ (∀ m, m ≠ n → t.core m = s.core m) ∧
      t.core n = { s.core n with accC := (t.core n).accC, accP := (t.core n).accP } ∧
      ((t.core n).cell r k).bits = ((s.core n).cell r k).bits ^^^ flip ∧ ((t.core n).cell r k).psn = ((s.core n).cell r k).psn ∧
      (∀ r' k', k' < 65 → r' ≠ r ∨ k' ≠ k → (t.core n).cell r' k' = (s.core n).cell r' k')) ∧
  (∀ (s : State) (n : Nat) (r : Ref) (lane : Fin 64) (flip : Word),
    let a := (s.core n).arch
    ∃ t, exec (.softError (.named n r lane flip)) s = .next t ∧ t = { s with cores := t.cores } ∧ (∀ m, m ≠ n → t.core m = s.core m) ∧
      t.core n = { s.core n with arch := { a with s := (t.core n).arch.s, v := (t.core n).arch.v, struck := (t.core n).arch.struck } } ∧
      (∀ x, x ∈ (t.core n).arch.struck ↔ x = r ∨ x ∈ a.struck) ∧
      (∀ d (hd : d < 32), (t.core n).arch.s[d] = if r = .s d then { a.s[d] with val := a.s[d].val ^^^ flip } else a.s[d]) ∧
      (∀ d (hd : d < 32), (r ≠ .v d → (t.core n).arch.v[d] = a.v[d]) ∧ (r = .v d → (t.core n).arch.v[d].psn = a.v[d].psn ∧
        ∀ l : Fin 64, (t.core n).arch.v[d].lanes[l] = if l = lane then a.v[d].lanes[l] ^^^ flip.truncate 32 else a.v[d].lanes[l]))) ∧
  (∀ (s : State) (n id word : Nat) (flip : Word), flip ≠ 0 →
    ∃ t, exec (.softError (.held n id word flip)) s = .next t ∧ t = { s with cores := t.cores } ∧ (∀ m, m ≠ n → t.core m = s.core m) ∧
      t.core n = { s.core n with held := (t.core n).held } ∧ (t.core n).held.length = (s.core n).held.length ∧
      ∀ (x : Nat) (h : Held), (s.core n).held[x]? = some h → ∃ h', (t.core n).held[x]? = some h' ∧ h' = { h with ce := h'.ce, ue := h'.ue } ∧
        (h.id ≠ id → h' = h) ∧
        (h.id = id → (∀ j, j < 64 → flip = BitVec.twoPow 64 j → word ∉ h.ce → word ∉ h.ue → h'.ue = h.ue ∧ ∀ w, w ∈ h'.ce ↔ w = word ∨ w ∈ h.ce) ∧
          ((∀ j, j < 64 → flip ≠ BitVec.twoPow 64 j) ∨ word ∈ h.ce ∨ word ∈ h.ue → ∀ w, w ∈ h'.ue ↔ w = word ∨ w ∈ h.ue))) ∧
  (∀ (s : State) (n q : Nat) (i : StepInfo), let c := s.core n
    c.step = some i →
    (c.opn.id = q → c.doom = none → ∃ t, exec (.softError (.snapshot n q)) s = .next t ∧ t = { s with cores := t.cores } ∧
      (∀ m, m ≠ n → t.core m = s.core m) ∧
      t.core n = { c with doom := some ⟨q, true, c.clock, ⟨3, 0, 0, 3, n, 3, if q = 0 then c.opn.pc else c.opn.pc - 4, i.stp, c.dt⟩, 1⟩ }) ∧
    (c.opn.id ≠ q → ∃ t, exec (.softError (.snapshot n q)) s = .next t ∧ t = { s with cores := t.cores } ∧ (∀ m, m ≠ n → t.core m = s.core m) ∧
      t.core n = { c with closing := c.closing.map (fun r => if r.id = q then { r with snapBad := true } else r) })) ∧
  (∀ (s : State) (n pa : Nat) (flip : Word), flip ≠ 0 →
    ∃ t, exec (.softError (.l1 n pa flip)) s = .next t ∧ t = { s with cores := t.cores, evlog := s.evlog ++ [⟨1, n, 15, pa / 8 * 8, s.now, 0, 0⟩] } ∧
      (∀ m, m ≠ n → t.core m = s.core m) ∧
      t.core n = { s.core n with l1 := (t.core n).l1 } ∧ (∀ j, j < 64 → flip = BitVec.twoPow 64 j → (t.core n).l1 = (s.core n).l1) ∧
      ((∀ j, j < 64 → flip ≠ BitVec.twoPow 64 j) → (t.core n).l1 = (s.core n).l1.filter (fun l => l.pa != pa / 64 * 64))) ∧
  (∀ (s : State) (a : Nat) (flip : Word), flip ≠ 0 →
    exec (.softError (.control a flip)) s = .next { s with evlog := s.evlog ++ [⟨1, 0, 9, a, s.now, 0, 0⟩] }) ∧
  (∀ (s : State) (u : Upset), u ∈ [Upset.spad 0 0 0, .mem 0 0, .cache 0 0, .l1 0 0 0, .control 0 0] →
    ∃ t, exec (.softError u) s = .next t ∧ t = { s with cores := t.cores } ∧ ∀ n, t.core n = s.core n)

/-- The entry that the event log gets for an error in the 8-byte word `w` that no launch has paid for (R349). -/
abbrev Sys2Proof.Claims.errorEntry (s : State) (now w : Nat) : LogEntry :=
  ⟨1, 128 * ((homeDie (8 * w)).getD 0), if s.cacheErr.contains w then 6 else 7, 8 * w, now, 0, 0⟩

/-- R19, R267, R349 to R351: SCRUB_VISIT of an HBM stack or a memory-side cache visits its next row, at the unit's rate: the single-bit errors of the row are
corrected, every error found is logged, the row is watched if there was one, and no byte changes; after each sixteenth of a pass the amber rows are due.
AMBER_VISIT visits them: a row with an error begins anew, one that has been clean 16 times leaves. LINK_RETRY changes nothing and is logged. -/
def Sys2Proof.Claims.Scrubbing : Prop :=
  (∀ (s : State) (u : Nat), let x := (mget s.scrubs u).getD {}
    let rows := if u < 8 then 37748736 else 65536
    let row := if u < 8 then 1024 * x.pos + u % 4 * 0x900000000 else 512 * x.pos
    let next := x.last + max 1 ((if u < 8 then s.scrubHbm else s.scrubCache) / rows)
    let here (w : Nat) : Bool := decide (s.unitRow w = some (u, row))
    let found := s.memCe.filter here ++ s.memUe.filter here
    u < 10 → x.amberDue = false →
    ∃ t y, exec (.scrubVisit u) s = .next t ∧ mget t.scrubs u = some y ∧
      t = { s with now := max s.now next, memCe := s.memCe.filter (fun w => !here w), cacheErr := t.cacheErr, evlog := t.evlog, scrubs := t.scrubs } ∧
      t.evlog = s.evlog ++ found.map (Claims.errorEntry s t.now) ∧
      (∀ w, w ∈ t.cacheErr ↔ w ∈ s.cacheErr ∧ ¬(w ∈ s.memCe ∧ here w = true)) ∧ (∀ v, v ≠ u → mget t.scrubs v = mget s.scrubs v) ∧
      y.pos = (x.pos + 1) % rows ∧ y.last = next ∧ (y.amberDue = true ↔ (x.pos + 1) * 16 / rows ≠ x.pos * 16 / rows) ∧
      (found = [] → y.amber = x.amber) ∧
      (found ≠ [] → (∃ a ∈ y.amber, a = ⟨row, 0⟩) ∧ (x.amber.length < (if u < 8 then 4096 else 1024) → ∀ a ∈ x.amber, a.addr ≠ row → a ∈ y.amber))) ∧
  (∀ (s : State) (u : Nat) (x : Scrub), mget s.scrubs u = some x → x.amberDue = true →
    (x.amber.map (·.addr)).Nodup → (∀ w ∈ s.memCe, w ∉ s.memUe) →
    let bad (a : Amber) : Bool := (s.memCe ++ s.memUe).any (fun w => decide (s.unitRow w = some (u, a.addr)))
    ∃ t y, exec (.amberVisit u) s = .next t ∧ mget t.scrubs u = some y ∧ y = { x with amber := y.amber, amberDue := false } ∧
      t = { s with memCe := t.memCe, cacheErr := t.cacheErr, evlog := t.evlog, scrubs := t.scrubs } ∧
      (∀ w, w ∈ t.memCe ↔ w ∈ s.memCe ∧ ∀ a ∈ x.amber, s.unitRow w ≠ some (u, a.addr)) ∧
      y.amber = x.amber.filterMap (fun a => if bad a then some { a with clean := 0 } else if 15 ≤ a.clean then none else some { a with clean := a.clean + 1 })) ∧
  (∀ (s : State) (link : Nat), exec (.linkRetry link) s = .next { s with evlog := s.evlog ++ [⟨2, 0, 8, link, s.now, 0, 0⟩] })

/-- A core from which everything has gone (R342, R396). -/
abbrev Sys2Proof.Claims.cleared (t : State) (n : Nat) : Prop := t.core n = { ({} : Core) with dt := (t.core n).dt }

/-- The step `i`, which ran on core `n` of a launch that is still there, waits in `k` to run again, up to its committed count and digest in suppress
mode (R336, R337). -/
abbrev Sys2Proof.Claims.waitsAgain (k : Launch) (n : Nat) (i : StepInfo) (failover : Bool) (avoid : Option Nat) : Prop :=
  ∃ r ∈ k.redo, r.core = n ∧ r.kill = false ∧ r.avoid = avoid ∧ r.info.stp = i.stp ∧ r.info.role = i.role ∧ r.info.log = i.log ∧ r.info.adopted = true ∧
    r.info.failedOver = (i.failedOver || failover) ∧ r.info.suppress = if i.closed = 0 then none else some (i.closed, i.digest)

/-- R24, R336, R342, R352, R396, R400: DIE_LOSS, of a die or of the link between the compute dies, which loses the die with more retired cores, die 1 on a tie,
fences the die for good: nothing runs there any more, windows into it are closed, and a step that ran there alone fails over, or ends with DIE_LOST where no
core is left. BULKHEAD_RESET takes the cores of its bulkhead out of service for 38,000 cycles; after a failure a step that ran there is to run again outside
it, an ordered one ends it KILLED. BULKHEAD_RETURN gives the cores back, with empty stores. Memory stays, but for the rings of partitions in capture mode, in
which the errors are logged. CONTROL_DIE_LOSS ends the package and reports it to the host as DIE_LOST, with the entry of its event log, over the host link (the
model's choice: log 49). A step of the lost die that waits to be adopted already has failed over too. What an event of the log takes is log 10; the events
themselves, and which steps they concern, are log 24; how errors come to be reported, log 45. -/
def Sys2Proof.Claims.Losses : Prop :=
  (∀ (s : State) (die : Option Nat),
    let worn (d : Nat) : Nat := (s.retired.filter (fun n => dieOf n = d)).length
    let d := die.getD (if worn 1 < worn 0 then 0 else 1)
    d < 2 → d ∉ s.deadDies → (die = none → s.deadDies = []) →
    ∃ t, exec (.dieLoss die) s = .next t ∧ Claims.ringsOnly s t ∧ t.retired = s.retired ∧ (∀ e, e ∈ t.deadDies ↔ e = d ∨ e ∈ s.deadDies) ∧
      (∀ n, dieOf n = d → Claims.cleared t n ∧ t.inService n = false) ∧ (∀ w ∈ t.windows, w.isOpen = true → (∃ x ∈ s.cores, x.1 = w.tcore) → dieOf w.tcore ≠ d) ∧
      ((∀ x ∈ s.cores, dieOf x.1 = d → x.2.step = none) → ∀ n, dieOf n ≠ d → t.core n = s.core n) ∧
      (∀ l r, s.launches.filter (fun x => x.id = l.id) = [l] → r ∈ l.redo → dieOf r.core = d → r.kill = false →
        (∀ x ∈ s.cores, dieOf x.1 = d → x.2.step = none) → ∃ k, t.launch? l.id = some k ∧
          (t.instances k ≠ [] → ({ r with info := { r.info with failedOver := true } } : Redo) ∈ k.redo)) ∧
      ∀ n i l, dieOf n = d → (s.core n).step = some i → (∀ x ∈ s.cores, x.1 ≠ n → dieOf x.1 = d → x.2.step = none) →
        i.coupled = false → i.gang = false → i.unadoptable = false → i.forked = false → i.suppress = none →
        s.launches.filter (fun x => x.id = i.launch) = [l] → ∃ k, t.launch? i.launch = some k ∧ k.done = l.done ∧
          (t.instances k ≠ [] → Claims.waitsAgain k n i true none) ∧ (t.instances k = [] → k.redo = [] ∧ 0x21 ≤ k.report.cls)) ∧
  (∀ s : State, ∃ t, exec .controlDieLoss s = .next t ∧ t = { s with
      life := .ended, evlog := s.evlog ++ [⟨1, 0, 9, 0, s.now, 0, 0⟩]
      results := s.results ++ [⟨0x21, LogEntry.bytes ⟨1, 0, 9, 0, s.now, 0, 0⟩⟩] } ∧ step t = .fault .packageStopped) ∧
  (∀ (s : State) (b : Nat) (ordered : Bool), b < 32 →
    ∃ t, exec (.bulkheadReset b ordered) s = .next t ∧ Claims.ringsOnly s t ∧ t.retired = s.retired ∧ (ordered = true → t.mem = s.mem) ∧
      t.offline = s.offline.filter (fun o => o.1 != b) ++ [(b, s.now + 38000)] ∧
      (∀ n, bulkheadOf n = b → Claims.cleared t n ∧ t.inService n = false) ∧
      (ordered = true → t.launches.map (fun l => (l.id, l.redo)) = s.launches.map (fun l => (l.id, l.redo))) ∧
      ∀ n i l, bulkheadOf n = b → (s.core n).step = some i → (∀ x ∈ s.cores, x.1 ≠ n → bulkheadOf x.1 = b → x.2.step = none) →
        i.coupled = false → i.gang = false → i.unadoptable = false → i.forked = false → i.suppress = none →
        s.launches.filter (fun x => x.id = i.launch) = [l] → (∀ r ∈ l.redo, r.core ≠ n) → ∃ k, t.launch? i.launch = some k ∧ k.done = l.done ∧
          (ordered = false → Claims.waitsAgain k n i false (some b)) ∧ (ordered = true → 0x12 ≤ k.report.cls)) ∧
  (∀ (s : State) (o : Nat × Nat), s.offline.find? (fun x => x.1 = o.1) = some o →
    ∃ t, exec (.bulkheadReturn o.1) s = .next t ∧ t = { s with now := max s.now o.2, offline := t.offline, cores := t.cores, walks := t.walks } ∧
      t.offline = s.offline.filter (fun x => x.1 != o.1) ∧ (∀ n, bulkheadOf n = o.1 → Claims.cleared t n) ∧
      (∀ n, bulkheadOf n ≠ o.1 → t.core n = s.core n))

/-- R19, R24, R144, R260, R263, R265, R267, R325, R333, R336, R337, R342, R349 to R353, R396, R400: errors, scrubbing and what leaves service. Which stored values an upset flips (log 24), how
errors that no rule gives a unit are logged (log 45) and how the loss of the control die is reported (log 49) are the model's choices. -/
def Obligations.ErrorEvents : Prop := Claims.Upsets ∧ Claims.Scrubbing ∧ Claims.Losses

/-! ### Time and power (R380, R382, R384, R385, R386, R421, R422, R423, R425) -/

/-- The launches with the target times that the mapping of device time gives now (R386). -/
abbrev Sys2Proof.Claims.retargeted (s t : State) : Prop :=
  t.launches = s.launches.map (fun l => match l.target with
    | some (x, _) => if l.phase = 0 then { l with target := some (x, t.ptp.reach x) } else l
    | none => l)

/-- R384 to R386, R423: PTP_SAMPLE takes a rate within 200 ppm of the nominal one and re-anchors, so that the mapping is continuous at the sample; it takes no other rate.
Four good samples in a row lock it. PTP_LOCK_LOSS ends the lock; CLOCK_SWITCH changes the clock and takes its nominal rate. A new anchor gives timed launches
that have not started new target times, and is captured for the partitions in capture mode, in the log and in their host rings (the form there: log 10). -/
def Sys2Proof.Claims.PtpTime : Prop :=
  let nominal (derated : Bool) : Nat := if derated then 0xA000000000 else 578690330408
  let mapped (p : Ptp) (u : Nat) : Nat := p.p0 + (u - p.d0) * p.rate / 2 ^ 24
  (∀ (s : State) (host rate : Nat),
    let u := max s.now s.ptp.nextAt
    let e : Int := ((host : Int) - mapped s.ptp u) / 65536
    let good := if -100 < e ∧ e < 100 then s.ptp.good + 1 else 0
    ∃ t, exec (.ptpSample host rate) s = .next t ∧ Claims.ringsOnly s t ∧
      t = { s with now := u, ptp := t.ptp, launches := t.launches, capLog := t.capLog, mem := t.mem, memUe := t.memUe, memCe := t.memCe,
                   cacheErr := t.cacheErr } ∧
      t.ptp.err = BitVec.ofInt 32 e ∧ t.ptp.good = good ∧
      t.ptp.nextAt = u + s.ptpInterval ∧ t.ptp.lock = (s.ptp.lock || decide (4 ≤ good)) ∧ mapped t.ptp u = mapped s.ptp u ∧
      ((((rate : Int) - nominal s.derated).natAbs * 1000000 ≤ 200 * nominal s.derated) →
        t.ptp.rate = rate ∧ t.ptp.d0 = u ∧ t.ptp.seq = s.ptp.seq + 1 ∧ Claims.retargeted s t ∧ ((∀ p ∈ s.parts, p.capture = none) → t.capLog = s.capLog)) ∧
      (200 * nominal s.derated < ((rate : Int) - nominal s.derated).natAbs * 1000000 →
        t.ptp.rate = s.ptp.rate ∧ t.ptp.d0 = s.ptp.d0 ∧ t.ptp.p0 = s.ptp.p0 ∧ t.ptp.seq = s.ptp.seq ∧ t.launches = s.launches ∧ t.capLog = s.capLog ∧ t.mem = s.mem)) ∧
  (∀ s : State, s.ptp.lock = true → ∃ t, exec .ptpLockLoss s = .next t ∧
    t = { s with now := max s.now (s.ptp.nextAt + 3 * s.ptpInterval), ptp := { s.ptp with lock := false, good := 0 } }) ∧
  (∀ (s : State) (u : Nat) (d : Bool), s.clockAt = some (u, d) → ∃ t, exec .clockSwitch s = .next t ∧ Claims.ringsOnly s t ∧
    t = { s with now := max s.now u, derated := d, clockAt := none, ptp := t.ptp, launches := t.launches, capLog := t.capLog, mem := t.mem,
                 memUe := t.memUe, memCe := t.memCe, cacheErr := t.cacheErr } ∧
    t.ptp = { s.ptp with d0 := max s.now u, p0 := mapped s.ptp (max s.now u), rate := nominal d, seq := s.ptp.seq + 1 } ∧ Claims.retargeted s t ∧
    ((∀ p ∈ s.parts, p.capture = none) → t.capLog = s.capLog) ∧
    (∀ (p : Partition) (k : Nat), s.parts = [p] → p.capture = some k → ∃ x, t.capLog = s.capLog ++ [(p.id, max s.now u, 2, x)]))

/-- R382, R425: THERMAL_DERATE plans the derated clock, unless it is in force or planned already, and CLOCK_RESTORE the full one, 2^24 cycles after the last time
of heat at the earliest; either comes 1,024 cycles later or more. Nothing else changes. -/
def Sys2Proof.Claims.Clock : Prop :=
  (∀ s : State, ∃ t, exec .thermalDerate s = .next t ∧ t = { s with hotAt := some s.now, clockAt := t.clockAt, free := t.free } ∧
    ((s.clockAt = none ∧ s.derated = false ∨ ∃ u, s.clockAt = some (u, false)) → ∃ u, t.clockAt = some (u, true) ∧ s.now + 1024 ≤ u) ∧
    ((s.clockAt = none ∧ s.derated = true ∨ ∃ u, s.clockAt = some (u, true)) → t.clockAt = s.clockAt)) ∧
  (∀ s : State, s.derated = true → s.clockAt = none → ∃ t u, exec .clockRestore s = .next t ∧ t.clockAt = some (u, false) ∧ t.now + 1024 ≤ u ∧
    t = { s with now := max s.now (s.hotAt.getD 0 + 2 ^ 24), clockAt := t.clockAt, free := t.free })

/-- R380, R421, R422, R425: PFAIL freezes every core that is not ended and starts a manifest in the older bank; OVERTEMPERATURE does so after an entry of the event log.
A core with no region about to close stands at the start of its oldest region that has not closed. At 18 ms what has not been captured ends, at 20 ms the
manifest is whole, with each queue's head and last serial as they then are, and the package is held, where only its release and a reset are heard; these leave
what reset leaves, but MRAM and the host's memory. The model's choices here: that PFAIL freezes every core at once, at the present device time, and where the
area of a partition lies (log 8); that memory which nothing has written reads 0 after reset (log 3); that the event log and the record of objects outlast a
reset (log 32). -/
def Sys2Proof.Claims.PowerFail : Prop :=
  let started (s t : State) : Prop := (∃ u, s.now ≤ u ∧ t.life = .pfail u) ∧ (∀ n, (t.core n).step = none ∨ (t.core n).frozen = true) ∧
    ∃ m, (t.banks.1 = m ∨ t.banks.2 = m) ∧ m.valid = false ∧ m.entries = [] ∧
      m.seq = 1 + max (if s.banks.1.valid then s.banks.1.seq else 0) (if s.banks.2.valid then s.banks.2.seq else 0)
  let fresh (s t : State) : Prop :=
    t = { State.reset with retired := s.retired, lineages := s.lineages, banks := s.banks, objs := s.objs, evlog := s.evlog, mem := t.mem,
                           memUe := t.memUe, memCe := t.memCe, free := s.free, nextId := s.nextId, inputs := s.inputs } ∧
    ∀ a, Memory.get t.mem a = if 4 * 2 ^ 45 ≤ a then Memory.get s.mem a else 0
  let tells (s : State) (k : Nat) : Nat × Nat := ((s.queue? k).map (fun q => (q.sqhead, q.lastSerial))).getD (0, 0)
  let ends (s : State) (m : Manifest) : Manifest := { m with valid := true, queues := (List.range 2048).map (tells s) }
  let ms (s : State) (k : Nat) : Nat := k * (if s.derated then 1600000 else 1900000)
  (∀ s : State, s.life = .running → (∃ t, exec .pfail s = .next t ∧ started s t) ∧
    ∃ t e r, exec .overtemperature s = .next t ∧ started s t ∧ t.evlog = s.evlog ++ e :: r ∧ e = ⟨3, 0, 9, 0, s.now, 0, 0⟩) ∧
  (∀ (s : State) (c : Core) (n : Nat) (i : StepInfo), s.life = .running → s.cores = [(n, c)] → c.step = some i → i.coupled = false → c.closing = [] →
    c.trap = none → s.groups = [] →
    ∃ t, exec .pfail s = .next t ∧ ((t.core n).step = none ∨ (t.core n).arch = c.opn.snap ∧ (t.core n).pc = c.opn.pc ∧ (t.core n).opn.rcnt = c.opn.rcnt ∧
      s.now ≤ (t.core n).dt ∧ ∃ j, (t.core n).step = some j ∧ j.replays = i.replays)) ∧
  (∀ (s : State) (u : Nat), s.life = .pfail u →
    (∃ t, exec .pfailCaptureTimeout s = .next t ∧ (∀ n, (t.core n).step = none) ∧ (∀ g ∈ t.groups, g.pfail = false) ∧ t.mem = s.mem ∧
      t.life = s.life ∧ t.banks = s.banks ∧ u + ms s 18 ≤ t.now) ∧
    (∃ t, exec .pfailIncrementTimeout s = .next t ∧
      t = { s with now := max s.now (u + ms s 20), ckpts := [], life := .held, banks := t.banks } ∧
      t.banks = (if s.banks.1.seq < s.banks.2.seq then (s.banks.1, ends s s.banks.2) else (ends s s.banks.1, s.banks.2)))) ∧
  (∀ s : State, (s.life = .held → ∃ t, exec .pfailRelease s = .next t ∧ fresh s t) ∧ (∃ t, exec .packageReset s = .next t ∧ fresh s t) ∧
    (s.life = .held → s.inputs = [] → step s = .fault .packageStopped))

/-- R380, R382, R384 to R386, R421 to R423, R425: what comes with time and with power. The model's choices: that memory which nothing has written reads 0 after
a reset (log 3), that the event log and the record of objects outlast it (log 32), and that PFAIL freezes every core at once (log 8). -/
def Obligations.TimeAndPowerEvents : Prop := Claims.PtpTime ∧ Claims.Clock ∧ Claims.PowerFail

/-! ### Queues, registers and submission records (R247, R314, R373 to R376, R386, R391, R392, R407 to R417, R424) -/

/-- R414: QUEUE_BIND gives a free slot to the waiting queue of the highest effective priority, of those to the one that waits longest (of two that wait equally long
to the lower number, log 9); QUEUE_AGING raises the priority of a waiting queue after each 190,000,000 cycles; QUEUE_QUANTUM_END takes the slot back after
16 records or 3,800,000 cycles. -/
def Sys2Proof.Claims.Mapper : Prop :=
  (∀ (s : State) (q : Queue), s.queue? q.id = some q → q.wantsSlot = true → (s.queues.filter (fun x => x.bound.isSome)).length < 64 →
    (∀ x ∈ s.queues, x.wantsSlot = true → x = q ∨ x.rank < q.rank ∨ (x.rank = q.rank ∧ (q.waitAt < x.waitAt ∨ (q.waitAt = x.waitAt ∧ q.id < x.id)))) →
    ∃ t, exec (.queueBind q.id) s = .next t ∧ t = { s with queues := t.queues } ∧ t.queue? q.id = some { q with bound := some (s.now, 0), raised := 0 } ∧
      ∀ k, k ≠ q.id → t.queue? k = s.queue? k) ∧
  (∀ (s : State) (q : Queue), s.queue? q.id = some q → q.wantsSlot = true → min 7 (q.prio + q.raised) < 7 →
    ∃ t, exec (.queueAging q.id) s = .next t ∧ t = { s with queues := t.queues, now := max s.now (q.waitAt + 190000000 * (q.raised + 1)) } ∧
      t.queue? q.id = some { q with raised := q.raised + 1 } ∧ ∀ k, k ≠ q.id → t.queue? k = s.queue? k) ∧
  (∀ (s : State) (q : Queue) (u k : Nat), s.queue? q.id = some q → q.bound = some (u, k) →
    ∃ t, exec (.queueQuantumEnd q.id) s = .next t ∧ t = { s with queues := t.queues, now := t.now } ∧ s.now ≤ t.now ∧ (k < 16 → u + 3800000 ≤ t.now) ∧
      t.queue? q.id = some { q with bound := none, raised := 0, waitAt := t.now } ∧ ∀ j, j ≠ q.id → t.queue? j = s.queue? j)

/-- R314, R391, R392, R407 to R409, R412, R424: what writes of registers do. A tail that is no multiple of 64, that runs past the ring, or of a queue that is not enabled
disables the queue with its error bit; any other is taken. A head that is no multiple of 64, out of range or beyond the tail sets its error
bit; any other is taken. A power cap outside 250 to 850 W is refused. A boundary register takes a write only while the network is
quiesced. Ring bases and sizes change only while the queue is disabled; a queue that is enabled begins its count of signals and its wait afresh; error bits are
cleared by ones; a line counter takes the value written. The model's choices here: that a size above 12 is not taken, that a ring base drops the low bits that its
ring's size does not leave it, and that a head at or beyond twice the ring's size sets errc (log 33). -/
def Sys2Proof.Claims.Registers : Prop :=
  (∀ (s : State) (vf j : Nat) (v : Word) (q : Queue), s.vfQueue vf j = some q → s.queue? q.id = some q →
    let z := 2 ^ (12 + q.sqsz)
    let x := v.toNat % 2 ^ 25
    let occ := (x + 2 * z - q.sqhead % (2 * z)) % (2 * z)
    (x % 64 ≠ 0 ∨ z < occ ∨ q.en = false → ∃ t, exec (.sqtailWrite vf j v) s = .next t ∧ t = { s with queues := t.queues } ∧
      t.queue? q.id = some { q with errn := true, en := false, bound := none }) ∧
    (x % 64 = 0 → occ ≤ z → q.en = true → ∃ t y, exec (.sqtailWrite vf j v) s = .next t ∧ t = { s with queues := t.queues } ∧ t.queue? q.id = some y ∧
      y.sqtail = x % (2 * z) ∧ y.en = true ∧ y.errn = q.errn ∧ y.cqhead = q.cqhead ∧ (y.waits = true → (s.headRec y).typ ≠ 0) ∧
      ((s.headRec q).typ ≠ 0 → y.sqhead = q.sqhead))) ∧
  (∀ (s : State) (vf j : Nat) (v : Word) (q : Queue), s.vfQueue vf j = some q → s.queue? q.id = some q →
    let z := 2 * 2 ^ (12 + q.cqsz)
    let x := v.toNat % 2 ^ 25
    let beyond (y : Nat) : Nat := (y + z - q.cqhead % z) % z
    ∃ t, exec (.cqheadWrite vf j v) s = .next t ∧ t = { s with queues := t.queues } ∧
      t.queue? q.id = some (if x % 64 ≠ 0 ∨ z ≤ x ∨ beyond q.cqtail < beyond x then { q with errc := true } else { q with cqhead := x })) ∧
  (∀ (s : State) (v : Word),
    let w := v.toNat % 2 ^ 10
    ∃ t, exec (.pcapWrite v) s = .next t ∧ t = { s with cap := t.cap, capBad := t.capBad } ∧
      (250 ≤ w ∧ w ≤ 850 → t.cap = w ∧ t.capBad = (s.capBad && !v.getLsbD 10)) ∧ (w < 250 ∨ 850 < w → t.cap = s.cap ∧ t.capBad = true)) ∧
  (∀ (s : State) (off : Nat) (v : Word), off ∈ [0x1008, 0x1010, 0x1018] →
    ∃ t, exec (.boundaryRegisterWrite off v) s = .next t ∧
      (s.quiesced = false → t = { s with wberr := true }) ∧
      (s.quiesced = true → t = { s with sprtop := if off = 0x1008 then v.toNat else s.sprtop, dtop0 := if off = 0x1010 then v.toNat else s.dtop0,
                                        dtop1 := if off = 0x1018 then v.toNat else s.dtop1 })) ∧
  (∀ (s : State) (vf j : Nat) (v : Word) (q : Queue), s.vfQueue vf j = some q → s.queue? q.id = some q →
    (q.en = true → ∀ o, o = 0 ∨ o = 8 → ∃ t, exec (.registerWrite (.bar0 vf (0x2000 + 64 * j + o)) v) s = .next t ∧ t.queue? q.id = some q) ∧
    (q.en = false → ∃ t, exec (.registerWrite (.bar0 vf (0x2000 + 64 * j)) v) s = .next t ∧ t = { s with queues := t.queues } ∧
      t.queue? q.id = some { q with sqbase := BitVec.ofNat 64 (v.toNat / 2 ^ (12 + q.sqsz) * 2 ^ (12 + q.sqsz)) })) ∧
  (∀ (s : State) (vf j : Nat) (v : Word) (q : Queue), s.vfQueue vf j = some q → s.queue? q.id = some q →
    let size (k old : Nat) : Nat := if q.en = true ∨ 12 < v.toNat / 2 ^ k % 16 then old else v.toNat / 2 ^ k % 16
    ∃ t y, exec (.registerWrite (.bar0 vf (0x2010 + 64 * j)) v) s = .next t ∧ t = { s with queues := t.queues } ∧ t.queue? q.id = some y ∧
      y = { q with en := v.getLsbD 31, prio := v.toNat / 2 ^ 28 % 8, cqsz := size 12 q.cqsz, sqsz := size 8 q.sqsz, msix := v.getLsbD 2
                   errn := q.errn && !v.getLsbD 1, errc := q.errc && !v.getLsbD 0, signals := y.signals, waitAt := y.waitAt, raised := y.raised
                   bound := y.bound } ∧
      ((y.signals, y.waitAt, y.raised) = if v.getLsbD 31 && !q.en then (0, s.now, 0) else (q.signals, q.waitAt, q.raised)) ∧
      (y.bound = if v.getLsbD 31 then q.bound else none)) ∧
  (∀ (s : State) (n : Nat) (v : Word), n < 256 → ∃ t c, exec (.registerWrite (.bar2 (0x1000000 + 64 * n)) v) s = .next t ∧
    t = { s with counters := t.counters } ∧ mget t.counters n = some c ∧ c.lrd = v)

/-- R407 to R409, R414, R424: the queue mapper and the host's registers. The model's choices: the largest ring size, the low bits of ring bases that are dropped,
and the error of a head at or beyond twice its ring's size (log 33), and the order of queues that wait equally long (log 9). -/
def Obligations.QueuesAndRegisters : Prop := Claims.Mapper ∧ Claims.Registers

/-- The record at the head of queue q is `r`, of the type given, and partition p accepts it now (R409, R410, R412, R414). -/
abbrev Sys2Proof.Claims.accepts (s : State) (q : Queue) (p : Partition) (r : SubRec) (typ : Nat) : Prop :=
  s.queue? q.id = some q ∧ s.headRec q = r ∧ r.typ = typ ∧ s.acceptable q r = some p

/-- The record is of 40 bytes, with no reserved flag, and names nothing beyond its `n` operands (R410). -/
abbrev Sys2Proof.Claims.shaped (r : SubRec) (n : Nat) : Prop :=
  r.len = 40 ∧ r.flags < 4 ∧ (n < 1 → r.a = 0) ∧ (n < 2 → r.b = 0) ∧ (n < 3 → r.c = 0)

/-- The completion ring of q has got a record of type COMPLETE with the tag of r, a class and a cause (R347, R410, R411). -/
def Sys2Proof.Claims.completed (t : State) (q : Queue) (r : SubRec) (cls cause : Nat) : Prop :=
  let a := hostPa (q.cqbase.toNat + q.cqtail % 2 ^ (12 + q.cqsz))
  Memory.val t.mem (a + 8) 8 = r.tag.toNat ∧ (Memory.get t.mem (a + 32)).toNat = cls ∧ (Memory.get t.mem (a + 43)).toNat = cause ∧
    ∃ y, t.queue? q.id = some y ∧ y.cqtail = (q.cqtail + 64) % (2 * 2 ^ (12 + q.cqsz))

/-- R410: a submission record of an unassigned type, or one that is not as its type requires, completes with PROGRAM_FAULT and cause RECORD (0x16), and no core,
launch or lineage changes. Here and in the statements below, shown while no atomic to the host window is half done: an access of the control die to it ends
that atomic first (R299). -/
def Sys2Proof.Claims.BadRecords : Prop :=
  (∀ (s : State) (q : Queue) (p : Partition) (r : SubRec), 8 ≤ r.typ → Claims.accepts s q p r r.typ → Claims.atomicsWhole s →
    ∃ t, exec (.invalidSubmissionRecord q.id) s = .next t ∧ Claims.completed t q r 0x10 0x16 ∧ t.cores = s.cores ∧ t.launches = s.launches) ∧
  (∀ (s : State) (q : Queue) (p : Partition) (r : SubRec) (i : Instr) (typ n : Nat),
    (i, typ, n) ∈ ([(.launchRecord q.id, 1, 1), (.timedLaunch q.id, 2, 3), (.fenceRcRecord q.id, 3, 0), (.resumeRecord q.id, 4, 1),
      (.forkRecord q.id, 5, 2), (.discardRecord q.id, 6, 1)] : List (Instr × Nat × Nat)) →
    Claims.accepts s q p r typ → ¬ Claims.shaped r n → Claims.atomicsWhole s →
    ∃ t, exec i s = .next t ∧ Claims.completed t q r 0x10 0x16 ∧ t.cores = s.cores ∧ t.launches = s.launches ∧ t.lineages = s.lineages)

/-- R247, R254, R386, R410: a LAUNCH record whose partition's queue has room queues a launch of its record, with the priority of the queue; a TIMED_LAUNCH queues
one whose target lies 2^20 cycles ahead or more, its record read at once, and none otherwise; one that finds that queue full completes with class REFUSED (0x13);
a FENCE_RC record empties the record cache of its partition and completes. -/
def Sys2Proof.Claims.LaunchRecords : Prop :=
  (∀ (s : State) (q : Queue) (p : Partition) (r : SubRec), Claims.accepts s q p r 1 → Claims.shaped r 1 → r.a % 256 = 0 → p.queue.length < 4096 →
    s.part? p.id = some p →
    ∃ t l y, exec (.launchRecord q.id) s = .next t ∧ t.launches = s.launches ++ [l] ∧ l.id = s.nextId ∧ l.part = p.id ∧ l.tor = r.a ∧ l.phase = 0 ∧
      l.prio = q.prio ∧ l.origin = .host q.id r.serial r.tag (decide (r.flags / 2 % 2 = 1)) ∧ l.target = none ∧
      (∃ x, t.part? p.id = some x ∧ x.queue = p.queue ++ [l.id]) ∧ Claims.ringsOnly s t ∧ t.cores = s.cores ∧
      t.queue? q.id = some y ∧ y.reserved = q.reserved + 1 ∧ y.pending = q.pending + 1 ∧ y.sqtail = q.sqtail) ∧
  (∀ (s : State) (q : Queue) (p : Partition) (r : SubRec), Claims.accepts s q p r 2 → Claims.shaped r 3 → r.a % 256 = 0 → r.b < 2 ^ 48 → r.c < 1000000000 →
    (∀ l ∈ s.launches, l.id < s.nextId) → s.part? p.id = some p → Claims.atomicsWhole s →
    let x := (r.b * 1000000000 + r.c) * 65536
    ∃ t, exec (.timedLaunch q.id) s = .next t ∧ (s.memCe = [] → t.cores = s.cores) ∧
      (∀ l ∈ t.launches, s.nextId ≤ l.id → l.target = some (x, s.ptp.reach x) ∧ l.tor = r.a ∧ s.now + 2 ^ 20 ≤ s.ptp.reach x) ∧
      (s.ptp.reach x < s.now + 2 ^ 20 ∨ 4096 ≤ p.queue.length → Claims.completed t q r 0x13 0) ∧
      (∀ bs, s.now + 2 ^ 20 ≤ s.ptp.reach x → p.queue.length < 4096 → p.recs = [] → p.capture = none → p.locked = none → s.memCe = [] →
        s.readVa p.id 0 r.a 256 = .bytes bs → torOk (torWords bs) = true → torPreLen (torWords bs) = 0 →
        ∃ l, t.launches = s.launches ++ [l] ∧ l.id = s.nextId ∧ l.phase = 0 ∧ l.words = torWords bs ∧ l.total = torSteps (torWords bs) ∧
          l.target = some (x, s.ptp.reach x) ∧ l.origin = .host q.id r.serial r.tag (decide (r.flags / 2 % 2 = 1)))) ∧
  (∀ (s : State) (q : Queue) (p : Partition) (r : SubRec), Claims.accepts s q p r 3 → Claims.shaped r 0 → s.part? p.id = some p → Claims.atomicsWhole s →
    ∃ t, exec (.fenceRcRecord q.id) s = .next t ∧ t.cores = s.cores ∧ t.launches = s.launches ∧ (∀ x ∈ t.parts, x.id = p.id → x.recs = []) ∧
      (r.flags / 2 % 2 = 0 → Claims.completed t q r 0 0) ∧ (r.flags / 2 % 2 = 1 → Claims.ringsOnly s t)) ∧
  (∀ (s : State) (q : Queue) (p : Partition) (r : SubRec), Claims.accepts s q p r 1 → Claims.shaped r 1 → r.a % 256 = 0 → 4096 ≤ p.queue.length →
    Claims.atomicsWhole s → ∃ t, exec (.launchRecord q.id) s = .next t ∧ t.launches = s.launches ∧ t.cores = s.cores ∧ Claims.completed t q r 0x13 0)

/-- The copy of an object of `size` bytes at b for a FORK record, in the state `s` that its reads leave: it stands there under a new lineage of generation 0, the
source's generation as it was, where b takes writes, and the completion record names the lineage; where it does not, no lineage and no object is recorded,
and the record completes with the cause of the first address that refuses the write, or with DATA_LOSS for an uncorrectable table entry. -/
def Sys2Proof.Claims.Copies (s0 s : State) (q : Queue) (p : Partition) (r : SubRec) (o : Obj) (size : Nat) : Prop :=
  let got (t : State) (cls cause : Nat) : Prop := t.lineages = s0.lineages ∧ t.objs = s0.objs ∧ Claims.completed t q r cls cause
  (Claims.takesWrites s p.id r.b size size → ∃ t k tag, exec (.forkRecord q.id) s0 = .next t ∧ t.cores = s0.cores ∧ t.groups = s0.groups ∧
    t.lineages = s0.lineages ++ [k] ∧ k.gen = 0 ∧ k.forked = true ∧ k.reserved = false ∧
    t.objs = (tag, { o with lineage := k.id, gen := 0, forked := true }) :: s0.objs ∧
    (r.flags / 2 % 2 = 0 → Claims.completed t q r 0 0 ∧
      Memory.val t.mem (hostPa (q.cqbase.toNat + q.cqtail % 2 ^ (12 + q.cqsz)) + 24) 8 = k.id % 2 ^ 64)) ∧
  ∀ m, m < size → Claims.takesWrites s p.id r.b m (m + 1) → ∀ e, s.dieTrans p.id (r.b + m) 1 = .inr e →
    (∀ x, e = .table x → ∀ k, k < m → ∀ y, s.dieTrans p.id (r.b + k) 1 = .inl y → y.1 < x ∨ x + 8 ≤ y.1) →
    ∃ t, exec (.forkRecord q.id) s0 = .next t ∧ t.cores = s0.cores ∧
      match e with
      | .fault cause => got t 0x10 cause
      | .table _ => got t 0x20 0

/-- R372 to R376: RESUME, FORK and DISCARD records of an object that passes the checks: a group waits to be started, and the generation is consumed; a copy stands at
b (`Claims.Copies`); the generation is consumed, and the object's steps end KILLED in their launch, but for those of a fork. A group of the pool that waits
for the object is gone. One that fails completes with the class and cause of its check, and a FORK of an object that does not stand at a region boundary with
cause 0x11. What the reads of the object leave stays. That b which cannot be written completes a FORK record with the cause of the write, PAGE_FAULT (0x09) or
PROTECTION (0x0A), is the model's choice (log 27). The checks find memory with the acceptance logged (R423). -/
def Sys2Proof.Claims.ObjectRecords : Prop :=
  (∀ (s : State) (p : Partition) (a : Nat) (vas : List (Nat × Nat)), Claims.onlyMarks s (s.recRead p a vas)) ∧
  ∀ (s : State) (q : Queue) (p : Partition) (r : SubRec) (i : Instr) (typ n : Nat),
    (i, typ, n) ∈ ([(.resumeRecord q.id, 4, 1), (.forkRecord q.id, 5, 2), (.discardRecord q.id, 6, 1)] : List (Instr × Nat × Nat)) →
    Claims.accepts s q p r typ → Claims.shaped r n → s.part? p.id = some p → Claims.atomicsWhole s →
    let vas := if typ = 5 then [(r.a, 0), (r.b, 1)] else [(r.a, 0)]
    let s1 := s.capture p.id 1 q.id r.serial
    let s2 := s1.recRead p r.a vas
    (∀ rep, s1.recCheck p r.a vas = .inl rep →
      ∃ t, exec i s = .next t ∧ Claims.completed t q r rep.cls rep.cause ∧ t.cores = s.cores ∧ t.lineages = s.lineages ∧ t.groups = s.groups) ∧
    (∀ tag o l, s1.recCheck p r.a vas = .inr (tag, o) → mget s.objs tag = some o → s.lineage? o.lineage = some l →
      let groups := s.groups.filter (fun g => !(g.pool && g.phase = 1 && g.tag = tag))
      (typ = 4 → ∃ t g k, exec i s = .next t ∧ t.groups = groups ++ [g] ∧ g.phase = 1 ∧ g.tag = tag ∧ g.addr = r.a ∧ g.part = o.part ∧
        t.lineage? o.lineage = some k ∧ k.gen = l.gen + 1 ∧ k.consumed = some r.a ∧ k.reserved = false ∧ t.cores = s.cores ∧ t.mem = s2.mem) ∧
      (typ = 5 → o.midRegion = true → ∃ t, exec i s = .next t ∧ Claims.completed t q r 0x10 0x11 ∧ t.cores = s.cores ∧ t.lineages = s.lineages) ∧
      (typ = 5 → o.midRegion = false → ∀ bs, s2.readVa p.id 0 r.a (s2.objSize p.id r.a) = .bytes bs →
        Claims.Copies s (s2.readLeaves none p.id 0 r.a (s2.objSize p.id r.a)) q p r o bs.length) ∧
      (typ = 6 → ∃ t k, exec i s = .next t ∧ t.lineage? o.lineage = some k ∧ k.gen = l.gen + 1 ∧ k.consumed = some r.a ∧ k.reserved = false ∧
        t.groups = groups ∧ t.cores = s.cores ∧ (r.flags / 2 % 2 = 0 → Claims.completed t q r 0 0) ∧ (o.forked = true → t.launches = s.launches) ∧
        (o.forked = false → o.sections ≠ [] → ∀ x, s.launch? o.launch = some x → ∃ y, t.launch? o.launch = some y ∧ 0x12 ≤ y.report.cls ∧
          y.done = x.done ∧ y.suspended = x.suspended - o.sections.length)))

/-- R267, R416, R417: a CHECKPOINT record marks the dirty pages of its partition that lie in HBM, those marked already with them, takes the translations of the
partition from the TLBs, and begins an increment; each later event of it copies the next page behind its descriptor into the area, once the writes to the
page that were released before have performed, or, with no page left, writes the header with the number of pages and their CRC. One whose area is too small
completes with DATA_LOSS (0x20), and so does one that has met an uncorrectable word. That held writes find their pages clean again, and how the
uncorrectable words of a page are reported, is the model's choice (log 27). -/
def Sys2Proof.Claims.Checkpoints : Prop :=
  (∀ (s : State) (q : Queue) (p : Partition) (r : SubRec), Claims.accepts s q p r 7 → Claims.shaped r 3 → r.a % 4096 = 0 → 1 ≤ r.c →
    s.ckptOf q.id = none → s.ckptBusy q.id = false →
    let s1 := s.capture p.id 1 q.id r.serial
    let marked := (s1.pages p.id).filter (fun x => (x.low.getLsbD 5 || x.low.getLsbD 6) && windowOf x.frame != 4)
    ∃ t c, exec (.checkpointRecord q.id) s = .next t ∧ t.ckpts = s.ckpts ++ [c] ∧ c.part = p.id ∧ c.queue = q.id ∧ c.serial = r.serial ∧ c.area = r.a ∧
      c.size = r.b ∧ c.k = r.c ∧ c.b = s.now ∧ c.len = 0 ∧ c.count = 0 ∧ c.pages = marked.map (fun x => (x.va, x.frame, x.size, x.entry)) ∧
      (∀ x ∈ marked, (Memory.get t.mem x.entry).getLsbD 6 = true ∧ (Memory.get t.mem x.entry).getLsbD 5 = false) ∧
      (∀ a, (∀ x ∈ marked, x.entry ≠ a) → Memory.get t.mem a = Memory.get s1.mem a) ∧
      t.quadTlb = s.quadTlb.filter (fun x => x.2.part != p.id) ∧
      ∀ n, t.core n = { s.core n with tlb := (s.core n).tlb.filter (fun x => x.part != p.id), held := (t.core n).held } ∧
        ((s.core n).step.any (fun i => i.part = p.id) = true → ∀ h ∈ (t.core n).held, ∀ y ∈ h.pages, y.dirty = false) ∧
        ((s.core n).step.any (fun i => i.part = p.id) = false → (t.core n).held = (s.core n).held)) ∧
  (∀ (s : State) (c : Ckpt) (va pa size entry : Nat) (rest : List (Nat × Nat × Nat × Nat)),
    s.ckptOf c.queue = some c → c.pages = (va, pa, size, entry) :: rest → c.len + size + 128 ≤ c.size →
    (∀ x ∈ s.rels, ∀ y ∈ x.eff.homes, y < pa ∨ pa + size ≤ y) → Claims.atomicsWhole s →
    let at_ := hostPa (c.area + 64 + c.len)
    ∃ t e, exec (.checkpointRecord c.queue) s = .next t ∧ t.cores = s.cores ∧
      t.ckptOf c.queue = some { c with pages := rest, len := c.len + 64 + size, count := c.count + 1, err := e
                                       crc := crc64 c.crc (pageDesc va pa size ++ Memory.read s.mem pa size) } ∧
      (s.badWord pa size = none → e = c.err) ∧ (s.badWord pa size ≠ none → 0x20 ≤ e.cls) ∧
      (entry < at_ → Memory.val t.mem at_ 8 = va % 2 ^ 64 ∧ (∀ k, k < size → Memory.get t.mem (at_ + 64 + k) = Memory.get s.mem (pa + k)) ∧
        (Memory.get t.mem entry).getLsbD 6 = false) ∧
      (∀ a, a ≠ entry → a < at_ ∨ at_ + 64 + size ≤ a → Memory.get t.mem a = Memory.get s.mem a)) ∧
  (∀ (s : State) (c : Ckpt), s.ckptOf c.queue = some c → c.pages = [] → c.quiet = true → c.err = {} → 64 + c.len ≤ c.size → Claims.atomicsWhole s →
    ∃ t, exec (.checkpointRecord c.queue) s = .next t ∧ t.cores = s.cores ∧ (∀ x ∈ t.ckpts, x ∈ s.ckpts ∧ (x.queue ≠ c.queue ∨ x.serial ≠ c.serial)) ∧
      Memory.val t.mem (hostPa c.area) 8 = 0x31434E495F4E4553 ∧ Memory.val t.mem (hostPa c.area + 0x20) 8 = c.count % 2 ^ 64 ∧
      Memory.val t.mem (hostPa c.area + 0x28) 8 = c.crc.toNat) ∧
  (∀ (s : State) (c : Ckpt) (q : Queue) (r : SubRec), s.ckptOf c.queue = some c → s.queue? q.id = some q → q.id = c.queue → r.tag = c.tag → Claims.atomicsWhole s →
    (c.pages = [] → 64 + c.len ≤ c.size → c.quiet = false ∨ 0x10 ≤ c.err.cls → c.err.cls < 256 → c.err.cause < 256 →
      c.err.addrk < 256 → c.err.engine < 16 → c.err.level < 4 → c.err.core < 256 →
      ∃ t, exec (.checkpointRecord q.id) s = .next t ∧ Claims.completed t q r c.err.cls (if c.err.cls = 0 then 0 else c.err.cause)) ∧
    ((c.pages = [] ∧ c.size < 64 + c.len) ∨
        (∃ va pa size entry rest, c.pages = (va, pa, size, entry) :: rest ∧ c.size < c.len + size + 128 ∧
          ∀ x ∈ s.rels, ∀ y ∈ x.eff.homes, y < pa ∨ pa + size ≤ y) → c.err.cls < 0x20 →
      ∃ t, exec (.checkpointRecord q.id) s = .next t ∧ Claims.completed t q r 0x20 0 ∧
        ∀ x ∈ t.ckpts, x ∈ s.ckpts ∧ (x.queue ≠ c.queue ∨ x.serial ≠ c.serial)))

/-- R247, R254, R372 to R376, R386, R410 to R412, R416, R417: what submission records do. How a FORK record whose copy cannot be written completes, and how a
checkpoint reports words it cannot read, is the model's choice (log 27). -/
def Obligations.SubmissionRecords : Prop := Claims.BadRecords ∧ Claims.LaunchRecords ∧ Claims.ObjectRecords ∧ Claims.Checkpoints

/-! ### Commands of PF 0 (R20, R109 to R112, R268, R270, R275, R335, R385, R387, R390, R394, R397, R399, R407, R415, R418, R419, R422 to R424, R435) -/

/-- The command has been answered with a class, and no more than `f` tells of the package has changed. -/
def Sys2Proof.Claims.answered (s t : State) (i : Instr) (cls : Nat) (f : State) : Prop :=
  exec i s = .next t ∧ ∃ d, t = { f with results := s.results ++ [⟨cls, d⟩] }

/-- Windows stay as they are while both their bulkheads have the owners they were opened for; others are closed and forget their requests (R393, log 48). -/
abbrev Sys2Proof.Claims.gated (s t : State) : Prop :=
  t.windows = s.windows.map (fun w => if t.ownerOf w.bulkhead = some w.wpart ∧ t.ownerOf (bulkheadOf w.tcore) = some w.tpart then w
    else { w with isOpen := false, reqs := [] })

/-- R393, R394, R407, R418: a partition is created on free bulkheads of the grid, with the configuration block measured after the identity decode table and no table root; it
is resized or removed only while no step of it is resident and no launch queued, and its removal unbinds its virtual functions; a virtual function is
bound while none of its queues is enabled; a queue is assigned while it is not enabled, at its reset values. A command that may not act
is answered BUSY (0x13), or with class 0x10, and has no other effect. That windows of a bulkhead that changes hands close is the model's choice (log 48). -/
def Sys2Proof.Claims.PartitionSetup : Prop :=
  (∀ (s : State) (k r c h w : Nat) (cfg : List Byte),
    let ok := k < 32 ∧ s.part? k = none ∧ cfg.length = 64 ∧ 1 ≤ h ∧ 1 ≤ w ∧ r + h ≤ 4 ∧ c + w ≤ 8 ∧
      ∀ p ∈ s.parts, p.id = k ∨ p.brow + p.bheight ≤ r ∨ r + h ≤ p.brow ∨ p.bcol + p.bwidth ≤ c ∨ c + w ≤ p.bcol
    (ok → ∃ t p, exec (.partitionCreate k r c h w cfg) s = .next t ∧ t.parts = s.parts ++ [p] ∧ p.id = k ∧ p.brow = r ∧ p.bcol = c ∧ p.bheight = h ∧
      p.bwidth = w ∧ p.root = none ∧ p.dtab = ⟨1, []⟩ ∧ p.locked = none ∧ p.tokens = 4 ∧ p.params.td = 65536 ∧ p.params.tk = 16384 ∧
      p.measure = shake256 (p.dimage ++ cfg) 64 ∧ p.dimage.length = 4160 ∧ t.mem = s.mem ∧ t.cores = s.cores ∧
      ∃ d, t.results = s.results ++ [⟨0, d⟩]) ∧
    (¬ ok → ∃ t, Claims.answered s t (.partitionCreate k r c h w cfg) 0x10 s)) ∧
  (∀ (s : State) (k r c h w : Nat) (p : Partition), s.part? k = some p → s.gridOk k r c h w = true →
    (s.resident k || s.queued k) = false →
    ∃ t, exec (.partitionResize k r c h w) s = .next t ∧ t.part? k = some { p with brow := r, bcol := c, bheight := h, bwidth := w } ∧
      t = { s with parts := t.parts, windows := t.windows, results := t.results } ∧ (∀ j, j ≠ k → t.part? j = s.part? j) ∧ Claims.gated s t ∧
      ∃ d, t.results = s.results ++ [⟨0, d⟩]) ∧
  (∀ (s : State) (k r c h w : Nat) (p : Partition), s.part? k = some p → s.gridOk k r c h w = true → (s.resident k || s.queued k) = true →
    (∃ t, Claims.answered s t (.partitionResize k r c h w) 0x13 s) ∧ ∃ t, Claims.answered s t (.partitionRemove k) 0x13 s) ∧
  (∀ (s : State) (k : Nat) (p : Partition), s.part? k = some p → (s.resident k || s.queued k) = false →
    ∃ t, exec (.partitionRemove k) s = .next t ∧ t.part? k = none ∧ (∀ v, v ∈ t.vfs ↔ v ∈ s.vfs ∧ v.2 ≠ k) ∧
      t = { s with parts := t.parts, vfs := t.vfs, lineages := t.lineages, windows := t.windows, results := t.results } ∧ Claims.gated s t ∧
      (∀ l, l ∈ t.lineages ↔ l ∈ s.lineages ∧ l.id ≠ p.ckptLineage) ∧ (∃ d, t.results = s.results ++ [⟨0, d⟩]) ∧
      ∀ x ∈ s.parts, x.id ≠ k → x ∈ t.parts) ∧
  (∀ (s : State) (v k : Nat), v < 96 → (s.part? k).isSome = true →
    ((∀ q ∈ s.queues, q.vf = v → q.en = false) → ∃ t, exec (.bindVf v k) s = .next t ∧ mget t.vfs v = some k ∧
      t = { s with vfs := t.vfs, results := t.results }) ∧
    ((∃ q ∈ s.queues, q.vf = v ∧ q.en = true) → ∃ t, Claims.answered s t (.bindVf v k) 0x13 s)) ∧
  (∀ (s : State) (q v : Nat), q < 2048 → v < 96 →
    ((∀ x ∈ s.queues, x.id = q → x.en = false) → (∃ j, j < 64 ∧ ∀ x ∈ s.queues, x.vf = v → x.j ≠ j) →
      ∃ t x, exec (.assignQueue q v) s = .next t ∧ t.queue? q = some x ∧ x = { id := q, vf := v, j := x.j } ∧ x.j < 64 ∧
        (∀ y ∈ s.queues, y.id ≠ q → y ∈ t.queues ∧ (y.vf = v → y.j ≠ x.j)) ∧ t = { s with queues := t.queues, results := t.results }) ∧
    ((∃ x ∈ s.queues, x.id = q ∧ x.en = true) → ∃ t, Claims.answered s t (.assignQueue q v) 0x13 s))

/-- The byte at `e.va` or one of the `size` after it is covered by an invalidation (R275). -/
abbrev Sys2Proof.Claims.covered (w : InvScope) (va size : Nat) : Prop :=
  match w with
  | .page a => va ≤ a ∧ a < va + size
  | .range a n => va < a + n ∧ a < va + size
  | .whole => True

/-- R268, R270, R275: a table root lies in present HBM at a multiple of 4,096 below 2^48; INVALIDATE removes every translation and every walker's pointer that it covers and no
other, and is answered once no held write rests on one. -/
def Sys2Proof.Claims.Translation : Prop :=
  (∀ (s : State) (k root : Nat) (p : Partition), s.part? k = some p →
    (root % 4096 = 0 → root < 2 ^ 48 → root / 2 ^ 45 % 8 ≤ 2 → root % 2 ^ 45 + 4096 ≤ s.present (root / 2 ^ 45 % 8) →
      ∃ t, exec (.setPtroot k root) s = .next t ∧ t.part? k = some { p with root := some root } ∧ t = { s with parts := t.parts, results := t.results }) ∧
    (root % 4096 ≠ 0 ∨ 2 < root / 2 ^ 45 ∨ s.present (root / 2 ^ 45 % 8) < root % 2 ^ 45 + 4096 → ∃ t, Claims.answered s t (.setPtroot k root) 0x10 s)) ∧
  (∀ (s : State) (k : Nat) (w : InvScope) (p : Partition), s.part? k = some p →
    ∃ t, exec (.invalidate k w) s = .next t ∧
      t = { s with cores := t.cores, quadTlb := t.quadTlb, ptrs := t.ptrs, invs := t.invs, nextId := t.nextId, results := t.results } ∧
      (∀ n e, e ∈ (t.core n).tlb ↔ e ∈ (s.core n).tlb ∧ ¬ (e.part = k ∧ Claims.covered w e.va e.size)) ∧
      (∀ x, x ∈ t.quadTlb ↔ x ∈ s.quadTlb ∧ ¬ (x.2.part = k ∧ Claims.covered w x.2.va x.2.size)) ∧
      (∀ e, e ∈ t.ptrs ↔ e ∈ s.ptrs ∧ ¬ (e.part = k ∧ Claims.covered w e.va e.size)) ∧
      (∀ n, t.core n = { s.core n with tlb := (t.core n).tlb, walkFaults := (t.core n).walkFaults } ∧
        (t.core n).walkFaults = if (s.core n).step.any (fun i => i.part = k) then [] else (s.core n).walkFaults) ∧
      (s.holdsUnder k w s.nextId = false → t.invs = s.invs ∧ t.results = s.results ++ [⟨0, []⟩]) ∧
      (s.holdsUnder k w s.nextId = true → t.invs = s.invs ++ [(k, w, s.nextId)] ∧ t.results = s.results) ∧
      ((∀ x ∈ s.cores, x.2.held = []) → s.holdsUnder k w s.nextId = false) ∧
      ∀ n i h, (n, s.core n) ∈ s.cores → (s.core n).step = some i → i.part = k → h ∈ (s.core n).held → h.id < s.nextId →
        (∃ g ∈ h.pages, Claims.covered w g.va g.size) → s.holdsUnder k w s.nextId = true) ∧
  (∀ (s : State) (k : Nat) (w : InvScope) (id : Nat), (k, w, id) ∈ s.invs →
    (s.holdsUnder k w id = false → ∃ t, (Ev.invalidate k w id).run s = .next t ∧ t = { s with invs := t.invs, results := s.results ++ [⟨0, []⟩] } ∧
      ∀ x, x ∈ t.invs ↔ x ∈ s.invs ∧ x ≠ (k, w, id)) ∧
    (s.holdsUnder k w id = true → (Ev.invalidate k w id).enabled s = false))

/-- R109 to R112, R387, R390, R418: a decode table that R110 accepts becomes the partition's, and is measured; its reading leaves no more than A bits and corrected
single-bit errors. SET_MMODE is refused while a step is resident; accepted, it quiesces the memory network, whose quiet a later event finds; the last
sets the mode and its boundaries, keeps every byte that is present before and after, and answers. That a second SET_MMODE meanwhile is refused is the
model's choice (log 10). -/
def Sys2Proof.Claims.TablesAndModes : Prop :=
  (∀ (s : State) (k addr : Nat) (p : Partition) (b : List Byte), s.part? k = some p → s.readVa k 0 addr 4160 = .bytes b →
    (s.resident k || s.queued k) = false →
    ∃ t, exec (.decodeTableLoad k addr) s = .next t ∧ Claims.onlyMarks s t ∧
      t = { s with mem := t.mem, memCe := t.memCe, cacheErr := t.cacheErr, evlog := t.evlog, scrubs := t.scrubs, parts := t.parts, results := t.results } ∧
      (s.memCe = [] → t.memCe = [] ∧ t.evlog = s.evlog ∧ t.scrubs = s.scrubs) ∧
      (∀ d, tableOf b = some d → t.part? k = some { p with dtab := d, dimage := b, measure := shake256 (b ++ p.cfg) 64 } ∧
        t.results = s.results ++ [⟨0, []⟩]) ∧
      (tableOf b = none → t.parts = s.parts ∧ t.results = s.results ++ [⟨0x10, []⟩]) ∧
      (leVal (b.take 2) = 0 ∨ leVal ((b.drop 2).take 2) ≠ 1 ∨ leVal ((b.drop 4).take 4) ≠ 1024 → tableOf b = none)) ∧
  (∀ (s : State) (m : Nat), m < 3 → s.mmodeTo = none →
    (s.anyResident = false → (∀ l ∈ s.launches, l.phase ≠ 0) → (∀ g ∈ s.groups, 2 ≤ g.phase) → (∀ w ∈ s.windows, w.isOpen = false) →
      exec (.setMmode m) s = .next { s with mmodeTo := some m }) ∧
    (s.anyResident = true → ∃ t, Claims.answered s t (.setMmode m) 0x13 s)) ∧
  (∀ (s : State) (m k : Nat), m < 3 → s.mmodeTo = some k → ∃ t, Claims.answered s t (.setMmode m) 0x13 s) ∧
  (∀ (s : State) (m : Nat), s.mmodeTo = some m → s.rels = [] → s.reads = [] → s.walks = [] → s.hostWrites = [] →
    let spread := if m = 0 then 0x2400000000 else if m = 1 then 0x1200000000 else 0
    (s.quiesced = false → Ev.mmode.run s = .next { s with quiesced := true }) ∧
    (s.quiesced = true → m < 3 → ∃ t, Ev.mmode.run s = .next t ∧
      t = { s with mmode := m, sprtop := 2 * spread, dtop0 := 0x2400000000 - spread, dtop1 := 0x2400000000 - spread, quiesced := false, mmodeTo := none
                   quadTlb := [], ptrs := [], cacheErr := [], mem := t.mem, memUe := t.memUe, memCe := t.memCe, cores := t.cores
                   results := s.results ++ [⟨0, []⟩] } ∧
      (∀ a, 4 ≤ a / 2 ^ 45 % 8 ∨ a % 2 ^ 45 < s.present (a / 2 ^ 45 % 8) ∧ a % 2 ^ 45 < t.present (a / 2 ^ 45 % 8) →
        Memory.get t.mem a = Memory.get s.mem a) ∧ ∀ n, t.core n = { s.core n with tlb := [] }))

/-- R394, R397, R399, R407, R418: how a partition is set up, translated and closed off. -/
def Obligations.PartitionCommands : Prop := Claims.PartitionSetup ∧ Claims.Translation ∧ Claims.TablesAndModes

/-- R397, R399: a window opens with the second of two matching requests, from the writer's and the target's partition, and its granules are empty from then on;
the first request is held, and answered. One whose place an open window has is refused with BUSY, and both requests lapse. That the first is answered, and that
both lapse, is the model's choice, DEDUCED from R397 (log 34). A window closes at once where no block is in
flight; else it lets no more blocks in, and closes at a later event, when the last has been delivered; every command that waits for that is answered. -/
def Sys2Proof.Claims.Windows : Prop :=
  (∀ (s : State) (wp tp b n core base len : Nat), b < 32 → n < 8 → core < 256 → base % 4096 = 0 → len % 4096 = 0 → len ≠ 0 → len ≤ 0x80000 →
    base + len ≤ 0x200000 → s.ownerOf b = some wp → s.ownerOf (bulkheadOf core) = some tp → wp ≠ tp → s.windows = [] →
    (∃ t w, exec (.windowOpen wp b n core base len) s = .next t ∧ w.isOpen = false ∧ w.reqs = [wp] ∧
      t = { s with windows := [w], results := s.results ++ [⟨0, []⟩] }) ∧
    (∀ k, k ≠ wp → k ≠ tp → ∃ t, Claims.answered s t (.windowOpen k b n core base len) 0x30 s) ∧
    (∀ w, w = ⟨b, n, tp, core, base / 4096, len / 4096 - 1, 0, false, [wp], 0, wp, [], none⟩ →
      ((s.core core).step = none →
        ∃ t x, exec (.windowOpen tp b n core base len) { s with windows := [w] } = .next t ∧
          t = { s with windows := [x], cores := t.cores, results := s.results ++ [⟨0, []⟩] } ∧
          x = { w with isOpen := true, reqs := [tp, wp] } ∧ 4096 * x.tbase = base ∧ 4096 * (x.tlen + 1) = len ∧
          (∀ m, m ≠ core → t.core m = s.core m) ∧ t.core core = { s.core core with empties := (t.core core).empties } ∧
          (∀ g, base / 64 ≤ g → g < (base + len) / 64 → (t.core core).isEmpty g = true) ∧
          (∀ g, g < base / 64 ∨ (base + len) / 64 ≤ g → (t.core core).isEmpty g = (s.core core).isEmpty g)) ∧
      ∀ o : Win, o.isOpen = true → o.bulkhead = b → o.n = n →
        ∃ t, Claims.answered { s with windows := [o, w] } t (.windowOpen tp b n core base len) 0x13 { s with windows := [o] })) ∧
  (∀ (s : State) (w : Win), s.windows.find? (fun x => x.isOpen && x.bulkhead = w.bulkhead && x.n = w.n) = some w →
    (s.windowInFlight w.bulkhead w.n = false → ∃ t, exec (.windowClose w.wpart w.bulkhead w.n) s = .next t ∧
      t = { s with windows := t.windows, results := s.results ++ [⟨0, []⟩] } ∧
      (∀ x ∈ t.windows, x.bulkhead = w.bulkhead → x.n = w.n → x.isOpen = false) ∧
      ∀ x ∈ s.windows, x.bulkhead ≠ w.bulkhead ∨ x.n ≠ w.n → x ∈ t.windows) ∧
    (∀ k, k = w.wpart ∨ k = w.tpart → s.windowInFlight w.bulkhead w.n = true → ∃ t, exec (.windowClose k w.bulkhead w.n) s = .next t ∧
      t = { s with windows := t.windows } ∧ { w with closing := w.closing + 1 } ∈ t.windows ∧
      ∀ x ∈ s.windows, x.bulkhead ≠ w.bulkhead ∨ x.n ≠ w.n → x ∈ t.windows) ∧
    (∀ k, k ≠ w.wpart → k ≠ w.tpart → ∃ t, Claims.answered s t (.windowClose k w.bulkhead w.n) 0x30 s)) ∧
  (∀ (s : State) (w : Win), s.windows = [w] → w.closing ≠ 0 → s.windowInFlight w.bulkhead w.n = false →
    (Ev.windowClose w.bulkhead w.n).run s = .next { s with
      windows := [{ w with isOpen := false, closing := 0, reqs := [] }], results := s.results ++ List.replicate w.closing ⟨0, []⟩ })

/-- R335, R364, R365, R385, R415, R418, R419, R422 to R424, R435: parameters of a partition while none of its steps is resident, with a pool of at most 64 aligned slots;
parameters of the package within their ranges; the host window of at most 2^45 bytes in steps of 2^30, while no step is resident; a retired core
returns while nothing runs in its bulkhead; a lock extends the measurement and the manifest, and a launch that runs unmatched is dispatched no further and
reports SECURITY; a report carries the measurement and the nonce; capture mode; the logs. The 56 bytes of an entry of the event log, the order of the parts of a
report, and that a second lock adds to the manifest, are the model's choice (log 10). -/
def Sys2Proof.Claims.Settings : Prop :=
  (∀ (s : State) (k : Nat) (v : PartParams) (p : Partition), s.part? k = some p →
    (v.poolCount ≤ 64 → v.poolBase % 4096 = 0 → v.poolSlot % 4096 = 0 → s.resident k = false →
      ∃ t, exec (.setPartitionParameters k v) s = .next t ∧ t.part? k = some { p with params := v } ∧ t = { s with parts := t.parts, results := t.results }) ∧
    (64 < v.poolCount → ∃ t, Claims.answered s t (.setPartitionParameters k v) 0x10 s)) ∧
  (∀ (s : State) (v : PackParams),
    (250 ≤ v.cap → v.cap ≤ 850 → v.scrubHbm ≠ 0 → v.scrubCache ≠ 0 → v.ptpInterval ≠ 0 → ∃ t, Claims.answered s t (.setPackageParameters v) 0
      { s with cap := v.cap, threshold := v.threshold, scrubHbm := v.scrubHbm, scrubCache := v.scrubCache, ptpInterval := v.ptpInterval }) ∧
    (v.cap < 250 ∨ 850 < v.cap → ∃ t, Claims.answered s t (.setPackageParameters v) 0x10 s)) ∧
  (∀ (s : State) (n : Nat),
    (n ≤ 2 ^ 45 → n % 2 ^ 30 = 0 → s.anyResident = false → ∃ t, Claims.answered s t (.setHostsz n) 0 { s with hostsz := n }) ∧
    (n ≤ 2 ^ 45 → n % 2 ^ 30 = 0 → s.anyResident = true → ∃ t, Claims.answered s t (.setHostsz n) 0x13 s) ∧
    (2 ^ 45 < n ∨ n % 2 ^ 30 ≠ 0 → ∃ t, Claims.answered s t (.setHostsz n) 0x10 s)) ∧
  (∀ (s : State) (c : Nat), c < 256 → (∀ x ∈ s.cores, bulkheadOf x.1 = bulkheadOf c → x.2.step = none) →
    ∃ t, Claims.answered s t (.clearRetirement c) 0 { s with retired := s.retired.filter (fun n => n != c) }) ∧
  (∀ (s : State) (k : Nat) (m : List Byte) (p : Partition), s.part? k = some p → m.length % 64 = 0 → s.resident k = false →
    let x : Partition := { p with measure := shake256 (p.measure ++ m) 64, locked := some (p.locked.getD [] ++ m) }
    let unmatched (l : Launch) : Prop := l.part = k ∧ l.phase = 1 ∧ x.bars l.code l.words = true
    ∃ t, exec (.lockPartition k m) s = .next t ∧ t.part? k = some x ∧ t.results = s.results ++ [⟨0, []⟩] ∧ t.cores = s.cores ∧ t.mem = s.mem ∧
      ((∀ l ∈ s.launches, ¬unmatched l) → t = { s with parts := t.parts, results := t.results }) ∧
      ∀ l, s.launches.filter (fun y => y.id = l.id) = [l] → unmatched l → s.stepsLeft l = true →
        ∃ y, t.launch? l.id = some y ∧ y.nextStep = y.total ∧ y.ahead = [] ∧ y.redo = [] ∧ y.done = l.done ∧ 0x30 ≤ y.report.cls) ∧
  (∀ (s : State) (k : Nat) (nonce : List Byte) (p : Partition), s.part? k = some p → nonce.length = 64 →
    ∃ t d, exec (.attest k nonce) s = .next t ∧ t.results = s.results ++ [⟨0, d⟩] ∧ t = { s with free := t.free, results := t.results } ∧
      (∃ a b, d = a ++ p.measure ++ nonce ++ Config.identityBlock ++ b) ∧ ∃ rep, d = rep ++ Config.sign448 rep) ∧
  (∀ (s : State) (k ring : Nat) (on : Bool) (p : Partition), s.part? k = some p → s.resident k = false →
    ∃ t, exec (.setCaptureMode k on ring) s = .next t ∧ t.part? k = some { p with capture := if on then some ring else none } ∧
      t = { s with parts := t.parts, results := t.results }) ∧
  (∀ s : State, (∃ t, Claims.answered s t .readEventLog 0 s ∧ ∃ d, t.results = s.results ++ [⟨0, d⟩] ∧ d.length = 56 * s.evlog.length) ∧
    ∃ t, Claims.answered s t .readPfailManifest 0 s ∧ ∃ d, t.results = s.results ++ [⟨0, d⟩] ∧
      (s.banks.1.valid = false → s.banks.2.valid = false → d = []) ∧
      ∀ m, (s.banks.1 = m ∧ s.banks.2.seq < m.seq ∨ s.banks.2 = m ∧ s.banks.1.seq < m.seq) → m.valid = true →
        d.length = 65536 ∧ leVal (d.take 8) = 0x31464D5F4C494146 ∧ leVal ((d.drop 8).take 8) = m.seq % 2 ^ 64 ∧
        leVal (d.drop 65528) = (crc64 0 (d.take 65528)).toNat)

/-- R335, R364, R365, R385, R397, R399, R415, R418, R419, R422 to R424, R435: windows, parameters, security and logs. The layouts of the event log's entries and of
a report's parts (log 10), and what becomes of the requests for a window (log 34), are the model's choices. -/
def Obligations.PackageCommands : Prop := Claims.Windows ∧ Claims.Settings

/-! ### The machine as a whole -/

/-- R158, R380, R384, R391, R424, R435: what package reset leaves. Device time is 0 and no core has a step; the boundary registers, the anchor and the servo, the
power cap and the size of the host window stand at their reset values; no memory is listed, which is a canonical form. That nothing is submitted,
queued, launched or in flight is the model's reading of a reset (log 2, log 3). -/
def Obligations.ResetState : Prop :=
  let r := State.reset
  r.now = 0 ∧ (∀ n, (r.core n).step = none) ∧
  r.mmode = 0 ∧ r.quiesced = false ∧ r.wberr = false ∧ r.sprtop = 0x4800000000 ∧ r.dtop0 = 0 ∧ r.dtop1 = 0 ∧
  r.ptp.d0 = 0 ∧ r.ptp.p0 = 0 ∧ r.ptp.rate = 2 ^ 40 * 10 / 19 ∧ r.ptp.lock = false ∧ r.ptp.seq = 0 ∧ r.ptp.err = 0 ∧
  r.cap = 700 ∧ r.derated = false ∧ r.hostsz = 2 ^ 45 ∧
  r.parts = [] ∧ r.queues = [] ∧ r.launches = [] ∧ r.groups = [] ∧ r.windows = [] ∧ r.rels = [] ∧ r.reads = [] ∧ r.walks = [] ∧
  (∀ n, (r.core n).arch = {}) ∧ r.mem = [] ∧ Memory.wf r.mem

/-- R24, R27, R28, R103, R107, R421: a step of a running package performs the input that waits, if it may act now; else the event that comes next. If that is
the next word of core `n` and the word lies wholly in its code region, the step is the meaning of the instruction to which the word decodes, at that
core; a word that is not wholly inside takes the trap of R28, an unassigned opcode that of R103. A word of a coupled core in a cycle in which some members of its
quad end their regions and itself not raises CHAIN (0x12) in its stead, and the other members owe that trap at their next words (R216, log 51). Under decode map 1 the word is the one that
`decodeBytes` reads at the program counter. A package that has ended does nothing. -/
def Obligations.StepRunsDecodedWord : Prop :=
  (∀ (s u : State) (e : Ev), s.life = .running → s.inputs = [] → s.pick = some (e, u) →
    step s = e.run u ∧
    (∀ n, e = .issue n →
      ((u.core n).outside = true → step s = .next (u.fetchTrap n)) ∧
      ((u.core n).outside = false → u.tornCycle n = true → step s = .next ((u.quadChain n).trapNext n (u.core n).nextEngine 0x12 (fun _ => 0))) ∧
      ((u.core n).outside = false → u.tornCycle n = false →
        (∀ i, (u.core n).decodeAt (u.core n).pc = .instr i → step s = exec i { u with cur := n }) ∧
        (∀ op, (u.core n).decodeAt (u.core n).pc = .unassigned op → step s = execUnassignedOpcode n u)))) ∧
  (∀ (s : State) (n : Nat), (s.core n).coupled = false → s.tornCycle n = false) ∧
  (∀ (s : State) (i : Instr) (r : List Instr), s.life = .running → s.inputs = i :: r → isInput i = true → s.inputNow i = true →
    step s = exec i { s with inputs := r }) ∧
  (∀ (c : Core) (d : Decoded) (rest : List Byte), c.dtab.rows = [] → decodeBytes (Memory.read c.spad c.pc 24) = some (d, rest) →
    c.decodeAt c.pc = d) ∧
  (∀ s : State, s.life = .ended → step s = .fault .packageStopped)

/-- R27, R107, R108, and the encodings that the spec writes out in R247, R252, R255, R283, R292, R295, R312, R316, R318, R323, R345, R362, R363, R367 and R373: each
of these words decodes to the word that the spec names with the operands it gives, and words of opcodes that R108 names are unassigned. The units stand in memory
order. -/
def Obligations.DecodeWords : Prop :=
  (∀ x ∈ ([(0x48480000, .fenceRc ⟨1, 0, 0, 0, 0⟩), (0x48080084, .launch ⟨1, 0, 1, 2, 0⟩), (0x48880180, .hint ⟨1, 0, 3, 0, 0⟩),
      (0x40886090, .ldgD ⟨1, 3, 1, 2, 0, 0⟩), (0x41488080, .stgD ⟨1, 4, 1, 0, 0, 0⟩), (0x420FFFFC, .fence ⟨1, 0xFFFF, 4⟩),
      (0x4408C10E, .commitAAddD ⟨1, 6, 2, 7, 0⟩), (0x4A086002, .precv ⟨1, 3, 0, 2⟩), (0x4908A084, .ask ⟨1, 5, 1, 2, 0⟩),
      (0x430E01E0, .check ⟨1, 48, 3, 48, 0⟩), (0x43085860, .check ⟨1, 2, 48, 48, 0⟩), (0x22C80005, .trap ⟨1, 0, 5⟩), (0x23080000, .rett ⟨1, 0, 0, 0, 0⟩),
      (0x4C080084, .suspend ⟨1, 0, 1, 2, 0⟩), (0x4C480084, .resume ⟨1, 0, 1, 2, 0⟩), (0x48081804, .launchSignal ⟨1, 0, 48, 2, 0⟩)]
      : List (BitVec 32 × Instr)),
    decodeBytes (unitBytes [x.1]) = some (.instr x.2, [])) ∧
  decodeBytes (unitBytes [0xB0880000, 0x00480000, 0]) = some (.instr (.cresume ⟨1, 0, 0, 0, 9, 0, 0, 0, 0, 0, 0, 0, 0⟩), []) ∧
  decodeBytes (unitBytes [0xB1080030, 0x38000000, 1]) = some (.instr (.psend ⟨1, 0, 6, 7, 0, 0, 0, 0, 0, 0, 0, 0, 1⟩), []) ∧
  decodeBytes (unitBytes [0xA6081009, 0x80002000, 0x20000000]) =
    some (.instr (.vldg ⟨1, 2, 1, 48, 0, 0, 0, 4, 0, 0, 0, 1, 0, 0⟩), []) ∧
  (∀ op ∈ ([0x0A7, 0x0CC, 0x106, 0x10D, 0x117, 0x140, 0x1FF] : List Nat), ∀ r,
    decodeBytes (unitBytes [BitVec.ofNat 32 (op * 2 ^ 22)] ++ r) = some (.unassigned op, r))

/-- R27, R88 to R102, R107: the decoder and the encoder agree. Every word of every opcode of decode map 1, with every value of every field, followed by any bytes, is read
back from its own encoding, whose length its opcode gives; the rest of the bytes is left. Words that differ are encoded differently. -/
def Obligations.EncodeDecode : Prop :=
  (∀ (i : Instr) (op : Nat) (rest : List Byte), i.opcode = some op → i.formOk = true →
    decodeBytes (unitBytes (wordUnits (lenBits op / 32) (encode i)) ++ rest) = some (.instr i, rest)) ∧
  (∀ (i j : Instr) (op : Nat), i.opcode = some op → j.opcode = some op → i.formOk = true → j.formOk = true →
    encode i = encode j → i = j)

/-- R37, R272, R279: the memory keeps its canonical form through every step of the package, whatever event or word it is, and device time never runs back but in
a reset of the package, which sets it to 0. -/
def Obligations.StepKeepsMemoryCanonical : Prop :=
  ∀ s t : State, Memory.wf s.mem → step s = .next t → Memory.wf t.mem ∧ (s.now ≤ t.now ∨ t.now = 0)

/-- R22, R44, R272: nothing leaves a core before it commits. No word of any opcode, however it ends (its effect under way, a freeze, a trap, the end of its step), changes
a byte of memory, its errors or an effect on its way to memory: only the events that follow a region's closing do. RESUME, FORK and DISCARD have
the control die read an object, which sets at most A bits of table entries and corrects single-bit errors. A machine error that a word meets goes
into the host ring of a partition in capture mode (R423; where in it, log 10): apart from such rings all of this holds, and it holds of all memory
where no partition is in capture mode. -/
def Obligations.WordsLeaveMemory : Prop :=
  ∀ (i : Instr) (s t : State), i.opcode.isSome = true → exec i s = .next t →
    t.rels = s.rels ∧ (∀ w ∈ t.memCe, w ∈ s.memCe) ∧
    (∀ a, Claims.noRing s a → Memory.get t.mem a = Memory.get s.mem a ∨ Memory.get t.mem a = Memory.get s.mem a ||| 0x10) ∧
    (∀ w, (∀ k, k < 8 → Claims.noRing s (8 * w + k)) → (w ∈ t.memUe ↔ w ∈ s.memUe)) ∧
    ((∀ w, i ≠ .resume w ∧ i ≠ .fork w ∧ i ≠ .discard w) → Claims.ringsOnly s t ∧
      (∀ w, (∀ k, k < 8 → Claims.noRing s (8 * w + k)) → (w ∈ t.memCe ↔ w ∈ s.memCe)) ∧
      ((∀ p ∈ s.parts, p.capture = none) → t.memCe = s.memCe))
end

