-- ==== Sys2Proof/Laws/Encoding.lean ====
section
/-! SUPPORT. The fields of a word of each form, read back from the word they make (R87 to R102). -/
namespace Sys2Proof

/-- The fields of a SR-form word are those it was made of. -/
theorem SRWord.ofNat_toNat (op : Nat) (x : SRWord) : SRWord.ofNat (x.toNat op) = x := by
  rcases x with ⟨x0, x1, x2, x3, x4⟩
  have h0 := x0.isLt
  have h1 := x1.isLt
  have h2 := x2.isLt
  have h3 := x3.isLt
  have h4 := x4.isLt
  simp only [SRWord.ofNat, SRWord.toNat, fld, SRWord.mk.injEq, ← BitVec.toNat_inj, BitVec.toNat_ofNat]
  and_intros <;> omega

/-- The opcode stands above the fields of a SR-form word. -/
theorem SRWord.toNat_top (op : Nat) (x : SRWord) : x.toNat op / 2 ^ 22 = op := by
  rcases x with ⟨x0, x1, x2, x3, x4⟩
  have h0 := x0.isLt
  have h1 := x1.isLt
  have h2 := x2.isLt
  have h3 := x3.isLt
  have h4 := x4.isLt
  simp only [SRWord.toNat]
  omega

/-- The fields of a SI-form word are those it was made of. -/
theorem SIWord.ofNat_toNat (op : Nat) (x : SIWord) : SIWord.ofNat (x.toNat op) = x := by
  rcases x with ⟨x0, x1, x2, x3⟩
  have h0 := x0.isLt
  have h1 := x1.isLt
  have h2 := x2.isLt
  have h3 := x3.isLt
  simp only [SIWord.ofNat, SIWord.toNat, fld, SIWord.mk.injEq, ← BitVec.toNat_inj, BitVec.toNat_ofNat]
  and_intros <;> omega

/-- The opcode stands above the fields of a SI-form word. -/
theorem SIWord.toNat_top (op : Nat) (x : SIWord) : x.toNat op / 2 ^ 22 = op := by
  rcases x with ⟨x0, x1, x2, x3⟩
  have h0 := x0.isLt
  have h1 := x1.isLt
  have h2 := x2.isLt
  have h3 := x3.isLt
  simp only [SIWord.toNat]
  omega

/-- The fields of a SL-form word are those it was made of. -/
theorem SLWord.ofNat_toNat (op : Nat) (x : SLWord) : SLWord.ofNat (x.toNat op) = x := by
  rcases x with ⟨x0, x1, x2⟩
  have h0 := x0.isLt
  have h1 := x1.isLt
  have h2 := x2.isLt
  simp only [SLWord.ofNat, SLWord.toNat, fld, SLWord.mk.injEq, ← BitVec.toNat_inj, BitVec.toNat_ofNat]
  and_intros <;> omega

/-- The opcode stands above the fields of a SL-form word. -/
theorem SLWord.toNat_top (op : Nat) (x : SLWord) : x.toNat op / 2 ^ 22 = op := by
  rcases x with ⟨x0, x1, x2⟩
  have h0 := x0.isLt
  have h1 := x1.isLt
  have h2 := x2.isLt
  simp only [SLWord.toNat]
  omega

/-- The fields of a SB-form word are those it was made of. -/
theorem SBWord.ofNat_toNat (op : Nat) (x : SBWord) : SBWord.ofNat (x.toNat op) = x := by
  rcases x with ⟨x0, x1, x2, x3⟩
  have h0 := x0.isLt
  have h1 := x1.isLt
  have h2 := x2.isLt
  have h3 := x3.isLt
  simp only [SBWord.ofNat, SBWord.toNat, fld, SBWord.mk.injEq, ← BitVec.toNat_inj, BitVec.toNat_ofNat]
  and_intros <;> omega

/-- The opcode stands above the fields of a SB-form word. -/
theorem SBWord.toNat_top (op : Nat) (x : SBWord) : x.toNat op / 2 ^ 22 = op := by
  rcases x with ⟨x0, x1, x2, x3⟩
  have h0 := x0.isLt
  have h1 := x1.isLt
  have h2 := x2.isLt
  have h3 := x3.isLt
  simp only [SBWord.toNat]
  omega

/-- The fields of a SJ-form word are those it was made of. -/
theorem SJWord.ofNat_toNat (op : Nat) (x : SJWord) : SJWord.ofNat (x.toNat op) = x := by
  rcases x with ⟨x0, x1⟩
  have h0 := x0.isLt
  have h1 := x1.isLt
  simp only [SJWord.ofNat, SJWord.toNat, fld, SJWord.mk.injEq, ← BitVec.toNat_inj, BitVec.toNat_ofNat]
  and_intros <;> omega

/-- The opcode stands above the fields of a SJ-form word. -/
theorem SJWord.toNat_top (op : Nat) (x : SJWord) : x.toNat op / 2 ^ 22 = op := by
  rcases x with ⟨x0, x1⟩
  have h0 := x0.isLt
  have h1 := x1.isLt
  simp only [SJWord.toNat]
  omega

/-- The fields of a SF-form word are those it was made of. -/
theorem SFWord.ofNat_toNat (op : Nat) (x : SFWord) : SFWord.ofNat (x.toNat op) = x := by
  rcases x with ⟨x0, x1, x2⟩
  have h0 := x0.isLt
  have h1 := x1.isLt
  have h2 := x2.isLt
  simp only [SFWord.ofNat, SFWord.toNat, fld, SFWord.mk.injEq, ← BitVec.toNat_inj, BitVec.toNat_ofNat]
  and_intros <;> omega

/-- The opcode stands above the fields of a SF-form word. -/
theorem SFWord.toNat_top (op : Nat) (x : SFWord) : x.toNat op / 2 ^ 22 = op := by
  rcases x with ⟨x0, x1, x2⟩
  have h0 := x0.isLt
  have h1 := x1.isLt
  have h2 := x2.isLt
  simp only [SFWord.toNat]
  omega

/-- The fields of a SC-form word are those it was made of. -/
theorem SCWord.ofNat_toNat (op : Nat) (x : SCWord) : SCWord.ofNat (x.toNat op) = x := by
  rcases x with ⟨x0, x1, x2⟩
  have h0 := x0.isLt
  have h1 := x1.isLt
  have h2 := x2.isLt
  simp only [SCWord.ofNat, SCWord.toNat, fld, SCWord.mk.injEq, ← BitVec.toNat_inj, BitVec.toNat_ofNat]
  and_intros <;> omega

/-- The opcode stands above the fields of a SC-form word. -/
theorem SCWord.toNat_top (op : Nat) (x : SCWord) : x.toNat op / 2 ^ 22 = op := by
  rcases x with ⟨x0, x1, x2⟩
  have h0 := x0.isLt
  have h1 := x1.isLt
  have h2 := x2.isLt
  simp only [SCWord.toNat]
  omega

/-- The fields of a SG-form word are those it was made of. -/
theorem SGWord.ofNat_toNat (op : Nat) (x : SGWord) : SGWord.ofNat (x.toNat op) = x := by
  rcases x with ⟨x0, x1, x2, x3, x4, x5⟩
  have h0 := x0.isLt
  have h1 := x1.isLt
  have h2 := x2.isLt
  have h3 := x3.isLt
  have h4 := x4.isLt
  have h5 := x5.isLt
  simp only [SGWord.ofNat, SGWord.toNat, fld, SGWord.mk.injEq, ← BitVec.toNat_inj, BitVec.toNat_ofNat]
  and_intros <;> omega

/-- The opcode stands above the fields of a SG-form word. -/
theorem SGWord.toNat_top (op : Nat) (x : SGWord) : x.toNat op / 2 ^ 22 = op := by
  rcases x with ⟨x0, x1, x2, x3, x4, x5⟩
  have h0 := x0.isLt
  have h1 := x1.isLt
  have h2 := x2.isLt
  have h3 := x3.isLt
  have h4 := x4.isLt
  have h5 := x5.isLt
  simp only [SGWord.toNat]
  omega

/-- The fields of a SX-form word are those it was made of. -/
theorem SXWord.ofNat_toNat (op : Nat) (x : SXWord) : SXWord.ofNat (x.toNat op) = x := by
  rcases x with ⟨x0, x1, x2, x3, x4⟩
  have h0 := x0.isLt
  have h1 := x1.isLt
  have h2 := x2.isLt
  have h3 := x3.isLt
  have h4 := x4.isLt
  simp only [SXWord.ofNat, SXWord.toNat, fld, SXWord.mk.injEq, ← BitVec.toNat_inj, BitVec.toNat_ofNat]
  and_intros <;> omega

/-- The opcode stands above the fields of a SX-form word. -/
theorem SXWord.toNat_top (op : Nat) (x : SXWord) : x.toNat op / 2 ^ 22 = op := by
  rcases x with ⟨x0, x1, x2, x3, x4⟩
  have h0 := x0.isLt
  have h1 := x1.isLt
  have h2 := x2.isLt
  have h3 := x3.isLt
  have h4 := x4.isLt
  simp only [SXWord.toNat]
  omega

/-- The fields of a SQ-form word are those it was made of. -/
theorem SQWord.ofNat_toNat (op : Nat) (x : SQWord) : SQWord.ofNat (x.toNat op) = x := by
  rcases x with ⟨x0, x1, x2, x3, x4, x5⟩
  have h0 := x0.isLt
  have h1 := x1.isLt
  have h2 := x2.isLt
  have h3 := x3.isLt
  have h4 := x4.isLt
  have h5 := x5.isLt
  simp only [SQWord.ofNat, SQWord.toNat, fld, SQWord.mk.injEq, ← BitVec.toNat_inj, BitVec.toNat_ofNat]
  and_intros <;> omega

/-- The opcode stands above the fields of a SQ-form word. -/
theorem SQWord.toNat_top (op : Nat) (x : SQWord) : x.toNat op / 2 ^ 22 = op := by
  rcases x with ⟨x0, x1, x2, x3, x4, x5⟩
  have h0 := x0.isLt
  have h1 := x1.isLt
  have h2 := x2.isLt
  have h3 := x3.isLt
  have h4 := x4.isLt
  have h5 := x5.isLt
  simp only [SQWord.toNat]
  omega

/-- The fields of a VA-form word are those it was made of. -/
theorem VAWord.ofNat_toNat (op : Nat) (x : VAWord) : VAWord.ofNat (x.toNat op) = x := by
  rcases x with ⟨x0, x1, x2, x3, x4, x5, x6, x7, x8, x9, x10, x11⟩
  have h0 := x0.isLt
  have h1 := x1.isLt
  have h2 := x2.isLt
  have h3 := x3.isLt
  have h4 := x4.isLt
  have h5 := x5.isLt
  have h6 := x6.isLt
  have h7 := x7.isLt
  have h8 := x8.isLt
  have h9 := x9.isLt
  have h10 := x10.isLt
  have h11 := x11.isLt
  simp only [VAWord.ofNat, VAWord.toNat, fld, VAWord.mk.injEq, ← BitVec.toNat_inj, BitVec.toNat_ofNat]
  and_intros <;> omega

/-- The opcode stands above the fields of a VA-form word. -/
theorem VAWord.toNat_top (op : Nat) (x : VAWord) : x.toNat op / 2 ^ 86 = op := by
  rcases x with ⟨x0, x1, x2, x3, x4, x5, x6, x7, x8, x9, x10, x11⟩
  have h0 := x0.isLt
  have h1 := x1.isLt
  have h2 := x2.isLt
  have h3 := x3.isLt
  have h4 := x4.isLt
  have h5 := x5.isLt
  have h6 := x6.isLt
  have h7 := x7.isLt
  have h8 := x8.isLt
  have h9 := x9.isLt
  have h10 := x10.isLt
  have h11 := x11.isLt
  simp only [VAWord.toNat]
  omega

/-- The fields of a VM-form word are those it was made of. -/
theorem VMWord.ofNat_toNat (op : Nat) (x : VMWord) : VMWord.ofNat (x.toNat op) = x := by
  rcases x with ⟨x0, x1, x2, x3, x4, x5, x6, x7, x8, x9, x10, x11, x12, x13⟩
  have h0 := x0.isLt
  have h1 := x1.isLt
  have h2 := x2.isLt
  have h3 := x3.isLt
  have h4 := x4.isLt
  have h5 := x5.isLt
  have h6 := x6.isLt
  have h7 := x7.isLt
  have h8 := x8.isLt
  have h9 := x9.isLt
  have h10 := x10.isLt
  have h11 := x11.isLt
  have h12 := x12.isLt
  have h13 := x13.isLt
  simp only [VMWord.ofNat, VMWord.toNat, fld, VMWord.mk.injEq, ← BitVec.toNat_inj, BitVec.toNat_ofNat]
  and_intros <;> omega

/-- The opcode stands above the fields of a VM-form word. -/
theorem VMWord.toNat_top (op : Nat) (x : VMWord) : x.toNat op / 2 ^ 86 = op := by
  rcases x with ⟨x0, x1, x2, x3, x4, x5, x6, x7, x8, x9, x10, x11, x12, x13⟩
  have h0 := x0.isLt
  have h1 := x1.isLt
  have h2 := x2.isLt
  have h3 := x3.isLt
  have h4 := x4.isLt
  have h5 := x5.isLt
  have h6 := x6.isLt
  have h7 := x7.isLt
  have h8 := x8.isLt
  have h9 := x9.isLt
  have h10 := x10.isLt
  have h11 := x11.isLt
  have h12 := x12.isLt
  have h13 := x13.isLt
  simp only [VMWord.toNat]
  omega

/-- The fields of a C-form word are those it was made of. -/
theorem CWord.ofNat_toNat (op : Nat) (x : CWord) : CWord.ofNat (x.toNat op) = x := by
  rcases x with ⟨x0, x1, x2, x3, x4, x5, x6, x7, x8, x9, x10, x11, x12⟩
  have h0 := x0.isLt
  have h1 := x1.isLt
  have h2 := x2.isLt
  have h3 := x3.isLt
  have h4 := x4.isLt
  have h5 := x5.isLt
  have h6 := x6.isLt
  have h7 := x7.isLt
  have h8 := x8.isLt
  have h9 := x9.isLt
  have h10 := x10.isLt
  have h11 := x11.isLt
  have h12 := x12.isLt
  simp only [CWord.ofNat, CWord.toNat, fld, CWord.mk.injEq, ← BitVec.toNat_inj, BitVec.toNat_ofNat]
  and_intros <;> omega

/-- The opcode stands above the fields of a C-form word. -/
theorem CWord.toNat_top (op : Nat) (x : CWord) : x.toNat op / 2 ^ 86 = op := by
  rcases x with ⟨x0, x1, x2, x3, x4, x5, x6, x7, x8, x9, x10, x11, x12⟩
  have h0 := x0.isLt
  have h1 := x1.isLt
  have h2 := x2.isLt
  have h3 := x3.isLt
  have h4 := x4.isLt
  have h5 := x5.isLt
  have h6 := x6.isLt
  have h7 := x7.isLt
  have h8 := x8.isLt
  have h9 := x9.isLt
  have h10 := x10.isLt
  have h11 := x11.isLt
  have h12 := x12.isLt
  simp only [CWord.toNat]
  omega

/-- The fields of a M-form word are those it was made of. -/
theorem MWord.ofNat_toNat (op : Nat) (x : MWord) : MWord.ofNat (x.toNat op) = x := by
  rcases x with ⟨x0, x1, x2, x3, x4, x5, x6, x7, x8, x9, x10, x11, x12, x13, x14, x15, x16, x17, x18, x19, x20⟩
  have h0 := x0.isLt
  have h1 := x1.isLt
  have h2 := x2.isLt
  have h3 := x3.isLt
  have h4 := x4.isLt
  have h5 := x5.isLt
  have h6 := x6.isLt
  have h7 := x7.isLt
  have h8 := x8.isLt
  have h9 := x9.isLt
  have h10 := x10.isLt
  have h11 := x11.isLt
  have h12 := x12.isLt
  have h13 := x13.isLt
  have h14 := x14.isLt
  have h15 := x15.isLt
  have h16 := x16.isLt
  have h17 := x17.isLt
  have h18 := x18.isLt
  have h19 := x19.isLt
  have h20 := x20.isLt
  simp only [MWord.ofNat, MWord.toNat, fld, MWord.mk.injEq, ← BitVec.toNat_inj, BitVec.toNat_ofNat]
  and_intros <;> omega

/-- The opcode stands above the fields of a M-form word. -/
theorem MWord.toNat_top (op : Nat) (x : MWord) : x.toNat op / 2 ^ 182 = op := by
  rcases x with ⟨x0, x1, x2, x3, x4, x5, x6, x7, x8, x9, x10, x11, x12, x13, x14, x15, x16, x17, x18, x19, x20⟩
  have h0 := x0.isLt
  have h1 := x1.isLt
  have h2 := x2.isLt
  have h3 := x3.isLt
  have h4 := x4.isLt
  have h5 := x5.isLt
  have h6 := x6.isLt
  have h7 := x7.isLt
  have h8 := x8.isLt
  have h9 := x9.isLt
  have h10 := x10.isLt
  have h11 := x11.isLt
  have h12 := x12.isLt
  have h13 := x13.isLt
  have h14 := x14.isLt
  have h15 := x15.isLt
  have h16 := x16.isLt
  have h17 := x17.isLt
  have h18 := x18.isLt
  have h19 := x19.isLt
  have h20 := x20.isLt
  simp only [MWord.toNat]
  omega

end Sys2Proof
end

