-- ==== Sys2Proof/Laws/Homes.lean ====
section
/-! SUPPORT. What the control die sees of memory (R299). -/
namespace Sys2Proof.Machine

/-- While no atomic to the host window has begun, the control die sees memory as it is. -/
theorem State.dieMem_quiet {s : State} (h : ∀ x ∈ s.rels, x.old = none) : s.dieMem = s.mem := by
  unfold State.dieMem
  rw [List.filter_eq_nil_iff.mpr (fun x hx => by simp [h x hx])]
  rfl

/-- A write by the control die finishes the atomics that have begun in its range, and then writes. -/
theorem State.diePut_quiet {s : State} {pa : Nat} {bs : List Byte} (h : ∀ x ∈ s.rels, x.old = none) : s.diePut pa bs = s.memWrite pa bs := by
  unfold State.diePut State.hostDone State.halfDone
  rw [List.filter_eq_nil_iff.mpr (fun x hx => by simp [h x hx])]
  rfl

end Sys2Proof.Machine
end

