-- ==== Sys2Proof/Laws/State.lean ====
section
/-! SUPPORT. What the named updates leave of every field of the state, of a core and of its architectural part: one lemma per field and
update, by `rfl` wherever the update is a plain record. -/
namespace Sys2Proof.Machine

/-! ### setCore -/

@[simp] theorem State.setCore_now (s : State) (n : Nat) (c : Core) : (s.setCore n c).now = s.now := rfl
@[simp] theorem State.setCore_cur (s : State) (n : Nat) (c : Core) : (s.setCore n c).cur = s.cur := rfl
@[simp] theorem State.setCore_free (s : State) (n : Nat) (c : Core) : (s.setCore n c).free = s.free := rfl
@[simp] theorem State.setCore_nextId (s : State) (n : Nat) (c : Core) : (s.setCore n c).nextId = s.nextId := rfl
@[simp] theorem State.setCore_inputs (s : State) (n : Nat) (c : Core) : (s.setCore n c).inputs = s.inputs := rfl
@[simp] theorem State.setCore_life (s : State) (n : Nat) (c : Core) : (s.setCore n c).life = s.life := rfl
@[simp] theorem State.setCore_cores (s : State) (n : Nat) (c : Core) : (s.setCore n c).cores = mput s.cores n c := rfl
@[simp] theorem State.setCore_mem (s : State) (n : Nat) (c : Core) : (s.setCore n c).mem = s.mem := rfl
@[simp] theorem State.setCore_memUe (s : State) (n : Nat) (c : Core) : (s.setCore n c).memUe = s.memUe := rfl
@[simp] theorem State.setCore_memCe (s : State) (n : Nat) (c : Core) : (s.setCore n c).memCe = s.memCe := rfl
@[simp] theorem State.setCore_cacheErr (s : State) (n : Nat) (c : Core) : (s.setCore n c).cacheErr = s.cacheErr := rfl
@[simp] theorem State.setCore_rels (s : State) (n : Nat) (c : Core) : (s.setCore n c).rels = s.rels := rfl
@[simp] theorem State.setCore_reads (s : State) (n : Nat) (c : Core) : (s.setCore n c).reads = s.reads := rfl
@[simp] theorem State.setCore_orders (s : State) (n : Nat) (c : Core) : (s.setCore n c).orders = s.orders := rfl
@[simp] theorem State.setCore_walks (s : State) (n : Nat) (c : Core) : (s.setCore n c).walks = s.walks := rfl
@[simp] theorem State.setCore_walkRr (s : State) (n : Nat) (c : Core) : (s.setCore n c).walkRr = s.walkRr := rfl
@[simp] theorem State.setCore_ptrs (s : State) (n : Nat) (c : Core) : (s.setCore n c).ptrs = s.ptrs := rfl
@[simp] theorem State.setCore_quadTlb (s : State) (n : Nat) (c : Core) : (s.setCore n c).quadTlb = s.quadTlb := rfl
@[simp] theorem State.setCore_parts (s : State) (n : Nat) (c : Core) : (s.setCore n c).parts = s.parts := rfl
@[simp] theorem State.setCore_launches (s : State) (n : Nat) (c : Core) : (s.setCore n c).launches = s.launches := rfl
@[simp] theorem State.setCore_groups (s : State) (n : Nat) (c : Core) : (s.setCore n c).groups = s.groups := rfl
@[simp] theorem State.setCore_objs (s : State) (n : Nat) (c : Core) : (s.setCore n c).objs = s.objs := rfl
@[simp] theorem State.setCore_lineages (s : State) (n : Nat) (c : Core) : (s.setCore n c).lineages = s.lineages := rfl
@[simp] theorem State.setCore_windows (s : State) (n : Nat) (c : Core) : (s.setCore n c).windows = s.windows := rfl
@[simp] theorem State.setCore_queues (s : State) (n : Nat) (c : Core) : (s.setCore n c).queues = s.queues := rfl
@[simp] theorem State.setCore_vfs (s : State) (n : Nat) (c : Core) : (s.setCore n c).vfs = s.vfs := rfl
@[simp] theorem State.setCore_mmode (s : State) (n : Nat) (c : Core) : (s.setCore n c).mmode = s.mmode := rfl
@[simp] theorem State.setCore_quiesced (s : State) (n : Nat) (c : Core) : (s.setCore n c).quiesced = s.quiesced := rfl
@[simp] theorem State.setCore_mmodeTo (s : State) (n : Nat) (c : Core) : (s.setCore n c).mmodeTo = s.mmodeTo := rfl
@[simp] theorem State.setCore_wberr (s : State) (n : Nat) (c : Core) : (s.setCore n c).wberr = s.wberr := rfl
@[simp] theorem State.setCore_sprtop (s : State) (n : Nat) (c : Core) : (s.setCore n c).sprtop = s.sprtop := rfl
@[simp] theorem State.setCore_dtop0 (s : State) (n : Nat) (c : Core) : (s.setCore n c).dtop0 = s.dtop0 := rfl
@[simp] theorem State.setCore_dtop1 (s : State) (n : Nat) (c : Core) : (s.setCore n c).dtop1 = s.dtop1 := rfl
@[simp] theorem State.setCore_hostsz (s : State) (n : Nat) (c : Core) : (s.setCore n c).hostsz = s.hostsz := rfl
@[simp] theorem State.setCore_counters (s : State) (n : Nat) (c : Core) : (s.setCore n c).counters = s.counters := rfl
@[simp] theorem State.setCore_ptp (s : State) (n : Nat) (c : Core) : (s.setCore n c).ptp = s.ptp := rfl
@[simp] theorem State.setCore_derated (s : State) (n : Nat) (c : Core) : (s.setCore n c).derated = s.derated := rfl
@[simp] theorem State.setCore_clockAt (s : State) (n : Nat) (c : Core) : (s.setCore n c).clockAt = s.clockAt := rfl
@[simp] theorem State.setCore_hotAt (s : State) (n : Nat) (c : Core) : (s.setCore n c).hotAt = s.hotAt := rfl
@[simp] theorem State.setCore_cap (s : State) (n : Nat) (c : Core) : (s.setCore n c).cap = s.cap := rfl
@[simp] theorem State.setCore_capBad (s : State) (n : Nat) (c : Core) : (s.setCore n c).capBad = s.capBad := rfl
@[simp] theorem State.setCore_threshold (s : State) (n : Nat) (c : Core) : (s.setCore n c).threshold = s.threshold := rfl
@[simp] theorem State.setCore_errTimes (s : State) (n : Nat) (c : Core) : (s.setCore n c).errTimes = s.errTimes := rfl
@[simp] theorem State.setCore_scrubHbm (s : State) (n : Nat) (c : Core) : (s.setCore n c).scrubHbm = s.scrubHbm := rfl
@[simp] theorem State.setCore_scrubCache (s : State) (n : Nat) (c : Core) : (s.setCore n c).scrubCache = s.scrubCache := rfl
@[simp] theorem State.setCore_ptpInterval (s : State) (n : Nat) (c : Core) : (s.setCore n c).ptpInterval = s.ptpInterval := rfl
@[simp] theorem State.setCore_scrubs (s : State) (n : Nat) (c : Core) : (s.setCore n c).scrubs = s.scrubs := rfl
@[simp] theorem State.setCore_retired (s : State) (n : Nat) (c : Core) : (s.setCore n c).retired = s.retired := rfl
@[simp] theorem State.setCore_deadDies (s : State) (n : Nat) (c : Core) : (s.setCore n c).deadDies = s.deadDies := rfl
@[simp] theorem State.setCore_offline (s : State) (n : Nat) (c : Core) : (s.setCore n c).offline = s.offline := rfl
@[simp] theorem State.setCore_ports (s : State) (n : Nat) (c : Core) : (s.setCore n c).ports = s.ports := rfl
@[simp] theorem State.setCore_evlog (s : State) (n : Nat) (c : Core) : (s.setCore n c).evlog = s.evlog := rfl
@[simp] theorem State.setCore_banks (s : State) (n : Nat) (c : Core) : (s.setCore n c).banks = s.banks := rfl
@[simp] theorem State.setCore_ckpts (s : State) (n : Nat) (c : Core) : (s.setCore n c).ckpts = s.ckpts := rfl
@[simp] theorem State.setCore_hostWrites (s : State) (n : Nat) (c : Core) : (s.setCore n c).hostWrites = s.hostWrites := rfl
@[simp] theorem State.setCore_results (s : State) (n : Nat) (c : Core) : (s.setCore n c).results = s.results := rfl
@[simp] theorem State.setCore_invs (s : State) (n : Nat) (c : Core) : (s.setCore n c).invs = s.invs := rfl
@[simp] theorem State.setCore_capLog (s : State) (n : Nat) (c : Core) : (s.setCore n c).capLog = s.capLog := rfl
@[simp] theorem State.setCore_images (s : State) (n : Nat) (c : Core) : (s.setCore n c).images = s.images := rfl

/-! ### updCore -/

@[simp] theorem State.updCore_now (s : State) (n : Nat) (f : Core → Core) : (s.updCore n f).now = s.now := rfl
@[simp] theorem State.updCore_cur (s : State) (n : Nat) (f : Core → Core) : (s.updCore n f).cur = s.cur := rfl
@[simp] theorem State.updCore_free (s : State) (n : Nat) (f : Core → Core) : (s.updCore n f).free = s.free := rfl
@[simp] theorem State.updCore_nextId (s : State) (n : Nat) (f : Core → Core) : (s.updCore n f).nextId = s.nextId := rfl
@[simp] theorem State.updCore_inputs (s : State) (n : Nat) (f : Core → Core) : (s.updCore n f).inputs = s.inputs := rfl
@[simp] theorem State.updCore_life (s : State) (n : Nat) (f : Core → Core) : (s.updCore n f).life = s.life := rfl
@[simp] theorem State.updCore_cores (s : State) (n : Nat) (f : Core → Core) : (s.updCore n f).cores = mput s.cores n (f (s.core n)) := rfl
@[simp] theorem State.updCore_mem (s : State) (n : Nat) (f : Core → Core) : (s.updCore n f).mem = s.mem := rfl
@[simp] theorem State.updCore_memUe (s : State) (n : Nat) (f : Core → Core) : (s.updCore n f).memUe = s.memUe := rfl
@[simp] theorem State.updCore_memCe (s : State) (n : Nat) (f : Core → Core) : (s.updCore n f).memCe = s.memCe := rfl
@[simp] theorem State.updCore_cacheErr (s : State) (n : Nat) (f : Core → Core) : (s.updCore n f).cacheErr = s.cacheErr := rfl
@[simp] theorem State.updCore_rels (s : State) (n : Nat) (f : Core → Core) : (s.updCore n f).rels = s.rels := rfl
@[simp] theorem State.updCore_reads (s : State) (n : Nat) (f : Core → Core) : (s.updCore n f).reads = s.reads := rfl
@[simp] theorem State.updCore_orders (s : State) (n : Nat) (f : Core → Core) : (s.updCore n f).orders = s.orders := rfl
@[simp] theorem State.updCore_walks (s : State) (n : Nat) (f : Core → Core) : (s.updCore n f).walks = s.walks := rfl
@[simp] theorem State.updCore_walkRr (s : State) (n : Nat) (f : Core → Core) : (s.updCore n f).walkRr = s.walkRr := rfl
@[simp] theorem State.updCore_ptrs (s : State) (n : Nat) (f : Core → Core) : (s.updCore n f).ptrs = s.ptrs := rfl
@[simp] theorem State.updCore_quadTlb (s : State) (n : Nat) (f : Core → Core) : (s.updCore n f).quadTlb = s.quadTlb := rfl
@[simp] theorem State.updCore_parts (s : State) (n : Nat) (f : Core → Core) : (s.updCore n f).parts = s.parts := rfl
@[simp] theorem State.updCore_launches (s : State) (n : Nat) (f : Core → Core) : (s.updCore n f).launches = s.launches := rfl
@[simp] theorem State.updCore_groups (s : State) (n : Nat) (f : Core → Core) : (s.updCore n f).groups = s.groups := rfl
@[simp] theorem State.updCore_objs (s : State) (n : Nat) (f : Core → Core) : (s.updCore n f).objs = s.objs := rfl
@[simp] theorem State.updCore_lineages (s : State) (n : Nat) (f : Core → Core) : (s.updCore n f).lineages = s.lineages := rfl
@[simp] theorem State.updCore_windows (s : State) (n : Nat) (f : Core → Core) : (s.updCore n f).windows = s.windows := rfl
@[simp] theorem State.updCore_queues (s : State) (n : Nat) (f : Core → Core) : (s.updCore n f).queues = s.queues := rfl
@[simp] theorem State.updCore_vfs (s : State) (n : Nat) (f : Core → Core) : (s.updCore n f).vfs = s.vfs := rfl
@[simp] theorem State.updCore_mmode (s : State) (n : Nat) (f : Core → Core) : (s.updCore n f).mmode = s.mmode := rfl
@[simp] theorem State.updCore_quiesced (s : State) (n : Nat) (f : Core → Core) : (s.updCore n f).quiesced = s.quiesced := rfl
@[simp] theorem State.updCore_mmodeTo (s : State) (n : Nat) (f : Core → Core) : (s.updCore n f).mmodeTo = s.mmodeTo := rfl
@[simp] theorem State.updCore_wberr (s : State) (n : Nat) (f : Core → Core) : (s.updCore n f).wberr = s.wberr := rfl
@[simp] theorem State.updCore_sprtop (s : State) (n : Nat) (f : Core → Core) : (s.updCore n f).sprtop = s.sprtop := rfl
@[simp] theorem State.updCore_dtop0 (s : State) (n : Nat) (f : Core → Core) : (s.updCore n f).dtop0 = s.dtop0 := rfl
@[simp] theorem State.updCore_dtop1 (s : State) (n : Nat) (f : Core → Core) : (s.updCore n f).dtop1 = s.dtop1 := rfl
@[simp] theorem State.updCore_hostsz (s : State) (n : Nat) (f : Core → Core) : (s.updCore n f).hostsz = s.hostsz := rfl
@[simp] theorem State.updCore_counters (s : State) (n : Nat) (f : Core → Core) : (s.updCore n f).counters = s.counters := rfl
@[simp] theorem State.updCore_ptp (s : State) (n : Nat) (f : Core → Core) : (s.updCore n f).ptp = s.ptp := rfl
@[simp] theorem State.updCore_derated (s : State) (n : Nat) (f : Core → Core) : (s.updCore n f).derated = s.derated := rfl
@[simp] theorem State.updCore_clockAt (s : State) (n : Nat) (f : Core → Core) : (s.updCore n f).clockAt = s.clockAt := rfl
@[simp] theorem State.updCore_hotAt (s : State) (n : Nat) (f : Core → Core) : (s.updCore n f).hotAt = s.hotAt := rfl
@[simp] theorem State.updCore_cap (s : State) (n : Nat) (f : Core → Core) : (s.updCore n f).cap = s.cap := rfl
@[simp] theorem State.updCore_capBad (s : State) (n : Nat) (f : Core → Core) : (s.updCore n f).capBad = s.capBad := rfl
@[simp] theorem State.updCore_threshold (s : State) (n : Nat) (f : Core → Core) : (s.updCore n f).threshold = s.threshold := rfl
@[simp] theorem State.updCore_errTimes (s : State) (n : Nat) (f : Core → Core) : (s.updCore n f).errTimes = s.errTimes := rfl
@[simp] theorem State.updCore_scrubHbm (s : State) (n : Nat) (f : Core → Core) : (s.updCore n f).scrubHbm = s.scrubHbm := rfl
@[simp] theorem State.updCore_scrubCache (s : State) (n : Nat) (f : Core → Core) : (s.updCore n f).scrubCache = s.scrubCache := rfl
@[simp] theorem State.updCore_ptpInterval (s : State) (n : Nat) (f : Core → Core) : (s.updCore n f).ptpInterval = s.ptpInterval := rfl
@[simp] theorem State.updCore_scrubs (s : State) (n : Nat) (f : Core → Core) : (s.updCore n f).scrubs = s.scrubs := rfl
@[simp] theorem State.updCore_retired (s : State) (n : Nat) (f : Core → Core) : (s.updCore n f).retired = s.retired := rfl
@[simp] theorem State.updCore_deadDies (s : State) (n : Nat) (f : Core → Core) : (s.updCore n f).deadDies = s.deadDies := rfl
@[simp] theorem State.updCore_offline (s : State) (n : Nat) (f : Core → Core) : (s.updCore n f).offline = s.offline := rfl
@[simp] theorem State.updCore_ports (s : State) (n : Nat) (f : Core → Core) : (s.updCore n f).ports = s.ports := rfl
@[simp] theorem State.updCore_evlog (s : State) (n : Nat) (f : Core → Core) : (s.updCore n f).evlog = s.evlog := rfl
@[simp] theorem State.updCore_banks (s : State) (n : Nat) (f : Core → Core) : (s.updCore n f).banks = s.banks := rfl
@[simp] theorem State.updCore_ckpts (s : State) (n : Nat) (f : Core → Core) : (s.updCore n f).ckpts = s.ckpts := rfl
@[simp] theorem State.updCore_hostWrites (s : State) (n : Nat) (f : Core → Core) : (s.updCore n f).hostWrites = s.hostWrites := rfl
@[simp] theorem State.updCore_results (s : State) (n : Nat) (f : Core → Core) : (s.updCore n f).results = s.results := rfl
@[simp] theorem State.updCore_invs (s : State) (n : Nat) (f : Core → Core) : (s.updCore n f).invs = s.invs := rfl
@[simp] theorem State.updCore_capLog (s : State) (n : Nat) (f : Core → Core) : (s.updCore n f).capLog = s.capLog := rfl
@[simp] theorem State.updCore_images (s : State) (n : Nat) (f : Core → Core) : (s.updCore n f).images = s.images := rfl

/-! ### sync -/

@[simp] theorem State.sync_now (s : State) (n : Nat) : (s.sync n).now = max s.now (s.core n).dt := rfl
@[simp] theorem State.sync_cur (s : State) (n : Nat) : (s.sync n).cur = s.cur := rfl
@[simp] theorem State.sync_free (s : State) (n : Nat) : (s.sync n).free = s.free := rfl
@[simp] theorem State.sync_nextId (s : State) (n : Nat) : (s.sync n).nextId = s.nextId := rfl
@[simp] theorem State.sync_inputs (s : State) (n : Nat) : (s.sync n).inputs = s.inputs := rfl
@[simp] theorem State.sync_life (s : State) (n : Nat) : (s.sync n).life = s.life := rfl
@[simp] theorem State.sync_cores (s : State) (n : Nat) : (s.sync n).cores = s.cores := rfl
@[simp] theorem State.sync_mem (s : State) (n : Nat) : (s.sync n).mem = s.mem := rfl
@[simp] theorem State.sync_memUe (s : State) (n : Nat) : (s.sync n).memUe = s.memUe := rfl
@[simp] theorem State.sync_memCe (s : State) (n : Nat) : (s.sync n).memCe = s.memCe := rfl
@[simp] theorem State.sync_cacheErr (s : State) (n : Nat) : (s.sync n).cacheErr = s.cacheErr := rfl
@[simp] theorem State.sync_rels (s : State) (n : Nat) : (s.sync n).rels = s.rels := rfl
@[simp] theorem State.sync_reads (s : State) (n : Nat) : (s.sync n).reads = s.reads := rfl
@[simp] theorem State.sync_orders (s : State) (n : Nat) : (s.sync n).orders = s.orders := rfl
@[simp] theorem State.sync_walks (s : State) (n : Nat) : (s.sync n).walks = s.walks := rfl
@[simp] theorem State.sync_walkRr (s : State) (n : Nat) : (s.sync n).walkRr = s.walkRr := rfl
@[simp] theorem State.sync_ptrs (s : State) (n : Nat) : (s.sync n).ptrs = s.ptrs := rfl
@[simp] theorem State.sync_quadTlb (s : State) (n : Nat) : (s.sync n).quadTlb = s.quadTlb := rfl
@[simp] theorem State.sync_parts (s : State) (n : Nat) : (s.sync n).parts = s.parts := rfl
@[simp] theorem State.sync_launches (s : State) (n : Nat) : (s.sync n).launches = s.launches := rfl
@[simp] theorem State.sync_groups (s : State) (n : Nat) : (s.sync n).groups = s.groups := rfl
@[simp] theorem State.sync_objs (s : State) (n : Nat) : (s.sync n).objs = s.objs := rfl
@[simp] theorem State.sync_lineages (s : State) (n : Nat) : (s.sync n).lineages = s.lineages := rfl
@[simp] theorem State.sync_windows (s : State) (n : Nat) : (s.sync n).windows = s.windows := rfl
@[simp] theorem State.sync_queues (s : State) (n : Nat) : (s.sync n).queues = s.queues := rfl
@[simp] theorem State.sync_vfs (s : State) (n : Nat) : (s.sync n).vfs = s.vfs := rfl
@[simp] theorem State.sync_mmode (s : State) (n : Nat) : (s.sync n).mmode = s.mmode := rfl
@[simp] theorem State.sync_quiesced (s : State) (n : Nat) : (s.sync n).quiesced = s.quiesced := rfl
@[simp] theorem State.sync_mmodeTo (s : State) (n : Nat) : (s.sync n).mmodeTo = s.mmodeTo := rfl
@[simp] theorem State.sync_wberr (s : State) (n : Nat) : (s.sync n).wberr = s.wberr := rfl
@[simp] theorem State.sync_sprtop (s : State) (n : Nat) : (s.sync n).sprtop = s.sprtop := rfl
@[simp] theorem State.sync_dtop0 (s : State) (n : Nat) : (s.sync n).dtop0 = s.dtop0 := rfl
@[simp] theorem State.sync_dtop1 (s : State) (n : Nat) : (s.sync n).dtop1 = s.dtop1 := rfl
@[simp] theorem State.sync_hostsz (s : State) (n : Nat) : (s.sync n).hostsz = s.hostsz := rfl
@[simp] theorem State.sync_counters (s : State) (n : Nat) : (s.sync n).counters = s.counters := rfl
@[simp] theorem State.sync_ptp (s : State) (n : Nat) : (s.sync n).ptp = s.ptp := rfl
@[simp] theorem State.sync_derated (s : State) (n : Nat) : (s.sync n).derated = s.derated := rfl
@[simp] theorem State.sync_clockAt (s : State) (n : Nat) : (s.sync n).clockAt = s.clockAt := rfl
@[simp] theorem State.sync_hotAt (s : State) (n : Nat) : (s.sync n).hotAt = s.hotAt := rfl
@[simp] theorem State.sync_cap (s : State) (n : Nat) : (s.sync n).cap = s.cap := rfl
@[simp] theorem State.sync_capBad (s : State) (n : Nat) : (s.sync n).capBad = s.capBad := rfl
@[simp] theorem State.sync_threshold (s : State) (n : Nat) : (s.sync n).threshold = s.threshold := rfl
@[simp] theorem State.sync_errTimes (s : State) (n : Nat) : (s.sync n).errTimes = s.errTimes := rfl
@[simp] theorem State.sync_scrubHbm (s : State) (n : Nat) : (s.sync n).scrubHbm = s.scrubHbm := rfl
@[simp] theorem State.sync_scrubCache (s : State) (n : Nat) : (s.sync n).scrubCache = s.scrubCache := rfl
@[simp] theorem State.sync_ptpInterval (s : State) (n : Nat) : (s.sync n).ptpInterval = s.ptpInterval := rfl
@[simp] theorem State.sync_scrubs (s : State) (n : Nat) : (s.sync n).scrubs = s.scrubs := rfl
@[simp] theorem State.sync_retired (s : State) (n : Nat) : (s.sync n).retired = s.retired := rfl
@[simp] theorem State.sync_deadDies (s : State) (n : Nat) : (s.sync n).deadDies = s.deadDies := rfl
@[simp] theorem State.sync_offline (s : State) (n : Nat) : (s.sync n).offline = s.offline := rfl
@[simp] theorem State.sync_ports (s : State) (n : Nat) : (s.sync n).ports = s.ports := rfl
@[simp] theorem State.sync_evlog (s : State) (n : Nat) : (s.sync n).evlog = s.evlog := rfl
@[simp] theorem State.sync_banks (s : State) (n : Nat) : (s.sync n).banks = s.banks := rfl
@[simp] theorem State.sync_ckpts (s : State) (n : Nat) : (s.sync n).ckpts = s.ckpts := rfl
@[simp] theorem State.sync_hostWrites (s : State) (n : Nat) : (s.sync n).hostWrites = s.hostWrites := rfl
@[simp] theorem State.sync_results (s : State) (n : Nat) : (s.sync n).results = s.results := rfl
@[simp] theorem State.sync_invs (s : State) (n : Nat) : (s.sync n).invs = s.invs := rfl
@[simp] theorem State.sync_capLog (s : State) (n : Nat) : (s.sync n).capLog = s.capLog := rfl
@[simp] theorem State.sync_images (s : State) (n : Nat) : (s.sync n).images = s.images := rfl

/-! ### fresh -/

@[simp] theorem State.fresh_now (s : State) : (s.fresh.2).now = s.now := rfl
@[simp] theorem State.fresh_cur (s : State) : (s.fresh.2).cur = s.cur := rfl
@[simp] theorem State.fresh_free (s : State) : (s.fresh.2).free = s.free := rfl
@[simp] theorem State.fresh_nextId (s : State) : (s.fresh.2).nextId = s.nextId + 1 := rfl
@[simp] theorem State.fresh_inputs (s : State) : (s.fresh.2).inputs = s.inputs := rfl
@[simp] theorem State.fresh_life (s : State) : (s.fresh.2).life = s.life := rfl
@[simp] theorem State.fresh_cores (s : State) : (s.fresh.2).cores = s.cores := rfl
@[simp] theorem State.fresh_mem (s : State) : (s.fresh.2).mem = s.mem := rfl
@[simp] theorem State.fresh_memUe (s : State) : (s.fresh.2).memUe = s.memUe := rfl
@[simp] theorem State.fresh_memCe (s : State) : (s.fresh.2).memCe = s.memCe := rfl
@[simp] theorem State.fresh_cacheErr (s : State) : (s.fresh.2).cacheErr = s.cacheErr := rfl
@[simp] theorem State.fresh_rels (s : State) : (s.fresh.2).rels = s.rels := rfl
@[simp] theorem State.fresh_reads (s : State) : (s.fresh.2).reads = s.reads := rfl
@[simp] theorem State.fresh_orders (s : State) : (s.fresh.2).orders = s.orders := rfl
@[simp] theorem State.fresh_walks (s : State) : (s.fresh.2).walks = s.walks := rfl
@[simp] theorem State.fresh_walkRr (s : State) : (s.fresh.2).walkRr = s.walkRr := rfl
@[simp] theorem State.fresh_ptrs (s : State) : (s.fresh.2).ptrs = s.ptrs := rfl
@[simp] theorem State.fresh_quadTlb (s : State) : (s.fresh.2).quadTlb = s.quadTlb := rfl
@[simp] theorem State.fresh_parts (s : State) : (s.fresh.2).parts = s.parts := rfl
@[simp] theorem State.fresh_launches (s : State) : (s.fresh.2).launches = s.launches := rfl
@[simp] theorem State.fresh_groups (s : State) : (s.fresh.2).groups = s.groups := rfl
@[simp] theorem State.fresh_objs (s : State) : (s.fresh.2).objs = s.objs := rfl
@[simp] theorem State.fresh_lineages (s : State) : (s.fresh.2).lineages = s.lineages := rfl
@[simp] theorem State.fresh_windows (s : State) : (s.fresh.2).windows = s.windows := rfl
@[simp] theorem State.fresh_queues (s : State) : (s.fresh.2).queues = s.queues := rfl
@[simp] theorem State.fresh_vfs (s : State) : (s.fresh.2).vfs = s.vfs := rfl
@[simp] theorem State.fresh_mmode (s : State) : (s.fresh.2).mmode = s.mmode := rfl
@[simp] theorem State.fresh_quiesced (s : State) : (s.fresh.2).quiesced = s.quiesced := rfl
@[simp] theorem State.fresh_mmodeTo (s : State) : (s.fresh.2).mmodeTo = s.mmodeTo := rfl
@[simp] theorem State.fresh_wberr (s : State) : (s.fresh.2).wberr = s.wberr := rfl
@[simp] theorem State.fresh_sprtop (s : State) : (s.fresh.2).sprtop = s.sprtop := rfl
@[simp] theorem State.fresh_dtop0 (s : State) : (s.fresh.2).dtop0 = s.dtop0 := rfl
@[simp] theorem State.fresh_dtop1 (s : State) : (s.fresh.2).dtop1 = s.dtop1 := rfl
@[simp] theorem State.fresh_hostsz (s : State) : (s.fresh.2).hostsz = s.hostsz := rfl
@[simp] theorem State.fresh_counters (s : State) : (s.fresh.2).counters = s.counters := rfl
@[simp] theorem State.fresh_ptp (s : State) : (s.fresh.2).ptp = s.ptp := rfl
@[simp] theorem State.fresh_derated (s : State) : (s.fresh.2).derated = s.derated := rfl
@[simp] theorem State.fresh_clockAt (s : State) : (s.fresh.2).clockAt = s.clockAt := rfl
@[simp] theorem State.fresh_hotAt (s : State) : (s.fresh.2).hotAt = s.hotAt := rfl
@[simp] theorem State.fresh_cap (s : State) : (s.fresh.2).cap = s.cap := rfl
@[simp] theorem State.fresh_capBad (s : State) : (s.fresh.2).capBad = s.capBad := rfl
@[simp] theorem State.fresh_threshold (s : State) : (s.fresh.2).threshold = s.threshold := rfl
@[simp] theorem State.fresh_errTimes (s : State) : (s.fresh.2).errTimes = s.errTimes := rfl
@[simp] theorem State.fresh_scrubHbm (s : State) : (s.fresh.2).scrubHbm = s.scrubHbm := rfl
@[simp] theorem State.fresh_scrubCache (s : State) : (s.fresh.2).scrubCache = s.scrubCache := rfl
@[simp] theorem State.fresh_ptpInterval (s : State) : (s.fresh.2).ptpInterval = s.ptpInterval := rfl
@[simp] theorem State.fresh_scrubs (s : State) : (s.fresh.2).scrubs = s.scrubs := rfl
@[simp] theorem State.fresh_retired (s : State) : (s.fresh.2).retired = s.retired := rfl
@[simp] theorem State.fresh_deadDies (s : State) : (s.fresh.2).deadDies = s.deadDies := rfl
@[simp] theorem State.fresh_offline (s : State) : (s.fresh.2).offline = s.offline := rfl
@[simp] theorem State.fresh_ports (s : State) : (s.fresh.2).ports = s.ports := rfl
@[simp] theorem State.fresh_evlog (s : State) : (s.fresh.2).evlog = s.evlog := rfl
@[simp] theorem State.fresh_banks (s : State) : (s.fresh.2).banks = s.banks := rfl
@[simp] theorem State.fresh_ckpts (s : State) : (s.fresh.2).ckpts = s.ckpts := rfl
@[simp] theorem State.fresh_hostWrites (s : State) : (s.fresh.2).hostWrites = s.hostWrites := rfl
@[simp] theorem State.fresh_results (s : State) : (s.fresh.2).results = s.results := rfl
@[simp] theorem State.fresh_invs (s : State) : (s.fresh.2).invs = s.invs := rfl
@[simp] theorem State.fresh_capLog (s : State) : (s.fresh.2).capLog = s.capLog := rfl
@[simp] theorem State.fresh_images (s : State) : (s.fresh.2).images = s.images := rfl

/-! ### updLaunch -/

@[simp] theorem State.updLaunch_now (s : State) (l : Nat) (f : Launch → Launch) : (s.updLaunch l f).now = s.now := rfl
@[simp] theorem State.updLaunch_cur (s : State) (l : Nat) (f : Launch → Launch) : (s.updLaunch l f).cur = s.cur := rfl
@[simp] theorem State.updLaunch_free (s : State) (l : Nat) (f : Launch → Launch) : (s.updLaunch l f).free = s.free := rfl
@[simp] theorem State.updLaunch_nextId (s : State) (l : Nat) (f : Launch → Launch) : (s.updLaunch l f).nextId = s.nextId := rfl
@[simp] theorem State.updLaunch_inputs (s : State) (l : Nat) (f : Launch → Launch) : (s.updLaunch l f).inputs = s.inputs := rfl
@[simp] theorem State.updLaunch_life (s : State) (l : Nat) (f : Launch → Launch) : (s.updLaunch l f).life = s.life := rfl
@[simp] theorem State.updLaunch_cores (s : State) (l : Nat) (f : Launch → Launch) : (s.updLaunch l f).cores = s.cores := rfl
@[simp] theorem State.updLaunch_mem (s : State) (l : Nat) (f : Launch → Launch) : (s.updLaunch l f).mem = s.mem := rfl
@[simp] theorem State.updLaunch_memUe (s : State) (l : Nat) (f : Launch → Launch) : (s.updLaunch l f).memUe = s.memUe := rfl
@[simp] theorem State.updLaunch_memCe (s : State) (l : Nat) (f : Launch → Launch) : (s.updLaunch l f).memCe = s.memCe := rfl
@[simp] theorem State.updLaunch_cacheErr (s : State) (l : Nat) (f : Launch → Launch) : (s.updLaunch l f).cacheErr = s.cacheErr := rfl
@[simp] theorem State.updLaunch_rels (s : State) (l : Nat) (f : Launch → Launch) : (s.updLaunch l f).rels = s.rels := rfl
@[simp] theorem State.updLaunch_reads (s : State) (l : Nat) (f : Launch → Launch) : (s.updLaunch l f).reads = s.reads := rfl
@[simp] theorem State.updLaunch_orders (s : State) (l : Nat) (f : Launch → Launch) : (s.updLaunch l f).orders = s.orders := rfl
@[simp] theorem State.updLaunch_walks (s : State) (l : Nat) (f : Launch → Launch) : (s.updLaunch l f).walks = s.walks := rfl
@[simp] theorem State.updLaunch_walkRr (s : State) (l : Nat) (f : Launch → Launch) : (s.updLaunch l f).walkRr = s.walkRr := rfl
@[simp] theorem State.updLaunch_ptrs (s : State) (l : Nat) (f : Launch → Launch) : (s.updLaunch l f).ptrs = s.ptrs := rfl
@[simp] theorem State.updLaunch_quadTlb (s : State) (l : Nat) (f : Launch → Launch) : (s.updLaunch l f).quadTlb = s.quadTlb := rfl
@[simp] theorem State.updLaunch_parts (s : State) (l : Nat) (f : Launch → Launch) : (s.updLaunch l f).parts = s.parts := rfl
@[simp] theorem State.updLaunch_launches (s : State) (l : Nat) (f : Launch → Launch) : (s.updLaunch l f).launches = s.launches.map (fun x => if x.id = l then f x else x) := rfl
@[simp] theorem State.updLaunch_groups (s : State) (l : Nat) (f : Launch → Launch) : (s.updLaunch l f).groups = s.groups := rfl
@[simp] theorem State.updLaunch_objs (s : State) (l : Nat) (f : Launch → Launch) : (s.updLaunch l f).objs = s.objs := rfl
@[simp] theorem State.updLaunch_lineages (s : State) (l : Nat) (f : Launch → Launch) : (s.updLaunch l f).lineages = s.lineages := rfl
@[simp] theorem State.updLaunch_windows (s : State) (l : Nat) (f : Launch → Launch) : (s.updLaunch l f).windows = s.windows := rfl
@[simp] theorem State.updLaunch_queues (s : State) (l : Nat) (f : Launch → Launch) : (s.updLaunch l f).queues = s.queues := rfl
@[simp] theorem State.updLaunch_vfs (s : State) (l : Nat) (f : Launch → Launch) : (s.updLaunch l f).vfs = s.vfs := rfl
@[simp] theorem State.updLaunch_mmode (s : State) (l : Nat) (f : Launch → Launch) : (s.updLaunch l f).mmode = s.mmode := rfl
@[simp] theorem State.updLaunch_quiesced (s : State) (l : Nat) (f : Launch → Launch) : (s.updLaunch l f).quiesced = s.quiesced := rfl
@[simp] theorem State.updLaunch_mmodeTo (s : State) (l : Nat) (f : Launch → Launch) : (s.updLaunch l f).mmodeTo = s.mmodeTo := rfl
@[simp] theorem State.updLaunch_wberr (s : State) (l : Nat) (f : Launch → Launch) : (s.updLaunch l f).wberr = s.wberr := rfl
@[simp] theorem State.updLaunch_sprtop (s : State) (l : Nat) (f : Launch → Launch) : (s.updLaunch l f).sprtop = s.sprtop := rfl
@[simp] theorem State.updLaunch_dtop0 (s : State) (l : Nat) (f : Launch → Launch) : (s.updLaunch l f).dtop0 = s.dtop0 := rfl
@[simp] theorem State.updLaunch_dtop1 (s : State) (l : Nat) (f : Launch → Launch) : (s.updLaunch l f).dtop1 = s.dtop1 := rfl
@[simp] theorem State.updLaunch_hostsz (s : State) (l : Nat) (f : Launch → Launch) : (s.updLaunch l f).hostsz = s.hostsz := rfl
@[simp] theorem State.updLaunch_counters (s : State) (l : Nat) (f : Launch → Launch) : (s.updLaunch l f).counters = s.counters := rfl
@[simp] theorem State.updLaunch_ptp (s : State) (l : Nat) (f : Launch → Launch) : (s.updLaunch l f).ptp = s.ptp := rfl
@[simp] theorem State.updLaunch_derated (s : State) (l : Nat) (f : Launch → Launch) : (s.updLaunch l f).derated = s.derated := rfl
@[simp] theorem State.updLaunch_clockAt (s : State) (l : Nat) (f : Launch → Launch) : (s.updLaunch l f).clockAt = s.clockAt := rfl
@[simp] theorem State.updLaunch_hotAt (s : State) (l : Nat) (f : Launch → Launch) : (s.updLaunch l f).hotAt = s.hotAt := rfl
@[simp] theorem State.updLaunch_cap (s : State) (l : Nat) (f : Launch → Launch) : (s.updLaunch l f).cap = s.cap := rfl
@[simp] theorem State.updLaunch_capBad (s : State) (l : Nat) (f : Launch → Launch) : (s.updLaunch l f).capBad = s.capBad := rfl
@[simp] theorem State.updLaunch_threshold (s : State) (l : Nat) (f : Launch → Launch) : (s.updLaunch l f).threshold = s.threshold := rfl
@[simp] theorem State.updLaunch_errTimes (s : State) (l : Nat) (f : Launch → Launch) : (s.updLaunch l f).errTimes = s.errTimes := rfl
@[simp] theorem State.updLaunch_scrubHbm (s : State) (l : Nat) (f : Launch → Launch) : (s.updLaunch l f).scrubHbm = s.scrubHbm := rfl
@[simp] theorem State.updLaunch_scrubCache (s : State) (l : Nat) (f : Launch → Launch) : (s.updLaunch l f).scrubCache = s.scrubCache := rfl
@[simp] theorem State.updLaunch_ptpInterval (s : State) (l : Nat) (f : Launch → Launch) : (s.updLaunch l f).ptpInterval = s.ptpInterval := rfl
@[simp] theorem State.updLaunch_scrubs (s : State) (l : Nat) (f : Launch → Launch) : (s.updLaunch l f).scrubs = s.scrubs := rfl
@[simp] theorem State.updLaunch_retired (s : State) (l : Nat) (f : Launch → Launch) : (s.updLaunch l f).retired = s.retired := rfl
@[simp] theorem State.updLaunch_deadDies (s : State) (l : Nat) (f : Launch → Launch) : (s.updLaunch l f).deadDies = s.deadDies := rfl
@[simp] theorem State.updLaunch_offline (s : State) (l : Nat) (f : Launch → Launch) : (s.updLaunch l f).offline = s.offline := rfl
@[simp] theorem State.updLaunch_ports (s : State) (l : Nat) (f : Launch → Launch) : (s.updLaunch l f).ports = s.ports := rfl
@[simp] theorem State.updLaunch_evlog (s : State) (l : Nat) (f : Launch → Launch) : (s.updLaunch l f).evlog = s.evlog := rfl
@[simp] theorem State.updLaunch_banks (s : State) (l : Nat) (f : Launch → Launch) : (s.updLaunch l f).banks = s.banks := rfl
@[simp] theorem State.updLaunch_ckpts (s : State) (l : Nat) (f : Launch → Launch) : (s.updLaunch l f).ckpts = s.ckpts := rfl
@[simp] theorem State.updLaunch_hostWrites (s : State) (l : Nat) (f : Launch → Launch) : (s.updLaunch l f).hostWrites = s.hostWrites := rfl
@[simp] theorem State.updLaunch_results (s : State) (l : Nat) (f : Launch → Launch) : (s.updLaunch l f).results = s.results := rfl
@[simp] theorem State.updLaunch_invs (s : State) (l : Nat) (f : Launch → Launch) : (s.updLaunch l f).invs = s.invs := rfl
@[simp] theorem State.updLaunch_capLog (s : State) (l : Nat) (f : Launch → Launch) : (s.updLaunch l f).capLog = s.capLog := rfl
@[simp] theorem State.updLaunch_images (s : State) (l : Nat) (f : Launch → Launch) : (s.updLaunch l f).images = s.images := rfl

/-! ### updPart -/

@[simp] theorem State.updPart_now (s : State) (p : Nat) (f : Partition → Partition) : (s.updPart p f).now = s.now := rfl
@[simp] theorem State.updPart_cur (s : State) (p : Nat) (f : Partition → Partition) : (s.updPart p f).cur = s.cur := rfl
@[simp] theorem State.updPart_free (s : State) (p : Nat) (f : Partition → Partition) : (s.updPart p f).free = s.free := rfl
@[simp] theorem State.updPart_nextId (s : State) (p : Nat) (f : Partition → Partition) : (s.updPart p f).nextId = s.nextId := rfl
@[simp] theorem State.updPart_inputs (s : State) (p : Nat) (f : Partition → Partition) : (s.updPart p f).inputs = s.inputs := rfl
@[simp] theorem State.updPart_life (s : State) (p : Nat) (f : Partition → Partition) : (s.updPart p f).life = s.life := rfl
@[simp] theorem State.updPart_cores (s : State) (p : Nat) (f : Partition → Partition) : (s.updPart p f).cores = s.cores := rfl
@[simp] theorem State.updPart_mem (s : State) (p : Nat) (f : Partition → Partition) : (s.updPart p f).mem = s.mem := rfl
@[simp] theorem State.updPart_memUe (s : State) (p : Nat) (f : Partition → Partition) : (s.updPart p f).memUe = s.memUe := rfl
@[simp] theorem State.updPart_memCe (s : State) (p : Nat) (f : Partition → Partition) : (s.updPart p f).memCe = s.memCe := rfl
@[simp] theorem State.updPart_cacheErr (s : State) (p : Nat) (f : Partition → Partition) : (s.updPart p f).cacheErr = s.cacheErr := rfl
@[simp] theorem State.updPart_rels (s : State) (p : Nat) (f : Partition → Partition) : (s.updPart p f).rels = s.rels := rfl
@[simp] theorem State.updPart_reads (s : State) (p : Nat) (f : Partition → Partition) : (s.updPart p f).reads = s.reads := rfl
@[simp] theorem State.updPart_orders (s : State) (p : Nat) (f : Partition → Partition) : (s.updPart p f).orders = s.orders := rfl
@[simp] theorem State.updPart_walks (s : State) (p : Nat) (f : Partition → Partition) : (s.updPart p f).walks = s.walks := rfl
@[simp] theorem State.updPart_walkRr (s : State) (p : Nat) (f : Partition → Partition) : (s.updPart p f).walkRr = s.walkRr := rfl
@[simp] theorem State.updPart_ptrs (s : State) (p : Nat) (f : Partition → Partition) : (s.updPart p f).ptrs = s.ptrs := rfl
@[simp] theorem State.updPart_quadTlb (s : State) (p : Nat) (f : Partition → Partition) : (s.updPart p f).quadTlb = s.quadTlb := rfl
@[simp] theorem State.updPart_parts (s : State) (p : Nat) (f : Partition → Partition) : (s.updPart p f).parts = s.parts.map (fun x => if x.id = p then f x else x) := rfl
@[simp] theorem State.updPart_launches (s : State) (p : Nat) (f : Partition → Partition) : (s.updPart p f).launches = s.launches := rfl
@[simp] theorem State.updPart_groups (s : State) (p : Nat) (f : Partition → Partition) : (s.updPart p f).groups = s.groups := rfl
@[simp] theorem State.updPart_objs (s : State) (p : Nat) (f : Partition → Partition) : (s.updPart p f).objs = s.objs := rfl
@[simp] theorem State.updPart_lineages (s : State) (p : Nat) (f : Partition → Partition) : (s.updPart p f).lineages = s.lineages := rfl
@[simp] theorem State.updPart_windows (s : State) (p : Nat) (f : Partition → Partition) : (s.updPart p f).windows = s.windows := rfl
@[simp] theorem State.updPart_queues (s : State) (p : Nat) (f : Partition → Partition) : (s.updPart p f).queues = s.queues := rfl
@[simp] theorem State.updPart_vfs (s : State) (p : Nat) (f : Partition → Partition) : (s.updPart p f).vfs = s.vfs := rfl
@[simp] theorem State.updPart_mmode (s : State) (p : Nat) (f : Partition → Partition) : (s.updPart p f).mmode = s.mmode := rfl
@[simp] theorem State.updPart_quiesced (s : State) (p : Nat) (f : Partition → Partition) : (s.updPart p f).quiesced = s.quiesced := rfl
@[simp] theorem State.updPart_mmodeTo (s : State) (p : Nat) (f : Partition → Partition) : (s.updPart p f).mmodeTo = s.mmodeTo := rfl
@[simp] theorem State.updPart_wberr (s : State) (p : Nat) (f : Partition → Partition) : (s.updPart p f).wberr = s.wberr := rfl
@[simp] theorem State.updPart_sprtop (s : State) (p : Nat) (f : Partition → Partition) : (s.updPart p f).sprtop = s.sprtop := rfl
@[simp] theorem State.updPart_dtop0 (s : State) (p : Nat) (f : Partition → Partition) : (s.updPart p f).dtop0 = s.dtop0 := rfl
@[simp] theorem State.updPart_dtop1 (s : State) (p : Nat) (f : Partition → Partition) : (s.updPart p f).dtop1 = s.dtop1 := rfl
@[simp] theorem State.updPart_hostsz (s : State) (p : Nat) (f : Partition → Partition) : (s.updPart p f).hostsz = s.hostsz := rfl
@[simp] theorem State.updPart_counters (s : State) (p : Nat) (f : Partition → Partition) : (s.updPart p f).counters = s.counters := rfl
@[simp] theorem State.updPart_ptp (s : State) (p : Nat) (f : Partition → Partition) : (s.updPart p f).ptp = s.ptp := rfl
@[simp] theorem State.updPart_derated (s : State) (p : Nat) (f : Partition → Partition) : (s.updPart p f).derated = s.derated := rfl
@[simp] theorem State.updPart_clockAt (s : State) (p : Nat) (f : Partition → Partition) : (s.updPart p f).clockAt = s.clockAt := rfl
@[simp] theorem State.updPart_hotAt (s : State) (p : Nat) (f : Partition → Partition) : (s.updPart p f).hotAt = s.hotAt := rfl
@[simp] theorem State.updPart_cap (s : State) (p : Nat) (f : Partition → Partition) : (s.updPart p f).cap = s.cap := rfl
@[simp] theorem State.updPart_capBad (s : State) (p : Nat) (f : Partition → Partition) : (s.updPart p f).capBad = s.capBad := rfl
@[simp] theorem State.updPart_threshold (s : State) (p : Nat) (f : Partition → Partition) : (s.updPart p f).threshold = s.threshold := rfl
@[simp] theorem State.updPart_errTimes (s : State) (p : Nat) (f : Partition → Partition) : (s.updPart p f).errTimes = s.errTimes := rfl
@[simp] theorem State.updPart_scrubHbm (s : State) (p : Nat) (f : Partition → Partition) : (s.updPart p f).scrubHbm = s.scrubHbm := rfl
@[simp] theorem State.updPart_scrubCache (s : State) (p : Nat) (f : Partition → Partition) : (s.updPart p f).scrubCache = s.scrubCache := rfl
@[simp] theorem State.updPart_ptpInterval (s : State) (p : Nat) (f : Partition → Partition) : (s.updPart p f).ptpInterval = s.ptpInterval := rfl
@[simp] theorem State.updPart_scrubs (s : State) (p : Nat) (f : Partition → Partition) : (s.updPart p f).scrubs = s.scrubs := rfl
@[simp] theorem State.updPart_retired (s : State) (p : Nat) (f : Partition → Partition) : (s.updPart p f).retired = s.retired := rfl
@[simp] theorem State.updPart_deadDies (s : State) (p : Nat) (f : Partition → Partition) : (s.updPart p f).deadDies = s.deadDies := rfl
@[simp] theorem State.updPart_offline (s : State) (p : Nat) (f : Partition → Partition) : (s.updPart p f).offline = s.offline := rfl
@[simp] theorem State.updPart_ports (s : State) (p : Nat) (f : Partition → Partition) : (s.updPart p f).ports = s.ports := rfl
@[simp] theorem State.updPart_evlog (s : State) (p : Nat) (f : Partition → Partition) : (s.updPart p f).evlog = s.evlog := rfl
@[simp] theorem State.updPart_banks (s : State) (p : Nat) (f : Partition → Partition) : (s.updPart p f).banks = s.banks := rfl
@[simp] theorem State.updPart_ckpts (s : State) (p : Nat) (f : Partition → Partition) : (s.updPart p f).ckpts = s.ckpts := rfl
@[simp] theorem State.updPart_hostWrites (s : State) (p : Nat) (f : Partition → Partition) : (s.updPart p f).hostWrites = s.hostWrites := rfl
@[simp] theorem State.updPart_results (s : State) (p : Nat) (f : Partition → Partition) : (s.updPart p f).results = s.results := rfl
@[simp] theorem State.updPart_invs (s : State) (p : Nat) (f : Partition → Partition) : (s.updPart p f).invs = s.invs := rfl
@[simp] theorem State.updPart_capLog (s : State) (p : Nat) (f : Partition → Partition) : (s.updPart p f).capLog = s.capLog := rfl
@[simp] theorem State.updPart_images (s : State) (p : Nat) (f : Partition → Partition) : (s.updPart p f).images = s.images := rfl

@[simp] theorem State.fresh_fst (s : State) : s.fresh.1 = s.nextId := rfl

/-! ### Core.goTo -/

@[simp] theorem Core.goTo_step (c : Core) (t : Nat) : (c.goTo t).step = c.step := by unfold Core.goTo; split <;> rfl
@[simp] theorem Core.goTo_pc (c : Core) (t : Nat) : (c.goTo t).pc = c.pc := by unfold Core.goTo; split <;> rfl
@[simp] theorem Core.goTo_base (c : Core) (t : Nat) : (c.goTo t).base = c.base := by unfold Core.goTo; split <;> rfl
@[simp] theorem Core.goTo_exact_ (c : Core) (t : Nat) : (c.goTo t).exact_ = c.exact_ := by unfold Core.goTo; split <;> rfl
@[simp] theorem Core.goTo_streamRef (c : Core) (t : Nat) : (c.goTo t).streamRef = c.streamRef := by unfold Core.goTo; split <;> rfl
@[simp] theorem Core.goTo_dtRef (c : Core) (t : Nat) : (c.goTo t).dtRef = c.dtRef := by unfold Core.goTo; split <;> rfl
@[simp] theorem Core.goTo_slip (c : Core) (t : Nat) : (c.goTo t).slip = c.slip := by unfold Core.goTo; split <;> rfl
@[simp] theorem Core.goTo_floor (c : Core) (t : Nat) : (c.goTo t).floor = c.floor := by unfold Core.goTo; split <;> rfl
@[simp] theorem Core.goTo_until? (c : Core) (t : Nat) : (c.goTo t).until? = c.until? := by unfold Core.goTo; split <;> rfl
@[simp] theorem Core.goTo_grpAt (c : Core) (t : Nat) : (c.goTo t).grpAt = c.grpAt := by unfold Core.goTo; split <;> rfl
@[simp] theorem Core.goTo_grpEng (c : Core) (t : Nat) : (c.goTo t).grpEng = c.grpEng := by unfold Core.goTo; split <;> rfl
@[simp] theorem Core.goTo_grpEnd (c : Core) (t : Nat) : (c.goTo t).grpEnd = c.grpEnd := by unfold Core.goTo; split <;> rfl
@[simp] theorem Core.goTo_owe (c : Core) (t : Nat) : (c.goTo t).owe = c.owe := by unfold Core.goTo; split <;> rfl
@[simp] theorem Core.goTo_joint (c : Core) (t : Nat) : (c.goTo t).joint = c.joint := by unfold Core.goTo; split <;> rfl
@[simp] theorem Core.goTo_arch (c : Core) (t : Nat) : (c.goTo t).arch = c.arch := by unfold Core.goTo; split <;> rfl
@[simp] theorem Core.goTo_flights (c : Core) (t : Nat) : (c.goTo t).flights = c.flights := by unfold Core.goTo; split <;> rfl
@[simp] theorem Core.goTo_awaits (c : Core) (t : Nat) : (c.goTo t).awaits = c.awaits := by unfold Core.goTo; split <;> rfl
@[simp] theorem Core.goTo_held (c : Core) (t : Nat) : (c.goTo t).held = c.held := by unfold Core.goTo; split <;> rfl
@[simp] theorem Core.goTo_opn (c : Core) (t : Nat) : (c.goTo t).opn = c.opn := by unfold Core.goTo; split <;> rfl
@[simp] theorem Core.goTo_closing (c : Core) (t : Nat) : (c.goTo t).closing = c.closing := by unfold Core.goTo; split <;> rfl
@[simp] theorem Core.goTo_shut (c : Core) (t : Nat) : (c.goTo t).shut = c.shut := by unfold Core.goTo; split <;> rfl
@[simp] theorem Core.goTo_ended (c : Core) (t : Nat) : (c.goTo t).ended = c.ended := by unfold Core.goTo; split <;> rfl
@[simp] theorem Core.goTo_trap (c : Core) (t : Nat) : (c.goTo t).trap = c.trap := by unfold Core.goTo; split <;> rfl
@[simp] theorem Core.goTo_tcause (c : Core) (t : Nat) : (c.goTo t).tcause = c.tcause := by unfold Core.goTo; split <;> rfl
@[simp] theorem Core.goTo_tval (c : Core) (t : Nat) : (c.goTo t).tval = c.tval := by unfold Core.goTo; split <;> rfl
@[simp] theorem Core.goTo_cerr (c : Core) (t : Nat) : (c.goTo t).cerr = c.cerr := by unfold Core.goTo; split <;> rfl
@[simp] theorem Core.goTo_doom (c : Core) (t : Nat) : (c.goTo t).doom = c.doom := by unfold Core.goTo; split <;> rfl
@[simp] theorem Core.goTo_empties (c : Core) (t : Nat) : (c.goTo t).empties = c.empties := by unfold Core.goTo; split <;> rfl
@[simp] theorem Core.goTo_spad (c : Core) (t : Nat) : (c.goTo t).spad = c.spad := by unfold Core.goTo; split <;> rfl
@[simp] theorem Core.goTo_ue (c : Core) (t : Nat) : (c.goTo t).ue = c.ue := by unfold Core.goTo; split <;> rfl
@[simp] theorem Core.goTo_ce (c : Core) (t : Nat) : (c.goTo t).ce = c.ce := by unfold Core.goTo; split <;> rfl
@[simp] theorem Core.goTo_accC (c : Core) (t : Nat) : (c.goTo t).accC = c.accC := by unfold Core.goTo; split <;> rfl
@[simp] theorem Core.goTo_accOwn (c : Core) (t : Nat) : (c.goTo t).accOwn = c.accOwn := by unfold Core.goTo; split <;> rfl
@[simp] theorem Core.goTo_accP (c : Core) (t : Nat) : (c.goTo t).accP = c.accP := by unfold Core.goTo; split <;> rfl
@[simp] theorem Core.goTo_accUsed (c : Core) (t : Nat) : (c.goTo t).accUsed = c.accUsed := by unfold Core.goTo; split <;> rfl
@[simp] theorem Core.goTo_touched (c : Core) (t : Nat) : (c.goTo t).touched = c.touched := by unfold Core.goTo; split <;> rfl
@[simp] theorem Core.goTo_sats (c : Core) (t : Nat) : (c.goTo t).sats = c.sats := by unfold Core.goTo; split <;> rfl
@[simp] theorem Core.goTo_mmuls (c : Core) (t : Nat) : (c.goTo t).mmuls = c.mmuls := by unfold Core.goTo; split <;> rfl
@[simp] theorem Core.goTo_mwlds (c : Core) (t : Nat) : (c.goTo t).mwlds = c.mwlds := by unfold Core.goTo; split <;> rfl
@[simp] theorem Core.goTo_slots (c : Core) (t : Nat) : (c.goTo t).slots = c.slots := by unfold Core.goTo; split <;> rfl
@[simp] theorem Core.goTo_undo (c : Core) (t : Nat) : (c.goTo t).undo = c.undo := by unfold Core.goTo; split <;> rfl
@[simp] theorem Core.goTo_port (c : Core) (t : Nat) : (c.goTo t).port = c.port := by unfold Core.goTo; split <;> rfl
@[simp] theorem Core.goTo_hv (c : Core) (t : Nat) : (c.goTo t).hv = c.hv := by unfold Core.goTo; split <;> rfl
@[simp] theorem Core.goTo_tv (c : Core) (t : Nat) : (c.goTo t).tv = c.tv := by unfold Core.goTo; split <;> rfl
@[simp] theorem Core.goTo_asked (c : Core) (t : Nat) : (c.goTo t).asked = c.asked := by unfold Core.goTo; split <;> rfl
@[simp] theorem Core.goTo_heavy (c : Core) (t : Nat) : (c.goTo t).heavy = c.heavy := by unfold Core.goTo; split <;> rfl
@[simp] theorem Core.goTo_tlb (c : Core) (t : Nat) : (c.goTo t).tlb = c.tlb := by unfold Core.goTo; split <;> rfl
@[simp] theorem Core.goTo_l1 (c : Core) (t : Nat) : (c.goTo t).l1 = c.l1 := by unfold Core.goTo; split <;> rfl
@[simp] theorem Core.goTo_walkFaults (c : Core) (t : Nat) : (c.goTo t).walkFaults = c.walkFaults := by unfold Core.goTo; split <;> rfl
@[simp] theorem Core.goTo_frozen (c : Core) (t : Nat) : (c.goTo t).frozen = c.frozen := by unfold Core.goTo; split <;> rfl

/-! ### Core.freeze -/

@[simp] theorem Core.freeze_step (c : Core) (k : Nat) : (c.freeze k).step = c.step := by unfold Core.freeze; split <;> rfl
@[simp] theorem Core.freeze_pc (c : Core) (k : Nat) : (c.freeze k).pc = c.pc := by unfold Core.freeze; split <;> rfl
@[simp] theorem Core.freeze_base (c : Core) (k : Nat) : (c.freeze k).base = c.base := by unfold Core.freeze; split <;> rfl
@[simp] theorem Core.freeze_exact_ (c : Core) (k : Nat) : (c.freeze k).exact_ = c.exact_ := by unfold Core.freeze; split <;> rfl
@[simp] theorem Core.freeze_stream (c : Core) (k : Nat) : (c.freeze k).stream = c.stream := by unfold Core.freeze; split <;> rfl
@[simp] theorem Core.freeze_streamRef (c : Core) (k : Nat) : (c.freeze k).streamRef = c.streamRef := by unfold Core.freeze; split <;> rfl
@[simp] theorem Core.freeze_dtRef (c : Core) (k : Nat) : (c.freeze k).dtRef = c.dtRef := by unfold Core.freeze; split <;> rfl
@[simp] theorem Core.freeze_floor (c : Core) (k : Nat) : (c.freeze k).floor = c.floor := by unfold Core.freeze; split <;> rfl
@[simp] theorem Core.freeze_until? (c : Core) (k : Nat) : (c.freeze k).until? = c.until? := by unfold Core.freeze; split <;> rfl
@[simp] theorem Core.freeze_grpAt (c : Core) (k : Nat) : (c.freeze k).grpAt = c.grpAt := by unfold Core.freeze; split <;> rfl
@[simp] theorem Core.freeze_grpEng (c : Core) (k : Nat) : (c.freeze k).grpEng = c.grpEng := by unfold Core.freeze; split <;> rfl
@[simp] theorem Core.freeze_grpEnd (c : Core) (k : Nat) : (c.freeze k).grpEnd = c.grpEnd := by unfold Core.freeze; split <;> rfl
@[simp] theorem Core.freeze_owe (c : Core) (k : Nat) : (c.freeze k).owe = c.owe := by unfold Core.freeze; split <;> rfl
@[simp] theorem Core.freeze_joint (c : Core) (k : Nat) : (c.freeze k).joint = c.joint := by unfold Core.freeze; split <;> rfl
@[simp] theorem Core.freeze_arch (c : Core) (k : Nat) : (c.freeze k).arch = c.arch := by unfold Core.freeze; split <;> rfl
@[simp] theorem Core.freeze_flights (c : Core) (k : Nat) : (c.freeze k).flights = c.flights := by unfold Core.freeze; split <;> rfl
@[simp] theorem Core.freeze_awaits (c : Core) (k : Nat) : (c.freeze k).awaits = c.awaits := by unfold Core.freeze; split <;> rfl
@[simp] theorem Core.freeze_held (c : Core) (k : Nat) : (c.freeze k).held = c.held := by unfold Core.freeze; split <;> rfl
@[simp] theorem Core.freeze_opn (c : Core) (k : Nat) : (c.freeze k).opn = c.opn := by unfold Core.freeze; split <;> rfl
@[simp] theorem Core.freeze_closing (c : Core) (k : Nat) : (c.freeze k).closing = c.closing := by unfold Core.freeze; split <;> rfl
@[simp] theorem Core.freeze_shut (c : Core) (k : Nat) : (c.freeze k).shut = c.shut := by unfold Core.freeze; split <;> rfl
@[simp] theorem Core.freeze_ended (c : Core) (k : Nat) : (c.freeze k).ended = c.ended := by unfold Core.freeze; split <;> rfl
@[simp] theorem Core.freeze_trap (c : Core) (k : Nat) : (c.freeze k).trap = c.trap := by unfold Core.freeze; split <;> rfl
@[simp] theorem Core.freeze_tcause (c : Core) (k : Nat) : (c.freeze k).tcause = c.tcause := by unfold Core.freeze; split <;> rfl
@[simp] theorem Core.freeze_tval (c : Core) (k : Nat) : (c.freeze k).tval = c.tval := by unfold Core.freeze; split <;> rfl
@[simp] theorem Core.freeze_cerr (c : Core) (k : Nat) : (c.freeze k).cerr = c.cerr := by unfold Core.freeze; split <;> rfl
@[simp] theorem Core.freeze_doom (c : Core) (k : Nat) : (c.freeze k).doom = c.doom := by unfold Core.freeze; split <;> rfl
@[simp] theorem Core.freeze_empties (c : Core) (k : Nat) : (c.freeze k).empties = c.empties := by unfold Core.freeze; split <;> rfl
@[simp] theorem Core.freeze_spad (c : Core) (k : Nat) : (c.freeze k).spad = c.spad := by unfold Core.freeze; split <;> rfl
@[simp] theorem Core.freeze_ue (c : Core) (k : Nat) : (c.freeze k).ue = c.ue := by unfold Core.freeze; split <;> rfl
@[simp] theorem Core.freeze_ce (c : Core) (k : Nat) : (c.freeze k).ce = c.ce := by unfold Core.freeze; split <;> rfl
@[simp] theorem Core.freeze_accC (c : Core) (k : Nat) : (c.freeze k).accC = c.accC := by unfold Core.freeze; split <;> rfl
@[simp] theorem Core.freeze_accOwn (c : Core) (k : Nat) : (c.freeze k).accOwn = c.accOwn := by unfold Core.freeze; split <;> rfl
@[simp] theorem Core.freeze_accP (c : Core) (k : Nat) : (c.freeze k).accP = c.accP := by unfold Core.freeze; split <;> rfl
@[simp] theorem Core.freeze_accUsed (c : Core) (k : Nat) : (c.freeze k).accUsed = c.accUsed := by unfold Core.freeze; split <;> rfl
@[simp] theorem Core.freeze_touched (c : Core) (k : Nat) : (c.freeze k).touched = c.touched := by unfold Core.freeze; split <;> rfl
@[simp] theorem Core.freeze_sats (c : Core) (k : Nat) : (c.freeze k).sats = c.sats := by unfold Core.freeze; split <;> rfl
@[simp] theorem Core.freeze_mmuls (c : Core) (k : Nat) : (c.freeze k).mmuls = c.mmuls := by unfold Core.freeze; split <;> rfl
@[simp] theorem Core.freeze_mwlds (c : Core) (k : Nat) : (c.freeze k).mwlds = c.mwlds := by unfold Core.freeze; split <;> rfl
@[simp] theorem Core.freeze_slots (c : Core) (k : Nat) : (c.freeze k).slots = c.slots := by unfold Core.freeze; split <;> rfl
@[simp] theorem Core.freeze_undo (c : Core) (k : Nat) : (c.freeze k).undo = c.undo := by unfold Core.freeze; split <;> rfl
@[simp] theorem Core.freeze_port (c : Core) (k : Nat) : (c.freeze k).port = c.port := by unfold Core.freeze; split <;> rfl
@[simp] theorem Core.freeze_hv (c : Core) (k : Nat) : (c.freeze k).hv = c.hv := by unfold Core.freeze; split <;> rfl
@[simp] theorem Core.freeze_tv (c : Core) (k : Nat) : (c.freeze k).tv = c.tv := by unfold Core.freeze; split <;> rfl
@[simp] theorem Core.freeze_asked (c : Core) (k : Nat) : (c.freeze k).asked = c.asked := by unfold Core.freeze; split <;> rfl
@[simp] theorem Core.freeze_heavy (c : Core) (k : Nat) : (c.freeze k).heavy = c.heavy := by unfold Core.freeze; split <;> rfl
@[simp] theorem Core.freeze_tlb (c : Core) (k : Nat) : (c.freeze k).tlb = c.tlb := by unfold Core.freeze; split <;> rfl
@[simp] theorem Core.freeze_l1 (c : Core) (k : Nat) : (c.freeze k).l1 = c.l1 := by unfold Core.freeze; split <;> rfl
@[simp] theorem Core.freeze_walkFaults (c : Core) (k : Nat) : (c.freeze k).walkFaults = c.walkFaults := by unfold Core.freeze; split <;> rfl
@[simp] theorem Core.freeze_frozen (c : Core) (k : Nat) : (c.freeze k).frozen = c.frozen := by unfold Core.freeze; split <;> rfl

/-! ### Core.joinGroup -/

@[simp] theorem Core.joinGroup_step (c : Core) (t e : Nat) (b : Bool) : (c.joinGroup t e b).step = c.step := rfl
@[simp] theorem Core.joinGroup_pc (c : Core) (t e : Nat) (b : Bool) : (c.joinGroup t e b).pc = c.pc := rfl
@[simp] theorem Core.joinGroup_base (c : Core) (t e : Nat) (b : Bool) : (c.joinGroup t e b).base = c.base := rfl
@[simp] theorem Core.joinGroup_exact_ (c : Core) (t e : Nat) (b : Bool) : (c.joinGroup t e b).exact_ = c.exact_ := rfl
@[simp] theorem Core.joinGroup_stream (c : Core) (t e : Nat) (b : Bool) : (c.joinGroup t e b).stream = c.stream := rfl
@[simp] theorem Core.joinGroup_dt (c : Core) (t e : Nat) (b : Bool) : (c.joinGroup t e b).dt = c.dt := rfl
@[simp] theorem Core.joinGroup_streamRef (c : Core) (t e : Nat) (b : Bool) : (c.joinGroup t e b).streamRef = c.streamRef := rfl
@[simp] theorem Core.joinGroup_dtRef (c : Core) (t e : Nat) (b : Bool) : (c.joinGroup t e b).dtRef = c.dtRef := rfl
@[simp] theorem Core.joinGroup_slip (c : Core) (t e : Nat) (b : Bool) : (c.joinGroup t e b).slip = c.slip := rfl
@[simp] theorem Core.joinGroup_floor (c : Core) (t e : Nat) (b : Bool) : (c.joinGroup t e b).floor = c.floor := rfl
@[simp] theorem Core.joinGroup_until? (c : Core) (t e : Nat) (b : Bool) : (c.joinGroup t e b).until? = c.until? := rfl
@[simp] theorem Core.joinGroup_grpAt (c : Core) (t e : Nat) (b : Bool) : (c.joinGroup t e b).grpAt = t := rfl
@[simp] theorem Core.joinGroup_grpEng (c : Core) (t e : Nat) (b : Bool) : (c.joinGroup t e b).grpEng = (if c.grpAt = t then c.grpEng else []) ++ [e] := rfl
@[simp] theorem Core.joinGroup_grpEnd (c : Core) (t e : Nat) (b : Bool) : (c.joinGroup t e b).grpEnd = (b || (c.grpAt = t && c.grpEnd)) := rfl
@[simp] theorem Core.joinGroup_owe (c : Core) (t e : Nat) (b : Bool) : (c.joinGroup t e b).owe = c.owe := rfl
@[simp] theorem Core.joinGroup_joint (c : Core) (t e : Nat) (b : Bool) : (c.joinGroup t e b).joint = c.joint := rfl
@[simp] theorem Core.joinGroup_arch (c : Core) (t e : Nat) (b : Bool) : (c.joinGroup t e b).arch = c.arch := rfl
@[simp] theorem Core.joinGroup_flights (c : Core) (t e : Nat) (b : Bool) : (c.joinGroup t e b).flights = c.flights := rfl
@[simp] theorem Core.joinGroup_awaits (c : Core) (t e : Nat) (b : Bool) : (c.joinGroup t e b).awaits = c.awaits := rfl
@[simp] theorem Core.joinGroup_held (c : Core) (t e : Nat) (b : Bool) : (c.joinGroup t e b).held = c.held := rfl
@[simp] theorem Core.joinGroup_opn (c : Core) (t e : Nat) (b : Bool) : (c.joinGroup t e b).opn = c.opn := rfl
@[simp] theorem Core.joinGroup_closing (c : Core) (t e : Nat) (b : Bool) : (c.joinGroup t e b).closing = c.closing := rfl
@[simp] theorem Core.joinGroup_shut (c : Core) (t e : Nat) (b : Bool) : (c.joinGroup t e b).shut = c.shut := rfl
@[simp] theorem Core.joinGroup_ended (c : Core) (t e : Nat) (b : Bool) : (c.joinGroup t e b).ended = c.ended := rfl
@[simp] theorem Core.joinGroup_trap (c : Core) (t e : Nat) (b : Bool) : (c.joinGroup t e b).trap = c.trap := rfl
@[simp] theorem Core.joinGroup_tcause (c : Core) (t e : Nat) (b : Bool) : (c.joinGroup t e b).tcause = c.tcause := rfl
@[simp] theorem Core.joinGroup_tval (c : Core) (t e : Nat) (b : Bool) : (c.joinGroup t e b).tval = c.tval := rfl
@[simp] theorem Core.joinGroup_cerr (c : Core) (t e : Nat) (b : Bool) : (c.joinGroup t e b).cerr = c.cerr := rfl
@[simp] theorem Core.joinGroup_doom (c : Core) (t e : Nat) (b : Bool) : (c.joinGroup t e b).doom = c.doom := rfl
@[simp] theorem Core.joinGroup_empties (c : Core) (t e : Nat) (b : Bool) : (c.joinGroup t e b).empties = c.empties := rfl
@[simp] theorem Core.joinGroup_spad (c : Core) (t e : Nat) (b : Bool) : (c.joinGroup t e b).spad = c.spad := rfl
@[simp] theorem Core.joinGroup_ue (c : Core) (t e : Nat) (b : Bool) : (c.joinGroup t e b).ue = c.ue := rfl
@[simp] theorem Core.joinGroup_ce (c : Core) (t e : Nat) (b : Bool) : (c.joinGroup t e b).ce = c.ce := rfl
@[simp] theorem Core.joinGroup_accC (c : Core) (t e : Nat) (b : Bool) : (c.joinGroup t e b).accC = c.accC := rfl
@[simp] theorem Core.joinGroup_accOwn (c : Core) (t e : Nat) (b : Bool) : (c.joinGroup t e b).accOwn = c.accOwn := rfl
@[simp] theorem Core.joinGroup_accP (c : Core) (t e : Nat) (b : Bool) : (c.joinGroup t e b).accP = c.accP := rfl
@[simp] theorem Core.joinGroup_accUsed (c : Core) (t e : Nat) (b : Bool) : (c.joinGroup t e b).accUsed = c.accUsed := rfl
@[simp] theorem Core.joinGroup_touched (c : Core) (t e : Nat) (b : Bool) : (c.joinGroup t e b).touched = c.touched := rfl
@[simp] theorem Core.joinGroup_sats (c : Core) (t e : Nat) (b : Bool) : (c.joinGroup t e b).sats = c.sats := rfl
@[simp] theorem Core.joinGroup_mmuls (c : Core) (t e : Nat) (b : Bool) : (c.joinGroup t e b).mmuls = c.mmuls := rfl
@[simp] theorem Core.joinGroup_mwlds (c : Core) (t e : Nat) (b : Bool) : (c.joinGroup t e b).mwlds = c.mwlds := rfl
@[simp] theorem Core.joinGroup_slots (c : Core) (t e : Nat) (b : Bool) : (c.joinGroup t e b).slots = c.slots := rfl
@[simp] theorem Core.joinGroup_undo (c : Core) (t e : Nat) (b : Bool) : (c.joinGroup t e b).undo = c.undo := rfl
@[simp] theorem Core.joinGroup_port (c : Core) (t e : Nat) (b : Bool) : (c.joinGroup t e b).port = c.port := rfl
@[simp] theorem Core.joinGroup_hv (c : Core) (t e : Nat) (b : Bool) : (c.joinGroup t e b).hv = c.hv := rfl
@[simp] theorem Core.joinGroup_tv (c : Core) (t e : Nat) (b : Bool) : (c.joinGroup t e b).tv = c.tv := rfl
@[simp] theorem Core.joinGroup_asked (c : Core) (t e : Nat) (b : Bool) : (c.joinGroup t e b).asked = c.asked := rfl
@[simp] theorem Core.joinGroup_heavy (c : Core) (t e : Nat) (b : Bool) : (c.joinGroup t e b).heavy = c.heavy := rfl
@[simp] theorem Core.joinGroup_tlb (c : Core) (t e : Nat) (b : Bool) : (c.joinGroup t e b).tlb = c.tlb := rfl
@[simp] theorem Core.joinGroup_l1 (c : Core) (t e : Nat) (b : Bool) : (c.joinGroup t e b).l1 = c.l1 := rfl
@[simp] theorem Core.joinGroup_walkFaults (c : Core) (t e : Nat) (b : Bool) : (c.joinGroup t e b).walkFaults = c.walkFaults := rfl
@[simp] theorem Core.joinGroup_frozen (c : Core) (t e : Nat) (b : Bool) : (c.joinGroup t e b).frozen = c.frozen := rfl

/-! ### Core.markR -/

@[simp] theorem Core.markR_step (c : Core) (gs : List Nat) : (c.markR gs).step = c.step := rfl
@[simp] theorem Core.markR_pc (c : Core) (gs : List Nat) : (c.markR gs).pc = c.pc := rfl
@[simp] theorem Core.markR_base (c : Core) (gs : List Nat) : (c.markR gs).base = c.base := rfl
@[simp] theorem Core.markR_exact_ (c : Core) (gs : List Nat) : (c.markR gs).exact_ = c.exact_ := rfl
@[simp] theorem Core.markR_stream (c : Core) (gs : List Nat) : (c.markR gs).stream = c.stream := rfl
@[simp] theorem Core.markR_dt (c : Core) (gs : List Nat) : (c.markR gs).dt = c.dt := rfl
@[simp] theorem Core.markR_streamRef (c : Core) (gs : List Nat) : (c.markR gs).streamRef = c.streamRef := rfl
@[simp] theorem Core.markR_dtRef (c : Core) (gs : List Nat) : (c.markR gs).dtRef = c.dtRef := rfl
@[simp] theorem Core.markR_slip (c : Core) (gs : List Nat) : (c.markR gs).slip = c.slip := rfl
@[simp] theorem Core.markR_floor (c : Core) (gs : List Nat) : (c.markR gs).floor = c.floor := rfl
@[simp] theorem Core.markR_until? (c : Core) (gs : List Nat) : (c.markR gs).until? = c.until? := rfl
@[simp] theorem Core.markR_grpAt (c : Core) (gs : List Nat) : (c.markR gs).grpAt = c.grpAt := rfl
@[simp] theorem Core.markR_grpEng (c : Core) (gs : List Nat) : (c.markR gs).grpEng = c.grpEng := rfl
@[simp] theorem Core.markR_grpEnd (c : Core) (gs : List Nat) : (c.markR gs).grpEnd = c.grpEnd := rfl
@[simp] theorem Core.markR_owe (c : Core) (gs : List Nat) : (c.markR gs).owe = c.owe := rfl
@[simp] theorem Core.markR_joint (c : Core) (gs : List Nat) : (c.markR gs).joint = c.joint := rfl
@[simp] theorem Core.markR_arch (c : Core) (gs : List Nat) : (c.markR gs).arch = c.arch := rfl
@[simp] theorem Core.markR_flights (c : Core) (gs : List Nat) : (c.markR gs).flights = c.flights := rfl
@[simp] theorem Core.markR_awaits (c : Core) (gs : List Nat) : (c.markR gs).awaits = c.awaits := rfl
@[simp] theorem Core.markR_held (c : Core) (gs : List Nat) : (c.markR gs).held = c.held := rfl
@[simp] theorem Core.markR_opn (c : Core) (gs : List Nat) : (c.markR gs).opn = { c.opn with rset := saddAll c.opn.rset gs } := rfl
@[simp] theorem Core.markR_closing (c : Core) (gs : List Nat) : (c.markR gs).closing = c.closing := rfl
@[simp] theorem Core.markR_shut (c : Core) (gs : List Nat) : (c.markR gs).shut = c.shut := rfl
@[simp] theorem Core.markR_ended (c : Core) (gs : List Nat) : (c.markR gs).ended = c.ended := rfl
@[simp] theorem Core.markR_trap (c : Core) (gs : List Nat) : (c.markR gs).trap = c.trap := rfl
@[simp] theorem Core.markR_tcause (c : Core) (gs : List Nat) : (c.markR gs).tcause = c.tcause := rfl
@[simp] theorem Core.markR_tval (c : Core) (gs : List Nat) : (c.markR gs).tval = c.tval := rfl
@[simp] theorem Core.markR_cerr (c : Core) (gs : List Nat) : (c.markR gs).cerr = c.cerr := rfl
@[simp] theorem Core.markR_doom (c : Core) (gs : List Nat) : (c.markR gs).doom = c.doom := rfl
@[simp] theorem Core.markR_empties (c : Core) (gs : List Nat) : (c.markR gs).empties = c.empties := rfl
@[simp] theorem Core.markR_spad (c : Core) (gs : List Nat) : (c.markR gs).spad = c.spad := rfl
@[simp] theorem Core.markR_ue (c : Core) (gs : List Nat) : (c.markR gs).ue = c.ue := rfl
@[simp] theorem Core.markR_ce (c : Core) (gs : List Nat) : (c.markR gs).ce = c.ce := rfl
@[simp] theorem Core.markR_accC (c : Core) (gs : List Nat) : (c.markR gs).accC = c.accC := rfl
@[simp] theorem Core.markR_accOwn (c : Core) (gs : List Nat) : (c.markR gs).accOwn = c.accOwn := rfl
@[simp] theorem Core.markR_accP (c : Core) (gs : List Nat) : (c.markR gs).accP = c.accP := rfl
@[simp] theorem Core.markR_accUsed (c : Core) (gs : List Nat) : (c.markR gs).accUsed = c.accUsed := rfl
@[simp] theorem Core.markR_touched (c : Core) (gs : List Nat) : (c.markR gs).touched = c.touched := rfl
@[simp] theorem Core.markR_sats (c : Core) (gs : List Nat) : (c.markR gs).sats = c.sats := rfl
@[simp] theorem Core.markR_mmuls (c : Core) (gs : List Nat) : (c.markR gs).mmuls = c.mmuls := rfl
@[simp] theorem Core.markR_mwlds (c : Core) (gs : List Nat) : (c.markR gs).mwlds = c.mwlds := rfl
@[simp] theorem Core.markR_slots (c : Core) (gs : List Nat) : (c.markR gs).slots = c.slots := rfl
@[simp] theorem Core.markR_undo (c : Core) (gs : List Nat) : (c.markR gs).undo = c.undo := rfl
@[simp] theorem Core.markR_port (c : Core) (gs : List Nat) : (c.markR gs).port = c.port := rfl
@[simp] theorem Core.markR_hv (c : Core) (gs : List Nat) : (c.markR gs).hv = c.hv := rfl
@[simp] theorem Core.markR_tv (c : Core) (gs : List Nat) : (c.markR gs).tv = c.tv := rfl
@[simp] theorem Core.markR_asked (c : Core) (gs : List Nat) : (c.markR gs).asked = c.asked := rfl
@[simp] theorem Core.markR_heavy (c : Core) (gs : List Nat) : (c.markR gs).heavy = c.heavy := rfl
@[simp] theorem Core.markR_tlb (c : Core) (gs : List Nat) : (c.markR gs).tlb = c.tlb := rfl
@[simp] theorem Core.markR_l1 (c : Core) (gs : List Nat) : (c.markR gs).l1 = c.l1 := rfl
@[simp] theorem Core.markR_walkFaults (c : Core) (gs : List Nat) : (c.markR gs).walkFaults = c.walkFaults := rfl
@[simp] theorem Core.markR_frozen (c : Core) (gs : List Nat) : (c.markR gs).frozen = c.frozen := rfl

/-! ### Core.markW -/

@[simp] theorem Core.markW_step (c : Core) (gs : List Nat) : (c.markW gs).step = c.step := rfl
@[simp] theorem Core.markW_pc (c : Core) (gs : List Nat) : (c.markW gs).pc = c.pc := rfl
@[simp] theorem Core.markW_base (c : Core) (gs : List Nat) : (c.markW gs).base = c.base := rfl
@[simp] theorem Core.markW_exact_ (c : Core) (gs : List Nat) : (c.markW gs).exact_ = c.exact_ := rfl
@[simp] theorem Core.markW_stream (c : Core) (gs : List Nat) : (c.markW gs).stream = c.stream := rfl
@[simp] theorem Core.markW_dt (c : Core) (gs : List Nat) : (c.markW gs).dt = c.dt := rfl
@[simp] theorem Core.markW_streamRef (c : Core) (gs : List Nat) : (c.markW gs).streamRef = c.streamRef := rfl
@[simp] theorem Core.markW_dtRef (c : Core) (gs : List Nat) : (c.markW gs).dtRef = c.dtRef := rfl
@[simp] theorem Core.markW_slip (c : Core) (gs : List Nat) : (c.markW gs).slip = c.slip := rfl
@[simp] theorem Core.markW_floor (c : Core) (gs : List Nat) : (c.markW gs).floor = c.floor := rfl
@[simp] theorem Core.markW_until? (c : Core) (gs : List Nat) : (c.markW gs).until? = c.until? := rfl
@[simp] theorem Core.markW_grpAt (c : Core) (gs : List Nat) : (c.markW gs).grpAt = c.grpAt := rfl
@[simp] theorem Core.markW_grpEng (c : Core) (gs : List Nat) : (c.markW gs).grpEng = c.grpEng := rfl
@[simp] theorem Core.markW_grpEnd (c : Core) (gs : List Nat) : (c.markW gs).grpEnd = c.grpEnd := rfl
@[simp] theorem Core.markW_owe (c : Core) (gs : List Nat) : (c.markW gs).owe = c.owe := rfl
@[simp] theorem Core.markW_joint (c : Core) (gs : List Nat) : (c.markW gs).joint = c.joint := rfl
@[simp] theorem Core.markW_arch (c : Core) (gs : List Nat) : (c.markW gs).arch = c.arch := rfl
@[simp] theorem Core.markW_flights (c : Core) (gs : List Nat) : (c.markW gs).flights = c.flights := rfl
@[simp] theorem Core.markW_awaits (c : Core) (gs : List Nat) : (c.markW gs).awaits = c.awaits := rfl
@[simp] theorem Core.markW_held (c : Core) (gs : List Nat) : (c.markW gs).held = c.held := rfl
@[simp] theorem Core.markW_opn (c : Core) (gs : List Nat) : (c.markW gs).opn = { c.opn with wset := saddAll c.opn.wset gs } := rfl
@[simp] theorem Core.markW_closing (c : Core) (gs : List Nat) : (c.markW gs).closing = c.closing := rfl
@[simp] theorem Core.markW_shut (c : Core) (gs : List Nat) : (c.markW gs).shut = c.shut := rfl
@[simp] theorem Core.markW_ended (c : Core) (gs : List Nat) : (c.markW gs).ended = c.ended := rfl
@[simp] theorem Core.markW_trap (c : Core) (gs : List Nat) : (c.markW gs).trap = c.trap := rfl
@[simp] theorem Core.markW_tcause (c : Core) (gs : List Nat) : (c.markW gs).tcause = c.tcause := rfl
@[simp] theorem Core.markW_tval (c : Core) (gs : List Nat) : (c.markW gs).tval = c.tval := rfl
@[simp] theorem Core.markW_cerr (c : Core) (gs : List Nat) : (c.markW gs).cerr = c.cerr := rfl
@[simp] theorem Core.markW_doom (c : Core) (gs : List Nat) : (c.markW gs).doom = c.doom := rfl
@[simp] theorem Core.markW_empties (c : Core) (gs : List Nat) : (c.markW gs).empties = c.empties := rfl
@[simp] theorem Core.markW_spad (c : Core) (gs : List Nat) : (c.markW gs).spad = c.spad := rfl
@[simp] theorem Core.markW_ue (c : Core) (gs : List Nat) : (c.markW gs).ue = c.ue := rfl
@[simp] theorem Core.markW_ce (c : Core) (gs : List Nat) : (c.markW gs).ce = c.ce := rfl
@[simp] theorem Core.markW_accC (c : Core) (gs : List Nat) : (c.markW gs).accC = c.accC := rfl
@[simp] theorem Core.markW_accOwn (c : Core) (gs : List Nat) : (c.markW gs).accOwn = c.accOwn := rfl
@[simp] theorem Core.markW_accP (c : Core) (gs : List Nat) : (c.markW gs).accP = c.accP := rfl
@[simp] theorem Core.markW_accUsed (c : Core) (gs : List Nat) : (c.markW gs).accUsed = c.accUsed := rfl
@[simp] theorem Core.markW_touched (c : Core) (gs : List Nat) : (c.markW gs).touched = c.touched := rfl
@[simp] theorem Core.markW_sats (c : Core) (gs : List Nat) : (c.markW gs).sats = c.sats := rfl
@[simp] theorem Core.markW_mmuls (c : Core) (gs : List Nat) : (c.markW gs).mmuls = c.mmuls := rfl
@[simp] theorem Core.markW_mwlds (c : Core) (gs : List Nat) : (c.markW gs).mwlds = c.mwlds := rfl
@[simp] theorem Core.markW_slots (c : Core) (gs : List Nat) : (c.markW gs).slots = c.slots := rfl
@[simp] theorem Core.markW_undo (c : Core) (gs : List Nat) : (c.markW gs).undo = c.undo := rfl
@[simp] theorem Core.markW_port (c : Core) (gs : List Nat) : (c.markW gs).port = c.port := rfl
@[simp] theorem Core.markW_hv (c : Core) (gs : List Nat) : (c.markW gs).hv = c.hv := rfl
@[simp] theorem Core.markW_tv (c : Core) (gs : List Nat) : (c.markW gs).tv = c.tv := rfl
@[simp] theorem Core.markW_asked (c : Core) (gs : List Nat) : (c.markW gs).asked = c.asked := rfl
@[simp] theorem Core.markW_heavy (c : Core) (gs : List Nat) : (c.markW gs).heavy = c.heavy := rfl
@[simp] theorem Core.markW_tlb (c : Core) (gs : List Nat) : (c.markW gs).tlb = c.tlb := rfl
@[simp] theorem Core.markW_l1 (c : Core) (gs : List Nat) : (c.markW gs).l1 = c.l1 := rfl
@[simp] theorem Core.markW_walkFaults (c : Core) (gs : List Nat) : (c.markW gs).walkFaults = c.walkFaults := rfl
@[simp] theorem Core.markW_frozen (c : Core) (gs : List Nat) : (c.markW gs).frozen = c.frozen := rfl

/-! ### Core.launchOp -/

@[simp] theorem Core.launchOp_step (c : Core) (f : Flight) : (c.launchOp f).step = c.step := rfl
@[simp] theorem Core.launchOp_pc (c : Core) (f : Flight) : (c.launchOp f).pc = c.pc := rfl
@[simp] theorem Core.launchOp_base (c : Core) (f : Flight) : (c.launchOp f).base = c.base := rfl
@[simp] theorem Core.launchOp_exact_ (c : Core) (f : Flight) : (c.launchOp f).exact_ = c.exact_ := rfl
@[simp] theorem Core.launchOp_stream (c : Core) (f : Flight) : (c.launchOp f).stream = c.stream := rfl
@[simp] theorem Core.launchOp_dt (c : Core) (f : Flight) : (c.launchOp f).dt = c.dt := rfl
@[simp] theorem Core.launchOp_streamRef (c : Core) (f : Flight) : (c.launchOp f).streamRef = c.streamRef := rfl
@[simp] theorem Core.launchOp_dtRef (c : Core) (f : Flight) : (c.launchOp f).dtRef = c.dtRef := rfl
@[simp] theorem Core.launchOp_slip (c : Core) (f : Flight) : (c.launchOp f).slip = c.slip := rfl
@[simp] theorem Core.launchOp_floor (c : Core) (f : Flight) : (c.launchOp f).floor = c.floor := rfl
@[simp] theorem Core.launchOp_until? (c : Core) (f : Flight) : (c.launchOp f).until? = c.until? := rfl
@[simp] theorem Core.launchOp_grpAt (c : Core) (f : Flight) : (c.launchOp f).grpAt = c.grpAt := rfl
@[simp] theorem Core.launchOp_grpEng (c : Core) (f : Flight) : (c.launchOp f).grpEng = c.grpEng := rfl
@[simp] theorem Core.launchOp_grpEnd (c : Core) (f : Flight) : (c.launchOp f).grpEnd = c.grpEnd := rfl
@[simp] theorem Core.launchOp_owe (c : Core) (f : Flight) : (c.launchOp f).owe = c.owe := rfl
@[simp] theorem Core.launchOp_joint (c : Core) (f : Flight) : (c.launchOp f).joint = c.joint := rfl
@[simp] theorem Core.launchOp_arch (c : Core) (f : Flight) : (c.launchOp f).arch = c.arch := rfl
@[simp] theorem Core.launchOp_flights (c : Core) (f : Flight) : (c.launchOp f).flights = c.flights ++ [f] := rfl
@[simp] theorem Core.launchOp_awaits (c : Core) (f : Flight) : (c.launchOp f).awaits = c.awaits := rfl
@[simp] theorem Core.launchOp_held (c : Core) (f : Flight) : (c.launchOp f).held = c.held := rfl
@[simp] theorem Core.launchOp_closing (c : Core) (f : Flight) : (c.launchOp f).closing = c.closing := rfl
@[simp] theorem Core.launchOp_shut (c : Core) (f : Flight) : (c.launchOp f).shut = c.shut := rfl
@[simp] theorem Core.launchOp_ended (c : Core) (f : Flight) : (c.launchOp f).ended = c.ended := rfl
@[simp] theorem Core.launchOp_trap (c : Core) (f : Flight) : (c.launchOp f).trap = c.trap := rfl
@[simp] theorem Core.launchOp_tcause (c : Core) (f : Flight) : (c.launchOp f).tcause = c.tcause := rfl
@[simp] theorem Core.launchOp_tval (c : Core) (f : Flight) : (c.launchOp f).tval = c.tval := rfl
@[simp] theorem Core.launchOp_cerr (c : Core) (f : Flight) : (c.launchOp f).cerr = c.cerr := rfl
@[simp] theorem Core.launchOp_doom (c : Core) (f : Flight) : (c.launchOp f).doom = c.doom := rfl
@[simp] theorem Core.launchOp_empties (c : Core) (f : Flight) : (c.launchOp f).empties = c.empties := rfl
@[simp] theorem Core.launchOp_spad (c : Core) (f : Flight) : (c.launchOp f).spad = c.spad := rfl
@[simp] theorem Core.launchOp_ue (c : Core) (f : Flight) : (c.launchOp f).ue = c.ue := rfl
@[simp] theorem Core.launchOp_ce (c : Core) (f : Flight) : (c.launchOp f).ce = c.ce := rfl
@[simp] theorem Core.launchOp_accC (c : Core) (f : Flight) : (c.launchOp f).accC = c.accC := rfl
@[simp] theorem Core.launchOp_accOwn (c : Core) (f : Flight) : (c.launchOp f).accOwn = c.accOwn := rfl
@[simp] theorem Core.launchOp_accP (c : Core) (f : Flight) : (c.launchOp f).accP = c.accP := rfl
@[simp] theorem Core.launchOp_accUsed (c : Core) (f : Flight) : (c.launchOp f).accUsed = c.accUsed := rfl
@[simp] theorem Core.launchOp_touched (c : Core) (f : Flight) : (c.launchOp f).touched = c.touched := rfl
@[simp] theorem Core.launchOp_sats (c : Core) (f : Flight) : (c.launchOp f).sats = c.sats := rfl
@[simp] theorem Core.launchOp_mmuls (c : Core) (f : Flight) : (c.launchOp f).mmuls = c.mmuls := rfl
@[simp] theorem Core.launchOp_mwlds (c : Core) (f : Flight) : (c.launchOp f).mwlds = c.mwlds := rfl
@[simp] theorem Core.launchOp_slots (c : Core) (f : Flight) : (c.launchOp f).slots = c.slots := rfl
@[simp] theorem Core.launchOp_undo (c : Core) (f : Flight) : (c.launchOp f).undo = c.undo := rfl
@[simp] theorem Core.launchOp_port (c : Core) (f : Flight) : (c.launchOp f).port = c.port := rfl
@[simp] theorem Core.launchOp_hv (c : Core) (f : Flight) : (c.launchOp f).hv = c.hv := rfl
@[simp] theorem Core.launchOp_tv (c : Core) (f : Flight) : (c.launchOp f).tv = c.tv := rfl
@[simp] theorem Core.launchOp_asked (c : Core) (f : Flight) : (c.launchOp f).asked = c.asked := rfl
@[simp] theorem Core.launchOp_heavy (c : Core) (f : Flight) : (c.launchOp f).heavy = c.heavy := rfl
@[simp] theorem Core.launchOp_tlb (c : Core) (f : Flight) : (c.launchOp f).tlb = c.tlb := rfl
@[simp] theorem Core.launchOp_l1 (c : Core) (f : Flight) : (c.launchOp f).l1 = c.l1 := rfl
@[simp] theorem Core.launchOp_walkFaults (c : Core) (f : Flight) : (c.launchOp f).walkFaults = c.walkFaults := rfl
@[simp] theorem Core.launchOp_frozen (c : Core) (f : Flight) : (c.launchOp f).frozen = c.frozen := rfl

/-! ### Core.updArch -/

@[simp] theorem Core.updArch_step (c : Core) (r : Nat) (f : Arch → Arch) : (c.updArch r f).step = c.step := rfl
@[simp] theorem Core.updArch_pc (c : Core) (r : Nat) (f : Arch → Arch) : (c.updArch r f).pc = c.pc := rfl
@[simp] theorem Core.updArch_base (c : Core) (r : Nat) (f : Arch → Arch) : (c.updArch r f).base = c.base := rfl
@[simp] theorem Core.updArch_exact_ (c : Core) (r : Nat) (f : Arch → Arch) : (c.updArch r f).exact_ = c.exact_ := rfl
@[simp] theorem Core.updArch_stream (c : Core) (r : Nat) (f : Arch → Arch) : (c.updArch r f).stream = c.stream := rfl
@[simp] theorem Core.updArch_dt (c : Core) (r : Nat) (f : Arch → Arch) : (c.updArch r f).dt = c.dt := rfl
@[simp] theorem Core.updArch_streamRef (c : Core) (r : Nat) (f : Arch → Arch) : (c.updArch r f).streamRef = c.streamRef := rfl
@[simp] theorem Core.updArch_dtRef (c : Core) (r : Nat) (f : Arch → Arch) : (c.updArch r f).dtRef = c.dtRef := rfl
@[simp] theorem Core.updArch_slip (c : Core) (r : Nat) (f : Arch → Arch) : (c.updArch r f).slip = c.slip := rfl
@[simp] theorem Core.updArch_floor (c : Core) (r : Nat) (f : Arch → Arch) : (c.updArch r f).floor = c.floor := rfl
@[simp] theorem Core.updArch_until? (c : Core) (r : Nat) (f : Arch → Arch) : (c.updArch r f).until? = c.until? := rfl
@[simp] theorem Core.updArch_grpAt (c : Core) (r : Nat) (f : Arch → Arch) : (c.updArch r f).grpAt = c.grpAt := rfl
@[simp] theorem Core.updArch_grpEng (c : Core) (r : Nat) (f : Arch → Arch) : (c.updArch r f).grpEng = c.grpEng := rfl
@[simp] theorem Core.updArch_grpEnd (c : Core) (r : Nat) (f : Arch → Arch) : (c.updArch r f).grpEnd = c.grpEnd := rfl
@[simp] theorem Core.updArch_owe (c : Core) (r : Nat) (f : Arch → Arch) : (c.updArch r f).owe = c.owe := rfl
@[simp] theorem Core.updArch_joint (c : Core) (r : Nat) (f : Arch → Arch) : (c.updArch r f).joint = c.joint := rfl
@[simp] theorem Core.updArch_arch (c : Core) (r : Nat) (f : Arch → Arch) : (c.updArch r f).arch = f c.arch := rfl
@[simp] theorem Core.updArch_flights (c : Core) (r : Nat) (f : Arch → Arch) : (c.updArch r f).flights = c.flights := rfl
@[simp] theorem Core.updArch_awaits (c : Core) (r : Nat) (f : Arch → Arch) : (c.updArch r f).awaits = c.awaits := rfl
@[simp] theorem Core.updArch_held (c : Core) (r : Nat) (f : Arch → Arch) : (c.updArch r f).held = c.held := rfl
@[simp] theorem Core.updArch_shut (c : Core) (r : Nat) (f : Arch → Arch) : (c.updArch r f).shut = c.shut := rfl
@[simp] theorem Core.updArch_ended (c : Core) (r : Nat) (f : Arch → Arch) : (c.updArch r f).ended = c.ended := rfl
@[simp] theorem Core.updArch_trap (c : Core) (r : Nat) (f : Arch → Arch) : (c.updArch r f).trap = c.trap := rfl
@[simp] theorem Core.updArch_tcause (c : Core) (r : Nat) (f : Arch → Arch) : (c.updArch r f).tcause = c.tcause := rfl
@[simp] theorem Core.updArch_tval (c : Core) (r : Nat) (f : Arch → Arch) : (c.updArch r f).tval = c.tval := rfl
@[simp] theorem Core.updArch_cerr (c : Core) (r : Nat) (f : Arch → Arch) : (c.updArch r f).cerr = c.cerr := rfl
@[simp] theorem Core.updArch_doom (c : Core) (r : Nat) (f : Arch → Arch) : (c.updArch r f).doom = c.doom := rfl
@[simp] theorem Core.updArch_empties (c : Core) (r : Nat) (f : Arch → Arch) : (c.updArch r f).empties = c.empties := rfl
@[simp] theorem Core.updArch_spad (c : Core) (r : Nat) (f : Arch → Arch) : (c.updArch r f).spad = c.spad := rfl
@[simp] theorem Core.updArch_ue (c : Core) (r : Nat) (f : Arch → Arch) : (c.updArch r f).ue = c.ue := rfl
@[simp] theorem Core.updArch_ce (c : Core) (r : Nat) (f : Arch → Arch) : (c.updArch r f).ce = c.ce := rfl
@[simp] theorem Core.updArch_accC (c : Core) (r : Nat) (f : Arch → Arch) : (c.updArch r f).accC = c.accC := rfl
@[simp] theorem Core.updArch_accOwn (c : Core) (r : Nat) (f : Arch → Arch) : (c.updArch r f).accOwn = c.accOwn := rfl
@[simp] theorem Core.updArch_accP (c : Core) (r : Nat) (f : Arch → Arch) : (c.updArch r f).accP = c.accP := rfl
@[simp] theorem Core.updArch_accUsed (c : Core) (r : Nat) (f : Arch → Arch) : (c.updArch r f).accUsed = c.accUsed := rfl
@[simp] theorem Core.updArch_touched (c : Core) (r : Nat) (f : Arch → Arch) : (c.updArch r f).touched = c.touched := rfl
@[simp] theorem Core.updArch_sats (c : Core) (r : Nat) (f : Arch → Arch) : (c.updArch r f).sats = c.sats := rfl
@[simp] theorem Core.updArch_mmuls (c : Core) (r : Nat) (f : Arch → Arch) : (c.updArch r f).mmuls = c.mmuls := rfl
@[simp] theorem Core.updArch_mwlds (c : Core) (r : Nat) (f : Arch → Arch) : (c.updArch r f).mwlds = c.mwlds := rfl
@[simp] theorem Core.updArch_slots (c : Core) (r : Nat) (f : Arch → Arch) : (c.updArch r f).slots = c.slots := rfl
@[simp] theorem Core.updArch_undo (c : Core) (r : Nat) (f : Arch → Arch) : (c.updArch r f).undo = c.undo := rfl
@[simp] theorem Core.updArch_port (c : Core) (r : Nat) (f : Arch → Arch) : (c.updArch r f).port = c.port := rfl
@[simp] theorem Core.updArch_hv (c : Core) (r : Nat) (f : Arch → Arch) : (c.updArch r f).hv = c.hv := rfl
@[simp] theorem Core.updArch_tv (c : Core) (r : Nat) (f : Arch → Arch) : (c.updArch r f).tv = c.tv := rfl
@[simp] theorem Core.updArch_asked (c : Core) (r : Nat) (f : Arch → Arch) : (c.updArch r f).asked = c.asked := rfl
@[simp] theorem Core.updArch_heavy (c : Core) (r : Nat) (f : Arch → Arch) : (c.updArch r f).heavy = c.heavy := rfl
@[simp] theorem Core.updArch_tlb (c : Core) (r : Nat) (f : Arch → Arch) : (c.updArch r f).tlb = c.tlb := rfl
@[simp] theorem Core.updArch_l1 (c : Core) (r : Nat) (f : Arch → Arch) : (c.updArch r f).l1 = c.l1 := rfl
@[simp] theorem Core.updArch_walkFaults (c : Core) (r : Nat) (f : Arch → Arch) : (c.updArch r f).walkFaults = c.walkFaults := rfl
@[simp] theorem Core.updArch_frozen (c : Core) (r : Nat) (f : Arch → Arch) : (c.updArch r f).frozen = c.frozen := rfl

/-! ### Core.spWrite -/

@[simp] theorem Core.spWrite_step (c : Core) (bs : List (Nat × Byte × Byte)) : (c.spWrite bs).step = c.step := rfl
@[simp] theorem Core.spWrite_pc (c : Core) (bs : List (Nat × Byte × Byte)) : (c.spWrite bs).pc = c.pc := rfl
@[simp] theorem Core.spWrite_base (c : Core) (bs : List (Nat × Byte × Byte)) : (c.spWrite bs).base = c.base := rfl
@[simp] theorem Core.spWrite_exact_ (c : Core) (bs : List (Nat × Byte × Byte)) : (c.spWrite bs).exact_ = c.exact_ := rfl
@[simp] theorem Core.spWrite_stream (c : Core) (bs : List (Nat × Byte × Byte)) : (c.spWrite bs).stream = c.stream := rfl
@[simp] theorem Core.spWrite_dt (c : Core) (bs : List (Nat × Byte × Byte)) : (c.spWrite bs).dt = c.dt := rfl
@[simp] theorem Core.spWrite_streamRef (c : Core) (bs : List (Nat × Byte × Byte)) : (c.spWrite bs).streamRef = c.streamRef := rfl
@[simp] theorem Core.spWrite_dtRef (c : Core) (bs : List (Nat × Byte × Byte)) : (c.spWrite bs).dtRef = c.dtRef := rfl
@[simp] theorem Core.spWrite_slip (c : Core) (bs : List (Nat × Byte × Byte)) : (c.spWrite bs).slip = c.slip := rfl
@[simp] theorem Core.spWrite_floor (c : Core) (bs : List (Nat × Byte × Byte)) : (c.spWrite bs).floor = c.floor := rfl
@[simp] theorem Core.spWrite_until? (c : Core) (bs : List (Nat × Byte × Byte)) : (c.spWrite bs).until? = c.until? := rfl
@[simp] theorem Core.spWrite_grpAt (c : Core) (bs : List (Nat × Byte × Byte)) : (c.spWrite bs).grpAt = c.grpAt := rfl
@[simp] theorem Core.spWrite_grpEng (c : Core) (bs : List (Nat × Byte × Byte)) : (c.spWrite bs).grpEng = c.grpEng := rfl
@[simp] theorem Core.spWrite_grpEnd (c : Core) (bs : List (Nat × Byte × Byte)) : (c.spWrite bs).grpEnd = c.grpEnd := rfl
@[simp] theorem Core.spWrite_owe (c : Core) (bs : List (Nat × Byte × Byte)) : (c.spWrite bs).owe = c.owe := rfl
@[simp] theorem Core.spWrite_joint (c : Core) (bs : List (Nat × Byte × Byte)) : (c.spWrite bs).joint = c.joint := rfl
@[simp] theorem Core.spWrite_arch (c : Core) (bs : List (Nat × Byte × Byte)) : (c.spWrite bs).arch = c.arch := rfl
@[simp] theorem Core.spWrite_flights (c : Core) (bs : List (Nat × Byte × Byte)) : (c.spWrite bs).flights = c.flights := rfl
@[simp] theorem Core.spWrite_awaits (c : Core) (bs : List (Nat × Byte × Byte)) : (c.spWrite bs).awaits = c.awaits := rfl
@[simp] theorem Core.spWrite_held (c : Core) (bs : List (Nat × Byte × Byte)) : (c.spWrite bs).held = c.held := rfl
@[simp] theorem Core.spWrite_opn (c : Core) (bs : List (Nat × Byte × Byte)) : (c.spWrite bs).opn = c.opn := rfl
@[simp] theorem Core.spWrite_closing (c : Core) (bs : List (Nat × Byte × Byte)) : (c.spWrite bs).closing = c.closing := rfl
@[simp] theorem Core.spWrite_shut (c : Core) (bs : List (Nat × Byte × Byte)) : (c.spWrite bs).shut = c.shut := rfl
@[simp] theorem Core.spWrite_ended (c : Core) (bs : List (Nat × Byte × Byte)) : (c.spWrite bs).ended = c.ended := rfl
@[simp] theorem Core.spWrite_trap (c : Core) (bs : List (Nat × Byte × Byte)) : (c.spWrite bs).trap = c.trap := rfl
@[simp] theorem Core.spWrite_tcause (c : Core) (bs : List (Nat × Byte × Byte)) : (c.spWrite bs).tcause = c.tcause := rfl
@[simp] theorem Core.spWrite_tval (c : Core) (bs : List (Nat × Byte × Byte)) : (c.spWrite bs).tval = c.tval := rfl
@[simp] theorem Core.spWrite_cerr (c : Core) (bs : List (Nat × Byte × Byte)) : (c.spWrite bs).cerr = c.cerr := rfl
@[simp] theorem Core.spWrite_doom (c : Core) (bs : List (Nat × Byte × Byte)) : (c.spWrite bs).doom = c.doom := rfl
@[simp] theorem Core.spWrite_empties (c : Core) (bs : List (Nat × Byte × Byte)) : (c.spWrite bs).empties = c.empties := rfl
@[simp] theorem Core.spWrite_spad (c : Core) (bs : List (Nat × Byte × Byte)) : (c.spWrite bs).spad = Memory.writeMasked c.spad bs := rfl
@[simp] theorem Core.spWrite_accC (c : Core) (bs : List (Nat × Byte × Byte)) : (c.spWrite bs).accC = c.accC := rfl
@[simp] theorem Core.spWrite_accOwn (c : Core) (bs : List (Nat × Byte × Byte)) : (c.spWrite bs).accOwn = c.accOwn := rfl
@[simp] theorem Core.spWrite_accP (c : Core) (bs : List (Nat × Byte × Byte)) : (c.spWrite bs).accP = c.accP := rfl
@[simp] theorem Core.spWrite_accUsed (c : Core) (bs : List (Nat × Byte × Byte)) : (c.spWrite bs).accUsed = c.accUsed := rfl
@[simp] theorem Core.spWrite_touched (c : Core) (bs : List (Nat × Byte × Byte)) : (c.spWrite bs).touched = c.touched := rfl
@[simp] theorem Core.spWrite_sats (c : Core) (bs : List (Nat × Byte × Byte)) : (c.spWrite bs).sats = c.sats := rfl
@[simp] theorem Core.spWrite_mmuls (c : Core) (bs : List (Nat × Byte × Byte)) : (c.spWrite bs).mmuls = c.mmuls := rfl
@[simp] theorem Core.spWrite_mwlds (c : Core) (bs : List (Nat × Byte × Byte)) : (c.spWrite bs).mwlds = c.mwlds := rfl
@[simp] theorem Core.spWrite_slots (c : Core) (bs : List (Nat × Byte × Byte)) : (c.spWrite bs).slots = c.slots := rfl
@[simp] theorem Core.spWrite_undo (c : Core) (bs : List (Nat × Byte × Byte)) : (c.spWrite bs).undo = c.undo := rfl
@[simp] theorem Core.spWrite_port (c : Core) (bs : List (Nat × Byte × Byte)) : (c.spWrite bs).port = c.port := rfl
@[simp] theorem Core.spWrite_hv (c : Core) (bs : List (Nat × Byte × Byte)) : (c.spWrite bs).hv = c.hv := rfl
@[simp] theorem Core.spWrite_tv (c : Core) (bs : List (Nat × Byte × Byte)) : (c.spWrite bs).tv = c.tv := rfl
@[simp] theorem Core.spWrite_asked (c : Core) (bs : List (Nat × Byte × Byte)) : (c.spWrite bs).asked = c.asked := rfl
@[simp] theorem Core.spWrite_heavy (c : Core) (bs : List (Nat × Byte × Byte)) : (c.spWrite bs).heavy = c.heavy := rfl
@[simp] theorem Core.spWrite_tlb (c : Core) (bs : List (Nat × Byte × Byte)) : (c.spWrite bs).tlb = c.tlb := rfl
@[simp] theorem Core.spWrite_l1 (c : Core) (bs : List (Nat × Byte × Byte)) : (c.spWrite bs).l1 = c.l1 := rfl
@[simp] theorem Core.spWrite_walkFaults (c : Core) (bs : List (Nat × Byte × Byte)) : (c.spWrite bs).walkFaults = c.walkFaults := rfl
@[simp] theorem Core.spWrite_frozen (c : Core) (bs : List (Nat × Byte × Byte)) : (c.spWrite bs).frozen = c.frozen := rfl

/-! ### Core.advance -/

/-- What the advance of the stream may change. -/
theorem Core.advance_eq (c : Core) (l : Nat) (r : Bool) (nx : Next) : c.advance l r nx =
    { c with exact_ := false, floor := 0, until? := none, walkFaults := [], pc := (c.advance l r nx).pc,
             base := (c.advance l r nx).base, arch := { c.arch with loop := (c.advance l r nx).arch.loop } } := by
  cases nx <;> simp only [Core.advance] <;> repeat' split
  all_goals rfl

@[simp] theorem Core.advance_step (c : Core) (l : Nat) (r : Bool) (nx : Next) : (c.advance l r nx).step = c.step := by
  rw [Core.advance_eq]
@[simp] theorem Core.advance_exact_ (c : Core) (l : Nat) (r : Bool) (nx : Next) : (c.advance l r nx).exact_ = false := by
  rw [Core.advance_eq]
@[simp] theorem Core.advance_stream (c : Core) (l : Nat) (r : Bool) (nx : Next) : (c.advance l r nx).stream = c.stream := by
  rw [Core.advance_eq]
@[simp] theorem Core.advance_dt (c : Core) (l : Nat) (r : Bool) (nx : Next) : (c.advance l r nx).dt = c.dt := by
  rw [Core.advance_eq]
@[simp] theorem Core.advance_streamRef (c : Core) (l : Nat) (r : Bool) (nx : Next) : (c.advance l r nx).streamRef = c.streamRef := by
  rw [Core.advance_eq]
@[simp] theorem Core.advance_dtRef (c : Core) (l : Nat) (r : Bool) (nx : Next) : (c.advance l r nx).dtRef = c.dtRef := by
  rw [Core.advance_eq]
@[simp] theorem Core.advance_slip (c : Core) (l : Nat) (r : Bool) (nx : Next) : (c.advance l r nx).slip = c.slip := by
  rw [Core.advance_eq]
@[simp] theorem Core.advance_floor (c : Core) (l : Nat) (r : Bool) (nx : Next) : (c.advance l r nx).floor = 0 := by
  rw [Core.advance_eq]
@[simp] theorem Core.advance_until? (c : Core) (l : Nat) (r : Bool) (nx : Next) : (c.advance l r nx).until? = none := by
  rw [Core.advance_eq]
@[simp] theorem Core.advance_grpAt (c : Core) (l : Nat) (r : Bool) (nx : Next) : (c.advance l r nx).grpAt = c.grpAt := by
  rw [Core.advance_eq]
@[simp] theorem Core.advance_grpEng (c : Core) (l : Nat) (r : Bool) (nx : Next) : (c.advance l r nx).grpEng = c.grpEng := by
  rw [Core.advance_eq]
@[simp] theorem Core.advance_grpEnd (c : Core) (l : Nat) (r : Bool) (nx : Next) : (c.advance l r nx).grpEnd = c.grpEnd := by
  rw [Core.advance_eq]
@[simp] theorem Core.advance_owe (c : Core) (l : Nat) (r : Bool) (nx : Next) : (c.advance l r nx).owe = c.owe := by
  rw [Core.advance_eq]
@[simp] theorem Core.advance_joint (c : Core) (l : Nat) (r : Bool) (nx : Next) : (c.advance l r nx).joint = c.joint := by
  rw [Core.advance_eq]
@[simp] theorem Core.advance_flights (c : Core) (l : Nat) (r : Bool) (nx : Next) : (c.advance l r nx).flights = c.flights := by
  rw [Core.advance_eq]
@[simp] theorem Core.advance_awaits (c : Core) (l : Nat) (r : Bool) (nx : Next) : (c.advance l r nx).awaits = c.awaits := by
  rw [Core.advance_eq]
@[simp] theorem Core.advance_held (c : Core) (l : Nat) (r : Bool) (nx : Next) : (c.advance l r nx).held = c.held := by
  rw [Core.advance_eq]
@[simp] theorem Core.advance_opn (c : Core) (l : Nat) (r : Bool) (nx : Next) : (c.advance l r nx).opn = c.opn := by
  rw [Core.advance_eq]
@[simp] theorem Core.advance_closing (c : Core) (l : Nat) (r : Bool) (nx : Next) : (c.advance l r nx).closing = c.closing := by
  rw [Core.advance_eq]
@[simp] theorem Core.advance_shut (c : Core) (l : Nat) (r : Bool) (nx : Next) : (c.advance l r nx).shut = c.shut := by
  rw [Core.advance_eq]
@[simp] theorem Core.advance_ended (c : Core) (l : Nat) (r : Bool) (nx : Next) : (c.advance l r nx).ended = c.ended := by
  rw [Core.advance_eq]
@[simp] theorem Core.advance_trap (c : Core) (l : Nat) (r : Bool) (nx : Next) : (c.advance l r nx).trap = c.trap := by
  rw [Core.advance_eq]
@[simp] theorem Core.advance_tcause (c : Core) (l : Nat) (r : Bool) (nx : Next) : (c.advance l r nx).tcause = c.tcause := by
  rw [Core.advance_eq]
@[simp] theorem Core.advance_tval (c : Core) (l : Nat) (r : Bool) (nx : Next) : (c.advance l r nx).tval = c.tval := by
  rw [Core.advance_eq]
@[simp] theorem Core.advance_cerr (c : Core) (l : Nat) (r : Bool) (nx : Next) : (c.advance l r nx).cerr = c.cerr := by
  rw [Core.advance_eq]
@[simp] theorem Core.advance_doom (c : Core) (l : Nat) (r : Bool) (nx : Next) : (c.advance l r nx).doom = c.doom := by
  rw [Core.advance_eq]
@[simp] theorem Core.advance_empties (c : Core) (l : Nat) (r : Bool) (nx : Next) : (c.advance l r nx).empties = c.empties := by
  rw [Core.advance_eq]
@[simp] theorem Core.advance_spad (c : Core) (l : Nat) (r : Bool) (nx : Next) : (c.advance l r nx).spad = c.spad := by
  rw [Core.advance_eq]
@[simp] theorem Core.advance_ue (c : Core) (l : Nat) (r : Bool) (nx : Next) : (c.advance l r nx).ue = c.ue := by
  rw [Core.advance_eq]
@[simp] theorem Core.advance_ce (c : Core) (l : Nat) (r : Bool) (nx : Next) : (c.advance l r nx).ce = c.ce := by
  rw [Core.advance_eq]
@[simp] theorem Core.advance_accC (c : Core) (l : Nat) (r : Bool) (nx : Next) : (c.advance l r nx).accC = c.accC := by
  rw [Core.advance_eq]
@[simp] theorem Core.advance_accOwn (c : Core) (l : Nat) (r : Bool) (nx : Next) : (c.advance l r nx).accOwn = c.accOwn := by
  rw [Core.advance_eq]
@[simp] theorem Core.advance_accP (c : Core) (l : Nat) (r : Bool) (nx : Next) : (c.advance l r nx).accP = c.accP := by
  rw [Core.advance_eq]
@[simp] theorem Core.advance_accUsed (c : Core) (l : Nat) (r : Bool) (nx : Next) : (c.advance l r nx).accUsed = c.accUsed := by
  rw [Core.advance_eq]
@[simp] theorem Core.advance_touched (c : Core) (l : Nat) (r : Bool) (nx : Next) : (c.advance l r nx).touched = c.touched := by
  rw [Core.advance_eq]
@[simp] theorem Core.advance_sats (c : Core) (l : Nat) (r : Bool) (nx : Next) : (c.advance l r nx).sats = c.sats := by
  rw [Core.advance_eq]
@[simp] theorem Core.advance_mmuls (c : Core) (l : Nat) (r : Bool) (nx : Next) : (c.advance l r nx).mmuls = c.mmuls := by
  rw [Core.advance_eq]
@[simp] theorem Core.advance_mwlds (c : Core) (l : Nat) (r : Bool) (nx : Next) : (c.advance l r nx).mwlds = c.mwlds := by
  rw [Core.advance_eq]
@[simp] theorem Core.advance_slots (c : Core) (l : Nat) (r : Bool) (nx : Next) : (c.advance l r nx).slots = c.slots := by
  rw [Core.advance_eq]
@[simp] theorem Core.advance_undo (c : Core) (l : Nat) (r : Bool) (nx : Next) : (c.advance l r nx).undo = c.undo := by
  rw [Core.advance_eq]
@[simp] theorem Core.advance_port (c : Core) (l : Nat) (r : Bool) (nx : Next) : (c.advance l r nx).port = c.port := by
  rw [Core.advance_eq]
@[simp] theorem Core.advance_hv (c : Core) (l : Nat) (r : Bool) (nx : Next) : (c.advance l r nx).hv = c.hv := by
  rw [Core.advance_eq]
@[simp] theorem Core.advance_tv (c : Core) (l : Nat) (r : Bool) (nx : Next) : (c.advance l r nx).tv = c.tv := by
  rw [Core.advance_eq]
@[simp] theorem Core.advance_asked (c : Core) (l : Nat) (r : Bool) (nx : Next) : (c.advance l r nx).asked = c.asked := by
  rw [Core.advance_eq]
@[simp] theorem Core.advance_heavy (c : Core) (l : Nat) (r : Bool) (nx : Next) : (c.advance l r nx).heavy = c.heavy := by
  rw [Core.advance_eq]
@[simp] theorem Core.advance_tlb (c : Core) (l : Nat) (r : Bool) (nx : Next) : (c.advance l r nx).tlb = c.tlb := by
  rw [Core.advance_eq]
@[simp] theorem Core.advance_l1 (c : Core) (l : Nat) (r : Bool) (nx : Next) : (c.advance l r nx).l1 = c.l1 := by
  rw [Core.advance_eq]
@[simp] theorem Core.advance_walkFaults (c : Core) (l : Nat) (r : Bool) (nx : Next) : (c.advance l r nx).walkFaults = [] := by
  rw [Core.advance_eq]
@[simp] theorem Core.advance_frozen (c : Core) (l : Nat) (r : Bool) (nx : Next) : (c.advance l r nx).frozen = c.frozen := by
  rw [Core.advance_eq]

end Sys2Proof.Machine
end

