-- ==== Sys2Proof/Laws/Maps.lean ====
section
/-! SUPPORT. Maps as sorted lists, the cores of the package, and operations over several cores. -/
namespace Sys2Proof.Machine

/-- An entry that has been set is found. -/
@[simp] theorem mget_mput_same {α : Type} (m : List (Nat × α)) (a : Nat) (b : α) : mget (mput m a b) a = some b := by
  induction m with
  | nil => simp [mput, mget]
  | cons c r ih =>
    simp only [mput]
    split
    · simp [mget]
    · split
      · simp [mget]
      · rename_i h; simp [mget, Ne.symm h, ih]

/-- Setting an entry leaves every other entry alone. -/
theorem mget_mput_ne {α : Type} (m : List (Nat × α)) (a : Nat) (b : α) {k : Nat} (h : k ≠ a) :
    mget (mput m a b) k = mget m k := by
  induction m with
  | nil => simp [mput, mget, Ne.symm h]
  | cons c r ih =>
    simp only [mput]
    split
    · simp [mget, Ne.symm h]
    · split
      · rename_i e; subst e; simp [mget, Ne.symm h]
      · simp [mget, ih]

/-- The keys of a map are rising. -/
def keysRise {α : Type} (m : List (Nat × α)) : Prop := m.Pairwise (fun a b => a.1 < b.1)

/-- Every key of `mput m a b` is `a` or one of `m`. -/
theorem mem_mput {α : Type} {m : List (Nat × α)} {a : Nat} {b : α} {x : Nat × α} (h : x ∈ mput m a b) : x = (a, b) ∨ x ∈ m := by
  induction m with
  | nil => simpa [mput] using h
  | cons c r ih =>
    simp only [mput] at h
    split at h
    · simpa using h
    · split at h
      · rcases List.mem_cons.1 h with h | h
        · exact .inl h
        · exact .inr (.tail _ h)
      · rcases List.mem_cons.1 h with h | h
        · exact .inr (h ▸ .head _)
        · exact (ih h).imp id (.tail _)

/-- `mput` keeps the keys rising. -/
theorem keysRise_mput {α : Type} {m : List (Nat × α)} (h : keysRise m) (a : Nat) (b : α) : keysRise (mput m a b) := by
  induction m with
  | nil => simp [mput, keysRise]
  | cons c r ih =>
    have hc := List.pairwise_cons.1 h
    simp only [mput]
    split
    · rename_i hlt
      refine List.pairwise_cons.2 ⟨fun x hx => ?_, h⟩
      rcases List.mem_cons.1 hx with rfl | hx
      · exact hlt
      · exact Nat.lt_trans hlt (hc.1 x hx)
    · split
      · rename_i e; subst e
        exact List.pairwise_cons.2 ⟨hc.1, hc.2⟩
      · rename_i h1 h2
        refine List.pairwise_cons.2 ⟨fun x hx => ?_, ih hc.2⟩
        rcases mem_mput hx with rfl | hx
        · omega
        · exact hc.1 x hx

@[simp] theorem State.core_setCore_same (s : State) (n : Nat) (c : Core) : (s.setCore n c).core n = c := by
  simp [State.core]

theorem State.core_setCore_ne (s : State) (n : Nat) (c : Core) {m : Nat} (h : m ≠ n) : (s.setCore n c).core m = s.core m := by
  simp [State.core, mget_mput_ne _ _ _ h]

@[simp] theorem State.core_updCore_same (s : State) (n : Nat) (f : Core → Core) : (s.updCore n f).core n = f (s.core n) := by
  simp [State.updCore]

theorem State.core_updCore_ne (s : State) (n : Nat) (f : Core → Core) {m : Nat} (h : m ≠ n) :
    (s.updCore n f).core m = s.core m := State.core_setCore_ne _ _ _ h

@[simp] theorem State.core_sync (s : State) (n m : Nat) : (s.sync n).core m = s.core m := rfl

@[simp] theorem State.core_fresh (s : State) (m : Nat) : s.fresh.2.core m = s.core m := rfl

/-- The core that `updCore` changes, read anywhere. -/
theorem State.core_updCore (s : State) (n m : Nat) (f : Core → Core) :
    (s.updCore n f).core m = if m = n then f (s.core n) else s.core m := by
  split
  · rename_i h; subst h; simp
  · rename_i h; exact State.core_updCore_ne s n f h

/-- Only the cores of a state have changed. -/
def State.coresOnly (s t : State) : Prop := t = { s with cores := t.cores }

theorem State.coresOnly_refl (s : State) : s.coresOnly s := rfl

theorem State.coresOnly_setCore (s : State) (n : Nat) (c : Core) : s.coresOnly (s.setCore n c) := rfl

theorem State.coresOnly_updCore (s : State) (n : Nat) (f : Core → Core) : s.coresOnly (s.updCore n f) := rfl

theorem State.coresOnly_trans {s t u : State} (h : s.coresOnly t) (k : t.coresOnly u) : s.coresOnly u := by
  unfold State.coresOnly at *; rw [k, h]

theorem State.coresOnly_foldl {α : Type} (l : List α) (f : State → α → State) (hf : ∀ (s : State) x, s.coresOnly (f s x)) (s : State) :
    s.coresOnly (l.foldl f s) := by
  induction l generalizing s with
  | nil => exact rfl
  | cons x r ih => exact State.coresOnly_trans (hf s x) (ih _)

/-- A freeze changes cores only. -/
theorem State.coresOnly_freezeAll (s : State) (n k : Nat) : s.coresOnly (s.freezeAll n k) := by
  unfold State.freezeAll
  split
  · exact rfl
  · exact State.coresOnly_foldl _ _ (fun s m => State.coresOnly_updCore s m _) s

/-- A core outside a list is untouched by changes to the cores of the list. -/
theorem State.core_foldl_updCore (l : List Nat) (f : Core → Core) (s : State) {m : Nat} (h : m ∉ l) :
    (l.foldl (fun s k => s.updCore k f) s).core m = s.core m := by
  induction l generalizing s with
  | nil => rfl
  | cons x r ih =>
    simp only [List.mem_cons, not_or] at h
    rw [List.foldl_cons, ih _ h.2, State.core_updCore_ne _ _ _ h.1]

end Sys2Proof.Machine
end

