-- ==== Sys2Proof/Laws/Issue.lean ====
section
/-! SUPPORT. What the issue of a word does, said once for every word (R103): the cases of `issueWord`, and the frame of a word whose
effects are only under way. -/
namespace Sys2Proof.Machine

@[simp] theorem State.atIssue_core (s : State) (i : Nat) : (s.atIssue i).core s.cur = s.issueCore i := by
  simp [State.atIssue]

theorem State.atIssue_core_ne (s : State) (i : Nat) {m : Nat} (h : m ≠ s.cur) : (s.atIssue i).core m = s.core m := by
  simp [State.atIssue, State.core_setCore_ne _ _ _ h]

@[simp] theorem State.atIssue_cur (s : State) (i : Nat) : (s.atIssue i).cur = s.cur := rfl

/-- Only the cores and the clock of the package have changed at the issue cycle. -/
theorem State.atIssue_eq (s : State) (i : Nat) :
    s.atIssue i = { s with cores := (s.atIssue i).cores, now := (s.atIssue i).now } := rfl

@[simp] theorem Core.awaitOf_goTo (c : Core) (t : Nat) (rs : List Ref) : (c.goTo t).awaitOf rs = c.awaitOf rs := by
  unfold Core.awaitOf
  congr 1
  funext r
  cases r <;> simp [Core.pendOf]

@[simp] theorem Core.conflicts_goTo (c : Core) (t k e : Nat) : (c.goTo t).conflicts k e = c.conflicts k e := by
  simp [Core.conflicts]

@[simp] theorem Core.hand_goTo (c : Core) (t : Nat) : (c.goTo t).hand = c.hand := by simp [Core.hand]

/-- A step runs on the core and has not ended. -/
theorem canIssue_runs {s : State} {h : Head} {regs : Ctx → List Ref} (hc : s.canIssue h regs) :
    ((s.core s.cur).step.isNone || (s.core s.cur).ended) = false := by
  have h1 := hc.1
  have h2 := hc.2.1
  cases hs : (s.core s.cur).step <;> simp_all

section cases

variable {h : Head} {pre : Ctx → State → Option (Nat × Word)} {regs : Ctx → List Ref} {body : Ctx → State → WRes} {s : State}

/-- A word that can issue does what its meaning decides. -/
theorem issueWord_body (hc : s.canIssue h regs) (hp : pre (s.issueCtx h.idle) (s.atIssue h.idle) = none) :
    issueWord h pre regs body s =
      match body (s.issueCtx h.idle) (s.atIssue h.idle) with
      | .ok s' nx => .next (s'.updCore s.cur (fun c =>
          (c.joinGroup (s.cycle h.idle) h.eng (endsGroup (h.i.opcode.getD 0))).advance h.len
            ((h.i.opcode.getD 0) == 0x087 || (h.i.opcode.getD 0) == 0x086) nx))
      | .trap cause tval => .next ((s.atIssue h.idle).trap s.cur h.eng cause tval)
      | .freeze s' => .next ((s'.freezeAll s.cur 1).updCore s.cur (fun c => if c.hand then { c with floor := c.dt } else c))
      | .hold w => if (s.core s.cur).hand then .next ((s.atIssue h.idle).trap s.cur h.eng 0x02 ((s.issueCore h.idle).fieldTval 0))
          else .next ((s.atIssue h.idle).updCore s.cur (fun c => { c with floor := max (s.cycle h.idle + 1) w }))
      | .fin s' => .next s' := by
  obtain ⟨h1, h2, h3, h4, h5, h6, h7, h8, h9⟩ := hc
  have hr : ((s.core s.cur).step.isNone || (s.core s.cur).ended) = false := by
    cases hs : (s.core s.cur).step <;> simp_all
  have e : (s.setCore s.cur ((s.core s.cur).goTo ((s.core s.cur).issueAt h.idle))).sync s.cur = s.atIssue h.idle := rfl
  simp only [issueWord]
  rw [if_neg (by simp [hr]), e]
  have o : (s.issueCore h.idle).owe = none := by simp [State.issueCore, h3]
  have l : (s.issueCore h.idle).arch.loop.activeFor h.stage = true := by simp [State.issueCore, h4]
  have k : (s.issueCore h.idle).hand = (s.core s.cur).hand := by simp [State.issueCore]
  have f : (s.issueCore h.idle).conflicts ((s.core s.cur).ownAt h.idle) h.eng = false := by
    simpa [State.issueCore, State.cycle] using h7
  have g : h.gate pre regs s.cur ((s.core s.cur).ownAt h.idle) (s.atIssue h.idle) = none := by
    have p : pre ((s.issueCore h.idle).ctx s.cur) (s.atIssue h.idle) = none := hp
    have r : (s.issueCore h.idle).awaitOf (regs ((s.issueCore h.idle).ctx s.cur)) = none := h8
    simp only [Head.gate, State.atIssue_core, h5, k, h6, f, p, r, Bool.false_eq_true, if_false]
  have q : (s.atIssue h.idle).parity s.cur h (regs ((s.issueCore h.idle).ctx s.cur)) = s.atIssue h.idle :=
    State.parity_none _ _ _ _ (by simpa [State.issueCore, State.issueCtx] using h9)
  simp only [State.atIssue_core, o, l, g, q, Bool.not_true, Bool.false_eq_true, if_false]
  rw [show (s.issueCore h.idle).ctx s.cur = s.issueCtx h.idle from rfl]
  cases body (s.issueCtx h.idle) (s.atIssue h.idle) <;> simp [Head.finish, State.cycle, k]

/-- A word that issues: the stream goes on as its meaning says. -/
theorem issueWord_ok (hc : s.canIssue h regs) (hp : pre (s.issueCtx h.idle) (s.atIssue h.idle) = none) {s' : State} {nx : Next}
    (hb : body (s.issueCtx h.idle) (s.atIssue h.idle) = .ok s' nx) :
    issueWord h pre regs body s = .next (s'.updCore s.cur (fun c =>
      (c.joinGroup (s.cycle h.idle) h.eng (endsGroup (h.i.opcode.getD 0))).advance h.len
        ((h.i.opcode.getD 0) == 0x087 || (h.i.opcode.getD 0) == 0x086) nx)) := by
  rw [issueWord_body hc hp, hb]

/-- A word whose own meaning traps takes that trap. -/
theorem issueWord_trap (hc : s.canIssue h regs) (hp : pre (s.issueCtx h.idle) (s.atIssue h.idle) = none) {cause : Nat} {tval : Word}
    (hb : body (s.issueCtx h.idle) (s.atIssue h.idle) = .trap cause tval) :
    issueWord h pre regs body s = .next ((s.atIssue h.idle).trap s.cur h.eng cause tval) := by
  rw [issueWord_body hc hp, hb]

/-- A word that moves the stream itself. -/
theorem issueWord_fin (hc : s.canIssue h regs) (hp : pre (s.issueCtx h.idle) (s.atIssue h.idle) = none) {s' : State}
    (hb : body (s.issueCtx h.idle) (s.atIssue h.idle) = .fin s') : issueWord h pre regs body s = .next s' := by
  rw [issueWord_body hc hp, hb]

/-- A word for which its meaning freezes the core. -/
theorem issueWord_freeze (hc : s.canIssue h regs) (hp : pre (s.issueCtx h.idle) (s.atIssue h.idle) = none) {s' : State}
    (hb : body (s.issueCtx h.idle) (s.atIssue h.idle) = .freeze s') : issueWord h pre regs body s =
      .next ((s'.freezeAll s.cur 1).updCore s.cur (fun c => if c.hand then { c with floor := c.dt } else c)) := by
  rw [issueWord_body hc hp, hb]

/-- Whatever a word decides, a next state follows. -/
theorem Head.finish_next (h : Head) (n t : Nat) (s : State) (r : WRes) : ∃ u, h.finish n t s r = .next u := by
  cases r <;> simp only [Head.finish]
  case hold => split <;> exact ⟨_, rfl⟩
  all_goals exact ⟨_, rfl⟩

/-- Where a step runs, the issue of a word answers a next state: it never faults and never refuses. -/
theorem issueWord_next (hr : (s.core s.cur).step.isSome = true) (he : (s.core s.cur).ended = false) :
    ∃ t, issueWord h pre regs body s = .next t := by
  have h1 : ((s.core s.cur).step.isNone || (s.core s.cur).ended) = false := by
    cases hs : (s.core s.cur).step <;> simp_all
  simp only [issueWord]
  rw [if_neg (by simp [h1])]
  repeat' split
  all_goals first | exact ⟨_, rfl⟩ | exact Head.finish_next ..

end cases

/-! ### The frame -/

/-- Puts the effects of a word in flight and moves the stream on: what changes and what stays. -/
theorem issued_of {s t : State} {h : Head} {g : Core → Core} {e r : Bool} {nx : Next}
    (hg : ∀ c, ∃ rs ws tl fl, g c = { c with flights := fl, opn := { c.opn with rset := rs, wset := ws, tL := tl } })
    (hp : t = { s with cores := t.cores, now := t.now, nextId := t.nextId })
    (ho : ∀ m, m ≠ s.cur → t.core m = s.core m)
    (ht : t.core s.cur = ((g (s.issueCore h.idle)).joinGroup (s.cycle h.idle) h.eng e).advance h.len r nx) : s.Issued t h := by
  obtain ⟨rs, ws, tl, fl, hg⟩ := hg (s.issueCore h.idle)
  refine ⟨hp, ho, ?_, ?_, ?_, ?_⟩
  · rw [Core.issuedFrame, ht, Core.advance_eq, hg]
    simp [State.issueCore, Core.joinGroup]
  · rw [ht, hg]; simp
  · rw [ht, hg]; simp
  · rw [ht]; simp

/-- Outside a loop body the stream goes on with the word that follows. -/
theorem Core.advance_seq (c : Core) (len : Nat) (r : Bool) (x : Nat) (h : c.arch.loop.active = false) :
    (c.advance len r (.seq x)).pc = c.pc + len ∧ (c.advance len r (.seq x)).base = c.clock + x := by
  cases r <;> simp only [Core.advance, h, if_false, if_true, Bool.false_eq_true] <;> exact ⟨trivial, rfl⟩

/-- What an operation put in flight changes of its core. -/
theorem Core.launchOp_eq (c : Core) (f : Flight) :
    c.launchOp f = { c with flights := c.flights ++ [f], opn := { c.opn with tL := (c.launchOp f).opn.tL } } := by
  unfold Core.launchOp
  cases c.hand <;> rfl

/-- The flight that `addOp` adds. -/
def Core.opFlight (c : Core) (id : Nat) (cx : Ctx) (kind : Nat) (mask : KReg) (a b o : Lanes × LMask) (len : Nat) (evs : List (Nat × Eff)) :
    Flight :=
  { id := id, rgn := c.opn.id, issue := cx.t, addr := cx.addr, lcnt := cx.lcnt,
    units := byteUnits (Memory.read c.spad cx.addr len), kind := kind, hand := c.hand, mask := mask,
    opa := a, opb := b, opc := o, evs := evs.map (fun e => (cx.t + e.1, e.2)) }

theorem State.addOp_nil (s : State) (n : Nat) (cx : Ctx) (kind : Nat) (mask : KReg) (a b o : Lanes × LMask) (len : Nat) :
    s.addOp n cx kind mask a b o len [] = s := rfl

theorem State.addOp_cons (s : State) (n : Nat) (cx : Ctx) (kind : Nat) (mask : KReg) (a b o : Lanes × LMask) (len : Nat)
    {evs : List (Nat × Eff)} (h : evs ≠ []) :
    s.addOp n cx kind mask a b o len evs =
      s.fresh.2.updCore n (fun k => k.launchOp (k.opFlight s.nextId cx kind mask a b o len evs)) := by
  cases evs with
  | nil => exact absurd rfl h
  | cons e r => rfl

/-- The package after `addOp`: only its cores and the next identifier differ. -/
theorem State.addOp_eq (s : State) (n : Nat) (cx : Ctx) (kind : Nat) (mask : KReg) (a b o : Lanes × LMask) (len : Nat)
    (evs : List (Nat × Eff)) : s.addOp n cx kind mask a b o len evs =
      { s with cores := (s.addOp n cx kind mask a b o len evs).cores, nextId := (s.addOp n cx kind mask a b o len evs).nextId } := by
  cases evs <;> rfl

/-- The core after `addOp`. -/
theorem State.addOp_core (s : State) (n m : Nat) (cx : Ctx) (kind : Nat) (mask : KReg) (a b o : Lanes × LMask) (len : Nat)
    (evs : List (Nat × Eff)) : (s.addOp n cx kind mask a b o len evs).core m =
      if m = n ∧ evs ≠ [] then (s.core n).launchOp ((s.core n).opFlight s.nextId cx kind mask a b o len evs) else s.core m := by
  by_cases h : evs = []
  · subst h; simp [State.addOp_nil]
  · rw [State.addOp_cons _ _ _ _ _ _ _ _ _ h, State.core_updCore]
    by_cases hm : m = n <;> simp [hm, h]

@[simp] theorem State.addOp_cur (s : State) (n : Nat) (cx : Ctx) (kind : Nat) (mask : KReg) (a b o : Lanes × LMask) (len : Nat)
    (evs : List (Nat × Eff)) : (s.addOp n cx kind mask a b o len evs).cur = s.cur := by
  cases evs <;> rfl

/-- A word that puts its effects in flight, after an immediate change `g` of the sets R and W of its core: its frame, its effects, and where
the stream goes on. -/
theorem issued_addOp (s : State) (h : Head) (g : Core → Core)
    (hg : ∀ c, ∃ rs ws, g c = { c with opn := { c.opn with rset := rs, wset := ws } })
    (kind : Nat) (mask : KReg) (a b o : Lanes × LMask) (len : Nat) (evs : List (Nat × Eff)) (e r : Bool) (nx : Next) {t : State}
    (ht : t = ((((s.atIssue h.idle).updCore s.cur g).addOp s.cur (s.issueCtx h.idle) kind mask a b o len evs).updCore s.cur
      (fun c => (c.joinGroup (s.cycle h.idle) h.eng e).advance h.len r nx))) :
    s.Issued t h ∧ (evs ≠ [] → s.puts t h evs) ∧ (∀ x, nx = .seq x → s.goesOn t h x) ∧
      (∀ pc base, nx = .to pc base → (t.core s.cur).pc = pc ∧ (t.core s.cur).base = base) := by
  let w := (s.atIssue h.idle).updCore s.cur g
  have hw : w.core s.cur = g (s.issueCore h.idle) := by simp [w]
  have hc : t.core s.cur = ((if evs ≠ [] then (g (s.issueCore h.idle)).launchOp
      ((g (s.issueCore h.idle)).opFlight w.nextId (s.issueCtx h.idle) kind mask a b o len evs) else g (s.issueCore h.idle)).joinGroup
      (s.cycle h.idle) h.eng e).advance h.len r nx := by
    rw [ht, State.core_updCore_same, State.addOp_core]
    simp only [true_and, State.core_updCore_same, State.atIssue_core, w]
  obtain ⟨rs, ws, hg'⟩ := hg (s.issueCore h.idle)
  have hfl : (g (s.issueCore h.idle)).flights = (s.core s.cur).flights := by rw [hg']; simp [State.issueCore]
  have hid : (g (s.issueCore h.idle)).opn.id = (s.core s.cur).opn.id := by rw [hg']; simp [State.issueCore]
  have har : (g (s.issueCore h.idle)).arch = (s.core s.cur).arch := by rw [hg']; simp [State.issueCore]
  have hpc : (g (s.issueCore h.idle)).pc = (s.core s.cur).pc := by rw [hg']; simp [State.issueCore]
  have hck : (g (s.issueCore h.idle)).clock = (s.issueCore h.idle).clock := by rw [hg']; rfl
  refine ⟨issued_of (g := fun c => if evs ≠ [] then (g c).launchOp
      ((g c).opFlight w.nextId (s.issueCtx h.idle) kind mask a b o len evs) else g c) ?_ ?_ ?_ hc, ?_, ?_, ?_⟩
  · intro c
    obtain ⟨rs, ws, hg'⟩ := hg c
    simp only [hg']
    split
    · rw [Core.launchOp_eq]
      exact ⟨rs, ws, _, _, rfl⟩
    · exact ⟨rs, ws, c.opn.tL, c.flights, rfl⟩
  · rw [ht]
    cases evs <;> rfl
  · intro m hm
    rw [ht, State.core_updCore_ne _ _ _ hm, State.addOp_core, if_neg (fun x => hm x.1), State.core_updCore_ne _ _ _ hm,
      State.atIssue_core_ne _ _ hm]
  · intro he
    refine ⟨(g (s.issueCore h.idle)).opFlight w.nextId (s.issueCtx h.idle) kind mask a b o len evs, ?_, rfl, ?_, ?_, rfl⟩
    · rw [hc, if_pos he]; simp [hfl]
    · simp [Core.opFlight, State.issueCtx, Core.ctx, State.issueCore]
    · simp [Core.opFlight, hid]
  · intro x hx ha
    subst hx
    rw [hc]
    have hw : ∀ c : Core, c.arch = (s.core s.cur).arch → c.pc = (s.core s.cur).pc → c.clock = (s.issueCore h.idle).clock →
        ((c.joinGroup (s.cycle h.idle) h.eng e).advance h.len r (.seq x)).pc = (s.core s.cur).pc + h.len ∧
        ((c.joinGroup (s.cycle h.idle) h.eng e).advance h.len r (.seq x)).base = (s.issueCore h.idle).clock + x := by
      intro c h1 h2 h3
      have h4 := Core.advance_seq (c.joinGroup (s.cycle h.idle) h.eng e) h.len r x (by simp [h1, ha])
      rw [h4.1, h4.2, Core.joinGroup_pc, h2, ← h3]
      exact ⟨rfl, rfl⟩
    by_cases he : evs = []
    · rw [if_neg (by simp [he])]; exact hw _ har hpc hck
    · rw [if_pos he, Core.launchOp_eq]; exact hw _ har hpc hck
  · intro pc base hx
    subst hx
    rw [hc]
    simp [Core.advance]

end Sys2Proof.Machine
end

