-- ==== Sys2Proof/Laws/Memory.lean ====
section
/-! SUPPORT. The byte memory: reads after writes, and that every operation on it keeps the canonical form. -/
namespace Sys2Proof.Machine

/-! ### The canonical form -/

theorem Memory.wf_nil : Memory.wf [] := by simp [Memory.wf]

theorem Memory.wf_tail {c : Host.Cell} {r : List Host.Cell} (h : Memory.wf (c :: r)) : Memory.wf r :=
  ⟨(List.pairwise_cons.1 h.1).2, fun x hx => h.2 x (.tail _ hx)⟩

theorem Memory.wf_cons {c : Host.Cell} {r : List Host.Cell} (h : Memory.wf r) (hl : ∀ x ∈ r, c.1 < x.1) (hc : c.2 ≠ unlisted) :
    Memory.wf (c :: r) :=
  ⟨List.pairwise_cons.2 ⟨hl, h.1⟩, fun x hx => (List.mem_cons.1 hx).elim (fun e => e ▸ hc) (h.2 x)⟩

/-- The cells after a cell is put among others are it and they. -/
theorem Memory.mem_put {m : List Host.Cell} {a : Nat} {b : Byte} {x : Host.Cell} (h : x ∈ Memory.put m a b) :
    x = (a, b) ∨ x ∈ m := by
  induction m with
  | nil => left; simpa [Memory.put] using h
  | cons c r ih =>
    simp only [Memory.put] at h
    split at h
    · exact List.mem_cons.1 h
    · rcases List.mem_cons.1 h with h | h
      · exact .inr (h ▸ .head _)
      · exact (ih h).imp id (.tail _)

/-- The cells after a write of one byte are the byte or cells from before. -/
theorem Memory.mem_set {m : List Host.Cell} {a : Nat} {b : Byte} {x : Host.Cell} (h : x ∈ Memory.set m a b) :
    x = (a, b) ∨ x ∈ m := by
  unfold Memory.set at h
  split at h
  · exact .inr (List.mem_filter.1 h).1
  · exact (Memory.mem_put h).imp id (fun h => (List.mem_filter.1 h).1)

/-- A listed byte put among cells of other addresses keeps the canonical form. -/
theorem Memory.wf_put {m : List Host.Cell} {a : Nat} {b : Byte} (h : Memory.wf m) (ha : ∀ c ∈ m, c.1 ≠ a) (hb : b ≠ unlisted) :
    Memory.wf (Memory.put m a b) := by
  induction m with
  | nil => exact Memory.wf_cons Memory.wf_nil (by simp) hb
  | cons c r ih =>
    have hr := Memory.wf_tail h
    have hc := (List.pairwise_cons.1 h.1).1
    have hn := ha c (.head _)
    simp only [Memory.put]
    split
    · rename_i hlt
      refine Memory.wf_cons h (fun x hx => ?_) hb
      rcases List.mem_cons.1 hx with rfl | hx
      · exact hlt
      · exact Nat.lt_trans hlt (hc x hx)
    · refine Memory.wf_cons (ih hr (fun x hx => ha x (.tail _ hx))) (fun x hx => ?_) (h.2 c (.head _))
      rcases Memory.mem_put hx with rfl | hx
      · simp only; omega
      · exact hc x hx

/-- Dropping cells keeps the canonical form. -/
theorem Memory.wf_filter {m : List Host.Cell} (h : Memory.wf m) (p : Host.Cell → Bool) : Memory.wf (m.filter p) :=
  ⟨h.1.filter p, fun c hc => h.2 c ((List.mem_filter.1 hc).1)⟩

/-- A write of one byte keeps the canonical form. -/
theorem Memory.wf_set {m : List Host.Cell} (h : Memory.wf m) (a : Nat) (b : Byte) : Memory.wf (Memory.set m a b) := by
  unfold Memory.set
  split
  · exact Memory.wf_filter h _
  · rename_i hb
    exact Memory.wf_put (Memory.wf_filter h _) (fun c hc => by simpa using (List.mem_filter.1 hc).2) hb

/-- A write of bytes keeps the canonical form. -/
theorem Memory.wf_write (bs : List Byte) : ∀ {m : List Host.Cell} (_ : Memory.wf m) (a : Nat), Memory.wf (Memory.write m a bs) := by
  induction bs with
  | nil => exact fun h _ => h
  | cons b r ih => exact fun h a => ih (Memory.wf_set h a b) (a + 1)

/-- A write of bytes under masks keeps the canonical form. -/
theorem Memory.wf_writeMasked (l : List (Nat × Byte × Byte)) :
    ∀ {m : List Host.Cell} (_ : Memory.wf m), Memory.wf (Memory.writeMasked m l) := by
  induction l with
  | nil => exact fun h => h
  | cons x r ih => exact fun h => ih (Memory.wf_set h _ _)

/-- Clearing a range keeps the canonical form. -/
theorem Memory.wf_clear {m : List Host.Cell} (h : Memory.wf m) (a n : Nat) : Memory.wf (Memory.clear m a n) := Memory.wf_filter h _

/-- Replacing a range by canonical cells that lie in it keeps the canonical form. -/
theorem Memory.wf_blit {m cs : List Host.Cell} (h : Memory.wf m) (hc : Memory.wf cs) {a n : Nat}
    (hr : ∀ c ∈ cs, a ≤ c.1 ∧ c.1 < a + n) : Memory.wf (Memory.blit m a n cs) := by
  unfold Memory.blit
  refine ⟨?_, ?_⟩
  · refine List.pairwise_append.2 ⟨List.pairwise_append.2 ⟨h.1.filter _, hc.1, ?_⟩, h.1.filter _, ?_⟩
    · intro x hx y hy
      have := List.mem_filter.1 hx
      have := hr y hy
      simp_all; omega
    · intro x hx y hy
      have hy := (List.mem_filter.1 hy).2
      rcases List.mem_append.1 hx with hx | hx
      · have := (List.mem_filter.1 hx).2
        simp_all; omega
      · have := hr x hx
        simp_all; omega
  · intro c hx
    rcases List.mem_append.1 hx with hx | hx
    · rcases List.mem_append.1 hx with hx | hx
      · exact h.2 c ((List.mem_filter.1 hx).1)
      · exact hc.2 c hx
    · exact h.2 c ((List.mem_filter.1 hx).1)

/-! ### Reads after writes -/

/-- Dropping the cells of one address changes the byte there only. -/
theorem Memory.get_drop (m : List Host.Cell) (a x : Nat) :
    Memory.get (m.filter (fun c => c.1 != a)) x = if x = a then unlisted else Memory.get m x := by
  induction m with
  | nil => simp [Memory.get]
  | cons c r ih =>
    by_cases hc : c.1 = a
    · rw [List.filter_cons_of_neg (by simp [hc]), ih]
      by_cases hx : x = a
      · simp [hx]
      · simp [hx, Memory.get, hc, Ne.symm hx]
    · rw [List.filter_cons_of_pos (by simp [hc]), Memory.get, ih, Memory.get]
      by_cases hx : x = a
      · subst hx; simp [hc]
      · simp [hx]

/-- The byte of a cell put among cells of other addresses. -/
theorem Memory.get_put {m : List Host.Cell} {a : Nat} (ha : ∀ c ∈ m, c.1 ≠ a) (b : Byte) (x : Nat) :
    Memory.get (Memory.put m a b) x = if x = a then b else Memory.get m x := by
  induction m with
  | nil => simp only [Memory.put, Memory.get, eq_comm]
  | cons c r ih =>
    have hn := ha c (.head _)
    simp only [Memory.put]
    split
    · show (if a = x then b else Memory.get (c :: r) x) = _
      simp only [eq_comm]
    · rw [Memory.get, ih (fun y hy => ha y (.tail _ hy)), Memory.get]
      by_cases hx : x = a
      · subst hx; simp [hn]
      · simp [hx]

/-- The byte just written reads back, and no other byte changes. -/
theorem Memory.get_set (m : List Host.Cell) (a : Nat) (b : Byte) (x : Nat) :
    Memory.get (Memory.set m a b) x = if x = a then b else Memory.get m x := by
  unfold Memory.set
  split
  · rename_i hb; rw [Memory.get_drop, hb]
  · rw [Memory.get_put (fun c hc => by simpa using (List.mem_filter.1 hc).2), Memory.get_drop]
    split <;> rfl

/-- Bytes that were written read back; every byte outside them is as before. -/
theorem Memory.get_write (bs : List Byte) : ∀ (m : List Host.Cell) (a x : Nat),
    Memory.get (Memory.write m a bs) x = if a ≤ x ∧ x < a + bs.length then bs.getD (x - a) 0 else Memory.get m x := by
  induction bs with
  | nil => intro m a x; rw [if_neg (by simp only [List.length_nil]; omega)]; rfl
  | cons b r ih =>
    intro m a x
    rw [Memory.write, ih, Memory.get_set]
    simp only [List.length_cons]
    by_cases hx : x = a
    · subst hx; rw [if_neg (by omega), if_pos rfl, if_pos (by omega), Nat.sub_self]; rfl
    · by_cases h1 : a + 1 ≤ x ∧ x < a + 1 + r.length
      · have : x - a = (x - (a + 1)) + 1 := by omega
        rw [if_pos h1, if_pos (by omega), this]; rfl
      · rw [if_neg h1, if_neg hx, if_neg (by omega)]

/-- A byte that no masked write names is as before. -/
theorem Memory.get_writeMasked_ne (l : List (Nat × Byte × Byte)) : ∀ (m : List Host.Cell) {x : Nat}
    (_ : ∀ b ∈ l, b.1 ≠ x), Memory.get (Memory.writeMasked m l) x = Memory.get m x := by
  induction l with
  | nil => intro m x _; rfl
  | cons c r ih =>
    intro m x hx
    obtain ⟨a, b, k⟩ := c
    rw [Memory.writeMasked, ih _ (fun y hy => hx y (.tail _ hy)), Memory.get_set,
      if_neg (Ne.symm (hx _ (.head _)))]

@[simp] theorem Memory.length_read (m : List Host.Cell) (a n : Nat) : (Memory.read m a n).length = n := by
  induction n generalizing a with
  | zero => rfl
  | succ n ih => simp [Memory.read, ih]

/-- The bytes that a read gives, one by one. -/
theorem Memory.getElem?_read (m : List Host.Cell) (a n i : Nat) :
    (Memory.read m a n)[i]? = if i < n then some (Memory.get m (a + i)) else none := by
  induction n generalizing a i with
  | zero => simp [Memory.read]
  | succ n ih =>
    cases i with
    | zero => simp [Memory.read]
    | succ i =>
      rw [Memory.read, List.getElem?_cons_succ, ih]
      simp only [Nat.add_lt_add_iff_right, Nat.add_assoc, Nat.add_comm 1 i]

/-- Two memories that agree on a range read the same there. -/
theorem Memory.read_congr {m k : List Host.Cell} {a n : Nat} (h : ∀ x, a ≤ x → x < a + n → Memory.get m x = Memory.get k x) :
    Memory.read m a n = Memory.read k a n := by
  induction n generalizing a with
  | zero => rfl
  | succ n ih =>
    rw [Memory.read, Memory.read, h a (Nat.le_refl _) (by omega), ih (fun x h1 h2 => h x (by omega) (by omega))]

/-- What was written reads back whole (R54). -/
theorem Memory.read_write (m : List Host.Cell) (a : Nat) (bs : List Byte) :
    Memory.read (Memory.write m a bs) a bs.length = bs := by
  apply List.ext_getElem?
  intro i
  rw [Memory.getElem?_read]
  split
  · rename_i hi
    rw [Memory.get_write bs m, if_pos (by omega), Nat.add_sub_cancel_left]
    simp [List.getD_eq_getElem?_getD, hi]
  · rename_i hi
    exact (List.getElem?_eq_none (Nat.le_of_not_lt hi)).symm

/-! ### Little-endian fields (R54) -/

@[simp] theorem length_leBytes (n v : Nat) : (leBytes n v).length = n := by
  induction n generalizing v with
  | zero => rfl
  | succ n ih => simp [leBytes, ih]

/-- The value of the bytes of a value. -/
theorem leVal_leBytes (n v : Nat) : leVal (leBytes n v) = v % 256 ^ n := by
  induction n generalizing v with
  | zero => simp [leBytes, leVal, Nat.mod_one]
  | succ n ih =>
    rw [leBytes, leVal, ih, Nat.pow_succ, Nat.mul_comm (256 ^ n) 256, Nat.mod_mul]
    simp [BitVec.toNat_ofNat]

/-- A field that was written reads back (R54). -/
theorem Memory.val_write (m : List Host.Cell) (a n v : Nat) :
    Memory.val (Memory.write m a (leBytes n v)) a n = v % 256 ^ n := by
  have := Memory.read_write m a (leBytes n v)
  rw [length_leBytes] at this
  rw [Memory.val, this, leVal_leBytes]

end Sys2Proof.Machine
end

