-- ==== Sys2Proof/Laws/PerInstr.lean ====
section
/-! SUPPORT. For every instruction: its encoding is read back as itself, and its opcode stands at the top (R27, R87 to R102, R107). -/
namespace Sys2Proof

/-- A word of opcode `op` in its table form is read back from its encoding, and decode map 1 assigns the opcode. Vacuous for events, which have none. -/
def Laws.RoundTrip.Statement (i : Instr) : Prop :=
  ∀ op, i.opcode = some op → i.formOk = true →
    decodeOp op (encode i) = some i ∧ encode i / 2 ^ (lenBits op - 10) = op ∧ (decodeOp op 0).isSome = true

/-- The two low bits of the imm field are those of the word. -/
theorem fld_of_imm (w : Nat) : fld 2 w 0 = BitVec.extractLsb' 0 2 (VAWord.ofNat w).imm := by
  apply BitVec.eq_of_toNat_eq
  simp only [fld, VAWord.ofNat, BitVec.toNat_ofNat, BitVec.extractLsb'_toNat, Nat.shiftRight_zero]
  omega

theorem Laws.RoundTrip.add (w : SRWord) : Laws.RoundTrip.Statement (.add w) := by
  rintro _ ⟨⟩ -
  exact ⟨congrArg (fun x => some (Instr.add x)) (SRWord.ofNat_toNat _ w), SRWord.toNat_top _ w, rfl⟩

theorem Laws.RoundTrip.sub (w : SRWord) : Laws.RoundTrip.Statement (.sub w) := by
  rintro _ ⟨⟩ -
  exact ⟨congrArg (fun x => some (Instr.sub x)) (SRWord.ofNat_toNat _ w), SRWord.toNat_top _ w, rfl⟩

theorem Laws.RoundTrip.mul (w : SRWord) : Laws.RoundTrip.Statement (.mul w) := by
  rintro _ ⟨⟩ -
  exact ⟨congrArg (fun x => some (Instr.mul x)) (SRWord.ofNat_toNat _ w), SRWord.toNat_top _ w, rfl⟩

theorem Laws.RoundTrip.mulh (w : SRWord) : Laws.RoundTrip.Statement (.mulh w) := by
  rintro _ ⟨⟩ -
  exact ⟨congrArg (fun x => some (Instr.mulh x)) (SRWord.ofNat_toNat _ w), SRWord.toNat_top _ w, rfl⟩

theorem Laws.RoundTrip.mulhu (w : SRWord) : Laws.RoundTrip.Statement (.mulhu w) := by
  rintro _ ⟨⟩ -
  exact ⟨congrArg (fun x => some (Instr.mulhu x)) (SRWord.ofNat_toNat _ w), SRWord.toNat_top _ w, rfl⟩

theorem Laws.RoundTrip.div (w : SRWord) : Laws.RoundTrip.Statement (.div w) := by
  rintro _ ⟨⟩ -
  exact ⟨congrArg (fun x => some (Instr.div x)) (SRWord.ofNat_toNat _ w), SRWord.toNat_top _ w, rfl⟩

theorem Laws.RoundTrip.divu (w : SRWord) : Laws.RoundTrip.Statement (.divu w) := by
  rintro _ ⟨⟩ -
  exact ⟨congrArg (fun x => some (Instr.divu x)) (SRWord.ofNat_toNat _ w), SRWord.toNat_top _ w, rfl⟩

theorem Laws.RoundTrip.rem (w : SRWord) : Laws.RoundTrip.Statement (.rem w) := by
  rintro _ ⟨⟩ -
  exact ⟨congrArg (fun x => some (Instr.rem x)) (SRWord.ofNat_toNat _ w), SRWord.toNat_top _ w, rfl⟩

theorem Laws.RoundTrip.remu (w : SRWord) : Laws.RoundTrip.Statement (.remu w) := by
  rintro _ ⟨⟩ -
  exact ⟨congrArg (fun x => some (Instr.remu x)) (SRWord.ofNat_toNat _ w), SRWord.toNat_top _ w, rfl⟩

theorem Laws.RoundTrip.andR (w : SRWord) : Laws.RoundTrip.Statement (.andR w) := by
  rintro _ ⟨⟩ -
  exact ⟨congrArg (fun x => some (Instr.andR x)) (SRWord.ofNat_toNat _ w), SRWord.toNat_top _ w, rfl⟩

theorem Laws.RoundTrip.orR (w : SRWord) : Laws.RoundTrip.Statement (.orR w) := by
  rintro _ ⟨⟩ -
  exact ⟨congrArg (fun x => some (Instr.orR x)) (SRWord.ofNat_toNat _ w), SRWord.toNat_top _ w, rfl⟩

theorem Laws.RoundTrip.xorR (w : SRWord) : Laws.RoundTrip.Statement (.xorR w) := by
  rintro _ ⟨⟩ -
  exact ⟨congrArg (fun x => some (Instr.xorR x)) (SRWord.ofNat_toNat _ w), SRWord.toNat_top _ w, rfl⟩

theorem Laws.RoundTrip.andn (w : SRWord) : Laws.RoundTrip.Statement (.andn w) := by
  rintro _ ⟨⟩ -
  exact ⟨congrArg (fun x => some (Instr.andn x)) (SRWord.ofNat_toNat _ w), SRWord.toNat_top _ w, rfl⟩

theorem Laws.RoundTrip.shl (w : SRWord) : Laws.RoundTrip.Statement (.shl w) := by
  rintro _ ⟨⟩ -
  exact ⟨congrArg (fun x => some (Instr.shl x)) (SRWord.ofNat_toNat _ w), SRWord.toNat_top _ w, rfl⟩

theorem Laws.RoundTrip.shr (w : SRWord) : Laws.RoundTrip.Statement (.shr w) := by
  rintro _ ⟨⟩ -
  exact ⟨congrArg (fun x => some (Instr.shr x)) (SRWord.ofNat_toNat _ w), SRWord.toNat_top _ w, rfl⟩

theorem Laws.RoundTrip.sra (w : SRWord) : Laws.RoundTrip.Statement (.sra w) := by
  rintro _ ⟨⟩ -
  exact ⟨congrArg (fun x => some (Instr.sra x)) (SRWord.ofNat_toNat _ w), SRWord.toNat_top _ w, rfl⟩

theorem Laws.RoundTrip.min (w : SRWord) : Laws.RoundTrip.Statement (.min w) := by
  rintro _ ⟨⟩ -
  exact ⟨congrArg (fun x => some (Instr.min x)) (SRWord.ofNat_toNat _ w), SRWord.toNat_top _ w, rfl⟩

theorem Laws.RoundTrip.max (w : SRWord) : Laws.RoundTrip.Statement (.max w) := by
  rintro _ ⟨⟩ -
  exact ⟨congrArg (fun x => some (Instr.max x)) (SRWord.ofNat_toNat _ w), SRWord.toNat_top _ w, rfl⟩

theorem Laws.RoundTrip.minu (w : SRWord) : Laws.RoundTrip.Statement (.minu w) := by
  rintro _ ⟨⟩ -
  exact ⟨congrArg (fun x => some (Instr.minu x)) (SRWord.ofNat_toNat _ w), SRWord.toNat_top _ w, rfl⟩

theorem Laws.RoundTrip.maxu (w : SRWord) : Laws.RoundTrip.Statement (.maxu w) := by
  rintro _ ⟨⟩ -
  exact ⟨congrArg (fun x => some (Instr.maxu x)) (SRWord.ofNat_toNat _ w), SRWord.toNat_top _ w, rfl⟩

theorem Laws.RoundTrip.slt (w : SRWord) : Laws.RoundTrip.Statement (.slt w) := by
  rintro _ ⟨⟩ -
  exact ⟨congrArg (fun x => some (Instr.slt x)) (SRWord.ofNat_toNat _ w), SRWord.toNat_top _ w, rfl⟩

theorem Laws.RoundTrip.sltu (w : SRWord) : Laws.RoundTrip.Statement (.sltu w) := by
  rintro _ ⟨⟩ -
  exact ⟨congrArg (fun x => some (Instr.sltu x)) (SRWord.ofNat_toNat _ w), SRWord.toNat_top _ w, rfl⟩

theorem Laws.RoundTrip.seq (w : SRWord) : Laws.RoundTrip.Statement (.seq w) := by
  rintro _ ⟨⟩ -
  exact ⟨congrArg (fun x => some (Instr.seq x)) (SRWord.ofNat_toNat _ w), SRWord.toNat_top _ w, rfl⟩

theorem Laws.RoundTrip.sne (w : SRWord) : Laws.RoundTrip.Statement (.sne w) := by
  rintro _ ⟨⟩ -
  exact ⟨congrArg (fun x => some (Instr.sne x)) (SRWord.ofNat_toNat _ w), SRWord.toNat_top _ w, rfl⟩

theorem Laws.RoundTrip.selz (w : SRWord) : Laws.RoundTrip.Statement (.selz w) := by
  rintro _ ⟨⟩ -
  exact ⟨congrArg (fun x => some (Instr.selz x)) (SRWord.ofNat_toNat _ w), SRWord.toNat_top _ w, rfl⟩

theorem Laws.RoundTrip.clz (w : SRWord) : Laws.RoundTrip.Statement (.clz w) := by
  rintro _ ⟨⟩ -
  exact ⟨congrArg (fun x => some (Instr.clz x)) (SRWord.ofNat_toNat _ w), SRWord.toNat_top _ w, rfl⟩

theorem Laws.RoundTrip.ctz (w : SRWord) : Laws.RoundTrip.Statement (.ctz w) := by
  rintro _ ⟨⟩ -
  exact ⟨congrArg (fun x => some (Instr.ctz x)) (SRWord.ofNat_toNat _ w), SRWord.toNat_top _ w, rfl⟩

theorem Laws.RoundTrip.popc (w : SRWord) : Laws.RoundTrip.Statement (.popc w) := by
  rintro _ ⟨⟩ -
  exact ⟨congrArg (fun x => some (Instr.popc x)) (SRWord.ofNat_toNat _ w), SRWord.toNat_top _ w, rfl⟩

theorem Laws.RoundTrip.bfx (w : SRWord) : Laws.RoundTrip.Statement (.bfx w) := by
  rintro _ ⟨⟩ -
  exact ⟨congrArg (fun x => some (Instr.bfx x)) (SRWord.ofNat_toNat _ w), SRWord.toNat_top _ w, rfl⟩

theorem Laws.RoundTrip.bfi (w : SRWord) : Laws.RoundTrip.Statement (.bfi w) := by
  rintro _ ⟨⟩ -
  exact ⟨congrArg (fun x => some (Instr.bfi x)) (SRWord.ofNat_toNat _ w), SRWord.toNat_top _ w, rfl⟩

theorem Laws.RoundTrip.addx2 (w : SRWord) : Laws.RoundTrip.Statement (.addx2 w) := by
  rintro _ ⟨⟩ -
  exact ⟨congrArg (fun x => some (Instr.addx2 x)) (SRWord.ofNat_toNat _ w), SRWord.toNat_top _ w, rfl⟩

theorem Laws.RoundTrip.addx4 (w : SRWord) : Laws.RoundTrip.Statement (.addx4 w) := by
  rintro _ ⟨⟩ -
  exact ⟨congrArg (fun x => some (Instr.addx4 x)) (SRWord.ofNat_toNat _ w), SRWord.toNat_top _ w, rfl⟩

theorem Laws.RoundTrip.addx8 (w : SRWord) : Laws.RoundTrip.Statement (.addx8 w) := by
  rintro _ ⟨⟩ -
  exact ⟨congrArg (fun x => some (Instr.addx8 x)) (SRWord.ofNat_toNat _ w), SRWord.toNat_top _ w, rfl⟩

theorem Laws.RoundTrip.addi (w : SIWord) : Laws.RoundTrip.Statement (.addi w) := by
  rintro _ ⟨⟩ -
  exact ⟨congrArg (fun x => some (Instr.addi x)) (SIWord.ofNat_toNat _ w), SIWord.toNat_top _ w, rfl⟩

theorem Laws.RoundTrip.andi (w : SIWord) : Laws.RoundTrip.Statement (.andi w) := by
  rintro _ ⟨⟩ -
  exact ⟨congrArg (fun x => some (Instr.andi x)) (SIWord.ofNat_toNat _ w), SIWord.toNat_top _ w, rfl⟩

theorem Laws.RoundTrip.ori (w : SIWord) : Laws.RoundTrip.Statement (.ori w) := by
  rintro _ ⟨⟩ -
  exact ⟨congrArg (fun x => some (Instr.ori x)) (SIWord.ofNat_toNat _ w), SIWord.toNat_top _ w, rfl⟩

theorem Laws.RoundTrip.xori (w : SIWord) : Laws.RoundTrip.Statement (.xori w) := by
  rintro _ ⟨⟩ -
  exact ⟨congrArg (fun x => some (Instr.xori x)) (SIWord.ofNat_toNat _ w), SIWord.toNat_top _ w, rfl⟩

theorem Laws.RoundTrip.shli (w : SIWord) : Laws.RoundTrip.Statement (.shli w) := by
  rintro _ ⟨⟩ -
  exact ⟨congrArg (fun x => some (Instr.shli x)) (SIWord.ofNat_toNat _ w), SIWord.toNat_top _ w, rfl⟩

theorem Laws.RoundTrip.shri (w : SIWord) : Laws.RoundTrip.Statement (.shri w) := by
  rintro _ ⟨⟩ -
  exact ⟨congrArg (fun x => some (Instr.shri x)) (SIWord.ofNat_toNat _ w), SIWord.toNat_top _ w, rfl⟩

theorem Laws.RoundTrip.srai (w : SIWord) : Laws.RoundTrip.Statement (.srai w) := by
  rintro _ ⟨⟩ -
  exact ⟨congrArg (fun x => some (Instr.srai x)) (SIWord.ofNat_toNat _ w), SIWord.toNat_top _ w, rfl⟩

theorem Laws.RoundTrip.slti (w : SIWord) : Laws.RoundTrip.Statement (.slti w) := by
  rintro _ ⟨⟩ -
  exact ⟨congrArg (fun x => some (Instr.slti x)) (SIWord.ofNat_toNat _ w), SIWord.toNat_top _ w, rfl⟩

theorem Laws.RoundTrip.movi (w : SLWord) : Laws.RoundTrip.Statement (.movi w) := by
  rintro _ ⟨⟩ -
  exact ⟨congrArg (fun x => some (Instr.movi x)) (SLWord.ofNat_toNat _ w), SLWord.toNat_top _ w, rfl⟩

theorem Laws.RoundTrip.movsh (w : SLWord) : Laws.RoundTrip.Statement (.movsh w) := by
  rintro _ ⟨⟩ -
  exact ⟨congrArg (fun x => some (Instr.movsh x)) (SLWord.ofNat_toNat _ w), SLWord.toNat_top _ w, rfl⟩

theorem Laws.RoundTrip.br (w : SBWord) : Laws.RoundTrip.Statement (.br w) := by
  rintro _ ⟨⟩ -
  exact ⟨congrArg (fun x => some (Instr.br x)) (SBWord.ofNat_toNat _ w), SBWord.toNat_top _ w, rfl⟩

theorem Laws.RoundTrip.jmp (w : SJWord) : Laws.RoundTrip.Statement (.jmp w) := by
  rintro _ ⟨⟩ -
  exact ⟨congrArg (fun x => some (Instr.jmp x)) (SJWord.ofNat_toNat _ w), SJWord.toNat_top _ w, rfl⟩

theorem Laws.RoundTrip.jmpr (w : SRWord) : Laws.RoundTrip.Statement (.jmpr w) := by
  rintro _ ⟨⟩ -
  exact ⟨congrArg (fun x => some (Instr.jmpr x)) (SRWord.ofNat_toNat _ w), SRWord.toNat_top _ w, rfl⟩

theorem Laws.RoundTrip.call (w : SJWord) : Laws.RoundTrip.Statement (.call w) := by
  rintro _ ⟨⟩ -
  exact ⟨congrArg (fun x => some (Instr.call x)) (SJWord.ofNat_toNat _ w), SJWord.toNat_top _ w, rfl⟩

theorem Laws.RoundTrip.callr (w : SRWord) : Laws.RoundTrip.Statement (.callr w) := by
  rintro _ ⟨⟩ -
  exact ⟨congrArg (fun x => some (Instr.callr x)) (SRWord.ofNat_toNat _ w), SRWord.toNat_top _ w, rfl⟩

theorem Laws.RoundTrip.ret (w : SRWord) : Laws.RoundTrip.Statement (.ret w) := by
  rintro _ ⟨⟩ -
  exact ⟨congrArg (fun x => some (Instr.ret x)) (SRWord.ofNat_toNat _ w), SRWord.toNat_top _ w, rfl⟩

theorem Laws.RoundTrip.loop (w : SXWord) : Laws.RoundTrip.Statement (.loop w) := by
  rintro _ ⟨⟩ -
  exact ⟨congrArg (fun x => some (Instr.loop x)) (SXWord.ofNat_toNat _ w), SXWord.toNat_top _ w, rfl⟩

theorem Laws.RoundTrip.loopr (w : SQWord) : Laws.RoundTrip.Statement (.loopr w) := by
  rintro _ ⟨⟩ -
  exact ⟨congrArg (fun x => some (Instr.loopr x)) (SQWord.ofNat_toNat _ w), SQWord.toNat_top _ w, rfl⟩

theorem Laws.RoundTrip.nop (w : SJWord) : Laws.RoundTrip.Statement (.nop w) := by
  rintro _ ⟨⟩ -
  exact ⟨congrArg (fun x => some (Instr.nop x)) (SJWord.ofNat_toNat _ w), SJWord.toNat_top _ w, rfl⟩

theorem Laws.RoundTrip.waitt (w : SRWord) : Laws.RoundTrip.Statement (.waitt w) := by
  rintro _ ⟨⟩ -
  exact ⟨congrArg (fun x => some (Instr.waitt x)) (SRWord.ofNat_toNat _ w), SRWord.toNat_top _ w, rfl⟩

theorem Laws.RoundTrip.ends (w : SRWord) : Laws.RoundTrip.Statement (.ends w) := by
  rintro _ ⟨⟩ -
  exact ⟨congrArg (fun x => some (Instr.ends x)) (SRWord.ofNat_toNat _ w), SRWord.toNat_top _ w, rfl⟩

theorem Laws.RoundTrip.trap (w : SLWord) : Laws.RoundTrip.Statement (.trap w) := by
  rintro _ ⟨⟩ -
  exact ⟨congrArg (fun x => some (Instr.trap x)) (SLWord.ofNat_toNat _ w), SLWord.toNat_top _ w, rfl⟩

theorem Laws.RoundTrip.rett (w : SRWord) : Laws.RoundTrip.Statement (.rett w) := by
  rintro _ ⟨⟩ -
  exact ⟨congrArg (fun x => some (Instr.rett x)) (SRWord.ofNat_toNat _ w), SRWord.toNat_top _ w, rfl⟩

theorem Laws.RoundTrip.ldsB (w : SIWord) : Laws.RoundTrip.Statement (.ldsB w) := by
  rintro _ ⟨⟩ -
  exact ⟨congrArg (fun x => some (Instr.ldsB x)) (SIWord.ofNat_toNat _ w), SIWord.toNat_top _ w, rfl⟩

theorem Laws.RoundTrip.ldsBu (w : SIWord) : Laws.RoundTrip.Statement (.ldsBu w) := by
  rintro _ ⟨⟩ -
  exact ⟨congrArg (fun x => some (Instr.ldsBu x)) (SIWord.ofNat_toNat _ w), SIWord.toNat_top _ w, rfl⟩

theorem Laws.RoundTrip.ldsH (w : SIWord) : Laws.RoundTrip.Statement (.ldsH w) := by
  rintro _ ⟨⟩ -
  exact ⟨congrArg (fun x => some (Instr.ldsH x)) (SIWord.ofNat_toNat _ w), SIWord.toNat_top _ w, rfl⟩

theorem Laws.RoundTrip.ldsHu (w : SIWord) : Laws.RoundTrip.Statement (.ldsHu w) := by
  rintro _ ⟨⟩ -
  exact ⟨congrArg (fun x => some (Instr.ldsHu x)) (SIWord.ofNat_toNat _ w), SIWord.toNat_top _ w, rfl⟩

theorem Laws.RoundTrip.ldsW (w : SIWord) : Laws.RoundTrip.Statement (.ldsW w) := by
  rintro _ ⟨⟩ -
  exact ⟨congrArg (fun x => some (Instr.ldsW x)) (SIWord.ofNat_toNat _ w), SIWord.toNat_top _ w, rfl⟩

theorem Laws.RoundTrip.ldsWu (w : SIWord) : Laws.RoundTrip.Statement (.ldsWu w) := by
  rintro _ ⟨⟩ -
  exact ⟨congrArg (fun x => some (Instr.ldsWu x)) (SIWord.ofNat_toNat _ w), SIWord.toNat_top _ w, rfl⟩

theorem Laws.RoundTrip.ldsD (w : SIWord) : Laws.RoundTrip.Statement (.ldsD w) := by
  rintro _ ⟨⟩ -
  exact ⟨congrArg (fun x => some (Instr.ldsD x)) (SIWord.ofNat_toNat _ w), SIWord.toNat_top _ w, rfl⟩

theorem Laws.RoundTrip.stsB (w : SIWord) : Laws.RoundTrip.Statement (.stsB w) := by
  rintro _ ⟨⟩ -
  exact ⟨congrArg (fun x => some (Instr.stsB x)) (SIWord.ofNat_toNat _ w), SIWord.toNat_top _ w, rfl⟩

theorem Laws.RoundTrip.stsH (w : SIWord) : Laws.RoundTrip.Statement (.stsH w) := by
  rintro _ ⟨⟩ -
  exact ⟨congrArg (fun x => some (Instr.stsH x)) (SIWord.ofNat_toNat _ w), SIWord.toNat_top _ w, rfl⟩

theorem Laws.RoundTrip.stsW (w : SIWord) : Laws.RoundTrip.Statement (.stsW w) := by
  rintro _ ⟨⟩ -
  exact ⟨congrArg (fun x => some (Instr.stsW x)) (SIWord.ofNat_toNat _ w), SIWord.toNat_top _ w, rfl⟩

theorem Laws.RoundTrip.stsD (w : SIWord) : Laws.RoundTrip.Statement (.stsD w) := by
  rintro _ ⟨⟩ -
  exact ⟨congrArg (fun x => some (Instr.stsD x)) (SIWord.ofNat_toNat _ w), SIWord.toNat_top _ w, rfl⟩

theorem Laws.RoundTrip.faddS (w : SRWord) : Laws.RoundTrip.Statement (.faddS w) := by
  rintro _ ⟨⟩ -
  exact ⟨congrArg (fun x => some (Instr.faddS x)) (SRWord.ofNat_toNat _ w), SRWord.toNat_top _ w, rfl⟩

theorem Laws.RoundTrip.fsubS (w : SRWord) : Laws.RoundTrip.Statement (.fsubS w) := by
  rintro _ ⟨⟩ -
  exact ⟨congrArg (fun x => some (Instr.fsubS x)) (SRWord.ofNat_toNat _ w), SRWord.toNat_top _ w, rfl⟩

theorem Laws.RoundTrip.fmulS (w : SRWord) : Laws.RoundTrip.Statement (.fmulS w) := by
  rintro _ ⟨⟩ -
  exact ⟨congrArg (fun x => some (Instr.fmulS x)) (SRWord.ofNat_toNat _ w), SRWord.toNat_top _ w, rfl⟩

theorem Laws.RoundTrip.ffmaS (w : SRWord) : Laws.RoundTrip.Statement (.ffmaS w) := by
  rintro _ ⟨⟩ -
  exact ⟨congrArg (fun x => some (Instr.ffmaS x)) (SRWord.ofNat_toNat _ w), SRWord.toNat_top _ w, rfl⟩

theorem Laws.RoundTrip.fdivS (w : SRWord) : Laws.RoundTrip.Statement (.fdivS w) := by
  rintro _ ⟨⟩ -
  exact ⟨congrArg (fun x => some (Instr.fdivS x)) (SRWord.ofNat_toNat _ w), SRWord.toNat_top _ w, rfl⟩

theorem Laws.RoundTrip.fsqrtS (w : SRWord) : Laws.RoundTrip.Statement (.fsqrtS w) := by
  rintro _ ⟨⟩ -
  exact ⟨congrArg (fun x => some (Instr.fsqrtS x)) (SRWord.ofNat_toNat _ w), SRWord.toNat_top _ w, rfl⟩

theorem Laws.RoundTrip.fminS (w : SRWord) : Laws.RoundTrip.Statement (.fminS w) := by
  rintro _ ⟨⟩ -
  exact ⟨congrArg (fun x => some (Instr.fminS x)) (SRWord.ofNat_toNat _ w), SRWord.toNat_top _ w, rfl⟩

theorem Laws.RoundTrip.fmaxS (w : SRWord) : Laws.RoundTrip.Statement (.fmaxS w) := by
  rintro _ ⟨⟩ -
  exact ⟨congrArg (fun x => some (Instr.fmaxS x)) (SRWord.ofNat_toNat _ w), SRWord.toNat_top _ w, rfl⟩

theorem Laws.RoundTrip.fcmpS (w : SRWord) : Laws.RoundTrip.Statement (.fcmpS w) := by
  rintro _ ⟨⟩ -
  exact ⟨congrArg (fun x => some (Instr.fcmpS x)) (SRWord.ofNat_toNat _ w), SRWord.toNat_top _ w, rfl⟩

theorem Laws.RoundTrip.fclassS (w : SRWord) : Laws.RoundTrip.Statement (.fclassS w) := by
  rintro _ ⟨⟩ -
  exact ⟨congrArg (fun x => some (Instr.fclassS x)) (SRWord.ofNat_toNat _ w), SRWord.toNat_top _ w, rfl⟩

theorem Laws.RoundTrip.fabsS (w : SRWord) : Laws.RoundTrip.Statement (.fabsS w) := by
  rintro _ ⟨⟩ -
  exact ⟨congrArg (fun x => some (Instr.fabsS x)) (SRWord.ofNat_toNat _ w), SRWord.toNat_top _ w, rfl⟩

theorem Laws.RoundTrip.fnegS (w : SRWord) : Laws.RoundTrip.Statement (.fnegS w) := by
  rintro _ ⟨⟩ -
  exact ⟨congrArg (fun x => some (Instr.fnegS x)) (SRWord.ofNat_toNat _ w), SRWord.toNat_top _ w, rfl⟩

theorem Laws.RoundTrip.fcvt (w : SRWord) : Laws.RoundTrip.Statement (.fcvt w) := by
  rintro _ ⟨⟩ -
  exact ⟨congrArg (fun x => some (Instr.fcvt x)) (SRWord.ofNat_toNat _ w), SRWord.toNat_top _ w, rfl⟩

theorem Laws.RoundTrip.faddD (w : SRWord) : Laws.RoundTrip.Statement (.faddD w) := by
  rintro _ ⟨⟩ -
  exact ⟨congrArg (fun x => some (Instr.faddD x)) (SRWord.ofNat_toNat _ w), SRWord.toNat_top _ w, rfl⟩

theorem Laws.RoundTrip.fsubD (w : SRWord) : Laws.RoundTrip.Statement (.fsubD w) := by
  rintro _ ⟨⟩ -
  exact ⟨congrArg (fun x => some (Instr.fsubD x)) (SRWord.ofNat_toNat _ w), SRWord.toNat_top _ w, rfl⟩

theorem Laws.RoundTrip.fmulD (w : SRWord) : Laws.RoundTrip.Statement (.fmulD w) := by
  rintro _ ⟨⟩ -
  exact ⟨congrArg (fun x => some (Instr.fmulD x)) (SRWord.ofNat_toNat _ w), SRWord.toNat_top _ w, rfl⟩

theorem Laws.RoundTrip.ffmaD (w : SRWord) : Laws.RoundTrip.Statement (.ffmaD w) := by
  rintro _ ⟨⟩ -
  exact ⟨congrArg (fun x => some (Instr.ffmaD x)) (SRWord.ofNat_toNat _ w), SRWord.toNat_top _ w, rfl⟩

theorem Laws.RoundTrip.fdivD (w : SRWord) : Laws.RoundTrip.Statement (.fdivD w) := by
  rintro _ ⟨⟩ -
  exact ⟨congrArg (fun x => some (Instr.fdivD x)) (SRWord.ofNat_toNat _ w), SRWord.toNat_top _ w, rfl⟩

theorem Laws.RoundTrip.fsqrtD (w : SRWord) : Laws.RoundTrip.Statement (.fsqrtD w) := by
  rintro _ ⟨⟩ -
  exact ⟨congrArg (fun x => some (Instr.fsqrtD x)) (SRWord.ofNat_toNat _ w), SRWord.toNat_top _ w, rfl⟩

theorem Laws.RoundTrip.fminD (w : SRWord) : Laws.RoundTrip.Statement (.fminD w) := by
  rintro _ ⟨⟩ -
  exact ⟨congrArg (fun x => some (Instr.fminD x)) (SRWord.ofNat_toNat _ w), SRWord.toNat_top _ w, rfl⟩

theorem Laws.RoundTrip.fmaxD (w : SRWord) : Laws.RoundTrip.Statement (.fmaxD w) := by
  rintro _ ⟨⟩ -
  exact ⟨congrArg (fun x => some (Instr.fmaxD x)) (SRWord.ofNat_toNat _ w), SRWord.toNat_top _ w, rfl⟩

theorem Laws.RoundTrip.fcmpD (w : SRWord) : Laws.RoundTrip.Statement (.fcmpD w) := by
  rintro _ ⟨⟩ -
  exact ⟨congrArg (fun x => some (Instr.fcmpD x)) (SRWord.ofNat_toNat _ w), SRWord.toNat_top _ w, rfl⟩

theorem Laws.RoundTrip.fclassD (w : SRWord) : Laws.RoundTrip.Statement (.fclassD w) := by
  rintro _ ⟨⟩ -
  exact ⟨congrArg (fun x => some (Instr.fclassD x)) (SRWord.ofNat_toNat _ w), SRWord.toNat_top _ w, rfl⟩

theorem Laws.RoundTrip.fabsD (w : SRWord) : Laws.RoundTrip.Statement (.fabsD w) := by
  rintro _ ⟨⟩ -
  exact ⟨congrArg (fun x => some (Instr.fabsD x)) (SRWord.ofNat_toNat _ w), SRWord.toNat_top _ w, rfl⟩

theorem Laws.RoundTrip.fnegD (w : SRWord) : Laws.RoundTrip.Statement (.fnegD w) := by
  rintro _ ⟨⟩ -
  exact ⟨congrArg (fun x => some (Instr.fnegD x)) (SRWord.ofNat_toNat _ w), SRWord.toNat_top _ w, rfl⟩

theorem Laws.RoundTrip.csrr (w : SCWord) : Laws.RoundTrip.Statement (.csrr w) := by
  rintro _ ⟨⟩ -
  exact ⟨congrArg (fun x => some (Instr.csrr x)) (SCWord.ofNat_toNat _ w), SCWord.toNat_top _ w, rfl⟩

theorem Laws.RoundTrip.csrw (w : SCWord) : Laws.RoundTrip.Statement (.csrw w) := by
  rintro _ ⟨⟩ -
  exact ⟨congrArg (fun x => some (Instr.csrw x)) (SCWord.ofNat_toNat _ w), SCWord.toNat_top _ w, rfl⟩

theorem Laws.RoundTrip.csrs (w : SCWord) : Laws.RoundTrip.Statement (.csrs w) := by
  rintro _ ⟨⟩ -
  exact ⟨congrArg (fun x => some (Instr.csrs x)) (SCWord.ofNat_toNat _ w), SCWord.toNat_top _ w, rfl⟩

theorem Laws.RoundTrip.csrc (w : SCWord) : Laws.RoundTrip.Statement (.csrc w) := by
  rintro _ ⟨⟩ -
  exact ⟨congrArg (fun x => some (Instr.csrc x)) (SCWord.ofNat_toNat _ w), SCWord.toNat_top _ w, rfl⟩

theorem Laws.RoundTrip.ldgW (w : SGWord) : Laws.RoundTrip.Statement (.ldgW w) := by
  rintro _ ⟨⟩ -
  exact ⟨congrArg (fun x => some (Instr.ldgW x)) (SGWord.ofNat_toNat _ w), SGWord.toNat_top _ w, rfl⟩

theorem Laws.RoundTrip.ldgWu (w : SGWord) : Laws.RoundTrip.Statement (.ldgWu w) := by
  rintro _ ⟨⟩ -
  exact ⟨congrArg (fun x => some (Instr.ldgWu x)) (SGWord.ofNat_toNat _ w), SGWord.toNat_top _ w, rfl⟩

theorem Laws.RoundTrip.ldgD (w : SGWord) : Laws.RoundTrip.Statement (.ldgD w) := by
  rintro _ ⟨⟩ -
  exact ⟨congrArg (fun x => some (Instr.ldgD x)) (SGWord.ofNat_toNat _ w), SGWord.toNat_top _ w, rfl⟩

theorem Laws.RoundTrip.ldgS (w : SGWord) : Laws.RoundTrip.Statement (.ldgS w) := by
  rintro _ ⟨⟩ -
  exact ⟨congrArg (fun x => some (Instr.ldgS x)) (SGWord.ofNat_toNat _ w), SGWord.toNat_top _ w, rfl⟩

theorem Laws.RoundTrip.stgW (w : SGWord) : Laws.RoundTrip.Statement (.stgW w) := by
  rintro _ ⟨⟩ -
  exact ⟨congrArg (fun x => some (Instr.stgW x)) (SGWord.ofNat_toNat _ w), SGWord.toNat_top _ w, rfl⟩

theorem Laws.RoundTrip.stgD (w : SGWord) : Laws.RoundTrip.Statement (.stgD w) := by
  rintro _ ⟨⟩ -
  exact ⟨congrArg (fun x => some (Instr.stgD x)) (SGWord.ofNat_toNat _ w), SGWord.toNat_top _ w, rfl⟩

theorem Laws.RoundTrip.fence (w : SFWord) : Laws.RoundTrip.Statement (.fence w) := by
  rintro _ ⟨⟩ -
  exact ⟨congrArg (fun x => some (Instr.fence x)) (SFWord.ofNat_toNat _ w), SFWord.toNat_top _ w, rfl⟩

theorem Laws.RoundTrip.fenceAcq (w : SFWord) : Laws.RoundTrip.Statement (.fenceAcq w) := by
  rintro _ ⟨⟩ -
  exact ⟨congrArg (fun x => some (Instr.fenceAcq x)) (SFWord.ofNat_toNat _ w), SFWord.toNat_top _ w, rfl⟩

theorem Laws.RoundTrip.commit (w : SRWord) : Laws.RoundTrip.Statement (.commit w) := by
  rintro _ ⟨⟩ -
  exact ⟨congrArg (fun x => some (Instr.commit x)) (SRWord.ofNat_toNat _ w), SRWord.toNat_top _ w, rfl⟩

theorem Laws.RoundTrip.commitRel (w : SFWord) : Laws.RoundTrip.Statement (.commitRel w) := by
  rintro _ ⟨⟩ -
  exact ⟨congrArg (fun x => some (Instr.commitRel x)) (SFWord.ofNat_toNat _ w), SFWord.toNat_top _ w, rfl⟩

theorem Laws.RoundTrip.check (w : SRWord) : Laws.RoundTrip.Statement (.check w) := by
  rintro _ ⟨⟩ -
  exact ⟨congrArg (fun x => some (Instr.check x)) (SRWord.ofNat_toNat _ w), SRWord.toNat_top _ w, rfl⟩

theorem Laws.RoundTrip.commitAAddD (w : SRWord) : Laws.RoundTrip.Statement (.commitAAddD w) := by
  rintro _ ⟨⟩ -
  exact ⟨congrArg (fun x => some (Instr.commitAAddD x)) (SRWord.ofNat_toNat _ w), SRWord.toNat_top _ w, rfl⟩

theorem Laws.RoundTrip.commitAMinD (w : SRWord) : Laws.RoundTrip.Statement (.commitAMinD w) := by
  rintro _ ⟨⟩ -
  exact ⟨congrArg (fun x => some (Instr.commitAMinD x)) (SRWord.ofNat_toNat _ w), SRWord.toNat_top _ w, rfl⟩

theorem Laws.RoundTrip.commitAMaxD (w : SRWord) : Laws.RoundTrip.Statement (.commitAMaxD w) := by
  rintro _ ⟨⟩ -
  exact ⟨congrArg (fun x => some (Instr.commitAMaxD x)) (SRWord.ofNat_toNat _ w), SRWord.toNat_top _ w, rfl⟩

theorem Laws.RoundTrip.commitAAndD (w : SRWord) : Laws.RoundTrip.Statement (.commitAAndD w) := by
  rintro _ ⟨⟩ -
  exact ⟨congrArg (fun x => some (Instr.commitAAndD x)) (SRWord.ofNat_toNat _ w), SRWord.toNat_top _ w, rfl⟩

theorem Laws.RoundTrip.commitAOrD (w : SRWord) : Laws.RoundTrip.Statement (.commitAOrD w) := by
  rintro _ ⟨⟩ -
  exact ⟨congrArg (fun x => some (Instr.commitAOrD x)) (SRWord.ofNat_toNat _ w), SRWord.toNat_top _ w, rfl⟩

theorem Laws.RoundTrip.commitAXchgD (w : SRWord) : Laws.RoundTrip.Statement (.commitAXchgD w) := by
  rintro _ ⟨⟩ -
  exact ⟨congrArg (fun x => some (Instr.commitAXchgD x)) (SRWord.ofNat_toNat _ w), SRWord.toNat_top _ w, rfl⟩

theorem Laws.RoundTrip.commitACasD (w : SRWord) : Laws.RoundTrip.Statement (.commitACasD w) := by
  rintro _ ⟨⟩ -
  exact ⟨congrArg (fun x => some (Instr.commitACasD x)) (SRWord.ofNat_toNat _ w), SRWord.toNat_top _ w, rfl⟩

theorem Laws.RoundTrip.commitAAddW (w : SRWord) : Laws.RoundTrip.Statement (.commitAAddW w) := by
  rintro _ ⟨⟩ -
  exact ⟨congrArg (fun x => some (Instr.commitAAddW x)) (SRWord.ofNat_toNat _ w), SRWord.toNat_top _ w, rfl⟩

theorem Laws.RoundTrip.commitAMinW (w : SRWord) : Laws.RoundTrip.Statement (.commitAMinW w) := by
  rintro _ ⟨⟩ -
  exact ⟨congrArg (fun x => some (Instr.commitAMinW x)) (SRWord.ofNat_toNat _ w), SRWord.toNat_top _ w, rfl⟩

theorem Laws.RoundTrip.commitAMaxW (w : SRWord) : Laws.RoundTrip.Statement (.commitAMaxW w) := by
  rintro _ ⟨⟩ -
  exact ⟨congrArg (fun x => some (Instr.commitAMaxW x)) (SRWord.ofNat_toNat _ w), SRWord.toNat_top _ w, rfl⟩

theorem Laws.RoundTrip.commitAAndW (w : SRWord) : Laws.RoundTrip.Statement (.commitAAndW w) := by
  rintro _ ⟨⟩ -
  exact ⟨congrArg (fun x => some (Instr.commitAAndW x)) (SRWord.ofNat_toNat _ w), SRWord.toNat_top _ w, rfl⟩

theorem Laws.RoundTrip.commitAOrW (w : SRWord) : Laws.RoundTrip.Statement (.commitAOrW w) := by
  rintro _ ⟨⟩ -
  exact ⟨congrArg (fun x => some (Instr.commitAOrW x)) (SRWord.ofNat_toNat _ w), SRWord.toNat_top _ w, rfl⟩

theorem Laws.RoundTrip.commitAXchgW (w : SRWord) : Laws.RoundTrip.Statement (.commitAXchgW w) := by
  rintro _ ⟨⟩ -
  exact ⟨congrArg (fun x => some (Instr.commitAXchgW x)) (SRWord.ofNat_toNat _ w), SRWord.toNat_top _ w, rfl⟩

theorem Laws.RoundTrip.commitACasW (w : SRWord) : Laws.RoundTrip.Statement (.commitACasW w) := by
  rintro _ ⟨⟩ -
  exact ⟨congrArg (fun x => some (Instr.commitACasW x)) (SRWord.ofNat_toNat _ w), SRWord.toNat_top _ w, rfl⟩

theorem Laws.RoundTrip.commitAFaddW (w : SRWord) : Laws.RoundTrip.Statement (.commitAFaddW w) := by
  rintro _ ⟨⟩ -
  exact ⟨congrArg (fun x => some (Instr.commitAFaddW x)) (SRWord.ofNat_toNat _ w), SRWord.toNat_top _ w, rfl⟩

theorem Laws.RoundTrip.launch (w : SRWord) : Laws.RoundTrip.Statement (.launch w) := by
  rintro _ ⟨⟩ h
  have e : SRWord.ofNat (encode (.launch w)) = w := SRWord.ofNat_toNat _ w
  have f : fld 6 (encode (.launch w)) 7 = w.a := congrArg SRWord.a e
  have h' : w.a ≠ 48 := by simpa [Instr.formOk] using h
  refine ⟨?_, SRWord.toNat_top _ w, rfl⟩
  show some (if fld 6 (encode (.launch w)) 7 = 48 then Instr.launchSignal (.ofNat (encode (.launch w))) else .launch (.ofNat (encode (.launch w)))) = _
  rw [f, e]
  rw [if_neg h']

theorem Laws.RoundTrip.launchSignal (w : SRWord) : Laws.RoundTrip.Statement (.launchSignal w) := by
  rintro _ ⟨⟩ h
  have e : SRWord.ofNat (encode (.launchSignal w)) = w := SRWord.ofNat_toNat _ w
  have f : fld 6 (encode (.launchSignal w)) 7 = w.a := congrArg SRWord.a e
  have h' : w.a = 48 := by simpa [Instr.formOk] using h
  refine ⟨?_, SRWord.toNat_top _ w, rfl⟩
  show some (if fld 6 (encode (.launchSignal w)) 7 = 48 then Instr.launchSignal (.ofNat (encode (.launchSignal w))) else .launch (.ofNat (encode (.launchSignal w)))) = _
  rw [f, e]
  rw [if_pos h']

theorem Laws.RoundTrip.fenceRc (w : SRWord) : Laws.RoundTrip.Statement (.fenceRc w) := by
  rintro _ ⟨⟩ -
  exact ⟨congrArg (fun x => some (Instr.fenceRc x)) (SRWord.ofNat_toNat _ w), SRWord.toNat_top _ w, rfl⟩

theorem Laws.RoundTrip.hint (w : SRWord) : Laws.RoundTrip.Statement (.hint w) := by
  rintro _ ⟨⟩ -
  exact ⟨congrArg (fun x => some (Instr.hint x)) (SRWord.ofNat_toNat _ w), SRWord.toNat_top _ w, rfl⟩

theorem Laws.RoundTrip.realign (w : SRWord) : Laws.RoundTrip.Statement (.realign w) := by
  rintro _ ⟨⟩ -
  exact ⟨congrArg (fun x => some (Instr.realign x)) (SRWord.ofNat_toNat _ w), SRWord.toNat_top _ w, rfl⟩

theorem Laws.RoundTrip.ask (w : SRWord) : Laws.RoundTrip.Statement (.ask w) := by
  rintro _ ⟨⟩ -
  exact ⟨congrArg (fun x => some (Instr.ask x)) (SRWord.ofNat_toNat _ w), SRWord.toNat_top _ w, rfl⟩

theorem Laws.RoundTrip.precv (w : SIWord) : Laws.RoundTrip.Statement (.precv w) := by
  rintro _ ⟨⟩ -
  exact ⟨congrArg (fun x => some (Instr.precv x)) (SIWord.ofNat_toNat _ w), SIWord.toNat_top _ w, rfl⟩

theorem Laws.RoundTrip.prelease (w : SIWord) : Laws.RoundTrip.Statement (.prelease w) := by
  rintro _ ⟨⟩ -
  exact ⟨congrArg (fun x => some (Instr.prelease x)) (SIWord.ofNat_toNat _ w), SIWord.toNat_top _ w, rfl⟩

theorem Laws.RoundTrip.suspend (w : SRWord) : Laws.RoundTrip.Statement (.suspend w) := by
  rintro _ ⟨⟩ -
  exact ⟨congrArg (fun x => some (Instr.suspend x)) (SRWord.ofNat_toNat _ w), SRWord.toNat_top _ w, rfl⟩

theorem Laws.RoundTrip.resume (w : SRWord) : Laws.RoundTrip.Statement (.resume w) := by
  rintro _ ⟨⟩ -
  exact ⟨congrArg (fun x => some (Instr.resume x)) (SRWord.ofNat_toNat _ w), SRWord.toNat_top _ w, rfl⟩

theorem Laws.RoundTrip.fork (w : SRWord) : Laws.RoundTrip.Statement (.fork w) := by
  rintro _ ⟨⟩ -
  exact ⟨congrArg (fun x => some (Instr.fork x)) (SRWord.ofNat_toNat _ w), SRWord.toNat_top _ w, rfl⟩

theorem Laws.RoundTrip.discard (w : SRWord) : Laws.RoundTrip.Statement (.discard w) := by
  rintro _ ⟨⟩ -
  exact ⟨congrArg (fun x => some (Instr.discard x)) (SRWord.ofNat_toNat _ w), SRWord.toNat_top _ w, rfl⟩

theorem Laws.RoundTrip.vadd (w : VAWord) : Laws.RoundTrip.Statement (.vadd w) := by
  rintro _ ⟨⟩ -
  exact ⟨congrArg (fun x => some (Instr.vadd x)) (VAWord.ofNat_toNat _ w), VAWord.toNat_top _ w, rfl⟩

theorem Laws.RoundTrip.vsub (w : VAWord) : Laws.RoundTrip.Statement (.vsub w) := by
  rintro _ ⟨⟩ -
  exact ⟨congrArg (fun x => some (Instr.vsub x)) (VAWord.ofNat_toNat _ w), VAWord.toNat_top _ w, rfl⟩

theorem Laws.RoundTrip.vmul (w : VAWord) : Laws.RoundTrip.Statement (.vmul w) := by
  rintro _ ⟨⟩ -
  exact ⟨congrArg (fun x => some (Instr.vmul x)) (VAWord.ofNat_toNat _ w), VAWord.toNat_top _ w, rfl⟩

theorem Laws.RoundTrip.vfma (w : VAWord) : Laws.RoundTrip.Statement (.vfma w) := by
  rintro _ ⟨⟩ -
  exact ⟨congrArg (fun x => some (Instr.vfma x)) (VAWord.ofNat_toNat _ w), VAWord.toNat_top _ w, rfl⟩

theorem Laws.RoundTrip.vfms (w : VAWord) : Laws.RoundTrip.Statement (.vfms w) := by
  rintro _ ⟨⟩ -
  exact ⟨congrArg (fun x => some (Instr.vfms x)) (VAWord.ofNat_toNat _ w), VAWord.toNat_top _ w, rfl⟩

theorem Laws.RoundTrip.vfnma (w : VAWord) : Laws.RoundTrip.Statement (.vfnma w) := by
  rintro _ ⟨⟩ -
  exact ⟨congrArg (fun x => some (Instr.vfnma x)) (VAWord.ofNat_toNat _ w), VAWord.toNat_top _ w, rfl⟩

theorem Laws.RoundTrip.vmin (w : VAWord) : Laws.RoundTrip.Statement (.vmin w) := by
  rintro _ ⟨⟩ -
  exact ⟨congrArg (fun x => some (Instr.vmin x)) (VAWord.ofNat_toNat _ w), VAWord.toNat_top _ w, rfl⟩

theorem Laws.RoundTrip.vmax (w : VAWord) : Laws.RoundTrip.Statement (.vmax w) := by
  rintro _ ⟨⟩ -
  exact ⟨congrArg (fun x => some (Instr.vmax x)) (VAWord.ofNat_toNat _ w), VAWord.toNat_top _ w, rfl⟩

theorem Laws.RoundTrip.vabs (w : VAWord) : Laws.RoundTrip.Statement (.vabs w) := by
  rintro _ ⟨⟩ -
  exact ⟨congrArg (fun x => some (Instr.vabs x)) (VAWord.ofNat_toNat _ w), VAWord.toNat_top _ w, rfl⟩

theorem Laws.RoundTrip.vneg (w : VAWord) : Laws.RoundTrip.Statement (.vneg w) := by
  rintro _ ⟨⟩ -
  exact ⟨congrArg (fun x => some (Instr.vneg x)) (VAWord.ofNat_toNat _ w), VAWord.toNat_top _ w, rfl⟩

theorem Laws.RoundTrip.vrcp (w : VAWord) : Laws.RoundTrip.Statement (.vrcp w) := by
  rintro _ ⟨⟩ -
  exact ⟨congrArg (fun x => some (Instr.vrcp x)) (VAWord.ofNat_toNat _ w), VAWord.toNat_top _ w, rfl⟩

theorem Laws.RoundTrip.vrsq (w : VAWord) : Laws.RoundTrip.Statement (.vrsq w) := by
  rintro _ ⟨⟩ -
  exact ⟨congrArg (fun x => some (Instr.vrsq x)) (VAWord.ofNat_toNat _ w), VAWord.toNat_top _ w, rfl⟩

theorem Laws.RoundTrip.vexp2 (w : VAWord) : Laws.RoundTrip.Statement (.vexp2 w) := by
  rintro _ ⟨⟩ -
  exact ⟨congrArg (fun x => some (Instr.vexp2 x)) (VAWord.ofNat_toNat _ w), VAWord.toNat_top _ w, rfl⟩

theorem Laws.RoundTrip.vlog2 (w : VAWord) : Laws.RoundTrip.Statement (.vlog2 w) := by
  rintro _ ⟨⟩ -
  exact ⟨congrArg (fun x => some (Instr.vlog2 x)) (VAWord.ofNat_toNat _ w), VAWord.toNat_top _ w, rfl⟩

theorem Laws.RoundTrip.vcmp (w : VAWord) : Laws.RoundTrip.Statement (.vcmp w) := by
  rintro _ ⟨⟩ -
  exact ⟨congrArg (fun x => some (Instr.vcmp x)) (VAWord.ofNat_toNat _ w), VAWord.toNat_top _ w, rfl⟩

theorem Laws.RoundTrip.vclass (w : VAWord) : Laws.RoundTrip.Statement (.vclass w) := by
  rintro _ ⟨⟩ -
  exact ⟨congrArg (fun x => some (Instr.vclass x)) (VAWord.ofNat_toNat _ w), VAWord.toNat_top _ w, rfl⟩

theorem Laws.RoundTrip.vsel (w : VAWord) : Laws.RoundTrip.Statement (.vsel w) := by
  rintro _ ⟨⟩ -
  exact ⟨congrArg (fun x => some (Instr.vsel x)) (VAWord.ofNat_toNat _ w), VAWord.toNat_top _ w, rfl⟩

theorem Laws.RoundTrip.vcvt (w : VAWord) : Laws.RoundTrip.Statement (.vcvt w) := by
  rintro _ ⟨⟩ -
  exact ⟨congrArg (fun x => some (Instr.vcvt x)) (VAWord.ofNat_toNat _ w), VAWord.toNat_top _ w, rfl⟩

theorem Laws.RoundTrip.viadd (w : VAWord) : Laws.RoundTrip.Statement (.viadd w) := by
  rintro _ ⟨⟩ -
  exact ⟨congrArg (fun x => some (Instr.viadd x)) (VAWord.ofNat_toNat _ w), VAWord.toNat_top _ w, rfl⟩

theorem Laws.RoundTrip.visub (w : VAWord) : Laws.RoundTrip.Statement (.visub w) := by
  rintro _ ⟨⟩ -
  exact ⟨congrArg (fun x => some (Instr.visub x)) (VAWord.ofNat_toNat _ w), VAWord.toNat_top _ w, rfl⟩

theorem Laws.RoundTrip.vimul (w : VAWord) : Laws.RoundTrip.Statement (.vimul w) := by
  rintro _ ⟨⟩ -
  exact ⟨congrArg (fun x => some (Instr.vimul x)) (VAWord.ofNat_toNat _ w), VAWord.toNat_top _ w, rfl⟩

theorem Laws.RoundTrip.vimad (w : VAWord) : Laws.RoundTrip.Statement (.vimad w) := by
  rintro _ ⟨⟩ -
  exact ⟨congrArg (fun x => some (Instr.vimad x)) (VAWord.ofNat_toNat _ w), VAWord.toNat_top _ w, rfl⟩

theorem Laws.RoundTrip.vand (w : VAWord) : Laws.RoundTrip.Statement (.vand w) := by
  rintro _ ⟨⟩ -
  exact ⟨congrArg (fun x => some (Instr.vand x)) (VAWord.ofNat_toNat _ w), VAWord.toNat_top _ w, rfl⟩

theorem Laws.RoundTrip.vor (w : VAWord) : Laws.RoundTrip.Statement (.vor w) := by
  rintro _ ⟨⟩ -
  exact ⟨congrArg (fun x => some (Instr.vor x)) (VAWord.ofNat_toNat _ w), VAWord.toNat_top _ w, rfl⟩

theorem Laws.RoundTrip.vxor (w : VAWord) : Laws.RoundTrip.Statement (.vxor w) := by
  rintro _ ⟨⟩ -
  exact ⟨congrArg (fun x => some (Instr.vxor x)) (VAWord.ofNat_toNat _ w), VAWord.toNat_top _ w, rfl⟩

theorem Laws.RoundTrip.vandn (w : VAWord) : Laws.RoundTrip.Statement (.vandn w) := by
  rintro _ ⟨⟩ -
  exact ⟨congrArg (fun x => some (Instr.vandn x)) (VAWord.ofNat_toNat _ w), VAWord.toNat_top _ w, rfl⟩

theorem Laws.RoundTrip.vshl (w : VAWord) : Laws.RoundTrip.Statement (.vshl w) := by
  rintro _ ⟨⟩ -
  exact ⟨congrArg (fun x => some (Instr.vshl x)) (VAWord.ofNat_toNat _ w), VAWord.toNat_top _ w, rfl⟩

theorem Laws.RoundTrip.vshr (w : VAWord) : Laws.RoundTrip.Statement (.vshr w) := by
  rintro _ ⟨⟩ -
  exact ⟨congrArg (fun x => some (Instr.vshr x)) (VAWord.ofNat_toNat _ w), VAWord.toNat_top _ w, rfl⟩

theorem Laws.RoundTrip.vsra (w : VAWord) : Laws.RoundTrip.Statement (.vsra w) := by
  rintro _ ⟨⟩ -
  exact ⟨congrArg (fun x => some (Instr.vsra x)) (VAWord.ofNat_toNat _ w), VAWord.toNat_top _ w, rfl⟩

theorem Laws.RoundTrip.vimin (w : VAWord) : Laws.RoundTrip.Statement (.vimin w) := by
  rintro _ ⟨⟩ -
  exact ⟨congrArg (fun x => some (Instr.vimin x)) (VAWord.ofNat_toNat _ w), VAWord.toNat_top _ w, rfl⟩

theorem Laws.RoundTrip.vimax (w : VAWord) : Laws.RoundTrip.Statement (.vimax w) := by
  rintro _ ⟨⟩ -
  exact ⟨congrArg (fun x => some (Instr.vimax x)) (VAWord.ofNat_toNat _ w), VAWord.toNat_top _ w, rfl⟩

theorem Laws.RoundTrip.vicmp (w : VAWord) : Laws.RoundTrip.Statement (.vicmp w) := by
  rintro _ ⟨⟩ -
  exact ⟨congrArg (fun x => some (Instr.vicmp x)) (VAWord.ofNat_toNat _ w), VAWord.toNat_top _ w, rfl⟩

theorem Laws.RoundTrip.vmov (w : VAWord) : Laws.RoundTrip.Statement (.vmov w) := by
  rintro _ ⟨⟩ h
  have e : VAWord.ofNat (encode (.vmov w)) = w := VAWord.ofNat_toNat _ w
  have f : fld 2 (encode (.vmov w)) 0 = w.imm.extractLsb' 0 2 := (fld_of_imm _).trans (congrArg (fun x => BitVec.extractLsb' 0 2 (VAWord.imm x)) e)
  have h' : w.imm.extractLsb' 0 2 ≠ 1 ∧ w.imm.extractLsb' 0 2 ≠ 2 := by simpa [Instr.formOk] using h
  refine ⟨?_, VAWord.toNat_top _ w, rfl⟩
  show some (if fld 2 (encode (.vmov w)) 0 = 1 then Instr.vmovToPattern (.ofNat (encode (.vmov w))) else if fld 2 (encode (.vmov w)) 0 = 2 then
    .vmovFromPattern (.ofNat (encode (.vmov w))) else .vmov (.ofNat (encode (.vmov w)))) = _
  rw [f, e]
  rw [if_neg h'.1, if_neg h'.2]

theorem Laws.RoundTrip.vmovToPattern (w : VAWord) : Laws.RoundTrip.Statement (.vmovToPattern w) := by
  rintro _ ⟨⟩ h
  have e : VAWord.ofNat (encode (.vmovToPattern w)) = w := VAWord.ofNat_toNat _ w
  have f : fld 2 (encode (.vmovToPattern w)) 0 = w.imm.extractLsb' 0 2 := (fld_of_imm _).trans (congrArg (fun x => BitVec.extractLsb' 0 2 (VAWord.imm x)) e)
  have h' : w.imm.extractLsb' 0 2 = 1 := by simpa [Instr.formOk] using h
  refine ⟨?_, VAWord.toNat_top _ w, rfl⟩
  show some (if fld 2 (encode (.vmovToPattern w)) 0 = 1 then Instr.vmovToPattern (.ofNat (encode (.vmovToPattern w))) else if fld 2 (encode (.vmovToPattern w)) 0 = 2 then
    .vmovFromPattern (.ofNat (encode (.vmovToPattern w))) else .vmov (.ofNat (encode (.vmovToPattern w)))) = _
  rw [f, e]
  simp [h']

theorem Laws.RoundTrip.vmovFromPattern (w : VAWord) : Laws.RoundTrip.Statement (.vmovFromPattern w) := by
  rintro _ ⟨⟩ h
  have e : VAWord.ofNat (encode (.vmovFromPattern w)) = w := VAWord.ofNat_toNat _ w
  have f : fld 2 (encode (.vmovFromPattern w)) 0 = w.imm.extractLsb' 0 2 := (fld_of_imm _).trans (congrArg (fun x => BitVec.extractLsb' 0 2 (VAWord.imm x)) e)
  have h' : w.imm.extractLsb' 0 2 = 2 := by simpa [Instr.formOk] using h
  refine ⟨?_, VAWord.toNat_top _ w, rfl⟩
  show some (if fld 2 (encode (.vmovFromPattern w)) 0 = 1 then Instr.vmovToPattern (.ofNat (encode (.vmovFromPattern w))) else if fld 2 (encode (.vmovFromPattern w)) 0 = 2 then
    .vmovFromPattern (.ofNat (encode (.vmovFromPattern w))) else .vmov (.ofNat (encode (.vmovFromPattern w)))) = _
  rw [f, e]
  simp [h']

theorem Laws.RoundTrip.vext (w : VAWord) : Laws.RoundTrip.Statement (.vext w) := by
  rintro _ ⟨⟩ -
  exact ⟨congrArg (fun x => some (Instr.vext x)) (VAWord.ofNat_toNat _ w), VAWord.toNat_top _ w, rfl⟩

theorem Laws.RoundTrip.vins (w : VAWord) : Laws.RoundTrip.Statement (.vins w) := by
  rintro _ ⟨⟩ -
  exact ⟨congrArg (fun x => some (Instr.vins x)) (VAWord.ofNat_toNat _ w), VAWord.toNat_top _ w, rfl⟩

theorem Laws.RoundTrip.vperm (w : VAWord) : Laws.RoundTrip.Statement (.vperm w) := by
  rintro _ ⟨⟩ -
  exact ⟨congrArg (fun x => some (Instr.vperm x)) (VAWord.ofNat_toNat _ w), VAWord.toNat_top _ w, rfl⟩

theorem Laws.RoundTrip.vrot (w : VAWord) : Laws.RoundTrip.Statement (.vrot w) := by
  rintro _ ⟨⟩ -
  exact ⟨congrArg (fun x => some (Instr.vrot x)) (VAWord.ofNat_toNat _ w), VAWord.toNat_top _ w, rfl⟩

theorem Laws.RoundTrip.vcomp (w : VAWord) : Laws.RoundTrip.Statement (.vcomp w) := by
  rintro _ ⟨⟩ -
  exact ⟨congrArg (fun x => some (Instr.vcomp x)) (VAWord.ofNat_toNat _ w), VAWord.toNat_top _ w, rfl⟩

theorem Laws.RoundTrip.vxpnd (w : VAWord) : Laws.RoundTrip.Statement (.vxpnd w) := by
  rintro _ ⟨⟩ -
  exact ⟨congrArg (fun x => some (Instr.vxpnd x)) (VAWord.ofNat_toNat _ w), VAWord.toNat_top _ w, rfl⟩

theorem Laws.RoundTrip.viota (w : VAWord) : Laws.RoundTrip.Statement (.viota w) := by
  rintro _ ⟨⟩ -
  exact ⟨congrArg (fun x => some (Instr.viota x)) (VAWord.ofNat_toNat _ w), VAWord.toNat_top _ w, rfl⟩

theorem Laws.RoundTrip.vred (w : VAWord) : Laws.RoundTrip.Statement (.vred w) := by
  rintro _ ⟨⟩ -
  exact ⟨congrArg (fun x => some (Instr.vred x)) (VAWord.ofNat_toNat _ w), VAWord.toNat_top _ w, rfl⟩

theorem Laws.RoundTrip.vscan (w : VAWord) : Laws.RoundTrip.Statement (.vscan w) := by
  rintro _ ⟨⟩ -
  exact ⟨congrArg (fun x => some (Instr.vscan x)) (VAWord.ofNat_toNat _ w), VAWord.toNat_top _ w, rfl⟩

theorem Laws.RoundTrip.vdefer (w : VAWord) : Laws.RoundTrip.Statement (.vdefer w) := by
  rintro _ ⟨⟩ -
  exact ⟨congrArg (fun x => some (Instr.vdefer x)) (VAWord.ofNat_toNat _ w), VAWord.toNat_top _ w, rfl⟩

theorem Laws.RoundTrip.vdrain (w : VAWord) : Laws.RoundTrip.Statement (.vdrain w) := by
  rintro _ ⟨⟩ -
  exact ⟨congrArg (fun x => some (Instr.vdrain x)) (VAWord.ofNat_toNat _ w), VAWord.toNat_top _ w, rfl⟩

theorem Laws.RoundTrip.vld (w : VMWord) : Laws.RoundTrip.Statement (.vld w) := by
  rintro _ ⟨⟩ -
  exact ⟨congrArg (fun x => some (Instr.vld x)) (VMWord.ofNat_toNat _ w), VMWord.toNat_top _ w, rfl⟩

theorem Laws.RoundTrip.vst (w : VMWord) : Laws.RoundTrip.Statement (.vst w) := by
  rintro _ ⟨⟩ -
  exact ⟨congrArg (fun x => some (Instr.vst x)) (VMWord.ofNat_toNat _ w), VMWord.toNat_top _ w, rfl⟩

theorem Laws.RoundTrip.vldb (w : VMWord) : Laws.RoundTrip.Statement (.vldb w) := by
  rintro _ ⟨⟩ -
  exact ⟨congrArg (fun x => some (Instr.vldb x)) (VMWord.ofNat_toNat _ w), VMWord.toNat_top _ w, rfl⟩

theorem Laws.RoundTrip.vstb (w : VMWord) : Laws.RoundTrip.Statement (.vstb w) := by
  rintro _ ⟨⟩ -
  exact ⟨congrArg (fun x => some (Instr.vstb x)) (VMWord.ofNat_toNat _ w), VMWord.toNat_top _ w, rfl⟩

theorem Laws.RoundTrip.vldx (w : VMWord) : Laws.RoundTrip.Statement (.vldx w) := by
  rintro _ ⟨⟩ -
  exact ⟨congrArg (fun x => some (Instr.vldx x)) (VMWord.ofNat_toNat _ w), VMWord.toNat_top _ w, rfl⟩

theorem Laws.RoundTrip.vstx (w : VMWord) : Laws.RoundTrip.Statement (.vstx w) := by
  rintro _ ⟨⟩ -
  exact ⟨congrArg (fun x => some (Instr.vstx x)) (VMWord.ofNat_toNat _ w), VMWord.toNat_top _ w, rfl⟩

theorem Laws.RoundTrip.vxpl (w : VMWord) : Laws.RoundTrip.Statement (.vxpl w) := by
  rintro _ ⟨⟩ -
  exact ⟨congrArg (fun x => some (Instr.vxpl x)) (VMWord.ofNat_toNat _ w), VMWord.toNat_top _ w, rfl⟩

theorem Laws.RoundTrip.vldg (w : VMWord) : Laws.RoundTrip.Statement (.vldg w) := by
  rintro _ ⟨⟩ -
  exact ⟨congrArg (fun x => some (Instr.vldg x)) (VMWord.ofNat_toNat _ w), VMWord.toNat_top _ w, rfl⟩

theorem Laws.RoundTrip.vstg (w : VMWord) : Laws.RoundTrip.Statement (.vstg w) := by
  rintro _ ⟨⟩ -
  exact ⟨congrArg (fun x => some (Instr.vstg x)) (VMWord.ofNat_toNat _ w), VMWord.toNat_top _ w, rfl⟩

theorem Laws.RoundTrip.vredG (w : VMWord) : Laws.RoundTrip.Statement (.vredG w) := by
  rintro _ ⟨⟩ -
  exact ⟨congrArg (fun x => some (Instr.vredG x)) (VMWord.ofNat_toNat _ w), VMWord.toNat_top _ w, rfl⟩

theorem Laws.RoundTrip.kand (w : VAWord) : Laws.RoundTrip.Statement (.kand w) := by
  rintro _ ⟨⟩ -
  exact ⟨congrArg (fun x => some (Instr.kand x)) (VAWord.ofNat_toNat _ w), VAWord.toNat_top _ w, rfl⟩

theorem Laws.RoundTrip.kor (w : VAWord) : Laws.RoundTrip.Statement (.kor w) := by
  rintro _ ⟨⟩ -
  exact ⟨congrArg (fun x => some (Instr.kor x)) (VAWord.ofNat_toNat _ w), VAWord.toNat_top _ w, rfl⟩

theorem Laws.RoundTrip.kxor (w : VAWord) : Laws.RoundTrip.Statement (.kxor w) := by
  rintro _ ⟨⟩ -
  exact ⟨congrArg (fun x => some (Instr.kxor x)) (VAWord.ofNat_toNat _ w), VAWord.toNat_top _ w, rfl⟩

theorem Laws.RoundTrip.knot (w : VAWord) : Laws.RoundTrip.Statement (.knot w) := by
  rintro _ ⟨⟩ -
  exact ⟨congrArg (fun x => some (Instr.knot x)) (VAWord.ofNat_toNat _ w), VAWord.toNat_top _ w, rfl⟩

theorem Laws.RoundTrip.kmov (w : VAWord) : Laws.RoundTrip.Statement (.kmov w) := by
  rintro _ ⟨⟩ h
  have e : VAWord.ofNat (encode (.kmov w)) = w := VAWord.ofNat_toNat _ w
  have f : fld 2 (encode (.kmov w)) 0 = w.imm.extractLsb' 0 2 := (fld_of_imm _).trans (congrArg (fun x => BitVec.extractLsb' 0 2 (VAWord.imm x)) e)
  have h' : w.imm.extractLsb' 0 2 ≠ 1 ∧ w.imm.extractLsb' 0 2 ≠ 2 := by simpa [Instr.formOk] using h
  refine ⟨?_, VAWord.toNat_top _ w, rfl⟩
  show some (if fld 2 (encode (.kmov w)) 0 = 1 then Instr.kmovFromScalar (.ofNat (encode (.kmov w))) else if fld 2 (encode (.kmov w)) 0 = 2 then
    .kmovToScalar (.ofNat (encode (.kmov w))) else .kmov (.ofNat (encode (.kmov w)))) = _
  rw [f, e]
  rw [if_neg h'.1, if_neg h'.2]

theorem Laws.RoundTrip.kmovFromScalar (w : VAWord) : Laws.RoundTrip.Statement (.kmovFromScalar w) := by
  rintro _ ⟨⟩ h
  have e : VAWord.ofNat (encode (.kmovFromScalar w)) = w := VAWord.ofNat_toNat _ w
  have f : fld 2 (encode (.kmovFromScalar w)) 0 = w.imm.extractLsb' 0 2 := (fld_of_imm _).trans (congrArg (fun x => BitVec.extractLsb' 0 2 (VAWord.imm x)) e)
  have h' : w.imm.extractLsb' 0 2 = 1 := by simpa [Instr.formOk] using h
  refine ⟨?_, VAWord.toNat_top _ w, rfl⟩
  show some (if fld 2 (encode (.kmovFromScalar w)) 0 = 1 then Instr.kmovFromScalar (.ofNat (encode (.kmovFromScalar w))) else if fld 2 (encode (.kmovFromScalar w)) 0 = 2 then
    .kmovToScalar (.ofNat (encode (.kmovFromScalar w))) else .kmov (.ofNat (encode (.kmovFromScalar w)))) = _
  rw [f, e]
  simp [h']

theorem Laws.RoundTrip.kmovToScalar (w : VAWord) : Laws.RoundTrip.Statement (.kmovToScalar w) := by
  rintro _ ⟨⟩ h
  have e : VAWord.ofNat (encode (.kmovToScalar w)) = w := VAWord.ofNat_toNat _ w
  have f : fld 2 (encode (.kmovToScalar w)) 0 = w.imm.extractLsb' 0 2 := (fld_of_imm _).trans (congrArg (fun x => BitVec.extractLsb' 0 2 (VAWord.imm x)) e)
  have h' : w.imm.extractLsb' 0 2 = 2 := by simpa [Instr.formOk] using h
  refine ⟨?_, VAWord.toNat_top _ w, rfl⟩
  show some (if fld 2 (encode (.kmovToScalar w)) 0 = 1 then Instr.kmovFromScalar (.ofNat (encode (.kmovToScalar w))) else if fld 2 (encode (.kmovToScalar w)) 0 = 2 then
    .kmovToScalar (.ofNat (encode (.kmovToScalar w))) else .kmov (.ofNat (encode (.kmovToScalar w)))) = _
  rw [f, e]
  simp [h']

theorem Laws.RoundTrip.kpop (w : VAWord) : Laws.RoundTrip.Statement (.kpop w) := by
  rintro _ ⟨⟩ -
  exact ⟨congrArg (fun x => some (Instr.kpop x)) (VAWord.ofNat_toNat _ w), VAWord.toNat_top _ w, rfl⟩

theorem Laws.RoundTrip.cpy (w : CWord) : Laws.RoundTrip.Statement (.cpy w) := by
  rintro _ ⟨⟩ -
  exact ⟨congrArg (fun x => some (Instr.cpy x)) (CWord.ofNat_toNat _ w), CWord.toNat_top _ w, rfl⟩

theorem Laws.RoundTrip.cpyx (w : CWord) : Laws.RoundTrip.Statement (.cpyx w) := by
  rintro _ ⟨⟩ -
  exact ⟨congrArg (fun x => some (Instr.cpyx x)) (CWord.ofNat_toNat _ w), CWord.toNat_top _ w, rfl⟩

theorem Laws.RoundTrip.cresume (w : CWord) : Laws.RoundTrip.Statement (.cresume w) := by
  rintro _ ⟨⟩ -
  exact ⟨congrArg (fun x => some (Instr.cresume x)) (CWord.ofNat_toNat _ w), CWord.toNat_top _ w, rfl⟩

theorem Laws.RoundTrip.ccancel (w : CWord) : Laws.RoundTrip.Statement (.ccancel w) := by
  rintro _ ⟨⟩ -
  exact ⟨congrArg (fun x => some (Instr.ccancel x)) (CWord.ofNat_toNat _ w), CWord.toNat_top _ w, rfl⟩

theorem Laws.RoundTrip.psend (w : CWord) : Laws.RoundTrip.Statement (.psend w) := by
  rintro _ ⟨⟩ -
  exact ⟨congrArg (fun x => some (Instr.psend x)) (CWord.ofNat_toNat _ w), CWord.toNat_top _ w, rfl⟩

theorem Laws.RoundTrip.mwld (w : MWord) : Laws.RoundTrip.Statement (.mwld w) := by
  rintro _ ⟨⟩ -
  exact ⟨congrArg (fun x => some (Instr.mwld x)) (MWord.ofNat_toNat _ w), MWord.toNat_top _ w, rfl⟩

theorem Laws.RoundTrip.mmul (w : MWord) : Laws.RoundTrip.Statement (.mmul w) := by
  rintro _ ⟨⟩ -
  exact ⟨congrArg (fun x => some (Instr.mmul x)) (MWord.ofNat_toNat _ w), MWord.toNat_top _ w, rfl⟩

theorem Laws.RoundTrip.mchk (w : MWord) : Laws.RoundTrip.Statement (.mchk w) := by
  rintro _ ⟨⟩ -
  exact ⟨congrArg (fun x => some (Instr.mchk x)) (MWord.ofNat_toNat _ w), MWord.toNat_top _ w, rfl⟩

theorem Laws.RoundTrip.mzero (w : MWord) : Laws.RoundTrip.Statement (.mzero w) := by
  rintro _ ⟨⟩ -
  exact ⟨congrArg (fun x => some (Instr.mzero x)) (MWord.ofNat_toNat _ w), MWord.toNat_top _ w, rfl⟩

theorem Laws.RoundTrip.mald (w : MWord) : Laws.RoundTrip.Statement (.mald w) := by
  rintro _ ⟨⟩ -
  exact ⟨congrArg (fun x => some (Instr.mald x)) (MWord.ofNat_toNat _ w), MWord.toNat_top _ w, rfl⟩

theorem Laws.RoundTrip.mast (w : MWord) : Laws.RoundTrip.Statement (.mast w) := by
  rintro _ ⟨⟩ -
  exact ⟨congrArg (fun x => some (Instr.mast x)) (MWord.ofNat_toNat _ w), MWord.toNat_top _ w, rfl⟩

theorem Laws.RoundTrip.resultLanding (core : Nat) : Laws.RoundTrip.Statement (.resultLanding core) := by
  rintro _ ⟨⟩

theorem Laws.RoundTrip.guardedArrival (core id : Nat) : Laws.RoundTrip.Statement (.guardedArrival core id) := by
  rintro _ ⟨⟩

theorem Laws.RoundTrip.copyGranuleArrival (core slot granule : Nat) : Laws.RoundTrip.Statement (.copyGranuleArrival core slot granule) := by
  rintro _ ⟨⟩

theorem Laws.RoundTrip.copyBlockTranslated (core slot : Nat) : Laws.RoundTrip.Statement (.copyBlockTranslated core slot) := by
  rintro _ ⟨⟩

theorem Laws.RoundTrip.tileLatch (core : Nat) : Laws.RoundTrip.Statement (.tileLatch core) := by
  rintro _ ⟨⟩

theorem Laws.RoundTrip.checksumCompare (core : Nat) : Laws.RoundTrip.Statement (.checksumCompare core) := by
  rintro _ ⟨⟩

theorem Laws.RoundTrip.regionClosing (core : Nat) : Laws.RoundTrip.Statement (.regionClosing core) := by
  rintro _ ⟨⟩

theorem Laws.RoundTrip.regionError (core rgn engine addr : Nat) : Laws.RoundTrip.Statement (.regionError core rgn engine addr) := by
  rintro _ ⟨⟩

theorem Laws.RoundTrip.replay (core : Nat) : Laws.RoundTrip.Statement (.replay core) := by
  rintro _ ⟨⟩

theorem Laws.RoundTrip.deadline (core : Nat) : Laws.RoundTrip.Statement (.deadline core) := by
  rintro _ ⟨⟩

theorem Laws.RoundTrip.deadlineEnd (core : Nat) : Laws.RoundTrip.Statement (.deadlineEnd core) := by
  rintro _ ⟨⟩

theorem Laws.RoundTrip.writePerform (id : Nat) : Laws.RoundTrip.Statement (.writePerform id) := by
  rintro _ ⟨⟩

theorem Laws.RoundTrip.atomicPerform (id : Nat) : Laws.RoundTrip.Statement (.atomicPerform id) := by
  rintro _ ⟨⟩

theorem Laws.RoundTrip.globalAdditionPerform (id : Nat) : Laws.RoundTrip.Statement (.globalAdditionPerform id) := by
  rintro _ ⟨⟩

theorem Laws.RoundTrip.translationReturn (id : Nat) : Laws.RoundTrip.Statement (.translationReturn id) := by
  rintro _ ⟨⟩

theorem Laws.RoundTrip.pipeRecordArrival (id : Nat) : Laws.RoundTrip.Statement (.pipeRecordArrival id) := by
  rintro _ ⟨⟩

theorem Laws.RoundTrip.pipeHeadArrival (id : Nat) : Laws.RoundTrip.Statement (.pipeHeadArrival id) := by
  rintro _ ⟨⟩

theorem Laws.RoundTrip.windowDelivery (id : Nat) : Laws.RoundTrip.Statement (.windowDelivery id) := by
  rintro _ ⟨⟩

theorem Laws.RoundTrip.launchAdmission (launch : Nat) : Laws.RoundTrip.Statement (.launchAdmission launch) := by
  rintro _ ⟨⟩

theorem Laws.RoundTrip.stepDispatch (launch : Nat) : Laws.RoundTrip.Statement (.stepDispatch launch) := by
  rintro _ ⟨⟩

theorem Laws.RoundTrip.adoption (launch : Nat) : Laws.RoundTrip.Statement (.adoption launch) := by
  rintro _ ⟨⟩

theorem Laws.RoundTrip.launchComplete (launch : Nat) : Laws.RoundTrip.Statement (.launchComplete launch) := by
  rintro _ ⟨⟩

theorem Laws.RoundTrip.variantChoice (launch : Nat) : Laws.RoundTrip.Statement (.variantChoice launch) := by
  rintro _ ⟨⟩

theorem Laws.RoundTrip.preemption (launch : Nat) : Laws.RoundTrip.Statement (.preemption launch) := by
  rintro _ ⟨⟩

theorem Laws.RoundTrip.tokenRefill (part : Nat) : Laws.RoundTrip.Statement (.tokenRefill part) := by
  rintro _ ⟨⟩

theorem Laws.RoundTrip.suspendFreeze (core : Nat) : Laws.RoundTrip.Statement (.suspendFreeze core) := by
  rintro _ ⟨⟩

theorem Laws.RoundTrip.suspendBoundaryTimeout (core : Nat) : Laws.RoundTrip.Statement (.suspendBoundaryTimeout core) := by
  rintro _ ⟨⟩

theorem Laws.RoundTrip.objectWrite (group : Nat) : Laws.RoundTrip.Statement (.objectWrite group) := by
  rintro _ ⟨⟩

theorem Laws.RoundTrip.groupRestart (group : Nat) : Laws.RoundTrip.Statement (.groupRestart group) := by
  rintro _ ⟨⟩

theorem Laws.RoundTrip.dieLoss (die : Option Nat) : Laws.RoundTrip.Statement (.dieLoss die) := by
  rintro _ ⟨⟩

theorem Laws.RoundTrip.controlDieLoss : Laws.RoundTrip.Statement .controlDieLoss := by
  rintro _ ⟨⟩

theorem Laws.RoundTrip.linkRetry (link : Nat) : Laws.RoundTrip.Statement (.linkRetry link) := by
  rintro _ ⟨⟩

theorem Laws.RoundTrip.scrubVisit (unit : Nat) : Laws.RoundTrip.Statement (.scrubVisit unit) := by
  rintro _ ⟨⟩

theorem Laws.RoundTrip.amberVisit (unit : Nat) : Laws.RoundTrip.Statement (.amberVisit unit) := by
  rintro _ ⟨⟩

theorem Laws.RoundTrip.ptpSample (host rate : Nat) : Laws.RoundTrip.Statement (.ptpSample host rate) := by
  rintro _ ⟨⟩

theorem Laws.RoundTrip.ptpLockLoss : Laws.RoundTrip.Statement .ptpLockLoss := by
  rintro _ ⟨⟩

theorem Laws.RoundTrip.clockSwitch : Laws.RoundTrip.Statement .clockSwitch := by
  rintro _ ⟨⟩

theorem Laws.RoundTrip.thermalDerate : Laws.RoundTrip.Statement .thermalDerate := by
  rintro _ ⟨⟩

theorem Laws.RoundTrip.clockRestore : Laws.RoundTrip.Statement .clockRestore := by
  rintro _ ⟨⟩

theorem Laws.RoundTrip.overtemperature : Laws.RoundTrip.Statement .overtemperature := by
  rintro _ ⟨⟩

theorem Laws.RoundTrip.pfail : Laws.RoundTrip.Statement .pfail := by
  rintro _ ⟨⟩

theorem Laws.RoundTrip.pfailCaptureTimeout : Laws.RoundTrip.Statement .pfailCaptureTimeout := by
  rintro _ ⟨⟩

theorem Laws.RoundTrip.pfailIncrementTimeout : Laws.RoundTrip.Statement .pfailIncrementTimeout := by
  rintro _ ⟨⟩

theorem Laws.RoundTrip.pfailRelease : Laws.RoundTrip.Statement .pfailRelease := by
  rintro _ ⟨⟩

theorem Laws.RoundTrip.timedLaunchHold (launch : Nat) : Laws.RoundTrip.Statement (.timedLaunchHold launch) := by
  rintro _ ⟨⟩

theorem Laws.RoundTrip.timedLaunchStart (launch : Nat) : Laws.RoundTrip.Statement (.timedLaunchStart launch) := by
  rintro _ ⟨⟩

theorem Laws.RoundTrip.bulkheadReset (bulkhead : Nat) (ordered : Bool) : Laws.RoundTrip.Statement (.bulkheadReset bulkhead ordered) := by
  rintro _ ⟨⟩

theorem Laws.RoundTrip.bulkheadReturn (bulkhead : Nat) : Laws.RoundTrip.Statement (.bulkheadReturn bulkhead) := by
  rintro _ ⟨⟩

theorem Laws.RoundTrip.packageReset : Laws.RoundTrip.Statement .packageReset := by
  rintro _ ⟨⟩

theorem Laws.RoundTrip.queueBind (queue : Nat) : Laws.RoundTrip.Statement (.queueBind queue) := by
  rintro _ ⟨⟩

theorem Laws.RoundTrip.queueAging (queue : Nat) : Laws.RoundTrip.Statement (.queueAging queue) := by
  rintro _ ⟨⟩

theorem Laws.RoundTrip.queueQuantumEnd (queue : Nat) : Laws.RoundTrip.Statement (.queueQuantumEnd queue) := by
  rintro _ ⟨⟩

theorem Laws.RoundTrip.sqtailWrite (vf j : Nat) (v : BitVec 64) : Laws.RoundTrip.Statement (.sqtailWrite vf j v) := by
  rintro _ ⟨⟩

theorem Laws.RoundTrip.cqheadWrite (vf j : Nat) (v : BitVec 64) : Laws.RoundTrip.Statement (.cqheadWrite vf j v) := by
  rintro _ ⟨⟩

theorem Laws.RoundTrip.pcapWrite (v : BitVec 64) : Laws.RoundTrip.Statement (.pcapWrite v) := by
  rintro _ ⟨⟩

theorem Laws.RoundTrip.boundaryRegisterWrite (off : Nat) (v : BitVec 64) : Laws.RoundTrip.Statement (.boundaryRegisterWrite off v) := by
  rintro _ ⟨⟩

theorem Laws.RoundTrip.registerWrite (r : RegTarget) (v : BitVec 64) : Laws.RoundTrip.Statement (.registerWrite r v) := by
  rintro _ ⟨⟩

theorem Laws.RoundTrip.launchRecord (queue : Nat) : Laws.RoundTrip.Statement (.launchRecord queue) := by
  rintro _ ⟨⟩

theorem Laws.RoundTrip.timedLaunch (queue : Nat) : Laws.RoundTrip.Statement (.timedLaunch queue) := by
  rintro _ ⟨⟩

theorem Laws.RoundTrip.fenceRcRecord (queue : Nat) : Laws.RoundTrip.Statement (.fenceRcRecord queue) := by
  rintro _ ⟨⟩

theorem Laws.RoundTrip.resumeRecord (queue : Nat) : Laws.RoundTrip.Statement (.resumeRecord queue) := by
  rintro _ ⟨⟩

theorem Laws.RoundTrip.forkRecord (queue : Nat) : Laws.RoundTrip.Statement (.forkRecord queue) := by
  rintro _ ⟨⟩

theorem Laws.RoundTrip.discardRecord (queue : Nat) : Laws.RoundTrip.Statement (.discardRecord queue) := by
  rintro _ ⟨⟩

theorem Laws.RoundTrip.checkpointRecord (queue : Nat) : Laws.RoundTrip.Statement (.checkpointRecord queue) := by
  rintro _ ⟨⟩

theorem Laws.RoundTrip.partitionCreate (part brow bcol bheight bwidth : Nat) (cfg : List (BitVec 8)) : Laws.RoundTrip.Statement (.partitionCreate part brow bcol bheight bwidth cfg) := by
  rintro _ ⟨⟩

theorem Laws.RoundTrip.partitionResize (part brow bcol bheight bwidth : Nat) : Laws.RoundTrip.Statement (.partitionResize part brow bcol bheight bwidth) := by
  rintro _ ⟨⟩

theorem Laws.RoundTrip.partitionRemove (part : Nat) : Laws.RoundTrip.Statement (.partitionRemove part) := by
  rintro _ ⟨⟩

theorem Laws.RoundTrip.bindVf (vf part : Nat) : Laws.RoundTrip.Statement (.bindVf vf part) := by
  rintro _ ⟨⟩

theorem Laws.RoundTrip.assignQueue (queue vf : Nat) : Laws.RoundTrip.Statement (.assignQueue queue vf) := by
  rintro _ ⟨⟩

theorem Laws.RoundTrip.setPtroot (part root : Nat) : Laws.RoundTrip.Statement (.setPtroot part root) := by
  rintro _ ⟨⟩

theorem Laws.RoundTrip.invalidate (part : Nat) (what : InvScope) : Laws.RoundTrip.Statement (.invalidate part what) := by
  rintro _ ⟨⟩

theorem Laws.RoundTrip.decodeTableLoad (part addr : Nat) : Laws.RoundTrip.Statement (.decodeTableLoad part addr) := by
  rintro _ ⟨⟩

theorem Laws.RoundTrip.setMmode (mode : Nat) : Laws.RoundTrip.Statement (.setMmode mode) := by
  rintro _ ⟨⟩

theorem Laws.RoundTrip.windowOpen (part bulkhead n core base len : Nat) : Laws.RoundTrip.Statement (.windowOpen part bulkhead n core base len) := by
  rintro _ ⟨⟩

theorem Laws.RoundTrip.windowClose (part bulkhead n : Nat) : Laws.RoundTrip.Statement (.windowClose part bulkhead n) := by
  rintro _ ⟨⟩

theorem Laws.RoundTrip.setPartitionParameters (part : Nat) (v : PartParams) : Laws.RoundTrip.Statement (.setPartitionParameters part v) := by
  rintro _ ⟨⟩

theorem Laws.RoundTrip.setPackageParameters (v : PackParams) : Laws.RoundTrip.Statement (.setPackageParameters v) := by
  rintro _ ⟨⟩

theorem Laws.RoundTrip.setHostsz (size : Nat) : Laws.RoundTrip.Statement (.setHostsz size) := by
  rintro _ ⟨⟩

theorem Laws.RoundTrip.clearRetirement (core : Nat) : Laws.RoundTrip.Statement (.clearRetirement core) := by
  rintro _ ⟨⟩

theorem Laws.RoundTrip.lockPartition (part : Nat) (manifest : List (BitVec 8)) : Laws.RoundTrip.Statement (.lockPartition part manifest) := by
  rintro _ ⟨⟩

theorem Laws.RoundTrip.attest (part : Nat) (nonce : List (BitVec 8)) : Laws.RoundTrip.Statement (.attest part nonce) := by
  rintro _ ⟨⟩

theorem Laws.RoundTrip.setCaptureMode (part : Nat) (on : Bool) (ring : Nat) : Laws.RoundTrip.Statement (.setCaptureMode part on ring) := by
  rintro _ ⟨⟩

theorem Laws.RoundTrip.readEventLog : Laws.RoundTrip.Statement .readEventLog := by
  rintro _ ⟨⟩

theorem Laws.RoundTrip.readPfailManifest : Laws.RoundTrip.Statement .readPfailManifest := by
  rintro _ ⟨⟩

theorem Laws.RoundTrip.deviceTimeReached (core : Nat) : Laws.RoundTrip.Statement (.deviceTimeReached core) := by
  rintro _ ⟨⟩

theorem Laws.RoundTrip.unassignedOpcode (core : Nat) : Laws.RoundTrip.Statement (.unassignedOpcode core) := by
  rintro _ ⟨⟩

theorem Laws.RoundTrip.softError (u : Upset) : Laws.RoundTrip.Statement (.softError u) := by
  rintro _ ⟨⟩

theorem Laws.RoundTrip.readPerform (id : Nat) : Laws.RoundTrip.Statement (.readPerform id) := by
  rintro _ ⟨⟩

theorem Laws.RoundTrip.hostLinkWriteCompletion (id : Nat) : Laws.RoundTrip.Statement (.hostLinkWriteCompletion id) := by
  rintro _ ⟨⟩

theorem Laws.RoundTrip.hostRequesterAccess (pa : Nat) (n : Nat) (wr : Option (List (BitVec 8))) : Laws.RoundTrip.Statement (.hostRequesterAccess pa n wr) := by
  rintro _ ⟨⟩

theorem Laws.RoundTrip.invalidSubmissionRecord (queue : Nat) : Laws.RoundTrip.Statement (.invalidSubmissionRecord queue) := by
  rintro _ ⟨⟩

end Sys2Proof
end

