-- ==== Sys2Proof/Laws/Scalar.lean ====
section
/-! SUPPORT. What the shared operations of the scalar words do when the word can issue: one lemma for each. -/
namespace Sys2Proof.Machine

/-- A scalar operand read back from its capture (R358). -/
@[simp] theorem uncapS_capS (v : Word × Bool) : uncapS (capS v) = v := by
  obtain ⟨x, p⟩ := v
  simp only [uncapS, capS, Vector.getElem_ofFn]
  refine Prod.ext ?_ ?_
  · apply BitVec.eq_of_getLsbD_eq
    intro i hi
    simp
    by_cases h : i < 32
    · simp [h]; omega
    · have : i - 32 < 32 := by omega
      simp [h, hi, this, show 32 + (i - 32) = i by omega]; omega
  · cases p <;> simp

/-- The landing of one scalar result (R33, R43). -/
theorem landScalar_one {h : Head} {cx : Ctx} {s : State} {d lat : Nat} {v : Word} {p : Bool} {a b o : Lanes × LMask}
    (hs : d = 31 → stackBad (s.core s.cur) v = false) :
    landScalar h cx s d a b o [(lat, .sland d v p)] = .ok (s.addOp s.cur cx 0 ⟨0, 0⟩ a b o h.len [(lat, .sland d v p)]) (.seq 0) := by
  by_cases hd : d = 31
  · subst hd; simp [landScalar, hs rfl]
  · simp only [landScalar]
    split <;> simp [hd]

/-- A word that lands one scalar result: it completes, puts that result in flight and changes nothing else. -/
theorem landed {h : Head} {regs : Ctx → List Ref} {s : State} {body : Ctx → State → WRes} {evs : List (Nat × Eff)} {k : Nat} {m : KReg}
    {a b o : Lanes × LMask} {len : Nat} {g : Core → Core} {nx : Next} (hc : s.canIssue h regs)
    (hg : ∀ c, ∃ rs ws, g c = { c with opn := { c.opn with rset := rs, wset := ws } })
    (hb : body (s.issueCtx h.idle) (s.atIssue h.idle) =
      .ok (((s.atIssue h.idle).updCore s.cur g).addOp s.cur (s.issueCtx h.idle) k m a b o len evs) nx) :
    ∃ t, issueWord h noPre regs body s = .next t ∧ s.Issued t h ∧ (evs ≠ [] → s.puts t h evs) ∧
      (∀ x, nx = .seq x → s.goesOn t h x) ∧
      (∀ pc base, nx = .to pc base → (t.core s.cur).pc = pc ∧ (t.core s.cur).base = base) :=
  ⟨_, issueWord_ok hc rfl hb, issued_addOp s h g hg k m a b o len evs _ _ nx rfl⟩

/-- No immediate change of the sets R and W. -/
theorem noChange (c : Core) : ∃ rs ws, id c = { c with opn := { c.opn with rset := rs, wset := ws } } := ⟨_, _, rfl⟩

/-- Setting an entry twice. -/
theorem mput_mput {α : Type} (m : List (Nat × α)) (n : Nat) (c : α) : mput (mput m n c) n c = mput m n c := by
  induction m with
  | nil => simp [mput]
  | cons x r ih =>
    by_cases h1 : n < x.1
    · simp [mput, h1]
    · by_cases h2 : n = x.1
      · simp [mput, h2]
      · simp [mput, h1, h2, ih]

/-- Nothing changes at the issue cycle beside the clock. -/
@[simp] theorem State.atIssue_id (s : State) (i : Nat) : (s.atIssue i).updCore s.cur id = s.atIssue i := by
  simp [State.updCore, State.atIssue, State.setCore, State.sync, mput_mput, State.core]

section ops

variable {i : Instr} {w : SRWord} {lat : Nat} {s : State}

/-- Words with operands a and b (R113, R114, R116). -/
theorem opAB_next {f : Word → Word → Word}
    (hc : s.canIssue (hdSR i w (some lat)) (fun cx =>
      refS (rotS cx (w.z == 1) w.d.toNat) ++ refS (rotS cx (w.z == 1) w.a.toNat) ++ refS (rotS cx (w.z == 1) w.b.toNat))) :
    let h := hdSR i w (some lat)
    let cx := s.issueCtx h.idle
    let a := readS (s.issueCore h.idle) cx (rotS cx (w.z == 1) w.a.toNat)
    let b := readS (s.issueCore h.idle) cx (rotS cx (w.z == 1) w.b.toNat)
    let d := rotS cx (w.z == 1) w.d.toNat
    (d = 31 → stackBad (s.issueCore h.idle) (f a.1 b.1) = false) →
    ∃ t, opAB i w lat f s = .next t ∧ s.Issued t h ∧ s.goesOn t h 0 ∧ s.puts t h [(lat, .sland d (f a.1 b.1) (a.2 || b.2))] := by
  intro h cx a b d hs
  obtain ⟨t, h1, h2, h3, h4, -⟩ := landed (g := id) (body := fun cx s =>
      let c := s.core s.cur
      let a := capS (readS c cx (rotS cx (w.z == 1) w.a.toNat))
      let b := capS (readS c cx (rotS cx (w.z == 1) w.b.toNat))
      let d := rotS cx (w.z == 1) w.d.toNat
      landScalar h cx s d a b capNone (fxAB lat f d a b)) (nx := .seq 0) hc noChange (by
    simp only [State.atIssue_core, State.atIssue_cur, fxAB, uncapS_capS, State.atIssue_id]
    exact landScalar_one (by rw [State.atIssue_cur, State.atIssue_core]; exact hs))
  exact ⟨t, h1, h2, h4 0 rfl, h3 (by simp)⟩

end ops

end Sys2Proof.Machine
end

