-- ==== Sys2Proof/Tests/Slice0.lean ====
section
/-! SUPPORT. Tests: ill-formed words that the checks refuse, words written out from the spec's encodings, small single steps, and for every statement that
has hypotheses a witness that they can be met (test_hyp_…). -/
namespace Sys2Proof.Tests
open Sys2Proof Sys2Proof.Machine
set_option maxRecDepth 8000
set_option Elab.async false

/-- The bits of a word as the opcode table numbers them: the first unit lowest. -/
def tableBits (i : Instr) : Nat := (wordUnits (lenBits (i.opcode.getD 0) / 32) (encode i)).foldr (fun u a => u.toNat + 2 ^ 32 * a) 0

/-- Core 0 is about to run the word `i` as the first of its step, with the core changed by `f`. -/
def at0 (i : Instr) (f : Core → Core := id) : State :=
  (State.reset.withFetchWord (lenBits (i.opcode.getD 0)) (tableBits i)).updCore 0 f

/-- A core with its architectural state changed. -/
def regs (f : Arch → Arch) (c : Core) : Core := { c with arch := f c.arch }

/-- A core whose scalar registers hold the given values. -/
def sregs (l : List (Nat × Word)) : Core → Core := regs (fun a => l.foldl (fun a x => a.setS x.1 x.2 false) a)

/-- A core with a poisoned scalar register. -/
def poisoned (r : Nat) : Core → Core := regs (fun a => a.setS r 0 true)

/-- The core is in a kernel. -/
def inLoop (l : LoopSt) : Core → Core := regs (fun a => { a with loop := l })

/-! ### Hypotheses of the statements about scalar words -/

def w1 : SRWord := ⟨1, 3, 1, 2, 0⟩
def w31 : SRWord := ⟨1, 31, 1, 2, 0⟩
def wi : SIWord := ⟨1, 3, 1, 1⟩
def wl : SLWord := ⟨1, 3, 5⟩

theorem test_hyp_twoOperand : ∀ x ∈ Claims.twoOperand w1,
    (at0 x.1).canIssue (hdSR x.1 w1 (some x.2.1)) (fun cx => refS (rotS cx (w1.z == 1) w1.d.toNat) ++ refS (rotS cx (w1.z == 1) w1.a.toNat) ++
      refS (rotS cx (w1.z == 1) w1.b.toNat)) ∧ rotS ((at0 x.1).issueCtx 1) (w1.z == 1) w1.d.toNat ≠ 31 := by decide

/-- A stack pointer on the edge of its range may be written. -/
theorem test_hyp_twoOperand_s31 : let s := at0 (.add w31) (sregs [(1, 0x140000)])
    s.canIssue (hdSR (.add w31) w31 (some 1)) (fun cx => refS (rotS cx (w31.z == 1) w31.d.toNat) ++ refS (rotS cx (w31.z == 1) w31.a.toNat) ++
      refS (rotS cx (w31.z == 1) w31.b.toNat)) ∧ stackBad (s.issueCore 1) (0x140000 + 0) = false := by decide

theorem test_hyp_select : ∀ i ∈ ([.selz w1, .bfi w1] : List Instr),
    (at0 i).canIssue (hdSR i w1 (some 1)) (fun cx => refS (rotS cx (w1.z == 1) w1.d.toNat) ++ refS (rotS cx (w1.z == 1) w1.a.toNat) ++
      refS (rotS cx (w1.z == 1) w1.b.toNat)) ∧ ∀ k < 64, (0 : Word).getLsbD k = Claims.bfiBit 0 0 0 k := by decide

theorem test_hyp_bfx : (at0 (.bfx w1)).canIssue (hdSR (.bfx w1) w1 (some 1)) (fun cx => refS (rotS cx (w1.z == 1) w1.d.toNat) ++
    refS (rotS cx (w1.z == 1) w1.a.toNat) ++ refS (rotS cx (w1.z == 1) w1.b.toNat)) ∧ (∀ k < 64, (0 : Word).getLsbD k = Claims.bfxBit 0 0 k) ∧
    ∀ k < 64, (0xFFFFFFFFFFFFFFBC : Word).getLsbD k = Claims.bfxBit 0xABCD 4548 k := by decide +kernel

theorem test_hyp_count : ∀ i ∈ ([.clz ⟨1, 3, 1, 0, 0⟩, .ctz ⟨1, 3, 1, 0, 0⟩, .popc ⟨1, 3, 1, 0, 0⟩] : List Instr),
    (at0 i).canIssue (hdSR i ⟨1, 3, 1, 0, 0⟩ (some 1)) (fun cx => refS (rotS cx false 3) ++ refS (rotS cx false 1)) := by decide

theorem test_hyp_immediate : ∀ x ∈ Claims.immediate wi, (at0 x.1).canIssue (hdS x.1 wi.idle (some 1)) (fun _ => refS wi.d.toNat ++ refS wi.a.toNat) := by
  decide

theorem test_hyp_movi : ∀ i ∈ ([.movi wl, .movsh wl] : List Instr), (at0 i).canIssue (hdS i wl.idle (some 1)) (fun _ => refS wl.d.toNat) := by decide

theorem test_hyp_movi_stack : ∀ i ∈ ([.movi ⟨1, 31, 5⟩, .movsh ⟨1, 31, 5⟩] : List Instr), let s := at0 i (sregs [(31, 1)])
    s.canIssue (hdS i 1 (some 1)) (fun _ => refS 31) ∧ readS (s.issueCore 1) (s.issueCtx 1) 31 = (1, false) ∧
    ∃ k, (s.core s.cur).step = some k ∧ (5 < k.slim ∧ 1 * 2 ^ 13 + 5 < k.slim) := fun i h => by
  cases h with
  | head => exact ⟨by decide, by decide, fetchStep 0, by decide, by decide⟩
  | tail _ h => cases h with
    | head => exact ⟨by decide, by decide, fetchStep 0, by decide, by decide⟩
    | tail _ h => cases h

theorem test_hyp_stack : let s := at0 (.add w31)
    s.canIssue (hdSR (.add w31) w31 (some 1)) (fun cx => refS (rotS cx (w31.z == 1) w31.d.toNat) ++ refS (rotS cx (w31.z == 1) w31.a.toNat) ++
      refS (rotS cx (w31.z == 1) w31.b.toNat)) ∧ rotS (s.issueCtx 1) (w31.z == 1) w31.d.toNat = 31 ∧
    ∀ k, (s.core s.cur).step = some k → (0 : Word).toNat < k.slim ∨ k.sbase < (0 : Word).toNat :=
  ⟨by decide, by decide, fun k h => by cases h; decide⟩

theorem test_hyp_stack_immediate : let s := at0 (.addi ⟨1, 31, 31, 8⟩)
    s.canIssue (hdS (.addi ⟨1, 31, 31, 8⟩) 1 (some 1)) (fun _ => refS 31 ++ refS 31) ∧
    ∀ k, (s.core s.cur).step = some k → (0x140008 : Word).toNat < k.slim ∨ k.sbase < (0x140008 : Word).toNat :=
  ⟨by decide, fun k h => by cases h; decide⟩

theorem test_hyp_fpRounded : ∀ x ∈ (Claims.fpRounded w1).filter (fun x => x.2.2.1), (at0 x.1).canIssue (hdSR x.1 w1 (some x.2.1))
    (fun cx => refS (rotS cx (w1.z == 1) w1.d.toNat) ++ refS (rotS cx (w1.z == 1) w1.a.toNat) ++ refS (rotS cx (w1.z == 1) w1.b.toNat)) := by decide

theorem test_hyp_fpRounded_one : ∀ x ∈ (Claims.fpRounded ⟨1, 3, 1, 0, 0⟩).filter (fun x => !x.2.2.1), (at0 x.1).canIssue (hdSR x.1 ⟨1, 3, 1, 0, 0⟩ (some x.2.1))
    (fun cx => refS (rotS cx false 3) ++ refS (rotS cx false 1) ++ []) := by decide

theorem test_hyp_fpPattern : ∀ x ∈ (Claims.fpPattern w1).filter (fun x => x.2.1), (at0 x.1).canIssue (hdSR x.1 w1 (some 1))
    (fun cx => refS (rotS cx (w1.z == 1) w1.d.toNat) ++ refS (rotS cx (w1.z == 1) w1.a.toNat) ++ refS (rotS cx (w1.z == 1) w1.b.toNat)) := by decide

theorem test_hyp_fpPattern_one : ∀ x ∈ (Claims.fpPattern ⟨1, 3, 1, 0, 0⟩).filter (fun x => !x.2.1), (at0 x.1).canIssue (hdSR x.1 ⟨1, 3, 1, 0, 0⟩ (some 1))
    (fun cx => refS (rotS cx false 3) ++ refS (rotS cx false 1) ++ []) := by decide

theorem test_hyp_fcvt : (at0 (.fcvt w1)).canIssue (hdSR (.fcvt w1) w1 (some 3))
    (fun cx => refS (rotS cx (w1.z == 1) w1.d.toNat) ++ refS (rotS cx (w1.z == 1) w1.a.toNat)) := by decide

/-- s1 just below the end of the scratchpad. -/
def spTop (n : Nat) : Core → Core := sregs [(1, BitVec.ofNat 64 (0x200000 - 2 * n))]

theorem test_hyp_loads : ∀ x ∈ ([(.ldsB wi, 1, true), (.ldsBu wi, 1, false), (.ldsH wi, 2, true), (.ldsHu wi, 2, false), (.ldsW wi, 4, true),
      (.ldsWu wi, 4, false), (.ldsD wi, 8, false)] : List (Instr × Nat × Bool)),
    let s := at0 x.1 (spTop x.2.1)
    let ea := ((readS (s.issueCore 1) (s.issueCtx 1) 1).1 + BitVec.ofInt 64 (wi.imm.toInt * x.2.1)).toNat
    s.canIssue (hdS x.1 wi.idle (some 4)) (fun _ => refS wi.d.toNat ++ refS wi.a.toNat) ∧
    (readS (s.issueCore 1) (s.issueCtx 1) 1).2 = false ∧ ea = 0x200000 - x.2.1 ∧ ea % x.2.1 = 0 ∧
    (∀ g ∈ granRange ea x.2.1, (s.core 0).isEmpty g = false) ∧ (s.core 0).ue = [] ∧ (s.core 0).ce = [] := by decide

theorem test_hyp_stores : ∀ x ∈ ([(.stsB wi, 1), (.stsH wi, 2), (.stsW wi, 4), (.stsD wi, 8)] : List (Instr × Nat)),
    let s := at0 x.1 (sregs [(1, BitVec.ofNat 64 (0x50000 - x.2))])
    s.canIssue (hdS x.1 wi.idle none) (fun _ => refS wi.d.toNat ++ refS wi.a.toNat) ∧
    (readS (s.issueCore 1) (s.issueCtx 1) 1).2 = false ∧ (readS (s.issueCore 1) (s.issueCtx 1) 3).2 = false ∧
    ((readS (s.issueCore 1) (s.issueCtx 1) 1).1 + BitVec.ofInt 64 (wi.imm.toInt * x.2)).toNat = 0x50000 ∧
    (∀ r ∈ s.protRanges s.cur, ¬(r.1 ≤ 0x50000 ∧ 0x50000 < r.1 + r.2)) ∧ (∀ g ∈ granRange 0x50000 x.2, (s.core 0).isEmpty g = false) ∧
    ∀ g ∈ granRange 0x50000 x.2, (g ∈ (s.core 0).opn.rset → g ∈ (s.core 0).opn.wset) ∧
      ∀ r ∈ (s.core 0).closing, g ∈ r.rset → g ∈ r.wset := by decide

theorem test_hyp_access_poison : let s := at0 (.ldsD wi) (poisoned 1)
    s.canIssue (hdS (.ldsD wi) 1 (some 4)) (fun _ => refS 3 ++ refS 1) ∧ (readS (s.issueCore 1) (s.issueCtx 1) 1).2 = true := by decide

theorem test_hyp_access_range : let s := at0 (.stsD wi) (sregs [(1, 0x1FFFF8)])
    s.canIssue (hdS (.stsD wi) 1 none) (fun _ => refS 3 ++ refS 1) ∧ (readS (s.issueCore 1) (s.issueCtx 1) 1) = (0x1FFFF8, false) ∧
    0x200000 ≤ ((0x1FFFF8 : Word) + BitVec.ofInt 64 (wi.imm.toInt * 8)).toNat := by decide

theorem test_hyp_access_misaligned : let s := at0 (.ldsW wi) (sregs [(1, 2)])
    s.canIssue (hdS (.ldsW wi) 1 (some 4)) (fun _ => refS 3 ++ refS 1) ∧ (readS (s.issueCore 1) (s.issueCtx 1) 1) = (2, false) ∧
    ((2 : Word) + BitVec.ofInt 64 (wi.imm.toInt * 4)).toNat % 4 ≠ 0 := by decide

theorem test_hyp_store_protected : let s := at0 (.stsD wi) (sregs [(1, 0x3FFF0)])
    s.canIssue (hdS (.stsD wi) 1 none) (fun _ => refS 3 ++ refS 1) ∧ (readS (s.issueCore 1) (s.issueCtx 1) 1) = (0x3FFF0, false) ∧
    ((0x3FFF0 : Word) + BitVec.ofInt 64 (wi.imm.toInt * 8)).toNat = 0x3FFF8 ∧ (0, 0x40000) ∈ s.protRanges s.cur := by decide

theorem test_hyp_store_poison : let s := at0 (.stsD wi) (fun c => poisoned 3 (sregs [(1, 0x4FFF8)] c))
    s.canIssue (hdS (.stsD wi) 1 none) (fun _ => refS 3 ++ refS 1) ∧ (readS (s.issueCore 1) (s.issueCtx 1) 1) = (0x4FFF8, false) ∧
    (readS (s.issueCore 1) (s.issueCtx 1) 3).2 = true ∧ ∀ r ∈ s.protRanges s.cur, ¬(r.1 ≤ 0x50000 ∧ 0x50000 < r.1 + r.2) := by decide

theorem test_hyp_store_idempotence : let s := at0 (.stsD wi) (fun c => { sregs [(1, 0x4FFF8)] c with opn := { c.opn with rset := [0x1400] } })
    s.canIssue (hdS (.stsD wi) 1 none) (fun _ => refS 3 ++ refS 1) ∧ (readS (s.issueCore 1) (s.issueCtx 1) 1) = (0x4FFF8, false) ∧
    (readS (s.issueCore 1) (s.issueCtx 1) 3).2 = false ∧ (∀ r ∈ s.protRanges s.cur, ¬(r.1 ≤ 0x50000 ∧ 0x50000 < r.1 + r.2)) ∧
    (∀ g ∈ granRange 0x50000 8, (s.core 0).isEmpty g = false) ∧ 0x50000 / 64 ∈ (s.core 0).opn.rset ∧ 0x50000 / 64 ∉ (s.core 0).opn.wset := by decide

theorem test_hyp_csrr : let s := at0 (.csrr ⟨1, 3, 0x082⟩)
    (s.core s.cur).step = some (fetchStep 0) ∧ (0x082, 1) ∈ Claims.csrMap (s.issueCore 1) (fetchStep 0) ∧
    s.canIssue (hdS (.csrr ⟨1, 3, 0x082⟩) 1 (some 1)) (fun _ => refS 3) := by decide +kernel

theorem test_hyp_csrw : ∀ x ∈ ([(.csrw ⟨1, 3, 0x031⟩, 1), (.csrs ⟨1, 3, 0x031⟩, 3), (.csrc ⟨1, 3, 0x031⟩, 2)] : List (Instr × Word)),
    let s := at0 x.1 (sregs [(3, 1)])
    (s.core s.cur).step = some (fetchStep 0) ∧ (0x031, 3) ∈ Claims.csrMap (s.issueCore 1) (fetchStep 0) ∧
    s.canIssue (hdS x.1 1 none) (fun _ => refS 3) ∧ readS (s.issueCore 1) (s.issueCtx 1) 3 = (1, false) := by decide +kernel

theorem test_hyp_csrw_legal : ∀ v ∈ ([1, 3, 2] : List Nat), ¬Claims.csrBad 0x031 (BitVec.ofNat 64 v) := by unfold Claims.csrBad; decide +kernel

theorem test_hyp_csr_ignored : 0x082 ∉ (Claims.csrRw {}).map (·.1) := by decide

def wb : SBWord := ⟨1, 0, 3, 4⟩

theorem test_hyp_branch : let s := at0 (.br wb)
    s.canIssue (hdS (.br wb) 1 none) (fun _ => refS 3) ∧ readS (s.issueCore 1) (s.issueCtx 1) 3 = (0, false) ∧ Claims.taken 0 (0, false) ∧
    Claims.goodTarget (s.core s.cur) (BitVec.ofInt 64 ((s.core s.cur).pc + 4 * wb.off.toInt)) :=
  ⟨by decide, by decide, by unfold Claims.taken; decide, by decide, fetchStep 0, by decide, by decide, by decide⟩

theorem test_hyp_branch_untaken : let s := at0 (.br ⟨1, 1, 3, 4⟩)
    s.canIssue (hdS (.br ⟨1, 1, 3, 4⟩) 1 none) (fun _ => refS 3) ∧ readS (s.issueCore 1) (s.issueCtx 1) 3 = (0, false) ∧ ¬Claims.taken 1 (0, false) :=
  ⟨by decide, by decide, by unfold Claims.taken; decide⟩

theorem test_hyp_branch_poison : let s := at0 (.br wb) (poisoned 3)
    s.canIssue (hdS (.br wb) 1 none) (fun _ => refS 3) ∧ (readS (s.issueCore 1) (s.issueCtx 1) 3).2 = true ∧ wb.cond.toNat ≠ 7 := by decide

theorem test_hyp_jmp : let s := at0 (.jmp ⟨1, 0xFFFF⟩)
    s.canIssue (hdS (.jmp ⟨1, 0xFFFF⟩) 1 none) (fun _ => []) ∧
    Claims.goodTarget (s.core s.cur) (BitVec.ofInt 64 ((s.core s.cur).pc + 4 * (0xFFFF : BitVec 19).toInt)) :=
  ⟨by decide, by decide, fetchStep 0, by decide, by decide, by decide⟩

theorem test_hyp_jmpr : let s := at0 (.jmpr ⟨1, 0, 3, 0, 0⟩) (sregs [(3, 0x3FFFC)])
    s.canIssue (hdSR (.jmpr ⟨1, 0, 3, 0, 0⟩) ⟨1, 0, 3, 0, 0⟩ none) (fun cx => refS (rotS cx false 3)) ∧
    readS (s.issueCore 1) (s.issueCtx 1) 3 = (0x3FFFC, false) ∧ Claims.goodTarget (s.core s.cur) 0x3FFFC :=
  ⟨by decide, by decide, by decide, fetchStep 0, by decide, by decide, by decide⟩

theorem test_hyp_jmpr_poison : let s := at0 (.jmpr ⟨1, 0, 3, 0, 0⟩) (poisoned 3)
    s.canIssue (hdSR (.jmpr ⟨1, 0, 3, 0, 0⟩) ⟨1, 0, 3, 0, 0⟩ none) (fun cx => refS (rotS cx false 3)) ∧
    (readS (s.issueCore 1) (s.issueCtx 1) 3).2 = true := by decide

theorem test_hyp_transfer_misaligned : let s := at0 (.jmpr ⟨1, 0, 3, 0, 0⟩) (sregs [(3, 0x40002)])
    s.canIssue (hdSR (.jmpr ⟨1, 0, 3, 0, 0⟩) ⟨1, 0, 3, 0, 0⟩ none) (fun cx => refS (rotS cx false 3)) ∧
    readS (s.issueCore 1) (s.issueCtx 1) 3 = (0x40002, false) ∧ (0x40002 : Word).toNat % 4 ≠ 0 := by decide

theorem test_hyp_transfer_outside : let s := at0 (.jmp ⟨1, 0x10000⟩)
    s.canIssue (hdS (.jmp ⟨1, 0x10000⟩) 1 none) (fun _ => []) ∧
    BitVec.ofInt 64 ((s.core s.cur).pc + 4 * (0x10000 : BitVec 19).toInt) = 0x40000 ∧ (0x40000 : Word).toNat % 4 = 0 ∧
    ¬Claims.goodTarget (s.core s.cur) 0x40000 :=
  ⟨by decide, by decide, by decide, fun ⟨_, i, h, _, k⟩ => by cases h; exact absurd k (by decide)⟩

theorem test_hyp_call : let s := at0 (.call ⟨1, 4⟩)
    Claims.goodTarget (s.core s.cur) (BitVec.ofInt 64 ((s.core s.cur).pc + 4 * (4 : BitVec 19).toInt)) ∧
    s.canIssue (hdS (.call ⟨1, 4⟩) 1 none) (fun _ => [.s 31]) ∧ (s.core 0).arch.s[31].psn = false ∧
    stackBad (s.core 0) ((s.core 0).arch.s[31].val - 8) = false ∧ (s.core 0).arch.s[31].val - 8 = 0x13FFF8 ∧
    (∀ r ∈ s.protRanges s.cur, ∀ k < 8, ¬(r.1 ≤ 0x13FFF8 + k ∧ 0x13FFF8 + k < r.1 + r.2)) ∧
    (∀ g ∈ granRange 0x13FFF8 8, (s.core 0).isEmpty g = false) ∧
    ∀ g ∈ granRange 0x13FFF8 8, (g ∈ (s.core 0).opn.rset → g ∈ (s.core 0).opn.wset) ∧ ∀ r ∈ (s.core 0).closing, g ∈ r.rset → g ∈ r.wset :=
  ⟨⟨by decide +kernel, fetchStep 0, by decide +kernel⟩, by decide +kernel⟩

/-- The core's stack reaches down to address 0, and sp stands at `sp`. -/
def lowStack (sp : Word) (c : Core) : Core := { sregs [(31, sp)] c with step := some { fetchStep 0 with slim := 0 } }

theorem test_hyp_call_protected : let s := at0 (.call ⟨1, 4⟩) (lowStack 0x40000)
    Claims.goodTarget (s.core s.cur) (BitVec.ofInt 64 ((s.core s.cur).pc + 4 * (4 : BitVec 19).toInt)) ∧
    s.canIssue (hdS (.call ⟨1, 4⟩) 1 none) (fun _ => [.s 31]) ∧ (s.core 0).arch.s[31].psn = false ∧
    stackBad (s.core 0) ((s.core 0).arch.s[31].val - 8) = false ∧ (s.core 0).arch.s[31].val - 8 = 0x3FFF8 ∧
    (0, 0x40000) ∈ s.protRanges s.cur :=
  ⟨⟨by decide +kernel, { fetchStep 0 with slim := 0 }, by decide +kernel⟩, by decide +kernel⟩

theorem test_hyp_ret_outside : let s := at0 (.ret ⟨1, 0, 0, 0, 0⟩) (lowStack 0xFFFFFFFFFFFFFFF8)
    s.canIssue (hdSR (.ret ⟨1, 0, 0, 0, 0⟩) ⟨1, 0, 0, 0, 0⟩ none) (fun _ => [.s 31]) ∧ (s.core 0).arch.s[31].psn = false ∧
    stackBad (s.core 0) ((s.core 0).arch.s[31].val + 8) = false ∧ (s.core 0).arch.s[31].val.toNat % 8 = 0 ∧
    0x200000 ≤ (s.core 0).arch.s[31].val.toNat := by decide +kernel

theorem test_hyp_callr : let s := at0 (.callr ⟨1, 0, 3, 0, 0⟩) (sregs [(3, 0x100)])
    s.canIssue (hdSR (.callr ⟨1, 0, 3, 0, 0⟩) ⟨1, 0, 3, 0, 0⟩ none) (fun cx => .s 31 :: refS (rotS cx false 3)) ∧
    readS (s.issueCore 1) (s.issueCtx 1) 3 = (0x100, false) ∧ Claims.goodTarget (s.core s.cur) 0x100 :=
  ⟨by decide +kernel, by decide +kernel, by decide +kernel, fetchStep 0, by decide +kernel⟩

theorem test_hyp_ret : let s := at0 (.ret ⟨1, 0, 0, 0, 0⟩) (sregs [(31, 0x13FFF8)])
    Claims.goodTarget (s.core s.cur) (BitVec.ofNat 64 (Memory.val (s.core 0).spad 0x13FFF8 8)) ∧
    s.canIssue (hdSR (.ret ⟨1, 0, 0, 0, 0⟩) ⟨1, 0, 0, 0, 0⟩ none) (fun _ => [.s 31]) ∧ (s.core 0).arch.s[31].psn = false ∧
    stackBad (s.core 0) ((s.core 0).arch.s[31].val + 8) = false ∧ (s.core 0).arch.s[31].val.toNat % 8 = 0 ∧
    (∀ g ∈ granRange 0x13FFF8 8, (s.core 0).isEmpty g = false) ∧ (s.core 0).ue = [] ∧ (s.core 0).ce = [] :=
  ⟨⟨by decide +kernel, fetchStep 0, by decide +kernel⟩, by decide +kernel⟩

theorem test_hyp_nop : (at0 (.nop ⟨1, 0xFFFF⟩)).canIssue { hdS (.nop ⟨1, 0xFFFF⟩) 1 none with gap := 0xFFFF } (fun _ => []) := by decide

theorem test_hyp_waitt : ∀ u ∈ ([1, 2] : List Nat), let s := at0 (.waitt ⟨1, 0, 3, 0, 0⟩) (sregs [(3, BitVec.ofNat 64 u)])
    s.canIssue (hdSR (.waitt ⟨1, 0, 3, 0, 0⟩) ⟨1, 0, 3, 0, 0⟩ none) (fun cx => refS (rotS cx false 3)) ∧
    readS (s.issueCore 1) (s.issueCtx 1) 3 = (BitVec.ofNat 64 u, false) ∧ (s.issueCore 1).dt = 1 := by decide

theorem test_hyp_check : let s := at0 (.check ⟨1, 2, 3, 48, 0⟩)
    s.canIssue (hdSR (.check ⟨1, 2, 3, 48, 0⟩) ⟨1, 2, 3, 48, 0⟩ none) (fun _ => refV 2 ++ refS 3 ++ refS 48) ∧
    (readV (s.issueCore 1) (s.issueCtx 1) 2 0).2 = 0 ∧ (readS (s.issueCore 1) (s.issueCtx 1) 3).2 = false ∧
    (readS (s.issueCore 1) (s.issueCtx 1) 48).2 = false := by decide +kernel

theorem test_hyp_waitt_poison : let s := at0 (.waitt ⟨1, 0, 3, 0, 0⟩) (poisoned 3)
    s.canIssue (hdSR (.waitt ⟨1, 0, 3, 0, 0⟩) ⟨1, 0, 3, 0, 0⟩ none) (fun cx => refS (rotS cx false 3)) ∧
    (readS (s.issueCore 1) (s.issueCtx 1) 3).2 = true := by decide

/-- Lanes 5 and 63 of v2 are poisoned, and so is s3. -/
def lanes2 (c : Core) : Core := poisoned 3 (regs (fun a => a.setV 2 (a.v[2].lanes, 2 ^ 63 + 2 ^ 5)) c)

theorem test_hyp_check_poison : let s := at0 (.check ⟨1, 2, 3, 48, 0⟩) lanes2
    s.canIssue (hdSR (.check ⟨1, 2, 3, 48, 0⟩) ⟨1, 2, 3, 48, 0⟩ none) (fun _ => refV 2 ++ refS 3 ++ refS 48) ∧
    (readV (s.issueCore 1) (s.issueCtx 1) 2 0).2 = 2 ^ 63 + 2 ^ 5 ∧ (2 ^ 63 + 2 ^ 5 : LMask).getLsbD 5 = true ∧
    (∀ j < 5, (2 ^ 63 + 2 ^ 5 : LMask).getLsbD j = false) ∧ (readS (s.issueCore 1) (s.issueCtx 1) 3).2 = true := by decide +kernel

theorem test_hyp_check_scalar : ∀ w ∈ ([⟨1, 48, 3, 48, 0⟩, ⟨1, 48, 48, 3, 0⟩] : List SRWord), let s := at0 (.check w) (poisoned 3)
    s.canIssue (hdSR (.check w) w none) (fun _ => refS w.a.toNat ++ refS w.b.toNat) ∧
    (readS (s.issueCore 1) (s.issueCtx 1) 3).2 = true ∧ (readS (s.issueCore 1) (s.issueCtx 1) 48).2 = false := by decide +kernel

/-- LOOP with one body word, a NOP, and trip count `t`. -/
def loop1 (t : Word) : State := at0 (.loop ⟨1, 3, 0, 1, 0⟩) (fun c => sregs [(3, t)] { c with
  spad := Memory.write c.spad 4 (leBytes 4 (encode (.nop ⟨1, 0⟩))) })

theorem test_hyp_loop : ∀ t ∈ ([0, 2] : List Nat), let s := loop1 (BitVec.ofNat 64 t)
    let c := s.issueCore 1
    s.canIssue (hdS (.loop ⟨1, 3, 0, 1, 0⟩) 1 none) (fun _ => refS 3) ∧ bodyOutside c 1 (c.pc + 4) = none ∧
    (∀ x ∈ (bodyAddrs c 1 (c.pc + 4)).1, bodyTrap c s.cur 1 x = none) ∧ (∃ x ∈ (bodyAddrs c 1 (c.pc + 4)).1, 0 < bodyGap c x) ∧
    readS c (s.issueCtx 1) 3 = (BitVec.ofNat 64 t, false) := by decide +kernel

def wq : SQWord := ⟨1, 0, 4, 3, 0, 0⟩

theorem test_hyp_loopr : let s := at0 (.loopr wq)
    s.canIssue { hdS (.loopr wq) 1 none with extra := fun _ c => match looprFail c.arch.loop wq with
      | some low => [(low, true)]
      | none => [] } (fun _ => []) ∧ (s.core 0).arch.loop.active = false := by decide

/-- The place of a kernel: one word to go, the next iteration, the end. -/
theorem test_hyp_kernel : ∀ x ∈ ([(0, 0, 2), (1, 0, 2), (1, 1, 2)] : List (Nat × Nat × Nat)),
    let s := at0 (.nop ⟨1, 0⟩) (inLoop { active := true, body := 0, trip := x.2.2, n := x.2.2, j := x.2.1, k := x.1, len := 2, stages := 1 })
    s.canIssue { hdS (.nop ⟨1, 0⟩) 1 none with gap := 0 } (fun _ => []) ∧ (s.core 0).arch.loop.active = true := by decide

def va1 : VAWord := ⟨1, 3, 1, 2, 0, 0, 0, 0, 6, 0, 1, 0⟩

theorem test_hyp_inactive : let s := at0 (.vadd va1) (inLoop { active := true, trip := 2, n := 3, len := 1, stages := 2 })
    (s.core 0).step.isSome = true ∧ (s.core 0).ended = false ∧ (s.core 0).owe = none ∧ (s.core 0).arch.loop.activeFor va1.stage.toNat = false := by decide

theorem test_hyp_regionEnds : ∀ x ∈ ([(.commit ⟨1, 0, 0, 0, 0⟩), (.commitRel ⟨1, 1, 4⟩), (.ends ⟨1, 0, 0, 0, 0⟩)] : List Instr),
    let s := at0 x
    s.canIssue (hdS x 1 none) (fun _ => []) ∧ (s.core 0).arch.loop.active = false ∧ (s.issueCore 1).copyWaits = [] ∧
    (s.atIssue 1).quadEnds s.cur (s.issueCore 1).clock = true ∧ (s.core 0).trap = none := by decide

/-! ### Hypotheses of the statements about vector words -/

/-- A VA-form word with idle count 1 under k0. -/
def va (d a b c ty rnd imm : Nat) : VAWord :=
  ⟨1, .ofNat 8 d, .ofNat 8 a, .ofNat 8 b, .ofNat 8 c, 0, 0, .ofNat 4 ty, .ofNat 3 rnd, 0, 0, .ofNat 33 imm⟩

/-- A VM-form word with idle count 1 under k0. -/
def vm (v base stride c ty rnd off : Nat) : VMWord :=
  ⟨1, .ofNat 8 v, .ofNat 8 base, .ofNat 8 stride, .ofNat 8 c, 0, 0, .ofNat 4 ty, .ofNat 3 rnd, 0, 0, 0, 0, .ofNat 23 off⟩

/-- Every word of a list can issue with one of some sets of fields. -/
def someIssue {α : Type} (l : VAWord → List (Instr × α)) (n : Nat) (lat : α → Option (Bool × Nat)) (rs : VAWord → α → Ctx → List Ref)
    (ws : List VAWord) : Bool :=
  (List.range n).all (fun k => ws.any (fun w => match (l w)[k]? with
    | some x => decide ((at0 x.1).canIssue (hdVA x.1 w (lat x.2)) (rs w x.2))
    | none => false))

theorem test_hyp_floatLanes : someIssue Claims.floatLanes 16 (fun x => some (true, x.1)) (fun w x => Claims.vaRegs w true x.2.1 x.2.2.1)
    [va 3 1 2 0 4 6 0, va 3 1 2 0 4 0 0, va 3 1 2 5 4 6 0, va 3 1 0 0 4 6 0, va 3 1 0 0 4 0 0, va 3 1 0 0 5 6 0] = true := by decide +kernel

theorem test_hyp_intLanes : someIssue Claims.intLanes 14 (fun x => some (true, x.1)) (fun w x => Claims.vaRegs w true x.2.1 x.2.2.1)
    [va 3 1 2 0 3 0 0, va 3 1 2 5 3 0 0, va 3 1 0 0 0 0 0] = true := by decide +kernel

theorem test_hyp_compare : someIssue (fun w => [(.vcmp w, 4), (.vicmp w, 3)]) 2 (fun _ => none) (fun w _ cx => refV (w.ka cx) ++ refV (w.kb cx))
    [va 1 1 2 0 4 0 7, va 1 1 2 0 3 0 7] = true := by decide +kernel

theorem test_hyp_vsel : (at0 (.vsel (va 3 1 2 1 4 0 0))).canIssue (hdVA (.vsel (va 3 1 2 1 4 0 0)) (va 3 1 2 1 4 0 0) (some (true, 2)))
    (fun cx => refV ((va 3 1 2 1 4 0 0).kd cx) ++ refV ((va 3 1 2 1 4 0 0).ka cx) ++ refV ((va 3 1 2 1 4 0 0).kb cx)) := by decide +kernel

theorem test_hyp_moves : someIssue Claims.moved 4 (fun _ => some (true, 4)) (fun _ x => x.1)
    [va 3 1 2 0 0 0 0, va 3 1 0 0 0 0 0, va 3 0 0 0 0 0 0] = true := by decide +kernel

theorem test_hyp_vcomp : (at0 (.vcomp (va 3 1 0 0 0 0 0))).canIssue (hdVA (.vcomp (va 3 1 0 0 0 0 0)) (va 3 1 0 0 0 0 0) (some (true, 4)))
    (Claims.vaRegs (va 3 1 0 0 0 0 0) true false false) := by decide +kernel

theorem test_hyp_vext : let w := va 3 1 2 0 0 0 0x7F
    (at0 (.vext w)).canIssue (hdVA (.vext w) w (some (false, 2))) (fun cx => refS (w.sd cx) ++ refV (w.ka cx) ++ refS (w.sb cx)) := by decide +kernel

theorem test_hyp_vins : let w := va 3 1 2 0 0 0 0x3F
    (at0 (.vins w)).canIssue (hdVA (.vins w) w (some (true, 2))) (fun cx => refV (w.kd cx) ++ refS (w.sa cx) ++ refS (w.sb cx)) := by decide +kernel

/-- Lanes 0 to 4 of v1 hold a pattern; the rest is zero. -/
def pat (x : BitVec 160) : Core → Core := 
  let r : VReg := { lanes := Vector.ofFn (fun i => if i.val < 5 then x.extractLsb' (32 * i.val) 32 else 0) }
  regs (fun a => { a with v := a.v.setIfInBounds 1 r })

/-- One start bit at 0 with groups of 8 bits and fields of 8 bits; and the empty pattern, which is not legal. -/
theorem test_hyp_vmovToPattern : ∀ y ∈ ([(1 + 7 * 2 ^ 128 + 7 * 2 ^ 136, true), (0, false)] : List (Nat × Bool)),
    let w := va 1 1 0 0 0 0 1
    let s := at0 (.vmovToPattern w) (pat (BitVec.ofNat 160 y.1))
    let a := readV (s.issueCore 1) (s.issueCtx 1) (w.ka (s.issueCtx 1)) 0
    s.canIssue (hdVA (.vmovToPattern w) w none) (fun cx => refV (w.ka cx)) ∧
    patLegal (BitVec.ofNat 160 (a.1[0].toNat + a.1[1].toNat * 2 ^ 32 + a.1[2].toNat * 2 ^ 64 + a.1[3].toNat * 2 ^ 96 + a.1[4].toNat * 2 ^ 128)) = y.2 := by
  decide +kernel

theorem test_hyp_vmovFromPattern : let w := va 3 1 0 0 0 0 2
    (at0 (.vmovFromPattern w)).canIssue (hdVA (.vmovFromPattern w) w (some (true, 1))) (fun cx => refV (w.kd cx)) := by decide +kernel

/-- A sum of INT32 lanes; and no lane selected, where the tree has no result. -/
theorem test_hyp_vred : ∀ k ∈ ([0, 1] : List Nat), let w : VAWord := { va 3 1 0 0 3 0 0 with mask := BitVec.ofNat 3 k }
    let s := at0 (.vred w)
    s.canIssue (hdVA (.vred w) w (some (true, 12))) (Claims.vaRegs w true false false) ∧ w.ty = 3 ∧ w.imm.toNat % 4 = 0 ∧
    (readK (s.issueCore 1) w.mask.toNat).bits = if k = 0 then BitVec.allOnes 64 else 0 := by decide +kernel

theorem test_hyp_vscan : let w := va 3 1 0 0 3 0 0
    (at0 (.vscan w)).canIssue (hdVA (.vscan w) w (some (true, 14))) (fun cx => refV (w.kd cx) ++ refV (w.ka cx)) := by decide +kernel

theorem test_hyp_masks : someIssue (fun w => [(.kand w, ()), (.kor w, ()), (.kxor w, ()), (.knot w, ()), (.kmov w, ())]) 5 (fun _ => none) (fun _ _ _ => [])
    [va 1 2 3 0 0 0 0, va 1 2 0 0 0 0 0] = true := by decide +kernel

theorem test_hyp_kmovFromScalar : let w := va 1 2 0 0 0 0 1
    (at0 (.kmovFromScalar w)).canIssue (hdVA (.kmovFromScalar w) w none) (fun cx => refS (w.sa cx)) := by decide +kernel

theorem test_hyp_kmovToScalar : someIssue (fun w => [(.kmovToScalar w, 1), (.kpop w, 2)]) 2 (fun x => some (false, x)) (fun w _ cx => refS (w.sd cx))
    [va 3 1 0 0 0 0 2, va 3 1 0 0 0 0 0] = true := by decide +kernel

/-- Every core of the quad is clean. -/
theorem test_hyp_vld : ∀ x ∈ ([(.vld (vm 3 1 48 0 4 0 0), 8, false), (.vldx (vm 3 1 48 2 4 0 0), 40, true)] : List (Instr × Nat × Bool)),
    let w := vm 3 1 48 (if x.2.2 then 2 else 0) 4 0 0
    let s := at0 x.1 (sregs [(1, 0x50000)])
    let c := s.issueCore 1
    let cx := s.issueCtx 1
    let m := readK c 0
    let ix := if x.2.2 then some (readV c cx (w.kidx cx) 0) else none
    let segs := (laneAddrs c cx w m.bits ix).map (fun y => laneRange 4 y.2)
    s.canIssue (hdVM x.1 w (some (true, x.2.1)))
      (fun cx => refV (w.kv cx) ++ refS (w.kbase cx) ++ refS (w.kstride cx) ++ (if x.2.2 then refV (w.kidx cx) else [])) ∧
    vmPoison c cx w m ix false = none ∧ alignTrap 4 segs = none ∧ loadTrap (s.atIssue 1) s.cur segs = none ∧
    ∀ k < 4, (s.core (quadMember s.cur k)).ue = [] ∧ (s.core (quadMember s.cur k)).ce = [] := by decide +kernel

theorem test_hyp_vst : ∀ x ∈ ([(.vst (vm 3 1 48 0 4 0 0), false), (.vstx (vm 3 1 48 2 4 0 0), true)] : List (Instr × Bool)),
    let w := vm 3 1 48 (if x.2 then 2 else 0) 4 0 0
    let s := at0 x.1 (sregs [(1, 0x50000)])
    let c := s.issueCore 1
    let cx := s.issueCtx 1
    let m := readK c 0
    let ix := if x.2 then some (readV c cx (w.kidx cx) 0) else none
    let segs := (laneAddrs c cx w m.bits ix).map (fun y => laneRange 4 y.2)
    s.canIssue (hdVM x.1 w none)
      (fun cx => refV (w.kv cx) ++ refS (w.kbase cx) ++ refS (w.kstride cx) ++ (if x.2 then refV (w.kidx cx) else [])) ∧
    vmPoison c cx w m ix true = none ∧ alignTrap 4 segs = none ∧
    storeTrap (s.atIssue 1) s.cur segs (dataTrap (w.kv cx) m.bits (readV c cx (w.kv cx) 0).2) = none := by decide +kernel

theorem test_hyp_vxpl : let w := vm 3 1 0 1 3 0 0
    let s := at0 (.vxpl w) (regs (fun a => { a.setS 1 0x50000 false with x := a.x.setIfInBounds 1 ⟨BitVec.ofNat 160 (1 + 7 * 2 ^ 128 + 7 * 2 ^ 136), 0⟩ }))
    let c := s.issueCore 1
    s.canIssue (hdVM (.vxpl w) w (some (true, 12))) (fun cx => refV (w.kv cx) ++ refS (w.kbase cx)) ∧
    (readS c (s.issueCtx 1) (w.kbase (s.issueCtx 1))).2 = false ∧ (c.xreg 1).psn = 0 ∧ patLegal (c.xreg 1).bits = true ∧
    loadTrap (s.atIssue 1) s.cur ((List.range 64).map (fun k => (0x50000 + k, 1))) = none ∧
    ∀ k < 4, (s.core (quadMember s.cur k)).ue = [] ∧ (s.core (quadMember s.cur k)).ce = [] := by decide +kernel

theorem test_hyp_vldb : let w := vm 3 1 0 2 9 0 0
    let s := at0 (.vldb w) (sregs [(1, 0x50000), (2, 0x60000)])
    let c := s.issueCore 1
    let cx := s.issueCtx 1
    let segs := (bxBlocks (readK c 0).bits).flatMap (fun b => [((0x50000 + bxSize 9 * b) % 2 ^ 23, bxSize 9), ((0x60000 + 3 * b) % 2 ^ 23, 3)])
    s.canIssue (hdVM (.vldb w) w (some (true, 12))) (fun cx => refV (w.kv cx) ++ refS (w.kbase cx) ++ refS (w.khdr cx)) ∧
    readS c cx (w.kbase cx) = (0x50000, false) ∧ readS c cx (w.khdr cx) = (0x60000, false) ∧ loadTrap (s.atIssue 1) s.cur segs = none ∧
    (∀ k < 4, (s.core (quadMember s.cur k)).ue = [] ∧ (s.core (quadMember s.cur k)).ce = []) ∧
    ∀ k < 4, (bxHeader (s.quadVal s.cur ((0x60000 + 3 * k) % 2 ^ 23) 3)).2.2 = (0, false) := by decide +kernel

theorem test_hyp_vstb : let w := vm 3 1 0 2 9 6 0
    let s := at0 (.vstb w) (sregs [(1, 0x50000), (2, 0x60000)])
    let c := s.issueCore 1
    let cx := s.issueCtx 1
    let segs := (bxBlocks (readK c 0).bits).flatMap (fun b => [((0x50000 + bxSize 9 * b) % 2 ^ 23, bxSize 9), ((0x60000 + 3 * b) % 2 ^ 23, 3)])
    s.canIssue (hdVM (.vstb w) w none) (fun cx => refV (w.kv cx) ++ refS (w.kbase cx) ++ refS (w.khdr cx)) ∧
    readS c cx (w.kbase cx) = (0x50000, false) ∧ readS c cx (w.khdr cx) = (0x60000, false) ∧ (readK c 0).psn = 0 ∧
    storeTrap (s.atIssue 1) s.cur segs (dataTrap (w.kv cx) (readK c 0).bits (readV c cx (w.kv cx) 0).2) = none := by decide +kernel

/-- A deferral ring of 2,048 bytes at 0x50000. -/
def ring0 (tail : Word) : Core → Core := regs (fun a => { a with csr := { a.csr with dqbase := 0x50000, dqlim := 0x50800, dqhead := 0x50000, dqtail := tail } })

theorem test_hyp_vdefer : let w := va 0 1 2 0 0 0 0xFFFF
    let s := at0 (.vdefer w) (ring0 0x50000)
    let segs := (List.range 64).map (fun e => (0x50000 + 16 * e, 16))
    s.canIssue (hdVA (.vdefer w) w none) (fun cx => refV (w.ka cx) ++ refV (w.kb cx)) ∧ setBits (readK (s.issueCore 1) 0).bits = List.range 64 ∧
    (readK (s.issueCore 1) 0).psn = 0 ∧ dqBad (s.issueCore 1).arch.csr = none ∧ protTrap (s.atIssue 1) s.cur segs = none ∧
    (readV (s.issueCore 1) (s.issueCtx 1) 1 0).2 = 0 ∧ (readV (s.issueCore 1) (s.issueCtx 1) 2 0).2 = 0 ∧
    emptyCheck (s.atIssue 1) s.cur (granSegs segs) = none ∧ writeCheck (s.atIssue 1) s.cur segs = none := by decide +kernel

theorem test_hyp_vdrain : let w := va 3 1 2 1 0 0 0
    let s := at0 (.vdrain w) (ring0 0x50010)
    s.canIssue { hdVA (.vdrain w) w (some (true, 8)) with pushes := 3 } (fun cx => refV (w.kd cx) ++ refV (w.ka cx) ++ refV (w.kb cx)) ∧
    dqBad (s.issueCore 1).arch.csr = none ∧ emptyCheck (s.atIssue 1) s.cur (granSegs [(0x50000, 16)]) = none ∧
    (s.core 0).ue = [] ∧ (s.core 0).ce = [] := by decide +kernel

/-! ### Hypotheses of the statements about global memory, the control die and traps -/

/-- The core's TLB maps the first GiB of its address space to the start of memory, for every access. -/
def mapped (c : Core) : Core := { c with tlb := [⟨0, 0, 0x40000000, 0, 0x3F, 0, 0⟩] }

/-- An SG-form word on s3 and s1. -/
def wg : SGWord := ⟨1, 3, 1, 2, 0, 0⟩

theorem test_hyp_ldg : ∀ i ∈ ([.ldgW wg, .ldgWu wg, .ldgD wg, .ldgS wg] : List Instr), let s := at0 i (fun c => mapped (sregs [(1, 0x3FFFFFF8)] c))
    s.canIssue (mkHead i 1 false 0 none) (fun cx => refS (rotS cx false 3) ++ refS (rotS cx false 1)) ∧
    readS (s.issueCore 1) (s.issueCtx 1) 1 = (0x3FFFFFF8, false) ∧ ((s.atIssue 1).translateAll s.cur [(0x3FFFFFF8, 0)]).getRight? = some [0x3FFFFFF8] :=
  by decide +kernel

theorem test_hyp_stg : ∀ i ∈ ([.stgW wg, .stgD wg] : List Instr), let s := at0 i (fun c => mapped (sregs [(1, 0x3FFFFFF8)] c))
    s.canIssue (mkHead i 1 false 0 none) (fun cx => refS (rotS cx false 3) ++ refS (rotS cx false 1)) ∧
    readS (s.issueCore 1) (s.issueCtx 1) 1 = (0x3FFFFFF8, false) ∧ (readS (s.issueCore 1) (s.issueCtx 1) 3).2 = false ∧
    ((s.atIssue 1).translateAll s.cur [(0x3FFFFFF8, 1)]).getRight? = some [0x3FFFFFF8] ∧ (s.issueCore 1).slotsFor [(0x3FFFFFF8, 8)] = true ∧
    (s.issueCore 1).slotsFor [(0x3FFFFFF8, 4)] = true ∧ Claims.bufferClean (s.issueCore 1) := by decide +kernel

theorem test_hyp_commitA : ∀ i ∈ ([.commitAAddD w1, .commitAMinD w1, .commitAMaxD w1, .commitAAndD w1, .commitAOrD w1, .commitAXchgD w1, .commitACasD w1,
      .commitAAddW w1, .commitAMinW w1, .commitAMaxW w1, .commitAAndW w1, .commitAOrW w1, .commitAXchgW w1, .commitACasW w1, .commitAFaddW w1] :
      List Instr), let s := at0 i (fun c => mapped (sregs [(1, 0x3FFFFFF8)] c))
    s.canIssue (hdSR i w1 none) (fun _ => refS 3 ++ refS 1 ++ refS 2) ∧ (s.issueCore 1).arch.loop.active = false ∧ (s.issueCore 1).copyWaits = [] ∧
    (s.atIssue 1).quadEnds s.cur (s.issueCore 1).clock = true ∧ readS (s.issueCore 1) (s.issueCtx 1) 1 = (0x3FFFFFF8, false) ∧
    (readS (s.issueCore 1) (s.issueCtx 1) 2).2 = false ∧ (readS (s.issueCore 1) (s.issueCtx 1) 3).2 = false ∧ (s.issueCore 1).slotsUsed + 1 ≤ 1024 ∧ Claims.bufferClean (s.issueCore 1) ∧
    ((s.atIssue 1).translateAll s.cur [(0x3FFFFFF8, 2)]).getRight? = some [0x3FFFFFF8] := by decide +kernel

/-- Sixty-four lanes at 0x1000. -/
def lanes64 : List (Nat × Nat × Nat) := (List.range 64).map (fun k => (k, 0x1000 + 4 * k, 0x1000 + 4 * k))

theorem test_hyp_vldg : let w := vm 3 1 48 0 4 0 0
    let s := at0 (.vldg w) (fun c => mapped (sregs [(1, 0x1000)] c))
    s.canIssue (hdVM (.vldg w) w none) (fun cx => refV (w.kv cx) ++ refS (w.kbase cx) ++ refS (w.kstride cx)) ∧
    globalChecks (s.atIssue 1) (s.issueCtx 1) w (readK (s.issueCore 1) 0) false 0 = .inr lanes64 ∧ lanes64 ≠ [] := by
  refine ⟨by decide +kernel, by rfl, by decide +kernel⟩

theorem test_hyp_vstg : let w := vm 3 1 48 0 4 0 0
    let s := at0 (.vstg w) (fun c => mapped (sregs [(1, 0x1000)] c))
    s.canIssue (hdVM (.vstg w) w none) (fun cx => refV (w.kv cx) ++ refS (w.kbase cx) ++ refS (w.kstride cx)) ∧
    globalChecks (s.atIssue 1) (s.issueCtx 1) w (readK (s.issueCore 1) 0) true 1 = .inr lanes64 ∧ overflowAt (s.issueCore 1) 4 lanes64 = none ∧
    (readK (s.issueCore 1) 0).bits &&& (readV (s.issueCore 1) (s.issueCtx 1) 3 0).2 = 0 ∧ Claims.bufferClean (s.issueCore 1) := by
  refine ⟨by decide +kernel, by rfl, by decide +kernel⟩

theorem test_hyp_vredG : let w := vm 3 1 48 0 3 0 0
    let s := at0 (.vredG w) (fun c => mapped (sregs [(1, 0x1000)] c))
    s.canIssue (hdVM (.vredG w) w none) (fun cx => refV (w.kv cx) ++ refS (w.kbase cx) ++ refS (w.kstride cx)) ∧
    globalChecks (s.atIssue 1) (s.issueCtx 1) w (readK (s.issueCore 1) 0) true 2 = .inr lanes64 ∧ overflowAt (s.issueCore 1) 4 lanes64 = none ∧
    (readK (s.issueCore 1) 0).bits &&& (readV (s.issueCore 1) (s.issueCtx 1) 3 0).2 = 0 ∧ Claims.bufferClean (s.issueCore 1) := by
  refine ⟨by decide +kernel, by rfl, by decide +kernel⟩

theorem test_hyp_fence : ∀ k ∈ ([0, 4] : List Nat), let w : SFWord := ⟨1, 0xFFFF, BitVec.ofNat 3 k⟩
    let s := at0 (.fence w)
    s.canIssue (hdS (.fence w) 1 none) (fun _ => []) ∧ (s.issueCore 1).trap = none ∧ (s.issueCore 1).closing = [] ∧
    (s.atIssue 1).writesPending s.cur w.cmask k = false ∧ (s.atIssue 1).readsPending s.cur w.cmask = false := by decide +kernel

theorem test_hyp_fenceAcq : ∀ k ∈ ([0, 4] : List Nat), let w : SFWord := ⟨1, 0xFFFF, BitVec.ofNat 3 k⟩
    let s := at0 (.fenceAcq w)
    s.canIssue (hdS (.fenceAcq w) 1 none) (fun _ => []) ∧ (s.atIssue 1).readsPending s.cur w.cmask = false := by decide +kernel

def wab : SRWord := ⟨1, 0, 1, 2, 0⟩

theorem test_hyp_launch : let s := at0 (.launch wab) (sregs [(1, 0x100), (2, 8)])
    s.canIssue (hdSR (.launch wab) wab none) (fun cx => refS (rotS cx (wab.z == 1) wab.a.toNat) ++ refS (rotS cx (wab.z == 1) wab.b.toNat)) ∧
    readS (s.issueCore 1) (s.issueCtx 1) 1 = (0x100, false) ∧ readS (s.issueCore 1) (s.issueCtx 1) 2 = (8, false) := by decide +kernel

theorem test_hyp_launchSignal : let w : SRWord := ⟨1, 0, 48, 2, 0⟩
    let s := at0 (.launchSignal w) (sregs [(2, 8)])
    s.canIssue (hdSR (.launchSignal w) w none) (fun cx => refS (rotS cx (w.z == 1) w.b.toNat)) ∧
    readS (s.issueCore 1) (s.issueCtx 1) 2 = (8, false) := by decide +kernel

theorem test_hyp_fenceRc : (at0 (.fenceRc ⟨1, 0, 0, 0, 0⟩)).canIssue (hdSR (.fenceRc ⟨1, 0, 0, 0, 0⟩) ⟨1, 0, 0, 0, 0⟩ none) (fun _ => []) := by decide +kernel

def wa3 : SRWord := ⟨1, 0, 3, 0, 0⟩

theorem test_hyp_hint : let s := at0 (.hint wa3) (sregs [(3, 0x1FFFFFFFF)])
    s.canIssue (hdSR (.hint wa3) wa3 none) (fun cx => refS (rotS cx (wa3.z == 1) wa3.a.toNat)) ∧ (readS (s.issueCore 1) (s.issueCtx 1) 3).2 = false ∧
    (s.core s.cur).step = some (fetchStep 0) := by decide +kernel

/-- REALIGN of a static step before, at and after its time; the word issues at device time 1. -/
theorem test_hyp_realign : ∀ u ∈ ([0, 1, 2] : List Nat),
    let s := at0 (.realign wa3) (fun c => { sregs [(3, BitVec.ofNat 64 u)] c with step := some { fetchStep 0 with static := true } })
    s.canIssue (hdSR (.realign wa3) wa3 none) (fun cx => refS (rotS cx (wa3.z == 1) wa3.a.toNat)) ∧
    readS (s.issueCore 1) (s.issueCtx 1) 3 = (BitVec.ofNat 64 u, false) ∧ (s.core s.cur).step = some { fetchStep 0 with static := true } ∧
    (s.issueCore 1).dt = 1 ∧ (s.issueCore 1).opn.rcnt = 0 ∧ (s.issueCore 1).until? = none := by decide +kernel

theorem test_hyp_ask : let s := at0 (.ask w1)
    s.canIssue (hdSR (.ask w1) w1 none) (fun cx => refS (rotS cx (w1.z == 1) w1.d.toNat) ++ refS (rotS cx (w1.z == 1) w1.a.toNat) ++
      refS (rotS cx (w1.z == 1) w1.b.toNat)) ∧ (readS (s.issueCore 1) (s.issueCtx 1) 1).2 = false ∧ (readS (s.issueCore 1) (s.issueCtx 1) 2).2 = false ∧
    s.portAt s.cur ≤ (s.issueCore 1).dt ∧ (s.issueCore 1).dt < ({ s with ports := [(0, 9)] } : State).portAt s.cur ∧ (s.issueCore 1).trap = none ∧
    (s.issueCore 1).coupled = false := by
  decide +kernel

/-- Options at their bound: 32,768 granules from 0. -/
theorem test_hyp_suspend : let s := at0 (.suspend wab) (fun c => mapped (sregs [(1, 0x1000), (2, 0x40000000)] c))
    s.canIssue (hdSR (.suspend wab) wab none) (fun cx => refS (rotS cx (wab.z == 1) wab.a.toNat) ++ refS (rotS cx (wab.z == 1) wab.b.toNat)) ∧
    readS (s.issueCore 1) (s.issueCtx 1) 1 = (0x1000, false) ∧ readS (s.issueCore 1) (s.issueCtx 1) 2 = (0x40000000, false) ∧
    (0x40000000 : Nat) % 2 ^ 15 + 0x40000000 / 2 ^ 15 % 2 ^ 16 ≤ 32768 ∧ ((s.atIssue 1).translateAll s.cur [(0x1000, 1)]).getRight? = some [0x1000] ∧
    s.portAt s.cur ≤ (s.issueCore 1).dt ∧ (s.atIssue 1).groups.any (fun g => g.phase = 0 && g.cores.contains s.cur) = false ∧
    (s.issueCore 1).dt < ({ s with ports := [(0, 100)] } : State).portAt s.cur ∧ (s.issueCore 1).trap = none ∧ (s.issueCore 1).coupled = false := by
  decide +kernel

/-- A handler at 0x100 with its save area at 0x50000. -/
def handler : Core → Core := regs (fun a => { a with csr := { a.csr with tvec := 0x100, tsave := 0x50000 } })

theorem test_hyp_trap : let w : SLWord := ⟨1, 0, 0x1FFF⟩
    let s := at0 (.trap w) handler
    let c := s.issueCore 1
    s.canIssue (hdS (.trap w) 1 none) (fun _ => []) ∧ c.trap = none ∧ c.step = some (fetchStep 0) ∧ c.arch.csr.tvec ≠ 0 ∧
    c.arch.csr.tsave.toNat = 0x50000 ∧ c.opn.rset = [] := by decide +kernel

theorem test_hyp_trap_ends : ∀ x ∈ ([(0, 0x50000), (0x100, 0x50020), (0x100, 0x1ECA40), (0x100, 0x3FFC0)] : List (Nat × Nat)), let w : SLWord := ⟨1, 0, 1⟩
    let s := at0 (.trap w) (regs (fun a => { a with csr := { a.csr with tvec := BitVec.ofNat 64 x.1, tsave := BitVec.ofNat 64 x.2 } }))
    let c := s.issueCore 1
    let a := c.arch.csr.tsave.toNat
    s.canIssue (hdS (.trap w) 1 none) (fun _ => []) ∧ c.step = some (fetchStep 0) ∧
    (c.arch.csr.tvec = 0 ∨ a % 64 ≠ 0 ∨ 0x200000 < a + 0x13600 ∨ (a < 0x40000 ∧ 0 < a + 0x13600)) := by decide +kernel

/-- A step that has no report, alone in a launch without one. -/
theorem test_hyp_trap_ends_launch : (fetchStep 0).forked = false ∧ (fetchStep 0).report.cls = 0 ∧
    ∀ x ∈ (at0 (.trap ⟨1, 0, 1⟩)).cores, x.1 ≠ 0 → x.2.step = none := by decide +kernel

/-- A core in trap mode whose save area holds an empty image: format 1, no records, every register full. -/
def inTrap (c : Core) : Core :=
  { handler c with
    trap := some { u := 100, f := 50, cause := 0x17, area := 0x50000, latches := [], id0 := 1 }
    dt := 200
    spad := Memory.write (Memory.write c.spad 0x50000 (leBytes 8 1)) 0x501C8 (leBytes 8 0xFFFFFFFFFFFFFFFF) }

theorem test_hyp_rett : let w : SRWord := ⟨1, 0, 0, 0, 0⟩
    let s := at0 (.rett w) inTrap
    let c := s.issueCore 1
    s.canIssue (hdS (.rett w) 1 none) (fun _ => []) ∧ c.step = some (fetchStep 0) ∧
    c.trap = some { u := 100, f := 50, cause := 0x17, area := 0x50000, latches := [], id0 := 1 } ∧ c.ue = [] ∧ c.ce = [] ∧ c.flights = [] ∧
    c.doom = none ∧ c.handlerBusy { u := 100, f := 50, cause := 0x17, area := 0x50000, latches := [], id0 := 1 } = false ∧
    Memory.val c.spad 0x50000 8 = 1 ∧ c.arch.csr.tpc = 0 ∧ Memory.val c.spad 0x535A0 8 = 0 := by decide +kernel

/-! ### Hypotheses of the statements about pipes, copies and the matrix engine -/

/-- A core whose step is changed. -/
def stepped (f : StepInfo → StepInfo) (c : Core) : Core := { c with step := c.step.map f }

/-- Pipe 2 from role 0 to role 0, with a ring of 4,096 bytes at 0x60000 and 64 granules in the worst case. -/
def pipe2 : PipeDecl := { valid := true, prod := 0, cons := 0, size := 0, rbase := 0x60, worst := 64 }

/-- The step has `pipe2` as its pipe 2. -/
def piped : Core → Core := stepped (fun i => { i with pipes := [{}, {}, pipe2] })

/-- A record of 64 bytes stands at the head of pipe 2. -/
def oneRecord (c : Core) : Core :=
  { piped c with tv := (piped c).tv.setIfInBounds 2 64, spad := Memory.write c.spad 0x60000 (leBytes 8 (64 + 2 ^ 24)) }

def wp2 : SIWord := ⟨1, 3, 0, 2⟩

/-- PRECV of a pipe not declared, of an empty one, and of one with a record. -/
theorem test_hyp_precv : ∀ k ∈ ([0, 1, 2] : List Nat), let f : Core → Core := if k = 0 then id else if k = 1 then piped else oneRecord
    let s := at0 (.precv wp2) f
    let c := s.issueCore 1
    s.canIssue (hdS (.precv wp2) 1 (some 2)) (fun _ => refS 3) ∧ c.pipeFor 2 false = (if k = 0 then none else some pipe2) ∧
    ((c.arch.pipe 2).head = c.tv.toList.getD 2 0 ↔ k ≠ 2) ∧ (k = 2 → Memory.val c.spad 0x60000 8 / 2 ^ 24 % 16 = 1 ∧
      8 ≤ Memory.val c.spad 0x60000 8 % 2 ^ 24 ∧ c.ue = [] ∧ c.ce = []) := by decide +kernel

theorem test_hyp_prelease : ∀ k ∈ ([0, 1, 2] : List Nat), let f : Core → Core := if k = 0 then id else if k = 1 then piped else oneRecord
    let s := at0 (.prelease ⟨1, 0, 0, 2⟩) f
    let c := s.issueCore 1
    s.canIssue (hdS (.prelease ⟨1, 0, 0, 2⟩) 1 none) (fun _ => []) ∧ c.pipeFor 2 false = (if k = 0 then none else some pipe2) ∧
    ((c.arch.pipe 2).head = c.tv.toList.getD 2 0 ↔ k ≠ 2) := by decide +kernel

/-- A C-form word with idle count 1 on s1, s2 and s3. -/
def wc (kind aux rtype : Nat) : CWord := ⟨1, if kind = 16 then 0 else 1, 2, 3, .ofNat 8 aux, .ofNat 4 kind, 0, 0, 0, 0, 0, 0, .ofNat 4 rtype⟩

/-- PSEND: not declared; no space; one record; a SKIP before it. The payload of 56 bytes at 0x50000 makes a record of one granule, that of 64 two. -/
theorem test_hyp_psend : ∀ x ∈ ([(0, 0, 56), (1, 0, 4096), (2, 0, 56), (3, 4032, 64)] : List (Nat × Nat × Nat)),
    let w := wc 16 2 1
    let s := at0 (.psend w) (fun c => sregs [(2, 0x50000), (3, BitVec.ofNat 64 x.2.2)]
      (regs (fun a => a.setPipe 2 { tail := x.2.1 }) (if x.1 = 0 then c else { piped c with hv := c.hv.setIfInBounds 2 x.2.1 })))
    let c := s.issueCore 1
    let z := 4096
    let m := (8 + x.2.2 + 63) / 64 * 64
    let skip := if z < x.2.1 % z + m then z - x.2.1 % z else 0
    let occ := ((c.arch.pipe 2).tail + 2 * z - c.hv.toList.getD 2 0 % (2 * z)) % (2 * z)
    s.canIssue (mkHead (.psend w) 1 (w.rot != 0) w.stage none)
      (fun cx => refS (rotS cx (w.rot.getLsbD 2) w.src.toNat) ++ refS (rotS cx (w.rot.getLsbD 1) w.shape.toNat)) ∧
    c.pipeFor 2 true = (if x.1 = 0 then none else some pipe2) ∧ readS c (s.issueCtx 1) 2 = (0x50000, false) ∧
    readS c (s.issueCtx 1) 3 = (BitVec.ofNat 64 x.2.2, false) ∧ (x.1 = 1 → 64 * pipe2.worst < occ + (m + skip)) ∧
    (2 ≤ x.1 → occ + (m + skip) ≤ 64 * pipe2.worst ∧ c.slotsUsed + (m + skip) / 64 ≤ 1024 ∧ (∀ g ∈ granRange 0x50000 x.2.2, c.isEmpty g = false) ∧
      c.ue = [] ∧ c.ce = [] ∧ Claims.bufferClean c ∧ (skip = 0 ↔ x.1 ≠ 3)) := by decide +kernel

/-- A copy word may run: the operands of CPY of 64 bytes. -/
def cpyRegs (to_ from_ len : Nat) : Core → Core := sregs [(1, BitVec.ofNat 64 to_), (2, BitVec.ofNat 64 from_), (3, BitVec.ofNat 64 len)]

/-- The registers of a copy word. -/
def cpyRefs (w : CWord) (cx : Ctx) : List Ref := refS (rotS cx (w.rot.getLsbD 3) w.dst.toNat) ++ refS (rotS cx (w.rot.getLsbD 2) w.src.toNat) ++
  refS (rotS cx (w.rot.getLsbD 1) w.shape.toNat)

/-- CPY within the own scratchpad, of 64 bytes and of none. -/
theorem test_hyp_cpy0 : ∀ len ∈ ([64, 0] : List Nat), let w := wc 0 0 0
    let s := at0 (.cpy w) (cpyRegs 0x50000 0x60000 len)
    let h := { mkHead (.cpy w) 1 (w.rot != 0) w.stage none with banned := true }
    s.canIssue h (cpyRefs w) ∧ Claims.LocalCopyRuns s h w false 0 0 := by
  intro len h
  have e : len = 64 ∨ len = 0 := by simpa using h
  refine ⟨by revert len; decide +kernel, ?_⟩
  rcases e with rfl | rfl
  all_goals
    constructor
    case leave => exact fun n h => .inl (by subst h; decide +kernel)
    all_goals decide +kernel

/-- Cores 0 and 1 of a coupled quad: core 0 runs `i` next. -/
def quad0 (i : Instr) (f : Core → Core) : State :=
  let s := at0 i (fun c => stepped (fun k => { k with coupled := true }) (f c))
  s.setCore 1 { (s.core 0) with spad := [] }

/-- CPY to and from a neighbour. -/
theorem test_hyp_cpy12 : (let w := wc 1 0 0
    let s := quad0 (.cpy w) (cpyRegs 0x250000 0x60000 64)
    let h := { mkHead (.cpy w) 1 (w.rot != 0) w.stage none with banned := true }
    s.canIssue h (cpyRefs w) ∧ (s.issueCore 1).coupled = true ∧ Claims.LocalCopyRuns s h w false 0 1) ∧
    (let w := wc 2 0 0
    let s := quad0 (.cpy w) (cpyRegs 0x50000 0x260000 64)
    let h := { mkHead (.cpy w) 1 (w.rot != 0) w.stage none with banned := true }
    s.canIssue h (cpyRefs w) ∧ (s.issueCore 1).coupled = true ∧ Claims.LocalCopyRuns s h w false 1 0) := by
  refine ⟨⟨by decide +kernel, by decide +kernel, ?_⟩, by decide +kernel, by decide +kernel, ?_⟩
  all_goals
    constructor
    case leave => exact fun n h => .inl (by subst h; decide +kernel)
    all_goals decide +kernel

/-- CPYX of two rows of 64 bytes, kind 0. -/
theorem test_hyp_cpyx : let w := wc 0 0 0
    let s := at0 (.cpyx w) (cpyRegs 0x50000 0x60000 (2 ^ 52 + 16 * 2 ^ 36 + 16 * 2 ^ 20 + 8))
    let h := { mkHead (.cpyx w) 1 (w.rot != 0) w.stage none with banned := true }
    s.canIssue h (cpyRefs w) ∧ Claims.LocalCopyRuns s h w true 0 0 := by
  refine ⟨by decide +kernel, ?_⟩
  constructor
  case leave => exact fun n h => .inl (by subst h; decide +kernel)
  all_goals decide +kernel

/-- CPY of 64 bytes of kinds 3 and 4, whose global side is at 0x1000. -/
theorem test_hyp_cpy34 : ∀ k ∈ ([3, 4] : List Nat), let w := wc k 0 0
    let s := at0 (.cpy w) (fun c => mapped (cpyRegs (if k = 3 then 0x50000 else 0x1000) (if k = 3 then 0x1000 else 0x50000) 64 c))
    let c := s.issueCore 1
    let a := copyArgs c (s.issueCtx 1) w
    let v := Claims.copyView false a
    let loc := if k = 3 then v.to_ else v.from_
    s.canIssue (mkHead (.cpy w) 1 (w.rot != 0) w.stage (some (false, 2))) (cpyRefs w) ∧
    (∀ k ∈ [a.kto, a.kfrom, a.kshape], (readS c (s.issueCtx 1) k).2 = false) ∧ a.dst.toNat % 8 = 0 ∧ a.src.toNat % 8 = 0 ∧ a.shape = 64 ∧
    v.rows * v.len = 64 ∧ (∀ r ∈ loc, r.1 / 2 ^ 21 = s.cur % 4 ∧ r.1 % 2 ^ 21 + r.2 ≤ 2 ^ 21) ∧
    protTrap (s.atIssue 1) s.cur (localRows loc) = none ∧ writeCheck (s.atIssue 1) s.cur (localRows loc) = none ∧ c.slotsUsed + 2 ≤ 1024 ∧
    c.ue = [] ∧ c.ce = [] ∧ Claims.bufferClean c ∧ emptyCheck (s.atIssue 1) s.cur (granSegs (localRows loc)) = none ∧
    ((s.atIssue 1).translateAll s.cur [(0x1000, if k = 3 then 0 else 1)]).getRight? = some [0x1000] ∧ c.freeSlot = some 0 := by decide +kernel

/-- The same of no bytes. -/
theorem test_hyp_cpy34_none : ∀ k ∈ ([3, 4] : List Nat), let w := wc k 0 0
    let s := at0 (.cpy w) (cpyRegs 0x50000 0x1000 0)
    let c := s.issueCore 1
    let a := copyArgs c (s.issueCtx 1) w
    let v := Claims.copyView false a
    s.canIssue (mkHead (.cpy w) 1 (w.rot != 0) w.stage (some (false, 2))) (cpyRefs w) ∧
    (∀ k ∈ [a.kto, a.kfrom, a.kshape], (readS c (s.issueCtx 1) k).2 = false) ∧ a.dst.toNat % 8 = 0 ∧ a.src.toNat % 8 = 0 ∧ a.shape = 0 ∧
    v.rows * v.len = 0 := by decide +kernel

/-- Window 2 of bulkhead 0 into core 8, of 4,096 bytes. -/
def win2 : Win := ⟨0, 2, 1, 8, 0x60, 0, 0, true, [], 0, 0, [], none⟩

theorem test_hyp_cpy5 : let w := wc 5 2 0
    let s := { at0 (.cpy w) (cpyRegs 0 0x60000 4096) with windows := [win2] }
    let c := s.issueCore 1
    let a := copyArgs c (s.issueCtx 1) w
    let v := Claims.copyView false a
    s.canIssue (mkHead (.cpy w) 1 (w.rot != 0) w.stage none) (cpyRefs w) ∧
    (∀ k ∈ [a.kto, a.kfrom, a.kshape], (readS c (s.issueCtx 1) k).2 = false) ∧ a.dst.toNat % 64 = 0 ∧ a.src.toNat % 8 = 0 ∧ a.shape.toNat = 4096 ∧
    v.len = 4096 ∧ v.rows = 1 ∧ (copyShape false a.shape.toNat).2.2.2 % 64 = 0 ∧
    s.windowOf? s.cur w.aux.toNat = some win2 ∧ (∀ r, r < 1 → a.dst.toNat + r * (copyShape false a.shape.toNat).2.2.2 + v.len ≤ 4096 * (win2.tlen + 1)) ∧
    (∀ r ∈ v.from_, r.1 / 2 ^ 21 = s.cur % 4 ∧ r.1 % 2 ^ 21 + r.2 ≤ 2 ^ 21) ∧ c.slotsUsed + 4096 / 64 ≤ 1024 ∧ c.ue = [] ∧ c.ce = [] ∧ c.held = [] ∧
    Claims.bufferClean c ∧ emptyCheck (s.atIssue 1) s.cur (granSegs (localRows v.from_)) = none := by decide +kernel

/-- A copy of kind 3 that a failed translation has suspended stands in slot 15. -/
def suspended (c : Core) : Core :=
  { c with slots := [(15, { id := 1, op := 1, rgn := 0, kind := 3, cls := 0, cw := false, rows := [(0x50000, 0x1000, 64)], todo := [1], susp := some 0xF000000000000000 })]
           empties := [(0x1400, 1)] }

/-- CRESUME and CCANCEL of a handle that names no copy, and of one that names a suspended one. -/
theorem test_hyp_suspendedCopy : ∀ i ∈ ([.cresume ⟨1, 0, 0, 0, 9, 0, 0, 0, 0, 0, 0, 0, 0⟩, .ccancel ⟨1, 0, 0, 0, 9, 0, 0, 0, 0, 0, 0, 0, 0⟩] : List Instr),
    ∀ k ∈ ([0, 0xF000000000000000] : List Nat), let s := at0 i (fun c => suspended (sregs [(9, BitVec.ofNat 64 k)] c))
    let c := s.issueCore 1
    s.canIssue (mkHead i 1 false 0 none) (fun cx => refS (rotS cx false 9)) ∧ readS c (s.issueCtx 1) 9 = (BitVec.ofNat 64 k, false) ∧
    ((mget c.slots (k / 2 ^ 60)).map (fun x => x.susp.isSome)) = (if k = 0 then none else some true) := by decide +kernel

/-- An M-form word: one row and column of BF16 at s1. -/
def wm (chain mcast ck : Nat) : MWord :=
  ⟨1, 0, if chain ≥ 2 ∨ mcast ≥ 16 then 0 else 1, 0, 5, 0, 0, 0, 0, 0, 0, 0, .ofNat 1 ck, .ofNat 2 chain, .ofNat 4 (mcast % 16), 0, 0, 0, 0, 0, 0⟩

/-- A tile of one BF16 weight. -/
def tile1 : Tile := { k := 1, n := 1, fmt := 5, rows := [[{}]], w := [{}] }

/-- A step with four units of leave, a tile, and s1 = 0x50000. -/
def ready (c : Core) : Core := stepped (fun i => { i with units := 8 }) (regs (fun a => { a with tile := tile1 }) (sregs [(1, 0x50000)] c))

theorem test_hyp_mwld : let w := wm 0 0 0
    let s := at0 (.mwld w) ready
    let c := s.issueCore 1
    s.canIssue (mwldHead w) (fun cx => (operandCodes w cx).flatMap refS) ∧
    Claims.Readable s 1 (operandCodes w (s.issueCtx 1)) (blockOf c (s.issueCtx 1) w 1 1) ∧ c.covered c.dt 1 80 = true ∧ c.mwlds = [] :=
  ⟨by decide +kernel, (by constructor <;> (try unfold Claims.quadClean) <;> decide +kernel), by decide +kernel⟩

/-- The flight of the word of core 0 that core 1's joins. -/
def lead (evs : List (Nat × Eff)) : Flight :=
  { id := 1, rgn := 0, issue := 1, addr := 0, lcnt := 0, units := [], kind := 4, hand := false, mask := {}, opa := (Lanes.zero, 0), opb := (Lanes.zero, 0)
    opc := (Lanes.zero, 0), evs := evs }

/-- Core 1 of a coupled quad runs `i` in the cycle in which core 0 has issued `i0`. -/
def quad1 (i i0 : Instr) (evs : List (Nat × Eff)) : State :=
  let s := at0 i (fun c => stepped (fun k => { k with coupled := true }) (ready c))
  let c0 := (s.core 0).goTo 1
  { (s.setCore 1 (s.core 0)).setCore 0 { c0 with joint := [(1, encode i0)], flights := [lead evs] } with cur := 1 }

theorem test_hyp_mwld_receiver : let w := wm 0 19 0
    let s := quad1 (.mwld w) (.mwld (wm 0 3 0)) [(81, .latch tile1)]
    let c := s.issueCore 1
    s.canIssue (mwldHead w) (fun _ => []) ∧ w.mcast ≠ 0 ∧ mcastReader s.cur w ≠ s.cur ∧ c.coupled = true ∧
    c.covered c.dt 1 80 = true ∧ c.mwlds = [] ∧ (s.atIssue 1).mcastOk s.cur c.clock w = true ∧
    (s.core (mcastReader s.cur w)).tileOf c.clock = some (81, tile1) := by decide +kernel

theorem test_hyp_mmul : ∀ ck ∈ ([0, 1] : List Nat), let w := wm 0 0 ck
    let s := at0 (.mmul w) ready
    let c := s.issueCore 1
    s.canIssue (mmulHead w) (fun cx => (operandCodes w cx).flatMap refS) ∧
    Claims.Readable s 1 (operandCodes w (s.issueCtx 1)) (blockOf c (s.issueCtx 1) w 1 1) ∧ c.covered c.dt 4 79 = true ∧ c.mmuls = [] ∧
    (s.atIssue 1).chainHeld s.cur c.clock w = false := by
  intro ck h
  rcases List.mem_cons.1 h with rfl | h
  · exact ⟨by decide +kernel, (by constructor <;> (try unfold Claims.quadClean) <;> decide +kernel), by decide +kernel⟩
  · obtain rfl := List.mem_singleton.1 h
    exact ⟨by decide +kernel, (by constructor <;> (try unfold Claims.quadClean) <;> decide +kernel), by decide +kernel⟩

/-- Core 0 is the head of a chain whose tail core 1 is about to run. -/
def chain01 : State :=
  let s := quad0 (.mmul (wm 1 0 0)) ready
  s.setCore 1 { (s.core 0) with spad := Memory.write [] 0 (leBytes 24 (tableBits (.mmul (wm 3 0 0)))) }

theorem test_hyp_mmul_head : let w := wm 1 0 0
    let c := chain01.issueCore 1
    chain01.canIssue (mmulHead w) (fun cx => (operandCodes w cx).flatMap refS) ∧ w.chain = 1 ∧ c.coupled = true ∧
    (chain01.atIssue 1).chainOk chain01.cur c.clock w = true ∧ Claims.Readable chain01 1 (operandCodes w (chain01.issueCtx 1)) (blockOf c (chain01.issueCtx 1) w 1 1) ∧
    c.covered c.dt 4 79 = true ∧ c.mmuls = [] ∧ (chain01.atIssue 1).chainHeld chain01.cur c.clock w = false :=
  ⟨by decide +kernel, by decide +kernel, by decide +kernel, by decide +kernel,
    (by constructor <;> (try unfold Claims.quadClean) <;> decide +kernel), by decide +kernel⟩

theorem test_hyp_mmul_tail : let w := wm 3 0 0
    let s := quad1 (.mmul w) (.mmul (wm 1 0 0)) [(73, .mrow 1 0 false false 1 false [{}] tile1)]
    let c := s.issueCore 1
    s.canIssue (mmulHead w) (fun _ => []) ∧ 2 ≤ w.chain.toNat ∧ c.coupled = true ∧
    (s.atIssue 1).chainOk s.cur c.clock w = true ∧ c.covered c.dt 4 79 = true ∧ c.mmuls = [] ∧ (s.atIssue 1).chainHeld s.cur c.clock w = false ∧
    ((s.atIssue 1).core ((s.atIssue 1).chainHead s.cur c.clock w)).aRowsOf c.clock = some (73, [[{}]]) ∧ w.m.toNat + 1 = 1 := by decide +kernel

/-- An M-form word of one row and column that names no operand. -/
def wm0 (fmt areg : Nat) : MWord := ⟨1, 0, .ofNat 6 areg, 0, .ofNat 4 fmt, 0, 0, 0, 0, 0, 0, 0, 0, 0, 0, 0, 0, 0, 0, 0, 0⟩

theorem test_hyp_mchk : let w := wm0 0 0
    let s := at0 (.mchk w) ready
    s.canIssue (hdM (.mchk w) w) (fun _ => []) ∧ (s.issueCore 1).rowsHeld [0, 1] = false ∧ (s.issueCore 1).owner 0 = none := by decide +kernel

theorem test_hyp_mzero : let w := wm0 0 0
    let s := at0 (.mzero w) ready
    s.canIssue (hdM (.mzero w) w) (fun _ => []) ∧ (s.issueCore 1).rowsHeld [0] = false := by decide +kernel

theorem test_hyp_mald : let w := wm0 4 1
    let s := at0 (.mald w) ready
    let c := s.issueCore 1
    s.canIssue (hdM (.mald w) w) (fun cx => (operandCodes w cx).flatMap refS) ∧
    Claims.Readable s 1 (operandCodes w (s.issueCtx 1)) (blockOf c (s.issueCtx 1) w 1 1) ∧ c.rowsHeld [0] = false :=
  ⟨by decide +kernel, (by constructor <;> (try unfold Claims.quadClean) <;> decide +kernel),
    by decide +kernel⟩

theorem test_hyp_mast : let w := wm0 4 1
    let s := at0 (.mast w) ready
    let c := s.issueCore 1
    let b := blockOf c (s.issueCtx 1) w 1 1
    s.canIssue (hdM (.mast w) w) (fun cx => (operandCodes w cx).flatMap refS) ∧ (∀ k ∈ operandCodes w (s.issueCtx 1), (readS c (s.issueCtx 1) k).2 = false) ∧
    b.misaligned = none ∧ (c.cell 0 0).psn = false ∧ storeTrap (s.atIssue 1) s.cur b.segs none = none := by decide +kernel

/-! ### Hypotheses of the statements about landings, arrivals and memory -/

/-- Core 0 with one effect to come at its cycle 5. -/
def coming (e : Eff) : State := at0 (.nop ⟨1, 0⟩) (fun c => { c with flights := [{ lead [(5, e)] with kind := 0 }], accOwn := [(0, 0)] })

theorem test_hyp_landings : ∀ e ∈ ([.sland 31 7 true, .svoid, .spush 9, .vland 31 Lanes.zero 1 2 4 true, .vset 31 Lanes.zero 1 2 4 true, .vvoid, .kland 7 1 2 3 4 false,
      .xland 3 1 2, .flags 1, .csrw 0x031 2, .spw [(0x1FFFFF, 1, 0xFF)], .rspw 1 [(0, 1, 0xFF)], .spue 1 [5], .mrow 1 0 false true 1 false [{}] tile1,
      .mchkrow 1 0 false [{}] tile1, .acells [(0, 64, { bits := 1 })], .correct 1 0 64 3, .mismatch 0 0, .latch tile1,
      .compare 1 false 0 1 1 false 0x10 0 none] : List Eff),
    let c := (coming e).core 0
    c.nextEff.map (·.eff) = some e ∧ c.nextEff.map (·.rgn) = some 0 ∧ c.owner 0 = some 0 ∧ (c.flights.map (·.id)).Nodup ∧ c.doom = none ∧ quadMember 0 1 ≠ 0 ∧
    tile1.n ≤ 64 := by decide +kernel

/-- Rows of zeros pass the compare. -/
theorem test_hyp_compare_ck : compareCells (fun r k => ((coming .svoid).core 0).cell r k) (fun _ _ => false) (fun _ _ => false) 0 1 1 false 0x10 = .pass := by
  rfl

/-- Two rows of two columns with their sums, but one cell, or a sum, off. -/
def twoRows (a b : BitVec 32) (r k : Nat) : ACell :=
  if r = 0 ∧ k = 0 then { bits := a } else if r = 0 ∧ k = 64 then { bits := b } else {}

theorem test_hyp_compare_off : compareCells (twoRows 0x3F800000 0) (fun _ _ => false) (fun _ _ => false) 0 2 2 false 0x10 = .fix 0 0 0 ∧
    compareCells (twoRows 0 0x3F800000) (fun _ _ => false) (fun _ _ => false) 0 2 2 false 0x10 = .bad := ⟨rfl, rfl⟩

/-- Partition 0 with root table 0x10000. -/
def part0 : Partition := ⟨0, 0, 0, 1, 1, [], some 0x10000, {}, [], 0, [], [], 0, 0, { resetParams with coreLeaveLimit := 3 }, [], none, none, 0⟩

/-- A table entry. -/
def entry (m : List Host.Cell) (a v : Nat) : List Host.Cell := Memory.write m a (leBytes 8 v)

/-- The tables of partition 0: one leaf of 1 GiB at 0, readable, writable and written. -/
def tables : List Host.Cell := entry (entry [] 0x10000 0x11001) 0x11000 0x43F

/-- The same with a second leaf that may not be written. -/
def tables2 : List Host.Cell := entry tables 0x11008 0x4000041B

/-- A package with partition 0 and its tables, and core 0 about to run a NOP. -/
def mapped0 (f : Core → Core) : State := { at0 (.nop ⟨1, 0⟩) f with parts := [part0], mem := tables }

/-- An arrival that core 0 awaits in s3. -/
def await (k : AwaitKind) (c : Core) : Core :=
  { regs (fun a => { a with s := a.s.setIfInBounds 3 { pend := some 7 } }) c with
    awaits := [{ id := 7, rgn := 0, kind := k, need := 8, bytes := (List.range 8).map (fun j => (j, 0xFF, false)), ready := (match k with | .ask .. => none | _ => some (5, true)) }] }

theorem test_hyp_guardedArrivals : ∀ k ∈ ([.ldg 3 8 false, .ldg 3 1 true, .atom 3, .ask 3 0 8 1, .ask 3 4 0 1, .ask 3 4 1 1, .ask 3 3 1 1] : List AwaitKind),
    let s := mapped0 (await k)
    ((s.core 0).awaits.find? (fun y => y.id = 7)).map (fun y => (y.id, y.kind)) = some (7, k) ∧ (s.core 0).trap = none ∧
    (s.core 0).arch.s[3].pend = some 7 ∧ ((s.core 0).step.bind (fun i => s.part? i.part)).map (·.params.coreLeaveLimit) = some 3 ∧
    (∀ y ∈ (s.core 0).awaits, y.need ≤ y.bytes.length ∧ y.ready = (match k with | .ask .. => none | _ => some (5, true)) ∧
      ∀ j ∈ List.range 8, y.bytes.find? (fun z => z.1 = j) = some (j, 0xFF, false)) ∧
    s.granted (max s.now 61) - (s.core 0).askedUnits (max s.now 61) + 3 ≤ s.capacity ∧
    s.askNext 7 = (match k with | .ask .. => true | _ => false) := by decide +kernel

/-- A VLDG of one lane; and either arrival while a handler runs. -/
theorem test_hyp_guardedArrival_vldg : let s := mapped0 (await (.vldg 3 4 1 0 false))
    let u := mapped0 (fun c => { await (.ldg 3 8 false) c with trap := some { u := 1, f := 1, cause := 0, area := 0x50000, latches := [], id0 := 8 } })
    let v := mapped0 (fun c => { regs (fun a => { a with v := a.v.setIfInBounds 3 { pend := some 7 } }) (await (.vldg 3 4 1 0 false) c) with
      trap := some { u := 1, f := 1, cause := 0, area := 0x50000, latches := [], id0 := 8 } })
    ((s.core 0).awaits.find? (fun y => y.id = 7)).map (fun y => (y.kind, decide (y.need ≤ y.bytes.length))) = some (.vldg 3 4 1 0 false, true) ∧
    (s.core 0).trap = none ∧ (u.core 0).trap.map (fun k => decide (7 < k.id0)) = some true ∧ (u.core 0).arch.s[3].pend = some 7 ∧
    (v.core 0).trap.map (fun k => decide (7 < k.id0)) = some true ∧ (v.core 0).arch.v[3].pend = some 7 := by decide +kernel

/-- A copy of 64 bytes all of which have arrived, with the blocks of `todo` still to be translated. -/
def arrived (todo : List Nat) (c : Core) : Core :=
  { c with slots := [(0, { id := 1, op := 1, rgn := 0, kind := 3, cls := 0, cw := false, rows := [(0x50000, 0x1000, 64)], todo := todo
                           got := (List.range 64).map (fun k => (k, 0xAA, false)) })]
           empties := [(0x1400, 1)] }

theorem test_hyp_granule : ∀ todo ∈ ([[], [1]] : List (List Nat)), let c := (mapped0 (arrived todo)).core 0
    (mget c.slots 0).map (fun x => (x.id, x.ready 0x1400, x.todo)) = some (1, true, todo) ∧ mget c.empties 0x1400 = some 1 ∧
    (∀ e ∈ c.empties, e.2 = 1 → e.1 = 0x1400) ∧ ∀ x ∈ c.slots, x.2.bytes = (List.range 64).map (fun k => (k, 0x50000 + k, 0x1000 + k)) := by decide +kernel

theorem test_hyp_granule_bytes : ∀ y ∈ (List.range 64).map (fun k => (k, 0x50000 + k, 0x1000 + k)), ∀ z ∈ (List.range 64).map (fun k => (k, 0x50000 + k, 0x1000 + k)),
    y.2.1 = z.2.1 → y = z := by decide +kernel

/-- A copy of kind `kind` of 64 bytes whose block `b` is still to be translated, a walker having returned for it or not. -/
def blocked (kind b : Nat) (walked : Bool) (c : Core) : Core :=
  { c with slots := [(0, { id := 1, op := 1, rgn := 0, kind := kind, cls := 0, cw := false, rows := [(0x50000, 4096 * b, 64)], todo := [b]
                           src := List.replicate 64 0xAA, walked := if walked then some b else none })]
           empties := if kind = 3 then [(0x1400, 1)] else [] }

/-- Blocks that a TLB holds, that a walk has reached, and that neither has; each for a copy that may have it and for one that may not. -/
theorem test_hyp_block : ∀ x ∈ ([(3, 1), (4, 0x40000)] : List (Nat × Nat)),
    let e : TlbEnt := ⟨0, 0, 0x80000000, 0, if x.1 = 3 then 0x43F else 0x41B, 0x11000, 0⟩
    let s := { mapped0 (fun c => { blocked x.1 x.2 false c with tlb := [e] }) with mem := tables2 }
    let u := { mapped0 (blocked x.1 x.2 true) with mem := tables2 }
    let v := { mapped0 (blocked x.1 x.2 false) with mem := tables2 }
    let acc := if x.1 = 3 then 0 else 1
    (mget (s.core 0).slots 0).map (fun y => (y.todo, y.susp, y.kind)) = some ([x.2], none, x.1) ∧ (s.core 0).step = some (fetchStep 0) ∧
    s.tlbFind 0 0 (4096 * x.2) = some e ∧ (permBad e.frame e.leaf acc).isSome = decide (x.1 = 4) ∧
    u.tlbFind 0 0 (4096 * x.2) = none ∧ (mget (u.core 0).slots 0).map (·.walked) = some (some x.2) ∧
    u.walk 0 (4096 * x.2) = (if x.1 = 3 then .leaf 0 0x40000000 0x43F 0x11000 2 else .leaf 0x40000000 0x40000000 0x41B 0x11008 2) ∧
    (permBad 0x40000000 0x41B 1).isSome = true ∧ permBad 0 0x43F 0 = none ∧ permBad 0 0x43F 1 = none ∧ Claims.bufferClean (u.core 0) ∧
    v.tlbFind 0 0 (4096 * x.2) = none ∧ (mget (v.core 0).slots 0).map (·.walked) = some none ∧ v.walks = [] := by decide +kernel

theorem test_hyp_block_fault : let s := mapped0 (blocked 3 (2 ^ 28) true)
    let u := mapped0 (blocked 3 (2 ^ 36) false)
    (mget (s.core 0).slots 0).map (fun x => (x.todo, x.susp)) = some ([2 ^ 28], none) ∧ s.tlbFind 0 0 (4096 * 2 ^ 28) = none ∧
    s.walk 0 (4096 * 2 ^ 28) = .fault 0 3 ∧ 4096 * 2 ^ 28 < 2 ^ 48 ∧
    (mget (u.core 0).slots 0).map (fun x => (x.todo, x.susp)) = some ([2 ^ 36], none) ∧ 2 ^ 48 ≤ 4096 * 2 ^ 36 := by decide +kernel

/-- A walk that a walker has taken: to a leaf that permits it, to one that does not, and to none. -/
theorem test_hyp_walk : ∀ x ∈ ([(0x1000, 0), (0x40000000, 1), (2 ^ 47, 0)] : List (Nat × Nat)),
    let w : Walk := { id := 5, part := 0, core := 0, va := x.1, acc := x.2, taken := true }
    let s : State := { mapped0 id with walks := [w], mem := tables2 }
    s.walks.find? (fun x => x.id = w.id) = some w ∧ w.taken = true ∧ (s.walks.map (·.id)).Nodup ∧ s.walkWith (s.cachedPtr w.part) w.part w.va = s.walk w.part w.va ∧
    s.walk 0 x.1 = (if x.1 = 0x1000 then .leaf 0 0x40000000 0x43F 0x11000 2 else if x.2 = 1 then .leaf 0x40000000 0x40000000 0x41B 0x11008 2 else .fault 0 3) ∧
    permBad 0 0x43F 0 = none ∧ (permBad 0x40000000 0x41B 1).isSome = true ∧ w.slot = none ∧ w.gone = false := by decide +kernel

/-- A request for the line at 0x1000 that serves the arrival 7: sent, and performed. -/
def rd7 : RdReq := { id := 9, op := 3, core := 0, line := 0x1000, cls := 0, fill := 1, wants := [⟨7, 0, 63, 3, 0⟩] }

theorem test_hyp_read : let s : State := { mapped0 (await (.ldg 3 8 false)) with reads := [rd7] }
    let r : RdReq := { rd7 with done := some (100, List.replicate 64 (0xAA, false)), patches := [(2, 63, 0xBB, false)] }
    let u : State := { s with reads := [r] }
    s.reads.find? (fun x => x.id = rd7.id) = some rd7 ∧ rd7.done = none ∧ s.readReady rd7 = true ∧ s.homeLost rd7.line = false ∧
    ({ s with deadDies := [0, 1] } : State).homeLost rd7.line = true ∧ ({ s with deadDies := [0, 1] } : State).readReady rd7 = true ∧
    u.reads.find? (fun x => x.id = r.id) = some r ∧ r.done = some (100, List.replicate 64 (0xAA, false)) ∧ (∀ k ∈ r.wants, k.off < 64) ∧ r.fill = 1 ∧
    (∀ p ∈ r.patches, p.2.2.2 = false) ∧
    (∃ a ∈ (s.core 0).awaits, ∃ k ∈ rd7.wants, k.tag = a.id) := by decide +kernel

/-- A released effect of core 0. -/
def rel (e : HeldEff) : Rel := { id := 4, op := 2, core := 0, rgn := 0, cls := 0, launch := 0, stp := 0, role := 0, at_ := 10, peer := 1, ring := 0x60, eff := e }

/-- A package with one released effect, and a step on core 1 too. -/
def released (e : HeldEff) : State :=
  let s := mapped0 id
  { s.setCore 1 (s.core 0) with rels := [rel e], windows := [win2] }

/-- Effects that perform at their homes, which are there or lost. -/
theorem test_hyp_performs : ∀ e ∈ ([.write 0x1000 0x1000 [1, 2], .block 0 0x1000 0x1000 1 (List.replicate 64 0), .atomic .add true 0x110 0x1000 0x1000 1 0 (some 3) 7,
      .atomic .fadd false 0x110 0x1000 0x1000 1 0 none 7, .adds [(0x1000, 0x1000, 1, 0), (0x1004, 0x1004, 1, 0)] none, .adds [(0x1000, 0x1000, 1, 0)] (some 0)] :
      List HeldEff), let s := released e
    s.rels.find? (fun x => x.id = (rel e).id) = some (rel e) ∧ s.relReady (rel e) = true ∧ s.homeLost 0x1000 = false ∧ (∀ b ∈ (rel e).bad, b < 8) ∧
    (rel e).old = none ∧ windowOf 0x1000 ≠ 4 ∧ ({ s with deadDies := [0, 1] } : State).homeLost 0x1000 = true ∧
    ({ s with deadDies := [0, 1] } : State).relReady (rel e) = true := by decide +kernel

/-- With no partition in capture mode no byte lies in a host ring. -/
theorem noRing_of {s : State} (h : ∀ p ∈ s.parts, p.capture = none) (a : Nat) : Claims.noRing s a := by
  intro p hp r hr; rw [h p hp] at hr; cases hr

theorem test_hyp_noRing (e : HeldEff) (f : Core → Core) (a : Nat) : Claims.noRing (released e) a ∧ Claims.noRing (mapped0 f) a :=
  ⟨noRing_of (by simp [released, mapped0, part0]) a, noRing_of (by simp [mapped0, part0]) a⟩

/-- A byte outside the ring of a partition in capture mode. -/
theorem test_hyp_noRing_capture : Claims.noRing { State.reset with parts := [{ part0 with capture := some 0x40000 }] } 0x1000 := by
  intro p hp r hr k
  simp only [List.mem_singleton] at hp
  subst hp; cases hr
  exact .inl (by unfold hostPa; omega)

/-- An atomic on the host window before and after its read; the step to which its return is logged. -/
theorem test_hyp_atomics : let a := hostPa 0x1000
    let e : HeldEff := .atomic .add true 0x110 a a 1 0 (some 3) 7
    let s := released e
    let u : State := { s with rels := [{ rel e with old := some (5, false) }] }
    s.relReady (rel e) = true ∧ s.homeLost a = false ∧ windowOf a = 4 ∧ (rel e).old = none ∧ u.relReady { rel e with old := some (5, false) } = true ∧
    (s.core 0).step = some (fetchStep 0) := by decide +kernel

theorem test_hyp_deliveries : ∀ e ∈ ([.pipeRec 7 0 [1, 2] 64, .pipeHead 7 64, .window 2 0 [1, 2]] : List HeldEff), let s := released e
    s.rels.find? (fun x => x.id = (rel e).id) = some (rel e) ∧ s.earlierDelivery (rel e) = false ∧ s.peerHere (rel e) = true ∧
    s.windows.find? (fun x => x.isOpen && x.bulkhead = bulkheadOf (rel e).core && x.n = 2) = some win2 ∧ win2.paused = none ∧
    (s.core win2.tcore).frozen = false ∧
    ({ s with windows := [] } : State).windows.find? (fun x => x.isOpen && x.bulkhead = bulkheadOf (rel e).core && x.n = 2) = none := by decide +kernel

/-- The peer no longer runs the step. -/
theorem test_hyp_delivery_gone : ∀ e ∈ ([.pipeRec 7 0 [1] 64, .pipeHead 7 64] : List HeldEff), let s := { mapped0 id with rels := [rel e] }
    s.rels.find? (fun x => x.id = 4) = some (rel e) ∧ s.earlierDelivery (rel e) = false ∧ s.peerHere (rel e) = false := by decide +kernel

theorem test_hyp_hostWrite : (4, 0, 0, 2) ∈ ({ State.reset with hostWrites := [(4, 0, 0, 2)] } : State).hostWrites := by decide +kernel

theorem test_hyp_hostRequester : State.reset.homeLost 0x1000 = false ∧ ({ State.reset with deadDies := [0, 1] } : State).homeLost 0x1000 = true := by
  decide +kernel

/-! ### Hypotheses of the statements about regions and time -/

/-- A region that has ended and holds a write and a block for a window; with an error in the entry of the write, or without. -/
def closing1 (ue : List Nat) (c : Core) : Core :=
  { c with closing := [{ id := 0, tC := some 3 }], opn := { c.opn with id := 1, openAt := 4 }, accOwn := [(5, 0)], accP := [(330, { bits := 1 })]
           held := [{ id := 1, op := 1, rgn := 0, cls := 0, ue := ue, eff := .write 0x1000 0x1000 [1, 2], pages := [⟨0, 0x40000000, 0x11000, false⟩] },
                    { id := 2, op := 2, rgn := 0, cls := 16, eff := .window 2 0 (List.replicate 64 1) }] }

theorem test_hyp_closing : ∀ ue ∈ ([[], [3]] : List (List Nat)), let s := { mapped0 (closing1 ue) with windows := [win2] }
    let c := s.core 0
    s.gangOf 0 = [0] ∧ c.closing = [{ id := 0, tC := some 3 }] ∧ c.step = some (fetchStep 0) ∧ (fetchStep 0).suppress = none ∧ c.trap = none ∧ c.frozen = false ∧
    s.ckPage 0 = none ∧ c.ended = false ∧ (Claims.closingHeld c).map (fun h => (h.ue, h.ce)) = [(ue, []), ([], [])] ∧
    (∀ h ∈ Claims.closingHeld c, (match h.eff with
      | .write _ pa _ => decide (s.homeLost pa = false)
      | .window k .. => s.windows.any (fun w => w.isOpen && w.closing = 0 && decide (w.bulkhead = bulkheadOf 0 ∧ w.n = k ∧ w.wpart = 0))
      | _ => false) = true) ∧ c.owner 5 = some 0 ∧
    (∀ r ∈ c.closing.head?, max (max (r.tC.getD 0) (match r.tL with | some t => t + 48 | none => 0)) c.shut = 3) ∧
    (∃ h ∈ Claims.closingHeld c, ∃ p ∈ h.pages, p.dirty = false ∧ p.entryPa = 0x11000) ∧ s.parts = [part0] ∧ part0.capture = none := by decide +kernel

/-- An atomic with a return, released when the log of its step has one place left, and none. -/
theorem test_hyp_closingLog : ∀ k ∈ [255, 256], let s := mapped0 (fun c => stepped (fun i => { i with log := List.replicate k (0, 0, false) }) { c with
      closing := [{ id := 0, tC := some 3 }], opn := { c.opn with id := 1, openAt := 4 }
      held := [{ id := 1, op := 1, rgn := 0, cls := 0, eff := .atomic .add true 0x110 0x1000 0x1000 1 0 (some 3) 7 }] })
    s.gangOf 0 = [0] ∧ s.homeLost 0x1000 = false ∧ (s.core 0).step.map (·.log.length) = some k ∧
    (Claims.returnPlaces (Claims.closingHeld (s.core 0))).length = 1 := by decide +kernel

/-- A launch with nothing done. -/
def launch0 : Launch :=
  { id := 0, part := 0, tor := 0, origin := .host 0 0 0 false, prio := 0, words := [], dtab := {}, serial := 0, target := none, phase := 1, rect := none, code := []
    preload := [], total := 1, nextStep := 1, running := [(0, 0)], redo := [], done := 0, children := 0, report := {}, ncorr := 0, nreplay := 0, nadopt := 0
    nretire := 0, variant := 0, sums := ((0, 0), (0, 0)), tau := ((0, 0), (0, 0)), marks := [], bounds := [], startAt := none, lent := []
    accepted := 0, rootQueue := none, suspended := 0 }

theorem test_hyp_lastClosing : let s := { mapped0 (fun c => { c with closing := [{ id := 0, tC := some 3 }], ended := true }) with launches := [launch0] }
    let c := s.core 0
    c.closing = [{ id := 0, tC := some 3 }] ∧ c.step = some (fetchStep 0) ∧ (fetchStep 0).coupled = false ∧ (fetchStep 0).suppress = none ∧ c.trap = none ∧
    c.frozen = false ∧ c.ended = true ∧ c.held = [] ∧ (fetchStep 0).forked = false := by decide +kernel

/-- An error was found in region `q` in cycle 2. -/
def doomed (q : Nat) (retire : Bool) (c : Core) : Core := { c with doom := some { rgn := q, retire := retire, found := 2, rep := {}, why := 1 } }

/-- No error found before; one of a later region, of the same one and of an earlier one, one that retires and one that does not. -/
theorem test_hyp_regionError : ∀ x ∈ ([(0, false), (0, true), (1, false)] : List (Nat × Bool)),
    let c := (mapped0 (doomed x.1 x.2)).core 0
    c.step = some (fetchStep 0) ∧ (c.region? 0).isSome = true ∧ c.doom.map (fun o => (o.rgn, o.retire, o.why)) = some (x.1, x.2, 1) ∧
    ((mapped0 id).core 0).doom = none := by decide +kernel

/-- A replay of the open region, of one core and of a quad, one with something in flight. -/
theorem test_hyp_replay : let s := mapped0 (doomed 0 false)
    let c := s.core 0
    c.doom = some { rgn := 0, retire := false, found := 2, rep := {}, why := 1 } ∧ c.step = some (fetchStep 0) ∧ c.trap = none ∧ s.gangOf 0 = [0] ∧
    (c.region? 0).map (·.snapBad) = some false ∧ c.undo = [] ∧ c.coupled = false := by decide +kernel

/-- A quad of four coupled cores, core 0 changed by `f`. -/
def quad4 (f : Core → Core) : State :=
  let s := at0 (.nop ⟨1, 0⟩) (stepped (fun k => { k with coupled := true }))
  (((s.setCore 1 (s.core 0)).setCore 2 (s.core 0)).setCore 3 (s.core 0)).updCore 0 f

theorem test_hyp_replay_quad : let s := quad4 (doomed 0 false)
    (s.core 0).doom = some { rgn := 0, retire := false, found := 2, rep := {}, why := 1 } ∧ s.gangOf 0 = [0, 1, 2, 3] ∧ (s.core 0).coupled = true ∧
    ∀ m ∈ s.gangOf 0, (s.core m).step.isSome = true ∧ (s.core m).trap = none ∧ ((s.core m).region? 0).map (·.snapBad) = some false ∧ (s.core m).undo = [] ∧
      (s.core m).offset = (s.core 0).offset := by decide +kernel

theorem test_hyp_retirement : let s := { mapped0 (doomed 0 true) with launches := [launch0] }
    let c := s.core 0
    c.doom = some { rgn := 0, retire := true, found := 2, rep := {}, why := 1 } ∧ c.step = some (fetchStep 0) ∧ c.trap = none ∧
    (c.region? 0).map (·.snapBad) = some false ∧ c.closing = [] ∧ (fetchStep 0).unadoptable = false ∧ (fetchStep 0).coupled = false ∧
    (fetchStep 0).gang = false ∧ (fetchStep 0).suppress = none ∧ ∃ l ∈ s.launches, l.id = (fetchStep 0).launch := by decide +kernel

/-- The deadline has passed at the next word: with a handler, and without. -/
theorem test_hyp_deadline : ∀ k ∈ ([0, 1] : List Nat), let s := mapped0 (fun c => stepped (fun i => { i with dline := 1 }) (if k = 0 then handler c else c))
    let c := s.core 0
    c.step = some { fetchStep 0 with dline := 1 } ∧ c.deadlineAt = some 1 ∧ (k = 0 → Claims.handles s 0 c { fetchStep 0 with dline := 1 }) ∧
    (k = 1 → c.arch.csr.tvec = 0) := by decide +kernel

theorem test_hyp_deadlineEnd : let s := { mapped0 id with launches := [launch0] }
    (s.core 0).step = some (fetchStep 0) ∧ (fetchStep 0).forked = false ∧ (fetchStep 0).report.cls = 0 ∧ s.cores.map (·.1) = [0] ∧
    ∃ l ∈ s.launches, l.id = (fetchStep 0).launch ∧ l.report.cls = 0 := by decide +kernel

/-- A WAITT, a REALIGN and an answer; of one core, and of a quad. -/
theorem test_hyp_wait : ∀ u ∈ ([{ time := 100, realign := false }, { time := 100, realign := true }, { time := 100, realign := false, check := true }] : List Until),
    let c := (mapped0 (fun c => { c with until? := some u })).core 0
    let s := quad4 (fun c => { c with until? := some u })
    c.step = some (fetchStep 0) ∧ c.until? = some u ∧ u.past = false ∧ c.hand = false ∧ s.gangOf 0 = [0, 1, 2, 3] ∧
    (s.core 0).step = some { fetchStep 0 with coupled := true } ∧ (s.core 0).until? = some u := by decide +kernel

theorem test_hyp_unassigned : let s := mapped0 (fun c => handler { c with spad := Memory.write [] 0 (leBytes 4 (0x140 * 2 ^ 22 + 2 ^ 19)) })
    let c := (s.core 0).goTo ((s.core 0).issueAt (s.core 0).nextIdle)
    (s.core 0).ended = false ∧ (s.core 0).owe = none ∧ (s.core 0).decodeAt (s.core 0).pc = .unassigned 0x140 ∧ Claims.handles s 0 c (fetchStep 0) ∧
    c.pc < 2 ^ 32 ∧ 0x140 < 2 ^ 10 := by decide +kernel

/-- The same without a handler. -/
theorem test_hyp_unassigned_ends : let s := mapped0 (fun c => { c with spad := Memory.write [] 0 (leBytes 4 (0x140 * 2 ^ 22 + 2 ^ 19)) })
    let c := (s.core 0).goTo ((s.core 0).issueAt (s.core 0).nextIdle)
    (s.core 0).ended = false ∧ (s.core 0).owe = none ∧ (s.core 0).decodeAt (s.core 0).pc = .unassigned 0x140 ∧ c.step = some (fetchStep 0) ∧
    c.arch.csr.tvec = 0 := by decide +kernel

/-! ### Hypotheses of the statements about launches -/

/-- A record of two steps: role 0 at entry 0 of an image of 64 bytes at 0x5000, a rectangle of one row and `w` cores, `v` variants of share 128. -/
def tor (w v : Nat) : List Word := (List.range 32).map (fun k => BitVec.ofNat 64 (match k with
  | 0 => 1 + 2 ^ 8 + 2 ^ 32 + 2 ^ 35 + v * 2 ^ 38
  | 1 => 0x5000 + 2 ^ 48
  | 2 => 1000 + 2 ^ 32
  | 3 => w - 1
  | 4 => 2 + 2 ^ 32
  | 26 => if v = 0 then 0 else 128 + 128 * 2 ^ 32
  | 29 => 0x140000 + 0x100000 * 2 ^ 32
  | _ => 0))

theorem test_torOk : torOk (tor 4 0) = true ∧ torOk (tor 32 2) = true ∧ torSteps (tor 1 0) = 2 ∧ torIndex (tor 1 0) 1 = [1, 0, 0, 0, 0, 0] := by
  decide +kernel

/-- A record with a reserved bit set, without a role, without budget, or with its stack in its code is not taken. -/
theorem test_torBad : torOk ((tor 1 0).set 0 (BitVec.ofNat 64 (1 + 2 ^ 8 + 2 ^ 18 + 2 ^ 32 + 2 ^ 35))) = false ∧
    torOk ((tor 1 0).set 0 (BitVec.ofNat 64 (1 + 2 ^ 8 + 2 ^ 35))) = false ∧ torOk ((tor 1 0).set 2 0) = false ∧ torOk ((tor 1 0).set 29 8) = false := by
  decide +kernel

/-- A launch of partition 0 that waits with its record read. -/
def lq : Launch := { launch0 with id := 3, tor := 0x8000, words := tor 1 0, phase := 0, running := [], nextStep := 0, total := 2 }

/-- A queue whose rings begin at host address 0x100000 and 0x200000. -/
def queue0 : Queue := { id := 5, vf := 7, j := 2, sqbase := 0x100000, cqbase := 0x200000, en := true, prio := 3 }

/-- A package with the launch `l` queued in partition 0, of rectangle `bw` bulkheads wide, and queue 5. -/
def waits (l : Launch) (bw : Nat := 1) : State :=
  { State.reset with mem := tables, parts := [{ part0 with queue := [l.id], bwidth := bw, tokens := 2 }], launches := [l], queues := [queue0], nextId := 10 }

/-- A sum that is not on the left is on the right. -/
theorem inr_some {α β : Type} {x : α ⊕ β} (h : x.getRight?.isSome = true) : ∃ b, x = .inr b := by
  cases x with
  | inl a => simp at h
  | inr b => exact ⟨b, rfl⟩

theorem go_of {x : Admit} {r : Nat × Nat × Nat × Nat} (h : (match x with | .go r => some r | _ => none) = some r) : x = .go r := by
  cases x <;> simp_all

/-- The partition of the launch `lq` that waits. -/
def partQ : Partition := { part0 with queue := [3], tokens := 2 }

theorem test_hyp_admission : let s := waits lq
    s.admission partQ lq = .go (0, 0, 1, 1) ∧ s.launch? lq.id = some lq ∧ s.part? lq.part = some partQ ∧ s.admissible partQ lq = true ∧
    lq.words.isEmpty = false ∧ lq.total ≠ 0 ∧ s.readVa lq.part 3 (torCode lq.words) (torCodeLen lq.words) = .bytes (List.replicate 64 0) ∧ s.memCe = [] ∧
    partQ.bars (List.replicate 64 0) lq.words = false :=
  ⟨go_of (by decide +kernel), by decide +kernel⟩

/-- The same in a locked partition, whose manifest has no entry. -/
theorem test_hyp_lockedAdmission : let l := { lq with origin := .host 5 9 0x77 false }
    let p := { partQ with locked := some [] }
    let s := { waits l with parts := [p] }
    s.admission p l = .go (0, 0, 1, 1) ∧ s.launch? l.id = some l ∧ s.part? l.part = some p ∧ s.admissible p l = true ∧
    s.readVa l.part 3 (torCode l.words) (torCodeLen l.words) = .bytes (List.replicate 64 0) ∧ s.memCe = [] ∧
    p.bars (List.replicate 64 0) l.words = true ∧ (∀ x ∈ s.rels, x.old = none) ∧ l.origin = .host queue0.id 9 0x77 false ∧ l.target = none ∧
    l.report = {} ∧ l.redo = [] ∧ s.queue? queue0.id = some queue0 :=
  ⟨go_of (by decide +kernel), by decide +kernel⟩

/-- A launch of a host queue with a gang that is wider than its partition. -/
def lw : Launch := { lq with words := tor 8 0, origin := .host 5 9 0x77 false }

theorem test_hyp_noRectangle : let s := waits lw
    s.launch? lw.id = some lw ∧ s.part? lw.part = some partQ ∧ s.admissible partQ lw = true ∧ lw.words.isEmpty = false ∧ lw.total ≠ 0 ∧
    s.usable partQ lw = [] ∧ lw.origin = .host queue0.id 9 0x77 false ∧ lw.target = none ∧ lw.report = {} ∧ lw.redo = [] ∧ s.queue? 5 = some queue0 ∧
    ∀ x ∈ s.rels, x.old = none := by
  decide +kernel

/-- A launch of a host queue whose record has not been read. -/
def lh : Launch := { lq with words := [], total := 0, origin := .host 5 9 0x77 false, tor := 0x8000 }

theorem test_hyp_badRecord : let s := waits lh
    let bs : List Byte := List.replicate 256 0
    s.launch? lh.id = some lh ∧ s.part? lh.part = some partQ ∧ s.admissible partQ lh = true ∧ partQ.recs = [] ∧ partQ.capture = none ∧
    s.readVa partQ.id 0 lh.tor 256 = .bytes bs ∧ lh.words = [] ∧ bs.length = 256 ∧ torOk (torWords bs) = false ∧ bs.getD 0 0 ≠ 1 ∧ s.memCe = [] ∧
    lh.origin = .host 5 9 0x77 false ∧ lh.target = none ∧ lh.report = {} ∧ lh.redo = [] ∧ s.queue? 5 = some queue0 ∧ ∀ x ∈ s.rels, x.old = none := by
  decide +kernel

/-- A running launch on cores 0 and 1. -/
def lr : Launch := { lq with words := tor 2 0, phase := 1, rect := some (0, 0, 1, 2), code := List.replicate 64 0x11 }

theorem test_hyp_dispatch : let s := waits lr
    s.launch? lr.id = some lr ∧ lr.phase = 1 ∧ lr.redo = [] ∧ s.poolWaits lr.id = false ∧ (∀ b ∈ lr.bounds.head?, s.dispatchFrom lr [[0]] < b.at_ + 64) ∧
    s.nextGroup lr (s.instances lr) (lr.groupCount - lr.nextStep / lr.per) (lr.nextStep / lr.per) [] = some (0, 0, [[0]]) ∧ [[0]].flatten.Nodup := by
  decide +kernel

/-- Step 0 of launch 3, which is to run again: killed, or after its core was lost. -/
def redo0 (kill : Bool) (dead : Bool := false) : Redo := ⟨{ fetchStep 0 with launch := 3, suppress := some (2, 5), unadoptable := dead }, kill, 0, none⟩

/-- A launch with that step. -/
def la (kill : Bool) (dead : Bool := false) : Launch := { lr with redo := [redo0 kill dead] }

theorem test_hyp_adoption : let s := waits (la false)
    s.launch? (la false).id = some (la false) ∧ (la false).firstAdopted = some [redo0 false] ∧ s.logOpen (la false).id (redo0 false).info = false ∧
    (redo0 false).info.unadoptable = false ∧ (s.instances (la false)).findIdx (fun y => y == [[0]]) = 0 ∧
    ((s.instances (la false)).filter (fun y => [redo0 false].all (fun r => r.mayUse y))).find? (s.instFree (la false)) = some [[0]] ∧
    ([redo0 false].map (fun r => ([[0]].getD r.info.role []).getD (r.info.stp % (la false).per) 256)).Nodup := by decide +kernel

/-- A killed step takes its place where none is to be adopted. -/
theorem test_hyp_killedStep : let s := waits (la true)
    s.launch? (la true).id = some (la true) ∧ (la true).firstAdopted = none ∧ (la true).phase = 1 ∧ s.poolWaits 3 = false ∧ (la true).bounds = [] ∧
    (s.nextKilled (la true) (s.instances (la true)) (la true).killedGroups []).getLeft? = some ([redo0 true], [[0]]) := by decide +kernel

/-- Two killed steps on a list of its own order: the lower goes first. -/
theorem test_hyp_lowestKilled : let r := redo0 true
    let q : Redo := { r with info := { r.info with stp := 1 } }
    let l := { la true with redo := [q, r] }
    let s := waits l
    s.launch? l.id = some l ∧ l.phase = 1 ∧ s.poolWaits l.id = false ∧ l.bounds = [] ∧ torStatic l.words = false ∧ l.share (s.instances l) = none ∧
    (s.instances l).find? (s.instFree l) = some [[0]] ∧ r ∈ l.redo ∧
    (∀ x ∈ l.redo, x.kill = true ∧ x.info.forked = false ∧ s.logOpen l.id x.info = false ∧ r.info.stp ≤ x.info.stp ∧
      (x.info.stp = r.info.stp → redoGroup l x = redoGroup l r ∧ x ∈ redoGroup l r)) ∧
    ((redoGroup l r).map (fun x => ([[0]].getD x.info.role []).getD (x.info.stp % l.per) 256)).Nodup := by decide +kernel

/-- A launch of a coupled quad all of whose four steps are to be adopted, on cores of which one is taken. -/
def lcq : Launch :=
  { lr with words := (tor 4 0).set 0 (BitVec.ofNat 64 (1 + 2 ^ 8 + 2 ^ 17 + 2 ^ 32 + 2 ^ 35)), rect := some (0, 0, 1, 4)
            redo := (List.range 4).map (fun k => { redo0 false with info := { (redo0 false).info with stp := k } }) }

theorem test_hyp_notAdoptable :
    (let l := { la false with rect := none }
     let s := waits l
     s.launch? l.id = some l ∧ l.firstAdopted = some [redo0 false] ∧ s.instances l = [] ∧ s.logOpen 3 (redo0 false).info = false) ∧
    (let s := waits (la false true)
     s.launch? 3 = some (la false true) ∧ (la false true).firstAdopted = some [redo0 false true] ∧ (redo0 false true).info.unadoptable = true) ∧
    (let s := { waits lcq with cores := [(2, { step := some (fetchStep 0) })] }
     s.launch? lcq.id = some lcq ∧ lcq.firstAdopted = some lcq.redo ∧ torCoupled lcq.words = true ∧ s.instances lcq = [[[0, 1, 2, 3]]] ∧
     s.instFree lcq [[0, 1, 2, 3]] = false ∧ ∀ r ∈ lcq.redo, s.logOpen lcq.id r.info = false ∧ r.info.unadoptable = false) ∧
    (redo0 false).info.forked = false ∧ (redo0 false).info.report.cls ≤ 0x22 ∧ (la false).report.cls ≤ 0x22 := by
  decide +kernel

/-- A launch that is done, posted by launch 1, with its status word at 0x2000. -/
def ld : Launch := { lr with origin := .device 1 0 0x2000, nextStep := 2, done := 2 }

theorem test_hyp_complete : let s := { waits ld with launches := [{ launch0 with id := 1, children := 1 }, ld] }
    s.launch? ld.id = some ld ∧ s.launchDone ld = true ∧ ld.origin = .device 1 0 0x2000 ∧ s.dieTrans ld.part 0x2000 1 = .inl (0x2000, 0x11000) ∧
    (∃ cause, s.dieTrans ld.part 0x800000000000 1 = .inr cause) ∧ s.launch? 1 = some { launch0 with id := 1, children := 1 } ∧ 1 ≠ ld.id ∧
    s.memCe = [] ∧ ∀ x ∈ s.rels, x.old = none :=
  ⟨by decide +kernel, by decide +kernel, by decide +kernel, by decide +kernel, inr_some (by decide +kernel), by decide +kernel⟩

/-- One of queue 5 that went well, is quiet or not, or reports a class. -/
def lk (quiet : Bool) (cls : Nat) : Launch := { ld with origin := .host 5 9 0x77 quiet, report := { cls := cls } }

theorem test_hyp_completeHost : ∀ q ∈ [true, false], ∀ c ∈ [0, 0x12, 255], let s := waits (lk q c)
    s.launch? 3 = some (lk q c) ∧ s.launchDone (lk q c) = true ∧ (lk q c).origin = .host queue0.id 9 0x77 q ∧ s.queue? 5 = some queue0 ∧
    (lk q c).report.cls < 256 ∧ s.stepsLeft (lk q c) = false ∧ ∀ x ∈ s.rels, x.old = none := by decide +kernel

/-- One with a step left, all of whose cores have been retired. -/
theorem test_hyp_barren : let l := { lk true 0 with nextStep := 1, done := 1 }
    let s := { waits l with retired := [0, 1] }
    s.launch? 3 = some l ∧ s.stepsLeft l = true ∧ s.launchDone l = true ∧ l.origin = .host queue0.id 9 0x77 true ∧ s.queue? 5 = some queue0 ∧
    ∀ x ∈ s.rels, x.old = none := by decide +kernel

/-- A launch at a phase boundary with cores of both dies, or of one, and means of the dies. -/
def lv (both : Bool) (tau : (Nat × Nat) × (Nat × Nat) := ((30, 2), (50, 3))) : Launch :=
  { lr with words := tor 32 2, rect := some (if both then (0, 0, 1, 32) else (0, 0, 1, 4)), bounds := [⟨100, tau, 7⟩], total := 9 }

theorem test_hyp_variant : ∀ b ∈ [true, false], let s := waits (lv b) 8
    s.launch? (lv b).id = some (lv b) ∧ (lv b).bounds = [⟨100, ((30, 2), (50, 3)), 7⟩] ∧ ((lv b).share (s.instances (lv b))).isSome = b := by decide +kernel

/-- With no step measured on either die the variant stays. -/
theorem test_hyp_noMeasure : let l := lv true ((0, 0), (0, 0))
    (waits l 8).launch? 3 = some l ∧ l.bounds = [⟨100, ((0, 0), (0, 0)), 7⟩] ∧ (l.share ((waits l 8).instances l)).isSome = true := by decide +kernel

/-- What holds of the only core that has a step holds of every core with a step. -/
theorem one_core {s : State} {c : Core} {i : StepInfo} (h : s.cores = [(0, c)]) (k : c.step = some i) {P : StepInfo → Prop} (hp : P i) :
    ∀ m j, (s.core m).step = some j → P j := by
  intro m j hj
  unfold State.core at hj
  rw [h] at hj
  by_cases h0 : (0 : Nat) = m <;> simp [mget, h0] at hj
  rw [k] at hj; cases hj; exact hp

/-- The core of a victim with `est` cycles left. -/
def victimStep (est : Nat) : StepInfo := { fetchStep 0 with launch := 4, est := est }

/-- A launch of low priority runs on the rectangle that launch 3 wants. -/
def contended (est : Nat) : State :=
  let lv : Launch := { lr with id := 4, words := tor 4 0, rect := some (0, 0, 1, 4), startAt := some 0, running := [(0, 0)], nextStep := 1 }
  let s := waits { lq with prio := 2, words := (tor 4 0).set 3 0x103 }
  { s with launches := [{ lq with prio := 2, words := (tor 4 0).set 3 0x103 }, lv], cores := [(0, { step := some (victimStep est) })] }

theorem test_hyp_preempt : ∀ est ∈ [9, 100000], ∃ p l, (contended est).launch? l.id = some l ∧ (contended est).part? l.part = some p ∧
    (contended est).mayPreempt p l = true ∧ ∀ x ∈ (contended est).launches, x.id = l.id → x = l := by
  intro est h
  refine ⟨{ part0 with queue := [3], tokens := 2 }, { lq with prio := 2, words := (tor 4 0).set 3 0x103 }, ?_⟩
  revert est
  decide +kernel

theorem test_hyp_preemptDrain : ∀ m i, ((contended 9).core m).step = some i → i.est - ((contended 9).now - i.estAt) ≤ part0.params.td :=
  one_core (i := victimStep 9) rfl rfl (by decide +kernel)

theorem test_hyp_preemptKill : ∀ m i, ((contended 100000).core m).step = some i →
    (part0.params.td < i.est - ((contended 100000).now - i.estAt) ∧ (contended 100000).now - max i.started i.resumed ≤ part0.params.tk ∧
      i.unadoptable = false) ∧ i.coupled = false ∧ i.gang = false :=
  one_core (i := victimStep 100000) rfl rfl (by decide +kernel)

/-- One that has run for longer than t_k: it drains, or its group is to be captured. -/
theorem test_hyp_preemptCapture : let s := { contended 100000 with now := 20000 }
    (∃ p l, s.launch? l.id = some l ∧ s.part? l.part = some p ∧ s.mayPreempt p l = true) ∧
    ∀ m i, (s.core m).step = some i → part0.params.td < i.est - (s.now - i.estAt) ∧ part0.params.tk < s.now - max i.started i.resumed :=
  ⟨⟨partQ, { lq with prio := 2, words := (tor 4 0).set 3 0x103 }, by decide +kernel⟩, one_core (i := victimStep 100000) rfl rfl (by decide +kernel)⟩

theorem test_hyp_token : (waits lq).part? 0 = some { part0 with queue := [3], tokens := 2 } ∧ 2 < part0.params.tokenDepth := by decide +kernel

/-- A timed launch. -/
def lt (hold : Bool) : Launch := { lq with target := some (5, 2 ^ 21), hold := hold, rect := if hold then some (0, 0, 1, 1) else none }

theorem test_hyp_timedHold : let s := waits (lt false)
    s.launch? (lt false).id = some (lt false) ∧ (s.part? (lt false).part).isSome = true ∧ (lt false).target = some (5, 2 ^ 21) ∧ (lt false).phase = 0 ∧
    (lt false).hold = false ∧ (lt false).words.isEmpty = false := by decide +kernel

/-- Each core of the rectangle is free, or core 0 has a step, or is out of service. -/
theorem test_hyp_timedStart : ∀ b ∈ [true, false],
    let s := { waits (lt true) with cores := [(0, ({ step := if b then some (fetchStep 0) else none } : Core))], retired := if b then [] else [0] }
    s.launch? (lt true).id = some (lt true) ∧ (lt true).target = some (5, 2 ^ 21) ∧ (lt true).phase = 0 ∧ (lt true).hold = true ∧
    (lt true).rect = some (0, 0, 1, 1) ∧ ((s.core 0).step.isSome = true ∨ s.inService 0 = false) ∧ inRect (0, 0, 1, 1) 0 = true ∧ s.memCe = [] ∧
    ∀ x ∈ s.rels, x.old = none := by decide +kernel

theorem test_hyp_timedFree : let s := waits (lt true)
    let l := lt true
    (∀ n < 256, inRect (0, 0, 1, 1) n = true → (s.core n).step = none ∧ s.inService n = true ∧ s.claimed l.id n = false) ∧
    s.granted (max s.now (2 ^ 21)) + l.allowance ≤ s.capacity ∧ s.windowClash l.words (0, 0, 1, 1) = false ∧ s.memCe = [] ∧
    s.readVa l.part 3 (torCode l.words) (torCodeLen l.words) = .bytes (List.replicate 64 0) ∧
    (∀ p ∈ s.part? l.part, p.bars (List.replicate 64 0) l.words = false) ∧ l.total ≠ 0 ∧ torCoupled l.words = false ∧ torRoles l.words < 2 ∧ torVariants l.words = 0 ∧ l.lent = [] ∧ l.ahead = [] ∧ l.nextStep = 0 := by decide +kernel

/-- A timed launch of a queue whose stack meets an open window's range. -/
theorem test_hyp_timedClash : let l := { lt true with origin := .host 5 9 0x77 false }
    let s := { waits l with windows := [⟨0, 0, 0, 0, 0x100, 1, 0, true, [], 0, 0, [], none⟩] }
    s.launch? l.id = some l ∧ s.windowClash l.words (0, 0, 1, 1) = true ∧ s.granted (max s.now (2 ^ 21)) + l.allowance ≤ s.capacity ∧
    (∀ n < 256, inRect (0, 0, 1, 1) n = true → (s.core n).step = none ∧ s.inService n = true) ∧ l.report = {} ∧ l.redo = [] ∧
    s.queue? 5 = some queue0 ∧ ∀ x ∈ s.rels, x.old = none := by decide +kernel

/-! ### Hypotheses of the statements about groups -/

/-- The group of core 0, to be suspended at device time 50. -/
def group0 (opts : Word) : Group := { id := 6, part := 0, launch := 3, cores := [0], addr := 0x200000, opts := opts, f := 50, phase := 0 }

/-- A package with the group of core 0 under suspension; the step belongs to launch 3. -/
def suspending (g : Group) (f : Core → Core := id) : State :=
  { mapped0 (fun c => f (stepped (fun i => { i with launch := 3, codelen := 64 }) c)) with groups := [g], launches := [{ lr with running := [(0, 0)] }], nextId := 20 }

theorem test_hyp_freeze : ∀ w ∈ [true, false],
    let s := suspending (group0 0) (fun c => { c with until? := if w then some { time := 100, realign := false } else none })
    let c := s.core 0
    c.trap = none ∧ s.suspOf 0 = some (group0 0) ∧ (c.suspendAt (group0 0)).isSome = w ∧ c.waiting.isSome = w ∧ c.ended = false := by
  decide +kernel

/-- In a coupled quad a member waits, or is in trap mode, and core 0 is to be frozen. -/
theorem test_hyp_freezeQuad : ∀ h ∈ [true, false], let g := { group0 0 with cores := [0, 1, 2, 3], f := 0 }
    let s := { (quad4 id).updCore 1 (fun c => { c with
      until? := if h then none else some { time := 100, realign := false }
      trap := if h then some { u := 1, f := 1, cause := 0, area := 0x50000, latches := [], id0 := 8 } else none }) with groups := [g] }
    s.suspOf 0 = some g ∧ ((s.core 0).suspendAt g).isSome = true ∧ (s.core 0).trap = none ∧ 1 ∈ s.gangOf 0 ∧
    ((s.core 1).trap.isSome || (s.core 1).waiting.isSome) = true := by decide +kernel

/-- A core that waits for nothing freezes where its next word would issue. -/
theorem test_hyp_freezeAtWord : let s := suspending { group0 0 with f := 0 }
    (s.core 0).suspendAt { group0 0 with f := 0 } = some 1 ∧ (s.core 0).waiting.isSome = false := by decide +kernel

/-- A suspension that comes no later is under way where SUSPEND issues. -/
theorem test_hyp_suspendAgain : let s := { at0 (.suspend wab) (fun c => mapped (sregs [(1, 0x1000), (2, 0x40000000)] c)) with groups := [group0 0] }
    s.canIssue (hdSR (.suspend wab) wab none) (fun cx => refS (rotS cx (wab.z == 1) wab.a.toNat) ++ refS (rotS cx (wab.z == 1) wab.b.toNat)) ∧
    s.portAt s.cur ≤ (s.issueCore 1).dt ∧ (∃ g ∈ s.groups, g.phase = 0 ∧ s.cur ∈ g.cores ∧ g.f ≤ (s.issueCore 1).dt + 64) := by decide +kernel

theorem test_hyp_boundaryTimeout : let s := suspending (group0 0x80000000)
    (s.core 0).step.map (·.coupled) = some false ∧ (s.core 0).trap = none ∧ s.suspOf 0 = some (group0 0x80000000) ∧ (s.core 0).frozen = false ∧
    (0x80000000 : Word).getLsbD 31 = true := by decide +kernel

theorem test_hyp_object : ∀ pf ∈ [true, false], let g := { group0 0 with pfail := pf }
    let s := suspending g (fun c => { c with frozen := true })
    s.groups.find? (fun x => x.id = g.id && x.phase = 0) = some g ∧ g.cores = [0] ∧ s.objectReady g = true ∧ (s.core 0).ue = [] ∧
    (∀ m ∈ s.gangOf 0, m ∈ g.cores) ∧ (s.core 0).step.map (fun i => (i.lineage, i.forked, i.launch, i.report.cls)) = some (none, false, g.launch, 0) ∧
    s.launch? g.launch = some { lr with running := [(0, 0)] } ∧ (∀ m ∈ s.instanceOf 0, m ∈ g.cores) ∧ s.memCe = [] ∧ (∀ x ∈ s.rels, x.old = none) ∧
    (s.core 0).step.map (·.gang) = some false ∧ s.lineages = [] := by decide +kernel

/-- An object whose page cannot be written, and one with an uncorrectable word in its live range, which is the whole scratchpad. -/
theorem test_hyp_objectFails :
    (let g := { group0 0 with addr := 0x800000000000 }
     let s := suspending g (fun c => { c with frozen := true })
     s.groups.find? (fun x => x.id = g.id && x.phase = 0) = some g ∧ s.objectReady g = true ∧ (s.dieTrans g.part g.addr 1).getRight?.isSome = true) ∧
    (let s := suspending (group0 0x7FFF) (fun c => { c with frozen := true, ue := [9] })
     s.groups.find? (fun x => x.id = 6 && x.phase = 0) = some (group0 0x7FFF) ∧ s.objectReady (group0 0x7FFF) = true ∧
     (liveRange (0x7FFF : Word)).1 ≤ 9 / 8 ∧ 9 / 8 < (liveRange (0x7FFF : Word)).1 + (liveRange (0x7FFF : Word)).2) := by decide +kernel

/-- The object of a captured step of launch 3, whose image is 64 bytes of zeros. -/
def obj0 (k : Nat) : Obj :=
  { lineage := 8, gen := 0, midRegion := false, coupled := false, part := 0, mapid := 1, time := 9, budget := 500, estimate := 10, launch := 3, tor := 0x8000
    forked := false, sections := List.replicate k ⟨{ step := some { fetchStep 0 with launch := 3, codelen := 64 } }, 1, []⟩
    image := List.replicate 64 0, measure := shake256 (List.replicate 64 0) 64 }

/-- A group to be restarted from that object; the record's second word names an image of 64 bytes at 0x5000. -/
def restarting (k : Nat) (g : Group) : State :=
  { waits lr with objs := [(77, obj0 k)], groups := [g], mem := Memory.write tables 0x8008 (leBytes 8 (0x5000 + 2 ^ 48)) }

/-- The group, with its status word at 0x2000. -/
def group1 : Group := { group0 0 with phase := 1, tag := 77, cores := [], status := some (1, 0, 0x2000) }

theorem test_hyp_restart : let s := restarting 1 group1
    let tor := Memory.read s.mem 0x8000 256
    let v := leVal ((tor.drop 8).take 8)
    s.groups.find? (fun y => y.id = group1.id && y.phase = 1) = some group1 ∧ mget s.objs group1.tag = some (obj0 1) ∧
    ((obj0 1).sections.map (fun x => x.core.step)) = [some { fetchStep 0 with launch := 3, codelen := 64 }] ∧ s.groupPlace (obj0 1) = .inl (some [0]) ∧
    s.memCe = [] ∧ s.memUe = [] ∧ s.deadDies = [] ∧
    (({ s with launches := s.launches.map (fun (l : Launch) => if l.id = 3 then { l with suspended := l.suspended - 1, running := l.running ++ [(0, 0)] } else l) } :
      State).setCore 0 { s.core 0 with step := some { fetchStep 0 with launch := 3, codelen := 64, forked := false }, asked := [] }).overLeave 0 = false ∧
    s.readVa 0 0 0x8000 256 = .bytes tor ∧
    (s.readLeaves (launchPayer 3) 0 0 0x8000 256).readVa 0 3 (v % 2 ^ 48) (64 * (v / 2 ^ 48 % 2 ^ 13)) = .bytes (List.replicate 64 0) ∧
    shake256 (List.replicate 64 0) 64 = (obj0 1).measure ∧ (s.part? 0).bind (fun p => p.locked) = none ∧ (obj0 1).image.length = 64 := by decide +kernel

/-- A manifest that an image and a record match. -/
theorem test_hyp_restartLocked : manifestOk (shake256 (List.replicate 64 (0 : Byte)) 32 ++ shake256 (List.replicate 0x90 (0 : Byte)) 32) (List.replicate 64 0)
    (List.replicate 256 0) = true := by decide +kernel

/-- The same group as a record of a queue ordered it. -/
def group2 : Group := { group1 with status := none, byHost := some (5, 9, 0x77, false) }

theorem test_hyp_noPlace : ∀ g ∈ [group1, group2], let s := restarting 5 g
    s.groups.find? (fun y => y.id = g.id && y.phase = 1) = some g ∧ mget s.objs g.tag = some (obj0 5) ∧ s.groupPlace (obj0 5) = .inr () ∧
    (g.byHost = none ↔ g = group1) ∧ s.dieTrans g.part 0x2000 1 = .inl (0x2000, 0x11000) ∧ s.queue? 5 = some queue0 ∧ g.pool = false ∧ s.memCe = [] ∧
    ∀ x ∈ s.rels, x.old = none := by decide +kernel

theorem test_hyp_groupDone : ∀ x ∈ [group1, group2], let g := { x with phase := 2 }
    let s := restarting 1 g
    s.launch? g.id = none ∧ s.groups.find? (fun y => y.id = g.id && y.phase = 2 && y.cores.isEmpty) = some g ∧ (g.byHost = none ↔ x = group1) ∧
    s.dieTrans g.part 0x2000 1 = .inl (0x2000, 0x11000) ∧ s.queue? 5 = some queue0 ∧ g.report.cls < 256 ∧ s.memCe = [] ∧ ∀ x ∈ s.rels, x.old = none := by
  decide +kernel

/-! ### Hypotheses of the statements about errors, time and power -/

/-- A commit buffer entry. -/
def held0 : Held := { id := 9, op := 4, rgn := 0, cls := 0, eff := .write 0x40 0x40 (List.replicate 8 0x55) }

theorem test_hyp_upset_one : (2 : Word) ≠ 0 ∧ (2 : Word) = BitVec.twoPow 64 1 ∧ 0x201 ∉ State.reset.memCe ∧ 0x201 ∉ State.reset.memUe ∧
    0x201 ∉ (State.reset.core 3).ce ∧ 0x201 ∉ (State.reset.core 3).ue ∧ 0 ∉ held0.ce ∧ 0 ∉ held0.ue ∧ (homeDie 0x1008).isSome = true := by decide +kernel

theorem test_hyp_upset_more : (3 : Word) ≠ 0 ∧ ∀ k < 64, (3 : Word) ≠ BitVec.twoPow 64 k := by decide +kernel

theorem test_hyp_upset_again : 0x1008 / 8 ∈ ({ State.reset with memCe := [0x201] } : State).memCe := by decide +kernel

theorem test_hyp_upset_held : let s := mapped0 (fun c => { c with held := [held0, { held0 with id := 10 }] })
    (s.core 0).held[0]? = some held0 ∧ held0.id = 9 ∧ (s.core 0).held[1]? = some { held0 with id := 10 } := by decide +kernel

theorem test_hyp_snapshot : let c := (mapped0 id).core 0
    c.step = some (fetchStep 0) ∧ c.opn.id = 0 ∧ c.doom = none ∧ c.opn.id ≠ 7 := by decide +kernel

/-- A stack whose row 4 is visited next, with a single-bit error in it. -/
def scrubbed (due : Bool) : State := { State.reset with scrubs := [(0, { pos := 4, amberDue := due })] }

theorem test_hyp_scrub : ∀ u < 10, ((mget (scrubbed false).scrubs u).getD {}).amberDue = false := by decide +kernel

/-- Words of the rows that are visited, in memory and in the cache before it. -/
theorem test_hyp_scrubRows : ({ State.reset with memCe := [0] } : State).unitRow 0 = some (0, 0) ∧
    (({ State.reset with memCe := [0], cacheErr := [0] } : State).unitRow 0).map (·.1) = some 8 := by decide +kernel

theorem test_hyp_amber : mget (scrubbed true).scrubs 0 = some { pos := 4, amberDue := true } ∧ (scrubbed true).memCe = [] ∧
    mget ({ scrubbed true with scrubs := [(0, { pos := 4, amberDue := true, amber := [⟨0, 3⟩, ⟨1024, 15⟩] })] } : State).scrubs 0 =
      some { pos := 4, amberDue := true, amber := [⟨0, 3⟩, ⟨1024, 15⟩] } ∧ ([⟨0, 3⟩, ⟨1024, 15⟩] : List Amber).map (·.addr) = [0, 1024] := by
  decide +kernel

theorem test_hyp_dieLoss : ∀ d < 2, d ∉ (mapped0 id).deadDies ∧ (mapped0 id).deadDies = [] ∧ ∀ x ∈ State.reset.cores, dieOf x.1 = d → x.2.step = none := by
  decide +kernel

/-- A step that ran alone on its die, and in its bulkhead, of a launch with cores on the other, or with none left. -/
def lonely (one : Bool) : State :=
  { waits { lr with rect := some (if one then (0, 0, 1, 4) else (0, 0, 1, 32)), words := tor 4 0, running := [(0, 0)] } 8 with
    cores := [(0, { step := some { fetchStep 0 with launch := 3 } })] }

theorem test_hyp_lostStep : ∀ b ∈ [true, false], let s := lonely b
    let i : StepInfo := { fetchStep 0 with launch := 3 }
    dieOf 0 = 0 ∧ bulkheadOf 0 = 0 ∧ (s.core 0).step = some i ∧ (∀ x ∈ s.cores, x.1 = 0) ∧ (i.coupled || i.gang || i.unadoptable || i.forked) = false ∧
    i.suppress = none ∧ (s.launches.filter (fun x => x.id = i.launch)).map (fun l => (l.id, l.redo)) = [(3, [])] := by decide +kernel

/-- A step that its retired core on a die had left to be adopted, when the die is lost with nothing running there. -/
theorem test_hyp_lostRedo : let s := { waits { la false with rect := some (0, 0, 1, 32), words := tor 4 0 } 8 with retired := [0] }
    s.launches.filter (fun x => x.id = 3) = [{ la false with rect := some (0, 0, 1, 32), words := tor 4 0 }] ∧ redo0 false ∈ (la false).redo ∧
    dieOf (redo0 false).core = 0 ∧ (redo0 false).kill = false ∧ ∀ x ∈ s.cores, dieOf x.1 = 0 → x.2.step = none := by decide +kernel

theorem test_hyp_bulkheadReturn : ({ State.reset with offline := [(9, 38000)] } : State).offline.find? (fun x => x.1 = 9) = some (9, 38000) := by
  decide +kernel

/-- A rate within its bounds, one above and one below. -/
theorem test_hyp_ptpRates : let n : Nat := 578690330408
    (((578690330409 : Int) - n).natAbs * 1000000 ≤ 200 * n) ∧ (200 * n < ((579000000000 : Int) - n).natAbs * 1000000) ∧
    (200 * n < ((1 : Int) - n).natAbs * 1000000) := by decide +kernel

theorem test_hyp_ptpLock : ({ State.reset with ptp := { lock := true } } : State).ptp.lock = true := by decide +kernel

/-- A partition in capture mode. -/
def partC : Partition := { part0 with capture := some 0x40000 }

theorem test_hyp_clock : ({ State.reset with clockAt := some (9, true) } : State).clockAt = some (9, true) ∧
    ({ State.reset with clockAt := some (9, true), parts := [partC] } : State).parts = [partC] ∧ partC.capture = some 0x40000 ∧
    (∀ p ∈ State.reset.parts, p.capture = none) ∧ ({ State.reset with derated := true } : State).derated = true ∧
    ({ State.reset with derated := true } : State).clockAt = none ∧ State.reset.derated = false ∧ State.reset.clockAt = none ∧
    ({ State.reset with clockAt := some (9, false) } : State).clockAt = some (9, false) := by decide +kernel

theorem test_hyp_life : State.reset.life = .running ∧ ({ State.reset with life := .pfail 9 } : State).life = .pfail 9 ∧
    ({ State.reset with life := .held } : State).life = .held ∧ ({ State.reset with life := .held } : State).inputs = [] := by decide +kernel

/-- One core with a step, nothing about to close, for a power failure. -/
theorem test_hyp_pfailCore : let s := { mapped0 id with cores := [(0, (mapped0 id).core 0)] }
    s.life = .running ∧ s.cores = [(0, s.core 0)] ∧ (s.core 0).step = some (fetchStep 0) ∧ (fetchStep 0).coupled = false ∧ (s.core 0).closing = [] ∧
    (s.core 0).trap = none ∧ s.groups = [] := by decide +kernel

/-! ### Hypotheses of the statements about queues, records and commands -/

/-- A submission record at host address 0x100000: type, length, flags, serial 7, tag 0x55, operands. -/
def record (typ len flags a b c : Nat) : List Host.Cell :=
  Memory.write tables (hostPa 0x100000) ([len + typ * 2 ^ 24 + flags * 2 ^ 28 + 7 * 2 ^ 32, 0x55, a, b, c].flatMap (leBytes 8))

/-- Queue 5, bound, with that record waiting. -/
def bound0 : Queue := { queue0 with sqtail := 64, bound := some (0, 0) }

/-- A package that is about to accept it for partition 0. -/
def submits (typ len flags a b c : Nat) : State :=
  { waits lr with mem := record typ len flags a b c, queues := [bound0], vfs := [(7, 0)] }

/-- A queue with one record to submit. -/
def waiting (q : Queue) : Queue := { q with sqtail := 64 }

theorem test_hyp_bind : let s := { State.reset with queues := [waiting queue0, { waiting queue0 with id := 6, prio := 2 }], mem := record 1 40 0 0x8000 0 0 }
    let q := waiting queue0
    s.queue? q.id = some q ∧ q.wantsSlot = true ∧ (s.queues.filter (fun x => x.bound.isSome)).length < 64 ∧
    (∀ x ∈ s.queues, x.wantsSlot = true → x = q ∨ x.rank < q.rank ∨ (x.rank = q.rank ∧ (q.waitAt < x.waitAt ∨ (q.waitAt = x.waitAt ∧ q.id < x.id)))) ∧
    min 7 (q.prio + q.raised) < 7 := by decide +kernel

theorem test_hyp_quantum : ∀ k ∈ [3, 16], let q := { waiting queue0 with bound := some (9, k) }
    ({ State.reset with queues := [q] } : State).queue? q.id = some q ∧ q.bound = some (9, k) := by decide +kernel

/-- Tails that are refused and one that is taken; heads that are refused and one that is taken. -/
theorem test_hyp_tails : let s := { State.reset with queues := [queue0] }
    let z := 2 ^ (12 + queue0.sqsz)
    s.vfQueue 7 2 = some queue0 ∧ s.queue? 5 = some queue0 ∧ z < (0x1040 + 2 * z - queue0.sqhead % (2 * z)) % (2 * z) ∧
    (0x1000 + 2 * z - queue0.sqhead % (2 * z)) % (2 * z) ≤ z ∧ 0x1000 % 64 = 0 ∧ queue0.en = true ∧ 0x20 % 64 ≠ 0 := by decide +kernel

theorem test_hyp_disabled : let q := { queue0 with en := false }
    ({ State.reset with queues := [q] } : State).vfQueue 7 2 = some q ∧ ({ State.reset with queues := [q] } : State).queue? q.id = some q ∧
    q.en = false := by decide +kernel

/-- Control words that enable a queue, disable it, keep a size above 12, and clear both error bits. -/
theorem test_hyp_control : (0x80000000 : Word).getLsbD 31 = true ∧ (3 : Word).getLsbD 31 = false ∧ 12 < (0xD00 : Word).toNat / 2 ^ 8 % 16 ∧
    ¬ 12 < (0xC00 : Word).toNat / 2 ^ 8 % 16 ∧ (3 : Word).getLsbD 1 = true ∧ (3 : Word).getLsbD 0 = true := by decide +kernel

/-- The record that the ring of queue 5 then holds. -/
def rec0 (typ len a b c : Nat) : SubRec := ⟨typ, len, 0, 7, 0x55, a, b, c⟩

/-- The partition that accepts it. -/
def partR : Partition := { part0 with queue := [3], tokens := 2 }

theorem test_hyp_accept : ∀ x ∈ ([(1, 0x8000, 0, 0), (2, 0x8000, 1, 2), (3, 0, 0, 0), (4, 0x200001, 0, 0), (5, 0x200001, 0x300000, 0), (6, 0x200001, 0, 0),
      (7, 0x10000, 0x100000, 1), (9, 0, 0, 0)] : List (Nat × Nat × Nat × Nat)),
    Claims.accepts (submits x.1 40 0 x.2.1 x.2.2.1 x.2.2.2) bound0 partR (rec0 x.1 40 x.2.1 x.2.2.1 x.2.2.2) x.1 ∧
    (submits x.1 40 0 x.2.1 x.2.2.1 x.2.2.2).part? partR.id = some partR ∧ partR.queue.length < 4096 ∧ partR.capture = none ∧
    ∀ y ∈ (submits x.1 40 0 x.2.1 x.2.2.1 x.2.2.2).rels, y.old = none := by decide +kernel

/-- A partition whose queue is full. -/
def partFull : Partition := { partR with queue := List.range 4096 }

theorem test_hyp_queueFull : ∀ x ∈ ([(1, 0x8000, 0, 0), (2, 0x8000, 1, 2)] : List (Nat × Nat × Nat × Nat)),
    let s := { submits x.1 40 0 x.2.1 x.2.2.1 x.2.2.2 with parts := [partFull] }
    Claims.accepts s bound0 partFull (rec0 x.1 40 x.2.1 x.2.2.1 x.2.2.2) x.1 ∧ 4096 ≤ partFull.queue.length ∧ x.2.1 % 256 = 0 ∧ s.part? partFull.id = some partFull ∧
    (∀ l ∈ s.launches, l.id < s.nextId) ∧ ∀ y ∈ s.rels, y.old = none := by decide +kernel

theorem test_hyp_shaped : Claims.shaped (rec0 1 40 0x8000 0 0) 1 ∧ Claims.shaped (rec0 2 40 0x8000 1 2) 3 ∧ Claims.shaped (rec0 3 40 0 0 0) 0 ∧
    Claims.shaped (rec0 4 40 0x200001 0 0) 1 ∧ Claims.shaped (rec0 5 40 0x200001 0x300000 0) 2 ∧ Claims.shaped (rec0 6 40 0x200001 0 0) 1 ∧
    Claims.shaped (rec0 7 40 0x10000 0x100000 1) 3 := by simp [Claims.shaped, rec0]

theorem test_hyp_unshaped : ∀ x ∈ ([(1, 1), (2, 3), (3, 0), (4, 1), (5, 2), (6, 1)] : List (Nat × Nat)),
    Claims.accepts (submits x.1 48 0 0 0 0) bound0 partR (rec0 x.1 48 0 0 0) x.1 ∧ (rec0 x.1 48 0 0 0).len ≠ 40 := by decide +kernel

theorem test_hyp_unshaped' (typ n : Nat) : ¬ Claims.shaped (rec0 typ 48 0 0 0) n := by simp [Claims.shaped, rec0]

/-- Targets that lie far enough ahead, and one that does not. -/
theorem test_hyp_timed : let s := submits 2 40 0 0x8000 1 2
    s.now + 2 ^ 20 ≤ s.ptp.reach ((1 * 1000000000 + 2) * 65536) ∧ s.ptp.reach 0 < s.now + 2 ^ 20 ∧ (∀ l ∈ s.launches, l.id < s.nextId) := by decide +kernel

/-- The record of a timed launch is taken in: it stands at 0x8000. -/
theorem test_hyp_timedRecord : let s := { submits 2 40 0 0x8000 1 2 with mem := Memory.write (record 2 40 0 0x8000 1 2) 0x8000 ((tor 1 0).flatMap (fun w => leBytes 8 w.toNat)) }
    let bs := (tor 1 0).flatMap (fun w => leBytes 8 w.toNat)
    Claims.accepts s bound0 partR (rec0 2 40 0x8000 1 2) 2 ∧ partR.recs = [] ∧ partR.capture = none ∧ partR.locked = none ∧ s.memCe = [] ∧
    s.readVa partR.id 0 0x8000 256 = .bytes bs ∧ torOk (torWords bs) = true ∧ torPreLen (torWords bs) = 0 := by decide +kernel

/-- A misaligned object address is refused by the check of a record. -/
theorem test_hyp_recFails : ∀ x ∈ ([(4, [(0x200001, 0)]), (5, [(0x200001, 0), (0x300000, 1)]), (6, [(0x200001, 0)])] : List (Nat × List (Nat × Nat))),
    let s := submits x.1 40 0 0x200001 0 0
    ∃ p ∈ s.parts, (s.recCheck p 0x200001 x.2).getLeft? = some (launchReport 0x10 0x05 1 0x200001) := by decide +kernel

/-- A checkpoint in progress, with one page of 64 KiB to copy, or none. -/
def ckpt0 (ps : List (Nat × Nat × Nat × Nat)) : Ckpt :=
  { part := 0, queue := 5, serial := 7, tag := 0x55, quiet := true, area := 0x40000, size := 0x100000, k := 1, b := 0, pages := ps, len := 0, crc := 0, count := 0 }

theorem test_hyp_checkpoint : let s := submits 7 40 0 0x10000 0x100000 1
    s.ckptOf 5 = none ∧ s.ckptBusy 5 = false ∧ 0x10000 % 4096 = 0 := by decide +kernel

/-- A resident step of the partition that holds a write whose page was written before, and one of another partition. -/
theorem test_hyp_checkpointHeld : let c : Core := { (mapped0 id).core 0 with held := [{ held0 with pages := [⟨0, 0x40000000, 0x11000, true⟩] }] }
    let s := { submits 7 40 0 0x10000 0x100000 1 with cores := [(0, c), (8, stepped (fun i => { i with part := 1 }) c)] }
    (s.core 0).step.any (fun i => i.part = 0) = true ∧ (s.core 8).step.any (fun i => i.part = 0) = false ∧
    ∃ h ∈ (s.core 0).held, ∃ y ∈ h.pages, y.dirty = true := by decide +kernel

theorem test_hyp_checkpointPage : let c := ckpt0 [(0, 0x20000, 0x10000, 0x11000)]
    let s := { submits 7 40 0 0x10000 0x100000 1 with ckpts := [c] }
    s.ckptOf c.queue = some c ∧ c.len + 0x10000 + 128 ≤ c.size ∧ 0x11000 < hostPa (c.area + 64 + c.len) ∧ s.rels = [] ∧
    s.badWord 0x20000 0x10000 = none ∧ ({ s with memUe := [0x4000] } : State).badWord 0x20000 0x10000 ≠ none ∧
    ({ s with ckpts := [ckpt0 []] } : State).ckptOf 5 = some (ckpt0 []) ∧ (ckpt0 []).quiet = true ∧ (ckpt0 []).err = {} ∧ 64 + (ckpt0 []).len ≤ (ckpt0 []).size ∧
    s.queue? bound0.id = some bound0 ∧ bound0.id = c.queue ∧ (rec0 7 40 0x10000 0x100000 1).tag = c.tag := by decide +kernel

/-- One that has met an uncorrectable word, and ones whose area is too small, for a page and for the header. -/
theorem test_hyp_checkpointEnds : let c := { ckpt0 [] with err := { cls := 0x20, engine := 7, level := 1, addrk := 2, addr := 0x20000 } }
    let d := { ckpt0 [(0, 0x20000, 0x10000, 0x11000)] with size := 0x1007F }
    let e := { ckpt0 [] with size := 63 }
    let s (c : Ckpt) : State := { submits 7 40 0 0x10000 0x100000 1 with ckpts := [c] }
    (s c).ckptOf 5 = some c ∧ c.pages = [] ∧ 64 + c.len ≤ c.size ∧ 0x10 ≤ c.err.cls ∧ c.err.cls < 256 ∧ c.err.cause < 256 ∧ c.err.addrk < 256 ∧
    c.err.engine < 16 ∧ c.err.level < 4 ∧ c.err.core < 256 ∧ (s d).ckptOf 5 = some d ∧ d.size < d.len + 0x10000 + 128 ∧ (s d).rels = [] ∧
    d.err.cls < 0x20 ∧ (s e).ckptOf 5 = some e ∧ e.size < 64 + e.len ∧ e.err.cls < 0x20 := by decide +kernel

theorem test_hyp_partition : let s := waits lq
    s.part? 1 = none ∧ (List.replicate 64 (0 : Byte)).length = 64 ∧ (∀ p ∈ s.parts, p.id = 1 ∨ p.brow + p.bheight ≤ 1 ∨ 1 + 1 ≤ p.brow ∨ p.bcol + p.bwidth ≤ 0 ∨ 0 + 1 ≤ p.bcol) ∧
    s.gridOk 0 0 0 2 2 = true ∧ (s.resident 0 || s.queued 0) = true ∧ ((waits lr).resident 0 || (waits lr).queued 0) = false ∧
    (s.part? 0).isSome = true := by decide +kernel

theorem test_hyp_queueCommands : let s := waits lq
    (∃ q ∈ s.queues, q.vf = 7 ∧ q.en = true) ∧ (∀ q ∈ s.queues, q.vf = 8 → q.en = false) ∧ (∃ x ∈ s.queues, x.id = 5 ∧ x.en = true) ∧
    (∀ x ∈ s.queues, x.id = 6 → x.en = false) ∧ (∀ x ∈ s.queues, x.vf = 7 → x.j ≠ 0) := by decide +kernel

theorem test_hyp_ptroot : let s := waits lq
    0x20000 % 4096 = 0 ∧ 0x20000 < 2 ^ 48 ∧ 0x20000 / 2 ^ 45 % 8 ≤ 2 ∧ 0x20000 % 2 ^ 45 + 4096 ≤ s.present (0x20000 / 2 ^ 45 % 8) ∧
    2 < hostPa 0 / 2 ^ 45 ∧ 2 < 2 ^ 48 / 2 ^ 45 ∧ 0x20001 % 4096 ≠ 0 ∧ s.present 0 < 2 ^ 44 % 2 ^ 45 + 4096 := by decide +kernel

/-- A core of partition 0 that holds a write which a translation of its first GiB gave, or holds nothing. -/
def heldBy0 (b : Bool) : State := mapped0 (fun c => { mapped c with held := if b then [{ held0 with pages := [⟨0, 0x40000000, 0x11000, false⟩] }] else [] })

theorem test_hyp_invalidate :
    (∀ b ∈ [true, false], let s := { heldBy0 b with nextId := 20 }
     s.part? 0 = some part0 ∧ (s.core 0).step.map (·.part) = some 0 ∧ s.holdsUnder 0 (.page 0x1000) s.nextId = b) ∧
    (∀ x ∈ (heldBy0 false).cores, x.2.held = []) ∧ Claims.covered (.page 0x1000) 0 0x40000000 ∧ Claims.covered (.range 0x3FFFFFFF 1) 0 0x40000000 ∧
    ¬ Claims.covered (.page 0x40000000) 0 0x40000000 := by
  refine ⟨by decide +kernel, by decide +kernel, by simp [Claims.covered], by simp [Claims.covered], by simp [Claims.covered]⟩

/-- An invalidation that waited, and that a held write holds up or does not any longer. -/
theorem test_hyp_pendingInv : ∀ b ∈ [true, false], let s := { heldBy0 b with invs := [(1, .whole, 5), (0, .page 0x1000, 20)] }
    (0, .page 0x1000, 20) ∈ s.invs ∧ s.holdsUnder 0 (.page 0x1000) 20 = b := by decide +kernel

theorem leVal_zeros (k : Nat) : leVal (List.replicate k 0) = 0 := by
  induction k with
  | zero => rfl
  | succ k h => rw [List.replicate_succ, leVal, h]; rfl

/-- An image with every opcode unassigned. -/
def image0 : List Byte := leBytes 8 (2 + 2 ^ 16 + 1024 * 2 ^ 32) ++ List.replicate 4152 0

theorem image0_entry (p : Nat) : leVal ((image0.drop (64 + 4 * p)).take 4) = 0 := by
  have h : image0.drop (64 + 4 * p) = List.replicate (4152 - (64 + 4 * p - 8)) 0 := by
    unfold image0
    rw [List.drop_append, List.drop_eq_nil_of_le (by rw [length_leBytes]; omega), length_leBytes, List.drop_replicate, List.nil_append]
  rw [h, List.take_replicate, leVal_zeros]

theorem image0_table : (tableOf image0).isSome = true := by
  have h : (List.range 1024).map (fun p => leVal ((image0.drop (64 + 4 * p)).take 4)) = List.replicate 1024 0 := by
    simp only [image0_entry]; decide +kernel
  unfold tableOf
  simp only [h]
  decide +kernel

/-- A decode table image that R110 accepts, and one that it refuses. -/
theorem test_hyp_decodeTable : let s := { waits lr with mem := Memory.write tables 0x30000 (leBytes 8 (2 + 2 ^ 16 + 1024 * 2 ^ 32)) }
    s.readVa 0 0 0x30000 4160 = .bytes image0 ∧ (∃ d, tableOf image0 = some d) ∧
    (∃ b, s.readVa 0 0 0x40000 4160 = .bytes b ∧ leVal (b.take 2) = 0) ∧ (s.resident 0 || s.queued 0) = false :=
  ⟨by decide +kernel, Option.isSome_iff_exists.mp image0_table, ⟨List.replicate 4160 0, by decide +kernel, by decide +kernel⟩, by decide +kernel⟩

theorem test_hyp_mmode : let s := waits lr
    s.mmodeTo = none ∧ s.anyResident = false ∧ (∀ l ∈ s.launches, l.phase ≠ 0) ∧ (∀ g ∈ s.groups, 2 ≤ g.phase) ∧ (∀ w ∈ s.windows, w.isOpen = false) ∧
    (mapped0 id).mmodeTo = none ∧ (mapped0 id).anyResident = true ∧ ({ s with mmodeTo := some 1 } : State).mmodeTo = some 1 := by decide +kernel

theorem test_hyp_mmodeLater : ∀ m < 3, ∀ q ∈ [true, false], let s := { waits lr with mmodeTo := some m, quiesced := q }
    s.mmodeTo = some m ∧ s.rels = [] ∧ s.reads = [] ∧ s.walks = [] ∧ s.hostWrites = [] ∧ s.quiesced = q := by decide +kernel

/-- Two partitions, one in each of the first two columns of bulkheads. -/
def twoParts : State := { waits lr with parts := [part0, { part0 with id := 1, bcol := 1 }] }

theorem test_hyp_window : let s := twoParts
    s.ownerOf 0 = some 0 ∧ s.ownerOf (bulkheadOf 4) = some 1 ∧ s.windows = [] ∧ 0x10000 % 4096 = 0 ∧ 0x2000 % 4096 = 0 ∧ 0x10000 + 0x2000 ≤ 0x200000 ∧
    (s.core 4).step = none ∧ 0x1F0000 + 0x10000 ≤ 0x200000 ∧ 0 ≠ 1 ∧ 2 ≠ 0 ∧ 2 ≠ 1 := by decide +kernel

/-- A window that is open, with and without commands to close it that wait, with no block of its own in flight, and one with a block in flight. -/
theorem test_hyp_windowClose : ∀ c ∈ [0, 2], let w : Win := ⟨0, 3, 1, 4, 16, 1, 0, true, [0, 1], c, 0, [], none⟩
    let s := { twoParts with windows := [w] }
    s.windows.find? (fun x => x.isOpen && x.bulkhead = w.bulkhead && x.n = w.n) = some w ∧ s.windowInFlight w.bulkhead w.n = false ∧
    2 ≠ w.wpart ∧ 2 ≠ w.tpart ∧ (c = 2 → w.closing ≠ 0) := by decide +kernel

theorem test_hyp_windowFlies : let w : Win := ⟨0, 3, 1, 4, 16, 1, 0, true, [0, 1], 1, 0, [], none⟩
    let s := { twoParts with windows := [w], rels := [rel (.window 3 0 (List.replicate 64 1))] }
    s.windows.find? (fun x => x.isOpen && x.bulkhead = w.bulkhead && x.n = w.n) = some w ∧ s.windowInFlight w.bulkhead w.n = true := by decide +kernel

theorem test_hyp_settings : let s := waits lr
    let p := { part0 with queue := [3], tokens := 2 }
    s.part? 0 = some p ∧ s.resident 0 = false ∧ resetParams.poolCount ≤ 64 ∧ resetParams.poolBase % 4096 = 0 ∧ resetParams.poolSlot % 4096 = 0 ∧
    64 < { resetParams with poolCount := 65 }.poolCount ∧ s.anyResident = false ∧ (mapped0 id).anyResident = true ∧
    (∀ x ∈ s.cores, bulkheadOf x.1 = bulkheadOf 9 → x.2.step = none) ∧ (List.replicate 128 (0 : Byte)).length % 64 = 0 := by decide +kernel

/-- A launch that runs and that the manifest does not name, when its partition is locked. -/
theorem test_hyp_lockUnmatched : let s := waits lr
    let p := { part0 with queue := [3], tokens := 2 }
    let x : Partition := { p with locked := some (p.locked.getD [] ++ []) }
    s.part? 0 = some p ∧ ([] : List Byte).length % 64 = 0 ∧ s.resident 0 = false ∧ s.launches.filter (fun y => y.id = lr.id) = [lr] ∧ lr.part = 0 ∧
    lr.phase = 1 ∧ x.bars lr.code lr.words = true ∧ s.stepsLeft lr = true ∧ (∀ l ∈ (waits lq).launches, l.phase ≠ 1) := by decide +kernel

theorem test_hyp_manifest : let m : Manifest := ⟨3, 0, [], [], true⟩
    ({ State.reset with banks := (m, ⟨2, 0, [], [], true⟩) } : State).banks.2.seq < m.seq ∧ State.reset.banks.1.valid = false ∧
    State.reset.banks.2.valid = false := by decide +kernel
/-! ### A continuation object that passes its check

Its tag rests on the package's secret, of which nothing is known: the object is put together with its tag, and the check is followed by proof. -/

/-- An object of 8,192 bytes without its tag: partition 0, decode map 1, lineage 8, generation 0. -/
def head0 : List Byte := (words8 [0x31544E4F435F4E45, 1 + 2 ^ 9 + 2 ^ 21, 8192, 8, 0] ++ List.replicate 8192 0).take 8192

/-- The object, with its tag. -/
def bytes0 : List Byte := withTag head0 (objTag head0)

theorem length_objTag (o : List Byte) : (objTag o).length = 16 := by
  have h : ∀ v : Vector Word 25, ((v.toList.take 17).flatMap (fun w => leBytes 8 w.toNat)).length = 136 := by
    intro v
    have h2 : ∀ l : List Word, (l.flatMap (fun w => leBytes 8 w.toNat)).length = 8 * l.length := by
      intro l
      induction l with
      | nil => rfl
      | cons a l ih => rw [List.flatMap_cons, List.length_append, ih, length_leBytes, List.length_cons]; omega
    rw [h2]; simp
  unfold objTag shake256
  rw [List.length_take, h]; rfl

theorem leBytes_leVal (l : List Byte) : leBytes l.length (leVal l) = l := by
  induction l with
  | nil => rfl
  | cons b l ih =>
    rw [List.length_cons, leBytes, leVal]
    have h1 : BitVec.ofNat 8 (b.toNat + 256 * leVal l) = b := by
      apply BitVec.eq_of_toNat_eq; rw [BitVec.toNat_ofNat]; have := b.isLt; omega
    have h2 : (b.toNat + 256 * leVal l) / 256 = leVal l := by have := b.isLt; omega
    rw [h1, h2, ih]

/-- A tag in its place: the bytes around it stay, and it is what stands there. -/
theorem withTag_parts {o t : List Byte} (ho : 0x200 ≤ o.length) (ht : t.length = 16) :
    (withTag o t).take 0x1F0 = o.take 0x1F0 ∧ ((withTag o t).drop 0x1F0).take 16 = t ∧ (withTag o t).drop 0x200 = o.drop 0x200 ∧
      (withTag o t).length = o.length := by
  have h1 : (o.take 0x1F0).length = 0x1F0 := by rw [List.length_take]; omega
  unfold withTag
  refine ⟨?_, ?_, ?_, ?_⟩
  · rw [List.append_assoc, List.take_left' h1]
  · rw [List.append_assoc, List.drop_left' h1, List.take_left' ht]
  · rw [List.drop_left' (by rw [List.length_append, h1, ht])]
  · rw [List.length_append, List.length_append, h1, ht, List.length_drop]; omega

theorem length_head0 : head0.length = 8192 := by decide +kernel

theorem bytes0_parts : bytes0.take 0x1F0 = head0.take 0x1F0 ∧ (bytes0.drop 0x1F0).take 16 = objTag head0 ∧ bytes0.drop 0x200 = head0.drop 0x200 ∧
    bytes0.length = 8192 := by
  have h := withTag_parts (o := head0) (by rw [length_head0]; decide) (length_objTag head0)
  rw [length_head0] at h; exact h

theorem length_bytes0 : bytes0.length = 8192 := bytes0_parts.2.2.2

theorem objTag_bytes0 : objTag bytes0 = objTag head0 := by
  have h : withTag bytes0 (List.replicate 16 0) = withTag head0 (List.replicate 16 0) := by
    unfold withTag
    rw [bytes0_parts.1, bytes0_parts.2.2.1]
  unfold objTag
  rw [h]

/-- The tag as a number. -/
def tag0 : Nat := leVal (objTag head0)

/-- Memory with the object at 0x300000. -/
def objMem : List Host.Cell := Memory.write tables 0x300000 bytes0


theorem get_objMem (x : Nat) (h : x < 0x300000) : Memory.get objMem x = Memory.get tables x := by
  unfold objMem
  rw [Memory.get_write bytes0 _, if_neg (by omega)]

theorem val_objMem (x n : Nat) (h : x + n ≤ 0x300000) : Memory.val objMem x n = Memory.val tables x n := by
  unfold Memory.val
  rw [Memory.read_congr (fun y _ h2 => get_objMem y (by omega))]

/-- A state in which partition 0 maps its first GiB to the start of memory, and nothing beyond; no word is in error but, at most, the entry beyond. -/
structure Flat (s : State) : Prop where
  part : (s.part? 0).bind (·.root) = some 0x10000
  top : Memory.val s.mem 0x10000 8 = 0x11001
  leaf : Memory.val s.mem 0x11000 8 = 0x43F
  beyond : Memory.val s.mem 0x11008 8 = 0
  ue : ∀ w ∈ s.memUe, w = 0x2201
  ce : s.memCe = []
  dies : s.deadDies = []
  size : s.sprtop = 0x4800000000
  quiet : ∀ x ∈ s.rels, x.old = none

theorem Flat.clean {s : State} (h : Flat s) {w : Nat} (hw : w ≠ 0x2201) : s.memUe.contains w = false := by
  rw [Bool.eq_false_iff]
  intro hc
  exact hw (h.ue w (by simpa using hc))

theorem walkIndex_low {va : Nat} (hv : va < 2 ^ 30) : walkIndex va 3 = 0 ∧ walkIndex va 2 = 0 :=
  have h3 : bits va 39 9 = 0 := by unfold bits; omega
  have h2 : bits va 30 9 = 0 := by unfold bits; omega
  ⟨(if_pos rfl).trans h3, (if_neg (by decide)).trans ((if_pos rfl).trans h2)⟩

theorem Flat.notLost {s : State} (h : Flat s) (x : Nat) : s.homeLost x = false := by
  unfold State.homeLost; rw [h.dies]; split <;> rfl

theorem Flat.present {s : State} (h : Flat s) (t : Bool) {x n : Nat} (hw : windowOf x = 0) (hx : x % 2 ^ 45 + n ≤ 0x4800000000) :
    s.presentOk t x n = true := by
  unfold State.presentOk State.present
  rw [hw]
  simp only [if_true, h.size]
  cases t <;> simpa using hx

theorem Flat.root {s : State} (h : Flat s) (va : Nat) : s.walk 0 va = s.walkFrom (fun _ => none) va 0x10000 3 ∧
    s.walkPath (fun _ => none) 0 va = s.pathFrom (fun _ => none) va 0x10000 3 := by
  have h1 : s.rootOf 0 = some 0x10000 := h.part
  unfold State.walk State.walkWith State.walkPath; rw [h1]; exact ⟨rfl, rfl⟩

theorem Flat.level3 {s : State} (h : Flat s) {va : Nat} (hv : walkIndex va 3 = 0) :
    s.walkFrom (fun _ => none) va 0x10000 3 = s.walkFrom (fun _ => none) va 0x11000 2 ∧
    s.pathFrom (fun _ => none) va 0x10000 3 = (3, 0x10000, 0x11001) :: s.pathFrom (fun _ => none) va 0x11000 2 := by
  have h3 : bits 0x11001 12 36 * 2 ^ 12 = 0x11000 := by decide +kernel
  constructor
  · rw [State.walkFrom, State.walkEntry]
    simp only [hv, Nat.reduceAdd, Nat.mul_zero, Nat.add_zero, h.top, h.clean (w := 0x10000 / 8) (by decide), h.notLost, h3,
      h.present true (x := 0x11000) (n := 4096) (by decide +kernel) (by decide +kernel),
      Bool.or_self, Bool.and_false, Option.getD_none, Bool.false_eq_true, if_false, Bool.not_true]
    rw [if_neg (by decide), if_neg (by decide +kernel), if_neg (by decide +kernel)]
  · rw [State.pathFrom]
    simp only [hv, Nat.reduceAdd, Nat.mul_zero, Nat.add_zero, h.top, h.clean (w := 0x10000 / 8) (by decide), h.notLost, h3,
      h.present true (x := 0x11000) (n := 4096) (by decide +kernel) (by decide +kernel),
      Bool.or_self, Bool.and_false, Option.getD_none, Bool.false_eq_true, if_false]
    rw [if_pos (by decide +kernel)]

theorem Flat.level2 {s : State} (h : Flat s) {va : Nat} (hv : walkIndex va 2 = 0) :
    s.walkFrom (fun _ => none) va 0x11000 2 = .leaf 0 0x40000000 0x43F 0x11000 2 ∧ s.pathFrom (fun _ => none) va 0x11000 2 = [(2, 0x11000, 0x43F)] := by
  have h3 : bits 0x43F 12 36 * 2 ^ 12 = 0 := by decide +kernel
  have h4 : pageSize 2 = 0x40000000 := by decide +kernel
  constructor
  · rw [State.walkFrom, State.walkEntry]
    simp only [hv, Nat.reduceAdd, Nat.mul_zero, Nat.add_zero, h.leaf, h.clean (w := 0x11000 / 8) (by decide), h.notLost, h3, h4,
      h.present false (x := 0) (n := 0x40000000) (by decide +kernel) (by decide +kernel),
      Bool.or_self, Bool.and_false, Option.getD_none, Bool.false_eq_true, if_false, Bool.or_true, if_true]
    rw [if_neg (by decide), if_neg (by decide +kernel), if_pos (by decide +kernel)]
    rfl
  · rw [State.pathFrom]
    simp only [hv, Nat.reduceAdd, Nat.mul_zero, Nat.add_zero, h.leaf, h.clean (w := 0x11000 / 8) (by decide), h.notLost, h3,
      Bool.or_self, Bool.and_false, Option.getD_none, Bool.false_eq_true, if_false]
    rw [if_neg (by simp only [Bool.and_eq_true, not_and]; intro hx; exact absurd hx (by decide +kernel))]

theorem Flat.walk {s : State} (h : Flat s) {va : Nat} (hv : va < 2 ^ 30) : s.walk 0 va = .leaf 0 0x40000000 0x43F 0x11000 2 := by
  rw [(h.root va).1, (h.level3 (walkIndex_low hv).1).1, (h.level2 (walkIndex_low hv).2).1]

theorem Flat.path {s : State} (h : Flat s) {va : Nat} (hv : va < 2 ^ 30) :
    s.walkPath (fun _ => none) 0 va = [(3, 0x10000, 0x11001), (2, 0x11000, 0x43F)] := by
  rw [(h.root va).2, (h.level3 (walkIndex_low hv).1).2, (h.level2 (walkIndex_low hv).2).2]

theorem Flat.dieTrans {s : State} (h : Flat s) {va acc : Nat} (hv : va < 2 ^ 30) : s.dieTrans 0 va acc = .inl (va, 0x11000) := by
  unfold State.dieTrans
  rw [if_neg (Nat.not_le_of_lt (Nat.lt_of_lt_of_le hv (by decide))), h.walk hv]
  have : permBad 0 0x43F acc = none := by
    unfold permBad
    rw [if_neg (by decide +kernel)]
    simp only [show (0x43F : BitVec 12).getLsbD 1 = true from rfl, show (0x43F : BitVec 12).getLsbD 2 = true from rfl,
      show (0x43F : BitVec 12).getLsbD 3 = true from rfl]
    simp
  simp only [this, Nat.zero_add]
  rw [Nat.mod_eq_of_lt (by omega)]

/-- The address after the last one mapped: its entry is not valid, or uncorrectable. -/
theorem Flat.end_ {s : State} (h : Flat s) : (s.memUe = [] → s.dieTrans 0 0x40000000 1 = .inr (.fault 0x09)) ∧
    (s.memUe = [0x2201] → s.dieTrans 0 0x40000000 1 = .inr (.table 0x11008)) ∧
    ∀ y ∈ s.walkPath (fun _ => none) 0 0x40000000, y.2.1 = 0x10000 ∨ y.2.1 = 0x11008 := by
  have hi : walkIndex 0x40000000 3 = 0 ∧ walkIndex 0x40000000 2 = 1 := by decide +kernel
  have hw : s.walk 0 0x40000000 = s.walkFrom (fun _ => none) 0x40000000 0x11000 2 := (h.root _).1.trans (h.level3 hi.1).1
  have hp : s.walkPath (fun _ => none) 0 0x40000000 = (3, 0x10000, 0x11001) :: s.pathFrom (fun _ => none) 0x40000000 0x11000 2 :=
    (h.root _).2.trans (h.level3 hi.1).2
  refine ⟨?_, ?_, ?_⟩
  · intro hu
    unfold State.dieTrans
    rw [if_neg (by decide), hw, State.walkFrom, State.walkEntry]
    simp only [hi.2, Nat.reduceAdd, Nat.reduceMul, h.beyond, hu, h.notLost, List.contains_nil, Bool.or_self, Bool.and_false, Option.getD_none,
      Bool.false_eq_true, if_false]
    rfl
  · intro hu
    unfold State.dieTrans
    rw [if_neg (by decide), hw, State.walkFrom, State.walkEntry]
    simp only [hi.2, Nat.reduceAdd, Nat.reduceMul, h.beyond, hu, h.notLost, Option.getD_none]
    rfl
  · intro y hy
    rw [hp, State.pathFrom] at hy
    simp only [hi.2, Nat.reduceAdd, Nat.reduceMul, h.beyond, Option.getD_none] at hy
    rcases List.mem_cons.1 hy with rfl | hy
    · exact .inl rfl
    · split at hy
      · cases hy
      · simp only [Nat.zero_mod, List.mem_cons] at hy
        rcases hy with rfl | hy
        · exact .inr rfl
        · simp at hy

/-- Writes beyond the tables, within what is mapped. -/
theorem Flat.takes {s : State} (h : Flat s) {a n m : Nat} (ha : 0x12000 ≤ a) (hn : a + n ≤ 2 ^ 30) (hm : a + m ≤ 2 ^ 30 + 1) :
    Claims.takesWrites s 0 a n m := by
  intro k hk
  refine ⟨a + k, 0x11000, h.dieTrans (by omega), fun j hj y hy => ?_⟩
  by_cases hlt : a + j < 2 ^ 30
  · rw [h.path hlt] at hy
    simp only [List.mem_cons, List.not_mem_nil, or_false] at hy
    rcases hy with rfl | rfl <;> simp <;> omega
  · rw [show a + j = 0x40000000 by omega] at hy
    rcases h.end_.2.2 y hy with e | e <;> rw [e] <;> omega

theorem Flat.dieRead {s : State} (h : Flat s) (acc : Nat) : ∀ (fuel va n : Nat), n < 64 * fuel → va % 64 = 0 → s.memUe = [] ∨ 0x12000 ≤ va →
    va + n ≤ 2 ^ 30 → s.dieRead 0 acc fuel va n = .bytes (Memory.read s.mem va n) := by
  have hb : ∀ a n, s.memUe = [] ∨ 0x12000 ≤ a → s.badWord a n = none := by
    intro a n ha
    unfold State.badWord
    split
    · rfl
    · rw [List.find?_eq_none]
      intro w hw
      rw [List.mem_map] at hw
      obtain ⟨i, -, rfl⟩ := hw
      rw [h.notLost]
      rcases ha with ha | ha
      · rw [ha]; simp
      · rw [h.clean (by omega)]; simp
  have hr : ∀ (k a n : Nat), k ≤ n → Memory.read s.mem a k ++ Memory.read s.mem (a + k) (n - k) = Memory.read s.mem a n := by
    intro k
    induction k with
    | zero => intro a n _; simp [Memory.read]
    | succ k ih =>
      intro a n hk
      obtain ⟨m, rfl⟩ : ∃ m, n = m + 1 := ⟨n - 1, by omega⟩
      rw [Memory.read, Memory.read, List.cons_append, show a + (k + 1) = (a + 1) + k by omega, show m + 1 - (k + 1) = m - k by omega, ih (a + 1) m (by omega)]
  intro fuel
  induction fuel with
  | zero => intro va n h0; omega
  | succ f ih =>
    intro va n h1 h2 h4 h3
    rw [State.dieRead]
    by_cases h0 : n = 0
    · subst h0; simp [Memory.read]
    · simp only [if_neg h0]
      rw [h.dieTrans (by omega)]
      simp only [hb _ _ h4, State.dieMem_quiet h.quiet]
      by_cases h5 : n ≤ 64
      · have hk : min n (64 - va % 64) = n := by omega
        have : s.dieRead 0 acc f (va + n) (n - n) = .bytes [] := by
          rw [Nat.sub_self]
          cases f <;> simp [State.dieRead]
        rw [hk, this]; simp
      · have hk : min n (64 - va % 64) = 64 := by omega
        rw [hk, ih (va + 64) (n - 64) (by omega) (by omega) (h4.imp_right (fun _ => by omega)) (by omega)]
        simp only
        rw [hr 64 va n (by omega)]

/-- The length of an object of one section. -/
theorem length_objBytes {o : Obj} {x : Section} (h : o.sections = [x]) (opts : Word) (serial : Nat) :
    (objBytes o opts serial).length = 512 + (sectionBytes x.cid x.core opts).length := by
  have hl : ∀ (l r : List Byte), ((l ++ List.replicate 512 0).take 512 ++ r).length = 512 + r.length := by
    intro l r; simp only [List.length_append, List.length_take, List.length_replicate]; omega
  unfold objBytes
  simp only [h, List.map_cons, List.map_nil, List.flatten_cons, List.flatten_nil, List.append_nil]
  rw [(withTag_parts (by rw [hl]; omega) (length_objTag _)).2.2.2, hl]

theorem length_placeParts : ∀ (ps : List (List Byte × Nat)) (a : Nat), (placeParts a ps).2.length ≤ (ps.map (fun p => p.1.length + 64)).sum
  | [], _ => Nat.le_refl _
  | (p, k) :: r, a => by
    have h := length_placeParts r (a + roundUp p.length 64)
    have h2 : (pad64 p).length ≤ p.length + 64 := by
      unfold pad64 roundUp; rw [List.length_append, List.length_replicate]; omega
    rw [placeParts, List.length_append, List.map_cons, List.sum_cons]
    exact Nat.add_le_add h2 h

theorem length_flatMap_le {α β : Type} {f : α → List β} {k : Nat} (h : ∀ x, (f x).length ≤ k) : ∀ l : List α, (l.flatMap f).length ≤ k * l.length
  | [] => Nat.zero_le _
  | x :: r => by
    have := length_flatMap_le h r
    have := h x
    rw [List.flatMap_cons, List.length_append, List.length_cons, Nat.mul_add]
    omega

/-- A section of a core with nothing on its way takes less than 16 MiB. -/
theorem length_sectionBytes (n : Nat) {c : Core} (opts : Word) (h1 : c.held = []) (h2 : c.awaits = []) (h3 : c.slots = []) (h4 : c.accOwn = [])
    (h5 : c.accUsed = []) : (sectionBytes n c opts).length ≤ 0x1000000 := by
  have e1 : ∀ v, (leBytes 4 v).length ≤ 4 := fun v => Nat.le_of_eq (length_leBytes 4 v)
  have e2 : ∀ l : List Nat, (words8 l).length ≤ 8 * l.length := length_flatMap_le (fun v => Nat.le_of_eq (length_leBytes 8 v))
  have e3 : ∀ f : Nat → List Byte, (∀ k, (f k).length ≤ 64) → ∀ k, ((List.range k).flatMap f).length ≤ 64 * k := fun f hf k => by
    have := length_flatMap_le hf (List.range k); rwa [List.length_range] at this
  have e4 : ∀ l : List Byte, (pad64 l).length ≤ l.length + 64 := fun l => by
    unfold pad64 roundUp; rw [List.length_append, List.length_replicate]; omega
  have m : (matrixBytes c).length ≤ 0x50000 := by
    have d : ∀ x y z u, (pad64 (words8 [x, y, z, u])).length ≤ 128 := fun x y z u => by
      have := e2 [x, y, z, u]
      simp only [List.length_cons, List.length_nil] at this
      exact Nat.le_trans (e4 _) (by omega)
    unfold matrixBytes
    rw [List.length_append, List.length_append]
    exact Nat.le_trans (Nat.add_le_add (Nat.add_le_add (e3 _ (fun _ => Nat.le_trans (e1 _) (by decide)) _) (e3 _ (fun _ => Nat.le_trans (e1 _) (by decide)) _)) (d ..))
      (by decide)
  have g : (granuleBytes c).length = 32768 := by unfold granuleBytes; rw [List.length_map, List.length_range]
  have w : usedRows c = [] := by unfold usedRows; rw [h4, h5]; rfl
  have r : reissueBytes n c = [] := by unfold reissueBytes; rw [h2, h3]; rfl
  have lr : (liveRange opts).2 ≤ 65536 := by unfold liveRange bits; dsimp only; split <;> dsimp only <;> omega
  unfold sectionBytes
  rw [h1, r, w, h3]
  refine Nat.le_trans (Nat.le_of_eq (List.length_append ..)) ?_
  refine Nat.le_trans (Nat.add_le_add (Nat.le_trans (Nat.le_of_eq List.length_take) (Nat.min_le_left _ _)) (length_placeParts _ _)) ?_
  have p := e3 (fun p => let x := c.arch.pipe p
    words8 [x.tail, x.serial.toNat, x.head, (c.hv.toList).getD p 0, (c.tv.toList).getD p 0])
    (fun k => Nat.le_trans (e2 _) (by simp only [List.length_cons, List.length_nil]; decide)) 8
  have q : ∀ a : Arch, (snapBytes a).length ≤ 0x3600 := fun a => Nat.le_of_eq (Memory.length_read ..)
  have q1 : ∀ (b : Bool) (a : Arch), (if b then List.replicate 0x3600 0 else snapBytes a).length ≤ 0x3600 := fun b a => by
    cases b
    · exact q a
    · exact Nat.le_of_eq (List.length_replicate ..)
  have v : (liveBytes c).length ≤ 0x100000 := by unfold liveBytes; rw [Memory.length_read]; decide
  have add : ∀ {a b r s : Nat}, a ≤ b → r ≤ s → a + 64 + r ≤ b + 64 + s := fun h k => by omega
  have t : ((List.range 16).flatMap (fun k => match mget ([] : List (Nat × CopySlot)) k with
        | none => List.replicate 16 (0 : Byte)
        | some x => words8 [1 + (if x.susp.isSome then 2 else 0), (x.susp.getD 0).toNat])).length ≤ 64 * 16 :=
    e3 _ (fun k => by simp [mget]) 16
  simp only [List.map_cons, List.map_nil, List.sum_cons, List.sum_nil, List.flatMap_nil, List.flatten_nil]
  exact Nat.le_trans (Nat.add_le_add_left (add v (add (q _) (add (q1 _ _) (add m (add (Nat.le_refl 0) (add (Nat.le_refl 0) (add t (add p
    (add (Nat.le_refl 0) (add (Nat.le_of_eq g) (add (Nat.le_trans (Nat.le_of_eq (Memory.length_read ..)) (Nat.mul_le_mul_left 64 lr))
      (Nat.le_refl 0)))))))))))) _) (by decide)

/-- The pages of the object of a core about to be captured take writes. -/
theorem test_hyp_objectPages : let s := suspending (group0 0) (fun c => { c with frozen := true })
    ∀ (o : Obj) (x : Section) (serial : Nat), o.sections = [x] → x.cid = 0 → x.core = s.core 0 →
      Claims.takesWrites s (group0 0).part (group0 0).addr (objBytes o (group0 0).opts serial).length (objBytes o (group0 0).opts serial).length := by
  intro s o x serial h h0 hc
  have f : Flat s := ⟨rfl, by show Memory.val tables 0x10000 8 = _; decide +kernel, by show Memory.val tables 0x11000 8 = _; decide +kernel,
    by show Memory.val tables 0x11008 8 = _; decide +kernel, fun w hw => absurd (show w ∈ ([] : List Nat) from hw) (by simp), rfl, rfl, rfl,
    fun y hy => absurd (show y ∈ ([] : List Rel) from hy) (by simp)⟩
  have hz : (sectionBytes 0 (s.core 0) 0).length ≤ 0x1000000 := length_sectionBytes 0 0 rfl rfl rfl rfl rfl
  rw [length_objBytes h, h0, hc]
  exact f.takes (by decide) (by show 0x200000 + _ ≤ _; have := hz; show 0x200000 + (512 + (sectionBytes 0 (s.core 0) 0).length) ≤ 2 ^ 30; omega)
    (by show 0x200000 + (512 + (sectionBytes 0 (s.core 0) 0).length) ≤ 2 ^ 30 + 1; omega)

/-- The object of those bytes. -/
def objOf : Obj := { obj0 1 with gen := 0, lineage := 8 }

/-- The object and its header as a flat state reads them. -/
theorem Flat.object {s : State} (h : Flat s) (hm : Memory.read s.mem 0x300000 8192 = bytes0) :
    s.readVa 0 0 0x300000 8192 = .bytes bytes0 ∧ s.readVa 0 0 0x300000 512 = .bytes (bytes0.take 512) := by
  unfold State.readVa
  rw [h.dieRead 0 _ _ _ (by omega) (by omega) (.inr (by omega)) (by omega), h.dieRead 0 _ _ _ (by omega) (by omega) (.inr (by omega)) (by omega), ← hm]
  refine ⟨rfl, ?_⟩
  exact congrArg _ (List.ext_getElem? (fun i => by
    rw [List.getElem?_take, Memory.getElem?_read, Memory.getElem?_read]
    by_cases hi : i < 512
    · rw [if_pos hi, if_pos hi, if_pos (by omega)]
    · rw [if_neg hi, if_neg hi]))

/-- The fields of the header below its tag. -/
theorem field_bytes0 {o n : Nat} (hon : o + n ≤ 0x1F0) : ((bytes0.take 512).drop o).take n = (head0.drop o).take n := by
  have e : (bytes0.take 512).take 0x1F0 = head0.take 0x1F0 := by rw [List.take_take, Nat.min_eq_left (by omega), bytes0_parts.1]
  have k : ∀ l : List Byte, (l.drop o).take n = ((l.take 0x1F0).drop o).take n := by
    intro l; rw [List.drop_take, List.take_take, Nat.min_eq_left (by omega)]
  rw [k (bytes0.take 512), k head0, e]

theorem Flat.objSize {s : State} (h : Flat s) (hm : Memory.read s.mem 0x300000 8192 = bytes0) : s.objSize 0 0x300000 = 8192 := by
  unfold State.objSize
  rw [(h.object hm).2]
  simp only
  rw [field_bytes0 (by decide)]
  decide +kernel

/-- The check passes in every state that maps the object, remembers it and holds its lineage. -/
theorem check_passes {s : State} {o : Obj} (hg : o.gen = 0) (h : Flat s) (hm : Memory.read s.mem 0x300000 8192 = bytes0) (ho : mget s.objs tag0 = some o)
    (hl : s.lineage? 8 = some ⟨8, 0, none, false, 0, false⟩) : s.checkObj 0 1 0x300000 = .pass tag0 o := by
  have hr := (h.object hm).1
  have hh := (h.object hm).2
  have ht : leVal ((bytes0.drop 0x1F0).take 16) = tag0 := by
    rw [bytes0_parts.2.1]; rfl
  have hf : ∀ o n, o + n ≤ 0x1F0 → ((bytes0.take 512).drop o).take n = (head0.drop o).take n := fun _ _ => field_bytes0
  have hle : leBytes 16 tag0 = objTag bytes0 := by
    rw [objTag_bytes0]; unfold tag0
    conv => lhs; rw [← length_objTag head0]
    exact leBytes_leVal _
  unfold State.checkObj
  simp only [hh, hf 0 8 (by omega), hf 8 8 (by omega), hf 0x10 8 (by omega), hf 0x18 8 (by omega)]
  rw [show leVal ((head0.drop 0x10).take 8) = 8192 from by decide +kernel]
  rw [if_neg (by decide +kernel)]
  simp only [hr, ht]
  rw [if_neg (by rw [hle]; simp only [ne_eq, not_true_eq_false, decide_false, Bool.false_or]; decide +kernel)]
  rw [ho, show leVal ((head0.drop 0x18).take 8) = 8 from by decide +kernel, hl]
  simp [hg]

/-- The control die has answered the check that the core's word asked for. -/
def checked (c : Core) : Core := { c with until? := some { time := 61, realign := false, check := true, past := true } }

/-- Core 0 about to run a word on that object, its code and its tables in place, with the control die's answer there. -/
def holding (i : Instr) : State :=
  { at0 i (fun c => checked (mapped (sregs [(1, 0x300000), (2, 0x400000)] c))) with
    parts := [part0], mem := objMem, objs := [(tag0, objOf)], lineages := [⟨8, 0, none, false, 0, false⟩] }

/-- What a flat state rests on. -/
theorem Flat.of {s t : State} (h : Flat s) (hp : t.parts = s.parts) (hm : ∀ x, Memory.get t.mem x = Memory.get s.mem x) (hu : t.memUe = s.memUe)
    (hc : t.memCe = s.memCe) (hd : t.deadDies = s.deadDies) (hz : t.sprtop = s.sprtop) (hr : t.rels = s.rels) : Flat t := by
  have hv : ∀ x n, Memory.val t.mem x n = Memory.val s.mem x n := by
    intro x n; unfold Memory.val; rw [Memory.read_congr (fun y _ _ => hm y)]
  exact ⟨by unfold State.part?; rw [hp]; exact h.part, (hv _ _).trans h.top, (hv _ _).trans h.leaf, (hv _ _).trans h.beyond, by rw [hu]; exact h.ue,
    hc.trans h.ce, hd.trans h.dies, hz.trans h.size, by rw [hr]; exact h.quiet⟩

theorem Flat.objs {s : State} (h : Flat s) (l : List (Nat × Obj)) : Flat { s with objs := l } := h.of rfl (fun _ => rfl) rfl rfl rfl rfl rfl

theorem Flat.memFix {s : State} (h : Flat s) (who : Payer) (a n : Nat) : s.memFix who a n = s := by
  unfold State.memFix wordsIn; rw [h.ce]; rfl

/-- The access bit of the leaf is set already. -/
theorem Flat.access {s : State} (h : Flat s) : s.orEntry 0x11000 4 = { s with mem := (s.orEntry 0x11000 4).mem } ∧
    ∀ x, Memory.get (s.orEntry 0x11000 4).mem x = Memory.get s.mem x := by
  refine ⟨rfl, fun x => ?_⟩
  have hb : Memory.get s.mem 0x11000 = 0x3F := by
    have h1 := h.leaf
    unfold Memory.val at h1
    rw [Memory.read, leVal] at h1
    apply BitVec.eq_of_toNat_eq
    have := (Memory.get s.mem 0x11000).isLt
    show _ = 0x3F
    omega
  unfold State.orEntry
  simp only [Memory.get_set]
  split
  · rename_i e; rw [e]; simp only [Nat.reduceDiv, Nat.add_zero, hb]; decide
  · rfl

/-- Reads by the control die leave a flat state as it was. -/
theorem Flat.leaves {va n : Nat} (who : Payer) : ∀ (ks : List Nat) (s : State), Flat s → (∀ k ∈ ks, max va (0x10000 * k) < 2 ^ 30) →
    let t := ks.foldl (fun s k =>
      let a := max va (0x10000 * k)
      let e := min (va + n) (0x10000 * (k + 1))
      let s := s.fixPath who (s.walkPath (fun _ => none) 0 a)
      match s.dieTrans 0 a 0 with
      | .inl (pa, entry) => (s.orEntry entry 4).memFix who pa (e - a)
      | .inr _ => s) s
    Flat t ∧ t = { s with mem := t.mem } ∧ ∀ x, Memory.get t.mem x = Memory.get s.mem x := by
  intro ks
  induction ks with
  | nil => intro s h _; exact ⟨h, rfl, fun _ => rfl⟩
  | cons k r ih =>
    intro s h hk
    have h1 : s.fixPath who (s.walkPath (fun _ => none) 0 (max va (0x10000 * k))) = s := by
      rw [h.path (hk k (by simp))]
      unfold State.fixPath
      rw [List.foldl_cons, h.memFix, List.foldl_cons, h.memFix, List.foldl_nil]
    have h2 : Flat (s.orEntry 0x11000 4) := h.of rfl h.access.2 rfl rfl rfl rfl rfl
    have h3 := ih (s.orEntry 0x11000 4) h2 (fun j hj => hk j (by simp [hj]))
    intro t
    have ht : t = r.foldl (fun s k =>
        let a := max va (0x10000 * k)
        let e := min (va + n) (0x10000 * (k + 1))
        let s := s.fixPath who (s.walkPath (fun _ => none) 0 a)
        match s.dieTrans 0 a 0 with
        | .inl (pa, entry) => (s.orEntry entry 4).memFix who pa (e - a)
        | .inr _ => s) (s.orEntry 0x11000 4) := by
      simp only [t, List.foldl_cons]
      rw [h1, h.dieTrans (hk k (by simp))]
      simp only [h2.memFix]
    rw [ht]
    refine ⟨h3.1, h3.2.1.trans ?_, fun x => (h3.2.2 x).trans (h.access.2 x)⟩
    rw [h.access.1]

theorem Flat.readLeaves {s : State} (h : Flat s) (who : Payer) {va n : Nat} (hv : va + n ≤ 2 ^ 30) :
    let t := s.readLeaves who 0 0 va n
    Flat t ∧ t = { s with mem := t.mem } ∧ ∀ x, Memory.get t.mem x = Memory.get s.mem x := by
  unfold State.readLeaves
  by_cases h0 : n = 0
  · simp only [h0, if_true]; exact ⟨h, trivial, fun _ => trivial⟩
  · simp only [if_neg h0]
    refine Flat.leaves who _ s h (fun k hk => ?_)
    simp only [List.mem_map, List.mem_range] at hk
    obtain ⟨j, hj, rfl⟩ := hk
    omega

theorem Flat.atIssue {s : State} (h : Flat s) (k : Nat) : Flat (s.atIssue k) := by
  rw [State.atIssue_eq]
  exact h.of rfl (fun _ => rfl) rfl rfl rfl rfl rfl

/-- A group that pre-emption captured, with that object, waits to be started again. -/
def pooled : Group := { group1 with pool := true, addr := 0x300000, tag := tag0 }

/-- Memory with that object and the record, which names the object's image of 64 bytes at 0x5000. -/
def poolMem : List Host.Cell := Memory.write (Memory.write tables 0x8008 (leBytes 8 (0x5000 + 2 ^ 48))) 0x300000 bytes0

/-- A package about to start it. -/
def restartingPool : State :=
  { waits lr with objs := [(tag0, objOf)], lineages := [⟨8, 0, none, false, 0, false⟩], groups := [pooled], mem := poolMem }

theorem mem_restartingPool : restartingPool.mem = poolMem := by simp only [restartingPool]

theorem read_poolMem {x n : Nat} (h : x + n ≤ 0x300000) :
    Memory.read poolMem x n = Memory.read (Memory.write tables 0x8008 (leBytes 8 (0x5000 + 2 ^ 48))) x n :=
  Memory.read_congr (fun y _ h2 => by unfold poolMem; rw [Memory.get_write bytes0 _, if_neg (by omega)])

theorem flat_restartingPool : Flat restartingPool := by
  have g : ∀ x, x + 8 ≤ 0x300000 → Memory.val restartingPool.mem x 8 = Memory.val (Memory.write tables 0x8008 (leBytes 8 (0x5000 + 2 ^ 48))) x 8 := by
    intro x hx; unfold Memory.val; rw [mem_restartingPool, read_poolMem hx]
  refine ⟨?_, ?_, ?_, ?_, ?_, ?_, ?_, ?_, ?_⟩
  · simp [restartingPool, waits, State.part?, part0]
  · rw [g _ (by decide)]; decide +kernel
  · rw [g _ (by decide)]; decide +kernel
  · rw [g _ (by decide)]; decide +kernel
  · simp [restartingPool, waits, State.reset]
  · simp [restartingPool, waits, State.reset]
  · simp [restartingPool, waits, State.reset]
  · simp [restartingPool, waits, State.reset]
  · simp [restartingPool, waits, State.reset]

theorem test_hyp_restartPool : let s := restartingPool
    let s1 := s.readLeaves (launchPayer objOf.launch) 0 0 pooled.addr (s.objSize 0 pooled.addr)
    let tor := Memory.read s.mem 0x8000 256
    s.groups = [pooled] ∧ pooled.phase = 1 ∧ mget s.objs pooled.tag = some objOf ∧ s.groupPlace objOf = .inl (some [0]) ∧ s.memCe = [] ∧
    s.poolCheck pooled objOf = none ∧ (s.lineage? objOf.lineage).any (fun l => l.reserved) = false ∧ s.memUe = [] ∧ s.deadDies = [] ∧
    s1.readVa 0 0 0x8000 256 = .bytes tor ∧ leVal ((tor.drop 8).take 8) = 0x5000 + 2 ^ 48 ∧
    (s1.readLeaves (launchPayer objOf.launch) 0 0 0x8000 256).readVa 0 3 0x5000 64 = .bytes (List.replicate 64 0) ∧ objOf.image.length = 64 := by
  have f := flat_restartingPool
  have hm : Memory.read restartingPool.mem 0x300000 8192 = bytes0 := by
    rw [mem_restartingPool, poolMem, ← length_bytes0]; exact Memory.read_write _ _ _
  have hl : restartingPool.lineage? 8 = some ⟨8, 0, none, false, 0, false⟩ := by simp [restartingPool, State.lineage?]
  have hu : restartingPool.memUe = [] := by simp [restartingPool, waits, State.reset]
  have ho : mget restartingPool.objs tag0 = some objOf := by simp [restartingPool, mget]
  have f1 := f.readLeaves (launchPayer objOf.launch) (va := 0x300000) (n := 8192) (by decide)
  have f2 := f1.1.readLeaves (launchPayer objOf.launch) (va := 0x8000) (n := 256) (by decide)
  have hz : restartingPool.objSize 0 pooled.addr = 8192 := f.objSize hm
  have u1 : (restartingPool.readLeaves (launchPayer objOf.launch) 0 0 0x300000 8192).memUe = [] := by rw [f1.2.1]; exact hu
  have u2 : ((restartingPool.readLeaves (launchPayer objOf.launch) 0 0 0x300000 8192).readLeaves (launchPayer objOf.launch) 0 0 0x8000 256).memUe = [] := by
    rw [f2.2.1]; exact u1
  intro s s1 tor
  have e1 : s1 = restartingPool.readLeaves (launchPayer objOf.launch) 0 0 0x300000 8192 := by simp only [s1, s, hz]; rfl
  have r0 : tor = Memory.read (Memory.write tables 0x8008 (leBytes 8 (0x5000 + 2 ^ 48))) 0x8000 256 := by
    simp only [tor, s]; rw [mem_restartingPool]; exact read_poolMem (by decide)
  have hp : s.groupPlace objOf = .inl (some [0]) := by
    have : (waits lr).groupPlace (obj0 1) = .inl (some [0]) := by decide +kernel
    simp only [← this]; rfl
  refine ⟨by simp [s, restartingPool], rfl, ho, hp, f.ce, ?_, ?_, hu, f.dies, ?_, by rw [r0]; decide +kernel, ?_, rfl⟩
  · unfold State.poolCheck
    rw [show s.checkObj objOf.part objOf.mapid pooled.addr = .pass tag0 objOf from check_passes rfl f hm ho hl]
    simp [pooled]
  · rw [show s.lineage? objOf.lineage = some ⟨8, 0, none, false, 0, false⟩ from hl]; rfl
  · rw [e1]
    unfold State.readVa
    rw [f1.1.dieRead 0 _ _ _ (by omega) (by omega) (.inl u1) (by omega)]
    exact congrArg _ (Memory.read_congr (fun y _ _ => f1.2.2 y))
  · rw [e1]
    unfold State.readVa
    rw [f2.1.dieRead 3 _ _ _ (by omega) (by omega) (.inl u2) (by omega)]
    refine congrArg _ ((Memory.read_congr (fun y _ _ => (f2.2.2 y).trans (f1.2.2 y))).trans ?_)
    rw [mem_restartingPool, read_poolMem (by decide)]
    decide +kernel

theorem flat_objMem {s : State} (h : s.mem = objMem) (hp : (s.part? 0).bind (·.root) = some 0x10000) (hu : s.memUe = []) (hc : s.memCe = [])
    (hd : s.deadDies = []) (hs : s.sprtop = 0x4800000000) (hr : s.rels = []) : Flat s :=
  ⟨hp, by rw [h, val_objMem _ _ (by decide)]; decide +kernel, by rw [h, val_objMem _ _ (by decide)]; decide +kernel,
    by rw [h, val_objMem _ _ (by decide)]; decide +kernel, by simp [hu], hc, hd, hs, by simp [hr]⟩

theorem read_objMem : Memory.read objMem 0x300000 8192 = bytes0 := by
  rw [← length_bytes0]; exact Memory.read_write _ _ _

theorem flat_holding (i : Instr) : Flat (holding i) := by
  apply flat_objMem
  · simp only [holding]
  · simp [holding, State.part?, part0]
  · simp only [holding, at0, State.updCore, State.setCore, State.withFetchWord]; rfl
  · simp only [holding, at0, State.updCore, State.setCore, State.withFetchWord]; rfl
  · simp only [holding, at0, State.updCore, State.setCore, State.withFetchWord]; rfl
  · simp only [holding, at0, State.updCore, State.setCore, State.withFetchWord]; rfl
  · simp only [holding, at0, State.updCore, State.setCore, State.withFetchWord]; rfl

theorem test_hyp_checkObj (i : Instr) : ((holding i).atIssue 1).checkObj 0 1 0x300000 = .pass tag0 objOf := by
  refine check_passes rfl (Flat.atIssue (flat_holding i) 1) ?_ ?_ ?_
  · rw [State.atIssue_eq]; simp only [holding]; exact read_objMem
  · rw [State.atIssue_eq]; simp [holding, mget]
  · rw [State.atIssue_eq]; simp [holding, State.lineage?]

/-- An SR-form word on s1 and s2. -/
def w12 : SRWord := ⟨1, 0, 1, 2, 0⟩

theorem test_hyp_resume : let s := holding (.resume w12)
    (s.atIssue 1).checkObj 0 1 0x300000 = .pass tag0 objOf ∧
    s.canIssue (hdSR (.resume w12) w12 none) (fun cx => refS (rotS cx (w12.z == 1) w12.a.toNat) ++ refS (rotS cx (w12.z == 1) w12.b.toNat)) ∧
    readS (s.issueCore 1) (s.issueCtx 1) 1 = (0x300000, false) ∧ readS (s.issueCore 1) (s.issueCtx 1) 2 = (0x400000, false) ∧
    (s.core s.cur).step = some (fetchStep 0) ∧ (fetchStep 0).suppress = none ∧ (fetchStep 0).part = 0 ∧ (fetchStep 0).dtab.mapid = 1 ∧
    (s.issueCore 1).answered = true ∧ ((s.atIssue 1).translateAll s.cur [(0x300000, 0)]).getRight? = some [0x300000] :=
  ⟨test_hyp_checkObj _, by decide +kernel⟩

theorem test_hyp_fork : let s := holding (.fork w12)
    (s.atIssue 1).checkObj 0 1 0x300000 = .pass tag0 objOf ∧
    s.canIssue (hdSR (.fork w12) w12 none) (fun cx => refS (rotS cx (w12.z == 1) w12.a.toNat) ++ refS (rotS cx (w12.z == 1) w12.b.toNat)) ∧
    readS (s.issueCore 1) (s.issueCtx 1) 1 = (0x300000, false) ∧ readS (s.issueCore 1) (s.issueCtx 1) 2 = (0x400000, false) ∧
    (s.core s.cur).step = some (fetchStep 0) ∧ (s.issueCore 1).answered = true ∧ objOf.midRegion = false ∧
    ((s.atIssue 1).translateAll s.cur [(0x300000, 0), (0x400000, 1)]).getRight? = some [0x300000, 0x400000] :=
  ⟨test_hyp_checkObj _, by decide +kernel⟩

/-- The check has not been asked for yet, and the port of the bulkhead is free. -/
theorem test_hyp_unanswered : ∀ i ∈ ([.resume w12, .fork w12] : List Instr), let s := at0 i (fun c => mapped (sregs [(1, 0x300000), (2, 0x400000)] c))
    s.canIssue (hdSR i w12 none) (fun cx => refS (rotS cx (w12.z == 1) w12.a.toNat) ++ refS (rotS cx (w12.z == 1) w12.b.toNat)) ∧
    readS (s.issueCore 1) (s.issueCtx 1) 1 = (0x300000, false) ∧ readS (s.issueCore 1) (s.issueCtx 1) 2 = (0x400000, false) ∧
    (s.core s.cur).step = some (fetchStep 0) ∧ (s.issueCore 1).answered = false ∧ s.portAt s.cur ≤ (s.issueCore 1).dt ∧
    ((s.atIssue 1).translateAll s.cur [(0x300000, 0), (0x400000, 1)]).getRight? = some [0x300000, 0x400000] := by decide +kernel

/-- DISCARD has one operand. -/
def wd : SRWord := ⟨1, 0, 1, 0, 0⟩

theorem test_hyp_discard_unanswered : let s := at0 (.discard wd) (fun c => mapped (sregs [(1, 0x300000)] c))
    s.canIssue (hdSR (.discard wd) wd none) (fun cx => refS (rotS cx (wd.z == 1) wd.a.toNat)) ∧ (s.issueCore 1).answered = false ∧ s.portAt s.cur ≤ (s.issueCore 1).dt ∧
    ((s.atIssue 1).translateAll s.cur [(0x300000, 0)]).getRight? = some [0x300000] := by decide +kernel

theorem test_hyp_discard : let s := holding (.discard wd)
    (s.atIssue 1).checkObj 0 1 0x300000 = .pass tag0 objOf ∧ s.canIssue (hdSR (.discard wd) wd none) (fun cx => refS (rotS cx (wd.z == 1) wd.a.toNat)) ∧
    readS (s.issueCore 1) (s.issueCtx 1) 1 = (0x300000, false) ∧ (s.core s.cur).step = some (fetchStep 0) ∧ (s.issueCore 1).answered = true ∧
    ((s.atIssue 1).translateAll s.cur [(0x300000, 0)]).getRight? = some [0x300000] :=
  ⟨test_hyp_checkObj _, by decide +kernel⟩

/-- In suppress mode the three words make no check. -/
theorem test_hyp_suppressed : ∀ i ∈ ([.resume w12, .fork w12, .discard wd] : List Instr),
    let s := at0 i (fun c => stepped (fun k => { k with suppress := some (2, 5) }) (mapped (sregs [(1, 0x300000), (2, 0x400000)] c)))
    s.canIssue (match i with | .discard w => hdSR i w none | _ => hdSR i w12 none) (fun cx => refS (rotS cx (w12.z == 1) w12.a.toNat)) ∧
    ((s.core s.cur).step.bind (·.suppress)).isSome = true := by decide +kernel

/-- The bytes of a record of `typ` with operands a and b. -/
def recBytes (typ a b : Nat) : List Byte := [40 + typ * 2 ^ 24 + 7 * 2 ^ 32, 0x55, a, b, 0].flatMap (leBytes 8)

/-- A package that is about to accept such a record of the object at 0x300000. -/
def submitsObj (typ b : Nat) : State :=
  { submits typ 40 0 0x300000 b 0 with
    mem := Memory.write objMem (hostPa 0x100000) (recBytes typ 0x300000 b), objs := [(tag0, objOf)], lineages := [⟨8, 0, none, false, 0, false⟩] }


theorem get_submitsObj (typ b x : Nat) (h : x < 0x400000) :
    Memory.get (Memory.write objMem (hostPa 0x100000) (recBytes typ 0x300000 b)) x = Memory.get objMem x := by
  rw [Memory.get_write _ _, if_neg]
  have : hostPa 0x100000 = 4 * 2 ^ 45 + 0x100000 := rfl
  omega

theorem mem_submitsObj (typ b : Nat) : (submitsObj typ b).mem = Memory.write objMem (hostPa 0x100000) (recBytes typ 0x300000 b) := by
  simp only [submitsObj]

theorem flat_submitsObj (typ b : Nat) : Flat (submitsObj typ b) := by
  have g : ∀ x, x + 8 ≤ 0x400000 → Memory.val (submitsObj typ b).mem x 8 = Memory.val objMem x 8 := by
    intro x hx
    unfold Memory.val
    rw [mem_submitsObj, Memory.read_congr (fun y _ h2 => get_submitsObj typ b y (by omega))]
  refine ⟨?_, ?_, ?_, ?_, ?_, ?_, ?_, ?_, ?_⟩
  · simp [submitsObj, submits, waits, State.part?, part0]
  · rw [g _ (by decide), val_objMem _ _ (by decide)]; decide +kernel
  · rw [g _ (by decide), val_objMem _ _ (by decide)]; decide +kernel
  · rw [g _ (by decide), val_objMem _ _ (by decide)]; decide +kernel
  · simp [submitsObj, submits, waits, State.reset]
  · simp [submitsObj, submits, waits, State.reset]
  · simp [submitsObj, submits, waits, State.reset]
  · simp [submitsObj, submits, waits, State.reset]
  · simp [submitsObj, submits, waits, State.reset]

/-- The partition is not in capture mode: its acceptance is logged nowhere. -/
theorem capture_submitsObj (typ b k x y : Nat) : (submitsObj typ b).capture 0 k x y = submitsObj typ b := by
  unfold State.capture
  rw [show ((submitsObj typ b).part? 0).bind (·.capture) = none by simp [submitsObj, submits, waits, State.part?, part0]]

theorem test_hyp_recPasses (typ b : Nat) (vas : List (Nat × Nat))
    (h : vas = [(0x300000, 0)] ∨ vas = [(0x300000, 0), (0x400000, 1)] ∨ vas = [(0x300000, 0), (0x3FFFF000, 1)]) :
    ((submitsObj typ b).capture 0 1 5 7).recCheck partR 0x300000 vas = .inr (tag0, objOf) := by
  rw [capture_submitsObj]
  have hc : (submitsObj typ b).checkObj 0 1 0x300000 = .pass tag0 objOf := by
    refine check_passes rfl (flat_submitsObj typ b) ?_ ?_ ?_
    · rw [mem_submitsObj, Memory.read_congr (k := objMem) (fun y _ h2 => get_submitsObj typ b y (by omega))]; exact read_objMem
    · simp [submitsObj, mget]
    · simp [submitsObj, State.lineage?]
  have h1 := (flat_submitsObj typ b).dieTrans (va := 0x300000) (acc := 0) (by decide)
  have h2 := (flat_submitsObj typ b).dieTrans (va := 0x400000) (acc := 1) (by decide)
  have h3 := (flat_submitsObj typ b).dieTrans (va := 0x3FFFF000) (acc := 1) (by decide)
  have hp : partR.id = 0 ∧ partR.dtab.mapid = 1 := by decide +kernel
  rcases h with rfl | rfl | rfl <;> simp [State.recCheck, hp.1, hp.2, h1, h2, h3, hc]

/-- What the reads of a record's object leave in a flat state. -/
theorem copies_flat {s : State} (h : Flat s) (hm : Memory.read s.mem 0x300000 8192 = bytes0) (ho : mget s.objs tag0 = some objOf)
    (hl : s.lineage? 8 = some ⟨8, 0, none, false, 0, false⟩) {b : Nat} (hb : b % 4096 = 0) (hb2 : b < 2 ^ 30) :
    let s2 := s.recRead partR 0x300000 [(0x300000, 0), (b, 1)]
    let s3 := s2.readLeaves none 0 0 0x300000 (s2.objSize 0 0x300000)
    s2.readVa 0 0 0x300000 (s2.objSize 0 0x300000) = .bytes bytes0 ∧ Flat s3 ∧ s3.memUe = s.memUe := by
  have hp : partR.id = 0 ∧ partR.dtab.mapid = 1 := by decide +kernel
  have h1 : s.recRead partR 0x300000 [(0x300000, 0), (b, 1)] = s.readLeaves none 0 0 0x300000 8192 := by
    unfold State.recRead
    rw [hp.1, hp.2, h.objSize hm, check_passes rfl h hm ho hl]
    simp [hb, h.dieTrans (va := 0x300000) (acc := 0) (by decide), h.dieTrans (va := b) (acc := 1) hb2]
  intro s2 s3
  have e2 : s2 = s.readLeaves none 0 0 0x300000 8192 := h1
  have f2 := h.readLeaves none (va := 0x300000) (n := 8192) (by decide)
  rw [← e2] at f2
  have m2 : Memory.read s2.mem 0x300000 8192 = bytes0 := by rw [Memory.read_congr (fun y _ _ => f2.2.2 y), hm]
  have hz := f2.1.objSize m2
  have f3 := f2.1.readLeaves none (va := 0x300000) (n := 8192) (by decide)
  have e3 : s3 = s2.readLeaves none 0 0 0x300000 8192 := by simp only [s3, hz]
  rw [← e3] at f3
  refine ⟨by rw [hz]; exact (f2.1.object m2).1, f3.1, ?_⟩
  rw [f3.2.1, f2.2.1]

theorem read_submitsObj (typ b : Nat) : Memory.read (submitsObj typ b).mem 0x300000 8192 = bytes0 := by
  rw [mem_submitsObj, Memory.read_congr (k := objMem) (fun y _ h2 => get_submitsObj typ b y (by omega))]; exact read_objMem

/-- A copy that finds room. -/
theorem test_hyp_copies : let s2 := (submitsObj 5 0x400000).recRead partR 0x300000 [(0x300000, 0), (0x400000, 1)]
    let s3 := s2.readLeaves none 0 0 0x300000 (s2.objSize 0 0x300000)
    s2.readVa 0 0 0x300000 (s2.objSize 0 0x300000) = .bytes bytes0 ∧ Claims.takesWrites s3 0 0x400000 bytes0.length bytes0.length ∧
    objOf.midRegion = false := by
  have h := copies_flat (flat_submitsObj 5 0x400000) (read_submitsObj _ _) (by simp [submitsObj, mget]) (by simp [submitsObj, State.lineage?])
    (b := 0x400000) (by decide) (by decide)
  exact ⟨h.1, h.2.1.takes (by decide) (by rw [length_bytes0]; decide) (by rw [length_bytes0]; decide), rfl⟩

/-- A package whose table entry beyond the first GiB is uncorrectable, or not. -/
def beyond (b : Bool) : State := { submitsObj 5 0x3FFFF000 with memUe := if b then [0x2201] else [] }

/-- A copy the second half of which lies beyond what is mapped: an entry that is not valid, or uncorrectable. -/
theorem test_hyp_copyFails : ∀ b ∈ [true, false], let s2 := (beyond b).recRead partR 0x300000 [(0x300000, 0), (0x3FFFF000, 1)]
    let s3 := s2.readLeaves none 0 0 0x300000 (s2.objSize 0 0x300000)
    s2.readVa 0 0 0x300000 (s2.objSize 0 0x300000) = .bytes bytes0 ∧ 4096 < bytes0.length ∧ Claims.takesWrites s3 0 0x3FFFF000 4096 4097 ∧
    s3.dieTrans 0 (0x3FFFF000 + 4096) 1 = .inr (if b then .table 0x11008 else .fault 0x09) ∧
    ∀ k, k < 4096 → ∀ y, s3.dieTrans 0 (0x3FFFF000 + k) 1 = .inl y → y.1 < 0x11008 ∨ 0x11008 + 8 ≤ y.1 := by
  intro b _
  have f0 := flat_submitsObj 5 0x3FFFF000
  have hm : (beyond b).mem = (submitsObj 5 0x3FFFF000).mem := rfl
  have f : Flat (beyond b) := by
    refine ⟨f0.part, by rw [hm]; exact f0.top, by rw [hm]; exact f0.leaf, by rw [hm]; exact f0.beyond, fun w hw => ?_, f0.ce, f0.dies, f0.size, f0.quiet⟩
    cases b
    · exact absurd (show w ∈ ([] : List Nat) from hw) (by simp)
    · exact List.mem_singleton.1 (show w ∈ [0x2201] from hw)
  have h := copies_flat f (by rw [hm]; exact read_submitsObj _ _) (by simp [beyond, submitsObj, mget]) (by simp [beyond, submitsObj, State.lineage?])
    (b := 0x3FFFF000) (by decide) (by decide)
  refine ⟨h.1, by rw [length_bytes0]; decide, h.2.1.takes (by decide) (by decide) (by decide), ?_, fun k hk y hy => ?_⟩
  · have hu := h.2.2
    cases b
    · exact h.2.1.end_.1 hu
    · exact h.2.1.end_.2.1 hu
  · rw [h.2.1.dieTrans (by omega)] at hy
    cases hy
    exact .inr (by show 0x11008 + 8 ≤ 0x3FFFF000 + k; omega)

theorem length_recBytes (typ b : Nat) : (recBytes typ 0x300000 b).length = 40 := by simp [recBytes]

theorem val_submitsObj (typ b o : Nat) (h : o + 8 ≤ 40) :
    Memory.val (submitsObj typ b).mem (hostPa 0x100000 + o) 8 = leVal (((recBytes typ 0x300000 b).drop o).take 8) := by
  have hl := length_recBytes typ b
  rw [mem_submitsObj]
  generalize recBytes typ 0x300000 b = bs at hl ⊢
  generalize hostPa 0x100000 = k
  unfold Memory.val
  congr 1
  apply List.ext_getElem?
  intro i
  rw [Memory.getElem?_read, List.getElem?_take]
  by_cases hi : i < 8
  · rw [if_pos hi, if_pos hi, List.getElem?_drop, Memory.get_write _ _, if_pos (by omega), show k + o + i - k = o + i by omega,
      List.getD_eq_getElem?_getD, List.getElem?_eq_getElem (by omega), Option.getD_some]
  · rw [if_neg hi, if_neg hi]

theorem headRec_submitsObj (typ b : Nat) (h : ((typ, b) : Nat × Nat) ∈ ([(4, 0), (5, 0x400000), (5, 0x3FFFF000), (6, 0)] : List (Nat × Nat))) :
    (submitsObj typ b).headRec bound0 = rec0 typ 40 0x300000 b 0 := by
  have hz : ∀ o, o + 8 ≤ 40 → Memory.val (submitsObj typ b).mem (hostPa (bound0.sqbase.toNat + (bound0.sqhead + o) % bound0.sqZ)) 8 =
      leVal (((recBytes typ 0x300000 b).drop o).take 8) := by
    intro o ho
    rw [show hostPa (bound0.sqbase.toNat + (bound0.sqhead + o) % bound0.sqZ) = hostPa 0x100000 + o from by
      have h1 : bound0.sqbase.toNat = 0x100000 ∧ bound0.sqhead = 0 ∧ bound0.sqZ = 4096 := by decide +kernel
      rw [h1.1, h1.2.1, h1.2.2, Nat.zero_add, Nat.mod_eq_of_lt (by omega)]; unfold hostPa; omega]
    exact val_submitsObj _ _ _ ho
  unfold State.headRec
  rw [State.dieMem_quiet (flat_submitsObj typ b).quiet]
  simp only [hz 0 (by decide), hz 8 (by decide), hz 16 (by decide), hz 24 (by decide), hz 32 (by decide)]
  have : ∀ x ∈ ([(4, 0), (5, 0x400000), (5, 0x3FFFF000), (6, 0)] : List (Nat × Nat)),
      let w (o : Nat) : Nat := leVal (((recBytes x.1 0x300000 x.2).drop o).take 8)
      (⟨bits (w 0) 24 4, bits (w 0) 0 24, bits (w 0) 28 4, bits (w 0) 32 32, BitVec.ofNat 64 (w 8), w 16, w 24, w 32⟩ : SubRec) =
        rec0 x.1 40 0x300000 x.2 0 := by decide +kernel
  exact this (typ, b) h

/-- A queue's record is accepted by its flags, the bindings and the partitions. -/
theorem acceptable_congr {s t : State} (q : Queue) {r r' : SubRec} (hv : s.vfs = t.vfs) (hp : s.parts = t.parts) (hf : r.flags = r'.flags)
    (hr : s.rels = []) (ht : t.rels = []) :
    s.acceptable q r = t.acceptable q r' := by
  have h : ∀ k, s.part? k = t.part? k := by intro k; unfold State.part?; rw [hp]
  unfold State.acceptable State.sealWaits
  simp [hv, hf, h, hr, ht]

theorem test_hyp_acceptObj : ∀ x ∈ ([(4, 0), (5, 0x400000), (5, 0x3FFFF000), (6, 0)] : List (Nat × Nat)),
    Claims.accepts (submitsObj x.1 x.2) bound0 partR (rec0 x.1 40 0x300000 x.2 0) x.1 ∧ (submitsObj x.1 x.2).part? partR.id = some partR ∧
    mget (submitsObj x.1 x.2).objs tag0 = some objOf ∧ (submitsObj x.1 x.2).lineage? objOf.lineage = some ⟨8, 0, none, false, 0, false⟩ := by
  intro x hx
  have ha : (submitsObj x.1 x.2).acceptable bound0 (rec0 x.1 40 0x300000 x.2 0) = some partR := by
    have : (submits 4 40 0 0 0 0).acceptable bound0 (rec0 4 40 0 0 0) = some partR := by decide +kernel
    rw [← this]
    exact acceptable_congr bound0 (by simp [submitsObj, submits]) (by simp [submitsObj, submits, waits]) rfl
      (by simp [submitsObj, submits, waits, State.reset]) (by simp [submits, waits, State.reset])
  refine ⟨⟨?_, headRec_submitsObj x.1 x.2 hx, rfl, ha⟩, ?_, ?_, ?_⟩
  · simp [submitsObj, submits, State.queue?, bound0, queue0]
  · simp [submitsObj, submits, waits, State.part?, partR, part0, lr, lq, launch0]
  · simp [submitsObj, mget]
  · simp [submitsObj, State.lineage?, objOf]

/-- An object that was captured in the middle of a region. -/
def midObj : Obj := { objOf with midRegion := true }

theorem test_hyp_forkMid : let s := { holding (.fork w12) with objs := [(tag0, midObj)] }
    (s.atIssue 1).checkObj 0 1 0x300000 = .pass tag0 midObj ∧ midObj.midRegion = true := by
  refine ⟨check_passes rfl (Flat.atIssue (Flat.objs (flat_holding (.fork w12)) _) 1) ?_ ?_ ?_, rfl⟩
  · rw [State.atIssue_eq]; simp only [holding]; exact read_objMem
  · rw [State.atIssue_eq]; simp [mget]
  · rw [State.atIssue_eq]; simp [holding, State.lineage?]

/-- The object of a fork. -/
def forkedObj : Obj := { objOf with forked := true }

/-- Records of an object captured in the middle of a region, and of a fork's. -/
theorem test_hyp_recOther : ∀ o ∈ [midObj, forkedObj], let s := { submitsObj 5 0x400000 with objs := [(tag0, o)] }
    (s.capture 0 1 5 7).recCheck partR 0x300000 [(0x300000, 0), (0x400000, 1)] = .inr (tag0, o) ∧
    (s.capture 0 1 5 7).recCheck partR 0x300000 [(0x300000, 0)] = .inr (tag0, o) ∧ mget s.objs tag0 = some o ∧ o.sections ≠ [] ∧
    objOf.sections ≠ [] ∧ (submitsObj 6 0).launch? objOf.launch = some lr := by
  intro o ho s
  have e : s.capture 0 1 5 7 = s := by
    unfold State.capture
    rw [show (s.part? 0).bind (·.capture) = none by simp [s, submitsObj, submits, waits, State.part?, part0]]
  rw [e]
  have hg : o.gen = 0 ∧ o.sections ≠ [] := by
    rcases List.mem_cons.1 ho with rfl | h
    · exact ⟨rfl, List.cons_ne_nil _ _⟩
    · rw [List.mem_singleton.1 h]; exact ⟨rfl, List.cons_ne_nil _ _⟩
  obtain ⟨hg, hs⟩ := hg
  have f := Flat.objs (flat_submitsObj 5 0x400000) [(tag0, o)]
  have hc : s.checkObj 0 1 0x300000 = .pass tag0 o := by
    refine check_passes hg f ?_ ?_ ?_
    · show Memory.read (submitsObj 5 0x400000).mem _ _ = _
      rw [mem_submitsObj, Memory.read_congr (k := objMem) (fun y _ h2 => get_submitsObj 5 0x400000 y (by omega))]; exact read_objMem
    · simp [s, mget]
    · simp [s, submitsObj, State.lineage?]
  have h1 := f.dieTrans (va := 0x300000) (acc := 0) (by decide)
  have h2 := f.dieTrans (va := 0x400000) (acc := 1) (by decide)
  have hp : partR.id = 0 ∧ partR.dtab.mapid = 1 := by decide +kernel
  have h3 : s.dieTrans 0 0x300000 0 = .inl (0x300000, 0x11000) := h1
  have h4 : s.dieTrans 0 0x400000 1 = .inl (0x400000, 0x11000) := h2
  refine ⟨?_, ?_, by simp [s, mget], hs, List.cons_ne_nil _ _, by simp [submitsObj, submits, waits, State.launch?, lr, lq, launch0, objOf, obj0]⟩
  · simp [State.recCheck, hp.1, hp.2, h3, h4, hc]
  · simp [State.recCheck, hp.1, hp.2, h3, hc]

/-! ### Words written out from the spec's encodings (R89 to R102) -/

/-- The units of a word of `k` units, in memory order: the most significant first. -/
def unitsOf (k w : Nat) : List (BitVec 32) := (List.range k).map (fun i => BitVec.ofNat 32 (w / 2 ^ (32 * (k - 1 - i))))

/-- What a word of `k` units decodes to. -/
def word (k w : Nat) : Option (Decoded × List Byte) := decodeBytes (unitBytes (unitsOf k w))

/-- R116, SR: op 0x000, idle, d, a, b, z. -/
theorem test_word_add : word 1 (0x000#10 ++ 1#3 ++ 3#6 ++ 33#6 ++ 47#6 ++ 1#1).toNat = some (.instr (.add ⟨1, 3, 33, 47, 1⟩), []) := by decide +kernel

/-- R118, SI: op 0x040, idle, d, a, imm7. -/
theorem test_word_addi : word 1 (0x040#10 ++ 2#3 ++ 31#6 ++ 31#6 ++ 0x78#7).toNat = some (.instr (.addi ⟨2, 31, 31, 0x78⟩), []) := by decide +kernel

/-- R119, SL: op 0x048, idle, d, imm13. -/
theorem test_word_movi : word 1 (0x048#10 ++ 1#3 ++ 4#6 ++ 0x1FFF#13).toNat = some (.instr (.movi ⟨1, 4, 0x1FFF⟩), []) := by decide +kernel

/-- R124, SJ: op 0x081, idle, off19. -/
theorem test_word_jmp : word 1 (0x081#10 ++ 1#3 ++ 0x7FFFF#19).toNat = some (.instr (.jmp ⟨1, 0x7FFFF⟩), []) := by decide +kernel

/-- R132, SX: op 0x086, idle, a, stages − 1, body length, reserved. -/
theorem test_word_loop : word 1 (0x086#10 ++ 1#3 ++ 5#6 ++ 2#3 ++ 40#6 ++ 0#4).toNat = some (.instr (.loop ⟨1, 5, 2, 40, 0⟩), []) := by decide +kernel

/-- R131, SQ: op 0x087, idle, file, base and length of either ring. -/
theorem test_word_loopr : word 1 (0x087#10 ++ 1#3 ++ 1#1 ++ 8#5 ++ 4#4 ++ 16#5 ++ 2#4).toNat = some (.instr (.loopr ⟨1, 1, 8, 4, 16, 2⟩), []) := by
  decide +kernel

/-- R128: NOP, op 0x088, of idle count 65,535 in bits 15 to 0. -/
theorem test_word_nop : word 1 (0x088#10 ++ 0#3 ++ 0#3 ++ 0xFFFF#16).toNat = some (.instr (.nop ⟨0, 0xFFFF⟩), []) := by decide +kernel

/-- R149: FCVT, op 0x0CF. -/
theorem test_word_fcvt : word 1 (0x0CF#10 ++ 1#3 ++ 6#6 ++ 7#6 ++ 0x13#6 ++ 0#1).toNat = some (.instr (.fcvt ⟨1, 6, 7, 0x13, 0⟩), []) := by decide +kernel

/-- R150, SC: op 0x0E0, idle, d, CSR number. -/
theorem test_word_csrr : word 1 (0x0E0#10 ++ 1#3 ++ 9#6 ++ 0x080#13).toNat = some (.instr (.csrr ⟨1, 9, 0x080⟩), []) := by decide +kernel

/-- R292, SF: op 0x108, idle, class mask, scope. -/
theorem test_word_fence : word 1 (0x108#10 ++ 1#3 ++ 0x8001#16 ++ 5#3).toNat = some (.instr (.fence ⟨1, 0x8001, 5⟩), []) := by decide +kernel

/-- R94, VA: op 0x200 VADD, idle, d, a, b, c, mask, mz, type, rnd, rot, stage, imm. -/
theorem test_word_vadd : word 3 (0x200#10 ++ 1#3 ++ 3#8 ++ 64#8 ++ 119#8 ++ 0#8 ++ 5#3 ++ 1#1 ++ 4#4 ++ 2#3 ++ 0xA#4 ++ 6#3 ++ 0x03F800000#33).toNat =
    some (.instr (.vadd ⟨1, 3, 64, 119, 0, 5, 1, 4, 2, 0xA, 6, 0x03F800000⟩), []) := by decide +kernel

/-- R172: VICMP, op 0x24D; its condition in imm[2:0]. -/
theorem test_word_vicmp : word 3 (0x24D#10 ++ 1#3 ++ 7#8 ++ 1#8 ++ 2#8 ++ 0#8 ++ 0#3 ++ 0#1 ++ 3#4 ++ 0#3 ++ 0#4 ++ 0#3 ++ 5#33).toNat =
    some (.instr (.vicmp ⟨1, 7, 1, 2, 0, 0, 0, 3, 0, 0, 0, 5⟩), []) := by decide +kernel

/-- R187: VMOV, op 0x270; imm[1:0] = 2 reads a pattern register. -/
theorem test_word_vmov : word 3 (0x270#10 ++ 1#3 ++ 3#8 ++ 2#8 ++ 0#8 ++ 0#8 ++ 0#3 ++ 0#1 ++ 0#4 ++ 0#3 ++ 0#4 ++ 0#3 ++ 2#33).toNat =
    some (.instr (.vmovFromPattern ⟨1, 3, 2, 0, 0, 0, 0, 0, 0, 0, 0, 2⟩), []) := by decide +kernel

/-- R195: VDRAIN, op 0x27B. -/
theorem test_word_vdrain : word 3 (0x27B#10 ++ 1#3 ++ 3#8 ++ 4#8 ++ 5#8 ++ 6#8 ++ 0#3 ++ 0#1 ++ 0#4 ++ 0#3 ++ 0#4 ++ 0#3 ++ 0#33).toNat =
    some (.instr (.vdrain ⟨1, 3, 4, 5, 6, 0, 0, 0, 0, 0, 0, 0⟩), []) := by decide +kernel

/-- R98, VM: op 0x290 VLD, idle, v, base, stride, c, mask, mz, type, rnd, rot, stage, class, reserved, off. -/
theorem test_word_vld : word 3 (0x290#10 ++ 1#3 ++ 9#8 ++ 2#8 ++ 48#8 ++ 0#8 ++ 1#3 ++ 1#1 ++ 5#4 ++ 0#3 ++ 4#4 ++ 1#3 ++ 0#4 ++ 0#6 ++ 0x7FFFC0#23).toNat =
    some (.instr (.vld ⟨1, 9, 2, 48, 0, 1, 1, 5, 0, 4, 1, 0, 0, 0x7FFFC0⟩), []) := by decide +kernel

/-- R173: KPOP, op 0x2B5. -/
theorem test_word_kpop : word 3 (0x2B5#10 ++ 1#3 ++ 8#8 ++ 3#8 ++ 0#8 ++ 0#8 ++ 0#3 ++ 0#1 ++ 0#4 ++ 0#3 ++ 0#4 ++ 0#3 ++ 0#33).toNat =
    some (.instr (.kpop ⟨1, 8, 3, 0, 0, 0, 0, 0, 0, 0, 0, 0⟩), []) := by decide +kernel

/-- R99, C: op 0x2C0 CPY, idle, to, from, shape, aux, kind, class, reserved, cw, rot, stage, reserved, rtype. -/
theorem test_word_cpy : word 3 (0x2C0#10 ++ 1#3 ++ 1#8 ++ 2#8 ++ 3#8 ++ 0#8 ++ 3#4 ++ 7#4 ++ 0#2 ++ 1#1 ++ 0#4 ++ 0#3 ++ 0#29 ++ 0#4).toNat =
    some (.instr (.cpy ⟨1, 1, 2, 3, 0, 3, 7, 0, 1, 0, 0, 0, 0⟩), []) := by decide +kernel

/-- R100, M: op 0x301 MMUL. -/
theorem test_word_mmul : word 6 (0x301#10 ++ 1#3 ++ 0x123456#22 ++ 2#6 ++ 0x80#16 ++ 5#4 ++ 0#22 ++ 3#10 ++ 63#6 ++ 31#6 ++ 4#10 ++ 0#7 ++ 1#1 ++ 1#1 ++
      0#2 ++ 0#4 ++ 0#3 ++ 1#1 ++ 2#3 ++ 0#6 ++ 0#1 ++ 0#48).toNat =
    some (.instr (.mmul ⟨1, 0x123456, 2, 0x80, 5, 0, 3, 63, 31, 4, 0, 1, 1, 0, 0, 0, 1, 2, 0, 0, 0⟩), []) := by decide +kernel

/-- The same words as the host numbers their bits: the first unit lowest. -/
theorem test_tableWord : decodeTableWord 32 (0x000#10 ++ 1#3 ++ 3#6 ++ 33#6 ++ 47#6 ++ 1#1).toNat = some (.add ⟨1, 3, 33, 47, 1⟩) ∧
    decodeTableWord 96 (0xB0880000 + 0x00480000 * 2 ^ 32) = some (.cresume ⟨1, 0, 0, 0, 9, 0, 0, 0, 0, 0, 0, 0, 0⟩) ∧
    decodeTableWord 32 (0x1FF#10 ++ 0#22).toNat = none := by decide +kernel

/-! ### Ill-formed words (R103) -/

/-- What R103 finds wrong with a word: the lowest bit of the field. -/
def wrong (i : Instr) : Option Nat := if i.wellFormed then none else i.fieldFail.map (·.2)

theorem test_illFormed_scalar : [wrong (.add ⟨1, 32, 0, 0, 0⟩), wrong (.add ⟨1, 0, 61, 0, 0⟩), wrong (.add ⟨1, 0, 0, 63, 0⟩), wrong (.clz ⟨1, 0, 0, 1, 0⟩),
      wrong (.mul ⟨1, 31, 0, 0, 0⟩), wrong (.ret ⟨1, 0, 0, 0, 1⟩), wrong (.ret ⟨1, 0, 1, 0, 0⟩), wrong (.jmpr ⟨1, 1, 0, 0, 0⟩), wrong (.shli ⟨1, 0, 0, 64⟩),
      wrong (.br ⟨1, 6, 0, 0⟩), wrong (.loop ⟨1, 0, 0, 0, 0⟩), wrong (.loop ⟨1, 0, 0, 1, 8⟩), wrong (.loopr ⟨1, 0, 1, 0, 0, 1⟩),
      wrong (.loopr ⟨1, 0, 1, 1, 2, 0⟩), wrong (.nop ⟨1, 0x10000⟩), wrong (.trap ⟨1, 1, 0⟩), wrong (.stsD ⟨1, 61, 0, 0⟩), wrong (.fcvt ⟨1, 0, 0, 32, 0⟩),
      wrong (.csrr ⟨1, 0, 0x007⟩), wrong (.ldgW ⟨1, 48, 0, 0, 0, 0⟩), wrong (.ldgW ⟨1, 0, 0, 0, 2, 0⟩), wrong (.fence ⟨1, 0, 0⟩), wrong (.fence ⟨1, 1, 6⟩),
      wrong (.check ⟨1, 49, 0, 0, 0⟩), wrong (.precv ⟨1, 0, 0, 8⟩), wrong (.prelease ⟨1, 1, 0, 0⟩), wrong (.prelease ⟨1, 0, 1, 0⟩)] =
    [some 13, some 7, some 1, some 1, some 13, some 0, some 7, some 13, some 0, some 16, some 4, some 0, some 13, some 4, some 0, some 13, some 13, some 1,
      some 0, some 13, some 1, some 3, some 0, some 13, some 0, some 13, some 7] := by decide +kernel

/-- A VA-form word of no option: d, a, b, c, type, rnd, imm. -/
def vaw (d a b c : BitVec 8) (ty : BitVec 4) (rnd : BitVec 3) (imm : BitVec 33) : VAWord := ⟨1, d, a, b, c, 0, 0, ty, rnd, 0, 0, imm⟩

theorem test_illFormed_vector : [wrong (.vadd (vaw 32 0 0 0 4 0 0)), wrong (.vadd (vaw 0 120 0 0 4 0 0)), wrong (.vadd (vaw 0 0 48 0 4 0 0)),
      wrong (.vadd (vaw 0 0 0 1 4 0 0)), wrong (.vadd (vaw 0 0 0 0 3 0 0)), wrong (.vadd (vaw 0 0 0 0 4 7 0)), wrong (.vadd (vaw 0 0 0 0 4 0 0x100000000)),
      wrong (.vmin (vaw 0 0 0 0 4 1 0)), wrong (.vcmp (vaw 8 0 0 0 4 0 0)), wrong (.vcmp (vaw 0 119 0 0 4 0 0)), wrong (.vimul (vaw 0 0 0 0 3 0 3)),
      wrong (.vabs { vaw 0 0 0 0 4 0 0 with rot := 2 }), wrong (.vext { vaw 0 0 0 0 0 0 0 with mask := 1 }), wrong (.vext { vaw 0 0 0 0 0 0 0 with mz := 1 }),
      wrong (.vext (vaw 0 0 0 0 1 0 0)), wrong (.vext (vaw 31 0 0 0 0 0 0)), wrong (.vmovToPattern (vaw 4 0 0 0 0 0 1)), wrong (.vmov (vaw 0 0 0 0 0 0 3)),
      wrong (.vdrain (vaw 3 3 4 1 0 0 0)), wrong (.vdrain (vaw 3 4 4 1 0 0 0)), wrong (.vdrain (vaw 3 4 5 0 0 0 0)), wrong (.kand (vaw 0 8 0 0 0 0 0)),
      wrong (.kpop (vaw 31 0 0 0 0 0 0))] =
    [some 75, some 67, some 59, some 51, some 43, some 40, some 0, some 40, some 75, some 67, some 0, some 36, some 48, some 47, some 43, some 75, some 75,
      some 0, some 75, some 67, some 51, some 67, some 75] := by decide +kernel

/-- A VM-form word of no option. -/
def vmw (v base stride c : BitVec 8) (ty : BitVec 4) : VMWord := ⟨1, v, base, stride, c, 0, 0, ty, 0, 0, 0, 0, 0, 0⟩

/-- A C-form word of no option. -/
def cw0 (aux : BitVec 8) (kind : BitVec 4) : CWord := ⟨1, 1, 2, 3, aux, kind, 0, 0, 0, 0, 0, 0, 0⟩

theorem test_illFormed_memory : [wrong (.vld (vmw 32 0 0 0 4)), wrong (.vld (vmw 0 61 0 0 4)), wrong (.vld (vmw 0 0 61 0 4)), wrong (.vld (vmw 0 0 0 1 4)),
      wrong (.vld (vmw 0 0 0 0 9)), wrong (.vld { vmw 0 0 0 0 4 with cls := 1 }), wrong (.vld { vmw 0 0 0 0 4 with rsv := 1 }),
      wrong (.vst (vmw 119 0 0 0 4)), wrong (.vst { vmw 0 0 0 0 4 with mz := 1 }), wrong (.vst { vmw 0 0 0 0 4 with rnd := 1 }),
      wrong (.vst { vmw 0 0 0 0 5 with rnd := 7 }), wrong (.vldb (vmw 0 0 1 0 9)), wrong (.vldx (vmw 0 0 0 32 4)), wrong (.vxpl (vmw 0 0 0 4 3)),
      wrong (.cpy (cw0 0 6)), wrong (.cpy (cw0 8 5)), wrong (.cpy (cw0 1 0)), wrong (.cpy { cw0 0 0 with cls := 1 }), wrong (.cpy { cw0 0 0 with cw := 1 }),
      wrong (.cpy { cw0 0 0 with rtype := 1 }), wrong (.cpy { cw0 0 0 with rsva := 1 }), wrong (.cpy { cw0 0 0 with rsvb := 1 }),
      wrong (.psend { cw0 0 0 with dst := 0 }), wrong (.cresume { cw0 9 0 with shape := 0 })] =
    [some 75, some 67, some 59, some 51, some 43, some 29, some 23, some 75, some 47, some 40, some 40, some 59, some 51, some 51, some 47, some 51, some 51,
      some 43, some 40, some 0, some 41, some 4, some 0, some 75] := by decide +kernel

/-- An M-word of no option: areg, afmt, m, k, n, crow, ccol. -/
def mw (areg : BitVec 6) (afmt : BitVec 4) (m : BitVec 10) (k n : BitVec 6) (crow : BitVec 10) (ccol : BitVec 7) : MWord :=
  ⟨1, 0, areg, 0, afmt, 0, m, k, n, crow, ccol, 0, 0, 0, 0, 0, 0, 0, 0, 0, 0⟩

theorem test_illFormed_matrix : [wrong (.mwld (mw 61 5 0 0 0 0 0)), wrong (.mwld (mw 0 4 0 0 0 0 0)), wrong (.mwld (mw 0 9 0 0 0 0 0)), wrong (.mwld (mw 0 5 1 0 0 0 0)),
      wrong (.mmul (mw 0 5 1023 0 0 1 0)), wrong (.mmul { mw 0 5 1022 0 0 1 0 with ck := 1 }), wrong (.mmul { mw 0 5 0 0 0 0 0 with chain := 2, abase := 1 }),
      wrong (.mmul { mw 0 5 0 0 0 0 0 with hbase := 1 }), wrong (.mmul { mw 0 5 0 0 0 0 0 with rnd := 1 }), wrong (.mmul { mw 0 5 0 0 0 0 0 with rsv := 1 }),
      wrong (.mmul { mw 0 5 0 0 0 0 0 with mcast := 1 }), wrong (.mchk (mw 0 0 1022 0 0 1 0)), wrong (.mchk { mw 0 0 0 0 0 0 0 with astride := 1 }),
      wrong (.mzero (mw 0 0 0 0 63 0 2)), wrong (.mzero { mw 0 0 0 0 0 0 0 with acc := 1 }), wrong (.mald (mw 0 7 0 0 0 0 0)),
      wrong (.mast { mw 0 5 0 0 0 0 0 with rnd := 7 }), wrong (.mast { mw 0 4 0 0 0 0 0 with rnd := 1 })] =
    [some 151, some 131, some 87, some 99, some 77, some 77, some 157, some 109, some 59, some 0, some 62, some 77, some 135, some 70, some 69, some 131,
      some 59, some 59] := by decide +kernel

/-- Well-formed words pass, and a form that its selecting field does not name is not one. -/
theorem test_wellFormed : (Instr.add ⟨1, 48, 60, 47, 1⟩).wellFormed = true ∧ (Instr.launch ⟨1, 0, 1, 2, 0⟩).wellFormed = true ∧
    (Instr.launch ⟨1, 0, 48, 2, 0⟩).wellFormed = false ∧ (Instr.launchSignal ⟨1, 0, 1, 2, 0⟩).wellFormed = false ∧
    (Instr.vmov (vaw 0 0 0 0 0 0 1)).wellFormed = false ∧ (Instr.kmovToScalar (vaw 0 0 0 0 0 0 1)).wellFormed = false ∧
    (Instr.vadd (vaw 113 119 47 0 4 6 0x3F800000)).wellFormed = true ∧ (Instr.mmul (mw 0 5 1022 0 0 1 0)).wellFormed = true := by decide +kernel

/-! ### Hypotheses of the statements about the machine as a whole -/

theorem test_hyp_step : let s := at0 (.add ⟨1, 3, 1, 2, 0⟩)
    s.life = .running ∧ s.inputs = [] ∧ s.pick = some (.issue 0, s) ∧ (s.core 0).outside = false ∧ s.tornCycle 0 = false ∧
    (s.core 0).decodeAt (s.core 0).pc = .instr (.add ⟨1, 3, 1, 2, 0⟩) := by
  decide +kernel

/-- The next word lies outside the code region; the next word is of an unassigned opcode. -/
theorem test_hyp_stepTraps : let s := at0 (.nop ⟨1, 0⟩) (fun c => { c with pc := 0x40000 })
    let u := at0 (.nop ⟨1, 0⟩) (fun c => { c with spad := Memory.write [] 0 (leBytes 4 (0x140 * 2 ^ 22 + 2 ^ 19)) })
    s.pick = some (.issue 0, s) ∧ (s.core 0).outside = true ∧ u.pick = some (.issue 0, u) ∧ (u.core 0).outside = false ∧ u.tornCycle 0 = false ∧
    (u.core 0).decodeAt (u.core 0).pc = .unassigned 0x140 := by decide +kernel

/-- A coupled quad of which core 1 ends its region in the cycle of core 0's word, and core 0 does not. -/
theorem test_hyp_stepTorn : let u := (quad4 id).updCore 1 (fun c => { c with spad := Memory.write [] 0 (unitBytes (wordUnits 1 (encode (.commit ⟨1, 0, 0, 0, 0⟩)))) })
    (u.core 0).outside = false ∧ u.tornCycle 0 = true := by decide +kernel

theorem test_hyp_input : let s := { State.reset with inputs := [.pcapWrite 300] }
    s.life = .running ∧ isInput (.pcapWrite 300) = true ∧ s.inputNow (.pcapWrite 300) = true ∧ ({ State.reset with life := .ended } : State).life = .ended := by
  decide +kernel

theorem test_hyp_decodeAt : let c := (at0 (.add ⟨1, 3, 1, 2, 0⟩)).core 0
    c.dtab.rows = [] ∧ (decodeBytes (Memory.read c.spad c.pc 24)).map (·.1) = some (.instr (.add ⟨1, 3, 1, 2, 0⟩)) := by decide +kernel

theorem test_hyp_encode : (Instr.add ⟨7, 63, 63, 63, 1⟩).opcode = some 0 ∧ (Instr.add ⟨7, 63, 63, 63, 1⟩).formOk = true ∧
    (Instr.launchSignal ⟨1, 0, 48, 63, 1⟩).opcode.isSome = true ∧ (Instr.launchSignal ⟨1, 0, 48, 63, 1⟩).formOk = true := by decide +kernel

/-- The next state of an outcome. -/
def nextOf (x : Host.Outcome State Fault Refusal) : Option State := match x with
  | .next t => some t
  | _ => none

theorem next_of {x : Host.Outcome State Fault Refusal} (h : (nextOf x).isSome = true) : ∃ t, x = .next t := by
  cases x with
  | next t => exact ⟨t, rfl⟩
  | fault _ => cases h
  | refused _ => cases h

/-- A step of a machine whose memory is canonical and lists something; one word that goes on. -/
theorem test_hyp_canonical : Memory.wf (mapped0 id).mem ∧ ∃ t, step (mapped0 id) = .next t := ⟨by decide +kernel, next_of (by decide +kernel)⟩

theorem test_hyp_wordGoesOn : (Instr.add ⟨1, 3, 1, 2, 0⟩).opcode.isSome = true ∧
    ∃ t, exec (.add ⟨1, 3, 1, 2, 0⟩) (at0 (.add ⟨1, 3, 1, 2, 0⟩)) = .next t := ⟨by decide +kernel, next_of (by decide +kernel)⟩

/-! ### One step of a few words -/

/-- R116: a sum wraps at 2^64 and lands one cycle after its issue; a source that is the destination too is read first. -/
theorem test_add_wraps : (nextOf (exec (.add ⟨1, 3, 3, 1, 0⟩) (at0 (.add ⟨1, 3, 3, 1, 0⟩) (sregs [(1, 2), (3, 0xFFFFFFFFFFFFFFFF)])))).map
    (fun t => (t.core 0).flights.map (fun f => f.evs)) = some [[(2, .sland 3 1 false)]] := by decide +kernel

/-- R116: DIV by zero gives −1, DIVU all ones, and the most negative number by −1 itself. -/
theorem test_div_corners : divS 7 0 = 0xFFFFFFFFFFFFFFFF ∧ divU 7 0 = 0xFFFFFFFFFFFFFFFF ∧ divS 0x8000000000000000 0xFFFFFFFFFFFFFFFF = 0x8000000000000000 := by
  decide +kernel
end Sys2Proof.Tests
end

section
/-! The scalar words of R113 to R119: the landing of one result and its STACK check, the fields and counts of R117, and the immediates of
R118 and R119. -/
namespace Sys2Proof.Machine

/-! ### The landing of one result -/

/-- A value outside [SLIM, SBASE] for s31 raises STACK with that value (R43, R115). -/
theorem landScalar_stack {h : Head} {cx : Ctx} {s : State} {lat : Nat} {v : Word} {p : Bool} {a b o : Lanes × LMask}
    (hs : stackBad (s.core s.cur) v = true) : landScalar h cx s 31 a b o [(lat, .sland 31 v p)] = .trap 0x04 v := by
  simp [landScalar, hs]

section landing

variable {h : Head} {regs : Ctx → List Ref} {s : State} {body : Ctx → State → WRes} {d lat : Nat} {v : Word} {p : Bool}
  {a b o : Lanes × LMask}

/-- A word that can issue and whose meaning is to land one scalar result completes with it (R33, R113). -/
theorem issueWord_lands (hc : s.canIssue h regs)
    (hb : body (s.issueCtx h.idle) (s.atIssue h.idle) = landScalar h (s.issueCtx h.idle) (s.atIssue h.idle) d a b o [(lat, .sland d v p)])
    (hs : d = 31 → stackBad (s.issueCore h.idle) v = false) :
    ∃ t, issueWord h noPre regs body s = .next t ∧ s.Issued t h ∧ s.goesOn t h 0 ∧ s.puts t h [(lat, .sland d v p)] := by
  obtain ⟨t, hnext, hissued, hputs, hseq, -⟩ := landed (nx := .seq 0) hc noChange
    (by rw [State.atIssue_id]; exact hb.trans (landScalar_one (by rwa [State.atIssue_cur, State.atIssue_core])))
  exact ⟨t, hnext, hissued, hseq 0 rfl, hputs (by simp)⟩

/-- A word whose result s31 may not take raises STACK (R115). -/
theorem issueWord_stack (hc : s.canIssue h regs)
    (hb : body (s.issueCtx h.idle) (s.atIssue h.idle) = landScalar h (s.issueCtx h.idle) (s.atIssue h.idle) d a b o [(lat, .sland d v p)])
    (hd : d = 31) (hs : stackBad (s.issueCore h.idle) v = true) :
    issueWord h noPre regs body s = .next ((s.atIssue h.idle).trap s.cur h.eng 0x04 v) :=
  issueWord_trap hc rfl (hb.trans (hd ▸ landScalar_stack (by rwa [State.atIssue_cur, State.atIssue_core])))

/-- The step that runs decides what lies outside [SLIM, SBASE] (R43). -/
theorem stackBad_of_outside {n : Nat} (hc : s.canIssue h regs)
    (hv : ∀ k, (s.core s.cur).step = some k → v.toNat < k.slim ∨ k.sbase < v.toNat) : stackBad (s.issueCore n) v = true := by
  obtain ⟨hruns, -⟩ := hc
  obtain ⟨k, hk⟩ := Option.isSome_iff_exists.1 hruns
  simp [stackBad, State.issueCore, hk, hv k hk]

/-- Both ends of a word that lands one scalar result: it completes, or s31 may not take the result (R115). -/
theorem issueWord_result (hc : s.canIssue h regs)
    (hb : body (s.issueCtx h.idle) (s.atIssue h.idle) = landScalar h (s.issueCtx h.idle) (s.atIssue h.idle) d a b o [(lat, .sland d v p)]) :
    ((d = 31 → stackBad (s.issueCore h.idle) v = false) →
      ∃ t, issueWord h noPre regs body s = .next t ∧ s.Issued t h ∧ s.goesOn t h 0 ∧ s.puts t h [(lat, .sland d v p)]) ∧
    (d = 31 → (∀ k, (s.core s.cur).step = some k → v.toNat < k.slim ∨ k.sbase < v.toNat) →
      issueWord h noPre regs body s = .next ((s.atIssue h.idle).trap s.cur h.eng 0x04 v)) :=
  ⟨issueWord_lands hc hb, fun hd hv => issueWord_stack hc hb hd (stackBad_of_outside hc hv)⟩

end landing

section words

variable {i : Instr} {s : State}

/-- Words that read d_old beside a and b (R114). -/
theorem opABD_next {w : SRWord} {lat : Nat} {f : Word → Word → Word → Word}
    (hc : s.canIssue (hdSR i w (some lat)) (fun cx =>
      refS (rotS cx (w.z == 1) w.d.toNat) ++ refS (rotS cx (w.z == 1) w.a.toNat) ++ refS (rotS cx (w.z == 1) w.b.toNat))) :
    let h := hdSR i w (some lat)
    let cx := s.issueCtx h.idle
    let a := readS (s.issueCore h.idle) cx (rotS cx (w.z == 1) w.a.toNat)
    let b := readS (s.issueCore h.idle) cx (rotS cx (w.z == 1) w.b.toNat)
    let d := rotS cx (w.z == 1) w.d.toNat
    let o := readS (s.issueCore h.idle) cx d
    (d = 31 → stackBad (s.issueCore h.idle) (f a.1 b.1 o.1) = false) →
    ∃ t, opABD i w lat f s = .next t ∧ s.Issued t h ∧ s.goesOn t h 0 ∧
      s.puts t h [(lat, .sland d (f a.1 b.1 o.1) (a.2 || b.2 || o.2))] := by
  intro h cx a b d o hs
  unfold opABD
  refine issueWord_lands hc (a := capS a) (b := capS b) (o := capS o) ?_ hs
  simp only [State.atIssue_core, State.atIssue_cur, fxABD, uncapS_capS]
  rfl

/-- Words that read a only (R114). -/
theorem opA_next {w : SRWord} {lat : Nat} {f : Word → Word}
    (hc : s.canIssue (hdSR i w (some lat)) (fun cx => refS (rotS cx (w.z == 1) w.d.toNat) ++ refS (rotS cx (w.z == 1) w.a.toNat))) :
    let h := hdSR i w (some lat)
    let cx := s.issueCtx h.idle
    let a := readS (s.issueCore h.idle) cx (rotS cx (w.z == 1) w.a.toNat)
    let d := rotS cx (w.z == 1) w.d.toNat
    (d = 31 → stackBad (s.issueCore h.idle) (f a.1) = false) →
    ∃ t, opA i w lat f s = .next t ∧ s.Issued t h ∧ s.goesOn t h 0 ∧ s.puts t h [(lat, .sland d (f a.1) a.2)] := by
  intro h cx a d hs
  unfold opA
  refine issueWord_lands hc (a := capS a) (b := capNone) (o := capNone) ?_ hs
  simp only [State.atIssue_core, State.atIssue_cur, fxA, uncapS_capS]
  rfl

/-- Words of the immediate form (R118). -/
theorem opImm_next {w : SIWord} {f : Word → Word} (hc : s.canIssue (hdS i w.idle (some 1)) (fun _ => refS w.d.toNat ++ refS w.a.toNat)) :
    let h := hdS i w.idle (some 1)
    let a := readS (s.issueCore h.idle) (s.issueCtx h.idle) w.a.toNat
    (w.d.toNat = 31 → stackBad (s.issueCore h.idle) (f a.1) = false) →
    ∃ t, opImm i w f s = .next t ∧ s.Issued t h ∧ s.goesOn t h 0 ∧ s.puts t h [(1, .sland w.d.toNat (f a.1) a.2)] := by
  intro h a hs
  unfold opImm
  refine issueWord_lands hc (a := capS a) (b := capNone) (o := capNone) ?_ hs
  simp only [State.atIssue_core, State.atIssue_cur, fxA, uncapS_capS]
  rfl

end words

/-! ### Bit fields and counts (R117) -/

@[simp] theorem getLsbD_ones (w k : Nat) : (ones w).getLsbD k = decide (k < 64 ∧ k < w) := by
  simp [ones, BitVec.getLsbD_ofNat, Nat.testBit_two_pow_sub_one]

/-- The place of a field is b[5:0] (R117). -/
theorem bits_zero_six (n : Nat) : bits n 0 6 = n % 64 := by simp [bits]

/-- The width of a field is b[11:6] and one (R117). -/
theorem bits_six_six (n : Nat) : bits n 6 6 = n / 64 % 64 := rfl

@[simp] theorem getElem_ones (w : Nat) {k : Nat} (hk : k < 64) : (ones w)[k] = decide (k < w) := by
  rw [← BitVec.getLsbD_eq_getElem, getLsbD_ones]
  simp [hk]

/-- BFI keeps the bits of d_old outside the field (R117). -/
theorem getLsbD_bfi (a b o : Word) {k : Nat} (hk : k < 64) : (bfi a b o).getLsbD k = Claims.bfiBit a b o k := by
  simp only [bfi, Claims.bfiBit, bits_zero_six, bits_six_six, BitVec.getLsbD_or, BitVec.getLsbD_and, BitVec.getLsbD_not,
    BitVec.getLsbD_shiftLeft, getLsbD_ones]
  generalize b.toNat % 64 = p
  generalize b.toNat / 64 % 64 + 1 = width
  by_cases below : k < p
  · simp [below, hk, show ¬p ≤ k by omega]
  · by_cases inside : k < p + width
    · simp [below, inside, hk, show k - p < 64 by omega, show k - p < width by omega, show p ≤ k by omega]
    · simp [below, inside, hk, show ¬k - p < width by omega]

/-- BFX repeats the sign of the field above it where x is set (R117). -/
theorem getLsbD_bfx (a b : Word) {k : Nat} (hk : k < 64) : (bfx a b).getLsbD k = Claims.bfxBit a b k := by
  have hw : b.toNat / 64 % 64 < 64 := Nat.mod_lt _ (by omega)
  simp only [bfx, Claims.bfxBit, bits_zero_six, bits_six_six, Nat.add_sub_cancel, ← Nat.add_assoc, BitVec.getLsbD_and,
    BitVec.getLsbD_ushiftRight, getLsbD_ones]
  generalize b.toNat % 64 = p
  generalize b.toNat / 64 % 64 = n at hw
  simp only [hw, Nat.lt_succ_self, and_self, decide_true, Bool.and_true]
  by_cases inside : k < n + 1
  · split <;> simp [hk, inside]
  · cases b.getLsbD 12 && a.getLsbD (p + n) <;> simp [hk, inside]

/-- The count of leading zeros is the place of the first one. -/
theorem zeros_map_range {n m : Nat} {f : Nat → Bool} (hm : m ≤ n) (h0 : ∀ k, k < m → f k = false) (h1 : m < n → f m = true) :
    Claims.zeros ((List.range n).map f) = m := by
  induction m generalizing n f with
  | zero =>
    cases n with
    | zero => rfl
    | succ n => simp [Claims.zeros, List.range_succ_eq_map, h1]
  | succ m ih =>
    obtain ⟨n, rfl⟩ : ∃ n', n = n' + 1 := ⟨n - 1, by omega⟩
    have ht := ih (n := n) (f := f ∘ Nat.succ) (by omega) (fun k hk => h0 _ (by omega)) (fun h => h1 (by omega))
    simpa [Claims.zeros, List.range_succ_eq_map, h0 0] using ht

theorem clz64_eq_zeros (a : Word) : clz64 a = Claims.zeros ((List.range 64).map (fun k => a.getLsbD (63 - k))) := by
  unfold clz64
  split
  next h => exact (zeros_map_range (by omega) (by simp [h]) (by omega)).symm
  next h =>
    have hn : a.toNat ≠ 0 := fun e => h (BitVec.eq_of_toNat_eq e)
    have hl : a.toNat.log2 < 64 := (Nat.log2_lt hn).2 a.isLt
    refine (zeros_map_range (by omega) (fun k hk => ?_) (fun _ => ?_)).symm
    · exact Nat.testBit_lt_two_pow (Nat.lt_of_lt_of_le Nat.lt_log2_self (Nat.pow_le_pow_right (by omega) (by omega)))
    · rw [show 63 - (63 - a.toNat.log2) = a.toNat.log2 by omega]
      exact Nat.testBit_log2 hn

theorem ctzAux_eq_zeros (n x : Nat) : ctzAux n x = Claims.zeros ((List.range n).map x.testBit) := by
  induction n generalizing x with
  | zero => rfl
  | succ n ih =>
    have ht : x.testBit ∘ Nat.succ = (x / 2).testBit := funext fun k => Nat.testBit_succ x k
    rw [ctzAux, ih, List.range_succ_eq_map, List.map_cons, List.map_map, ht, Nat.testBit_zero]
    by_cases h : x % 2 = 1 <;> simp [Claims.zeros, h, Nat.add_comm]

theorem popAux_eq_length (n x : Nat) : popAux n x = ((List.range n).filter x.testBit).length := by
  induction n generalizing x with
  | zero => rfl
  | succ n ih =>
    have ht : x.testBit ∘ Nat.succ = (x / 2).testBit := funext fun k => Nat.testBit_succ x k
    rw [popAux, ih, List.range_succ_eq_map, List.filter_cons, List.filter_map, ht, Nat.testBit_zero]
    obtain h | h := Nat.mod_two_eq_zero_or_one x <;> simp [h, Nat.add_comm]

theorem aluClz_eq : aluClz = fun a => BitVec.ofNat 64 (Claims.zeros ((List.range 64).map (fun k => a.getLsbD (63 - k)))) :=
  funext fun a => congrArg (BitVec.ofNat 64) (clz64_eq_zeros a)

theorem aluCtz_eq : aluCtz = fun a => BitVec.ofNat 64 (Claims.zeros ((List.range 64).map (fun k => a.getLsbD k))) :=
  funext fun a => congrArg (BitVec.ofNat 64) (ctzAux_eq_zeros 64 a.toNat)

theorem aluPopc_eq : aluPopc = fun a => BitVec.ofNat 64 ((List.range 64).filter (fun k => a.getLsbD k)).length :=
  funext fun a => congrArg (BitVec.ofNat 64) (popAux_eq_length 64 a.toNat)

/-- Settles O2: each word is `opABD`, `opAB` or `opA` of its value, and the value is the only word with the bits named. -/
theorem scalarSelectAndCountWords : Obligations.ScalarSelectAndCountWords := by
  unfold Obligations.ScalarSelectAndCountWords
  refine ⟨?_, ?_, ?_⟩
  · rintro w s i (rfl | rfl) h cx z a b d o hc v hselz hbfi hs
    · obtain rfl := hselz rfl
      exact opABD_next (f := aluSelz) hc hs
    · obtain rfl : v = bfi a.1 b.1 o.1 := BitVec.eq_of_getLsbD_eq fun k hk => by rw [hbfi rfl k hk, getLsbD_bfi _ _ _ hk]
      exact opABD_next (f := aluBfi) hc hs
  · intro w s h cx z a b d hc v hbfx hs
    obtain rfl : v = bfx a.1 b.1 := BitVec.eq_of_getLsbD_eq fun k hk => by rw [hbfx k hk, getLsbD_bfx _ _ hk]
    exact opAB_next (f := aluBfx) hc hs
  · intro w s i f hf h cx z a d hc hs
    have hop : exec i s = opA i w 1 (fun x => BitVec.ofNat 64 (f x)) s := by
      simp only [List.mem_cons, Prod.mk.injEq, List.not_mem_nil, or_false] at hf
      obtain ⟨rfl, rfl⟩ | ⟨rfl, rfl⟩ | ⟨rfl, rfl⟩ := hf
      · exact congrArg (fun g => opA (.clz w) w 1 g s) aluClz_eq
      · exact congrArg (fun g => opA (.ctz w) w 1 g s) aluCtz_eq
      · exact congrArg (fun g => opA (.popc w) w 1 g s) aluPopc_eq
    rw [hop]
    exact opA_next hc hs

/-! ### Immediates and constants (R118, R119) -/

/-- A signed comparison of words compares their signed values. -/
theorem b2w_slt (a b : Word) : b2w (a.slt b) = if a.toInt < b.toInt then 1 else 0 := by
  simp [b2w, BitVec.slt]

/-- Every word of the table is `opImm` of its value. -/
theorem exec_immediate {w : SIWord} {i : Instr} {f : Word → Word} (hf : (i, f) ∈ Claims.immediate w) (s : State) :
    exec i s = opImm i w f s := by
  simp only [Claims.immediate, List.mem_cons, Prod.mk.injEq, List.not_mem_nil, or_false] at hf
  obtain ⟨rfl, rfl⟩ | ⟨rfl, rfl⟩ | ⟨rfl, rfl⟩ | ⟨rfl, rfl⟩ | ⟨rfl, rfl⟩ | ⟨rfl, rfl⟩ | ⟨rfl, rfl⟩ | ⟨rfl, rfl⟩ := hf
  iterate 7 · rfl
  · exact congrArg (fun g => opImm (.slti w) w g s) (funext fun a => b2w_slt a (sext7 w.imm))

/-- Shifting in the 13 bits of the immediate adds it to d_old × 2^13 (R119). -/
theorem shiftLeft_or_setWidth (o : Word) (x : BitVec 13) :
    (o <<< 13) ||| x.setWidth 64 = BitVec.ofNat 64 (o.toNat * 2 ^ 13 + x.toNat) := by
  apply BitVec.eq_of_toNat_eq
  rw [BitVec.toNat_or, BitVec.toNat_shiftLeft, BitVec.toNat_setWidth, BitVec.toNat_ofNat, ← Nat.or_mod_two_pow,
    ← Nat.shiftLeft_add_eq_or_of_lt x.isLt, Nat.shiftLeft_eq]

theorem exec_movi (w : SLWord) (s : State) : exec (.movi w) s = execMovi w s := rfl
theorem exec_movsh (w : SLWord) (s : State) : exec (.movsh w) s = execMovsh w s := rfl

/-- What MOVSH lands, from the value and poison of d_old. -/
theorem fxMovsh_capS (w : SLWord) (o : Word × Bool) :
    fxMovsh w (capS o) = [(1, .sland w.d.toNat (BitVec.ofNat 64 (o.1.toNat * 2 ^ 13 + w.imm.toNat)) o.2)] := by
  rw [fxMovsh, fxA, uncapS_capS, shiftLeft_or_setWidth]

/-- Settles O3: the words of the table by `opImm_next`; MOVI and MOVSH land one result, which the STACK check of s31 may stop. -/
theorem scalarImmediateWords : Obligations.ScalarImmediateWords := by
  unfold Obligations.ScalarImmediateWords
  refine ⟨fun w m => ⟨rfl, rfl, rfl⟩, ?_, ?_, ?_⟩
  · intro w s i f hf h a hc hs
    rw [exec_immediate hf]
    exact opImm_next hc hs
  · intro w s h v hc
    rw [exec_movi, execMovi]
    exact issueWord_result hc rfl
  · intro w s h o v hc
    rw [exec_movsh, execMovsh]
    refine issueWord_result hc (a := capNone) (b := capNone) (o := capS o) ?_
    simp only [State.atIssue_core, State.atIssue_cur, fxMovsh_capS]
    rfl

end Sys2Proof.Machine
end

section
/-! Control flow (R120 to R129, R345): words that put nothing in flight, and the places where they send the stream. -/
namespace Sys2Proof.Machine

section still

variable {h : Head} {regs : Ctx → List Ref} {s : State} {body : Ctx → State → WRes}

/-- A word whose meaning changes nothing completes, leaves what is in flight, and sends the stream where its meaning says. -/
theorem issueWord_still {nx : Next} (hc : s.canIssue h regs)
    (hb : body (s.issueCtx h.idle) (s.atIssue h.idle) = .ok (s.atIssue h.idle) nx) :
    ∃ t, issueWord h noPre regs body s = .next t ∧ s.Issued t h ∧ (t.core s.cur).flights = (s.core s.cur).flights ∧
      (∀ x, nx = .seq x → s.goesOn t h x) ∧
      (∀ pc base, nx = .to pc base → (t.core s.cur).pc = pc ∧ (t.core s.cur).base = base) := by
  obtain ⟨hissued, -, hseq, hto⟩ := issued_addOp s h id noChange 0 ⟨0, 0⟩ capNone capNone capNone 0 [] _ _ nx rfl
  rw [State.addOp_nil, State.atIssue_id] at hissued hseq hto
  exact ⟨_, issueWord_ok hc rfl hb, hissued, by simp [State.issueCore], hseq, hto⟩

/-- A word without effect: the stream goes on behind it. -/
theorem issueWord_passes {x : Nat} (hc : s.canIssue h regs)
    (hb : body (s.issueCtx h.idle) (s.atIssue h.idle) = .ok (s.atIssue h.idle) (.seq x)) :
    ∃ t, issueWord h noPre regs body s = .next t ∧ s.Issued t h ∧ s.goesOn t h x ∧
      (t.core s.cur).flights = (s.core s.cur).flights := by
  obtain ⟨t, hnext, hissued, hflights, hseq, -⟩ := issueWord_still hc hb
  exact ⟨t, hnext, hissued, hseq x rfl, hflights⟩

/-- A target that R122 accepts raises no trap. -/
theorem targetTrap_of_good {n : Nat} {target : Word} (ht : Claims.goodTarget (s.core s.cur) target) :
    targetTrap (s.issueCore n) target = none := by
  obtain ⟨haligned, i, hstep, hlow, hhigh⟩ := ht
  simp [targetTrap, inCode, State.issueCore, hstep, haligned, hlow, hhigh]

/-- A transfer to such a target sends the stream there (R122). -/
theorem issueWord_transfers {target : Word} (hc : s.canIssue h regs) (ht : Claims.goodTarget (s.core s.cur) target)
    (hb : body (s.issueCtx h.idle) (s.atIssue h.idle) =
      (targetTrap (s.issueCore h.idle) target).getD (.ok (s.atIssue h.idle) (transfer (s.issueCtx h.idle) target))) :
    ∃ t, issueWord h noPre regs body s = .next t ∧ s.Issued t h ∧ Claims.transfers s t h target.toNat ∧
      (t.core s.cur).flights = (s.core s.cur).flights := by
  rw [targetTrap_of_good ht, Option.getD_none] at hb
  obtain ⟨t, hnext, hissued, hflights, -, hto⟩ := issueWord_still hc hb
  exact ⟨t, hnext, hissued, hto _ _ rfl, hflights⟩

/-- The target of a relative transfer counts from the word's address (R89, R124). -/
theorem relTarget_issueCtx {n k : Nat} (off : BitVec n) :
    relTarget (s.issueCtx k) off = BitVec.ofInt 64 ((s.core s.cur).pc + 4 * off.toInt) := by
  simp [relTarget, State.issueCtx, Core.ctx, State.issueCore]

end still

/-! ### Branches and jumps (R122 to R124) -/

/-- The model's condition is that of R123, wherever a branch gets as far as to test it. -/
theorem branchTaken_iff {cond : Nat} {a : Word × Bool} (h : cond = 7 ∨ a.2 = false) :
    branchTaken cond a = true ↔ Claims.taken cond a := by
  have hzero : a.1 = 0#64 ↔ a.1.toInt = 0 := by rw [← BitVec.toInt_inj, BitVec.toInt_zero]
  match cond with
  | 0 => simp [branchTaken, Claims.taken, hzero]
  | 1 => simp [branchTaken, Claims.taken, hzero]
  | 2 | 3 | 4 | 5 => simp [branchTaken, Claims.taken, BitVec.slt]
  | k + 6 => obtain h | h := h <;> simp [branchTaken, Claims.taken, h]

theorem exec_br (w : SBWord) (s : State) : exec (.br w) s = execBr w s := rfl
theorem exec_jmp (w : SJWord) (s : State) : exec (.jmp w) s = execJmp w s := rfl
theorem exec_jmpr (w : SRWord) (s : State) : exec (.jmpr w) s = execJmpr w s := rfl

/-- Settles O8: each word is a case of `issueWord_trap`, `issueWord_passes` or `issueWord_transfers`. -/
theorem branchesAndJumps : Obligations.BranchesAndJumps := by
  unfold Obligations.BranchesAndJumps
  refine ⟨fun b j r => ⟨rfl, rfl, rfl⟩, ?_, ?_, ?_⟩
  · intro w s
    dsimp only
    intro hc
    rw [exec_br, execBr]
    refine ⟨fun hcond hpsn => issueWord_trap hc rfl ?_, fun htested => ?_⟩
    · simp [hcond, hpsn, psnTval]
    · refine ⟨fun hnot => issueWord_passes hc ?_, fun htaken ht => issueWord_transfers hc ht ?_⟩
      · simpa [branchTaken_iff htested, hnot] using htested.resolve_left
      · simp +contextual [branchTaken_iff htested, htaken, relTarget_issueCtx, htested.resolve_left]
  · intro w s h target hc ht
    rw [exec_jmp, execJmp]
    exact issueWord_transfers hc ht (by rw [relTarget_issueCtx, State.atIssue_cur, State.atIssue_core])
  · intro w s
    dsimp only
    intro hc
    rw [exec_jmpr, execJmpr]
    refine ⟨fun hpsn => issueWord_trap hc rfl ?_, fun hpsn ht => issueWord_transfers hc ht ?_⟩
    · simp only [State.atIssue_cur, State.atIssue_core, hpsn, if_true, psnTval]
    · simp only [State.atIssue_cur, State.atIssue_core, hpsn, Bool.false_eq_true, if_false]

/-! ### Gaps, waits and checks (R128, R129, R345) -/

theorem exec_nop (w : SJWord) (s : State) : exec (.nop w) s = execNop w s := rfl
theorem exec_waitt (w : SRWord) (s : State) : exec (.waitt w) s = execWaitt w s := rfl
theorem exec_check (w : SRWord) (s : State) : exec (.check w) s = execCheck w s := rfl

/-- The lowest lane of a mask, found lane by lane. -/
theorem find?_lane {p : LMask} {k : Nat} (hk : k < 64) (hset : p.getLsbD k = true) (hlow : ∀ j, j < k → p.getLsbD j = false) :
    (List.range 64).find? (fun i => p.getLsbD i) = some k :=
  List.find?_range_eq_some.2 ⟨hset, List.mem_range.2 hk, fun j hj => by simp [hlow j hj]⟩

theorem find?_lane_zero : (List.range 64).find? (fun i => (0 : LMask).getLsbD i) = none := by
  simp

/-- The first poisoned one of two operands raises POISON with its code; without one nothing is raised (R121). -/
theorem psnTrap_pair (c : Core) (cx : Ctx) (a b : Nat) : psnTrap c cx [a, b] =
    if (readS c cx a).2 then some (.trap 0x08 (psnTval a)) else if (readS c cx b).2 then some (.trap 0x08 (psnTval b)) else none := by
  simp only [psnTrap, List.find?_cons, List.find?_nil]
  cases (readS c cx a).2 <;> cases (readS c cx b).2 <;> rfl

/-- Settles O11: NOP passes; WAITT traps, passes or leaves the stream where it is; CHECK traps at a lane, else at a or b, else passes. -/
theorem gapsWaitsAndChecks : Obligations.GapsWaitsAndChecks := by
  unfold Obligations.GapsWaitsAndChecks
  refine ⟨fun j w => ⟨rfl, rfl, rfl⟩, ?_, ?_, ?_⟩
  · intro w s h hc
    rw [exec_nop, execNop]
    exact issueWord_passes hc rfl
  · intro w s
    dsimp only
    intro hc
    rw [exec_waitt, execWaitt]
    refine ⟨fun hpsn => issueWord_trap hc rfl ?_, fun hpsn hdt => issueWord_passes hc ?_, fun hpsn hdt => issueWord_fin hc rfl ?_⟩
    · simp only [State.atIssue_cur, State.atIssue_core, hpsn, if_true, psnTval]
    · simp only [State.atIssue_cur, State.atIssue_core, hpsn, Bool.false_eq_true, if_false]
      exact if_pos hdt
    · simp only [State.atIssue_cur, State.atIssue_core, hpsn, Bool.false_eq_true, if_false]
      exact if_neg (Nat.not_le.2 hdt)
  · intro w s
    dsimp only
    intro hc
    rw [exec_check, execCheck]
    refine ⟨fun k hk hset hlow => issueWord_trap hc rfl ?_, fun hlanes ha => issueWord_trap hc rfl ?_,
      fun hlanes ha hb => issueWord_trap hc rfl ?_, fun hlanes ha hb => issueWord_passes hc ?_⟩
    · simp only [State.atIssue_cur, State.atIssue_core, find?_lane hk hset hlow]
    · simp only [State.atIssue_cur, State.atIssue_core, hlanes, find?_lane_zero, psnTrap_pair, ha, if_true, psnTval, Option.getD_some]
    · simp only [State.atIssue_cur, State.atIssue_core, hlanes, find?_lane_zero, psnTrap_pair, ha, hb, Bool.false_eq_true, if_true,
        if_false, psnTval, Option.getD_some]
    · simp only [State.atIssue_cur, State.atIssue_core, hlanes, find?_lane_zero, psnTrap_pair, ha, hb, Bool.false_eq_true,
        if_false, Option.getD_none]

end Sys2Proof.Machine
end
